-- ==== Sys2Proof/Word.lean ====
section
/-! DEFINITION. The word types of the device (R1, R33), the fields of an instruction word as data (R115-R122), and the
payloads that the outside world hands to the device (R365, R427, R430). Plain data only. -/

namespace Sys2Proof

/-- A 64-bit register or address (R62, R89). -/
abbrev Word := BitVec 64
/-- A vector register (R172). -/
abbrev Vec := BitVec 128
abbrev Byte := BitVec 8
/-- A finite map by Nat key, ascending and without repeats; what it does not list has the map's default. -/
abbrev Map (α : Type) := List (Nat × α)

/-- The register class of R119. -/
inductive Cls | g | v | p | s
  deriving DecidableEq, Repr

/-- A register field (R119): class, synchronised read, negate, code sub-field, index. -/
structure RegOpd where
  cls : Cls
  sync : Bool
  neg : Bool
  code : BitVec 4
  idx : BitVec 6
  deriving DecidableEq, Repr

/-- An operand field by its kind (R118). A wide operand stands in fields a and b together (R120): `wide` holds the
low 24 bits in field a, and `hi` the 26 bits of field b. -/
inductive Opd
  | reg (r : RegOpd)
  | imm (i : BitVec 24)
  | wide (lo : BitVec 24)
  | hi (h : BitVec 26)
  | none
  deriving DecidableEq, Repr

/-- Everything in an instruction word but its opcode: guard (R129), hint (R130), fields d, a and b. -/
structure Args where
  inv : Bool
  pred : BitVec 3
  hint : BitVec 4
  d : Opd
  a : Opd
  b : Opd
  deriving DecidableEq, Repr

/-- A comparison condition (R146, R183), in opcode order. -/
inductive Cond | eq | ne | lt | le | gt | ge
  deriving DecidableEq, Repr

/-- A scope of acquire, release and fence (R205), in opcode order. -/
inductive Scope | core | blk | dst | dev | dom
  deriving DecidableEq, Repr

/-- The two hardware loop sets (R152). -/
inductive LoopSet | l0 | l1
  deriving DecidableEq, Repr

/-- A fabric packet (R430): the fields of its routing header, in `rsvd` the header's reserved bits and bytes, from the lowest up, and its
payload: in clear before it is sealed and once it is opened, else the ciphertext with its tag. -/
structure FabPkt where
  dst : Nat
  src : Nat
  gen : Nat
  cls : Nat
  kind : Nat
  seq : Nat
  ctx : Nat
  colour : Bool
  hops : Nat
  rsvd : Nat
  payload : List Byte
  deriving DecidableEq, Repr

/-- A chip-link flit (R427). -/
structure Flit where
  lseq : Nat
  cls : Nat
  kind : Nat
  start : Nat
  data : List Byte
  crc : BitVec 32
  deriving DecidableEq, Repr

/-- A transaction of the host port (R421, R422): `kind` 0 a request to memory, 1 a request to configuration space, 2 a completion; the BAR of
a host's request (any other value: device memory), whether it belongs to the IDE stream, the address or offset, the tag, how many bytes, and
the bytes of a write or of a successful completion (`none` for a read, or for Unsupported Request). -/
structure Tlp where
  kind : Nat
  bar : Nat
  ide : Bool
  offset : Nat
  tag : Nat
  len : Nat
  data : Option (List Byte)
  deriving DecidableEq, Repr

/-- What the Plaza sees of a post (R382): op, element type, root, elements, and whether a reserved field is set. -/
structure PostSig where
  op : Nat
  dtype : Nat
  root : Nat
  n : Nat
  bad : Bool
  deriving DecidableEq, Repr

/-- A ticket rank (R383): domain sequence and local sequence. -/
structure Rank where
  dom : Nat
  loc : Nat
  deriving DecidableEq, Repr

/-- An SPDM request as the responder reads it (R423): the algorithm offered in each category, or the raw bytes. -/
structure SpdmReq where
  session : Nat
  asym : Nat
  hash : Nat
  dhe : Nat
  aead : Nat
  sched : Nat
  body : List Byte
  deriving DecidableEq, Repr

end Sys2Proof
end

