-- ==== Sys2Proof/Syntax.lean ====
section
/-! DEFINITION. The instructions and events of the device, one constructor per row of opcode_table.json.
An instruction carries the fields of its 96-bit word (R115); an event carries what names its subject. -/

namespace Sys2Proof

/-- The rows of the table of operations and events. The first 158 are the Llynta forms of R131; the others are steps of
the device's own units, of the network, and of the outside world. -/
inductive Instr
  /-- R139: Adds two integers at the width of the type, wrapping or saturating. -/
  | add (x : Args)
  /-- R139: Subtracts two integers at the width of the type, wrapping or saturating. -/
  | sub (x : Args)
  /-- R139: Multiplies two integers at the width of the type, wrapping or saturating. -/
  | mul (x : Args)
  /-- R139: Writes the upper half of the 2w-bit integer product. -/
  | mulh (x : Args)
  /-- R140: Divides integers, truncating toward zero, with the defined results for zero and overflow. -/
  | div (x : Args)
  /-- R140: Writes the integer remainder, which takes the sign of the dividend. -/
  | rem (x : Args)
  /-- R139: Writes the smaller of two integers. -/
  | min (x : Args)
  /-- R139: Writes the larger of two integers. -/
  | max (x : Args)
  /-- R139: Writes the absolute value of an integer. -/
  | abs (x : Args)
  /-- R139: Writes the negation of an integer. -/
  | neg (x : Args)
  /-- R141: Writes the bitwise AND of two values. -/
  | and (x : Args)
  /-- R141: Writes the bitwise OR of two values. -/
  | or (x : Args)
  /-- R141: Writes the bitwise XOR of two values. -/
  | xor (x : Args)
  /-- R141: Writes x AND NOT y. -/
  | andn (x : Args)
  /-- R141: Shifts left, with an optional saturating check. -/
  | shl (x : Args)
  /-- R141: Shifts right logically. -/
  | shr (x : Args)
  /-- R141: Shifts right arithmetically. -/
  | sar (x : Args)
  /-- R141: Rotates left by the count modulo the width. -/
  | rot (x : Args)
  /-- R142: Counts the leading zeros of the w-bit pattern. -/
  | clz (x : Args)
  /-- R142: Counts the trailing zeros of the w-bit pattern. -/
  | ctz (x : Args)
  /-- R142: Counts the one bits of the w-bit pattern. -/
  | popc (x : Args)
  /-- R142: Sign-extends or zero-extends a narrow value. -/
  | ext (x : Args)
  /-- R143: Extracts a bit field. -/
  | bfx (x : Args)
  /-- R143: Inserts a bit field into the destination. -/
  | bfi (x : Args)
  /-- R144: Selects one of two values by a predicate. -/
  | sel (x : Args)
  /-- R145: Copies a register or a sign-extended immediate. -/
  | mov (x : Args)
  /-- R145: Writes a 64-bit wide immediate. -/
  | movw (x : Args)
  /-- R145: Writes the address named by a memory operand, without any access. -/
  | lea (x : Args)
  /-- R146: Compares two integers under the condition suffix and writes a predicate. -/
  | cmp (c : Cond) (x : Args)
  /-- R147: ANDs two predicates. -/
  | pand (x : Args)
  /-- R147: ORs two predicates. -/
  | por (x : Args)
  /-- R147: XORs two predicates. -/
  | pxor (x : Args)
  /-- R147: Inverts a predicate. -/
  | pnot (x : Args)
  /-- R149: Branches by a code offset. -/
  | br (x : Args)
  /-- R149: Branches to a register address, or ends the strand at the exit link. -/
  | bri (x : Args)
  /-- R149: Branches by a code offset and writes the return address into lk. -/
  | call (x : Args)
  /-- R149: Returns to lk, or ends the strand at the exit link. -/
  | ret (x : Args)
  /-- R152: Arms hardware loop set 0 or 1. -/
  | loop (n : LoopSet) (x : Args)
  /-- R153: Leaves an armed hardware loop. -/
  | lbrk (n : LoopSet) (x : Args)
  /-- R131: Does nothing beyond the loop end check. -/
  | nop (x : Args)
  /-- R162: Halts the strand as a cordon root with a software trap. -/
  | halt (x : Args)
  /-- R162: Halts the strand with a software trap carrying an immediate. -/
  | trap (x : Args)
  /-- R162: Halts the strand with a breakpoint trap. -/
  | bkpt (x : Args)
  /-- R163: Releases a cordon root from its saved image. -/
  | rls (x : Args)
  /-- R155: Reads a special register. -/
  | mfs (x : Args)
  /-- R155: Writes a special register. -/
  | mts (x : Args)
  /-- R157: Waits for all earlier accesses to be acknowledged, then writes dtime. -/
  | time (x : Args)
  /-- R158: Arms the strand's deadline. -/
  | dln (x : Args)
  /-- R158: Disarms the strand's deadline. -/
  | dlx (x : Args)
  /-- R161: Writes the partition fact that a selector names. -/
  | part (x : Args)
  /-- R166: Starts a strand in an empty permitted slot, optionally binding a unit. -/
  | strt (x : Args)
  /-- R167: Frees an ended slot. -/
  | reap (x : Args)
  /-- R168: Moves a parked strand into the spill run queue. -/
  | evict (x : Args)
  /-- R170: Moves the earliest ready spill entry into an empty permitted slot. -/
  | admitStrand (x : Args)
  /-- R171: Moves the issuer into the spill run queue as a ready entry. -/
  | yield (x : Args)
  /-- R165: Takes the oldest untaken unit from the unit inbox, parking until one arrives. -/
  | utake (x : Args)
  /-- R180: Adds vector lanes, integer or floating. -/
  | vadd (x : Args)
  /-- R180: Subtracts vector lanes. -/
  | vsub (x : Args)
  /-- R180: Multiplies vector lanes. -/
  | vmul (x : Args)
  /-- R180: Performs a fused multiply-add in each floating lane. -/
  | vfma (x : Args)
  /-- R181: Writes the lane-wise minimum. -/
  | vmin (x : Args)
  /-- R181: Writes the lane-wise maximum. -/
  | vmax (x : Args)
  /-- R182: Writes the lane-wise absolute value. -/
  | vabs (x : Args)
  /-- R182: Writes the lane-wise negation. -/
  | vneg (x : Args)
  /-- R184: ANDs 128 bits bitwise. -/
  | vand (x : Args)
  /-- R184: ORs 128 bits bitwise. -/
  | vor (x : Args)
  /-- R184: XORs 128 bits bitwise. -/
  | vxor (x : Args)
  /-- R178: Shifts each lane left. -/
  | vshl (x : Args)
  /-- R178: Shifts each lane right logically. -/
  | vshr (x : Args)
  /-- R178: Shifts each lane right arithmetically. -/
  | vsar (x : Args)
  /-- R183: Compares lanes under the condition suffix and writes predicate bits. -/
  | vcmp (c : Cond) (x : Args)
  /-- R185: Selects bytes by their sign bits. -/
  | vsel (x : Args)
  /-- R179: Accumulates four-byte dot products into 32-bit lanes. -/
  | vdot (x : Args)
  /-- R186: Sums all lanes into lane 0. -/
  | vsum (x : Args)
  /-- R193: Computes 2^x in each lane, correctly rounded. -/
  | vexp2 (x : Args)
  /-- R193: Computes log2 x in each lane. -/
  | vlog2 (x : Args)
  /-- R193: Computes 1/x in each lane. -/
  | vrcp (x : Args)
  /-- R193: Computes 1/sqrt x in each lane. -/
  | vrsq (x : Args)
  /-- R193: Computes tanh x in each lane. -/
  | vtanh (x : Args)
  /-- R194: Splits each lane into a fraction and an integer. -/
  | vexpn (x : Args)
  /-- R195: Writes the lane-wise maximum of exponents. -/
  | vmaxe (x : Args)
  /-- R196: Scales each lane by a power of two. -/
  | vldexp (x : Args)
  /-- R197: Updates a running maximum and writes the shift. -/
  | vrmax (x : Args)
  /-- R190: Converts lanes from a source type to a target type. -/
  | vcvt (x : Args)
  /-- R187: Rearranges bytes by selectors. -/
  | vperm (x : Args)
  /-- R188: Writes a value into every lane. -/
  | vsplat (x : Args)
  /-- R189: Writes a value into one lane. -/
  | vins (x : Args)
  /-- R189: Reads one lane into a g register. -/
  | vext (x : Args)
  /-- R202: Loads one value into a g register. -/
  | ld (x : Args)
  /-- R202: Stores one value from a g register. -/
  | st (x : Args)
  /-- R203: Loads 16 bytes into a v register under a byte mask. -/
  | vld (x : Args)
  /-- R203: Stores the unmasked bytes of a v register. -/
  | vst (x : Args)
  /-- R204: Loads up to eight consecutive 64-bit words. -/
  | ldm (x : Args)
  /-- R204: Posts up to eight consecutive 64-bit stores. -/
  | stm (x : Args)
  /-- R206: Loads a value and orders the strand's later accesses after it. -/
  | acq (c : Scope) (x : Args)
  /-- R207: Stores a value after the earlier accesses within the scope are acknowledged. -/
  | rel (c : Scope) (x : Args)
  /-- R208: Parks until the earlier accesses within the scope are acknowledged. -/
  | fnc (c : Scope) (x : Args)
  /-- R216: Sends a message to an inbox or a channel. -/
  | send (x : Args)
  /-- R217: Receives a message from the inbox or a channel, waiting by R210. -/
  | recv (x : Args)
  /-- R221: Writes a value into another strand's g register. -/
  | putr (x : Args)
  /-- R222: Clears a register's F bit and W tag once no copy is outstanding. -/
  | fec (x : Args)
  /-- R222: Reads a register's F, W and copy-outstanding flags. -/
  | feq (x : Args)
  /-- R224: Atomically adds at a home. -/
  | aadd (x : Args)
  /-- R224: Atomically ANDs at a home. -/
  | aand (x : Args)
  /-- R224: Atomically ORs at a home. -/
  | aor (x : Args)
  /-- R224: Atomically XORs at a home. -/
  | axor (x : Args)
  /-- R224: Atomically takes the minimum at a home. -/
  | amin (x : Args)
  /-- R224: Atomically takes the maximum at a home. -/
  | amax (x : Args)
  /-- R224: Atomically exchanges a word at a home. -/
  | axch (x : Args)
  /-- R224: Atomically compares a word and swaps it. -/
  | acas (x : Args)
  /-- R224: Atomically increments a word, wrapping to 0 at a bound. -/
  | ainc (x : Args)
  /-- R225: Allocates the lowest free hardware barrier with a combine operation. -/
  | hbAlloc (x : Args)
  /-- R226: Joins a hardware barrier as a member. -/
  | hbJoin (x : Args)
  /-- R226: Arrives on a hardware barrier with a combine value. -/
  | hbArrive (x : Args)
  /-- R227: Waits for the phase of the latest arrival, or the current phase. -/
  | hbWait (x : Args)
  /-- R226: Leaves a hardware barrier. -/
  | hbLeave (x : Args)
  /-- R226: Frees a hardware barrier that has no members or waiters. -/
  | hbFree (x : Args)
  /-- R229: Initialises a memory barrier word and aborts its waiters. -/
  | mbInit (x : Args)
  /-- R229: Arrives on a memory barrier word. -/
  | mbArrive (x : Args)
  /-- R229: Adds expected bytes to a memory barrier word. -/
  | mbExpect (x : Args)
  /-- R229: Waits for a memory barrier word's phase to flip away from a parity. -/
  | mbWait (x : Args)
  /-- R219: Opens a channel as consumer or registers the issuer as a producer. -/
  | chOpen (x : Args)
  /-- R230: Registers the issuer as a stage-ring producer. -/
  | rgProd (x : Args)
  /-- R230: Reserves the next ring slot and sends data into it. -/
  | rgPut (x : Args)
  /-- R230: Frees the held ring slot and waits for the oldest reserved slot to become full. -/
  | rgGet (x : Args)
  /-- R230: Posts the producer's end-of-stream token. -/
  | rgEos (x : Args)
  /-- R232: Declares a debt on an object handle. -/
  | owe (x : Args)
  /-- R232: Clears a debt that OWE declared. -/
  | unowe (x : Args)
  /-- R238: Copies 64 bytes into a tensor descriptor. -/
  | tdset (x : Args)
  /-- R238: Copies a tensor descriptor out to memory. -/
  | tdget (x : Args)
  /-- R240: Queues a matrix job in mq. -/
  | mxq (x : Args)
  /-- R243: Reads the C buffer into a v register, converting as the type asks. -/
  | cld (x : Args)
  /-- R245: Queues a copy job and returns its promise. -/
  | cpq (x : Args)
  /-- R248: Starts a copy of memory into registers without parking. -/
  | cpr (x : Args)
  /-- R249: Waits until a job ends. -/
  | jwait (x : Args)
  /-- R250: Waits until a job ends or its promise passes. -/
  | jwaitp (x : Args)
  /-- R251: Reads a job's status word. -/
  | jstat (x : Args)
  /-- R252: Cancels or resumes a job. -/
  | jcan (x : Args)
  /-- R253: Puts a fence entry into each named queue. -/
  | qfence (x : Args)
  /-- R255: Sets a trigger counter, optionally registering an incrementer. -/
  | tcset (x : Args)
  /-- R255: Adds to a trigger counter, optionally as the last increment. -/
  | tcadd (x : Args)
  /-- R256: Waits until a trigger counter reaches a threshold. -/
  | tcwait (x : Args)
  /-- R257: Queues a command as a triggered entry. -/
  | trig (x : Args)
  /-- R259: Submits a launch record to the Interchange. -/
  | launch (x : Args)
  /-- R260: Sends a unit of the issuer's launch toward a home. -/
  | spawn (x : Args)
  /-- R261: Creates a group from a list of entries. -/
  | grpMake (x : Args)
  /-- R262: Joins or leaves a group entry as its contribution owner. -/
  | grpJoin (x : Args)
  /-- R263: Reads a fact about a group. -/
  | grpInfo (x : Args)
  /-- R265: Posts a collective for the issuer's group member. -/
  | cpost (x : Args)
  /-- R266: Waits for a collective's result at the issuer's member. -/
  | cwait (x : Args)
  /-- R267: Reads a collective's state. -/
  | cstat (x : Args)
  /-- R268: Contributes to a round of a District reduction-tree channel and waits for its result. -/
  | tree (x : Args)
  /-- R270: Allocates, unmaps or looks up a KV key. -/
  | kvmap (x : Args)
  /-- R271: Adds to a KV frame's reference count. -/
  | kvref (x : Args)
  /-- R271: Maps a second key to a key's frame. -/
  | kvfork (x : Args)
  /-- R272: Makes a KV key writable, copying on write if needed. -/
  | kvw (x : Args)
  /-- R273: Starts the demotion or promotion of a KV frame. -/
  | kvdem (x : Args)
  /-- R274: Reads a trust-domain fact. -/
  | domInfo (x : Args)
  /-- R151: Once its copies and accesses are acknowledged, the strand ends, or halts if it has debts or is slot 0. -/
  | endStrand (uid : Nat)
  /-- R74: An instruction-buffer line lands and the slots that missed on it resume. -/
  | ibufLineLands (core line : Nat)
  /-- R276: A request reaches its home and is performed in arrival order. -/
  | requestPerformed (k : Nat)
  /-- R201: A load's data lands in its register or saved image and the strand resumes. -/
  | loadDataLands (k : Nat)
  /-- R275: The home's acknowledgement of an access reaches the issuing core. -/
  | accessAcknowledged (k : Nat)
  /-- R289: A turned-back release waits for the wider scope's accesses, increments scmiss and is sent again. -/
  | scopeMissReissue (k : Nat)
  /-- R291: The home grants an atomic's reservation and the requester computes the new value. -/
  | atomicGrant (k : Nat)
  /-- R291: The home receives the new value, writes or forwards the word, and releases the reservation. -/
  | atomicRelease (k : Nat)
  /-- R447: A ring packet's head advances to the next stop when that buffer can hold it. -/
  | ringPacketHop (k : Nat)
  /-- R24: A mesh flit moves one street or avenue link on its fixed route. -/
  | meshFlitHop (k : Nat)
  /-- R215: An inbox grants a pool entry to a waiting SEND. -/
  | inboxPoolGrant (core : Nat)
  /-- R215: A message lands in its reserved inbox entry. -/
  | inboxMessageArrives (k : Nat)
  /-- R220: A channel's home grants a freed slot to the oldest waiting producer. -/
  | channelSlotGrant (k : Nat)
  /-- R220: A channel message lands in its reserved slot. -/
  | channelMessageLands (k : Nat)
  /-- R359: A ring's home reserves the next slot for a producer or queues the reservation. -/
  | ringSlotReserve (k : Nat)
  /-- R359: A producer's data lands and marks its ring slot full. -/
  | ringDataLands (k : Nat)
  /-- R359: A producer's end-of-stream token is counted at the ring. -/
  | ringTokenArrives (k : Nat)
  /-- R392: A barrier join, arrival or leave is performed at the hub and the completion test runs. -/
  | hbEventPerformed (k : Nat)
  /-- R394: An arrive, expect or byte count is performed at a memory barrier word and Check runs. -/
  | mbEventPerformed (k : Nat)
  /-- R354: A counter event is applied at the hub and the counter evaluates its waiters. -/
  | tcEventPerformed (k : Nat)
  /-- R221: A put reaches its target register or image and sets it full. -/
  | putrArrives (k : Nat)
  /-- R248: A word of a register copy lands and fills its register. -/
  | cprWordLands (k : Nat)
  /-- R211: A parked waiter woken by an event for its object tests Ready again at its next rotation. -/
  | waitWake (sid : Nat)
  /-- R396: A wait whose count left reaches 0 with its object not ready ends with TIMEOUT. -/
  | waitTimeout (uid : Nat)
  /-- R159: dtime reaches an armed deadline and the strand is trapped, marked ready or left for report. -/
  | deadlineExpiry (uid : Nat)
  /-- R352: cycle reaches P + 1 with the job not ended and every JWAITP waiter takes the promise-missed trap. -/
  | promiseMissed (blk q seq : Nat)
  /-- R313: A withhold notice is counted at its object, or refused into overflow. -/
  | withholdNoticeArrives (k : Nat)
  /-- R318: An unwithhold notice clears its bit or count, freeing table entries to refused notices. -/
  | unwithholdNoticeArrives (k : Nat)
  /-- R319: A member leaves the cordon in the cycle after its object clears and takes up its instruction again. -/
  | cordonLeave (uid : Nat)
  /-- R318: A released root becomes ready once all its unwithhold notices are acknowledged. -/
  | rootReady (uid : Nat)
  /-- R330: A trap record is put into the core's trap ring or the context trap queue. -/
  | trapRecordDelivery (k : Nat)
  /-- R333: A record waiting more than 10 ms for the full trap queue is an unrecoverable fault. -/
  | trapqRecordTimeout (k : Nat)
  /-- R168: An evicted strand's image is written and the slot becomes empty. -/
  | evictComplete (uid : Nat)
  /-- R170: An admitted image is loaded and the strand is ready in its slot. -/
  | admitComplete (uid : Nat)
  /-- R335: The core evicts a strand by itself when all slots have stalled for 4,096 cycles and work waits. -/
  | autoEvict (core : Nat)
  /-- R336: A spill entry ready for 4,096 cycles without ADMIT is admitted by the core. -/
  | autoAdmit (core : Nat)
  /-- R348: A submitter parked on a full queue is given an entry. -/
  | queueEntryGrant (blk q : Nat)
  /-- R346: A head job passes its descriptor checks and starts, or ends ABORTED. -/
  | jobStart (blk q : Nat)
  /-- R346: A job whose reads have landed and writes are acknowledged applies its completion actions and ends. -/
  | jobEnd (blk q : Nat)
  /-- R252: A cancelled running job stops at its next K step or 256-byte write and ends ABORTED. -/
  | jobCancelStop (blk q : Nat)
  /-- R347: A fence whose parts all stand at their queue heads ends OK. -/
  | fenceEnd (blk seq : Nat)
  /-- R268: A tree round that holds every participant's contribution returns its result to all. -/
  | treeRoundComplete (ctx dist chan : Nat)
  /-- R365: The host's write of word 31 delivers a launch record, which is validated and answered. -/
  | hostSubmission (ctx slot : Nat)
  /-- R367: The Interchange reads a unit record and sends the unit when its hint corner has room. -/
  | unitRelease (entry : Nat)
  /-- R369: A unit reaching a corner within its radius is offered to that block, or joins the hint corner's queue. -/
  | unitOffer (k : Nat)
  /-- R369: A corner queue offers its head again when a core within radius reports a freed slot or inbox entry. -/
  | cornerQueueReoffer (blk : Nat)
  /-- R374: A launch whose units have all retired writes its done record, arrives and satisfies its dependants. -/
  | launchEnd (entry : Nat)
  /-- R376: A store to the cancel register cancels the named level and everything below it. -/
  | wcancel (ctx : Nat) (v : Word)
  /-- R382: A post reaches the Plaza and is recorded under its number. -/
  | plazaPostArrival (gid k member : Nat) (sig : PostSig)
  /-- R384: A ticket reaches a device and is placed into kq in rank order. -/
  | ticketArrives (gid k : Nat) (rank : Rank)
  /-- R387: A collective's result is written at a member, its resources freed and its completion actions applied. -/
  | collectiveEnd (post : Nat)
  /-- R408: A walker ends its walk and answers the requesters with a translation or a fault. -/
  | pageWalkComplete (k : Nat)
  /-- R408: A miss waiting on a full miss-merge table takes a freed entry. -/
  | missMergeEntryGrant (dist : Nat)
  /-- R410: TLBINV scope 0 removes every translation of a context that covers an address. -/
  | tlbinvPage (v : Word)
  /-- R410: TLBINV scope 1 removes the translations of a KV key. -/
  | tlbinvKey (v : Word)
  /-- R410: TLBINV scope 2 removes every translation of a context. -/
  | tlbinvContext (v : Word)
  /-- R436: The active Plaza receives a join request and accepts or refuses it. -/
  | joinRequest (m : Nat)
  /-- R436: The SPDM responder answers GET_VERSION. -/
  | getVersion (r : SpdmReq)
  /-- R436: The SPDM responder answers GET_CAPABILITIES. -/
  | getCapabilities (r : SpdmReq)
  /-- R423: The SPDM responder negotiates only its listed algorithms or answers ERROR. -/
  | negotiateAlgorithms (r : SpdmReq)
  /-- R436: The SPDM responder returns its certificate digests. -/
  | getDigests (r : SpdmReq)
  /-- R423: The SPDM responder returns the slot-0 certificate chain. -/
  | getCertificate (r : SpdmReq)
  /-- R423: The SPDM responder returns the signed firmware measurements. -/
  | getMeasurements (r : SpdmReq)
  /-- R436: The SPDM responder performs the P-384 key exchange. -/
  | keyExchange (r : SpdmReq)
  /-- R436: The SPDM responder finishes and establishes the session. -/
  | finish (r : SpdmReq)
  /-- R421: IDE_KM messages in the SPDM session program the host port's IDE stream keys. -/
  | ideKm (r : SpdmReq)
  /-- R294: A fabric packet at the destination Interchange is accepted, discarded with a request, dropped or forwarded. -/
  | fabricPacketArrival (p : FabPkt)
  /-- R436: A joining device receives the responder's SPDM answer or a join refusal and checks the chain and measurements against its policy. -/
  | spdmResponseArrives (code : Nat) (body : List Byte)
  /-- R323: Creates a context with a free id. -/
  | ctxCreate (ctx : Nat)
  /-- R323: Admits a context to its partition and scrubs its blocks. -/
  | ctxAdmit (ctx : Nat)
  /-- R323: Starts an admitted context, writing its initial contents. -/
  | ctxStart (ctx : Nat)
  /-- R337: Schedules a gang switch at instant T to a successor. -/
  | ctxSwitch (ctx succ : Nat)
  /-- R323: Stops a context and begins the colour cut. -/
  | ctxStop (ctx : Nat)
  /-- R459: A CTXCMD write with cmd 0 changes the host-hold bit. -/
  | ctxcmdHold (ctx : Nat) (hold : Bool)
  /-- R337: At T every core of the partition stops and the context is saved. -/
  | gangSwitch (ctx : Nat)
  /-- R341: A save not complete by T + LATE raises scheduler event 1. -/
  | lateDeviceEvent (ctx : Nat)
  /-- R343: An unrecoverable fault stops the context and begins teardown. -/
  | unrecoverableFault (ctx : Nat)
  /-- R400: Every 1,024 cycles the deadlock conditions are sampled across the partition. -/
  | deadlockSample (ctx : Nat)
  /-- R460: DBGCTL op 1 stops a strand as a host stop does. -/
  | dbgStop (ctx sid : Nat)
  /-- R460: DBGCTL op 2 releases a root as RLS from context 0. -/
  | dbgRelease (ctx sid : Nat)
  /-- R460: DBGCTL op 3 marks a root as held by a debugger. -/
  | dbgHold (ctx sid : Nat)
  /-- R457: A write sets the package power limit, which is met within 1 ms. -/
  | pwrlimWrite (v : Word)
  /-- R436: DOMCMD form makes the device a domain's first member and active Plaza. -/
  | domForm (m : Nat)
  /-- R436: DOMCMD join sets up an SPDM session with the named Plaza to join its domain. -/
  | domJoin (m plaza : Nat)
  /-- R438: DOMCMD evict removes a member from the domain through a re-key barrier. -/
  | domEvict (m : Nat)
  /-- R396: At each tick boundary the time-outs that count are decremented. -/
  | tickBoundary
  /-- R242: A fault or poison on a job's access halts it in state 3 and sends a job trap record. -/
  | jobFault (blk q cls step : Nat) (info : Word)
  /-- R383: A bare ticket arrives and restarts the local ticket counter. -/
  | bareTicketArrives (dom : Nat)
  /-- R385: The head of kq starts when all its resources can be reserved together. -/
  | collectiveStart
  /-- R386: A member's contribution has entered the partials. -/
  | contributionMerged (gid k member : Nat) (data : List Nat)
  /-- R386: A fault on td_in or td_out ends the collective ABORTED at every member. -/
  | collectiveFaultAbort (gid k : Nat)
  /-- R461: An uncorrectable error that no trap reports is captured in ERRLOG. -/
  | errlogCapture (src pa : Nat)
  /-- R461: Writing 1 to ERRLOG valid clears the log. -/
  | errlogClear
  /-- R457: Each 1 ms window the device lowers or raises District clocks to keep under the limit. -/
  | powerWindow
  /-- R438: DOMCMD leave takes the device out of its domain through a re-key barrier. -/
  | domLeave
  /-- R422: A host TLP to a BAR is accepted or completed with Unsupported Request. -/
  | hostTlpReceive (t : Tlp)
  /-- R440: The active Plaza opens a barrier for the next key generation and sends the master secret. -/
  | rekeyStart
  /-- R440: A member arrives at the re-key barrier once its old streams are acknowledged. -/
  | rekeyArrive (m : Nat)
  /-- R440: The barrier closes, the old generation is refused and old keys destroyed. -/
  | rekeyClose
  /-- R439: Each member sends a heartbeat every 2 µs. -/
  | heartbeat (m : Nat)
  /-- R439: The Plaza declares a member lost after 20 µs without its heartbeat. -/
  | memberLost (m : Nat)
  /-- R439: A member declares the Plaza lost after 20 µs without a heartbeat answer. -/
  | plazaLost
  /-- R442: Every 10 µs port pairs exchange timestamps and adjust dtime. -/
  | timeExchange (ref : Nat)
  /-- R428: A receiver checks a flit's CRC and lseq and accepts it or sends a nak. -/
  | chiplinkFlitReceive (port : Nat) (f : Flit)
  /-- R428: A cumulative link ack frees flits from the sender's replay buffer. -/
  | linkAck (port lseq : Nat)
  /-- R428: A nak makes the sender replay from the named flit. -/
  | linkNak (port lseq : Nat)
  /-- R294: The source resends every unacknowledged packet from the named number. -/
  | retransmissionRequest (peer seq : Nat)
  /-- R434: A cumulative end-to-end ack frees send-shadow entries and grants allowance. -/
  | e2eAck (peer seq grant : Nat)
  /-- R434: An ack is sent after 1 µs with an accepted packet unacknowledged. -/
  | e2eAckTimer (peer : Nat)
  /-- R434: A source with no ack progress for 20 µs resends the stream from its oldest packet. -/
  | streamResendTimeout (peer : Nat)
  /-- R5: The Interchange leaves reset; cycle and dtime start at zero and the root of trust starts. -/
  | reset
  /-- R452: A function that has trained and tested sets its READY bit. -/
  | functionReady (bit : Nat)
  /-- R456: A District failing in service clears its READY bit and tears down the contexts that hold it. -/
  | districtFailure (d : Nat)
  /-- R261: The home Plaza receives a group-creation request from another member and answers it with a group id, ABORTED or BUSY. -/
  | plazaGroupRequest (m ctx : Nat) (entries : List Nat)
  /-- R383: The active Plaza receives a local Plaza's request for a bare ticket and assigns it the next domain sequence. -/
  | bareTicketRequest (m : Nat)
  /-- R440: A member receives the new member list and master secret and installs the next generation's receive keys. -/
  | rekeyMessageArrives (gen : Nat) (members : List Nat) (secret : List Byte)
  /-- R345: An uncorrectable error in a register file halts its strand with the poison class and the register index in trapinfo. -/
  | registerFileError (sid cls idx : Nat)
  /-- R452: A function other than a District, such as the host port or an HBM4 stack, fails and its READY bit is cleared. -/
  | functionFailure (bit : Nat)
  /-- R413: The KV unit performs a KV event for its key, one at a time in arrival order. -/
  | kvEventPerformed (k : Nat)
  /-- R419: A copy on write ends: the key is remapped to the new frame and its writer wakes. -/
  | kvCopyEnd (k : Nat)
  /-- R420: A demotion or promotion copy ends and the descriptor flips to the new tier. -/
  | kvFlip (k : Nat)
  /-- R418: After outstanding reads drain, a retired frame and descriptor return to their free lists. -/
  | frameRetire (k : Nat)
  /-- R75: Scrub of a reassigned block ends and held launches may place on it. -/
  | scrubEnd (blk : Nat)
  /-- R328: Once initial contents are written, slot 0 of each new core starts at ZEROPC. -/
  | slotZeroStart (core : Nat)
  /-- R341: The save completes and scheduler event 2 is raised. -/
  | contextSaveComplete (ctx : Nat)
  /-- R339: A successor is restored and its drained items re-injected in pair order. -/
  | contextRestore (ctx : Nat)
  /-- R342: The colour cut closes when the old-colour sent and received sums match. -/
  | cutClosed (ctx : Nat)
  /-- R343: Teardown completes, the id is freed and scheduler event 3 is raised. -/
  | teardownComplete (ctx : Nat)
  /-- R426: A request waiting in its class leaves once the token bucket holds its bytes. -/
  | rateLimitRelease (k : Nat)
  /-- R67: A store to a device register with no row of its own takes effect at the unit that holds it. -/
  | registerWrite (core ctx off : Nat) (v : Word)
  deriving DecidableEq, Repr

end Sys2Proof
end

