-- ==== Sys2Proof/Machine/Form.lean ====
section
/-! DEFINITION. The opcode map (R131) as a table of rows, and the checks of R133 on the fields of an instruction word.
Everything here follows 05_encoding.md, with the type codes of R136, R176, R237 and the conditions of R127, R152, R189,
R225 and R237. -/

namespace Sys2Proof.Machine
open Sys2Proof

/-- The cross-field condition of a form (R127, R152, R189, R225, R237). -/
inductive Cross
  | none | count | four | fourEven | even | loop | lane | aMax255 | aMax63 | aMax7 | bMax7 | fence | tree
  deriving DecidableEq, Repr

/-- The privilege mark of a form (R131). -/
inductive Priv | none | z | h | c0
  deriving DecidableEq, Repr

/-- One row of the opcode map. `dk`, `ak`, `bk` hold the kinds a field accepts as a sum of 1 g, 2 v, 4 p, 8 s,
16 immediate, 32 wide, 64 none. `dc`, `ac`, `bc` hold a bit for each code [19:16] the field accepts (R122-R124), and
`hints` a bit for each hint code (R130). `neg` says whether fields a and b may be negated (R125), `dSync` whether field d
is read and not written, `aSync` whether field a is one register that is read. -/
structure Row where
  op : Nat
  make : Args → Instr
  dk : Nat
  ak : Nat
  bk : Nat
  dc : Nat
  ac : Nat
  bc : Nat
  hints : Nat
  neg : Bool
  dSync : Bool
  aSync : Bool
  cross : Cross
  priv : Priv

/-- R131: the scalar part of the opcode map. -/
def scalarRows : List Row :=
  [⟨0x1, .add, 1, 17, 17, 0x1C1F, 0x1, 0x1, 3, false, false, true, .none, .none⟩,
   ⟨0x2, .sub, 1, 17, 17, 0x1C1F, 0x1, 0x1, 3, false, false, true, .none, .none⟩,
   ⟨0x3, .mul, 1, 17, 17, 0x1C1F, 0x1, 0x1, 3, false, false, true, .none, .none⟩,
   ⟨0x4, .mulh, 1, 17, 17, 0x1C1F, 0x1, 0x1, 1, false, false, true, .none, .none⟩,
   ⟨0x5, .div, 1, 17, 17, 0x1C1F, 0x1, 0x1, 1, false, false, true, .none, .none⟩,
   ⟨0x6, .rem, 1, 17, 17, 0x1C1F, 0x1, 0x1, 1, false, false, true, .none, .none⟩,
   ⟨0x7, .min, 1, 17, 17, 0x1C1F, 0x1, 0x1, 1, false, false, true, .none, .none⟩,
   ⟨0x8, .max, 1, 17, 17, 0x1C1F, 0x1, 0x1, 1, false, false, true, .none, .none⟩,
   ⟨0x9, .abs, 1, 17, 64, 0x1C1F, 0x1, 0x1, 3, false, false, true, .none, .none⟩,
   ⟨0xA, .neg, 1, 17, 64, 0x1C1F, 0x1, 0x1, 3, false, false, true, .none, .none⟩,
   ⟨0xB, .and, 1, 17, 17, 0x1C1F, 0x1, 0x1, 1, false, false, true, .none, .none⟩,
   ⟨0xC, .or, 1, 17, 17, 0x1C1F, 0x1, 0x1, 1, false, false, true, .none, .none⟩,
   ⟨0xD, .xor, 1, 17, 17, 0x1C1F, 0x1, 0x1, 1, false, false, true, .none, .none⟩,
   ⟨0xE, .andn, 1, 17, 17, 0x1C1F, 0x1, 0x1, 1, false, false, true, .none, .none⟩,
   ⟨0xF, .shl, 1, 17, 17, 0x1C1F, 0x1, 0x1, 3, false, false, true, .none, .none⟩,
   ⟨0x10, .shr, 1, 17, 17, 0x1C1F, 0x1, 0x1, 1, false, false, true, .none, .none⟩,
   ⟨0x11, .sar, 1, 17, 17, 0x1C1F, 0x1, 0x1, 1, false, false, true, .none, .none⟩,
   ⟨0x12, .rot, 1, 17, 17, 0x1C1F, 0x1, 0x1, 1, false, false, true, .none, .none⟩,
   ⟨0x13, .clz, 1, 1, 64, 0x1C1F, 0x1, 0x1, 1, false, false, true, .none, .none⟩,
   ⟨0x14, .ctz, 1, 1, 64, 0x1C1F, 0x1, 0x1, 1, false, false, true, .none, .none⟩,
   ⟨0x15, .popc, 1, 1, 64, 0x1C1F, 0x1, 0x1, 1, false, false, true, .none, .none⟩,
   ⟨0x16, .ext, 1, 1, 64, 0x1C1F, 0x1, 0x1, 1, false, false, true, .none, .none⟩,
   ⟨0x17, .bfx, 1, 1, 17, 0x1C1F, 0x1, 0x1, 1, false, false, true, .none, .none⟩,
   ⟨0x18, .bfi, 1, 17, 17, 0x1C1F, 0x1, 0x1, 1, false, false, true, .none, .none⟩,
   ⟨0x19, .sel, 1, 17, 17, 0xFF, 0x1, 0x1, 1, false, false, true, .none, .none⟩,
   ⟨0x1A, .mov, 1, 17, 64, 0x1, 0x1, 0x1, 1, false, false, true, .none, .none⟩,
   ⟨0x1B, .movw, 1, 32, 32, 0x1, 0x1, 0x1, 1, false, false, true, .none, .none⟩,
   ⟨0x1C, .lea, 1, 1, 17, 0x1, 0x1, 0x1, 1, false, false, true, .none, .none⟩,
   ⟨0x1D, (.cmp .eq), 4, 17, 17, 0x1C1F, 0x1, 0x1, 1, false, false, true, .none, .none⟩,
   ⟨0x1E, (.cmp .ne), 4, 17, 17, 0x1C1F, 0x1, 0x1, 1, false, false, true, .none, .none⟩,
   ⟨0x1F, (.cmp .lt), 4, 17, 17, 0x1C1F, 0x1, 0x1, 1, false, false, true, .none, .none⟩,
   ⟨0x20, (.cmp .le), 4, 17, 17, 0x1C1F, 0x1, 0x1, 1, false, false, true, .none, .none⟩,
   ⟨0x21, (.cmp .gt), 4, 17, 17, 0x1C1F, 0x1, 0x1, 1, false, false, true, .none, .none⟩,
   ⟨0x22, (.cmp .ge), 4, 17, 17, 0x1C1F, 0x1, 0x1, 1, false, false, true, .none, .none⟩,
   ⟨0x23, .pand, 4, 4, 4, 0x1, 0x1, 0x1, 1, false, false, true, .none, .none⟩,
   ⟨0x24, .por, 4, 4, 4, 0x1, 0x1, 0x1, 1, false, false, true, .none, .none⟩,
   ⟨0x25, .pxor, 4, 4, 4, 0x1, 0x1, 0x1, 1, false, false, true, .none, .none⟩,
   ⟨0x26, .pnot, 4, 4, 64, 0x1, 0x1, 0x1, 1, false, false, true, .none, .none⟩,
   ⟨0x80, .br, 64, 48, 96, 0x1, 0x1, 0x1, 1, false, false, true, .none, .none⟩,
   ⟨0x81, .bri, 64, 1, 64, 0x1, 0x1, 0x1, 1, false, false, true, .none, .none⟩,
   ⟨0x82, .call, 64, 48, 96, 0x1, 0x1, 0x1, 1, false, false, true, .none, .none⟩,
   ⟨0x83, .ret, 64, 64, 64, 0x1, 0x1, 0x1, 1, false, false, true, .none, .none⟩,
   ⟨0x84, (.loop .l0), 64, 17, 16, 0x1, 0x1, 0x1, 1, false, false, true, .loop, .none⟩,
   ⟨0x85, (.loop .l1), 64, 17, 16, 0x1, 0x1, 0x1, 1, false, false, true, .loop, .none⟩,
   ⟨0x86, (.lbrk .l0), 64, 64, 64, 0x1, 0x1, 0x1, 1, false, false, true, .none, .none⟩,
   ⟨0x87, (.lbrk .l1), 64, 64, 64, 0x1, 0x1, 0x1, 1, false, false, true, .none, .none⟩,
   ⟨0x88, .nop, 64, 64, 64, 0x1, 0x1, 0x1, 1, false, false, true, .none, .none⟩]

/-- R131: the system part of the opcode map. -/
def systemRows : List Row :=
  [⟨0xC0, .halt, 64, 64, 64, 0x1, 0x1, 0x1, 1, false, false, true, .none, .none⟩,
   ⟨0xC1, .trap, 64, 16, 64, 0x1, 0x1, 0x1, 1, false, false, true, .none, .none⟩,
   ⟨0xC2, .bkpt, 64, 80, 64, 0x1, 0x1, 0x1, 1, false, false, true, .none, .none⟩,
   ⟨0xC3, .rls, 64, 1, 64, 0x1, 0x1, 0x1, 1, false, false, true, .none, .h⟩,
   ⟨0xC4, .mfs, 1, 8, 64, 0x1, 0x1, 0x1, 1, false, false, true, .none, .none⟩,
   ⟨0xC5, .mts, 8, 17, 64, 0x1, 0x1, 0x1, 1, false, false, true, .none, .none⟩,
   ⟨0xC6, .time, 1, 64, 64, 0x1, 0x1, 0x1, 1, false, false, true, .none, .none⟩,
   ⟨0xC7, .dln, 64, 1, 64, 0x1, 0x1, 0x1, 1, false, false, true, .none, .none⟩,
   ⟨0xC8, .dlx, 64, 64, 64, 0x1, 0x1, 0x1, 1, false, false, true, .none, .none⟩,
   ⟨0xC9, .part, 1, 16, 64, 0x1, 0x1, 0x1, 1, false, false, true, .none, .none⟩,
   ⟨0xCA, .strt, 1, 1, 1, 0x1, 0x1, 0x1, 1, false, false, true, .none, .z⟩,
   ⟨0xCB, .reap, 1, 17, 64, 0x1, 0x1, 0x1, 1, false, false, true, .none, .z⟩,
   ⟨0xCC, .evict, 1, 17, 64, 0x1, 0x1, 0x1, 1, false, false, true, .none, .z⟩,
   ⟨0xCD, .admitStrand, 1, 64, 64, 0x1, 0x1, 0x1, 1, false, false, true, .none, .z⟩,
   ⟨0xCE, .yield, 64, 64, 64, 0x1, 0x1, 0x1, 1, false, false, true, .none, .none⟩,
   ⟨0xCF, .utake, 1, 64, 64, 0x1, 0x1, 0x1, 1, false, false, true, .none, .none⟩]

/-- R131: the vector part of the opcode map. -/
def vectorRows : List Row :=
  [⟨0x100, .vadd, 2, 2, 2, 0x1CFF, 0xF, 0x1, 3, true, false, true, .none, .none⟩,
   ⟨0x101, .vsub, 2, 2, 2, 0x1CFF, 0xF, 0x1, 3, true, false, true, .none, .none⟩,
   ⟨0x102, .vmul, 2, 2, 2, 0x1CFF, 0xF, 0x1, 3, true, false, true, .none, .none⟩,
   ⟨0x103, .vfma, 2, 2, 2, 0xE0, 0xF, 0x1, 1, true, false, true, .none, .none⟩,
   ⟨0x104, .vmin, 2, 2, 2, 0x1CFF, 0x1, 0x1, 1, true, false, true, .none, .none⟩,
   ⟨0x105, .vmax, 2, 2, 2, 0x1CFF, 0x1, 0x1, 1, true, false, true, .none, .none⟩,
   ⟨0x106, .vabs, 2, 2, 64, 0x1CFF, 0x1, 0x1, 3, false, false, true, .none, .none⟩,
   ⟨0x107, .vneg, 2, 2, 64, 0x1CFF, 0x1, 0x1, 3, false, false, true, .none, .none⟩,
   ⟨0x108, .vand, 2, 2, 2, 0x1, 0x1, 0x1, 1, false, false, true, .none, .none⟩,
   ⟨0x109, .vor, 2, 2, 2, 0x1, 0x1, 0x1, 1, false, false, true, .none, .none⟩,
   ⟨0x10A, .vxor, 2, 2, 2, 0x1, 0x1, 0x1, 1, false, false, true, .none, .none⟩,
   ⟨0x10B, .vshl, 2, 2, 18, 0x1C1F, 0x1, 0x1, 3, false, false, true, .none, .none⟩,
   ⟨0x10C, .vshr, 2, 2, 18, 0x1C1F, 0x1, 0x1, 1, false, false, true, .none, .none⟩,
   ⟨0x10D, .vsar, 2, 2, 18, 0x1C1F, 0x1, 0x1, 1, false, false, true, .none, .none⟩,
   ⟨0x10E, (.vcmp .eq), 4, 2, 2, 0x1CFF, 0x1, 0x1, 1, true, false, true, .none, .none⟩,
   ⟨0x10F, (.vcmp .ne), 4, 2, 2, 0x1CFF, 0x1, 0x1, 1, true, false, true, .none, .none⟩,
   ⟨0x110, (.vcmp .lt), 4, 2, 2, 0x1CFF, 0x1, 0x1, 1, true, false, true, .none, .none⟩,
   ⟨0x111, (.vcmp .le), 4, 2, 2, 0x1CFF, 0x1, 0x1, 1, true, false, true, .none, .none⟩,
   ⟨0x112, (.vcmp .gt), 4, 2, 2, 0x1CFF, 0x1, 0x1, 1, true, false, true, .none, .none⟩,
   ⟨0x113, (.vcmp .ge), 4, 2, 2, 0x1CFF, 0x1, 0x1, 1, true, false, true, .none, .none⟩,
   ⟨0x114, .vsel, 2, 2, 2, 0x1, 0x1, 0x1, 1, false, false, true, .none, .none⟩,
   ⟨0x115, .vdot, 2, 2, 2, 0x3, 0x1, 0x1, 3, false, false, true, .none, .none⟩,
   ⟨0x116, .vsum, 2, 2, 64, 0x1C7F, 0xF, 0x1, 3, false, false, true, .none, .none⟩,
   ⟨0x180, .vexp2, 2, 2, 64, 0x60, 0x1, 0x1, 1, false, false, true, .none, .none⟩,
   ⟨0x181, .vlog2, 2, 2, 64, 0x60, 0x1, 0x1, 1, false, false, true, .none, .none⟩,
   ⟨0x182, .vrcp, 2, 2, 64, 0x60, 0x1, 0x1, 1, false, false, true, .none, .none⟩,
   ⟨0x183, .vrsq, 2, 2, 64, 0x60, 0x1, 0x1, 1, false, false, true, .none, .none⟩,
   ⟨0x184, .vtanh, 2, 2, 64, 0x60, 0x1, 0x1, 1, false, false, true, .none, .none⟩,
   ⟨0x185, .vexpn, 2, 2, 64, 0x60, 0x1, 0x1, 1, false, false, true, .even, .none⟩,
   ⟨0x186, .vmaxe, 2, 2, 2, 0x6C, 0x1, 0x1, 1, false, false, true, .none, .none⟩,
   ⟨0x187, .vldexp, 2, 2, 2, 0x60, 0xF, 0x1, 1, false, false, true, .none, .none⟩,
   ⟨0x188, .vrmax, 2, 2, 64, 0xC, 0x1, 0x1, 1, false, false, true, .even, .none⟩,
   ⟨0x1C0, .vcvt, 2, 2, 16, 0x1DFF, 0xF, 0x1, 3, false, false, true, .none, .none⟩,
   ⟨0x1C1, .vperm, 2, 2, 2, 0x1, 0x1, 0x1, 1, false, false, true, .none, .none⟩,
   ⟨0x1C2, .vsplat, 2, 17, 64, 0x1DFF, 0x1, 0x1, 1, false, false, true, .none, .none⟩,
   ⟨0x1C3, .vins, 2, 17, 16, 0x1DFF, 0x1, 0x1, 1, false, false, true, .lane, .none⟩,
   ⟨0x1C4, .vext, 1, 2, 16, 0x1DFF, 0x1, 0x1, 1, false, false, true, .lane, .none⟩]

/-- R131: the memory part of the opcode map. -/
def memoryRows : List Row :=
  [⟨0x200, .ld, 1, 1, 17, 0x1C1F, 0x1, 0x3, 7, false, false, true, .none, .none⟩,
   ⟨0x201, .st, 1, 1, 17, 0x1C1F, 0x1, 0x3, 7, false, true, true, .none, .none⟩,
   ⟨0x202, .vld, 2, 1, 17, 0x1, 0x1, 0x3, 7, false, false, true, .none, .none⟩,
   ⟨0x203, .vst, 2, 1, 17, 0x1, 0x1, 0x3, 7, false, true, true, .none, .none⟩,
   ⟨0x204, .ldm, 1, 1, 16, 0xFF, 0x1, 0x1, 7, false, false, false, .count, .none⟩,
   ⟨0x205, .stm, 1, 1, 16, 0xFF, 0x1, 0x1, 7, false, false, false, .count, .none⟩,
   ⟨0x206, (.acq .core), 1, 1, 16, 0x1C1F, 0x1, 0x1, 7, false, false, true, .none, .none⟩,
   ⟨0x207, (.acq .blk), 1, 1, 16, 0x1C1F, 0x1, 0x1, 7, false, false, true, .none, .none⟩,
   ⟨0x208, (.acq .dst), 1, 1, 16, 0x1C1F, 0x1, 0x1, 7, false, false, true, .none, .none⟩,
   ⟨0x209, (.acq .dev), 1, 1, 16, 0x1C1F, 0x1, 0x1, 7, false, false, true, .none, .none⟩,
   ⟨0x20A, (.acq .dom), 1, 1, 16, 0x1C1F, 0x1, 0x1, 7, false, false, true, .none, .none⟩,
   ⟨0x20B, (.rel .core), 1, 1, 16, 0x1C1F, 0x1, 0x1, 7, false, true, true, .none, .none⟩,
   ⟨0x20C, (.rel .blk), 1, 1, 16, 0x1C1F, 0x1, 0x1, 7, false, true, true, .none, .none⟩,
   ⟨0x20D, (.rel .dst), 1, 1, 16, 0x1C1F, 0x1, 0x1, 7, false, true, true, .none, .none⟩,
   ⟨0x20E, (.rel .dev), 1, 1, 16, 0x1C1F, 0x1, 0x1, 7, false, true, true, .none, .none⟩,
   ⟨0x20F, (.rel .dom), 1, 1, 16, 0x1C1F, 0x1, 0x1, 7, false, true, true, .none, .none⟩,
   ⟨0x210, (.fnc .core), 64, 64, 64, 0x1, 0x1, 0x1, 1, false, false, true, .none, .none⟩,
   ⟨0x211, (.fnc .blk), 64, 64, 64, 0x1, 0x1, 0x1, 1, false, false, true, .none, .none⟩,
   ⟨0x212, (.fnc .dst), 64, 64, 64, 0x1, 0x1, 0x1, 1, false, false, true, .none, .none⟩,
   ⟨0x213, (.fnc .dev), 64, 64, 64, 0x1, 0x1, 0x1, 1, false, false, true, .none, .none⟩,
   ⟨0x214, (.fnc .dom), 64, 64, 64, 0x1, 0x1, 0x1, 1, false, false, true, .none, .none⟩,
   ⟨0x215, .send, 1, 1, 17, 0x1, 0x1, 0x1, 7, false, true, true, .none, .none⟩,
   ⟨0x216, .recv, 1, 1, 81, 0x1, 0x1, 0x1, 1, false, false, true, .none, .none⟩,
   ⟨0x217, .putr, 1, 1, 17, 0x1, 0x1, 0x1, 1, false, true, true, .none, .none⟩,
   ⟨0x218, .fec, 3, 64, 64, 0x1, 0x1, 0x1, 1, false, false, true, .none, .none⟩,
   ⟨0x219, .feq, 1, 3, 64, 0x1, 0x1, 0x1, 1, false, false, false, .none, .none⟩]

/-- R131: the sync part of the opcode map. -/
def syncRows : List Row :=
  [⟨0x280, .aadd, 1, 1, 17, 0x1838, 0x1, 0x1, 1, false, false, true, .none, .none⟩,
   ⟨0x281, .aand, 1, 1, 17, 0x1818, 0x1, 0x1, 1, false, false, true, .none, .none⟩,
   ⟨0x282, .aor, 1, 1, 17, 0x1818, 0x1, 0x1, 1, false, false, true, .none, .none⟩,
   ⟨0x283, .axor, 1, 1, 17, 0x1818, 0x1, 0x1, 1, false, false, true, .none, .none⟩,
   ⟨0x284, .amin, 1, 1, 17, 0x1838, 0x1, 0x1, 1, false, false, true, .none, .none⟩,
   ⟨0x285, .amax, 1, 1, 17, 0x1838, 0x1, 0x1, 1, false, false, true, .none, .none⟩,
   ⟨0x286, .axch, 1, 1, 17, 0x1818, 0x1, 0x1, 1, false, false, true, .none, .none⟩,
   ⟨0x287, .acas, 1, 1, 17, 0x1818, 0x1, 0x1, 1, false, false, true, .none, .none⟩,
   ⟨0x288, .ainc, 1, 1, 17, 0x1818, 0x1, 0x1, 1, false, false, true, .none, .none⟩,
   ⟨0x2C0, .hbAlloc, 1, 80, 64, 0x1, 0x1, 0x1, 1, false, false, true, .none, .none⟩,
   ⟨0x2C1, .hbJoin, 64, 17, 64, 0x1, 0x1, 0x1, 1, false, false, true, .none, .none⟩,
   ⟨0x2C2, .hbArrive, 64, 17, 81, 0x1, 0x1, 0x1, 1, false, false, true, .none, .none⟩,
   ⟨0x2C3, .hbWait, 65, 17, 81, 0x1, 0x1, 0x1, 1, false, false, true, .none, .none⟩,
   ⟨0x2C4, .hbLeave, 64, 17, 64, 0x1, 0x1, 0x1, 1, false, false, true, .none, .none⟩,
   ⟨0x2C5, .hbFree, 64, 17, 64, 0x1, 0x1, 0x1, 1, false, false, true, .none, .none⟩,
   ⟨0x2C6, .mbInit, 64, 1, 17, 0x1, 0x1, 0x1, 1, false, false, true, .none, .none⟩,
   ⟨0x2C7, .mbArrive, 64, 1, 17, 0x1, 0x1, 0x1, 1, false, false, true, .none, .none⟩,
   ⟨0x2C8, .mbExpect, 64, 1, 17, 0x1, 0x1, 0x1, 1, false, false, true, .none, .none⟩,
   ⟨0x2C9, .mbWait, 65, 1, 81, 0x1, 0x1, 0x1, 1, false, false, true, .none, .none⟩,
   ⟨0x2CA, .chOpen, 64, 1, 17, 0x1, 0x1, 0x1, 1, false, false, true, .none, .none⟩,
   ⟨0x2CB, .rgProd, 64, 1, 64, 0x1, 0x1, 0x1, 1, false, false, true, .none, .none⟩,
   ⟨0x2CC, .rgPut, 64, 1, 1, 0x1, 0x1, 0x1, 1, false, false, true, .none, .none⟩,
   ⟨0x2CD, .rgGet, 1, 1, 81, 0x1, 0x1, 0x1, 1, false, false, true, .none, .none⟩,
   ⟨0x2CE, .rgEos, 64, 1, 64, 0x1, 0x1, 0x1, 1, false, false, true, .none, .none⟩,
   ⟨0x2CF, .owe, 64, 1, 64, 0x1, 0x1, 0x1, 1, false, false, true, .none, .none⟩,
   ⟨0x2D0, .unowe, 64, 1, 64, 0x1, 0x1, 0x1, 1, false, false, true, .none, .none⟩]

/-- R131: the engine part of the opcode map. -/
def engineRows : List Row :=
  [⟨0x300, .tdset, 64, 17, 1, 0x1, 0x1, 0x1, 1, false, false, true, .aMax255, .none⟩,
   ⟨0x301, .tdget, 64, 17, 1, 0x1, 0x1, 0x1, 1, false, false, true, .aMax255, .none⟩,
   ⟨0x302, .mxq, 1, 2, 64, 0x1, 0x1, 0x1, 1, false, false, false, .four, .none⟩,
   ⟨0x303, .cld, 2, 17, 17, 0x2E1, 0x1, 0x1, 1, false, false, true, .none, .none⟩,
   ⟨0x304, .cpq, 1, 2, 64, 0x1, 0x1, 0x1, 1, false, false, false, .fourEven, .none⟩,
   ⟨0x305, .cpr, 3, 1, 16, 0xFF, 0x1, 0x1, 7, false, false, true, .count, .none⟩,
   ⟨0x306, .jwait, 1, 1, 64, 0x1, 0x1, 0x1, 1, false, false, true, .none, .none⟩,
   ⟨0x307, .jwaitp, 1, 1, 64, 0x1, 0x1, 0x1, 1, false, false, true, .none, .none⟩,
   ⟨0x308, .jstat, 1, 1, 64, 0x1, 0x1, 0x1, 1, false, false, true, .none, .none⟩,
   ⟨0x309, .jcan, 1, 1, 64, 0x1, 0x1, 0x1, 1, false, false, true, .none, .none⟩,
   ⟨0x30A, .qfence, 1, 16, 64, 0x1, 0x1, 0x1, 1, false, false, true, .fence, .none⟩,
   ⟨0x30B, .tcset, 64, 17, 17, 0x1, 0x1, 0x1, 1, false, false, true, .aMax63, .none⟩,
   ⟨0x30C, .tcadd, 64, 17, 17, 0x1, 0x1, 0x1, 1, false, false, true, .aMax63, .none⟩,
   ⟨0x30D, .tcwait, 65, 17, 17, 0x1, 0x1, 0x1, 1, false, false, true, .aMax63, .none⟩,
   ⟨0x30E, .trig, 1, 2, 1, 0x1, 0x1, 0x1, 1, false, false, false, .four, .none⟩,
   ⟨0x380, .launch, 1, 1, 64, 0x1, 0x1, 0x1, 1, false, false, true, .none, .none⟩,
   ⟨0x381, .spawn, 65, 1, 17, 0x1, 0x1, 0x1, 7, false, false, true, .none, .none⟩,
   ⟨0x382, .grpMake, 1, 1, 17, 0x1, 0x1, 0x1, 1, false, false, true, .none, .none⟩,
   ⟨0x383, .grpJoin, 1, 17, 64, 0x1, 0x1, 0x1, 1, false, false, true, .none, .none⟩,
   ⟨0x384, .grpInfo, 1, 17, 16, 0x1, 0x1, 0x1, 1, false, false, true, .bMax7, .none⟩,
   ⟨0x385, .cpost, 1, 2, 64, 0x1, 0x1, 0x1, 1, false, false, false, .four, .none⟩,
   ⟨0x386, .cwait, 1, 1, 81, 0x1, 0x1, 0x1, 1, false, false, true, .none, .none⟩,
   ⟨0x387, .cstat, 1, 1, 64, 0x1, 0x1, 0x1, 1, false, false, true, .none, .none⟩,
   ⟨0x388, .tree, 1, 1, 16, 0x1, 0x1, 0x1, 1, false, false, true, .tree, .none⟩,
   ⟨0x389, .kvmap, 1, 1, 1, 0x1, 0x1, 0x1, 1, false, false, true, .none, .none⟩,
   ⟨0x38A, .kvref, 1, 1, 17, 0x1, 0x1, 0x1, 1, false, false, true, .none, .none⟩,
   ⟨0x38B, .kvfork, 1, 1, 1, 0x1, 0x1, 0x1, 1, false, false, true, .none, .none⟩,
   ⟨0x38C, .kvw, 1, 1, 17, 0x1, 0x1, 0x1, 1, false, false, true, .none, .none⟩,
   ⟨0x38D, .kvdem, 1, 1, 64, 0x1, 0x1, 0x1, 1, false, false, true, .none, .c0⟩,
   ⟨0x38E, .domInfo, 1, 16, 64, 0x1, 0x1, 0x1, 1, false, false, true, .aMax7, .none⟩]

/-- R131: the 182 assigned opcodes. -/
def rows : List Row :=
  scalarRows ++ systemRows ++ vectorRows ++ memoryRows ++ syncRows ++ engineRows

/-- R117, R132: the row of an opcode, or none for an unassigned value. -/
def rowOf (op : Nat) : Option Row := rows.find? fun r => r.op == op

def bitOf (n i : Nat) : Bool := n.testBit i

/-- R172: the number of lanes of a type code; 0 for a code without lanes. -/
def lanesOf (t : Nat) : Nat :=
  match t with
  | 0 => 16 | 1 => 16 | 7 => 16 | 2 => 8 | 10 => 8 | 6 => 8 | 3 => 4 | 11 => 4 | 5 => 4 | 4 => 2 | 12 => 2 | 8 => 32
  | _ => 0

/-- The class bit of R131's letters and the index limit of R119, R128. -/
def kindBit : Cls → Nat
  | .g => 0 | .v => 1 | .p => 2 | .s => 3
def idxLimit : Cls → Nat
  | .g => 64 | .v => 32 | .p => 8 | .s => 22

/-- The type code a word carries in field d (R122). -/
def codeOf : Opd → Nat
  | .reg r => r.code.toNat
  | _ => 0
def idxOf : Opd → Nat
  | .reg r => r.idx.toNat
  | _ => 0
def immOf : Opd → Int
  | .imm i => i.toInt
  | _ => 0
def isImm : Opd → Bool
  | .imm _ => true
  | _ => false

/-- Which field of the word is checked (R135 part 2, 3, 4). -/
inductive Part | d | a | b
  deriving DecidableEq, Repr

/-- R125: the prefix bits of a register field. `t` is the word's type code. -/
def prefixOk (r : Row) (p : Part) (t : Nat) (o : RegOpd) : Bool :=
  (!o.neg || (r.neg && p != .d && (t == 5 || t == 6 || t == 7))) &&
  (!o.sync || ((o.cls == .v || (o.cls == .g && o.idx != 0)) &&
    (match p with | .d => r.dSync | .a => r.aSync | .b => true)))

/-- R133 step 3 for one field: the reason of R135 if it fails. `rsvd` says that a reserved bit of the field is set:
[15:6] of a register field, [23:0] of a field of kind 11. `wideA` says that field a is an accepted wide operand, so that
field b is its upper half (R120). -/
def fieldErr (r : Row) (p : Part) (t : Nat) (wideA rsvd : Bool) (o : Opd) : Option Nat :=
  let kinds := match p with | .d => r.dk | .a => r.ak | .b => r.bk
  let codes := match p with | .d => r.dc | .a => r.ac | .b => r.bc
  match o with
  | .hi _ => if p == .b && wideA && bitOf r.bk 5 then none else some 6
  | .wide _ => if p == .a && bitOf kinds 5 then none else some 6
  | .imm i =>
    if wideA && p == .b then some 6
    else if !bitOf kinds 4 then some 1
    else if r.op == 0x1C0 && p == .b && !(0 ≤ i.toInt && i.toInt ≤ 12) then some 4
    else if r.op == 0x2C0 && p == .a && !(0 ≤ i.toInt && i.toInt ≤ 8) then some 4
    else none
  | .none =>
    if wideA && p == .b then some 6
    else if !bitOf kinds 6 then some 1 else if rsvd then some 2 else none
  | .reg o =>
    if wideA && p == .b then some 6
    else if kinds % 16 == 0 then some 1
    else if !bitOf kinds (kindBit o.cls) || idxLimit o.cls ≤ o.idx.toNat then some 3
    else if rsvd then some 2
    else if !prefixOk r p t o then some 5
    else if !bitOf codes o.code.toNat then some 4
    else none

/-- R127, R152, R189, R225, R237: the cross-field conditions. -/
def crossOk (r : Row) (x : Args) : Bool :=
  match r.cross with
  | .none => true
  | .count => match x.d with
    | .reg o => if o.cls == .v then o.idx.toNat + o.code.toNat ≤ 31 else o.idx.toNat + o.code.toNat ≤ 63
    | _ => false
  | .four => idxOf x.a ≤ 28
  | .fourEven => idxOf x.a ≤ 28 && idxOf x.d % 2 == 0
  | .even => idxOf x.d % 2 == 0
  | .loop => 1 ≤ immOf x.b
  | .lane => 0 ≤ immOf x.b && immOf x.b < lanesOf (codeOf x.d)
  | .aMax255 => !isImm x.a || (0 ≤ immOf x.a && immOf x.a ≤ 255)
  | .aMax63 => !isImm x.a || (0 ≤ immOf x.a && immOf x.a ≤ 63)
  | .aMax7 => 0 ≤ immOf x.a && immOf x.a ≤ 7
  | .bMax7 => 0 ≤ immOf x.b && immOf x.b ≤ 7
  | .fence => 1 ≤ immOf x.a && immOf x.a ≤ 7
  | .tree => match x.b with
    | .imm i =>
      let v := i.toNat
      let op := v % 16
      let t := v / 16 % 16
      v < 2048 && op ≤ 5 && (t == 3 || t == 4 || t == 5 || t == 6 || t == 11 || t == 12) &&
        (op == 0 || !(t == 5 || t == 6))
    | _ => false

/-- R130: the hint code is accepted. `:sat` on a vector form needs an integer type code, and on `VCVT` the target
`.fp8`. -/
def hintOk (r : Row) (x : Args) : Bool :=
  let t := codeOf x.d
  bitOf r.hints x.hint.toNat &&
    (x.hint == 0 || r.op < 0x100 || 0x200 ≤ r.op ||
      (if r.op == 0x1C0 then t == 7 else t ≤ 4 || (10 ≤ t && t ≤ 12)))

def isWide : Opd → Bool
  | .wide _ => true
  | _ => false

/-- R133 steps 2 to 4: the part and reason of the first failure. The three flags say which fields have reserved bits
set. -/
def formErr (r : Row) (x : Args) (rd ra rb : Bool) : Option (Nat × Nat) :=
  let t := codeOf x.d
  let w := isWide x.a && bitOf r.ak 5
  if !hintOk r x then some (1, 7)
  else match fieldErr r .d t false rd x.d with
    | some e => some (2, e)
    | none => match fieldErr r .a t false ra x.a with
      | some e => some (3, e)
      | none => match fieldErr r .b t w rb x.b with
        | some e => some (4, e)
        | none => if crossOk r x then none else some (5, 8)

/-- The opcode and fields of an instruction; none for an event, which has no word. -/
def argsOf : Instr → Option (Nat × Args)
  | .add x => some (0x1, x)
  | .sub x => some (0x2, x)
  | .mul x => some (0x3, x)
  | .mulh x => some (0x4, x)
  | .div x => some (0x5, x)
  | .rem x => some (0x6, x)
  | .min x => some (0x7, x)
  | .max x => some (0x8, x)
  | .abs x => some (0x9, x)
  | .neg x => some (0xA, x)
  | .and x => some (0xB, x)
  | .or x => some (0xC, x)
  | .xor x => some (0xD, x)
  | .andn x => some (0xE, x)
  | .shl x => some (0xF, x)
  | .shr x => some (0x10, x)
  | .sar x => some (0x11, x)
  | .rot x => some (0x12, x)
  | .clz x => some (0x13, x)
  | .ctz x => some (0x14, x)
  | .popc x => some (0x15, x)
  | .ext x => some (0x16, x)
  | .bfx x => some (0x17, x)
  | .bfi x => some (0x18, x)
  | .sel x => some (0x19, x)
  | .mov x => some (0x1A, x)
  | .movw x => some (0x1B, x)
  | .lea x => some (0x1C, x)
  | .cmp .eq x => some (0x1D, x)
  | .cmp .ne x => some (0x1E, x)
  | .cmp .lt x => some (0x1F, x)
  | .cmp .le x => some (0x20, x)
  | .cmp .gt x => some (0x21, x)
  | .cmp .ge x => some (0x22, x)
  | .pand x => some (0x23, x)
  | .por x => some (0x24, x)
  | .pxor x => some (0x25, x)
  | .pnot x => some (0x26, x)
  | .br x => some (0x80, x)
  | .bri x => some (0x81, x)
  | .call x => some (0x82, x)
  | .ret x => some (0x83, x)
  | .loop .l0 x => some (0x84, x)
  | .loop .l1 x => some (0x85, x)
  | .lbrk .l0 x => some (0x86, x)
  | .lbrk .l1 x => some (0x87, x)
  | .nop x => some (0x88, x)
  | .halt x => some (0xC0, x)
  | .trap x => some (0xC1, x)
  | .bkpt x => some (0xC2, x)
  | .rls x => some (0xC3, x)
  | .mfs x => some (0xC4, x)
  | .mts x => some (0xC5, x)
  | .time x => some (0xC6, x)
  | .dln x => some (0xC7, x)
  | .dlx x => some (0xC8, x)
  | .part x => some (0xC9, x)
  | .strt x => some (0xCA, x)
  | .reap x => some (0xCB, x)
  | .evict x => some (0xCC, x)
  | .admitStrand x => some (0xCD, x)
  | .yield x => some (0xCE, x)
  | .utake x => some (0xCF, x)
  | .vadd x => some (0x100, x)
  | .vsub x => some (0x101, x)
  | .vmul x => some (0x102, x)
  | .vfma x => some (0x103, x)
  | .vmin x => some (0x104, x)
  | .vmax x => some (0x105, x)
  | .vabs x => some (0x106, x)
  | .vneg x => some (0x107, x)
  | .vand x => some (0x108, x)
  | .vor x => some (0x109, x)
  | .vxor x => some (0x10A, x)
  | .vshl x => some (0x10B, x)
  | .vshr x => some (0x10C, x)
  | .vsar x => some (0x10D, x)
  | .vcmp .eq x => some (0x10E, x)
  | .vcmp .ne x => some (0x10F, x)
  | .vcmp .lt x => some (0x110, x)
  | .vcmp .le x => some (0x111, x)
  | .vcmp .gt x => some (0x112, x)
  | .vcmp .ge x => some (0x113, x)
  | .vsel x => some (0x114, x)
  | .vdot x => some (0x115, x)
  | .vsum x => some (0x116, x)
  | .vexp2 x => some (0x180, x)
  | .vlog2 x => some (0x181, x)
  | .vrcp x => some (0x182, x)
  | .vrsq x => some (0x183, x)
  | .vtanh x => some (0x184, x)
  | .vexpn x => some (0x185, x)
  | .vmaxe x => some (0x186, x)
  | .vldexp x => some (0x187, x)
  | .vrmax x => some (0x188, x)
  | .vcvt x => some (0x1C0, x)
  | .vperm x => some (0x1C1, x)
  | .vsplat x => some (0x1C2, x)
  | .vins x => some (0x1C3, x)
  | .vext x => some (0x1C4, x)
  | .ld x => some (0x200, x)
  | .st x => some (0x201, x)
  | .vld x => some (0x202, x)
  | .vst x => some (0x203, x)
  | .ldm x => some (0x204, x)
  | .stm x => some (0x205, x)
  | .acq .core x => some (0x206, x)
  | .acq .blk x => some (0x207, x)
  | .acq .dst x => some (0x208, x)
  | .acq .dev x => some (0x209, x)
  | .acq .dom x => some (0x20A, x)
  | .rel .core x => some (0x20B, x)
  | .rel .blk x => some (0x20C, x)
  | .rel .dst x => some (0x20D, x)
  | .rel .dev x => some (0x20E, x)
  | .rel .dom x => some (0x20F, x)
  | .fnc .core x => some (0x210, x)
  | .fnc .blk x => some (0x211, x)
  | .fnc .dst x => some (0x212, x)
  | .fnc .dev x => some (0x213, x)
  | .fnc .dom x => some (0x214, x)
  | .send x => some (0x215, x)
  | .recv x => some (0x216, x)
  | .putr x => some (0x217, x)
  | .fec x => some (0x218, x)
  | .feq x => some (0x219, x)
  | .aadd x => some (0x280, x)
  | .aand x => some (0x281, x)
  | .aor x => some (0x282, x)
  | .axor x => some (0x283, x)
  | .amin x => some (0x284, x)
  | .amax x => some (0x285, x)
  | .axch x => some (0x286, x)
  | .acas x => some (0x287, x)
  | .ainc x => some (0x288, x)
  | .hbAlloc x => some (0x2C0, x)
  | .hbJoin x => some (0x2C1, x)
  | .hbArrive x => some (0x2C2, x)
  | .hbWait x => some (0x2C3, x)
  | .hbLeave x => some (0x2C4, x)
  | .hbFree x => some (0x2C5, x)
  | .mbInit x => some (0x2C6, x)
  | .mbArrive x => some (0x2C7, x)
  | .mbExpect x => some (0x2C8, x)
  | .mbWait x => some (0x2C9, x)
  | .chOpen x => some (0x2CA, x)
  | .rgProd x => some (0x2CB, x)
  | .rgPut x => some (0x2CC, x)
  | .rgGet x => some (0x2CD, x)
  | .rgEos x => some (0x2CE, x)
  | .owe x => some (0x2CF, x)
  | .unowe x => some (0x2D0, x)
  | .tdset x => some (0x300, x)
  | .tdget x => some (0x301, x)
  | .mxq x => some (0x302, x)
  | .cld x => some (0x303, x)
  | .cpq x => some (0x304, x)
  | .cpr x => some (0x305, x)
  | .jwait x => some (0x306, x)
  | .jwaitp x => some (0x307, x)
  | .jstat x => some (0x308, x)
  | .jcan x => some (0x309, x)
  | .qfence x => some (0x30A, x)
  | .tcset x => some (0x30B, x)
  | .tcadd x => some (0x30C, x)
  | .tcwait x => some (0x30D, x)
  | .trig x => some (0x30E, x)
  | .launch x => some (0x380, x)
  | .spawn x => some (0x381, x)
  | .grpMake x => some (0x382, x)
  | .grpJoin x => some (0x383, x)
  | .grpInfo x => some (0x384, x)
  | .cpost x => some (0x385, x)
  | .cwait x => some (0x386, x)
  | .cstat x => some (0x387, x)
  | .tree x => some (0x388, x)
  | .kvmap x => some (0x389, x)
  | .kvref x => some (0x38A, x)
  | .kvfork x => some (0x38B, x)
  | .kvw x => some (0x38C, x)
  | .kvdem x => some (0x38D, x)
  | .domInfo x => some (0x38E, x)
  | .endStrand _ => none
  | .ibufLineLands _ _ => none
  | .requestPerformed _ => none
  | .loadDataLands _ => none
  | .accessAcknowledged _ => none
  | .scopeMissReissue _ => none
  | .atomicGrant _ => none
  | .atomicRelease _ => none
  | .ringPacketHop _ => none
  | .meshFlitHop _ => none
  | .inboxPoolGrant _ => none
  | .inboxMessageArrives _ => none
  | .channelSlotGrant _ => none
  | .channelMessageLands _ => none
  | .ringSlotReserve _ => none
  | .ringDataLands _ => none
  | .ringTokenArrives _ => none
  | .hbEventPerformed _ => none
  | .mbEventPerformed _ => none
  | .tcEventPerformed _ => none
  | .putrArrives _ => none
  | .cprWordLands _ => none
  | .waitWake _ => none
  | .tickBoundary => none
  | .waitTimeout _ => none
  | .deadlineExpiry _ => none
  | .promiseMissed _ _ _ => none
  | .withholdNoticeArrives _ => none
  | .unwithholdNoticeArrives _ => none
  | .cordonLeave _ => none
  | .rootReady _ => none
  | .trapRecordDelivery _ => none
  | .trapqRecordTimeout _ => none
  | .evictComplete _ => none
  | .admitComplete _ => none
  | .autoEvict _ => none
  | .autoAdmit _ => none
  | .queueEntryGrant _ _ => none
  | .jobStart _ _ => none
  | .jobEnd _ _ => none
  | .jobFault _ _ _ _ _ => none
  | .jobCancelStop _ _ => none
  | .fenceEnd _ _ => none
  | .treeRoundComplete _ _ _ => none
  | .hostSubmission _ _ => none
  | .unitRelease _ => none
  | .unitOffer _ => none
  | .cornerQueueReoffer _ => none
  | .launchEnd _ => none
  | .wcancel _ _ => none
  | .plazaPostArrival _ _ _ _ => none
  | .bareTicketArrives _ => none
  | .ticketArrives _ _ _ => none
  | .collectiveStart => none
  | .contributionMerged _ _ _ _ => none
  | .collectiveEnd _ => none
  | .collectiveFaultAbort _ _ => none
  | .pageWalkComplete _ => none
  | .missMergeEntryGrant _ => none
  | .tlbinvPage _ => none
  | .tlbinvKey _ => none
  | .tlbinvContext _ => none
  | .kvEventPerformed _ => none
  | .kvCopyEnd _ => none
  | .kvFlip _ => none
  | .frameRetire _ => none
  | .scrubEnd _ => none
  | .ctxCreate _ => none
  | .ctxAdmit _ => none
  | .ctxStart _ => none
  | .ctxSwitch _ _ => none
  | .ctxStop _ => none
  | .ctxcmdHold _ _ => none
  | .slotZeroStart _ => none
  | .gangSwitch _ => none
  | .contextSaveComplete _ => none
  | .lateDeviceEvent _ => none
  | .contextRestore _ => none
  | .cutClosed _ => none
  | .unrecoverableFault _ => none
  | .teardownComplete _ => none
  | .deadlockSample _ => none
  | .dbgStop _ _ => none
  | .dbgRelease _ _ => none
  | .dbgHold _ _ => none
  | .errlogCapture _ _ => none
  | .errlogClear => none
  | .pwrlimWrite _ => none
  | .powerWindow => none
  | .rateLimitRelease _ => none
  | .registerWrite _ _ _ _ => none
  | .domForm _ => none
  | .domJoin _ _ => none
  | .domLeave => none
  | .domEvict _ => none
  | .joinRequest _ => none
  | .getVersion _ => none
  | .getCapabilities _ => none
  | .negotiateAlgorithms _ => none
  | .getDigests _ => none
  | .getCertificate _ => none
  | .getMeasurements _ => none
  | .keyExchange _ => none
  | .finish _ => none
  | .ideKm _ => none
  | .hostTlpReceive _ => none
  | .rekeyStart => none
  | .rekeyArrive _ => none
  | .rekeyClose => none
  | .heartbeat _ => none
  | .memberLost _ => none
  | .plazaLost => none
  | .timeExchange _ => none
  | .chiplinkFlitReceive _ _ => none
  | .linkAck _ _ => none
  | .linkNak _ _ => none
  | .fabricPacketArrival _ => none
  | .retransmissionRequest _ _ => none
  | .e2eAck _ _ _ => none
  | .e2eAckTimer _ => none
  | .streamResendTimeout _ => none
  | .reset => none
  | .functionReady _ => none
  | .districtFailure _ => none
  | .plazaGroupRequest _ _ _ => none
  | .bareTicketRequest _ => none
  | .spdmResponseArrives _ _ => none
  | .rekeyMessageArrives _ _ _ => none
  | .registerFileError _ _ _ => none
  | .functionFailure _ => none

end Sys2Proof.Machine
end

