-- ==== Sys2Proof/WellFormed.lean ====
section
/-! DEFINITION. Which instructions are well formed: those whose word passes every check of R133. -/

namespace Sys2Proof
open Machine

/-- R133 on an instruction: its fields are those its row accepts. An event has no word and nothing to check. -/
def wellFormed (i : Instr) : Bool :=
  match argsOf i with
  | none => true
  | some (op, x) =>
    match rowOf op with
    | none => false
    | some r => (formErr r x false false false).isNone

end Sys2Proof
end

