-- ==== Sys2Proof/Decode.lean ====
section
/-! DEFINITION. Decoding and encoding of the 96-bit instruction word (R115-R135). -/

namespace Sys2Proof
open Machine

/-- What decoding a word answers: an instruction, or the part and reason of R135. -/
inductive Decoded
  | ok (i : Instr)
  | illegal (part reason : Nat)
  deriving DecidableEq, Repr

/-- R119: the 26 bits of a register field. -/
def packReg (r : RegOpd) : BitVec 26 :=
  let c : BitVec 2 := match r.cls with | .g => 0 | .v => 1 | .p => 2 | .s => 3
  (0#2 ++ c ++ BitVec.ofBool r.sync ++ BitVec.ofBool r.neg ++ r.code ++ 0#10 ++ r.idx).cast (by decide)

/-- R118: the 26 bits of a field. -/
def packOpd : Opd → BitVec 26
  | .reg r => packReg r
  | .imm i => 1#2 ++ i
  | .wide lo => 2#2 ++ lo
  | .hi h => h
  | .none => 3#2 ++ 0#24

/-- R118, R119: the operand a field's bits stand for, its reserved bits aside. -/
def parseOpd (f : BitVec 26) : Opd :=
  match (f.extractLsb' 24 2).toNat with
  | 0 => .reg
      { cls := match (f.extractLsb' 22 2).toNat with | 0 => .g | 1 => .v | 2 => .p | _ => .s
        sync := f.getLsbD 21
        neg := f.getLsbD 20
        code := f.extractLsb' 16 4
        idx := f.extractLsb' 0 6 }
  | 1 => .imm (f.extractLsb' 0 24)
  | 2 => .wide (f.extractLsb' 0 24)
  | _ => .none

/-- Whether the reserved bits of a field are set: [15:6] of kind 00, [23:0] of kind 11 (R118, R119). -/
def reservedSet (f : BitVec 26) : Bool :=
  match (f.extractLsb' 24 2).toNat with
  | 0 => f.extractLsb' 6 10 != 0
  | 3 => f.extractLsb' 0 24 != 0
  | _ => false

/-- R115: the word of an opcode and its fields. -/
def packWord (op : Nat) (x : Args) : BitVec 96 :=
  (BitVec.ofNat 10 op ++ BitVec.ofBool x.inv ++ x.pred ++ x.hint ++ packOpd x.d ++ packOpd x.a ++ packOpd x.b).cast
    (by decide)

/-- R133: the checks of a fetched word, in their order, and the instruction it stands for. -/
def decodeWord (w : BitVec 96) : Decoded :=
  match rowOf (w.extractLsb' 86 10).toNat with
  | none => .illegal 0 0
  | some r =>
    let fd := w.extractLsb' 52 26
    let fa := w.extractLsb' 26 26
    let fb := w.extractLsb' 0 26
    let a := parseOpd fa
    let wideA := isWide a && bitOf r.ak 5
    let x : Args :=
      { inv := w.getLsbD 85
        pred := w.extractLsb' 82 3
        hint := w.extractLsb' 78 4
        d := parseOpd fd
        a := a
        b := if wideA then .hi fb else parseOpd fb }
    match formErr r x (reservedSet fd) (reservedSet fa) (!wideA && reservedSet fb) with
    | some (p, e) => .illegal p e
    | none => .ok (r.make x)

/-- R1, R116: the word in the first 12 bytes of a line, the first byte least significant. -/
def lineWord (bytes : List Byte) : BitVec 96 :=
  BitVec.ofNat 96 ((bytes.take 12).foldr (fun b n => b.toNat + 256 * n) 0)

/-- Decoding, total on any bytes: fewer than 12 bytes read as if zeros followed. -/
def decodeBytes (bytes : List Byte) : Decoded := decodeWord (lineWord bytes)

/-- R115: the word of an instruction; none for an event. -/
def encode (i : Instr) : Option (BitVec 96) :=
  (argsOf i).map fun (op, x) => packWord op x

/-- R116: a word as the 16 bytes of its line, padding zero. -/
def wordBytes (w : BitVec 96) : List Byte :=
  (List.range 16).map fun i => BitVec.ofNat 8 (w.toNat / 256 ^ i)

/-- The instruction the decoder reads from a table row's word of `nbits` bits; bits above `nbits` are zero. -/
def decodeTableWord (nbits w : Nat) : Option Instr :=
  match decodeBytes (wordBytes (BitVec.ofNat 96 (w % 2 ^ nbits))) with
  | .ok i => some i
  | .illegal _ _ => none

end Sys2Proof
end

