-- ==== Sys2Proof/Config.lean ====
section
/-! DEFINITION. The free values of the model: constants without a body, so that no proof can see what they are. Each is
applied to the counter `fresh` of the state, or to what it depends on. See notes/assumptions/1.md and 2.md. -/

namespace Sys2Proof.Config

/-- A choice the spec leaves open (an arrival order, a victim, an allocation), by the counter of free values. -/
opaque choice : Nat → Nat
/-- A byte that comes from outside the device (host memory), by the counter and the address. -/
opaque farByte : Nat → Nat → BitVec 8
/-- A result the spec states no value for, by the counter. -/
opaque openValue : Nat → BitVec 128
/-- The active Plaza's random master secret of a generation (R437). -/
opaque secret : Nat → List (BitVec 8)
/-- The seed the root of trust reconstructs at a start, or none when it cannot (R454). -/
opaque pufSeed : Nat → Option (List (BitVec 8))
/-- SHA-512 as R423, R455 name it. -/
opaque sha512 : List (BitVec 8) → List (BitVec 8)
/-- The Ed25519 public key of a seed (R454). -/
opaque publicKey : List (BitVec 8) → List (BitVec 8)
/-- An Ed25519 signature of a message under a seed (R423). -/
opaque sign : List (BitVec 8) → List (BitVec 8) → List (BitVec 8)
/-- Whether the owner key accepts the configuration record's signature (R453): record, signature. -/
opaque ownerAccepts : List (BitVec 8) → List (BitVec 8) → Bool
/-- HKDF-Extract then HKDF-Expand to 32 bytes with SHA-512 (R437): salt, key material, info. -/
opaque hkdf : List (BitVec 8) → List (BitVec 8) → List (BitVec 8) → List (BitVec 8)
/-- Whether a message bears a signature of a public key (R423, R436): key, message, signature. -/
opaque verify : List (BitVec 8) → List (BitVec 8) → List (BitVec 8) → Bool
/-- The private half of a P-384 exchange, or another draw of the random source, by the counter (R436). -/
opaque drawn : Nat → List (BitVec 8)
/-- The public share of a private half (R436). -/
opaque share : List (BitVec 8) → List (BitVec 8)
/-- The secret that a private half and the peer's share make (R436). -/
opaque agreed : List (BitVec 8) → List (BitVec 8) → List (BitVec 8)
/-- What a FINISH message proves a session's keys with (R436). -/
opaque finishMac : List (BitVec 8) → List (BitVec 8)
/-- Whether a peer's certificate chain is accepted (R436). -/
opaque chainAccepts : List (BitVec 8) → Bool
/-- The leaf key of a certificate chain (R436). -/
opaque leafKey : List (BitVec 8) → List (BitVec 8)
/-- The device's certificate chain for a public key (R423). -/
opaque chain : List (BitVec 8) → List (BitVec 8)
/-- A firmware image by measurement block number, 1 to 8 (R455). -/
opaque firmware : Nat → List (BitVec 8)
/-- CRC-32 of the first 252 bytes of a flit (R427): polynomial, bytes. -/
opaque crc32 : BitVec 32 → List (BitVec 8) → BitVec 32
/-- The package power the device measures, in watts, by the counter (R457). -/
opaque power : Nat → Nat
/-- The external flash: the configuration record and its signature (R453). -/
opaque flash : List (BitVec 8)
/-- A payload sealed with AES-256-GCM, tag included (R430): key, nonce and routing header, payload. -/
opaque ciphertext : List (BitVec 8) → List (BitVec 8) → List (BitVec 8) → List (BitVec 8)
/-- A sealed payload opened, or none where its tag fails (R430): key, nonce and routing header, ciphertext with its tag. -/
opaque opened : List (BitVec 8) → List (BitVec 8) → List (BitVec 8) → Option (List (BitVec 8))
/-- A byte of configuration space that nothing has written, and that R421's parts do not give (R421). -/
opaque cfgByte : Nat → BitVec 8
/-- The member at the other end of a chip-link port (R442). -/
opaque neighbour : Nat → Nat
/-- What comes about outside the strands' own issue when the device is at liberty: an event of the table, by the counter. -/
opaque input : Nat → Option Sys2Proof.Instr
/-- A running job that does one more piece of its work: block and queue, by the counter. -/
opaque work : Nat → Option (Nat × Nat)
/-- An uncorrectable error that failing hardware leaves in a byte of memory, by the counter (R345). -/
opaque errorAt : Nat → Option Nat
/-- The flits of a class, above 16, that the buffer at the far end of a link holds (R385, R425): from node, to node, class. -/
opaque linkDepth : Nat → Nat → Nat → Nat
/-- The flits of a class, above 16, for which the receiver at a chip-link port gives allowance (R385, R425): port, class. -/
opaque portDepth : Nat → Nat → Nat
/-- Whether a packet with a clear way is performed in the cycle in which it was sent, by the counter. -/
opaque prompt : Nat → Bool

end Sys2Proof.Config
end

