-- ==== Sys2Proof/Machine/State.lean ====
section
/-! DEFINITION. Everything the spec gives the device, as plain data, and the device right after reset. A `Map` lists only
what differs from its default, so that reset lists nothing. INVENTORY.md names each piece with its rule. "log n" in a comment stands
for notes/assumptions/n.md. -/

namespace Sys2Proof.Machine
open Sys2Proof

/-! ## Strands -/

/-- A register that a copy, a put or a synchronised read names. -/
inductive RegRef
  | g (n : Nat)
  | v (n : Nat)
  deriving DecidableEq, Repr

/-- Operand values as an instruction read them; field a may hold the four registers of a command (R233). -/
structure Opnds where
  d : Vec
  a : BitVec 512
  b : Vec
  deriving DecidableEq, Repr

/-- What a parked strand waits for. `sync`: a synchronised read (R126). `test`: an object or a condition that the
instruction tests again at the strand's next rotation (R210, R211). `asked k`: the answer to packet k. `granted n`: a grant
that has arrived. `refused cls info`: an answer that traps with that class at the next rotation. `fetch`: an instruction-buffer line (R74).
`tlb k va need`: miss k for a virtual address, with the access kind of R411 (R408). `drain n`: for n below 5 the acknowledgement of its accesses within the scope numbered n
(R207), for 5 the landing of its copies (R151), for 6 one of the 32 places of posted stores (R201), for 7 that what its core sent
has reached its homes (R284), for 8 the acknowledgement of its barrier events (R226). `copyOf r`: a copy into a
register (R137, R174). `busy a n`: an atomic's release of a word (R291). -/
inductive Stage
  | sync
  | test
  | asked (k : Nat)
  | granted (n : Nat)
  | refused (cls : Nat) (info : Word)
  | fetch
  | tlb (k va need : Nat)
  | drain (what : Nat)
  | copyOf (r : RegRef)
  | busy (addr n : Nat)
  deriving DecidableEq, Repr

/-- The wait record of R464 (`form`, `obj`, `left`, `arg`), with the model's own bookkeeping: when the strand parked, the
stage, whether its object was withheld meanwhile (R210), the operands read, the F bits its synchronised reads cleared, the
instruction's word (0 while it waits to be fetched), and what it has got so far, by the address it was read from: words of a multiple
load (R204), and parts of a block outside the device, where address 2⁶⁴ says that a block has left for its home (R296). -/
structure Wait where
  form : Nat
  obj : Word
  left : Option Nat
  arg : Word
  since : Nat
  stage : Stage
  rel : Bool
  opnds : Option Opnds
  syncs : List RegRef
  word : BitVec 96
  got : List (Nat × Nat)
  deriving DecidableEq, Repr

/-- A source keeps pair order to each home (R285): a core's port, the strand port of its scratchpad (R283), an engine of a
block (R300), the Interchange, or the host port as the source of the host's reads (R298). -/
inductive Src
  | core (c : Nat)
  | own (c : Nat)
  | engine (b q : Nat)
  | ichg
  | host
  deriving DecidableEq, Repr

/-- R71. -/
inductive Home
  | core (c : Nat)
  | hub (b : Nat)
  | quay (d q : Nat)
  | hostPort
  | member (m : Nat)
  | register
  | kvUnit
  deriving DecidableEq, Repr

/-- A place of the debt list (R232): a handle and whether it was declared implicitly (R325). -/
structure Debt where
  handle : Word
  implicit : Bool
  deriving DecidableEq, Repr

/-- A word of a register copy that has not landed (R248): its register, its home and address there, the address as the form
gave it, the handle of its debt, and whether an error halted it (R345, R441). -/
structure Copy where
  reg : RegRef
  home : Home
  addr : Nat
  ea : Word
  handle : Word
  halted : Bool
  deriving DecidableEq, Repr

/-- A unit: its id, its launch's id, and the 8 words of its record (R363). -/
structure UnitRec where
  id : Nat
  launch : Nat
  words : List Word
  deriving DecidableEq, Repr

/-- A strand's own state (R325, R155), with `uid`, a number no other strand ever has, for the model's own use.
`member` is the device's member id when it started (R31). `arrived` holds, by block · 32 + index, the barrier phase of its latest arrival (R227). `due` is a trap, class and trapinfo, that
came while it was in no slot, and which it takes before its next issue (R345, R388, R441). -/
structure Strand where
  uid : Nat
  ctx : Nat
  g : Map Word
  v : Map Vec
  p : Map (BitVec 16)
  gF : BitVec 64
  gW : BitVec 64
  vF : BitVec 32
  vW : BitVec 32
  pc : Word
  lk : Word
  ls0 : Word
  le0 : Word
  lc0 : Word
  ls1 : Word
  le1 : Word
  lc1 : Word
  fflags : BitVec 5
  dlValid : Bool
  dlArmed : Bool
  dlRelease : BitVec 48
  dline : Word
  scmiss : Word
  trapinfo : Word
  unitid : Word
  launchid : Word
  debts : List Debt
  startId : Nat
  member : Nat
  spawns : Nat
  wait : Option Wait
  copies : List Copy
  units : List UnitRec
  arrived : List (Nat × BitVec 16)
  noticed : List Word
  dlPending : Bool
  held : Bool
  releasing : Bool
  due : Option (Nat × Word)
  deriving DecidableEq, Repr

/-- R326. -/
inductive SlotState | empty | ready | parked | halted | member | ended
  deriving DecidableEq, Repr

/-- A hardware slot: its state and the strand it holds (meaningless when empty). -/
structure Slot where
  st : SlotState
  s : Strand
  moved : Nat
  deriving DecidableEq, Repr

/-! ## Cores -/

/-- An inbox entry (R215, R445): reserved for a message on its way, or full; its arrival number and its bytes. -/
structure InEntry where
  reserved : Bool
  full : Bool
  taken : Bool
  order : Nat
  bytes : List Byte
  deriving DecidableEq, Repr

/-- A unit-inbox entry (R370). -/
structure UnitEntry where
  unit : UnitRec
  taken : Bool
  order : Nat
  deriving DecidableEq, Repr

/-- A spill run queue entry (R334): its place in device memory, the strand it stands for, whether its image has been
written or is being loaded, whether and since when it is ready, and the slot whose id still names it. -/
structure Spill where
  place : Nat
  strand : Strand
  written : Bool
  ready : Bool
  since : Nat
  slot : Nat
  target : Option Nat
  deriving DecidableEq, Repr

/-- A channel register (R219): the header's offset, the cordon map (R313), the slot the consumer still holds (R220), and the
positions whose messages have landed and are not yet handed. -/
structure ChanReg where
  off : Nat
  cordon : BitVec 64
  held : Option Nat
  landed : List Nat
  deriving DecidableEq, Repr

/-- A ring register (R358): the header's offset and the ring slot each strand (by uid) holds. -/
structure RingReg where
  off : Nat
  holders : List (Nat × Nat)
  deriving DecidableEq, Repr

/-- A core. `prods` lists, for the channels and rings homed here, the header's offset, the bit and the strand (by uid) of
each registered producer (R218, R357); `withhold` is the table of R313, `counted` says which
strand (by uid) each notice counted in it is for, `refused` those that found no entry; `bankTurn` gives the requester class that each bank's shared port served last (R15). -/
structure Core where
  slots : Map Slot
  ibuf : Map (BitVec 2048)
  inbox : Map InEntry
  credits : Map Nat
  poolWait : List Nat
  unitInbox : Map UnitEntry
  spill : List Spill
  chans : List ChanReg
  rings : List RingReg
  prods : List (Nat × Nat × Nat)
  withhold : List (Word × Nat)
  counted : List (Word × Nat)
  refused : List (Word × Nat)
  trapring : Word
  ringstat : Word
  passed : Map Nat
  bankTurn : Map Nat
  moved : Bool
  colour : Bool
  sent : Map Nat
  recv : Map Nat
  deriving DecidableEq, Repr

/-! ## Hubs -/

/-- A hardware barrier (R391). `who` gives the strand (by uid) at a member entry. The
waiters are counted from the wait records (R391). `moved` says that an arrival or a leave of this cycle has still to be tested
(R392). -/
structure HBar where
  alloc : Bool
  ctx : Nat
  code : Nat
  mem : BitVec 128
  arr : BitVec 128
  cordon : BitVec 128
  kept : BitVec 128
  phase : BitVec 16
  acc : BitVec 32
  result : BitVec 32
  who : Map Nat
  moved : Bool
  deriving DecidableEq, Repr

/-- A trigger counter (R353); `moved` says that an event of this cycle has still to be evaluated (R356). -/
structure TCtr where
  count : BitVec 48
  strands : List Nat
  jobs : Nat
  cordon : Nat
  rootJobs : Nat
  moved : Bool
  deriving DecidableEq, Repr

/-- R346: what a queue entry is. -/
inductive JobKind | matrix | copy | fence
  deriving DecidableEq, Repr

/-- A queue entry (R233-R235, R346): its command and descriptors, state, status and detail, the trigger it waits on, its
promise (R351), and how far it has got: `progress` of its work is done, to `goal` goes the present piece (R252), and `redo`
lists elements that a home outside the device refused; `lapsed` says that its promise passed while its context was out
(R340). -/
structure Job where
  seq : Nat
  kind : JobKind
  cmd : BitVec 512
  descs : List (BitVec 512)
  state : Nat
  status : Nat
  detail : Nat
  trig : Option (Nat × BitVec 48)
  promise : Option Nat
  missed : Bool
  sid : Nat
  ctx : Nat
  halted : Bool
  progress : Nat
  stopping : Bool
  mask : Nat
  parts : List (Nat × Nat)
  goal : Nat
  redo : List Nat
  lapsed : Bool
  deriving DecidableEq, Repr

/-- A submission that waits for an entry of a full queue (R348), with the number of its request; `mask` names the queues of
a fence. -/
structure Submit where
  uid : Nat
  k : Nat
  kind : JobKind
  cmd : BitVec 512
  descs : List (BitVec 512)
  bad : Bool
  trig : Option (Nat × BitVec 48)
  sid : Nat
  ctx : Nat
  mask : Nat
  deriving DecidableEq, Repr

/-- An engine queue: entries in order, the next sequence, ended jobs' status words (newest first), submissions that wait, and the
elements that each write to a home outside the device, by packet number, carries (R301). -/
structure Queue where
  jobs : List Job
  next : Nat
  ended : List (Nat × Word)
  waiting : List Submit
  sent : List (Nat × List Nat)
  deriving DecidableEq, Repr

/-- A unit between the Interchange or its spawner and a unit inbox (R369): the corner it stands at, the corners still on
its route, its hint block, radius, the core it must reach if its home is a scratchpad, whether it is queued, and whether a block has been offered it. -/
structure UnitFlight where
  k : Nat
  unit : UnitRec
  route : List Nat
  hint : Nat
  radius : Nat
  core : Option Nat
  queued : Bool
  offered : Bool
  deriving DecidableEq, Repr

structure Hub where
  owner : Option Nat
  scrub : Bool
  initDone : Bool
  hb : Map HBar
  tc : Map TCtr
  mq : Queue
  cq0 : Queue
  cq1 : Queue
  redUsed : Nat
  deriving DecidableEq, Repr

/-- An open round of a reduction-tree channel (R268): the contributions by block, the strand of each, the operation and type
of the first, and whether a later one differs. -/
structure TreeRound where
  parts : List (Nat × Nat × Word)
  op : Nat
  ty : Nat
  mixed : Bool
  deriving DecidableEq, Repr

/-! ## The network (R275-R293) -/

/-- An atomic on its way (R224): opcode, type code, operand, comparand, destination. -/
structure AtomOp where
  op : Nat
  ty : Nat
  b : Word
  d : Word
  dst : Nat
  deriving DecidableEq, Repr

/-- What a packet asks of its home. Addresses are cell addresses of the one memory. -/
inductive Body
  | load (addr n ty : Nat) (mask : BitVec 16) (dst : RegRef)
  | store (addr n : Nat) (mask : BitVec 16) (data : Vec)
  | copyWord (addr n : Nat) (reg : RegRef) (handle : Word)
  | regLoad (core ctx off : Nat) (dst : RegRef)
  | regStore (core ctx off : Nat) (v : Word)
  | atomic (addr n : Nat) (o : AtomOp)
  | putr (sid reg : Nat) (v : Word) (from_ : Nat)
  | message (core entry : Nat) (bytes : List Byte)
  | chanAsk (core off : Nat)
  | chanMsg (core off slot : Nat) (bytes : List Byte) (last : Bool)
  | chanOpen (core off role : Nat)
  | ringProd (core off : Nat)
  | ringAsk (core off : Nat)
  | ringData (core off slot at_ : Nat) (bytes : List Byte) (last : Bool)
  | ringToken (core off : Nat)
  | hb (b idx op : Nat) (v : Option (BitVec 32))
  | mb (core off op : Nat) (n : Word)
  | tc (b idx : Nat) (add last : Bool) (v : BitVec 48)
  | kv (op : Nat) (a b : Word) (dst : RegRef)
  | notice (handle : Word) (un : Bool)
  deriving DecidableEq, Repr

/-- Where a ring packet stands (R17-R21): block, stop, direction, channel (0 A, 1 B, 2 E), the part of the buffer that
holds it (0 shared, 1 reserved, 2 escape, 3 at its source), flits, destination stop, and the District cycles until its head may
depart (R446, R447). -/
structure RingPos where
  blk : Nat
  stop : Nat
  cw : Bool
  chan : Nat
  part : Nat
  flits : Nat
  dest : Nat
  hold : Nat
  deriving DecidableEq, Repr

/-- R275, R288: on its way; arrived and waiting in its home's order for a slot, an entry or a word; performed and not yet
acknowledged; or turned back. -/
inductive PktSt | flying | waiting | performed | turned
  deriving DecidableEq, Repr

/-- A packet: `ord` its place in the order in which packets left their sources (R285), `node` the corner it stands at and
`via` the node it came from (`localIn` at its source) (R25, R292), `seat` its place in the order in which packets entered the buffer
they stand in (R20, R276), `since` the cycle in which it arrived at its home (R276), `again` that it is a reissued release
(R289). `ans` is the answer once performed, `bad` a trap class and trapinfo in its place (R345, R441), `limited` that
its class waits for the rate limiter (R426), `ea` the address as its form gave it, `reply` the member and number of the
request of another member that it serves (R293), `got` the banks of its home's shared port that have served it (R15). -/
structure Pkt where
  k : Nat
  ord : Nat
  node : Nat
  via : Nat
  seat : Nat
  since : Option Nat
  again : Bool
  src : Src
  home : Home
  uid : Nat
  sid : Nat
  ctx : Nat
  body : Body
  route : List Nat
  ring : Option RingPos
  scope : Option Scope
  st : PktSt
  ans : BitVec 512
  bad : Option (Nat × Word)
  limited : Bool
  colour : Bool
  ea : Word
  reply : Option (Nat × Nat)
  got : List Nat
  deriving DecidableEq, Repr

/-- A port or link that moves one access or flit in a cycle: bank n of the shared port of a core's scratchpad (R15), a quay's
port (R276), the link from one node to the next (R22), and a stop's ring link in one direction (R17). -/
inductive Served
  | bank (core n : Nat)
  | quay (d q : Nat)
  | link (a b : Nat)
  | ring (core : Nat) (cw : Bool)
  deriving DecidableEq, Repr

/-- A reservation of a word (R291), in arrival order; the first on a word holds it once granted. -/
structure Resv where
  k : Nat
  addr : Nat
  n : Nat
  granted : Bool
  old : Word
  new : Word
  deriving DecidableEq, Repr

/-- A trap record waiting for delivery (R330, R333): the core it comes from, the context whose queue it may go to (0 for
context 0), its 8 words, when it began to wait. -/
structure Record where
  k : Nat
  core : Option Nat
  ctx : Nat
  words : List Word
  since : Nat
  deriving DecidableEq, Repr

/-! ## Contexts -/

/-- The state codes of R459. -/
inductive CtxState | none | created | admitted | running | switchedOut | stopping | tornDown
  deriving DecidableEq, Repr

/-- A graph, phase or tenant-job entry (R372, R373). `up` is the phase of a graph, the tenant job of a phase. -/
structure Level where
  state : Nat
  status : Nat
  expected : Nat
  retired : Nat
  closed : Bool
  bad : Bool
  up : Nat
  deriving DecidableEq, Repr

/-- What a gang switch saves (R338, R339), with the cycle of the switch. -/
structure Saved where
  cycle : Nat
  cores : Map Core
  hubs : Map Hub
  cells : Map Byte
  drained : List Pkt
  rounds : Map TreeRound
  deriving DecidableEq, Repr

/-- The out-of-range accesses of one cycle of a context (R69): how many, and of the one with the lowest strand id its address
and what `spflag` says of it. -/
structure Offence where
  cycle : Nat
  sid : Nat
  n : Nat
  ea : Word
  word : Word
  deriving DecidableEq, Repr

/-- The registers that R458 marks C, by offset, hold what was written; `written` lists the offsets written. `sent` and `recv` count
what its engines have sent and what has been received of it, by colour, and `cut` the sums that other members have told of (R342). `spNow` holds the latest cycle with out-of-range
accesses, `spMine` that `spflag` shows the capture of that cycle (R69). -/
structure Ctx where
  st : CtxState
  status : Nat
  hold : Bool
  regs : Map Word
  written : List Nat
  tdbase : Word
  spflag : Word
  spaddr : Word
  spValid : Bool
  spNow : Option Offence
  spMine : Bool
  classmap : Nat
  ratelim : Word
  bucket : Nat
  graphs : Map Level
  phases : Map Level
  tjobs : Map Level
  curPhase : Map Nat
  switchTo : Option (Nat × Nat)
  saved : Option Saved
  saving : Bool
  late : Bool
  colour : Bool
  sample : Nat
  quiet : Option (Nat × Nat)
  declared : Bool
  sent : Map Nat
  recv : Map Nat
  cut : List (Nat × Nat × Nat)
  deriving DecidableEq, Repr

/-! ## The Interchange -/

/-- A launch-table entry (R361-R374). `state` is R373's; `order` is the place of its acceptance, then of its ending; `dropped` lists
the units cancelled before their release; `ending` is the packet with its done record whose acknowledgement its end waits for. -/
structure Launch where
  gen : Nat
  live : Bool
  ctx : Nat
  words : List Word
  state : Nat
  status : Nat
  expected : Nat
  retired : Nat
  sentUnits : Nat
  order : Nat
  dropped : List Nat
  ending : Option Nat
  deriving DecidableEq, Repr

/-- A group (R379, R380). `lost` is the status its posts end with once gone, `owners` the owning strand (by uid) of each member
of this device, `marked` the members whose owner is in the cordon, `plaza` the home Plaza's member id, `clear` the devices that
have no post and no owner of it left (R380), `trapped` that its owners here have taken the trap of R388. -/
structure Group where
  gid : Nat
  ctx : Nat
  entries : List Nat
  state : Nat
  lost : Nat
  owners : List (Nat × Nat)
  marked : List Nat
  posts : Map Nat
  tickets : Nat
  plaza : Nat
  clear : List Nat
  trapped : Bool
  deriving DecidableEq, Repr

/-- An L320 lane (R41): the exact integer and its three side bits. -/
structure Lane where
  n : Int
  nan : Bool
  pinf : Bool
  ninf : Bool
  deriving DecidableEq, Repr

/-- An entry of the posted-collective table (R381, R387). `offered`: the Plaza has been told of it; `withheld`: it has been
withheld since it started; `written`: its result has been written, `sent` the writes outside the device that are not
acknowledged, `failed` that one of them was refused (R386), and `paid` the bytes of its result that the rate limiter has let pass
(R426). -/
structure Post where
  key : Nat
  gid : Nat
  k : Nat
  member : Nat
  ctx : Nat
  uid : Nat
  startId : Nat
  sid : Nat
  blk : Nat
  cmd : BitVec 512
  descs : List (BitVec 512)
  trig : Option (Nat × Nat × BitVec 48)
  offered : Bool
  state : Nat
  status : Nat
  rank : Option Rank
  withheld : Bool
  written : Bool
  sent : List Nat
  failed : Bool
  paid : Nat
  deriving DecidableEq, Repr

/-- A post number that some member has posted and that is not ticketed (R382). -/
structure Pending where
  gid : Nat
  k : Nat
  seen : List (Nat × PostSig)
  deriving DecidableEq, Repr

/-- What a collective holds on this device (R385): chunks of SRAM, the corners whose reduction slots it has, and 16 flits of its
request class on links, from node to node, and at chip-link ports. -/
structure Held where
  chunks : Nat
  corners : List Nat
  cls : Nat
  links : List (Nat × Nat)
  ports : List Nat
  deriving DecidableEq, Repr

/-- A collective in progress on this device (R385, R386): its partial sums, the contribution of each merged member (empty
where it is in the sums), the members of this device whose contribution is being read, the members of other devices whose result is
written (R387), and what it holds once it has started. -/
structure Partial where
  gid : Nat
  k : Nat
  lanes : List Lane
  parts : List (Nat × List Nat)
  begun : List Nat
  wrote : List Nat
  held : Option Held
  deriving DecidableEq, Repr

/-- A cached translation (R407): which TLB (a block's number, 256 plus the District's, 300 for the Interchange), the
context, the page's virtual base and size, the physical base, its permissions, and the KV key if it came from one. -/
structure TlbEntry where
  tlb : Nat
  ctx : Nat
  va : Nat
  size : Nat
  pa : Nat
  r : Bool
  w : Bool
  x : Bool
  key : Option Nat
  deriving DecidableEq, Repr

/-- A miss (R408): its District, the blocks that asked, context, address, and whether it waits for an entry of the miss-merge
table. -/
structure Miss where
  k : Nat
  dist : Nat
  blks : List Nat
  ctx : Nat
  va : Nat
  waiting : Bool
  deriving DecidableEq, Repr

/-- A frame copy of the KV unit (R419, R420): 0 copy on write, 1 demotion, 2 promotion. -/
structure KvCopy where
  k : Nat
  kind : Nat
  ctx : Nat
  key : Nat
  desc : Nat
  new : Nat
  frame : Nat
  zero : Bool
  pkt : Nat
  deriving DecidableEq, Repr

/-- A frame whose readers drain (R418). -/
structure Retire where
  k : Nat
  ctx : Nat
  desc : Nat
  tier : Nat
  frame : Nat
  drops : Bool
  deriving DecidableEq, Repr

/-! ## Management, host port, links and the trust domain -/

/-- `window` holds the record slots of the host submission window by context (R365), `config` what has been written to configuration space,
`doeIn` and `doeOut` the data objects of the DOE mailbox as they are written and read, `doeBad` its error bit, and `tags` the tags and
packets of the device's own reads of host memory (R421); `completion` is the last answer that the host port has given to a read: the
address and the bytes, or none for Unsupported Request, and `tlp` the last request that it has sent itself (R298, R421, R422). `errNow` holds
the latest cycle with errors that no trap reports, and what ERRLOG shows of that cycle's alone (R461). -/
structure Mgmt where
  ready : Word
  pwrlim : Word
  pwrstat : Word
  late : Word
  ctxsel : Word
  errlog : Word
  routes : Map Byte
  policy : Map Byte
  refusedBit : Bool
  seed : Option (List Byte)
  blocks : List (List Byte)
  plainHost : Bool
  enable : Nat
  proposed : Nat
  ideSecure : Bool
  ideKey : List Byte
  clockWindow : Nat
  window : Map (Map Byte)
  config : Map Byte
  doeIn : List Byte
  doeOut : List Byte
  doeBad : Bool
  tags : List (Nat × Nat)
  tlp : Option Tlp
  completion : Option (Nat × Option (List Byte))
  errNow : Option (Nat × Word)
  deriving DecidableEq, Repr

/-- An SPDM session (R423, R436), number 0 with the host and m + 1 with member m: how far it has come, its secret, the last answer, what
the joining side has drawn, and the certificate chain it has been given. -/
structure Session where
  id : Nat
  phase : Nat
  secret : List Byte
  reply : List Byte
  drawn : List Byte
  peer : List Byte
  deriving DecidableEq, Repr

/-- The end-to-end stream with one other member (R293, R294, R431-R434): generation, next sequence, sealed shadow of packets not
acknowledged, expected sequence, accepted since the last ack, when the oldest unacked left and the oldest accepted came,
escape counters, the number a retransmission was last asked for, allowance held, packets waiting unsequenced, the part of a
message that has come so far, by class, the generation last accepted, the generations of the escape counters sent and accepted, and the
allowance that the peer holds of this member, by class (R432). -/
structure Stream where
  gen : Nat
  next : Nat
  shadow : List FabPkt
  expect : Nat
  unacked : Nat
  since : Nat
  oldest : Nat
  escOut : Nat
  escIn : Nat
  asked : Option Nat
  allowance : Map Nat
  waiting : List FabPkt
  gather : Map (List Byte)
  rgen : Nat
  egen : Nat
  regen : Nat
  lent : Map Nat
  deriving DecidableEq, Repr

/-- What is left of a packet that leaves by a port: whether its first byte is among it, whether it belongs to a collective (R385), and its
bytes. -/
structure Piece where
  first : Bool
  own : Bool
  bytes : List Byte
  deriving DecidableEq, Repr

/-- A chip-link port (R425, R427, R428, R442): up or not, next and expected link sequence, flits kept for replay, whether the nak
for the expected flit has been sent, replays of the oldest flit, data flits accepted since the last ack, the flits sent in this cycle, by class
what waits to be cut into flits, the part of a packet that has come, and the flits sent that the far end's buffer has not drained, the packets that
wait to go on by another port, and the one-way delay measured. -/
structure Port where
  up : Bool
  next : Nat
  expect : Nat
  replay : List Flit
  naked : Bool
  tries : Nat
  unacked : Nat
  wire : List Flit
  out : Map (List Piece)
  inb : Map (List Byte)
  far : Map Nat
  onward : List FabPkt
  delay : Nat
  deriving DecidableEq, Repr

/-- The trust domain as this member sees it (R435-R443). `next` is the membership that the changes so far come to, `barrier`
and `leaving` whom the open barrier keeps and whom it lets go in order, `joining` the Plaza asked and the id proposed,
`ahead` the nanoseconds a joiner still has to lose (R443), `elected` that the Plaza is new (R389), `readyOf` the READY word of each other member as
last heard (R452), `aligned` that the device has once arrived at a barrier, `near` that its time is right, and `timed` when it was last
corrected (R442, R443). -/
structure Dom where
  member : Nat
  state : Nat
  gen : Nat
  members : List Nat
  plaza : Nat
  next : List Nat
  barrier : List Nat
  arrived : List Nat
  leaving : List Nat
  secrets : List (Nat × List Byte)
  joining : Option (Nat × Nat)
  elected : Bool
  ahead : Nat
  replays : Nat
  retrans : Nat
  heard : Map Nat
  readyOf : Map Word
  beat : Nat
  aligned : Bool
  near : Bool
  timed : Nat
  streams : Map Stream
  ports : Map Port
  sessions : List Session
  outbox : List FabPkt
  deriving DecidableEq, Repr

/-- The outcome of an ended collective at a member (R350). -/
structure EndedPost where
  gid : Nat
  k : Nat
  member : Nat
  status : Nat
  rank : Nat
  deriving DecidableEq, Repr

/-- The Interchange's Plaza functions (R379-R385). `asked`: groups asked of another member's Plaza, by strand (uid), request,
context and entries; `localWait`: complete posts that wait for a bare ticket (R383); `complete`: post numbers that every
member has posted in this cycle (R383); `turned`: a post of another device found the store full (R382). -/
structure Plaza where
  groups : List Group
  posts : List Post
  pending : List Pending
  partials : List Partial
  ended : List EndedPost
  kq : List (Nat × Nat × Rank)
  heldTickets : List (Nat × Nat × Rank)
  domSeq : Nat
  locSeq : Nat
  topDom : Nat
  bare : Bool
  chunks : Nat
  asked : List (Nat × Nat × Nat × List Nat)
  localWait : List (Nat × Nat)
  complete : List Pending
  turned : Bool
  deriving DecidableEq, Repr

/-- What acts next, as plain data: a strand issues, an event comes about, an engine does one piece of its head job (block,
queue), or failing hardware leaves an uncorrectable error in the byte of memory with this key (R345). -/
inductive Act
  | issue (sid : Nat)
  | event (i : Instr)
  | work (blk q : Nat)
  | poison (addr : Nat)
  deriving DecidableEq, Repr

/-- The main clock of a District that DVFS has lowered (R30, R457): its own cycles, the part of one that has passed, in
3,300ths, and whether one begins in this cycle of the reference. A District at its nominal clock has no entry. -/
structure DistClock where
  count : Nat
  part : Nat
  ticks : Bool
  deriving DecidableEq, Repr

/-- The whole device. `clocks` lists the Districts that run below the nominal clock (R30). `served` lists the ports and links in use, each with the
cycles it still is, `draining` the ring slots whose packet has left and whose flits follow (R20). `portTurn` gives the input that each output port of a corner
served last, by link class (R25). `poison` lists the bytes of memory that hold an uncorrectable error (R345). The last six fields are the model's own (notes/assumptions/4.md). -/
structure State where
  cycle : Nat
  dtime : Nat
  skew : Int
  clocks : Map DistClock
  mem : Map Byte
  poison : List Nat
  cores : Map Core
  hubs : Map Hub
  corners : List UnitFlight
  trees : Map TreeRound
  net : List Pkt
  resv : List Resv
  served : List (Served × Nat)
  draining : List RingPos
  portTurn : Map Nat
  records : List Record
  ctxs : Map Ctx
  launches : Map Launch
  relTurn : Nat
  cancels : List (Nat × Word)
  plaza : Plaza
  tlb : List TlbEntry
  misses : List Miss
  kvCopies : List KvCopy
  retires : List Retire
  mgmt : Mgmt
  dom : Dom
  agenda : List Act
  turn : Nat
  cur : Nat
  fresh : Nat
  nextId : Nat
  prompt : Bool
  deriving DecidableEq, Repr

/-! ## What a map's unlisted entry is -/

/-- R150: the exit link. -/
def exitLink : Word := 0xFFFFFFFFFFFFFFF0#64

/-- R75, R166: a strand as it starts, all registers zero, F set, W clear, lk the exit link.
`trapinfo` and the spawn count: DESIGN CHOICE, log 3. -/
def Strand.init : Strand :=
  { uid := 0, ctx := 0, g := [], v := [], p := [], gF := BitVec.allOnes 64, gW := 0, vF := BitVec.allOnes 32, vW := 0,
    pc := 0, lk := exitLink, ls0 := 0, le0 := 0, lc0 := 0, ls1 := 0, le1 := 0, lc1 := 0, fflags := 0,
    dlValid := false, dlArmed := false, dlRelease := 0, dline := 0, scmiss := 0, trapinfo := 0, unitid := 0,
    launchid := 0, debts := [], startId := 0, member := 0, spawns := 0, wait := none, copies := [], units := [], arrived := [], noticed := [],
    dlPending := false, held := false, releasing := false, due := none }

/-- R75: a scrubbed slot, its F bits and W tags cleared. -/
def Slot.init : Slot := { st := .empty, s := { Strand.init with gF := 0, vF := 0 }, moved := 0 }
def InEntry.init : InEntry := { reserved := false, full := false, taken := false, order := 0, bytes := [] }

/-- R75: a core after scrub. -/
def Core.init : Core :=
  { slots := [], ibuf := [], inbox := [], credits := [], poolWait := [], unitInbox := [], spill := [], chans := [],
    rings := [], prods := [], withhold := [], counted := [], refused := [], trapring := 0, ringstat := 0, passed := [], bankTurn := [], moved := false,
    colour := false, sent := [], recv := [] }

def HBar.init : HBar :=
  { alloc := false, ctx := 0, code := 0, mem := 0, arr := 0, cordon := 0, kept := 0, phase := 0, acc := 0, result := 0,
    who := [], moved := false }
def TCtr.init : TCtr := { count := 0, strands := [], jobs := 0, cordon := 0, rootJobs := 0, moved := false }
def Queue.init : Queue := { jobs := [], next := 0, ended := [], waiting := [], sent := [] }

/-- R75: a hub after scrub, held by no context. -/
def Hub.init : Hub :=
  { owner := none, scrub := false, initDone := false, hb := [], tc := [], mq := Queue.init, cq0 := Queue.init,
    cq1 := Queue.init, redUsed := 0 }

def DistClock.init : DistClock := { count := 0, part := 0, ticks := false }
def TreeRound.init : TreeRound := { parts := [], op := 0, ty := 0, mixed := false }
def Level.init : Level :=
  { state := 0, status := 0, expected := 0, retired := 0, closed := false, bad := false, up := 0 }

/-- A context id that is free (R323). Registers without a reset value read 0: DESIGN CHOICE, log 3. -/
def Ctx.init : Ctx :=
  { st := .none, status := 0, hold := false, regs := [], written := [], tdbase := 0, spflag := 0, spaddr := 0,
    spValid := false, spNow := none, spMine := false, classmap := 0, ratelim := 0, bucket := 0, graphs := [], phases := [], tjobs := [],
    curPhase := [], switchTo := none, saved := none, saving := false, late := false, colour := false, sample := 0,
    quiet := none, declared := false, sent := [], recv := [], cut := [] }

def Launch.init : Launch :=
  { gen := 0, live := false, ctx := 0, words := [], state := 0, status := 0, expected := 0, retired := 0,
    sentUnits := 0, order := 0, dropped := [], ending := none }

/-- R341, R452, R457: the management registers after reset. Tables and CTXSEL: DESIGN CHOICE, log 3. -/
def Mgmt.init : Mgmt :=
  { ready := 0, pwrlim := 3000, pwrstat := 0, late := 150000, ctxsel := 0, errlog := 0, routes := [], policy := [],
    refusedBit := false, seed := none, blocks := [], plainHost := false, enable := 0, proposed := 0,
    ideSecure := false, ideKey := [], clockWindow := 0, window := [], config := [], doeIn := [], doeOut := [], doeBad := false,
    tags := [], tlp := none, completion := none, errNow := none }

def Stream.init : Stream :=
  { gen := 0, next := 0, shadow := [], expect := 0, unacked := 0, since := 0, oldest := 0, escOut := 0, escIn := 0,
    asked := none, allowance := [], waiting := [], gather := [], rgen := 0, egen := 0, regen := 0, lent := [] }
def Port.init : Port :=
  { up := false, next := 0, expect := 0, replay := [], naked := false, tries := 0, unacked := 0, wire := [], out := [], inb := [], far := [],
    onward := [], delay := 0 }

/-- R379, R438: a device standing alone is its own active Plaza. -/
def Dom.init : Dom :=
  { member := 0, state := 0, gen := 0, members := [0], plaza := 0, next := [0], barrier := [], arrived := [],
    leaving := [], secrets := [], joining := none, elected := false, ahead := 0, replays := 0, retrans := 0, heard := [], readyOf := [], beat := 0, aligned := false, near := false, timed := 0,
    streams := [], ports := [], sessions := [], outbox := [] }

/-- R385: 512 chunks of 64 KiB are free. -/
def Plaza.init : Plaza :=
  { groups := [], posts := [], pending := [], partials := [], ended := [], kq := [], heldTickets := [], domSeq := 0,
    locSeq := 0, topDom := 0, bare := false, chunks := 512, asked := [], localWait := [], complete := [], turned := false }

/-- R5, R6, R323, R452: the device as the Interchange leaves reset. Time is zero, no context exists, every slot is empty,
memory lists nothing. What comes next is the start of the root of trust (R453-R455).
The last six fields: DESIGN CHOICE, log 4 and 5. -/
def State.reset : State :=
  { cycle := 0, dtime := 0, skew := 0, clocks := [], mem := [], poison := [], cores := [], hubs := [], corners := [], trees := [], net := [],
    resv := [], served := [], draining := [], portTurn := [], records := [], ctxs := [], launches := [], relTurn := 0, cancels := [], plaza := Plaza.init, tlb := [], misses := [],
    kvCopies := [], retires := [], mgmt := Mgmt.init, dom := Dom.init, agenda := [.event .reset], turn := 0, cur := 0, fresh := 0,
    nextId := 1, prompt := true }

/-- Why the machine stops with a fault. -/
inductive Fault
  /-- Raised by an instruction's meaning when the slot named by `cur` holds no strand that issues. No step raises it:
  only a ready strand, or a parked one at its turn, issues (R13, R326). Safe. -/
  | noStrand
  deriving DecidableEq, Repr

/-- Why an instruction is refused. -/
inductive Refusal
  /-- Raised only by an arm of `exec` whose instruction has no meaning yet. Safe. -/
  | notModelled (mnemonic : String)
  deriving DecidableEq, Repr

end Sys2Proof.Machine
end

