-- ==== Sys2Proof/Machine/Map.lean ====
section
/-! DEFINITION. Operations on finite maps, and the one memory of the device. A map's keys ascend strictly. Memory also
lists no byte that is 0, which is what an unlisted byte reads as (R276: zero when nothing has been written since scrub). -/

namespace Sys2Proof.Machine
open Sys2Proof

/-- The entry of a key, if listed. -/
def mapFind {α : Type} : Map α → Nat → Option α
  | [], _ => none
  | (k, v) :: m, i => if i = k then some v else mapFind m i

/-- The entry of a key, or the default. -/
def mapGet {α : Type} (d : α) (m : Map α) (i : Nat) : α := (mapFind m i).getD d

/-- List an entry, keeping the keys ascending. -/
def mapPut {α : Type} : Map α → Nat → α → Map α
  | [], i, v => [(i, v)]
  | (k, w) :: m, i, v =>
    if i < k then (i, v) :: (k, w) :: m else if i = k then (i, v) :: m else (k, w) :: mapPut m i v

/-- Remove a key. -/
def mapDel {α : Type} : Map α → Nat → Map α
  | [], _ => []
  | (k, w) :: m, i => if i = k then mapDel m i else (k, w) :: mapDel m i

/-- Keys strictly ascending, from a lower bound. -/
def mapSorted {α : Type} : Nat → Map α → Bool
  | _, [] => true
  | lo, (k, _) :: m => lo ≤ k && mapSorted (k + 1) m

/-- What an unlisted byte of memory reads as (R276). Before any scrub: DESIGN CHOICE, log 6. -/
def memDefault : Byte := 0

/-- The canonical form of memory: addresses rising, no entry equal to what an unlisted address reads as. -/
def memWf (m : Map Byte) : Bool := mapSorted 0 m && m.all fun e => e.2 != memDefault
/-- The same, under the name of the memory. -/
abbrev Memory.wf (m : Map Byte) : Bool := memWf m

/-- One byte. -/
def readByte (m : Map Byte) (a : Nat) : Byte := mapGet memDefault m a

/-- Write one byte; writing what an unlisted address reads as removes the entry. -/
def writeByte (m : Map Byte) (a : Nat) (v : Byte) : Map Byte :=
  if v = memDefault then mapDel m a else mapPut m a v

/-- R1: n bytes from `a`, little-endian. -/
def readLe (m : Map Byte) (a : Nat) : Nat → Nat
  | 0 => 0
  | n + 1 => (readByte m a).toNat + 256 * readLe m (a + 1) n

/-- R1: the low n bytes of `v` at `a`, little-endian. -/
def writeLe (m : Map Byte) (a : Nat) : Nat → Nat → Map Byte
  | 0, _ => m
  | n + 1, v => writeLe (writeByte m a (BitVec.ofNat 8 v)) (a + 1) n (v / 256)

/-- The bytes of `v` whose mask bit is set (R203). -/
def writeMasked (m : Map Byte) (a : Nat) (mask : Nat) : Nat → Nat → Map Byte
  | 0, _ => m
  | n + 1, v =>
    writeMasked (if mask % 2 = 1 then writeByte m a (BitVec.ofNat 8 v) else m) (a + 1) (mask / 2) n (v / 256)

/-- A list of bytes from `a` upward. -/
def writeBytes (m : Map Byte) (a : Nat) : List Byte → Map Byte
  | [] => m
  | b :: bs => writeBytes (writeByte m a b) (a + 1) bs

/-- n bytes from `a` upward. -/
def readBytes (m : Map Byte) (a : Nat) : Nat → List Byte
  | 0 => []
  | n + 1 => readByte m a :: readBytes m (a + 1) n

/-- Clear every byte from `lo` up to but not including `hi` (R75). -/
def clearRange (m : Map Byte) (lo hi : Nat) : Map Byte := m.filter fun e => e.1 < lo || hi ≤ e.1

/-- Put one element into a list in order, before the first element it may precede. -/
def insertBy {α : Type} (le : α → α → Bool) (x : α) : List α → List α
  | [] => [x]
  | y :: ys => if le x y then x :: y :: ys else y :: insertBy le x ys

/-- A list in the order of `le`; elements that `le` holds equal keep their order. -/
def sortBy {α : Type} (le : α → α → Bool) : List α → List α
  | [] => []
  | x :: xs => insertBy le x (sortBy le xs)

/-- Apply `f` to the first element that satisfies `p`. -/
def updFirst {α : Type} (p : α → Bool) (f : α → α) : List α → List α
  | [] => []
  | x :: xs => if p x then f x :: xs else x :: updFirst p f xs

/-- Remove the first element that satisfies `p`. -/
def delFirst {α : Type} (p : α → Bool) : List α → List α
  | [] => []
  | x :: xs => if p x then xs else x :: delFirst p xs

/-- The low 8·n bits of a list of bytes, the first byte least significant. -/
def bytesNat : List Byte → Nat
  | [] => 0
  | b :: bs => b.toNat + 256 * bytesNat bs

/-- A number as n bytes, least significant first. -/
def natBytes : Nat → Nat → List Byte
  | 0, _ => []
  | n + 1, v => BitVec.ofNat 8 v :: natBytes n (v / 256)

end Sys2Proof.Machine
end

