-- ==== Sys2Proof/Machine/Flags.lean ====
section
/-! DEFINITION. Number formats, rounding, flags and conversions (R33-R51, R59, R60). Every rounding is one rounding of an
exact value, given as a sign, a natural significand and a power of two. -/

namespace Sys2Proof.Machine
open Sys2Proof

/-! ## Integers (R33, R136, R137) -/

/-- The width in bits of an integer type code, 64 for a code that is none. -/
def intWidth (t : Nat) : Nat :=
  match t with
  | 0 => 8 | 1 => 8 | 2 => 16 | 10 => 16 | 3 => 32 | 11 => 32 | _ => 64

def intSigned (t : Nat) : Bool := t == 1 || t == 2 || t == 3 || t == 4

/-- Value(a[w-1:0], t) of R137. -/
def intValue (t : Nat) (v : Nat) : Int :=
  let w := intWidth t
  let u := v % 2 ^ w
  if intSigned t && 2 ^ (w - 1) ≤ u then (u : Int) - 2 ^ w else u

def intMin (t : Nat) : Int := if intSigned t then -(2 ^ (intWidth t - 1) : Nat) else 0
def intMax (t : Nat) : Int := if intSigned t then (2 ^ (intWidth t - 1) : Nat) - 1 else (2 ^ intWidth t : Nat) - 1

/-- The exact result wrapped, or clamped under `:sat` (R137), as w bits. -/
def intNarrow (t : Nat) (sat : Bool) (e : Int) : Nat :=
  let m : Int := (2 ^ intWidth t : Nat)
  let r := if sat then max (intMin t) (min (intMax t) e) else e
  (r % m).toNat

/-- Extend(res, t) of R137: the w-bit pattern sign- or zero-extended to 64 bits. -/
def intExtend (t : Nat) (u : Nat) : Word := BitVec.ofInt 64 (intValue t u)

/-! ## Floating formats (R34-R40) -/

/-- A floating format: exponent bits, fraction bits, bias, whether it has infinities, and whether it has NaNs. E2M1 has
neither (R34, R36). -/
structure Fmt where
  eb : Nat
  fb : Nat
  bias : Nat
  inf : Bool
  nan : Bool
  deriving DecidableEq, Repr

def fp32 : Fmt := ⟨8, 23, 127, true, true⟩
def bf16 : Fmt := ⟨8, 7, 127, true, true⟩
def fp8 : Fmt := ⟨4, 3, 7, false, true⟩
def e2m1 : Fmt := ⟨2, 1, 1, false, false⟩
def a80 : Fmt := ⟨11, 68, 1023, true, true⟩

/-- The format of a floating type code (R123). -/
def fmtOf (t : Nat) : Fmt :=
  match t with
  | 5 => fp32 | 6 => bf16 | 7 => fp8 | 8 => e2m1 | _ => a80

def isFloat (t : Nat) : Bool := 5 ≤ t && t ≤ 9

/-- The bits of an element of a type code (R123). -/
def elemBits (t : Nat) : Nat :=
  match t with
  | 5 => 32 | 6 => 16 | 7 => 8 | 8 => 4 | 9 => 80 | _ => intWidth t

/-- A floating value: NaN (signalling or not), infinity, or (-1)^s · m · 2^e, where m = 0 is a signed zero. -/
inductive FVal
  | nan (sig : Bool)
  | inf (s : Bool)
  | fin (s : Bool) (m : Nat) (e : Int)
  deriving DecidableEq, Repr

/-- R38: the canonical quiet NaN. E2M1 has none; 0 stands there (R49). -/
def qnan (f : Fmt) : Nat :=
  if !f.nan then 0
  else if f.inf then (2 ^ f.eb - 1) * 2 ^ f.fb + 2 ^ (f.fb - 1)
  else 2 ^ (f.eb + f.fb) - 1

def infBits (f : Fmt) (s : Bool) : Nat := (if s then 2 ^ (f.eb + f.fb) else 0) + (2 ^ f.eb - 1) * 2 ^ f.fb

/-- The largest finite magnitude's bits (R35, R36). -/
def maxBits (f : Fmt) : Nat :=
  if f.inf then (2 ^ f.eb - 1) * 2 ^ f.fb - 1
  else if f.nan then 2 ^ (f.eb + f.fb) - 2 else 2 ^ (f.eb + f.fb) - 1

/-- R34: the value of a bit pattern. -/
def fpValue (f : Fmt) (v : Nat) : FVal :=
  let s := v.testBit (f.eb + f.fb)
  let e := v / 2 ^ f.fb % 2 ^ f.eb
  let m := v % 2 ^ f.fb
  if f.inf && e == 2 ^ f.eb - 1 then
    if m == 0 then .inf s else .nan (!m.testBit (f.fb - 1))
  else if f.nan && !f.inf && e == 2 ^ f.eb - 1 && m == 2 ^ f.fb - 1 then .nan false
  else if e == 0 then .fin s m (1 - (f.bias : Int) - f.fb)
  else .fin s (m + 2 ^ f.fb) ((e : Int) - f.bias - f.fb)

/-! ## Flags (R47, R48) -/

/-- The bits of `fflags` (R47). -/
def flInexact : BitVec 5 := 1
def flUnderflow : BitVec 5 := 2
def flOverflow : BitVec 5 := 4
def flDivzero : BitVec 5 := 8
def flInvalid : BitVec 5 := 16

/-- A result pattern and the flags it raises. -/
structure FRes where
  bits : Nat
  fl : BitVec 5
  deriving DecidableEq, Repr

/-! ## Rounding (R45, R46) -/

inductive Rnd | rne | rtz | rdn | rup
  deriving DecidableEq, Repr

/-- R124. -/
def rndOf (c : Nat) : Rnd :=
  match c with
  | 0 => .rne | 1 => .rtz | 2 => .rdn | _ => .rup

def bitLen (n : Nat) : Nat := if n = 0 then 0 else Nat.log2 n + 1

/-- Whether the magnitude is rounded up, given whether the kept part is odd and how the lost part compares with half:
0 nothing lost, 1 below half, 2 half, 3 above half. -/
def roundUp (r : Rnd) (s odd : Bool) (lost : Nat) : Bool :=
  match r with
  | .rne => lost == 3 || (lost == 2 && odd)
  | .rtz => false
  | .rdn => s && lost != 0
  | .rup => !s && lost != 0

/-- The magnitude m · 2^e rounded to a multiple of 2^q: the multiple, and whether it is inexact. -/
def roundTo (r : Rnd) (s : Bool) (m : Nat) (e q : Int) : Nat × Bool :=
  if q ≤ e then (m * 2 ^ (e - q).toNat, false)
  else
    let k := (q - e).toNat
    let n := m / 2 ^ k
    let rem := m % 2 ^ k
    let lost := if rem = 0 then 0 else if 2 * rem < 2 ^ k then 1 else if 2 * rem = 2 ^ k then 2 else 3
    (if roundUp r s (n % 2 == 1) lost then n + 1 else n, lost != 0)

/-- n · 2^q as bits of the format, q being the quantum n was rounded to. -/
def encodeFin (f : Fmt) (s : Bool) (n : Nat) (q : Int) : Nat :=
  let sb := if s then 2 ^ (f.eb + f.fb) else 0
  let l := bitLen n
  if l ≤ f.fb then sb + n
  else
    let m := n / 2 ^ (l - 1 - f.fb)
    let e := q + (l - 1 - f.fb : Nat) + f.bias + f.fb
    sb + e.toNat * 2 ^ f.fb + (m - 2 ^ f.fb)

/-- R46: the result of an overflow. -/
def overflowBits (f : Fmt) (r : Rnd) (sat s : Bool) : Nat :=
  let sb := if s then 2 ^ (f.eb + f.fb) else 0
  let big := if f.inf then infBits f s else if f.nan then qnan f else sb + maxBits f
  let top := sb + maxBits f
  if !f.inf && (sat || !f.nan) then top
  else match r with
    | .rne => big
    | .rtz => top
    | .rdn => if s then big else top
    | .rup => if s then top else big

/-- R45, R46, R48: one rounding of (-1)^s · m · 2^e to the format. -/
def roundFin (f : Fmt) (r : Rnd) (sat s : Bool) (m : Nat) (e : Int) : FRes :=
  if m = 0 then ⟨if s then 2 ^ (f.eb + f.fb) else 0, 0⟩
  else
    let top : Int := e + bitLen m - 1
    let emin : Int := 1 - (f.bias : Int)
    let qu : Int := top - f.fb
    let q : Int := max qu (emin - f.fb)
    let (nu, _) := roundTo r s m e qu
    let (n, ix) := roundTo r s m e q
    let maxN := match fpValue f (maxBits f) with | .fin _ mm ee => (mm, ee) | _ => (0, 0)
    let tiny := nu != 0 && (bitLen nu : Int) + qu - 1 < emin
    let ovf : Bool :=
      if maxN.2 ≤ q then maxN.1 < n * 2 ^ (q - maxN.2).toNat
      else maxN.1 * 2 ^ (maxN.2 - q).toNat < n
    if ovf then ⟨overflowBits f r sat s, flOverflow ||| flInexact⟩
    else ⟨encodeFin f s n q, (if ix then flInexact else 0) ||| (if tiny && ix then flUnderflow else 0)⟩

/-- R38, R48: a NaN result, with invalid if `bad`. -/
def nanRes (f : Fmt) (bad : Bool) : FRes := ⟨qnan f, if bad then flInvalid else 0⟩

/-! ## Exact arithmetic on values -/

def sigOf : FVal → Bool
  | .nan s => s
  | _ => false

def isNan : FVal → Bool
  | .nan _ => true
  | _ => false

/-- The signed significand at exponent q, for q at or below the value's own exponent. -/
def atExp (s : Bool) (m : Nat) (e q : Int) : Int :=
  let n : Int := (m * 2 ^ (e - q).toNat : Nat)
  if s then -n else n

/-- The sum of two finite values, exactly: sign, magnitude, exponent. The sign of an exact zero of unlike operands is
that of R180: + but under RDN. -/
def addFin (r : Rnd) (sa : Bool) (ma : Nat) (ea : Int) (sb : Bool) (mb : Nat) (eb : Int) : Bool × Nat × Int :=
  let q := min ea eb
  let t := atExp sa ma ea q + atExp sb mb eb q
  if t = 0 then
    (if ma = 0 && mb = 0 && sa == sb then sa else r == .rdn, 0, q)
  else (t < 0, t.natAbs, q)

/-- R180: a + b rounded once, with the special values and zero signs of IEEE 754. -/
def fpAdd (f : Fmt) (r : Rnd) (a b : FVal) : FRes :=
  match a, b with
  | .nan x, y => nanRes f (x || sigOf y)
  | _, .nan y => nanRes f y
  | .inf s, .inf t => if s == t then ⟨infBits f s, 0⟩ else nanRes f true
  | .inf s, _ => ⟨infBits f s, 0⟩
  | _, .inf t => ⟨infBits f t, 0⟩
  | .fin sa ma ea, .fin sb mb eb =>
    let (s, m, e) := addFin r sa ma ea sb mb eb
    roundFin f r false s m e

def negVal : FVal → FVal
  | .nan s => .nan s
  | .inf s => .inf (!s)
  | .fin s m e => .fin (!s) m e

def fpSub (f : Fmt) (r : Rnd) (a b : FVal) : FRes := fpAdd f r a (negVal b)

def isZero : FVal → Bool
  | .fin _ 0 _ => true
  | _ => false

def signOf : FVal → Bool
  | .nan _ => false
  | .inf s => s
  | .fin s _ _ => s

def fpMul (f : Fmt) (r : Rnd) (a b : FVal) : FRes :=
  match a, b with
  | .nan x, y => nanRes f (x || sigOf y)
  | _, .nan y => nanRes f y
  | .fin sa ma ea, .fin sb mb eb => roundFin f r false (sa != sb) (ma * mb) (ea + eb)
  | x, y => if isZero x || isZero y then nanRes f true else ⟨infBits f (signOf x != signOf y), 0⟩

/-- R180: a · b + d, the product never rounded. -/
def fpFma (f : Fmt) (r : Rnd) (a b d : FVal) : FRes :=
  if isNan a || isNan b || isNan d then
    nanRes f (sigOf a || sigOf b || sigOf d ||
      (match a, b with
        | .inf _, .fin _ 0 _ => true
        | .fin _ 0 _, .inf _ => true
        | _, _ => false))
  else match a, b with
    | .fin sa ma ea, .fin sb mb eb =>
      match d with
      | .inf s => ⟨infBits f s, 0⟩
      | .fin sd md ed =>
        let (s, m, e) := addFin r (sa != sb) (ma * mb) (ea + eb) sd md ed
        roundFin f r false s m e
      | .nan _ => nanRes f false
    | x, y =>
      if isZero x || isZero y then nanRes f true
      else
        let s := signOf x != signOf y
        match d with
        | .inf t => if s == t then ⟨infBits f s, 0⟩ else nanRes f true
        | _ => ⟨infBits f s, 0⟩

/-- a < b for values that are not NaN; -0 and +0 are equal. -/
def fpLt : FVal → FVal → Bool
  | .inf s, .inf t => s && !t
  | .inf s, .fin _ _ _ => s
  | .fin _ _ _, .inf t => !t
  | .fin sa ma ea, .fin sb mb eb =>
    let q := min ea eb
    atExp sa ma ea q < atExp sb mb eb q
  | _, _ => false

def fpEq (a b : FVal) : Bool := !isNan a && !isNan b && !fpLt a b && !fpLt b a

/-- R59, R181: minimumNumber (or maximumNumber) of two patterns, -0 below +0. The chosen operand keeps its bits. -/
def fpMinMax (f : Fmt) (isMax : Bool) (x y : Nat) : FRes :=
  let a := fpValue f x
  let b := fpValue f y
  let fl := if sigOf a || sigOf b then flInvalid else 0
  if isNan a && isNan b then ⟨qnan f, fl⟩
  else if isNan a then ⟨y, fl⟩
  else if isNan b then ⟨x, fl⟩
  else
    let below := fpLt a b || (isZero a && isZero b && signOf a && !signOf b)
    ⟨if below == isMax then y else x, fl⟩

/-- R183: a comparison of two patterns: 0 eq, 1 ne, 2 lt, 3 le, 4 gt, 5 ge; whether it holds, and its flags. -/
def fpCompare (f : Fmt) (c : Cond) (x y : Nat) : Bool × BitVec 5 :=
  let a := fpValue f x
  let b := fpValue f y
  let anyNan := isNan a || isNan b
  let sig := sigOf a || sigOf b
  let quiet := if sig then flInvalid else 0
  let loud := if anyNan then flInvalid else 0
  match c with
  | .eq => (fpEq a b, quiet)
  | .ne => (!fpEq a b, quiet)
  | .lt => (!anyNan && fpLt a b, loud)
  | .le => (!anyNan && !fpLt b a, loud)
  | .gt => (!anyNan && fpLt b a, loud)
  | .ge => (!anyNan && !fpLt a b, loud)

/-! ## Conversions (R49-R51, R190, R191) -/

/-- R49, R191: floating to floating. `same` says that source and target are one format. -/
def fpToFp (src dst : Fmt) (r : Rnd) (sat : Bool) (x : Nat) : FRes :=
  if src = dst then
    match fpValue src x with
    | .nan s => nanRes dst s
    | _ => ⟨x, 0⟩
  else match fpValue src x with
    | .nan s => ⟨qnan dst, if s || dst = fp8 || dst = e2m1 then flInvalid else 0⟩
    | .inf s => if dst.inf then ⟨infBits dst s, 0⟩ else ⟨qnan dst, flInvalid⟩
    | .fin s m e => roundFin dst r sat s m e

/-- R50: floating to integer, saturating and setting invalid outside the type; a NaN gives 0. A finite value outside the
type also sets inexact, by R48's last condition: the delivered value differs from the exact one. R50 names invalid alone
there, so which flags such a lane raises is read from the two rules together (DEDUCED, unsafe; log 16). -/
def fpToInt (src : Fmt) (t : Nat) (r : Rnd) (x : Nat) : FRes :=
  match fpValue src x with
  | .nan _ => ⟨0, flInvalid⟩
  | .inf s => ⟨intNarrow t false (if s then intMin t else intMax t), flInvalid⟩
  | .fin s m e =>
    let (n, ix) := roundTo r s m e 0
    let v : Int := if s then -(n : Int) else n
    if v < intMin t then ⟨intNarrow t false (intMin t), flInvalid ||| flInexact⟩
    else if intMax t < v then ⟨intNarrow t false (intMax t), flInvalid ||| flInexact⟩
    else ⟨intNarrow t false v, if ix then flInexact else 0⟩

/-- R50: integer to floating. -/
def intToFp (t : Nat) (dst : Fmt) (r : Rnd) (sat : Bool) (x : Nat) : FRes :=
  let v := intValue t x
  roundFin dst r sat (v < 0) v.natAbs 0

/-- R190, R191: Convert of one element from type code `s` to type code `t`. -/
def convert (s t : Nat) (r : Rnd) (sat : Bool) (x : Nat) : FRes :=
  if isFloat s then
    if isFloat t then fpToFp (fmtOf s) (fmtOf t) r sat x else fpToInt (fmtOf s) t r x
  else if isFloat t then intToFp s (fmtOf t) r sat x
  else ⟨intNarrow t false (intValue s x), 0⟩

end Sys2Proof.Machine
end

