-- ==== Sys2Proof/Machine/Special.lean ====
section
/-! DEFINITION. The function forms (R186, R193-R197): exact values rounded once. A transcendental value is enclosed by
fixed-point integers far wider than any format, its last bit saying that more follows; every series has a fixed number of
terms. -/

namespace Sys2Proof.Machine
open Sys2Proof

/-- 2^p · atanh(1/k), by n terms of its series. -/
def atanhInv (p k : Nat) : Nat → Nat
  | 0 => 0
  | i + 1 => 2 ^ p / ((2 * i + 1) * k ^ (2 * i + 1)) + atanhInv p k i

/-- 2^p · ln 2. -/
def ln2Fix (p : Nat) : Nat := 2 * atanhInv p 3 (p / 3 + 2)

/-- The series of e^y from term `t` (index i) on, y in fixed point p. -/
def expSeries (p y : Nat) : Nat → Nat → Nat → Nat
  | 0, _, _ => 0
  | fuel + 1, i, t => t + expSeries p y fuel (i + 1) (t * y / 2 ^ p / (i + 1))

/-- 2^p · 2^f for f in fixed point p below 1. -/
def exp2Fix (p f : Nat) : Nat := expSeries p (f * ln2Fix p / 2 ^ p) 110 0 (2 ^ p)

/-- The series of atanh z, z in fixed point p: the term index and the odd power so far. -/
def atanhSeries (p z2 : Nat) : Nat → Nat → Nat → Nat
  | 0, _, _ => 0
  | fuel + 1, i, w => w / (2 * i + 1) + atanhSeries p z2 fuel (i + 1) (w * z2 / 2 ^ p)

/-- The magnitude m · 2^-p of an irrational value, cut to p - d bits with a last bit that says more follows, rounded. -/
def roundIrr (f : Fmt) (s : Bool) (m p d : Nat) (k : Int) : FRes :=
  roundFin f .rne false s (m / 2 ^ d * 2 + 1) (k - (p - d : Nat) - 1)

/-- R193: 2^x. -/
def fpExp2 (f : Fmt) (x : FVal) : FRes :=
  match x with
  | .nan s => nanRes f s
  | .inf s => if s then ⟨0, 0⟩ else ⟨infBits f false, 0⟩
  | .fin s m e =>
    if 0 ≤ e + bitLen m - 12 then roundFin f .rne false false 1 (if s then -5000 else 5000)
    else
      let p := 320
      let v := atExp s m e (min e 0)
      let q := (-(min e 0)).toNat
      let k := v / (2 ^ q : Nat)
      let fr := (v % (2 ^ q : Nat)).toNat
      if fr = 0 then roundFin f .rne false false 1 k
      else roundIrr f false (exp2Fix p (fr * 2 ^ p / 2 ^ q)) p 40 k

/-- R193: log2 x. -/
def fpLog2 (f : Fmt) (x : FVal) : FRes :=
  match x with
  | .nan s => nanRes f s
  | .inf s => if s then nanRes f true else ⟨infBits f false, 0⟩
  | .fin s m e =>
    if m = 0 then ⟨infBits f true, flDivzero⟩
    else if s then nanRes f true
    else
      let l := bitLen m
      let h := 2 ^ (l - 1)
      let ex : Int := e + l - 1
      if m = h then roundFin f .rne false (ex < 0) ex.natAbs 0
      else
        let p := 320
        let z := (m - h) * 2 ^ p / (m + h)
        let lg := 2 * atanhSeries p (z * z / 2 ^ p) 110 0 z * 2 ^ p / ln2Fix p
        let v : Int := ex * (2 ^ p : Nat) + lg
        roundIrr f (v < 0) v.natAbs p 40 0

/-- R193: 1/x. -/
def fpRcp (f : Fmt) (x : FVal) : FRes :=
  match x with
  | .nan s => nanRes f s
  | .inf s => ⟨if s then 2 ^ (f.eb + f.fb) else 0, 0⟩
  | .fin s m e =>
    if m = 0 then ⟨infBits f s, flDivzero⟩
    else
      let k := bitLen m + 80
      let q := 2 ^ k / m
      if 2 ^ k % m = 0 then roundFin f .rne false s q (-(k : Int) - e)
      else roundFin f .rne false s (2 * q + 1) (-(k : Int) - 1 - e)

/-- The integer square root of n, from bit i - 1 down. -/
def isqrt (n : Nat) : Nat → Nat → Nat
  | 0, acc => acc
  | i + 1, acc => isqrt n i (if (acc + 2 ^ i) * (acc + 2 ^ i) ≤ n then acc + 2 ^ i else acc)

/-- R193: 1/√x. -/
def fpRsq (f : Fmt) (x : FVal) : FRes :=
  match x with
  | .nan s => nanRes f s
  | .inf s => if s then nanRes f true else ⟨0, 0⟩
  | .fin s m e =>
    if m = 0 then ⟨infBits f s, flDivzero⟩
    else if s then nanRes f true
    else
      let (m, e) := if e % 2 = 0 then (m, e) else (2 * m, e - 1)
      let k := bitLen m + 80
      let r := isqrt (2 ^ (2 * k) / m) (k + 1) 0
      if r * r * m = 2 ^ (2 * k) then roundFin f .rne false false r (-(k : Int) - e / 2)
      else roundFin f .rne false false (2 * r + 1) (-(k : Int) - 1 - e / 2)

/-- R193: tanh x. -/
def fpTanh (f : Fmt) (x : FVal) : FRes :=
  match x with
  | .nan s => nanRes f s
  | .inf s => roundFin f .rne false s 1 0
  | .fin s m e =>
    if m = 0 then ⟨if s then 2 ^ (f.eb + f.fb) else 0, 0⟩
    else
      let top : Int := e + bitLen m - 1
      if top < -60 then roundFin f .rne false s (m * 2 ^ 200 - 1) (e - 200)
      else if 6 ≤ top then roundFin f .rne false s (2 ^ 200 - 1) (-200)
      else
        let p : Nat := 400
        let x2 := m * 2 ^ ((p : Int) + e + 1).toNat
        let w := x2 * 2 ^ p / ln2Fix p
        let u := 2 ^ (2 * p) / exp2Fix p (w % 2 ^ p) / 2 ^ (w / 2 ^ p)
        roundIrr f s ((2 ^ p - u) * 2 ^ p / (2 ^ p + u)) p 60 0

/-- floor(log2 |x|) of a finite non-zero value. -/
def expOf (m : Nat) (e : Int) : Int := e + bitLen m - 1

/-- R195: Exp(x), as a lane of `w` bits. -/
def fpExpLane (f : Fmt) (w : Nat) (x : Nat) : Int :=
  match fpValue f x with
  | .fin _ m e => if m = 0 then -(2 ^ (w - 1) : Nat) else expOf m e
  | _ => (2 ^ (w - 1) : Nat) - 1

/-- The pattern of 1.0: the patterns below it are those of the values in [0, 1). -/
def oneBits (f : Fmt) : Nat := (roundFin f .rne false false 1 0).bits

/-- R194: the integer part of a split, and the fraction if the format can hold it. The fraction of -0 is +0: the spec states
no sign for it (DESIGN CHOICE, log 16). -/
def fpSplit (f : Fmt) (w : Nat) (x : Nat) : Option Nat × Int × BitVec 5 :=
  let lo : Int := -(2 ^ (w - 1) : Nat)
  let hi : Int := (2 ^ (w - 1) : Nat) - 1
  match fpValue f x with
  | .nan s => (some (qnan f), 0, if s then flInvalid else 0)
  | .inf s => (some 0, if s then lo else hi, 0)
  | .fin s m e =>
    if 0 < e + bitLen m - (w + 1 : Nat) then (some 0, if s then lo else hi, 0)
    else
      let q := min e 0
      let v := atExp s m e q
      let d : Int := (2 ^ (-q).toNat : Nat)
      let k := v / d
      if k < lo then (some 0, lo, 0)
      else if hi < k then (some 0, hi, 0)
      else
        let r := roundFin f .rne false false (v % d).toNat q
        (if r.fl = 0 then some r.bits else none, k, 0)

/-- R196: a · 2^k rounded once. A shift beyond any format's reach is cut to one that gives the same result. -/
def fpLdexp (f : Fmt) (r : Rnd) (x : Nat) (k : Int) : FRes :=
  match fpValue f x with
  | .nan s => nanRes f s
  | .inf s => ⟨infBits f s, 0⟩
  | .fin s m e => roundFin f r false s m (e + max (-3000) (min 3000 k))

/-- R186: the exact sum of finite values at exponent q. -/
def sumAt (q : Int) : List FVal → Int
  | [] => 0
  | .fin s m e :: xs => atExp s m e q + sumAt q xs
  | _ :: xs => sumAt q xs

def lowExp : List FVal → Int
  | [] => 0
  | .fin _ _ e :: xs => min e (lowExp xs)
  | _ :: xs => lowExp xs

/-- R186: every lane summed exactly and rounded once, with the special results and zero sign of an addition. Lanes that hold
a quiet NaN and infinities of both signs raise invalid: whether the infinities meet depends on an order of the additions
that the spec does not give (DESIGN CHOICE, log 16). -/
def fpSum (f : Fmt) (r : Rnd) (xs : List FVal) : FRes :=
  let pos := xs.any fun x => x == .inf false
  let ninf := xs.any fun x => x == .inf true
  if xs.any isNan then nanRes f (xs.any sigOf || (pos && ninf))
  else if pos && ninf then nanRes f true
  else if pos then ⟨infBits f false, 0⟩
  else if ninf then ⟨infBits f true, 0⟩
  else
    let q := lowExp xs
    let t := sumAt q xs
    if t = 0 then
      let s := if xs.all (fun x => isZero x && signOf x) then true
        else if xs.all (fun x => isZero x && !signOf x) then false else r == .rdn
      roundFin f r false s 0 q
    else roundFin f r false (t < 0) t.natAbs q

end Sys2Proof.Machine
end

