-- ==== Sys2Proof/Machine/Matrix.lean ====
section
/-! DEFINITION. Matrix groups and their promotion (R52-R58), and the L320 lane of reductions (R41-R44). -/

namespace Sys2Proof.Machine
open Sys2Proof

/-! ## Groups -/

/-- R52: a product of two values, exactly; one operand zero and the other finite gives +0. -/
def groupProduct (a b : FVal) : FVal :=
  match a, b with
  | .nan _, _ => .nan false
  | _, .nan _ => .nan false
  | .fin sa ma ea, .fin sb mb eb =>
    if ma = 0 || mb = 0 then .fin false 0 0 else .fin (sa != sb) (ma * mb) (ea + eb)
  | x, y => if isZero x || isZero y then .nan false else .inf (signOf x != signOf y)

/-- R52: the special result of a group, if it has one. -/
def groupSpecial (ps : List FVal) : Option FVal :=
  let pos := ps.any fun x => x == .inf false
  let ninf := ps.any fun x => x == .inf true
  if ps.any isNan || (pos && ninf) then some (.nan false)
  else if pos then some (.inf false) else if ninf then some (.inf true) else none

/-- An exact value t · 2^q as a signed value; zero is +0 (R56). -/
def ofExact (t : Int) (q : Int) : FVal := .fin (t < 0) t.natAbs q

/-- The largest floor(log2) among non-zero values. -/
def topExp : List FVal → Option Int
  | [] => none
  | .fin _ m e :: xs =>
    match topExp xs with
    | none => if m = 0 then none else some (expOf m e)
    | some t => if m = 0 then some t else some (max t (expOf m e))
  | _ :: xs => topExp xs

/-- A magnitude truncated toward zero to a multiple of 2^q (R54, R55). -/
def truncTo (q : Int) : FVal → FVal
  | .fin s m e => .fin s (roundTo .rtz s m e q).1 q
  | x => x

/-- R54, R55: the sum of values truncated at 64 bits below the largest. -/
def truncSum (xs : List FVal) : FVal :=
  match topExp xs with
  | none => .fin false 0 0
  | some t => ofExact (sumAt (t - 64) (xs.map (truncTo (t - 64)))) (t - 64)

/-- The exact sum of finite values. -/
def exactSum (xs : List FVal) : FVal := ofExact (sumAt (lowExp xs) xs) (lowExp xs)

/-- A value times another by the IEEE rules, exactly (R53 scales). -/
def scaleVal (a b : FVal) : FVal :=
  match a, b with
  | .fin sa ma ea, .fin sb mb eb => .fin (sa != sb) (ma * mb) (ea + eb)
  | a, b => groupProduct a b

/-- R36: an E8M0 scale. -/
def e8m0 (v : Nat) : FVal := if v = 0xFF then .nan false else .fin false 1 ((v : Int) - 127)

/-- R57: one group's contribution `s`, where its products have no special result, promoted into accumulator `c` (A80
bits): a `c` that is NaN or infinite stays as it is, whatever its scales make of `s`; a finite `c` takes `s` by one IEEE
addition (R53: a scale that is NaN or infinite takes part by the IEEE rules). DEDUCED, log 85. -/
def promoteFin (c : Nat) (s : FVal) : Nat :=
  let s := if isZero s then .fin false 0 0 else s
  match fpValue a80 c, s with
  | .nan _, _ => c
  | .inf _, _ => c
  | x, s => (fpAdd a80 .rne x s).bits

/-- R57: a group promoted into an accumulator. -/
def promote (c : Nat) (special : Option FVal) (s : FVal) : Nat :=
  match special with
  | some (.inf t) =>
    match fpValue a80 c with
    | .nan _ => qnan a80
    | .inf u => if u == t then infBits a80 t else qnan a80
    | .fin _ _ _ => infBits a80 t
  | some _ => qnan a80
  | none => promoteFin c s

/-- R53: an FP8 group: products, and the product of its two scales. -/
def promoteFp8 (c : Nat) (ps : List FVal) (act wt : FVal) : Nat :=
  promote c (groupSpecial ps) (scaleVal (exactSum ps) (scaleVal act wt))

/-- R55: a BF16 group. -/
def promoteBf16 (c : Nat) (ps : List FVal) : Nat := promote c (groupSpecial ps) (truncSum ps)

/-- R54: an MXFP4 group: its blocks' products, each with the two scales of its block. A NaN scale makes its block's products NaN (R37),
so that the group is special before c is looked at, an infinite or NaN c included: DEDUCED, log 85. -/
def promoteFp4 (c : Nat) (blocks : List (List FVal × FVal × FVal)) : Nat :=
  let sums := blocks.map fun (ps, sa, sb) =>
    if isNan sa || isNan sb then .nan false else scaleVal (exactSum ps) (scaleVal sa sb)
  promote c (groupSpecial sums) (truncSum sums)

/-! ## L320 -/

def laneZero : Lane := { n := 0, nan := false, pinf := false, ninf := false }

/-- R42: a floating value enters a lane. -/
def laneOf (x : FVal) : Lane :=
  match x with
  | .nan _ => { laneZero with nan := true }
  | .inf s => if s then { laneZero with ninf := true } else { laneZero with pinf := true }
  | .fin s m e => { laneZero with n := atExp s m e (-149) }

/-- R42: two lanes combine. -/
def laneAdd (a b : Lane) : Lane :=
  { n := a.n + b.n, nan := a.nan || b.nan, pinf := a.pinf || b.pinf, ninf := a.ninf || b.ninf }

/-- R43: a lane read out. -/
def laneOut (f : Fmt) (l : Lane) : Nat :=
  if l.nan || (l.pinf && l.ninf) then qnan f
  else if l.pinf then infBits f false
  else if l.ninf then infBits f true
  else if l.n = 0 then 0
  else (roundFin f .rne false (l.n < 0) l.n.natAbs (-149)).bits

/-- R42, R44: an element of a type code enters a lane. -/
def laneIn (t : Nat) (v : Nat) : Lane :=
  if isFloat t then laneOf (fpValue (fmtOf t) v) else { laneZero with n := intValue t v }

/-- R43, R44: a lane read out as an element of a type code. -/
def laneElem (t : Nat) (l : Lane) : Nat :=
  if isFloat t then laneOut (fmtOf t) l else intNarrow t false l.n

end Sys2Proof.Machine
end

