-- ==== Sys2Proof/Machine/Operands.lean ====
section
/-! DEFINITION. Registers, operand forms and control flow of one strand (R89, R118-R130, R137, R154, R199). -/

namespace Sys2Proof.Machine
open Sys2Proof

/-- List a value under a key, or remove the key where the value is the map's default. -/
def mapSet {α : Type} [DecidableEq α] (d : α) (m : Map α) (i : Nat) (v : α) : Map α :=
  if v = d then mapDel m i else mapPut m i v

/-! ## Bits -/

def setBit {w : Nat} (b : BitVec w) (i : Nat) (v : Bool) : BitVec w :=
  if v then b ||| BitVec.ofNat w (2 ^ i) else b &&& ~~~ BitVec.ofNat w (2 ^ i)

/-! ## Registers -/

/-- g0 reads as zero (R89). -/
def readG (t : Strand) (n : Nat) : Word := if n = 0 then 0 else mapGet 0 t.g n
def readV (t : Strand) (n : Nat) : Vec := mapGet 0 t.v n
/-- p0 reads as all ones (R89). -/
def readP (t : Strand) (n : Nat) : BitVec 16 := if n = 0 then 0xFFFF else mapGet 0 t.p n

/-- A written register gets F := 1 and W := 0 (R126); a write to g0 is discarded (R137). -/
def writeG (t : Strand) (n : Nat) (v : Word) : Strand :=
  if n = 0 then t
  else { t with g := mapSet 0 t.g n v, gF := setBit t.gF n true, gW := setBit t.gW n false }
def writeV (t : Strand) (n : Nat) (v : Vec) : Strand :=
  { t with v := mapSet 0 t.v n v, vF := setBit t.vF n true, vW := setBit t.vW n false }
/-- A write to p0 is discarded (R146). -/
def writeP (t : Strand) (n : Nat) (v : BitVec 16) : Strand :=
  if n = 0 then t else { t with p := mapSet 0 t.p n v }

def writeReg (t : Strand) (r : RegRef) (v : Vec) : Strand :=
  match r with
  | .g n => writeG t n (v.setWidth 64)
  | .v n => writeV t n v

/-- The F bit of a register; g0 is always full. -/
def fullOf (t : Strand) (r : RegRef) : Bool :=
  match r with
  | .g n => n == 0 || t.gF.getLsbD n
  | .v n => t.vF.getLsbD n
def setFull (t : Strand) (r : RegRef) (b : Bool) : Strand :=
  match r with
  | .g n => if n = 0 then t else { t with gF := setBit t.gF n b }
  | .v n => { t with vF := setBit t.vF n b }
/-- The stored W tag of a register. -/
def tagOf (t : Strand) (r : RegRef) : Bool :=
  match r with
  | .g n => t.gW.getLsbD n
  | .v n => t.vW.getLsbD n
def setTag (t : Strand) (r : RegRef) (b : Bool) : Strand :=
  match r with
  | .g n => if n = 0 then t else { t with gW := setBit t.gW n b }
  | .v n => { t with vW := setBit t.vW n b }

/-- Whether a copy into the register is outstanding (R248). -/
def copying (t : Strand) (r : RegRef) : Bool := t.copies.any fun c => c.reg == r

def raise (t : Strand) (fl : BitVec 5) : Strand := { t with fflags := t.fflags ||| fl }

/-! ## Operands -/

/-- R118: the value of a field that is a g, v or p register, or an immediate. -/
def opdValue (t : Strand) : Opd → Vec
  | .reg r =>
    match r.cls with
    | .g => (readG t r.idx.toNat).setWidth 128
    | .v => readV t r.idx.toNat
    | .p => (readP t r.idx.toNat).setWidth 128
    | .s => 0
  | .imm i => ((i.signExtend 64 : Word)).setWidth 128
  | _ => 0

/-- R120: the 64-bit value of a wide operand, both parts sign-extended. -/
def wideValue (lo : BitVec 24) (hi : BitVec 26) : Word :=
  ((hi.signExtend 64 : Word) <<< 24) + lo.signExtend 64

/-- The register of a field that is read with sync (R126). -/
def syncOf : Opd → List RegRef
  | .reg r =>
    if r.sync then (match r.cls with | .g => [.g r.idx.toNat] | .v => [.v r.idx.toNat] | _ => []) else []
  | _ => []

/-- The set of registers an instruction reads with sync. -/
def syncRegs (x : Args) : List RegRef := (syncOf x.d ++ syncOf x.a ++ syncOf x.b).eraseDups

/-- Operand values as they are read, in one step (R126). `four` says that field a names four registers (R127), whose
64 bytes are the command, the lowest register lowest. -/
def readOpnds (t : Strand) (x : Args) (four : Bool) : Opnds :=
  let n := idxOf x.a
  { d := opdValue t x.d
    a := if four then
        (readV t (n + 3) ++ readV t (n + 2) ++ readV t (n + 1) ++ readV t n).setWidth 512
      else match x.a, x.b with
        | .wide lo, .hi h => (wideValue lo h).setWidth 512
        | o, _ => (opdValue t o).setWidth 512
    b := opdValue t x.b }

/-- Operand values as 64-bit words. -/
def Opnds.dw (o : Opnds) : Word := o.d.setWidth 64
def Opnds.aw (o : Opnds) : Word := o.a.setWidth 64
def Opnds.av (o : Opnds) : Vec := o.a.setWidth 128
def Opnds.bw (o : Opnds) : Word := o.b.setWidth 64

/-- R129: bit 0 of the predicate XOR invert. -/
def guardOn (t : Strand) (x : Args) : Bool := (readP t x.pred.toNat).getLsbD 0 != x.inv
/-- R129: the lane mask. -/
def laneMask (t : Strand) (x : Args) : BitVec 16 :=
  readP t x.pred.toNat ^^^ (if x.inv then 0xFFFF else 0)

/-- R129: the forms whose guard is a lane mask. -/
def laneMasked (op : Nat) : Bool := (0x100 ≤ op && op < 0x200 && op != 0x1C4) || op == 0x202 || op == 0x203

/-- R130: the hint is `:sat`. -/
def satOf (x : Args) : Bool := x.hint == 1

/-- R127: the forms whose field a is the first of four v registers. -/
def fourOf (op : Nat) : Bool := op == 0x302 || op == 0x304 || op == 0x30E || op == 0x385

/-- R199: the effective address; `size` is what scale code 1 selects. -/
def effAddr (o : Opnds) (x : Args) (size : Nat) : Word :=
  match x.b with
  | .reg r => o.aw + o.bw * (if r.code == 1 then BitVec.ofNat 64 size else 1)
  | _ => o.aw + o.bw

/-! ## Control flow -/

/-- R154: one loop set's part of the end check: the count left, and the start if the set loops back. -/
def loopEnd (pc le lc ls : Word) : Word × Option Word :=
  if lc != 0 && pc == le then (lc - 1, if lc - 1 != 0 then some ls else none) else (lc, none)

/-- R154: the end check: the inner set first; the outer counts only if the inner does not loop back. -/
def endCheck (t : Strand) : Strand :=
  let (lc1, j1) := loopEnd t.pc t.le1 t.lc1 t.ls1
  match j1 with
  | some d => { t with lc1 := lc1, pc := d }
  | none =>
    let (lc0, j0) := loopEnd t.pc t.le0 t.lc0 t.ls0
    { t with lc1 := lc1, lc0 := lc0, pc := j0.getD (t.pc + 16) }

/-- The wait record is stale once the strand issues (R464). -/
def endWait (t : Strand) : Strand := { t with wait := none }

/-- R158: disarm the deadline; `dline` keeps its value. -/
def disarm (t : Strand) : Strand := { t with dlArmed := false }

end Sys2Proof.Machine
end

