-- ==== Sys2Proof/Machine/Ops.lean ====
section
/-! DEFINITION. Named operations over the device: where strands stand, address spaces and translation (R62-R72,
R402-R417), packets (R275-R293), and the one operation that takes a trap (R309-R312, R324, R325, R330, R331) with the
release of a root beside it (R163, R318). -/

namespace Sys2Proof.Machine
open Sys2Proof

/-! ## Coordinates (R8, R9, R31) -/

def coreOf (sid : Nat) : Nat := sid / 16
def slotOf (sid : Nat) : Nat := sid % 16
def blkOf (sid : Nat) : Nat := sid / 128
def distOf (sid : Nat) : Nat := sid / 8192
def blkOfCore (c : Nat) : Nat := c / 8
def distOfBlk (b : Nat) : Nat := b / 64

/-! ## Access to the parts of the state -/

def getCore (s : State) (c : Nat) : Core := mapGet Core.init s.cores c
def setCore (s : State) (c : Nat) (x : Core) : State := { s with cores := mapPut s.cores c x }
def updCore (s : State) (c : Nat) (f : Core → Core) : State := setCore s c (f (getCore s c))
def slotIn (c : Core) (n : Nat) : Slot := mapGet Slot.init c.slots n
def getSlot (s : State) (sid : Nat) : Slot := slotIn (getCore s (coreOf sid)) (slotOf sid)
def setSlot (s : State) (sid : Nat) (x : Slot) : State :=
  updCore s (coreOf sid) fun c => { c with slots := mapPut c.slots (slotOf sid) x }
def updSlot (s : State) (sid : Nat) (f : Slot → Slot) : State := setSlot s sid (f (getSlot s sid))
def strandAt (s : State) (sid : Nat) : Strand := (getSlot s sid).s
def updStrand (s : State) (sid : Nat) (f : Strand → Strand) : State :=
  updSlot s sid fun x => { x with s := f x.s }
def getHub (s : State) (b : Nat) : Hub := mapGet Hub.init s.hubs b
def setHub (s : State) (b : Nat) (h : Hub) : State := { s with hubs := mapPut s.hubs b h }
def updHub (s : State) (b : Nat) (f : Hub → Hub) : State := setHub s b (f (getHub s b))
def getCtx (s : State) (c : Nat) : Ctx := mapGet Ctx.init s.ctxs c
def setCtx (s : State) (c : Nat) (x : Ctx) : State := { s with ctxs := mapPut s.ctxs c x }
def updCtx (s : State) (c : Nat) (f : Ctx → Ctx) : State := setCtx s c (f (getCtx s c))
def updMgmt (s : State) (f : Mgmt → Mgmt) : State := { s with mgmt := f s.mgmt }
def updDom (s : State) (f : Dom → Dom) : State := { s with dom := f s.dom }
def updPlaza (s : State) (f : Plaza → Plaza) : State := { s with plaza := f s.plaza }

/-- A context register of R458 by its offset. -/
def ctxReg (s : State) (c off : Nat) : Word := mapGet 0 (getCtx s c).regs off
def ctxWritten (s : State) (c off : Nat) : Bool := (getCtx s c).written.contains off

/-- Put an event where it comes about next. -/
def soon (s : State) (i : Instr) : State := { s with agenda := .event i :: s.agenda }

/-- Whether a block belongs to the context's partition (R65, R323). -/
def ownsBlk (s : State) (ctx b : Nat) : Bool := (getHub s b).owner == some ctx

/-- R75: whether a context's agents reach a block's memory: it owns the block, and the scrub is over. -/
def reachesBlk (s : State) (ctx b : Nat) : Bool := ownsBlk s ctx b && !(getHub s b).scrub

/-- The blocks of a context. -/
def blocksOf (s : State) (ctx : Nat) : List Nat :=
  s.hubs.filterMap fun e => if e.2.owner == some ctx then some e.1 else none
def coresOfBlk (b : Nat) : List Nat := (List.range 8).map fun i => b * 8 + i
def coresOf (s : State) (ctx : Nat) : List Nat := (blocksOf s ctx).flatMap coresOfBlk

/-- The slots that hold a strand, with their global strand ids. -/
def allSlots (s : State) : List (Nat × Slot) :=
  s.cores.flatMap fun c => (c.2.slots.filter fun e => e.2.st != .empty).map fun e => (c.1 * 16 + e.1, e.2)

/-- Where a strand is: in a slot, in a spill run queue, or saved with its context (R327, R334). -/
inductive Loc
  | slot (sid : Nat)
  | spill (core place : Nat)
  | saved (ctx core slot : Nat)
  | savedSpill (ctx core place : Nat)
  | away
  deriving DecidableEq, Repr

def slotOfUid (cores : Map Core) (uid : Nat) : Option (Nat × Nat) :=
  cores.findSome? fun c =>
    (c.2.slots.find? fun e => e.2.st != .empty && e.2.s.uid == uid).map fun e => (c.1, e.1)
def spillOfUid (cores : Map Core) (uid : Nat) : Option (Nat × Nat) :=
  cores.findSome? fun c => (c.2.spill.find? fun e => e.strand.uid == uid).map fun e => (c.1, e.place)

def locate (s : State) (uid : Nat) : Loc :=
  match slotOfUid s.cores uid with
  | some (c, n) => .slot (c * 16 + n)
  | none => match spillOfUid s.cores uid with
    | some (c, p) => .spill c p
    | none =>
      (s.ctxs.findSome? fun x => x.2.saved.bind fun v =>
        match slotOfUid v.cores uid with
        | some (c, n) => some (Loc.saved x.1 c n)
        | none => (spillOfUid v.cores uid).map fun (c, p) => Loc.savedSpill x.1 c p).getD .away

def updSpillIn (c : Core) (place : Nat) (f : Spill → Spill) : Core :=
  { c with spill := c.spill.map fun e => if e.place == place then f e else e }
def updSavedCore (s : State) (ctx core : Nat) (f : Core → Core) : State :=
  updCtx s ctx fun x => { x with
    saved := x.saved.map fun v => { v with cores := mapPut v.cores core (f (mapGet Core.init v.cores core)) } }
def updSlotIn (c : Core) (n : Nat) (f : Slot → Slot) : Core := { c with slots := mapPut c.slots n (f (slotIn c n)) }

/-- Change a strand wherever it is. -/
def updUid (s : State) (uid : Nat) (f : Strand → Strand) : State :=
  match locate s uid with
  | .slot sid => updStrand s sid f
  | .spill c p => updCore s c fun x => updSpillIn x p fun e => { e with strand := f e.strand }
  | .saved x c n => updSavedCore s x c fun k => updSlotIn k n fun y => { y with s := f y.s }
  | .savedSpill x c p => updSavedCore s x c fun k => updSpillIn k p fun e => { e with strand := f e.strand }
  | .away => s

/-- The strand of a number, wherever it is. -/
def strandOf (s : State) (uid : Nat) : Option Strand :=
  match locate s uid with
  | .slot sid => some (strandAt s sid)
  | .spill c p => ((getCore s c).spill.find? fun e => e.place == p).map (·.strand)
  | .saved x c n => (getCtx s x).saved.map fun v => (slotIn (mapGet Core.init v.cores c) n).s
  | .savedSpill x c p =>
    (getCtx s x).saved.bind fun v => ((mapGet Core.init v.cores c).spill.find? fun e => e.place == p).map (·.strand)
  | .away => none

/-- R323: whether a context's strands and engines run. -/
def ctxRuns (s : State) (ctx : Nat) : Bool := (getCtx s ctx).st == .running

/-- A parked strand becomes ready: in its slot, or as an entry of the spill run queue (R326, R334). -/
def wake (s : State) (uid : Nat) : State :=
  match locate s uid with
  | .slot sid =>
    if (getSlot s sid).st == .parked then
      updCore (updSlot s sid fun x => { x with st := .ready, moved := s.cycle }) (coreOf sid) fun c => { c with moved := true }
    else s
  | .spill c p => updCore s c fun x =>
      { updSpillIn x p fun e => if e.ready then e else { e with ready := true, since := s.cycle } with moved := true }
  | .saved x c n => updSavedCore s x c fun k => updSlotIn k n fun y => if y.st == .parked then { y with st := .ready } else y
  | .savedSpill x c p => updSavedCore s x c fun k => updSpillIn k p fun e =>
      if e.ready then e else { e with ready := true, since := s.cycle }
  | .away => s

/-! ## Memory keys -/

/-- The key of a scratchpad byte: its mesh-window address (R65). -/
def spadKey (core off : Nat) : Nat := 0xF1 * 2 ^ 56 + core * 2 ^ 19 + off
/-- The key of a block buffer's byte: selector 0xF4 W, 0xF5 A, 0xF6 C. -/
def bufKey (sel blk off : Nat) : Nat := sel * 2 ^ 56 + blk * 2 ^ 24 + off

def bufSize (sel : Nat) : Nat :=
  if sel == 0xF4 then 0x200000 else if sel == 0xF5 then 0x100000 else 0x140000

def spadRead (s : State) (core off n : Nat) : Nat := readLe s.mem (spadKey core off) n
def spadWrite (s : State) (core off n v : Nat) : State := { s with mem := writeLe s.mem (spadKey core off) n v }

/-- Bytes written correct an uncorrectable error (R345). -/
def heal (s : State) (a n : Nat) : State :=
  { s with poison := s.poison.filter fun p => p < a || a + n ≤ p }
def poisoned (s : State) (a n : Nat) : Bool := s.poison.any fun p => a ≤ p && p < a + n

/-- R75: what reading a byte of host memory gives; the outside chooses it. DESIGN CHOICE, log 7. -/
def farBytes (fr a : Nat) : Nat → Nat
  | 0 => 0
  | n + 1 => (Config.farByte fr a).toNat + 256 * farBytes fr (a + 1) n

/-! ## Physical addresses and homes (R70-R72, R456) -/

inductive Phys
  | dev (d : Nat)
  | host (a : Nat)
  | fabric (m a : Nat)
  | none
  deriving DecidableEq, Repr

/-- R452: the READY bit of a District. -/
def distReady (s : State) (d : Nat) : Bool := s.mgmt.ready.getLsbD (42 + d)

/-- The District of a local HBM4 or LPDDR-6 address, if it is ready. -/
def localDist (s : State) (pa : Nat) : Option Nat :=
  let d := if pa < 0xC000000000 then some (pa / 0x3000000000)
    else if 0x10000000000 ≤ pa && pa < 0x28000000000 then some ((pa - 0x10000000000) / 0x6000000000) else none
  d.filter (distReady s)

/-- R70; the host window is there once the IDE stream is Secure (R422). -/
def physOf (s : State) (pa : Nat) : Phys :=
  if pa.testBit 55 then (if s.mgmt.ideSecure then .host (pa % 2 ^ 55) else .none)
  else if pa.testBit 54 then
    let m := pa / 2 ^ 42 % 1024
    let a := pa % 2 ^ 42
    if pa / 2 ^ 52 % 4 != 0 || s.dom.state == 0 then .none
    else if m == s.dom.member then (match localDist s a with | some d => .dev d | none => .none)
    else if s.dom.members.contains m then .fabric m a else .none
  else match localDist s pa with
    | some d => .dev d
    | none => .none

/-- The local address of a physical address: a fabric-window address of this member is its [41:0]. -/
def localPa (pa : Nat) : Nat := if pa.testBit 54 then pa % 2 ^ 42 else pa

/-- R72. -/
def quayOf (pa : Nat) : Nat :=
  (pa / 2 ^ 8 % 16) ^^^ (pa / 2 ^ 12 % 16) ^^^ (pa / 2 ^ 16 % 16) ^^^ (pa / 2 ^ 20 % 16)
/-- The block whose corner holds a quay's port. -/
def quayBlk (d q : Nat) : Nat := d * 64 + (if q < 8 then q else 56 + (q - 8))

/-! ## Translation (R402-R409, R414-R417) -/

/-- R404: a page-table entry's malformations at a level; the address is that of a leaf's page or of the next table. -/
def pteBad (s : State) (e level : Nat) : Bool :=
  let leaf := level == 0 || e.testBit 5
  let contig := e.testBit 6
  let size := 2 ^ (12 + 9 * level + if contig then 4 else 0)
  let addr := e / 2 ^ 12 % 2 ^ 44 * 2 ^ 12
  e / 2 ^ 56 != 0 || e / 2 ^ 7 % 32 != 0 || e.testBit 1 ||
  (level != 0 && 3 ≤ level && e.testBit 5) || (contig && !leaf && (level == 1 || level == 2)) ||
  (if leaf then addr % size != 0 else (localDist s addr).isNone)

/-- A translation: the page's virtual base, size, physical base and permissions, and its KV key. -/
structure Page where
  va : Nat
  size : Nat
  pa : Nat
  r : Bool
  w : Bool
  x : Bool
  key : Option Nat
  deriving DecidableEq, Repr

/-- The end of a walk: a page, a page fault by level and reason (R411), or a permission trap. -/
inductive Walk
  | page (p : Page)
  | fault (level reason : Nat)
  | deny
  deriving DecidableEq, Repr

/-- R406: the entry of a run that the walk takes: its own, or any one of the 16 when they differ. DESIGN CHOICE, log 1. -/
def runEntry (s : State) (t idx e : Nat) : Nat :=
  let read := fun i => readLe s.mem (t + 8 * (idx / 16 * 16 + i)) 8
  if (List.range 16).all (fun i => read i == e) then e else read (Config.choice s.fresh % 16)

/-- R403: the walk from table t down. -/
def walkFrom (s : State) (va : Nat) : Nat → Nat → Walk
  | level, t =>
    let idx := va / 2 ^ (12 + 9 * level) % 512
    let e0 := readLe s.mem (t + 8 * idx) 8
    let leaf := level == 0 || (e0.testBit 5 && level ≤ 2)
    let e := if leaf && e0.testBit 0 && e0.testBit 6 then runEntry s t idx e0 else e0
    if !e.testBit 0 then .fault level 0
    else if pteBad s e level then .fault level 1
    else
      let addr := e / 2 ^ 12 % 2 ^ 44 * 2 ^ 12
      let size := 2 ^ (12 + 9 * level + if e.testBit 6 then 4 else 0)
      let page := Walk.page
        { va := va / size * size, size := size, pa := addr, r := e.testBit 2, w := e.testBit 3, x := e.testBit 4,
          key := none }
      match level with
      | 0 => page
      | l + 1 => if e.testBit 5 then page else walkFrom s va l addr

/-- R415, R416: the address of a key's entry, if the key is in range. -/
def kvEntryAddr (s : State) (ctx key : Nat) : Option Nat :=
  let cfg := (ctxReg s ctx 0x430).toNat
  let sb := min 20 (cfg / 16 % 32)
  let bb := min 12 (cfg % 16)
  let seq := key / 2 ^ 12
  let blk := key % 2 ^ 12
  if seq < 2 ^ sb && blk < 2 ^ bb then
    some ((ctxReg s ctx 0x438).toNat / 2 ^ 12 % 2 ^ 44 * 2 ^ 12 + 8 * (seq * 2 ^ bb + blk))
  else none
/-- R414: KVCFG.en. -/
def kvOn (s : State) (ctx : Nat) : Bool := (ctxReg s ctx 0x430).getLsbD 63
/-- R415: descriptor i's address. -/
def kvDescAddr (s : State) (ctx i : Nat) : Nat := (ctxReg s ctx 0x440).toNat / 2 ^ 12 % 2 ^ 44 * 2 ^ 12 + 16 * i
/-- A frame's physical address in its tier (R416). -/
def frameAddr (tier f : Nat) : Nat := tier * 0x10000000000 + f * 0x10000
/-- The descriptor index a key maps, if it is mapped (R415). -/
def kvMapped (s : State) (ctx key : Nat) : Option Nat :=
  (kvEntryAddr s ctx key).bind fun a =>
    let e := readLe s.mem a 8
    if e.testBit 63 then some (e % 2 ^ 24) else none
/-- Word 0 of a block descriptor (R416). -/
def kvDesc (s : State) (ctx i : Nat) : Nat := readLe s.mem (kvDescAddr s ctx i) 8
def descCount (d : Nat) : Nat := d / 2 ^ 48
def descGen (d : Nat) : Nat := d / 2 ^ 40 % 256
def descState (d : Nat) : Nat := d / 2 ^ 38 % 4
def descTier (d : Nat) : Nat := d / 2 ^ 37 % 2
def descFrame (d : Nat) : Nat := d % 2 ^ 25

/-- R417: whether an address lies in the KV window. -/
def inKvWindow (s : State) (ctx va : Nat) : Bool := va / 2 ^ 48 % 512 == (ctxReg s ctx 0x428).toNat / 2 ^ 48 % 512
/-- R70, R415, R456: a key is in range, and its entry and descriptor lie in device memory that is there. -/
def kvReady (s : State) (ctx key : Nat) : Bool :=
  (kvEntryAddr s ctx key).any fun a => (localDist s a).isSome &&
    (kvMapped s ctx key).all fun i => (localDist s (kvDescAddr s ctx i)).isSome
/-- R413: a copy on write holds its key and its descriptors. -/
def kvHeld (s : State) (ctx key : Nat) : Bool :=
  s.kvCopies.any fun c => c.kind == 0 && c.ctx == ctx &&
    (c.key == key || kvMapped s ctx key == some c.desc || kvMapped s ctx key == some c.new)

/-- R417: the translation of a KV-window address. -/
def walkKv (s : State) (ctx va : Nat) : Walk :=
  let key := va / 2 ^ 16 % 2 ^ 32
  if !kvOn s ctx || !kvReady s ctx key then .deny
  else match kvMapped s ctx key with
    | none => .fault 7 2
    | some i =>
      let d := kvDesc s ctx i
      let tier := if descState d < 2 then 0 else 1
      .page { va := va / 2 ^ 16 * 2 ^ 16, size := 2 ^ 16,
              pa := if tier == descTier d then frameAddr tier (descFrame d)
                else frameAddr tier (readLe s.mem (kvDescAddr s ctx i + 8) 8 % 2 ^ 25),
              r := true, w := true, x := false, key := some key }

/-- R403, R404, R417: a whole walk. -/
def walk (s : State) (ctx va : Nat) : Walk :=
  if inKvWindow s ctx va then walkKv s ctx va
  else
    let root := (ctxReg s ctx 0x420).toNat / 2 ^ 12 % 2 ^ 44 * 2 ^ 12
    if (localDist s root).isNone then .fault 4 1 else walkFrom s va 4 root

/-- R407: a TLB's translation of an address. The numbers of TLBs are those of `TlbEntry`. -/
def tlbFind (s : State) (tlbs : List Nat) (ctx va : Nat) : Option Page :=
  (s.tlb.find? fun e => tlbs.contains e.tlb && e.ctx == ctx && e.va ≤ va && va < e.va + e.size).map fun e =>
    { va := e.va, size := e.size, pa := e.pa, r := e.r, w := e.w, x := e.x, key := e.key }

/-- R407: the entries a TLB has room for. -/
def tlbSize (t : Nat) : Nat := if 256 ≤ t && t < 260 then 8192 else 256

/-- Fill a TLB; a full one evicts an entry of its own, which one is not defined (R409). DESIGN CHOICE, log 1. -/
def tlbFill (s : State) (tlb ctx : Nat) (p : Page) : State :=
  let e : TlbEntry := { tlb := tlb, ctx := ctx, va := p.va, size := p.size, pa := p.pa, r := p.r, w := p.w, x := p.x,
                        key := p.key }
  if s.tlb.any (fun y => y == e) then s
  else
    let mine := s.tlb.filter fun y => y.tlb == tlb
    let rest := if mine.length < tlbSize tlb then s.tlb
      else match mine[Config.choice s.fresh % mine.length]? with
        | some y => delFirst (fun z => z == y) s.tlb
        | none => s.tlb
    { s with tlb := rest ++ [e], fresh := s.fresh + (if mine.length < tlbSize tlb then 0 else 1) }

/-- R405, R269, R417: what an access needs. -/
inductive Need | read | write | atomic | fetch
  deriving DecidableEq, Repr
def needCode : Need → Nat
  | .read => 0 | .write => 1 | .fetch => 2 | .atomic => 3
def permits (p : Page) : Need → Bool
  | .read => p.r
  | .write => p.w
  | .atomic => p.r && p.w
  | .fetch => p.x

/-- R414, R415: a page of the KV window is used only while the window is on and its key in range, whatever a TLB holds. -/
def kvPasses (s : State) (ctx : Nat) (p : Page) : Bool := p.key.all fun k => kvOn s ctx && (kvEntryAddr s ctx k).isSome
/-- R269, R417: a KV key takes a store or atomic only while its count is 1 and it is resident. -/
def kvWritable (s : State) (ctx : Nat) (p : Page) (n : Need) : Bool :=
  match p.key with
  | none => true
  | some k =>
    n == .read || (kvReady s ctx k && (match kvMapped s ctx k with
      | some i => descCount (kvDesc s ctx i) == 1 && descState (kvDesc s ctx i) == 0
      | none => false))
/-- R413: the check of a window store waits while a copy holds its key or descriptor. -/
def kvWaits (s : State) (ctx : Nat) (p : Page) (n : Need) : Bool := n != .read && n != .fetch && p.key.any (kvHeld s ctx)

/-- R411: trapinfo of a page fault. -/
def faultInfo (n : Need) (level reason va : Nat) : Word :=
  BitVec.ofNat 64 (needCode n * 2 ^ 62 + level * 2 ^ 59 + reason * 2 ^ 57 + va % 2 ^ 57)

/-- What an address turns out to be: a physical address, a trap by class and trapinfo, or a TLB miss. -/
inductive Trans
  | ok (pa : Nat)
  | bad (cls : Nat) (info : Word)
  | miss
  deriving DecidableEq, Repr

/-- R405, R70: a page's address for an access, or the permission trap. An access that has to wait for its key counts as a miss, and tries
again. -/
def usePage (s : State) (ctx : Nat) (p : Page) (n : Need) (va : Nat) : Trans :=
  let pa := p.pa + (va - p.va)
  if !permits p n || !kvPasses s ctx p then .bad 4 (BitVec.ofNat 64 va)
  else if kvWaits s ctx p n then .miss
  else if !kvWritable s ctx p n then .bad 4 (BitVec.ofNat 64 va)
  else match physOf s pa with
    | .none => .bad 4 (BitVec.ofNat 64 va)
    | .host _ => if n == .atomic then .bad 4 (BitVec.ofNat 64 va) else .ok pa
    | _ => .ok pa

/-- A strand's own translation: its block's TLB, then the District's, else a miss. -/
def translate (s : State) (sid ctx : Nat) (n : Need) (va : Nat) : Trans :=
  match tlbFind s [blkOf sid, 256 + distOf sid] ctx va with
  | some p => usePage s ctx p n va
  | none => .miss

/-- R411, R417: the trap of a walk that ends in no page. A fetch from an unmapped key takes the permission trap. -/
def faultTrap (n : Need) (level reason va : Nat) : Nat × Word :=
  if level == 7 && n == .fetch then (4, BitVec.ofNat 64 va) else (3, faultInfo n level reason va)
/-- R407: the TLBs that a requester looks in: its block's and its District's, or the one of the collective engine and the KV copy path. -/
def unitTlbs (t : Nat) : List Nat := if t < 256 then [t, 256 + t / 64] else [t]
/-- R407: the District whose miss-merge table and walkers serve a requester. -/
def tlbDist (s : State) (t : Nat) : Nat := if t < 256 then t / 64 else ((List.range 4).find? (distReady s)).getD 0
/-- R407: an engine's translation: its TLBs, else a miss, or the fault in which the walk for it ends. -/
def translateUnit (s : State) (t ctx : Nat) (n : Need) (va : Nat) : Trans :=
  match tlbFind s (unitTlbs t) ctx va with
  | some p => usePage s ctx p n va
  | none => match walk s ctx va with
    | .page _ => .miss
    | .fault l r => .bad (faultTrap n l r va).1 (faultTrap n l r va).2
    | .deny => .bad 4 (BitVec.ofNat 64 va)
/-- Translation of an access that the device makes itself: its TLBs, else the walk at once. DESIGN CHOICE, log 88. -/
def translateNow (s : State) (t ctx : Nat) (n : Need) (va : Nat) : Trans :=
  match tlbFind s (unitTlbs t) ctx va with
  | some p => usePage s ctx p n va
  | none => match walk s ctx va with
    | .page p => usePage s ctx p n va
    | .fault l r => .bad (faultTrap n l r va).1 (faultTrap n l r va).2
    | .deny => .bad 4 (BitVec.ofNat 64 va)

/-- R408: a District's miss-merge table has a free entry. -/
def missRoom (s : State) (d : Nat) : Bool := ((s.misses.filter fun m => m.dist == d && !m.waiting).length) < 4096
/-- R408: a miss joins the entry of the same page, or takes a free entry, or waits for one behind those that wait already; its number. -/
def sendMiss (s : State) (t ctx va : Nat) : Nat × State :=
  let d := tlbDist s t
  let same := fun (x : Nat) => x / 4096 == va / 4096 || (inKvWindow s ctx x && inKvWindow s ctx va && x / 65536 == va / 65536)
  match s.misses.find? fun m => m.dist == d && m.ctx == ctx && same m.va with
  | some m => (m.k, { s with misses := updFirst (fun z => z.k == m.k) (fun z => { z with blks := (t :: z.blks).eraseDups }) s.misses })
  | none => (s.nextId,
      { s with misses := s.misses ++ [{ k := s.nextId, dist := d, blks := [t], ctx := ctx, va := va,
                                        waiting := !missRoom s d || s.misses.any fun m => m.dist == d && m.waiting }]
               nextId := s.nextId + 1 })

/-! ## Reads and writes that the device makes itself -/

/-- Write bytes at a physical address; what lies outside the device is not part of its state. -/
def physWrite (s : State) (pa : Nat) (bs : List Byte) : State :=
  match physOf s pa with
  | .dev _ => heal { s with mem := writeBytes s.mem (localPa pa) bs } (localPa pa) bs.length
  | _ => s

/-- Read bytes at a physical address; an uncorrectable error is `none`. -/
def physRead (s : State) (pa n : Nat) : Option (List Byte) :=
  match physOf s pa with
  | .dev _ => if poisoned s (localPa pa) n then none else some (readBytes s.mem (localPa pa) n)
  | .host a => some ((List.range n).map fun i => Config.farByte s.fresh (a + i))
  | .fabric _ a => some ((List.range n).map fun i => Config.farByte s.fresh (a + i))
  | .none => none

/-- Write at a global virtual address of a context, in pieces of 128 bytes, none of which crosses a page. `none` when a
piece cannot be translated. -/
def virtWrite (s : State) (t ctx va : Nat) : Nat → List Byte → Option State
  | 0, _ => some s
  | k + 1, bs =>
    match translateNow s t ctx .write va with
    | .ok pa => virtWrite (physWrite s pa (bs.take 128)) t ctx (va + 128) k (bs.drop 128)
    | _ => none

/-- Read k pieces of 128 bytes at a global virtual address. -/
def virtRead (s : State) (t ctx va : Nat) : Nat → Option (List Byte)
  | 0 => some []
  | k + 1 =>
    match translateNow s t ctx .read va with
    | .ok pa => do
      let bs ← physRead s pa 128
      let rest ← virtRead s t ctx (va + 128) k
      pure (bs ++ rest)
    | _ => none

/-- Read n bytes, 16 at most, at a global virtual address. -/
def virtRead1 (s : State) (t ctx va n : Nat) : Option (List Byte) :=
  match translateNow s t ctx .read va with
  | .ok pa => physRead s pa n
  | _ => none
def virtWrite1 (s : State) (t ctx va : Nat) (bs : List Byte) : Option State :=
  match translateNow s t ctx .write va with
  | .ok pa => some (physWrite s pa bs)
  | _ => none

/-! ## Address spaces (R62-R69, R200) -/

/-- Where a strand's access goes. -/
inductive Target
  | own (off : Nat)
  | cell (h : Home) (key : Nat)
  | gone
  | far (h : Home) (pa : Nat)
  | reg (off : Nat)
  | bad (cls : Nat) (info : Word)
  | mis
  | miss
  deriving DecidableEq, Repr

/-- R458: the offsets that map a register, and those privileged to context 0. -/
def regMapped (off : Nat) : Bool :=
  off % 8 == 0 && ([0x0, 0x18, 0x20, 0x28, 0x30, 0x38, 0x40, 0x50, 0x58, 0x100, 0x108, 0x200].contains off ||
    (0x400 ≤ off && off ≤ 0x4A8) || (0x800 ≤ off && off < 0x800 + 512) || (0xA00 ≤ off && off < 0xA00 + 512) ||
    (0xC00 ≤ off && off ≤ 0xFFFF))
def regPriv (off : Nat) : Bool := off != 0 && off != 0x100 && off != 0x108 && off != 0x200 && off < 0x2000

/-- R62, R65-R71, R200: the target of an access of `size` bytes by a strand, for a form that may reach the selectors
`sp`; selector 0 stands for global virtual space. `obj` says that the form acts on an object or an atomic's word, so that
an out-of-range address traps where R200 says so. A mesh-window address that names a core outside the partition and also has a
reserved bit set traps: the spec gives no order of the two, and the partition is tested first (DESIGN CHOICE, log 71). -/
def target (s : State) (sid ctx : Nat) (n : Need) (sp : List Nat) (obj : Bool) (ea : Word) (size : Nat) : Target :=
  let sel := (ea >>> 56).toNat
  let a := ea.toNat % 2 ^ 56
  let k := if sel == 1 then 0 else sel
  if !sp.contains k then .bad 4 ea
  else if ea.toNat % size != 0 then .mis
  else if sel == 0xF0 then
    if a < 2 ^ 18 then .own a else if obj then .bad 4 ea else .gone
  else if sel == 0xF1 then
    let core := a / 2 ^ 19 % 2 ^ 11
    if !reachesBlk s ctx (blkOfCore core) || !distReady s (core / 512) then .bad 4 ea
    else if a / 2 ^ 30 != 0 || a.testBit 18 then (if obj then .bad 4 ea else .gone)
    else .cell (.core core) (spadKey core (a % 2 ^ 18))
  else if sel == 0xF4 || sel == 0xF5 || sel == 0xF6 then
    let off := a % 2 ^ 24
    if off < bufSize sel then .cell (.hub (blkOf sid)) (bufKey sel (blkOf sid) off) else .gone
  else if sel == 0xFE then
    let off := a % 2 ^ 16
    if size != 8 then .mis
    else if !regMapped off || (regPriv off && ctx != 0) then .bad 4 ea else .reg off
  else
    let va := ea.toNat % 2 ^ 57
    match translate s sid ctx n va with
    | .miss => .miss
    | .bad c i => .bad c i
    | .ok pa => match physOf s pa with
      | .dev d => .cell (.quay d (quayOf (localPa pa))) (localPa pa)
      | .host a => .far .hostPort a
      | .fabric m a => .far (.member m) (m * 2 ^ 42 + a)
      | .none => .bad 4 ea

/-- R69: the out-of-range accesses of this cycle, so far those of `x`, with one more batch: the lowest strand id stays. Of two
batches of one strand the earlier stays: DESIGN CHOICE, log 77. -/
def mergeOffence (x : Ctx) (o : Offence) : Offence :=
  match x.spNow with
  | some p =>
    if x.spValid && p.cycle == o.cycle then if o.sid < p.sid then { o with n := p.n + o.n } else { p with n := p.n + o.n } else o
  | none => o

/-- R69: `spflag` and `spaddr` show a capture, its accesses counted. -/
def showOffence (x : Ctx) (o : Offence) : Ctx :=
  { x with
    spaddr := o.ea, spValid := true, spNow := some o, spMine := true
    spflag := BitVec.ofNat 64 (min 0xFFFF o.n * 2 ^ 48) ||| o.word }

/-- R69: a batch of accesses is captured if `valid` is clear, or was at the start of this cycle; else counted. -/
def takeOffence (x : Ctx) (o : Offence) : Ctx :=
  let m := mergeOffence x o
  if !x.spValid || (x.spMine && x.spNow.any fun p => p.cycle == o.cycle) then showOffence x m
  else
    let old := (x.spflag >>> 48).toNat
    { x with
      spNow := some m, spMine := false
      spflag := (x.spflag &&& 0x0000FFFFFFFFFFFF#64) ||| BitVec.ofNat 64 (min 0xFFFF (old + o.n) * 2 ^ 48) }

/-- R69: n out-of-range accesses, the first of them to `ea`, are captured or counted. -/
def captureMany (s : State) (ctx sid agent : Nat) (write : Bool) (ea : Word) (n : Nat) : State :=
  updCtx s ctx fun x =>
    takeOffence x
      { cycle := s.cycle, sid := sid, n := n, ea := ea
        word := BitVec.ofNat 64 (sid % 2 ^ 15 * 2 ^ 16 + agent * 2 ^ 12 + (if write then 2 ^ 9 else 0) + 2 ^ 8 + ea.toNat / 2 ^ 56) }

/-- R69: one out-of-range access. -/
def capture (s : State) (ctx sid agent : Nat) (write : Bool) (ea : Word) : State := captureMany s ctx sid agent write ea 1

/-! ## Packets -/

/-- R24: the corners a flit passes from (x0, y0) to (x1, y1) of District d, column first, avenues while four or more
columns remain. -/
def colPath (d y : Nat) : Nat → Nat → Nat → List Nat
  | 0, _, _ => []
  | k + 1, x, x1 =>
    if x == x1 then []
    else
      let step := if 4 ≤ (if x < x1 then x1 - x else x - x1) then 4 else 1
      let nx := if x < x1 then x + step else x - step
      (d * 64 + y * 8 + nx) :: colPath d y k nx x1
def rowPath (d x : Nat) : Nat → Nat → Nat → List Nat
  | 0, _, _ => []
  | k + 1, y, y1 =>
    if y == y1 then []
    else
      let ny := if y < y1 then y + 1 else y - 1
      (d * 64 + ny * 8 + x) :: rowPath d x k ny y1
/-- The path between two corners of one District. -/
def meshPath (a b : Nat) : List Nat :=
  let d := a / 64
  let x1 := b % 8
  colPath d (a % 64 / 8) 8 (a % 8) x1 ++ rowPath d x1 8 (a % 64 / 8) (b % 64 / 8)

/-- The inner column of a District (R292). -/
def innerCol (d : Nat) : Nat := if d % 2 == 0 then 7 else 0
/-- The Interchange's number among nodes. -/
def ichgNode : Nat := 256

/-- R292: the nodes a request passes from corner `a` to corner `b`. -/
def pathTo (a b : Nat) : List Nat :=
  let da := a / 64
  let db := b / 64
  let yd := b % 64 / 8
  let xd := b % 8
  if da == db then meshPath a b
  else if da / 2 == db / 2 then
    let o := da * 64 + yd * 8 + (if da % 2 == 0 then 7 else 0)
    let i := db * 64 + yd * 8 + (if da % 2 == 0 then 0 else 7)
    meshPath a o ++ i :: meshPath i b
  else if da % 2 == db % 2 then
    let o := da * 64 + (if da < db then 7 else 0) * 8 + xd
    let i := db * 64 + (if da < db then 0 else 7) * 8 + xd
    meshPath a o ++ i :: meshPath i b
  else
    let o := da * 64 + yd * 8 + innerCol da
    let i := db * 64 + yd * 8 + innerCol db
    meshPath a o ++ ichgNode :: i :: meshPath i b
/-- R292: from a corner to the Interchange, and from the Interchange to a corner. -/
def pathOut (a : Nat) : List Nat :=
  meshPath a (a / 64 * 64 + a % 64 / 8 * 8 + innerCol (a / 64)) ++ [ichgNode]
def pathIn (b : Nat) : List Nat :=
  let i := b / 64 * 64 + b % 64 / 8 * 8 + innerCol (b / 64)
  i :: meshPath i b

/-- The corner a home stands at; the Interchange's for the homes it holds. -/
def nodeOf : Home → Nat
  | .core c => blkOfCore c
  | .hub b => b
  | .quay d q => quayBlk d q
  | _ => ichgNode
def srcNode : Src → Nat
  | .core c => blkOfCore c
  | .own c => blkOfCore c
  | .engine b _ => b
  | .ichg => ichgNode
  | .host => ichgNode

/-- R24, R292: the nodes passed from one node to another. -/
def pathNodes (a b : Nat) : List Nat :=
  if a == b then [] else if a == ichgNode then pathIn b else if b == ichgNode then pathOut a else pathTo a b
/-- R17, R24, R292: the fixed path of a source and home. -/
def routeOf (src : Src) (h : Home) : List Nat := pathNodes (srcNode src) (nodeOf h)

/-- R17: a core-to-core request within a block travels on the ring, the shorter way round, clockwise at four stops; the
way may be overridden by the hint of SEND. It starts at its own stop on channel A. -/
def ringOf (src : Src) (h : Home) (flits : Nat) (way : Option Bool) : Option RingPos :=
  match src, h with
  | .core a, .core b =>
    if a != b && blkOfCore a == blkOfCore b then
      let n := (b + 8 - a) % 8
      some { blk := blkOfCore a, stop := a % 8, cw := way.getD (n ≤ 4), chan := 0, part := 3, flits := flits,
             dest := b % 8, hold := 0 }
    else none
  | _, _ => none

/-- R205: whether a home lies within a scope around a strand. -/
def inScope (sid : Nat) (sc : Scope) (h : Home) : Bool :=
  match sc with
  | .core => h == .core (coreOf sid)
  | .blk => (match h with
    | .core c => blkOfCore c == blkOf sid
    | .hub b => b == blkOf sid
    | _ => false)
  | .dst => (match h with
    | .core c => c / 512 == distOf sid
    | .hub b => distOfBlk b == distOf sid
    | .quay d _ => d == distOf sid
    | _ => false)
  | .dev => (match h with
    | .member _ => false
    | _ => true)
  | .dom => true

/-- Whether a body is a withhold or unwithhold notice. -/
def isNotice : Body → Bool
  | .notice _ _ => true
  | _ => false

/-- The bytes a body reads or writes as plain or atomic data. -/
def bodyBytes : Body → Option (Nat × Nat)
  | .load a n _ _ _ => some (a, n)
  | .store a n _ _ => some (a, n)
  | .copyWord a n _ _ => some (a, n)
  | .atomic a n _ => some (a, n)
  | _ => none
def isLpddr (a : Nat) : Bool := 0x10000000000 ≤ a && a < 0x28000000000

/-- R426: a request toward a chip link, LPDDR-6 or the host window waits for the limiter of a context that has a rate. -/
def rateLimited (s : State) (ctx : Nat) (h : Home) (body : Body) (scope : Option Scope) : Bool :=
  (getCtx s ctx).ratelim.toNat % 2 ^ 32 != 0 && scope.isNone &&
  (match h with
    | .hostPort => true
    | .member _ => true
    | .quay _ _ => ((bodyBytes body).map fun r => isLpddr r.1).getD false
    | _ => false)

/-- The input of a packet that enters a corner from its block, or from the quay or link it starts at. -/
def localIn : Nat := 511

/-- R424: the link class of a packet: responses, turned-back releases and notices travel in the response class, other requests in
that of their context. -/
def linkClass (s : State) (p : Pkt) : Nat :=
  if isNotice p.body || p.st == .performed || p.st == .turned then 4 else (getCtx s p.ctx).classmap % 4
/-- R424: the nodes that a response passes from its home to the source. What was performed as it was sent passes none (log 8). -/
def wayBack (p : Pkt) : List Nat := if p.node == nodeOf p.home then pathNodes p.node (srcNode p.src) else []
/-- A response or a turned-back release is at its source. -/
def isBack (p : Pkt) : Bool := if p.st == .turned then p.node == srcNode p.src else p.route.isEmpty

/-- R342: one more packet of a colour, in a 32-bit counter. -/
def countOne (m : Map Nat) (colour : Bool) : Map Nat := let k := if colour then 1 else 0; mapPut m k ((mapGet 0 m k + 1) % 2 ^ 32)
/-- The core at whose port a packet starts. -/
def srcCore : Src → Option Nat
  | .core c => some c
  | .own c => some c
  | _ => none
/-- R342: a core, or an engine, has sent a packet; notices do not count. -/
def countSent (s : State) (src : Src) (ctx : Nat) (body : Body) (colour : Bool) : State :=
  match src with
  | .engine _ _ => updCtx s ctx fun x => { x with sent := countOne x.sent colour }
  | _ => match srcCore src with
    | some c => if isNotice body then s else updCore s c fun x => { x with sent := countOne x.sent colour }
    | none => s

/-- Put a packet into the network and answer its number. A `.core` release whose home lies elsewhere is turned back at the
core's own port (R288). -/
def sendPkt (s : State) (src : Src) (h : Home) (uid sid ctx : Nat) (body : Body) (scope : Option Scope)
    (ring : Option RingPos) (ea : Word) : Nat × State :=
  let k := s.nextId
  let colour := match srcCore src with
    | some c => (getCore s c).colour
    | _ => (getCtx s ctx).colour
  let p : Pkt := { k := k, ord := k, node := srcNode src, via := localIn, seat := k, since := none, again := false,
                   src := src, home := h, uid := uid, sid := sid, ctx := ctx, body := body,
                   route := if ring.isSome then [] else routeOf src h, ring := ring, scope := scope,
                   st := if scope == some .core && !inScope sid .core h then .turned else .flying,
                   ans := 0, bad := none, limited := rateLimited s ctx h body scope, colour := colour, ea := ea,
                   reply := none, got := [] }
  (k, countSent { s with net := s.net ++ [p], nextId := k + 1 } src ctx body colour)

def findPkt (s : State) (k : Nat) : Option Pkt := s.net.find? fun p => p.k == k
def updPkt (s : State) (k : Nat) (f : Pkt → Pkt) : State := { s with net := updFirst (fun p => p.k == k) f s.net }
def delPkt (s : State) (k : Nat) : State := { s with net := delFirst (fun p => p.k == k) s.net }

/-- R290: a release that holds its strand's later accesses to its home: its outcome is not known, and it can miss. -/
def holds (q : Pkt) : Bool :=
  !q.again && !isNotice q.body && (match q.scope with | none => false | some c => c != .dom)
/-- R285: two packets leave one source for one home. What serves other members has one source for each of them and each link
class (R424). -/
def samePair (s : State) (q p : Pkt) : Bool :=
  q.src == p.src && q.home == p.home &&
    (p.src != .ichg || (q.reply.map (·.1) == p.reply.map (·.1) && linkClass s q == linkClass s p))

/-- R290: an access that the core holds behind a release of its strand. -/
def heldPkt (s : State) (p : Pkt) : Bool :=
  !isNotice p.body && s.net.any fun q => holds q && q.uid == p.uid && q.home == p.home && q.ord < p.ord

/-- The bytes at its home that an object's packet reads or writes: the header of a channel or ring, or a barrier word. -/
def objBytes : Body → Option (Nat × Nat)
  | .chanAsk c off => if off < 2 ^ 18 then some (spadKey c off, 64) else none
  | .chanMsg c off _ _ _ => some (spadKey c off, 64)
  | .chanOpen c off _ => some (spadKey c off, 64)
  | .ringProd c off => some (spadKey c off, 64)
  | .ringAsk c off => some (spadKey c off, 64)
  | .ringData c off _ _ _ _ => some (spadKey c off, 64)
  | .ringToken c off => some (spadKey c off, 64)
  | .mb c off _ _ => some (spadKey c off, 16)
  | _ => none
/-- The bytes that a packet reads or writes. -/
def spanOf (b : Body) : Option (Nat × Nat) := bodyBytes b <|> objBytes b

/-- A packet that keeps later ones of its pair waiting (R277, R285): one that has not arrived, or one that its home has not
performed. One that has entered the stream to another member keeps its order there (R293). -/
def blocksPair (s : State) (q : Pkt) : Bool :=
  (q.st == .flying && !heldPkt s q) ||
    (q.st == .waiting && (match q.home with | .member _ => false | _ => (bodyBytes q.body).isSome))

/-- R285: whether an earlier packet of the same pair is still to arrive or be performed. -/
def behind (s : State) (p : Pkt) : Bool :=
  heldPkt s p || s.net.any fun q =>
    q.ord < p.ord && samePair s q p && isNotice q.body == isNotice p.body && blocksPair s q

/-- R290, R284: what a release held leaves its core now, in program order. -/
def letGo (s : State) (p : Pkt) : State :=
  let d := s.nextId - p.ord
  let follows := fun (q : Pkt) => q.uid == p.uid && q.home == p.home && p.ord < q.ord && q.st == .flying && !isNotice q.body
  { s with net := s.net.map fun q => if follows q then { q with ord := q.ord + d, seat := q.ord + d } else q
           nextId := s.nextId + d + 1 }

/-- The accesses of a strand that are not acknowledged (R275). -/
def unacked (s : State) (uid : Nat) : List Pkt := s.net.filter fun p => p.uid == uid && !isNotice p.body

/-- Whether a strand still has an unacknowledged access within a scope (R207, R208). -/
def owesAck (s : State) (uid sid : Nat) (sc : Scope) : Bool :=
  (unacked s uid).any fun p => inScope sid sc p.home

/-! ## Handles and notices (R231, R310-R312) -/

def handleKind (h : Word) : Nat := (h >>> 60).toNat
def hbHandle (b i : Nat) : Word := BitVec.ofNat 64 (1 * 2 ^ 60 + b * 2 ^ 22 + i)
def tcHandle (b i : Nat) : Word := BitVec.ofNat 64 (5 * 2 ^ 60 + b * 2 ^ 22 + i)
/-- Kinds 2, 3 and 4: an object at an offset of a core's scratchpad. -/
def spadHandle (kind core off : Nat) : Word := BitVec.ofNat 64 (kind * 2 ^ 60 + core * 2 ^ 19 + off)
def regHandle (sid : Nat) : RegRef → Word
  | .g n => BitVec.ofNat 64 (6 * 2 ^ 60 + n * 2 ^ 16 + sid % 2 ^ 15)
  | .v n => BitVec.ofNat 64 (6 * 2 ^ 60 + 2 ^ 22 + n * 2 ^ 16 + sid % 2 ^ 15)
def groupHandle (gid : Nat) : Word := BitVec.ofNat 64 (7 * 2 ^ 60 + gid)

def handleBlk (h : Word) : Nat := h.toNat / 2 ^ 22 % 2 ^ 8
def handleIdx (h : Word) : Nat := h.toNat % 64
def handleCore (h : Word) : Nat := h.toNat / 2 ^ 19 % 2 ^ 11
def handleOff (h : Word) : Nat := h.toNat % 2 ^ 18
def handleSid (h : Word) : Nat := h.toNat % 2 ^ 15
def handleReg (h : Word) : RegRef :=
  let n := h.toNat / 2 ^ 16 % 64
  if h.getLsbD 22 then .v n else .g n

/-- The home of the object a handle names. -/
def handleHome (h : Word) : Home :=
  match handleKind h with
  | 1 | 5 => .hub (handleBlk h)
  | 2 | 3 | 4 => .core (handleCore h)
  | 6 => .core (coreOf (handleSid h))
  | _ => .register

/-- R312: the handles a halt sends a notice for; a register that a copy fills gets none. -/
def noticeHandles (t : Strand) : List Word :=
  (t.debts.filter fun d => handleKind d.handle != 6 || !d.implicit).map (·.handle)

/-- Send one notice for each handle (R310). -/
def sendNotices (s : State) (core uid sid ctx : Nat) (un : Bool) : List Word → State
  | [] => s
  | h :: hs => sendNotices (sendPkt s (.core core) (handleHome h) uid sid ctx (.notice h un) none none 0).2 core uid sid ctx un hs

/-! ## The strand image (R324, R325) -/

def wordsBytes (ws : List Word) : List Byte := ws.flatMap fun w => natBytes 8 w.toNat

def dlBits (t : Strand) : Nat :=
  t.fflags.toNat + (if t.dlValid then 2 ^ 5 else 0) + (if t.dlArmed then 2 ^ 6 else 0)

/-- R325: the 1,152 bytes of an image. -/
def imageBytes (t : Strand) : List Byte :=
  wordsBytes ((List.range 64).map (readG t)) ++
  (List.range 32).flatMap (fun n => natBytes 16 (readV t n).toNat) ++
  (List.range 8).flatMap (fun n => natBytes 2 (readP t n).toNat) ++
  wordsBytes [t.ls0, t.le0, t.lc0, t.ls1, t.le1, t.lc1, t.lk, t.pc, t.gF, t.gW,
    BitVec.ofNat 64 (t.vF.toNat + t.vW.toNat * 2 ^ 32), BitVec.ofNat 64 (dlBits t), t.dline, t.scmiss]

/-- R325, R464: the 128 bytes of a tail. -/
def tailBytes (t : Strand) : List Byte :=
  let ds := t.debts ++ List.replicate (8 - t.debts.length) { handle := 0, implicit := false }
  let bm := (List.range 8).foldl (fun n i => if (ds.getD i { handle := 0, implicit := false }).implicit then n + 2 ^ i else n) 0
  let w := t.wait.getD { form := 0, obj := 0, left := none, arg := 0, since := 0, stage := .test, rel := false,
                         opnds := none, syncs := [], word := 0, got := [] }
  wordsBytes (ds.map (·.handle)) ++
  wordsBytes [BitVec.ofNat 64 bm, t.unitid, t.launchid, t.dlRelease.setWidth 64, w.obj] ++
  natBytes 2 w.form ++ natBytes 2 0 ++ natBytes 4 (w.left.getD 0xFFFFFFFF) ++
  wordsBytes [BitVec.ofNat 64 t.startId, if w.form == 0x2C3 || w.form == 0x2C9 || w.form == 0x30D then w.arg else 0]

def wordAt (bs : List Byte) (off : Nat) : Word := BitVec.ofNat 64 (bytesNat ((bs.drop off).take 8))

/-- R318 step 1: a strand's state as its image and tail hold it; the rest of the strand is kept. Bits [3:0] of the loop registers stay
zero (R155). -/
def loadImage (t : Strand) (im tail : List Byte) : Strand :=
  let vf := wordAt im 1120
  let fl := wordAt im 1128
  { t with
    g := (List.range 64).foldl (fun m n => if n = 0 then m else mapSet 0 m n (wordAt im (8 * n))) []
    v := (List.range 32).foldl (fun m n => mapSet 0 m n (BitVec.ofNat 128 (bytesNat ((im.drop (512 + 16 * n)).take 16)))) []
    p := (List.range 8).foldl (fun m n => if n = 0 then m else
      mapSet 0 m n (BitVec.ofNat 16 (bytesNat ((im.drop (1024 + 2 * n)).take 2)))) []
    ls0 := wordAt im 1040 &&& ~~~ 15, le0 := wordAt im 1048 &&& ~~~ 15, lc0 := wordAt im 1056
    ls1 := wordAt im 1064 &&& ~~~ 15, le1 := wordAt im 1072 &&& ~~~ 15, lc1 := wordAt im 1080
    lk := wordAt im 1088, pc := wordAt im 1096, gF := wordAt im 1104, gW := wordAt im 1112
    vF := vf.setWidth 32, vW := (vf >>> 32).setWidth 32
    fflags := fl.setWidth 5, dlValid := fl.getLsbD 5, dlArmed := fl.getLsbD 6
    dline := wordAt im 1136, scmiss := wordAt im 1144
    debts := (List.range 8).filterMap fun i =>
      let h := wordAt tail (8 * i)
      if h = 0 then none else some { handle := h, implicit := (wordAt tail 64).getLsbD i }
    unitid := wordAt tail 72, launchid := wordAt tail 80
    dlRelease := (wordAt tail 88).setWidth 48, startId := (wordAt tail 112).toNat % 2 ^ 15 }

/-- R324: a core's strand area, and the halt image and tail of a strand's slot. -/
def strandArea (s : State) (ctx core : Nat) : Nat := (ctxReg s ctx 0x400).toNat + core * 0x80000
def haltImage (s : State) (ctx sid : Nat) : Nat := (strandArea s ctx (coreOf sid) + 0x50000 + slotOf sid * 1152) % 2 ^ 64
def haltTail (s : State) (ctx sid : Nat) : Nat := (strandArea s ctx (coreOf sid) + 0x54800 + slotOf sid * 128) % 2 ^ 64

/-- Write an image and a tail; `none` is the unrecoverable fault of R324. -/
def writeImage (s : State) (ctx blk im tl : Nat) (t : Strand) : Option State :=
  (virtWrite s blk ctx im 9 (imageBytes t)).bind fun s1 => virtWrite s1 blk ctx tl 1 (tailBytes t)

/-- R203: the unmasked bytes of `v` over `old`. -/
def mergeBytes (mask : BitVec 16) (old v : Vec) : Vec :=
  (List.range 16).foldl (fun w i =>
    if mask.getLsbD i then (w &&& ~~~ (0xFF#128 <<< (8 * i))) ||| (v &&& (0xFF#128 <<< (8 * i))) else w) old

/-- R324: an access to a strand area fails: the device cannot keep the strand. -/
def areaFault (s : State) (ctx : Nat) : State := soon s (.unrecoverableFault ctx)
/-- Write bytes of a saved image or tail in place. -/
def putArea (s : State) (ctx blk va : Nat) (bs : List Byte) : State :=
  match virtWrite1 s blk ctx va bs with
  | some z => z
  | none => areaFault s ctx
/-- Change a word of a saved image or tail in place. -/
def mapArea (s : State) (ctx blk va : Nat) (f : Word → Word) : State :=
  match virtRead1 s blk ctx va 8 with
  | some bs => putArea s ctx blk va (natBytes 8 (f (BitVec.ofNat 64 (bytesNat bs))).toNat)
  | none => areaFault s ctx

/-- R201, R221: a register landing in a strand's saved image at `im`; of a v register the bytes of the mask. -/
def patchAt (s : State) (ctx blk im : Nat) (r : RegRef) (mask : BitVec 16) (v : Vec) : State :=
  match r with
  | .g n =>
    if n = 0 then s
    else
      let s1 := putArea s ctx blk (im + 8 * n) (natBytes 8 v.toNat)
      let s2 := mapArea s1 ctx blk (im + 1104) fun f => setBit f n true
      mapArea s2 ctx blk (im + 1112) fun f => setBit f n false
  | .v n =>
    match virtRead1 s blk ctx (im + 512 + 16 * n) 16 with
    | none => areaFault s ctx
    | some bs =>
      let s1 := putArea s ctx blk (im + 512 + 16 * n) (natBytes 16 (mergeBytes mask (BitVec.ofNat 128 (bytesNat bs)) v).toNat)
      mapArea s1 ctx blk (im + 1120) fun f => setBit (setBit f n true) (32 + n) false
/-- R324: the image and tail of an entry of a core's spill run queue. -/
def spillImage (s : State) (ctx core place : Nat) : Nat := (strandArea s ctx core + place * 1152) % 2 ^ 64
def spillTail (s : State) (ctx core place : Nat) : Nat := (strandArea s ctx core + 0x48000 + place * 128) % 2 ^ 64
/-- R338: a block's save area, and in it the image of one of its 128 slots, whose tail follows it. -/
def saveArea (s : State) (ctx blk : Nat) : Nat := (ctxReg s ctx 0x410).toNat + blk * 0x800000
def saveSlot (s : State) (ctx core n : Nat) : Nat := saveArea s ctx (core / 8) + 0x6A0000 + 1280 * (core % 8 * 16 + n)

/-- A strand's state as device memory holds it: the TLB used, the context, and the addresses of image and tail. -/
structure Image where
  tlb : Nat
  ctx : Nat
  im : Nat
  tail : Nat
/-- The copies of a strand in device memory: its halt image (R310), that of its spill entry once written (R334), and that of its
slot in a save that has ended (R338). -/
def imagesOf (s : State) (uid : Nat) : List Image :=
  let halted := fun (ctx sid : Nat) => Image.mk (blkOf sid) ctx (haltImage s ctx sid) (haltTail s ctx sid)
  let spill := fun (ctx c p : Nat) => Image.mk (blkOfCore c) ctx (spillImage s ctx c p) (spillTail s ctx c p)
  let written := fun (k : Core) (p : Nat) => k.spill.any fun e => e.place == p && e.written
  match locate s uid with
  | .slot sid => if (getSlot s sid).st == .halted then [halted (strandAt s sid).ctx sid] else []
  | .spill c p => if written (getCore s c) p then [spill (((strandOf s uid).map (·.ctx)).getD 0) c p] else []
  | .saved x c n =>
    let core := mapGet Core.init (((getCtx s x).saved.map (·.cores)).getD []) c
    (if (slotIn core n).st == .halted then [halted x (c * 16 + n)] else []) ++
      if (getCtx s x).saving then [] else [Image.mk 300 x (saveSlot s x c n) (saveSlot s x c n + 1152)]
  | .savedSpill x c p =>
    if written (mapGet Core.init (((getCtx s x).saved.map (·.cores)).getD []) c) p then [spill x c p] else []
  | .away => []
/-- R201, R334: what an instruction leaves that completes while its strand is in no slot, in every image of the strand. -/
def stepImages (s : State) (uid : Nat) (f : Strand → Strand) : State :=
  match strandOf s uid with
  | none => s
  | some t => (imagesOf s uid).foldl (fun z i =>
      match virtRead z i.tlb i.ctx i.im 9, virtRead z i.tlb i.ctx i.tail 1 with
      | some im, some tl => (writeImage z i.ctx i.tlb i.im i.tail (f (loadImage t im tl))).getD (areaFault z i.ctx)
      | _, _ => areaFault z i.ctx) s
/-- Change a word of every image of a strand. -/
def mapImages (s : State) (uid off : Nat) (f : Word → Word) : State :=
  (imagesOf s uid).foldl (fun z i => mapArea z i.ctx i.tlb (i.im + off) f) s
/-- The places of the debt list in a tail, with what they hold. -/
def tailDebts (s : State) (i : Image) : List (Nat × Word) :=
  (List.range 8).filterMap fun n => (virtRead1 s i.tlb i.ctx (i.tail + 8 * n) 8).map fun bs => (n, BitVec.ofNat 64 (bytesNat bs))
/-- R248: a debt leaves the tails of a strand. -/
def dropSavedDebt (s : State) (uid : Nat) (h : Word) : State :=
  (imagesOf s uid).foldl (fun z i =>
    if (tailDebts z i).length < 8 then areaFault z i.ctx
    else ((tailDebts z i).filter fun d => d.2 == h).foldl (fun y d => putArea y i.ctx i.tlb (i.tail + 8 * d.1) (natBytes 8 0)) z) s
/-- R219, R230: a debt that an answer brings enters the tails of a strand. -/
def addSavedDebt (s : State) (uid : Nat) (h : Word) : State :=
  (imagesOf s uid).foldl (fun z i =>
    let ds := tailDebts z i
    if ds.length < 8 then areaFault z i.ctx
    else if ds.any fun d => d.2 == h then z
    else match ds.find? fun d => d.2 == 0 with
      | some d => mapArea (putArea z i.ctx i.tlb (i.tail + 8 * d.1) (natBytes 8 h.toNat)) i.ctx i.tlb (i.tail + 64) fun w => setBit w d.1 true
      | none => z) s

/-- A register takes a value, a v register the bytes of the mask. -/
def landIn (r : RegRef) (mask : BitVec 16) (v : Vec) (t : Strand) : Strand :=
  match r with
  | .g n => writeG t n (v.setWidth 64)
  | .v n => writeV t n (mergeBytes mask (readV t n) v)

/-- A value reaches a strand's register wherever the strand is (R201, R221, R248). -/
def landReg (s : State) (uid : Nat) (r : RegRef) (mask : BitVec 16) (v : Vec) : State :=
  (imagesOf s uid).foldl (fun z i => patchAt z i.ctx i.tlb i.im r mask v) (updUid s uid (landIn r mask v))

/-- R74: the word at an address, if the core's buffer holds its line. -/
def ibufWord (s : State) (core : Nat) (pc : Word) : Option (BitVec 96) :=
  (mapFind (getCore s core).ibuf (pc.toNat / 256)).map fun (l : BitVec 2048) => (l >>> (8 * (pc.toNat % 256))).setWidth 96

/-- R331: the instruction word at a strand's pc, for a halt between instructions: that of its wait, of the buffer, or of
memory; 0 where it cannot be read. -/
def wordOf (s : State) (sid : Nat) (t : Strand) : BitVec 96 :=
  match (t.wait.map (·.word)).filter fun w => w != 0 with
  | some w => w
  | none => match ibufWord s (coreOf sid) t.pc with
    | some w => w
    | none => match translateNow s (blkOf sid) t.ctx .fetch t.pc.toNat with
      | .ok pa => BitVec.ofNat 96 (bytesNat ((physRead s pa 12).getD []))
      | _ => 0

/-! ## Taking a trap and returning from one -/

/-- R331: the loop offset fields; a register out of reach gives 0 and its flag. -/
def loopOff (r pc : Word) : Nat × Bool :=
  let d := (r - pc).toInt
  let q := d / 16
  if d % 16 = 0 && -32768 ≤ q && q ≤ 32767 then ((q % 65536).toNat, false) else (0, true)

/-- R331: the words of a strand trap record, flag [45] aside. -/
def trapRecord (s : State) (sid cls : Nat) (info : Word) (t : Strand) (word : BitVec 96) : List Word :=
  let (o0, f0) := loopOff t.ls0 t.pc
  let (o1, f1) := loopOff t.le0 t.pc
  let (o2, f2) := loopOff t.ls1 t.pc
  let (o3, f3) := loopOff t.le1 t.pc
  let cut := fun (w : Word) => min w.toNat 0xFFFFFFFF
  let cuts := 0xFFFFFFFF < t.lc0.toNat || 0xFFFFFFFF < t.lc1.toNat
  [BitVec.ofNat 64 (cls * 2 ^ 48 + (if cuts then 2 ^ 46 else 0) + (if f0 || f1 || f2 || f3 then 2 ^ 44 else 0) +
      t.ctx * 2 ^ 32 + s.dom.member * 2 ^ 22 + sid),
   info, t.pc, BitVec.ofNat 64 (haltImage s t.ctx sid),
   BitVec.ofNat 64 (o0 + o1 * 2 ^ 16 + o2 * 2 ^ 32 + o3 * 2 ^ 48),
   BitVec.ofNat 64 (cut t.lc0 + cut t.lc1 * 2 ^ 32),
   word.setWidth 64, BitVec.ofNat 64 ((word >>> 64).toNat + s.dtime % 2 ^ 32 * 2 ^ 32)]

/-- A record begins to wait for its delivery (R333). -/
def queueRecord (s : State) (core : Option Nat) (ctx : Nat) (ws : List Word) : State :=
  { s with records := s.records ++ [{ k := s.nextId, core := core, ctx := ctx, words := ws, since := s.dtime }],
           nextId := s.nextId + 1 }

/-- R310: the strand in a slot halts as a cordon root, its pc already at the resume point: its slot is halted, its image
and tail are written, its record is queued, and its debts are noticed. A strand that was a member has sent its notices
already (R316). -/
def haltStrand (s : State) (sid cls : Nat) (info : Word) (word : BitVec 96) : State :=
  let sl := getSlot s sid
  let t := { sl.s with trapinfo := info, due := sl.s.due.filter fun d => d.1 != 5 }
  let hs := if sl.st == .member then [] else noticeHandles t
  let s1 := setSlot s sid { sl with st := .halted, s := { t with noticed := t.noticed ++ hs, wait := none },
                                    moved := if sl.st == .ready then s.cycle else sl.moved }
  let s2 := queueRecord s1 (some (coreOf sid)) t.ctx (trapRecord s1 sid cls info t word)
  let s3 := sendNotices s2 (coreOf sid) t.uid sid t.ctx false hs
  match writeImage s3 t.ctx (blkOf sid) (haltImage s t.ctx sid) (haltTail s t.ctx sid) t with
  | some s4 => s4
  | none => soon s3 (.unrecoverableFault t.ctx)

/-- R126, R159: a wait abandoned without effect: the F bits its synchronised reads cleared are set again.
DEDUCED, log 22. -/
def abandon (t : Strand) : Strand :=
  match t.wait with
  | none => t
  | some w => if w.opnds.isSome then w.syncs.foldl (fun u r => setFull u r true) t else t

/-- R169: a trap that resumes at the instruction, or after it with the end check applied first. -/
def takeTrap (s : State) (sid cls : Nat) (info : Word) (after : Bool) (word : BitVec 96) : State :=
  let s1 := updStrand s sid fun t => if after then endWait (endCheck t) else abandon t
  haltStrand s1 sid cls info word

/-- R159, R321, R401: a strand halts between instructions and resumes at the one it has not finished. -/
def stopStrand (s : State) (sid cls : Nat) (info : Word) : State := takeTrap s sid cls info false (wordOf s sid (strandAt s sid))

/-- R345: the instruction in which a strand is parked has been issued. -/
def inMid (t : Strand) : Bool := (t.wait.map fun w => w.opnds.isSome).getD false
/-- R215, R321, R359: the home has granted a slot to the SEND or RG.PUT that a strand is to take up again. -/
def holdsGrant (t : Strand) : Bool :=
  t.wait.any fun w => (w.form == 0x215 || w.form == 0x2CC) && (match w.stage with | .granted _ => true | _ => false)
/-- A trap that came while a strand was in no slot, or while it waited in an instruction: after that instruction for a copy's error
(R345), and where it holds a slot, so that no object is taken twice (R321); before its next issue for another (R388, R441). -/
def dueNow (t : Strand) : Option (Nat × Word) := t.due.filter fun d => !(d.1 == 5 && inMid t) && !holdsGrant t
/-- R159, R321, R388: a strand stops at its next instruction boundary: at once, or, where it holds a slot, once it has filled it.
DEDUCED, log 84. -/
def stopSoon (s : State) (sid cls : Nat) (info : Word) : State :=
  if holdsGrant (strandAt s sid) then updStrand s sid fun t => { t with due := t.due <|> some (cls, info) } else stopStrand s sid cls info
/-- A strand takes the trap that is due. -/
def takeDue (s : State) (sid : Nat) : State :=
  let st := (getSlot s sid).st
  match dueNow (strandAt s sid) with
  | some (c, i) =>
    if st == .ready || st == .parked || st == .member then stopStrand (updStrand s sid fun t => { t with due := none }) sid c i else s
  | none => s

/-- R376, R388: a trap for a strand wherever it is: it halts in its slot, or before its next issue once it is back in one. -/
def trapUid (s : State) (uid cls : Nat) (info : Word) : State :=
  let later := wake (updUid s uid fun t => { t with due := t.due <|> some (cls, info) }) uid
  match locate s uid with
  | .slot sid =>
    let st := (getSlot s sid).st
    if st == .ready || st == .parked || st == .member then stopSoon s sid cls info else s
  | .saved x c n => if ((getCtx s x).saved.map fun v => (slotIn (mapGet Core.init v.cores c) n).st) == some .halted then s else later
  | .away => s
  | _ => later
/-- The strands of the device: in slots, in spill run queues, and saved with their contexts. -/
def allStrands (s : State) : List Strand :=
  let here := fun (c : Nat × Core) => ((c.2.slots.filter fun e => e.2.st != .empty && e.2.st != .ended).map (·.2.s)) ++ c.2.spill.map (·.strand)
  s.cores.flatMap here ++ s.ctxs.flatMap fun x => ((x.2.saved.map (·.cores)).getD []).flatMap here
/-- Every core of the device, and those saved with switched-out contexts, changed alike. -/
def mapCores (s : State) (f : Core → Core) : State :=
  { s with
    cores := s.cores.map fun c => (c.1, f c.2)
    ctxs := s.ctxs.map fun x => (x.1, { x.2 with saved := x.2.saved.map fun v => { v with cores := v.cores.map fun c => (c.1, f c.2) } }) }
/-- The entries of every unit inbox, live or saved. -/
def allInboxes (s : State) : List UnitEntry :=
  (s.cores ++ s.ctxs.flatMap fun x => (x.2.saved.map (·.cores)).getD []).flatMap fun c => c.2.unitInbox.map (·.2)

/-- R461: one more error in ERRLOG: captured if it is the first, else noted. -/
def logWord (old : Word) (src pa : Nat) : Word :=
  if old.getLsbD 63 then old ||| 0x4000000000000000#64 else BitVec.ofNat 64 (2 ^ 63 + src % 64 * 2 ^ 56 + pa % 2 ^ 56)
/-- R461: an uncorrectable error that no trap reports. -/
def captureError (s : State) (src pa : Nat) : State :=
  updMgmt s fun m =>
    let now := (m.errNow.filter fun e => e.1 == s.cycle).map (·.2)
    { m with errlog := logWord m.errlog src pa, errNow := some (s.cycle, logWord (now.getD 0) src pa) }
/-- R461: writing 1 to `valid` clears ERRLOG; the errors of the write's own cycle are captured after the clear. -/
def clearErrlog (s : State) : State :=
  updMgmt s fun m => { m with errlog := ((m.errNow.filter fun e => e.1 == s.cycle).map (·.2)).getD 0 }
/-- R461: an error in device memory, by tier. -/
def memoryError (s : State) (pa : Nat) : State := captureError s (if isLpddr pa then 2 else 1) pa

/-- R345, R410: where the read of a halted copy goes now: its address is translated again. -/
def copyPlace (s : State) (sid : Nat) (t : Strand) (c : Copy) : Except (Nat × Word) Copy :=
  if 2 ≤ (c.ea >>> 56).toNat then .ok { c with halted := false }
  else match translateNow s (blkOf sid) t.ctx .read (c.ea.toNat % 2 ^ 57) with
    | .ok pa => (match physOf s pa with
      | .dev d => .ok { c with home := .quay d (quayOf (localPa pa)), addr := localPa pa, halted := false }
      | .host a => .ok { c with home := .hostPort, addr := a, halted := false }
      | .fabric m a => .ok { c with home := .member m, addr := m * 2 ^ 42 + a, halted := false }
      | .none => .error (4, c.ea))
    | .bad cls i => .error (cls, i)
    | .miss => .error (4, c.ea)
/-- R345: the read of one halted copy is sent again; one that cannot be translated any more halts the strand once more. -/
def recopyOne (s : State) (sid : Nat) (c : Copy) : State :=
  let t := strandAt s sid
  match copyPlace s sid t c with
  | .error (cls, i) => updStrand s sid fun y => { y with due := y.due <|> some (cls, i) }
  | .ok c1 =>
    let s1 := updStrand s sid fun y => { y with copies := y.copies.map fun x => if x == c then c1 else x }
    (sendPkt s1 (.core (coreOf sid)) c1.home t.uid sid t.ctx
      (.copyWord c1.addr (match c1.reg with | .g _ => 8 | .v _ => 16) c1.reg c1.handle) none
      (ringOf (.core (coreOf sid)) c1.home 1 none) c1.ea).2
/-- R345: the reads that a released strand's halted copies still need are sent again. -/
def recopy (s : State) (sid : Nat) : State := ((strandAt s sid).copies.filter (·.halted)).foldl (fun z c => recopyOne z sid c) s

/-- R163, R318: release a root: reload its saved state, take back each notice that was sent; the root becomes ready
when they are acknowledged (ROOT_READY). -/
def releaseRoot (s : State) (sid : Nat) : State :=
  let sl := getSlot s sid
  let t := sl.s
  if sl.st != .halted || t.releasing then s
  else match virtRead s (blkOf sid) t.ctx (haltImage s t.ctx sid) 9, virtRead s (blkOf sid) t.ctx (haltTail s t.ctx sid) 1 with
    | some im, some tl =>
      let core := coreOf sid
      let refused := ((getCore s core).refused.filter fun r => r.2 == t.uid).map (·.1)
      let withdrawn := s.cores.flatMap fun c => (c.2.refused.filter fun r => r.2 == t.uid).map (·.1)
      let u := { loadImage t im tl with wait := none, releasing := true, held := false, noticed := [] }
      let s1 := recopy (setSlot s sid { sl with s := u }) sid
      let s2 := { s1 with cores := s1.cores.map fun c =>
        (c.1, { c.2 with refused := c.2.refused.filter fun r => r.2 != t.uid }) }
      sendNotices s2 core t.uid sid t.ctx true (t.noticed.filter fun h => !(withdrawn ++ refused).contains h)
    | _, _ => soon s (.unrecoverableFault t.ctx)

end Sys2Proof.Machine
end

