-- ==== Sys2Proof/Machine/Objects.lean ====
section
/-! DEFINITION. The synchronisation objects: withhold tables (R313), hardware barriers (R391, R392), memory barrier words
(R228, R229, R394), channels (R218-R220), stage rings (R357-R359) and trigger counters (R353-R355). -/

namespace Sys2Proof.Machine
open Sys2Proof

/-! ## The withhold table of a core (R313) -/

def tableCount (c : Core) (h : Word) : Nat := ((c.withhold.find? fun e => e.1 == h).map (·.2)).getD 0
def tableHas (c : Core) (h : Word) : Bool := c.withhold.any fun e => e.1 == h

/-- A withhold notice is counted, or refused when the table is full. -/
def tableAdd (c : Core) (h : Word) (uid : Nat) : Core :=
  if tableHas c h then
    { c with withhold := updFirst (fun e => e.1 == h) (fun e => (e.1, e.2 + 1)) c.withhold, counted := c.counted ++ [(h, uid)] }
  else if c.withhold.length < 256 then { c with withhold := c.withhold ++ [(h, 1)], counted := c.counted ++ [(h, uid)] }
  else { c with refused := c.refused ++ [(h, uid)] }

/-- R313: an entry that frees goes to the object of the oldest refused notice, all of whose notices count in it. -/
def tableGrant (c : Core) : Core :=
  match c.refused with
  | [] => c
  | (o, _) :: _ =>
    let mine := c.refused.filter fun r => r.1 == o
    { c with withhold := c.withhold ++ [(o, mine.length)], counted := c.counted ++ mine, refused := c.refused.filter fun r => r.1 != o }

/-- R313, R318: an unwithhold notice takes one off the count, and a count of zero frees the entry. One whose withhold notice is
still refused withdraws that. -/
def tableSub (c : Core) (h : Word) (uid : Nat) : Core :=
  if c.refused.contains (h, uid) then { c with refused := c.refused.erase (h, uid) }
  else if !c.counted.contains (h, uid) then c
  else
    let c0 := { c with counted := c.counted.erase (h, uid) }
    if tableCount c h ≤ 1 then tableGrant { c0 with withhold := delFirst (fun e => e.1 == h) c.withhold }
    else { c0 with withhold := updFirst (fun e => e.1 == h) (fun e => (e.1, e.2 - 1)) c.withhold }

/-- R313: a core in overflow withholds every word, ring and register of its own that has no entry. -/
def overflows (c : Core) (h : Word) : Bool := !c.refused.isEmpty && !tableHas c h
/-- R313: whether an object's debtors, or overflow, withhold it. -/
def tableWithheld (c : Core) (h : Word) : Bool := tableCount c h != 0 || overflows c h

/-- R314: a register is withheld: F = 0 and a debtor of it is in the cordon or a copy into it is halted. -/
def regWithheld (s : State) (sid : Nat) (t : Strand) (r : RegRef) : Bool :=
  !fullOf t r && (tableWithheld (getCore s (coreOf sid)) (regHandle sid r) || t.copies.any fun c => c.reg == r && c.halted)

/-! ## Hardware barriers -/

def getHb (s : State) (b i : Nat) : HBar := mapGet HBar.init (getHub s b).hb i
def setHb (s : State) (b i : Nat) (h : HBar) : State := updHub s b fun x => { x with hb := mapPut x.hb i h }
def updHb (s : State) (b i : Nat) (f : HBar → HBar) : State := setHb s b i (f (getHb s b i))

/-- The key of a barrier in `Strand.arrived`. -/
def hbKey (b i : Nat) : Nat := b * 32 + i

/-- R225: the identity of a combine code, and the combination of two values. -/
def combineId (code : Nat) : BitVec 32 :=
  match code with
  | 2 => 0x7FFFFFFF | 3 => 0x80000000 | 4 => 0xFFFFFFFF | 6 => 0xFFFFFFFF | _ => 0
def combine (code : Nat) (x y : BitVec 32) : BitVec 32 :=
  match code with
  | 1 => x + y
  | 2 => if x.slt y then x else y
  | 3 => if x.slt y then y else x
  | 4 => if x.ult y then x else y
  | 5 => if x.ult y then y else x
  | 6 => x &&& y
  | 7 => x ||| y
  | 8 => x ^^^ y
  | _ => 0

def lowestClear {w : Nat} (m : BitVec w) (n : Nat) : Option Nat := (List.range n).find? fun i => !m.getLsbD i

/-- The member entry of a strand. -/
def hbEntry (h : HBar) (uid : Nat) : Option Nat :=
  (h.who.find? fun e => e.2 == uid && h.mem.getLsbD e.1).map (·.1)

/-- R392: an entry is in use by a member, or kept for one that left after arriving. -/
def hbUsed (h : HBar) : BitVec 128 := h.mem ||| h.kept

def hbJoin (h : HBar) (uid : Nat) : HBar :=
  match lowestClear (hbUsed h) 128 with
  | some e => { h with mem := setBit h.mem e true, cordon := setBit h.cordon e false, who := mapPut h.who e uid }
  | none => h

def hbArrive (h : HBar) (uid : Nat) (v : Option (BitVec 32)) : HBar :=
  match hbEntry h uid with
  | some e => { h with arr := setBit h.arr e true, acc := combine h.code h.acc (v.getD (combineId h.code)), moved := true }
  | none => h

def hbLeave (h : HBar) (uid : Nat) : HBar :=
  match hbEntry h uid with
  | some e => { h with
      mem := setBit h.mem e false
      kept := if h.arr.getLsbD e then setBit h.kept e true else h.kept
      cordon := setBit h.cordon e false
      who := mapDel h.who e
      moved := true }
  | none => h

/-- R392: the completion test, once in a cycle in which an arrival or a leave was applied. -/
def hbTest (h : HBar) : HBar :=
  if h.moved && h.mem &&& ~~~ h.arr == 0 then
    { h with result := if h.code = 0 then 0 else h.acc, phase := h.phase + 1, arr := 0, kept := 0,
             acc := combineId h.code, moved := false }
  else { h with moved := false }

/-- R227: the awaited phase is withheld while a member that has not arrived in it is in the cordon. -/
def hbWithheld (h : HBar) : Bool := h.mem &&& ~~~ h.arr &&& h.cordon != 0

/-- A strand's wait record names a form and an object. -/
def waitsOn (t : Strand) (form : Nat) (obj : Word) : Bool :=
  match t.wait with
  | some w => w.form == form && w.obj == obj
  | none => false
/-- R391: the strands parked on a barrier, here or evicted; one that has been woken waits no longer. -/
def hbWaiters (s : State) (b i : Nat) : Nat :=
  ((allSlots s).filter fun e => (e.2.st == .parked || e.2.st == .member) && waitsOn e.2.s 0x2C3 (hbHandle b i)).length +
  (s.cores.flatMap fun c => c.2.spill.filter fun e => !e.ready && waitsOn e.strand 0x2C3 (hbHandle b i)).length

/-! ## Memory barrier words: offsets in the core's scratchpad -/

def mbPending (s : State) (c o : Nat) : Nat := spadRead s c o 4
def mbExpected (s : State) (c o : Nat) : Nat := spadRead s c (o + 4) 4
def mbBytes (s : State) (c o : Nat) : Nat := spadRead s c (o + 8) 6
def mbPhase (s : State) (c o : Nat) : Nat := spadRead s c (o + 15) 1 / 128

/-- R229: Check. -/
def mbCheck (s : State) (c o : Nat) : State :=
  if mbPending s c o = 0 && mbBytes s c o = 0 then
    let s1 := spadWrite s c (o + 15) 1 (spadRead s c (o + 15) 1 ^^^ 128)
    spadWrite s1 c o 4 (mbExpected s c o)
  else s
def mbArrive (s : State) (c o n : Nat) : State :=
  mbCheck (spadWrite s c o 4 (mbPending s c o - min n (mbPending s c o))) c o
/-- R229: expected bytes are added; bytes that land or drop are taken off. -/
def mbExpect (s : State) (c o n : Nat) : State := mbCheck (spadWrite s c (o + 8) 6 ((mbBytes s c o + n) % 2 ^ 48)) c o
def mbLand (s : State) (c o n : Nat) : State :=
  mbCheck (spadWrite s c (o + 8) 6 ((mbBytes s c o + (2 ^ 48 - n % 2 ^ 48)) % 2 ^ 48)) c o

/-- Every strand whose wait record fits is changed and woken. -/
def wakeWhere (s : State) (p : Strand → Bool) (f : Wait → Wait) : State :=
  let us := ((allSlots s).filter fun e => p e.2.s).map (fun e => e.2.s.uid) ++
    (s.cores.flatMap fun c => (c.2.spill.filter fun e => p e.strand).map fun e => e.strand.uid)
  us.foldl (fun z u => wake (updUid z u fun t => { t with wait := t.wait.map f }) u) s

/-- R229: MB.INIT at the word's home; waiters wake with ABORTED. -/
def mbInit (s : State) (c o n : Nat) : State :=
  let s1 := wakeWhere s (fun t => waitsOn t 0x2C9 (spadHandle 2 c o)) fun w => { w with stage := .granted 4 }
  let s2 := spadWrite s1 c o 8 (n + n * 2 ^ 32)
  spadWrite s2 c (o + 8) 8 0

/-! ## Channels: `o` is the header's offset in the home core's scratchpad -/

def chDepth (s : State) (c o : Nat) : Nat := spadRead s c o 2
def chProducers (s : State) (c o : Nat) : Nat := spadRead s c (o + 2) 1
def chRegistered (s : State) (c o : Nat) : Nat := spadRead s c (o + 4) 1
def chEnded (s : State) (c o : Nat) : Nat := spadRead s c (o + 5) 1
def chOpenBit (s : State) (c o : Nat) : Bool := 128 ≤ spadRead s c (o + 7) 1
def chConsumer (s : State) (c o : Nat) : Nat := spadRead s c (o + 6) 2 % 2 ^ 15
def chHead (s : State) (c o : Nat) : Nat := spadRead s c (o + 8) 4
def chTail (s : State) (c o : Nat) : Nat := spadRead s c (o + 12) 4
def chTaken (s : State) (c o : Nat) : Nat := spadRead s c (o + 16) 4
def chEndedMap (s : State) (c o : Nat) : BitVec 64 := BitVec.ofNat 64 (spadRead s c (o + 24) 8)
def chRegMap (s : State) (c o : Nat) : BitVec 64 := BitVec.ofNat 64 (spadRead s c (o + 32) 8)

def chanReg (c : Core) (o : Nat) : Option ChanReg := c.chans.find? fun r => r.off == o
def updChan (s : State) (c o : Nat) (f : ChanReg → ChanReg) : State :=
  updCore s c fun k => { k with chans := updFirst (fun r => r.off == o) f k.chans }
/-- The registration bit of a producer. -/
def prodBit (c : Core) (o uid : Nat) : Option Nat :=
  (c.prods.find? fun e => e.1 == o && e.2.2 == uid).map (·.2.1)
/-- R216, R219: a strand is a registered producer of a channel that has not sent last. -/
def chProduces (s : State) (c o uid : Nat) : Bool :=
  (prodBit (getCore s c) o uid).any fun i => !(chEndedMap s c o).getLsbD i

/-- R219: whether a consumer's open may take effect. -/
def chCanOpen (s : State) (c o : Nat) : Bool := !chOpenBit s c o && (getCore s c).chans.length < 8
def chOpen (s : State) (c o sid : Nat) : State :=
  let s1 := spadWrite s c (o + 4) 4 (sid % 2 ^ 15 * 2 ^ 16 + 2 ^ 31)
  let s2 := spadWrite s1 c (o + 8) 12 0
  let s3 := spadWrite s2 c (o + 24) 16 0
  updCore s3 c fun k => { k with
    chans := k.chans ++ [{ off := o, cordon := 0, held := none, landed := [] }]
    prods := k.prods.filter fun e => e.1 != o }
/-- R219: a producer takes the lowest clear bit. -/
def chRegister (s : State) (c o uid : Nat) : State :=
  match lowestClear (chRegMap s c o) 64 with
  | none => s
  | some i =>
    let s1 := spadWrite s c (o + 32) 8 (setBit (chRegMap s c o) i true).toNat
    let s2 := spadWrite s1 c (o + 4) 1 (chRegistered s c o + 1)
    updCore s2 c fun k => { k with prods := k.prods ++ [(o, i, uid)] }

/-- A slot is free for a reservation. -/
def chRoom (s : State) (c o : Nat) : Bool := (chTail s c o + 2 ^ 32 - chHead s c o) % 2 ^ 32 < chDepth s c o
/-- Reserve the next slot; its position. -/
def chReserve (s : State) (c o : Nat) : Nat × State :=
  (chTail s c o, spadWrite s c (o + 12) 4 ((chTail s c o + 1) % 2 ^ 32))
/-- R218: the offset of the slot at a position. -/
def chSlotOff (s : State) (c o pos : Nat) : Nat := o + 64 + 64 * (pos % max 1 (chDepth s c o))
/-- R220: a message is present when the oldest reserved slot not yet handed has landed. -/
def chPresent (s : State) (c o : Nat) : Bool :=
  match chanReg (getCore s c) o with
  | some r => chTaken s c o != chTail s c o && r.landed.contains (chTaken s c o)
  | none => false
def chAtEnd (s : State) (c o : Nat) : Bool :=
  chTaken s c o == chTail s c o && chRegistered s c o == chProducers s c o && chEnded s c o == chProducers s c o
/-- R220: withheld: no message, and every producer that has not sent last is in the cordon, and there is one. -/
def chWithheld (s : State) (c o : Nat) : Bool :=
  match chanReg (getCore s c) o with
  | none => false
  | some r =>
    let due := chRegMap s c o &&& ~~~ chEndedMap s c o
    !chPresent s c o && due != 0 && (due &&& ~~~ r.cordon) == 0
/-- A message lands in its slot; the last one of a producer ends it. -/
def chLand (s : State) (c o pos : Nat) (bytes : List Byte) (last : Bool) (uid : Nat) : State :=
  let s1 := { s with mem := writeBytes s.mem (spadKey c (chSlotOff s c o pos)) bytes }
  let s2 := updChan s1 c o fun r => { r with landed := r.landed ++ [pos] }
  match last, prodBit (getCore s c) o uid with
  | true, some i =>
    if (chEndedMap s c o).getLsbD i then s2
    else
      let s3 := spadWrite s2 c (o + 24) 8 (setBit (chEndedMap s c o) i true).toNat
      spadWrite s3 c (o + 5) 1 (chEnded s c o + 1)
  | _, _ => s2
/-- R220: free the slot that the consumer's previous receive returned. -/
def chFree (s : State) (c o : Nat) : State :=
  match (chanReg (getCore s c) o).bind (·.held) with
  | some _ =>
    updChan (spadWrite s c (o + 8) 4 ((chHead s c o + 1) % 2 ^ 32)) c o fun r => { r with held := none }
  | none => s
/-- R220: hand the oldest slot to the consumer; its position. -/
def chHand (s : State) (c o : Nat) : Nat × State :=
  let pos := chTaken s c o
  (pos, updChan (spadWrite s c (o + 16) 4 ((pos + 1) % 2 ^ 32)) c o fun r =>
    { r with held := some pos, landed := r.landed.filter fun p => p != pos })
/-- R220: the channel closes and its register is freed. -/
def chClose (s : State) (c o : Nat) : State :=
  updCore (spadWrite s c (o + 7) 1 (spadRead s c (o + 7) 1 % 128)) c fun k =>
    { k with chans := k.chans.filter fun r => r.off != o }

/-! ## Stage rings -/

def rgSlots (s : State) (c o : Nat) : Nat := spadRead s c o 2
def rgBytes (s : State) (c o : Nat) : Nat := spadRead s c (o + 2) 2
def rgEnded (s : State) (c o : Nat) : Nat := spadRead s c (o + 4) 1
def rgRegistered (s : State) (c o : Nat) : Nat := spadRead s c (o + 5) 1
def rgProducers (s : State) (c o : Nat) : Nat := spadRead s c (o + 6) 1
def rgRegMap (s : State) (c o : Nat) : BitVec 64 := BitVec.ofNat 64 (spadRead s c (o + 8) 8)
def rgTokMap (s : State) (c o : Nat) : BitVec 64 := BitVec.ofNat 64 (spadRead s c (o + 16) 8)
def rgHead (s : State) (c o : Nat) : Nat := spadRead s c (o + 24) 2
def rgTail (s : State) (c o : Nat) : Nat := spadRead s c (o + 26) 2
def rgTaken (s : State) (c o : Nat) : Nat := spadRead s c (o + 28) 2
def rgFull (s : State) (c o i : Nat) : Bool := (spadRead s c (o + 32 + i / 8) 1).testBit (i % 8)
def rgSetFull (s : State) (c o i : Nat) (v : Bool) : State :=
  let b := BitVec.ofNat 8 (spadRead s c (o + 32 + i / 8) 1)
  spadWrite s c (o + 32 + i / 8) 1 (setBit b (i % 8) v).toNat
def rgIdx (s : State) (c o pos : Nat) : Nat := pos % max 1 (rgSlots s c o)
def rgSlotOff (s : State) (c o i : Nat) : Nat := o + 64 + rgBytes s c o * i

def ringReg (c : Core) (o : Nat) : Option RingReg := c.rings.find? fun r => r.off == o
def updRing (s : State) (c o : Nat) (f : RingReg → RingReg) : State :=
  updCore s c fun k => { k with rings := updFirst (fun r => r.off == o) f k.rings }

def rgRegister (s : State) (c o uid : Nat) : State :=
  match lowestClear (rgRegMap s c o) 64 with
  | none => s
  | some i =>
    let s1 := spadWrite s c (o + 8) 8 (setBit (rgRegMap s c o) i true).toNat
    let s2 := spadWrite s1 c (o + 5) 1 (rgRegistered s c o + 1)
    updCore s2 c fun k => { k with prods := k.prods ++ [(o, i, uid)] }
def rgRoom (s : State) (c o : Nat) : Bool := (rgTail s c o + 2 ^ 16 - rgHead s c o) % 2 ^ 16 < rgSlots s c o
def rgReserve (s : State) (c o : Nat) : Nat × State :=
  (rgIdx s c o (rgTail s c o), spadWrite s c (o + 26) 2 ((rgTail s c o + 1) % 2 ^ 16))
/-- R359: some of a producer's data land in its slot, which is full with the last of them. -/
def rgLand (s : State) (c o i at_ : Nat) (bytes : List Byte) (last : Bool) : State :=
  let s1 := { s with mem := writeBytes s.mem (spadKey c (rgSlotOff s c o i + at_)) bytes }
  if last then rgSetFull s1 c o i true else s1
/-- R359: head advances while it is behind taken and its slot is not full. -/
def rgAdvance (s : State) (c o : Nat) : Nat → State
  | 0 => s
  | k + 1 =>
    if rgHead s c o != rgTaken s c o && !rgFull s c o (rgIdx s c o (rgHead s c o)) then
      rgAdvance (spadWrite s c (o + 24) 2 ((rgHead s c o + 1) % 2 ^ 16)) c o k
    else s
def rgHeld (s : State) (c o uid : Nat) : Option Nat :=
  (ringReg (getCore s c) o).bind fun r => (r.holders.find? fun h => h.1 == uid).map (·.2)
/-- R358, R359: a holder's slot is freed. -/
def rgFree (s : State) (c o uid : Nat) : State :=
  match rgHeld s c o uid with
  | some i =>
    rgAdvance (updRing (rgSetFull s c o i false) c o fun r => { r with holders := r.holders.filter fun h => h.1 != uid })
      c o 256
  | none => s
def rgPresent (s : State) (c o : Nat) : Bool :=
  rgTaken s c o != rgTail s c o && rgFull s c o (rgIdx s c o (rgTaken s c o))
def rgAtEnd (s : State) (c o : Nat) : Bool :=
  rgTaken s c o == rgTail s c o && rgRegistered s c o == rgEnded s c o && rgEnded s c o == rgProducers s c o
/-- R359: the oldest slot is handed; its index. -/
def rgHand (s : State) (c o uid : Nat) : Nat × State :=
  let i := rgIdx s c o (rgTaken s c o)
  (i, updRing (spadWrite s c (o + 28) 2 ((rgTaken s c o + 1) % 2 ^ 16)) c o fun r =>
    { r with holders := r.holders ++ [(uid, i)] })
/-- R314: a full slot is present: a reserved slot that has not been handed is full. -/
def rgAnyFull (s : State) (c o : Nat) : Bool :=
  (List.range ((rgTail s c o + 2 ^ 16 - rgTaken s c o) % 2 ^ 16)).any fun i => rgFull s c o (rgIdx s c o (rgTaken s c o + i))
/-- The registered producers of a ring without a token, by strand. -/
def rgDue (s : State) (c o : Nat) : List Nat :=
  ((getCore s c).prods.filter fun e => e.1 == o && !(rgTokMap s c o).getLsbD e.2.1).map (·.2.2)
/-- R230, R313, R314: withheld: no full slot is present, and there is a producer without a token and every such producer is in
the cordon; or the core is in overflow and the ring has no entry. -/
def rgWithheld (s : State) (c o : Nat) : Bool :=
  let k := getCore s c
  let h := spadHandle 4 c o
  !rgAnyFull s c o &&
    ((!(rgDue s c o).isEmpty && (rgDue s c o).all fun u => k.counted.contains (h, u)) || overflows k h)
/-- R358: the register is freed once the ring has ended and no strand holds a slot. -/
def rgDrop (s : State) (c o : Nat) : State :=
  if rgAtEnd s c o then
    updCore s c fun k => { k with rings := k.rings.filter fun r => !(r.off == o && r.holders.isEmpty) }
  else s
/-- R230: a strand is a registered producer of a ring whose token has not come. -/
def rgProduces (s : State) (c o uid : Nat) : Bool := (rgDue s c o).contains uid
/-- R359: a producer's token. -/
def rgToken (s : State) (c o uid : Nat) : State :=
  match prodBit (getCore s c) o uid with
  | none => s
  | some i =>
    if (rgTokMap s c o).getLsbD i then s
    else
      let s1 := spadWrite s c (o + 16) 8 (setBit (rgTokMap s c o) i true).toNat
      rgDrop (spadWrite s1 c (o + 4) 1 (rgEnded s c o + 1)) c o

/-! ## Trigger counters -/

def getTc (s : State) (b i : Nat) : TCtr := mapGet TCtr.init (getHub s b).tc i
def updTc (s : State) (b i : Nat) (f : TCtr → TCtr) : State :=
  updHub s b fun x => { x with tc := mapPut x.tc i (f (mapGet TCtr.init x.tc i)) }

/-- R355: a threshold is reached. -/
def tcReached (count t : BitVec 48) : Bool := (count - t).toNat < 2 ^ 47

/-! ## Notices reach their objects (R312-R314) -/

/-- R221, R334: the strand that a slot's number names: that of an occupied slot, or the evicted strand whose slot it still is. -/
def putTarget (s : State) (sid : Nat) : Option Nat :=
  let c := getCore s (coreOf sid)
  let sl := slotIn c (slotOf sid)
  let spilled := (c.spill.find? fun e => e.target == some (slotOf sid) || e.slot == slotOf sid).map (·.strand.uid)
  if sl.st == .ended then none
  else if sl.st == .empty || sl.s.uid == 0 then spilled else some sl.s.uid

/-- The context that an object belongs to. A slot's registers belong to the context of its block, whatever strand is there. -/
def objCtx (s : State) (h : Word) : Option Nat :=
  match handleKind h with
  | 1 => some (getHb s (handleBlk h) (handleIdx h)).ctx
  | 5 => (getHub s (handleBlk h)).owner
  | 6 => (getHub s (blkOf (handleSid h))).owner
  | 7 => (s.plaza.groups.find? fun g => g.gid == h.toNat % 2 ^ 16).map (·.ctx)
  | _ => (getHub s (blkOfCore (handleCore h))).owner

/-- R313, R318: a notice is counted at its object. -/
def countNotice (s : State) (h : Word) (uid : Nat) (un : Bool) : State :=
  let b := handleBlk h
  let i := handleIdx h
  let c := handleCore h
  let table := fun (core : Nat) => updCore s core fun k => if un then tableSub k h uid else tableAdd k h uid
  match handleKind h with
  | 1 => updHb s b i fun x =>
      match hbEntry x uid with
      | some e => { x with cordon := setBit x.cordon e (!un) }
      | none => x
  | 3 => match prodBit (getCore s c) (handleOff h) uid with
      | some e => updChan s c (handleOff h) fun r => { r with cordon := setBit r.cordon e (!un) }
      | none => s
  | 5 => updTc s b i fun x =>
      if (strandOf s uid).any fun t => x.strands.contains t.startId then
        { x with cordon := if un then x.cordon - 1 else x.cordon + 1 }
      else x
  | 2 => table c
  | 4 => table c
  | 6 =>
    let sid := handleSid h
    let s1 := table (coreOf sid)
    let r := handleReg h
    match putTarget s1 sid with
    | none => s1
    | some u =>
      let tag := ((strandOf s1 u).any fun t => !fullOf t r) && tableCount (getCore s1 (coreOf sid)) h != 0
      let s2 := updUid s1 u fun t0 => setTag t0 r tag
      match r with
      | .g n => mapImages s2 u 1112 fun w => setBit w n tag
      | .v n => mapImages s2 u 1120 fun w => setBit w (32 + n) tag
  | _ => updPlaza s fun z => { z with groups := z.groups.map fun g =>
      if g.gid == h.toNat % 2 ^ 16 then
        let mine := (g.owners.filter fun o => o.2 == uid).map (·.1)
        { g with marked := if un then g.marked.filter fun m => !mine.contains m else g.marked ++ mine.filter fun m => !g.marked.contains m }
      else g }

end Sys2Proof.Machine
end

