-- ==== Sys2Proof/Machine/Home.lean ====
section
/-! DEFINITION. The order in which a home takes its requests (R15, R258, R276, R291): packets, and the accesses that an engine
makes itself. -/

namespace Sys2Proof.Machine
open Sys2Proof

/-- A packet that has arrived at its home and has not been taken up. -/
def pending (s : State) (p : Pkt) : Bool := p.st == .flying && (p.since.map fun c => decide (c ≤ s.cycle)).getD false

/-- R258: the place of a hub's event among those of one cycle: ascending ring stops, engines last. -/
def hubRank (p : Pkt) : Nat :=
  match p.home, p.src with
  | .hub _, .core c => c % 8
  | .hub _, .own c => c % 8
  | .hub _, _ => 8
  | _, _ => 0
/-- R276, R258: one packet precedes another at their home. -/
def precedes (q p : Pkt) : Bool :=
  let cq := q.since.getD 0
  let cp := p.since.getD 0
  cq < cp || (cq == cp && (hubRank q < hubRank p || (hubRank q == hubRank p && q.seat < p.seat)))

/-- R15: the requester class at a scratchpad: 0 mesh window, 1 and 2 the copy engines, 3 ring ejection, 4 stage-ring traffic.
What else comes from outside the block counts with the mesh window: DESIGN CHOICE, log 66. -/
def portClass (p : Pkt) : Nat :=
  match p.body with
  | .ringProd _ _ => 4
  | .ringAsk _ _ => 4
  | .ringData _ _ _ _ _ _ => 4
  | .ringToken _ _ => 4
  | _ => match p.src, p.home with
    | .engine _ q, _ => if q == 1 then 1 else if q == 2 then 2 else 0
    | .core a, .core b => if a != b && blkOfCore a == blkOfCore b then 3 else 0
    | _, _ => 0
/-- R14: the banks that n bytes at an address touch. -/
def banksOf (a n : Nat) : List Nat := if n == 0 then [] else ((List.range ((a % 8 + n + 7) / 8)).map fun i => (a / 8 + i) % 512).eraseDups
/-- The slot bytes of a channel or ring that a message fills. -/
def slotSpan (s : State) : Body → Option (Nat × Nat)
  | .chanMsg c off slot bs _ => some (spadKey c (chSlotOff s c off slot), bs.length)
  | .ringData c off i n bs _ => some (spadKey c (rgSlotOff s c off i + n), bs.length)
  | _ => none
/-- The banks of a scratchpad whose shared ports a packet uses: the core's own strands have a port of their own. -/
def pktBanks (s : State) (p : Pkt) : List Nat :=
  match p.home with
  | .core c => if p.src == .own c then []
    else ((spanOf p.body).toList ++ (slotSpan s p.body).toList).flatMap (fun r => banksOf r.1 r.2) |>.eraseDups
  | _ => []
/-- R15: the first of some classes after the one served last, in turn. -/
def nextClass (last : Nat) (cs : List Nat) : Option Nat := ((List.range 5).map fun i => (last + 1 + i) % 5).find? cs.contains
/-- A port or link moves something in this cycle. -/
def inUse (s : State) (x : Served) : Bool := s.served.any fun e => e.1 == x
/-- R15: the requests that want bank b of a core, packet p among them. -/
def atBank (s : State) (p : Pkt) (c b : Nat) : List Pkt :=
  s.net.filter fun q => (pending s q || q.k == p.k) && q.home == .core c && (pktBanks s q).contains b
/-- R15: of those a request may be served next in its class: the bank has not served it, nor does an earlier one of its class wait. -/
def bankFirst (there : List Pkt) (b : Nat) (q : Pkt) : Bool :=
  !q.got.contains b && !(there.any fun z => z.k != q.k && portClass z == portClass q && precedes z q)
/-- R15: the shared port of a bank is free in this cycle, the packet is the oldest of its class there, and its class is next. -/
def bankServes (s : State) (p : Pkt) (c b : Nat) : Bool :=
  let there := atBank s p c b
  !inUse s (.bank c b) && bankFirst there b p &&
    nextClass (mapGet 4 (getCore s c).bankTurn b) ((there.filter (bankFirst there b)).map portClass) == some (portClass p)
/-- R15: every bank that the packet needs has served it, or does so in this cycle. -/
def bankGrants (s : State) (p : Pkt) (c : Nat) : Bool := (pktBanks s p).all fun b => p.got.contains b || bankServes s p c b
/-- R15, R258, R276: it is a pending packet's turn at its home. A quay takes one request in a cycle. -/
def homeTurn (s : State) (p : Pkt) : Bool :=
  match p.home with
  | .core c => bankGrants s p c
  | .quay d q => !inUse s (.quay d q) && !s.net.any fun x => pending s x && x.home == p.home && precedes x p
  | _ => !s.net.any fun x => pending s x && x.home == p.home && precedes x p
/-- Some banks serve a requester class in this cycle. -/
def useBanks (s : State) (c cls : Nat) (bs : List Nat) : State :=
  if bs.isEmpty then s
  else updCore { s with served := bs.map (fun b => (.bank c b, 1)) ++ s.served } c fun x =>
    { x with bankTurn := bs.foldl (fun m b => mapPut m b cls) x.bankTurn }
/-- The port that a packet uses is taken for this cycle. -/
def takePort (s : State) (p : Pkt) : State :=
  match p.home with
  | .core c => useBanks s c (portClass p) ((pktBanks s p).filter fun b => !p.got.contains b)
  | .quay d q => { s with served := (.quay d q, 1) :: s.served }
  | _ => s
/-- R15: a pending packet that cannot be performed yet is served by those of its banks whose turn it is. -/
def gainBanks (s : State) (p : Pkt) : State :=
  match p.home with
  | .core c =>
    let bs := (pktBanks s p).filter fun b => bankServes s p c b
    if pending s p && !bs.isEmpty then useBanks (updPkt s p.k fun q => { q with got := q.got ++ bs }) c (portClass p) bs else s
  | _ => s

/-! ## Accesses that an engine makes itself -/

/-- R291: whether a word that shares a byte with these has a reservation, held or queued. -/
def reserved (s : State) (a n : Nat) : Bool := s.resv.any fun r => r.addr < a + n && a < r.addr + r.n

/-- R276, R291: an access to these bytes that came before waits at their home. -/
def homeBusy (s : State) (a n : Nat) : Bool :=
  reserved s a n || s.net.any fun q =>
    (if q.st == .waiting then bodyBytes q.body else if pending s q then spanOf q.body else none).any fun r => r.1 < a + n && a < r.1 + r.2

/-- R15, R276: the ports that n bytes at a key use: banks of a scratchpad, or the quays of lines of device memory. -/
def keyPorts (s : State) (k n : Nat) : List Served :=
  if k / 2 ^ 56 == 0xF1 then (banksOf (k % 2 ^ 18) n).map fun b => .bank (k / 2 ^ 19 % 2 ^ 11) b
  else match localDist s k with
    | some d => ((List.range ((k % 256 + n + 255) / 256)).map fun i => Served.quay d (quayOf (k + 256 * i))).eraseDups
    | none => []
/-- R15, R276: these ports are free in this cycle, and it is an engine's or a block access's turn at each: of its class at a bank,
behind what has arrived before at a quay. -/
def portsFree (s : State) (cls : Nat) (xs : List Served) : Bool :=
  xs.all fun x => !inUse s x && (match x with
    | .bank c b =>
      let there := s.net.filter fun q => pending s q && q.home == .core c && (pktBanks s q).contains b
      nextClass (mapGet 4 (getCore s c).bankTurn b) (cls :: (there.filter (bankFirst there b)).map portClass) == some cls
    | .quay d q => !s.net.any fun p => pending s p && p.home == .quay d q
    | _ => true)
/-- These ports serve an access of a class in this cycle. -/
def takePorts (s : State) (cls : Nat) (xs : List Served) : State :=
  xs.foldl (fun z x => match x with
    | .bank c b => useBanks z c cls [b]
    | _ => { z with served := (x, 1) :: z.served }) s

end Sys2Proof.Machine
end

