-- ==== Sys2Proof/Machine/Jobs.lean ====
section
/-! DEFINITION. Tensor descriptors (R76-R83), the engine queues (R233-R235, R346-R352), the matrix engine (R239-R242), the
copy engines (R244-R247) and completion actions (R254, R354-R356). An engine's work is cut into pieces: a K step of a whole
tile, or 256 bytes of a copy; `Job.progress` counts the K steps, or the elements, done. -/

namespace Sys2Proof.Machine
open Sys2Proof

/-! ## Fields -/

/-- Bits [lo + n - 1 : lo] of word i of a command or descriptor. -/
def fld (d : BitVec 512) (i lo n : Nat) : Nat := d.toNat / 2 ^ (64 * i + lo) % 2 ^ n

/-! ## Descriptors (R77-R82) -/

def tdFormat (d : BitVec 512) : Nat := fld d 4 48 4
def tdLayout (d : BitVec 512) : Nat := fld d 4 56 3
def tdRank (d : BitVec 512) : Nat := fld d 4 52 2 + 1
def tdGroups (d : BitVec 512) : Nat := fld d 5 48 12
/-- N of the sparsity, 0 when dense. -/
def tdSparse (d : BitVec 512) : Nat := match fld d 4 54 2 with | 1 => 16 | 2 => 32 | 3 => 64 | _ => 0
/-- R79: a dimension at or above the rank has size 1. -/
def tdDim (d : BitVec 512) (n : Nat) : Nat :=
  if tdRank d ≤ n then 1
  else match n with | 0 => fld d 4 0 24 | 1 => fld d 4 24 24 | 2 => fld d 5 0 24 | _ => fld d 5 24 24
/-- The byte offset of a row in dimensions 1 to 3. -/
def tdRow (d : BitVec 512) (i1 i2 i3 : Nat) : Nat := 16 * (i1 * fld d 6 0 32 + i2 * fld d 6 32 32 + i3 * fld d 7 0 32)
def tdSpace (d : BitVec 512) : Nat := let s := fld d 0 56 8; if s == 1 then 0 else s

/-- R83, but for the space and the group count, which depend on the command. -/
def tdOk (d : BitVec 512) : Bool :=
  let f := tdFormat d
  let l := tdLayout d
  fld d 0 0 4 == 0 && fld d 4 59 5 == 0 && fld d 5 60 4 == 0 && f ≤ 9 && l ≤ 3 &&
  (if f == 8 then l == 3 else if f == 7 then l ≤ 2 else l == 0) &&
  (l == 0 || tdRank d ≤ 2) &&
  (tdSparse d == 0 || ((f == 6 || f == 7 || f == 8) && fld d 4 0 24 % 128 == 0))

/-- An engine at work for a job or a post: its source in the network, its block, the submitter, the context, and its agent
code (R69). -/
structure Eng where
  src : Src
  blk : Nat
  sid : Nat
  ctx : Nat
  agent : Nat
  deriving DecidableEq, Repr

/-- Why an engine does not go on: a trap with its class and address, an index list that breaks R81, bytes that it has to wait
for at their home, bytes that it must first ask a home outside the device for, or an address that has no translation yet. -/
inductive EngStop
  | trap (cls : Nat) (info : Word)
  | list
  | busy
  | ask (h : Home) (a n : Nat) (ea : Word)
  | miss (va : Nat)
  deriving DecidableEq, Repr

/-- Where an engine's access goes. -/
inductive EngAt
  | key (k : Nat)
  | gone
  | far (h : Home) (a : Nat)
  | bad (cls : Nat) (info : Word)
  | miss (va : Nat)
  deriving DecidableEq, Repr

/-- R407: the TLB of an engine: its block's, or that of the collective engine. -/
def engTlb (e : Eng) : Nat := if e.agent == 3 then 300 else e.blk
/-- R66, R68, R75, R245: an address as an engine sees it; the submitter's core is the one that a 0xF0 address names. An element
whose address carries into another selector lies in the space that the sum names: DESIGN CHOICE, log 69. -/
def engAt (s : State) (e : Eng) (n : Need) (ea : Nat) : EngAt :=
  let sel := ea / 2 ^ 56 % 256
  let a := ea % 2 ^ 56
  if sel == 0xF0 then (if a < 2 ^ 18 then .key (spadKey (coreOf e.sid) a) else .gone)
  else if sel == 0xF1 then
    let core := a / 2 ^ 19 % 2 ^ 11
    if !reachesBlk s e.ctx (blkOfCore core) || !distReady s (core / 512) then .bad 4 (BitVec.ofNat 64 ea)
    else if a / 2 ^ 30 != 0 || a.testBit 18 then .gone else .key (spadKey core (a % 2 ^ 18))
  else if sel == 0xF4 || sel == 0xF5 || sel == 0xF6 then
    if a % 2 ^ 24 < bufSize sel then .key (bufKey sel e.blk (a % 2 ^ 24)) else .gone
  else if 1 < sel then .bad 4 (BitVec.ofNat 64 ea)
  else match translateUnit s (engTlb e) e.ctx n (ea % 2 ^ 57) with
    | .ok pa => (match physOf s pa with
      | .dev _ => .key (localPa pa)
      | .host a => .far .hostPort a
      | .fabric m a => .far (.member m) (m * 2 ^ 42 + a)
      | .none => .bad 4 (BitVec.ofNat 64 ea))
    | .bad c i => .bad c i
    | .miss => .miss (ea % 2 ^ 57)

def isLoad : Body → Bool
  | .load _ _ _ _ _ => true
  | _ => false
/-- R293, R296: an engine's own read of a home outside the device; its answer waits in the network until it is used. -/
def farRead (s : State) (e : Eng) (h : Home) (a n : Nat) : Option Pkt :=
  s.net.find? fun p => p.src == e.src && p.ctx == e.ctx && p.home == h && p.reply.isNone && (match p.body with
    | .load x m _ _ _ => x == a && m == n
    | _ => false)
/-- An engine sends a read to a home outside the device. -/
def sendAsk (s : State) (e : Eng) (h : Home) (a n : Nat) (ea : Word) : State :=
  (sendPkt s e.src h 0 e.sid e.ctx (.load a n 0 0xFFFF (.g 0)) none none ea).2
/-- R407, R408: an engine's miss. -/
def engMiss (s : State) (e : Eng) (va : Nat) : State := (sendMiss s (engTlb e) e.ctx va).2
/-- The answers that an engine has used leave the network. -/
def dropReads (s : State) (e : Eng) : State :=
  { s with net := s.net.filter fun p => !(p.src == e.src && p.ctx == e.ctx && p.reply.isNone && isLoad p.body && p.st == .performed && isBack p) }

/-- R296, R298: a home outside the device, and the address there. -/
def farHome (s : State) (pa : Nat) : Option (Home × Nat) :=
  match physOf s pa with
  | .host a => some (.hostPort, a)
  | .fabric m a => some (.member m, m * 2 ^ 42 + a)
  | _ => none
/-- R296: k pieces of 64 bytes from a home outside the device, asked for one after another. -/
def farPieces (s : State) (e : Eng) (h : Home) (a : Nat) : Nat → Except EngStop (List Byte)
  | 0 => .ok []
  | k + 1 => match farRead s e h a 64 with
    | none => .error (.ask h a 64 (BitVec.ofNat 64 a))
    | some p =>
      if p.st == .performed && isBack p then (match p.bad with
        | some (c, i) => .error (.trap c i)
        | none => do
          let rest ← farPieces s e h (a + 64) k
          pure (natBytes 64 p.ans.toNat ++ rest))
      else .error .busy
/-- R74, R345, R363: 64 k bytes at a physical address, for a reader of the device's own that waits for its translation and for other
members. -/
def deviceRead (s : State) (e : Eng) (pa k : Nat) : Except EngStop (List Byte) :=
  match farHome s pa with
  | some (h, a) => farPieces s e h a k
  | none => match physRead s pa (64 * k) with
    | some bs => .ok bs
    | none => .error (.trap 5 0)
/-- What such a reader does while it has to wait. -/
def awaitRead (s : State) (e : Eng) : EngStop → State
  | .ask h a n ea => sendAsk s e h a n ea
  | .miss va => engMiss s e va
  | _ => s

/-- R63, R81: the accesses that n bytes at an address make: one of 1, 2, 4 or 8 bytes; the halves of an A80 value; the bytes of an
index list, those of one 16-byte line together. DEDUCED, log 69. -/
def engParts (ea n : Nat) : List (Nat × Nat) :=
  if n ≤ 8 then [(ea, n)]
  else if n == 10 then (List.range 5).map fun i => (ea + 2 * i, 2)
  else (List.range ((ea % 16 + n + 15) / 16)).map fun i =>
    let lo := max ea (ea / 16 * 16 + 16 * i)
    (lo, min (ea + n) (ea / 16 * 16 + 16 * (i + 1)) - lo)
/-- R63: an access of 2, 4 or 8 bytes at an address that is no multiple of its size. -/
def engMis (ea n : Nat) : Bool := (n == 2 || n == 4 || n == 8) && ea % n != 0
/-- R276, R291, R345: what an engine reads by one access: n bytes, or why it stops. -/
def engPart (s : State) (e : Eng) (ea n : Nat) : Except EngStop Nat :=
  match engAt s e .read ea with
  | .key k =>
    if homeBusy s k n then .error .busy
    else if poisoned s k n then .error (.trap 5 (BitVec.ofNat 64 ea)) else .ok (readLe s.mem k n)
  | .gone => .ok 0
  | .far h a => (match farRead s e h a n with
    | none => .error (.ask h a n (BitVec.ofNat 64 ea))
    | some p => if p.st == .performed && isBack p then (match p.bad with
        | some (c, i) => .error (.trap c i)
        | none => .ok (p.ans.toNat % 2 ^ (8 * n))) else .error .busy)
  | .bad c i => .error (.trap c i)
  | .miss va => .error (.miss va)

/-- R63: what an engine reads: n bytes, access by access. A misaligned one raises the misaligned trap, which halts the job as a
permission fault does (log 69). -/
def engRead (s : State) (e : Eng) (ea n : Nat) : Except EngStop Nat :=
  if engMis ea n then .error (.trap 2 (BitVec.ofNat 64 ea))
  else (engParts ea n).foldr (fun p r => do
    let v ← engPart s e p.1 p.2
    let w ← r
    pure (v + 2 ^ (8 * p.2) * w)) (.ok 0)

/-- R79: the element lies within the tensor. -/
def insideTd (d : BitVec 512) (i0 i1 i2 i3 : Nat) : Bool :=
  i0 < tdDim d 0 && i1 < tdDim d 1 && i2 < tdDim d 2 && i3 < tdDim d 3

/-- R81: where the index list of an element's group of 128 lies, in a sparse tensor. -/
def listAt (d : BitVec 512) (i0 i1 : Nat) : Option (Nat × Nat) :=
  match tdSparse d with
  | 0 => none
  | n => some (fld d 2 0 64 + (i1 * (tdDim d 0 / 128) + i0 / 128) * n, n)

/-- The place of an element's bits: its byte address and, for half-byte elements, the bit within. `none` outside the
tensor or for a pruned position; an index list that breaks R81 or cannot be read stops the engine. The list may lie in any
space that an engine reaches: DESIGN CHOICE, log 70. -/
def elemAt (s : State) (e : Eng) (d : BitVec 512) (i0 i1 i2 i3 : Nat) : Except EngStop (Option (Nat × Nat)) :=
  let bits := elemBits (tdFormat d)
  let base := fld d 0 0 64 + tdRow d i1 i2 i3
  if !insideTd d i0 i1 i2 i3 then .ok none
  else match listAt d i0 i1 with
    | none => .ok (some (base + i0 * bits / 8, i0 * bits % 8))
    | some (l, n) =>
      let g := i0 / 128
      match engRead s e l n with
      | .error x => .error x
      | .ok v =>
        let ps := (List.range n).map fun k => v / 256 ^ k % 256
        if !(ps.all (fun p => p < 128) && (List.range (n - 1)).all (fun k => ps.getD k 0 < ps.getD (k + 1) 0)) then
          .error .list
        else match ps.findIdx? fun p => p == i0 % 128 with
          | some k => let q := g * n + k; .ok (some (base + q * bits / 8, q * bits % 8))
          | none => .ok none

/-- R69: an engine's read or write that goes out of range. -/
def engGone (s : State) (e : Eng) (ea : Nat) : Bool := engAt s e .read ea == .gone
/-- R69: the accesses of an engine's read of n bytes that go out of range are captured, with the agent's code. -/
def noteGone (s : State) (e : Eng) (n : Nat) (at0 : Option (Nat × Nat)) : State :=
  match at0 with
  | some (ea, _) => (engParts ea n).foldl (fun z p =>
      if engGone z e p.1 then capture z e.ctx e.sid e.agent false (BitVec.ofNat 64 p.1) else z) s
  | none => s
/-- R69: the read of an element's index list, where there is one. -/
def noteList (s : State) (e : Eng) (d : BitVec 512) (i0 i1 i2 i3 : Nat) : State :=
  if insideTd d i0 i1 i2 i3 then noteGone s e (tdSparse d) (listAt d i0 i1) else s
/-- The bytes that an element of a tensor takes. -/
def tdBytes (d : BitVec 512) : Nat := (elemBits (tdFormat d) + 7) / 8

/-- An element's bits: zero outside the tensor (R79), none for a pruned position (R58, R81). -/
def elemRead (s : State) (e : Eng) (d : BitVec 512) (i0 i1 i2 i3 : Nat) : Except EngStop (Option Nat) :=
  if !insideTd d i0 i1 i2 i3 then .ok (some 0)
  else match elemAt s e d i0 i1 i2 i3 with
    | .error x => .error x
    | .ok none => .ok none
    | .ok (some (a, b)) =>
      let bits := elemBits (tdFormat d)
      match engRead s e a ((bits + 7) / 8) with
      | .ok v => .ok (some (v / 2 ^ b % 2 ^ bits))
      | .error x => .error x

/-! ## Writes of an engine (R306, R307) -/

/-- One element to write: its address, the bit within the byte, its size in bits, its value. -/
structure EngWrite where
  ea : Nat
  bit : Nat
  bits : Nat
  v : Nat
  deriving DecidableEq, Repr

/-- The ports that n bytes at an engine's address use. -/
def engPorts (s : State) (e : Eng) (n : Need) (ea len : Nat) : List Served :=
  (engParts ea len).flatMap fun p => match engAt s e n p.1 with
    | .key k => keyPorts s k p.2
    | _ => []
/-- R63: the naturally aligned accesses that write an element. -/
def writeParts (w : EngWrite) : List EngWrite :=
  if w.bits ≤ 64 then [w]
  else (engParts w.ea (w.bits / 8)).map fun p => { w with ea := p.1, bits := 8 * p.2, v := w.v / 256 ^ (p.1 - w.ea) % 256 ^ p.2 }
/-- Whether an access can write now: a trap, or bytes that are held at their home. -/
def engMayWrite (s : State) (e : Eng) (w : EngWrite) : Except EngStop Unit :=
  match engAt s e .write w.ea with
  | .bad c i => .error (.trap c i)
  | .key k => if homeBusy s k ((w.bits + 7) / 8) then .error .busy else .ok ()
  | .miss va => .error (.miss va)
  | _ => .ok ()
/-- Whether an element can be written now. -/
def engCanWrite (s : State) (e : Eng) (w : EngWrite) : Except EngStop Unit := (writeParts w).forM (engMayWrite s e)
/-- R426: the bytes that an engine writes to LPDDR-6 for a context that has a rate. -/
def limitedBytes (s : State) (e : Eng) (ws : List EngWrite) : Nat :=
  if (getCtx s e.ctx).ratelim.toNat % 2 ^ 32 == 0 then 0
  else ((((ws.flatMap writeParts).filter fun w => match engAt s e .write w.ea with
    | .key k => isLpddr k
    | _ => false).map (·.bits)).sum + 7) / 8
/-- R426: the bucket of a context gives n bytes, or does not hold them yet. A request of the context that came before goes first. -/
def takeTokens (s : State) (ctx n : Nat) : Option State :=
  if n == 0 then some s
  else if (getCtx s ctx).bucket < n || s.net.any (fun q => q.ctx == ctx && q.limited && q.st == .flying) then none
  else some (updCtx s ctx fun x => { x with bucket := x.bucket - n })
/-- One access writes at its place on the device, half a byte or whole bytes. An out-of-range one is captured (R69). -/
def putPart (s : State) (e : Eng) (w : EngWrite) : State :=
  match engAt s e .write w.ea with
  | .gone => capture s e.ctx e.sid e.agent true (BitVec.ofNat 64 w.ea)
  | .key k =>
    if w.bits == 4 then
      let old := (readByte s.mem k).toNat
      let new := if w.bit == 0 then old / 16 * 16 + w.v else w.v * 16 + old % 16
      heal { s with mem := writeByte s.mem k (BitVec.ofNat 8 new) } k 1
    else heal { s with mem := writeLe s.mem k (w.bits / 8) w.v } k (w.bits / 8)
  | _ => s
/-- An element is written. -/
def putElem (s : State) (e : Eng) (w : EngWrite) : State := (writeParts w).foldl (fun z p => putPart z e p) s

/-- The bytes that an element writes at a home outside the device: address, the bits of the byte, their value. -/
def farBytesOf (s : State) (e : Eng) (x : EngWrite) : List (Home × Nat × Nat × Nat) :=
  (writeParts x).flatMap fun w => match engAt s e .write w.ea with
  | .far h a =>
    if w.bits == 4 then [(h, a, if w.bit == 0 then 0x0F else 0xF0, w.v * 2 ^ w.bit)]
    else (List.range (w.bits / 8)).map fun i => (h, a + i, 0xFF, w.v / 256 ^ i % 256)
  | _ => []
def isFarWrite (s : State) (e : Eng) (w : EngWrite) : Bool := !(farBytesOf s e w).isEmpty
/-- One byte of a 16-byte line: whether it is written, and its value. The half of a byte that the copy does not write is the
outside's: a free value (log 7). -/
def lineByte (s : State) (bs : List (Home × Nat × Nat × Nat)) (h : Home) (a : Nat) : Option Nat :=
  let mine := bs.filter fun b => b.1 == h && b.2.1 == a
  let m := mine.foldl (fun x b => x ||| b.2.2.1) 0
  let v := mine.foldl (fun x b => x ||| b.2.2.2) 0
  if m == 0 then none else if m == 0xFF then some v else some (v + ((Config.farByte s.fresh a).toNat &&& (0xFF ^^^ m)))
/-- R307: the bytes leave in naturally aligned beats of 16, each a store to its home; the numbers of their packets. -/
def sendLines (s : State) (e : Eng) (bs : List (Home × Nat × Nat × Nat)) : State × List Nat :=
  ((bs.map fun b => (b.1, b.2.1 / 16)).eraseDups).foldl (fun (z : State × List Nat) (l : Home × Nat) =>
    let cell := fun (i : Nat) => lineByte s bs l.1 (l.2 * 16 + i)
    let mask := (List.range 16).foldl (fun m i => if (cell i).isSome then setBit m i true else m) (0 : BitVec 16)
    let data := (List.range 16).foldl (fun v i => v + (cell i).getD 0 * 256 ^ i) 0
    let (k, z1) := sendPkt z.1 e.src l.1 0 e.sid e.ctx (.store (l.2 * 16) 16 mask (BitVec.ofNat 128 data)) none none 0
    (z1, z.2 ++ [k])) ({ s with fresh := s.fresh + 1 }, [])
/-- Several elements are written: those on the device at once, the others by stores, whose packets' numbers it answers. -/
def putElems (s : State) (e : Eng) (ws : List EngWrite) : State × List Nat :=
  let s1 := ws.foldl (fun z w => putElem z e w) s
  let far := ws.flatMap (farBytesOf s e)
  if far.isEmpty then (s1, []) else sendLines s1 e far

/-! ## Queues -/

/-- The hub of a block as a switched-out context left it. -/
def savedHub (s : State) (ctx b : Nat) : Option Hub := (getCtx s ctx).saved.bind fun v => mapFind v.hubs b
/-- R337, R354, R441: what comes about at the hub of a context's block while the context may be switched out: it is done to the saved
hub then. -/
def inHub (s : State) (ctx b : Nat) (f : State → State) : State :=
  match savedHub s ctx b with
  | none => f s
  | some h =>
    let s1 := f (setHub s b h)
    updCtx (setHub s1 b (getHub s b)) ctx fun x => { x with
      saved := x.saved.map fun v => { v with hubs := mapPut v.hubs b (getHub s1 b) } }

/-- A block is a context's, here or as a switched-out context left it. -/
def hasBlk (s : State) (ctx b : Nat) : Bool := ownsBlk s ctx b || (savedHub s ctx b).isSome
/-- R337, R338: the bytes of a barrier word in the scratchpad that a switched-out context left, in its save or in its save area. -/
def savedWord (s : State) (ctx c o : Nat) : Option (List Byte) :=
  let x := getCtx s ctx
  if x.saving then x.saved.map fun v => readBytes v.cells (spadKey c o) 16
  else virtRead1 s 300 ctx (saveArea s ctx (blkOfCore c) + c % 8 * 0x40000 + o) 16
def putSavedWord (s : State) (ctx c o : Nat) (bs : List Byte) : State :=
  if (getCtx s ctx).saving then
    updCtx s ctx fun x => { x with saved := x.saved.map fun v => { v with cells := writeBytes v.cells (spadKey c o) bs } }
  else putArea s ctx 300 (saveArea s ctx (blkOfCore c) + c % 8 * 0x40000 + o) bs
/-- R337: what comes about at a barrier word of a context that may be switched out: it is done to the saved word then. -/
def atWord (s : State) (ctx c o : Nat) (f : State → State) : State :=
  match savedHub s ctx (blkOfCore c), savedWord s ctx c o with
  | none, _ => f s
  | some _, none => areaFault s ctx
  | some _, some bs =>
    let k := spadKey c o
    let s1 := f { s with mem := writeBytes s.mem k bs }
    putSavedWord { s1 with mem := writeBytes s1.mem k (readBytes s.mem k 16) } ctx c o (readBytes s1.mem k 16)

/-- The queue numbers of R234: 0 mq, 1 cq0, 2 cq1. -/
def getQ (h : Hub) (q : Nat) : Queue := if q == 0 then h.mq else if q == 1 then h.cq0 else h.cq1
def setQ (h : Hub) (q : Nat) (x : Queue) : Hub :=
  if q == 0 then { h with mq := x } else if q == 1 then { h with cq0 := x } else { h with cq1 := x }
def queueOf (s : State) (b q : Nat) : Queue := getQ (getHub s b) q
def updQ (s : State) (b q : Nat) (f : Queue → Queue) : State := updHub s b fun h => setQ h q (f (getQ h q))
/-- R233: the depths. -/
def depthOf (q : Nat) : Nat := if q == 0 then 64 else 128
def updJob (s : State) (b q seq : Nat) (f : Job → Job) : State :=
  updQ s b q fun x => { x with jobs := updFirst (fun j => j.seq == seq) f x.jobs }

def headJob (s : State) (b q : Nat) : Option Job := (queueOf s b q).jobs.head?

/-- R234. -/
def jobHandle (b q seq mask : Nat) : Word := BitVec.ofNat 64 (b * 2 ^ 40 + mask * 2 ^ 32 + q * 2 ^ 28 + seq)
def jhBlk (h : Word) : Nat := h.toNat / 2 ^ 40 % 256
def jhMask (h : Word) : Nat := h.toNat / 2 ^ 32 % 8
def jhCode (h : Word) : Nat := h.toNat / 2 ^ 28 % 16
def jhSeq (h : Word) : Nat := h.toNat % 2 ^ 28
def lowQueue (mask : Nat) : Nat := if mask.testBit 0 then 0 else if mask.testBit 1 then 1 else 2
/-- R349: the queue a handle is judged against. -/
def jhQueue (h : Word) : Nat := if jhCode h == 4 then lowQueue (jhMask h) else jhCode h
/-- R234, R349: whether a form accepts a job handle. -/
def jhOk (s : State) (ctx : Nat) (h : Word) : Bool :=
  let q := queueOf s (jhBlk h) (jhQueue h)
  h.toNat / 2 ^ 48 == 0 && h.toNat / 2 ^ 35 % 32 == 0 && (jhCode h ≤ 2 || jhCode h == 4) &&
  (jhCode h == 4) == (jhMask h != 0) && ownsBlk s ctx (jhBlk h) &&
  q.next != 0 && ((q.next - 1) % 2 ^ 28 + 2 ^ 28 - jhSeq h) % 2 ^ 28 < 2 ^ 27

/-- R235. -/
def statusWord (detail code state : Nat) (missed expired : Bool) (st : Nat) : Word :=
  BitVec.ofNat 64 (detail % 2 ^ 24 * 2 ^ 32 + code * 2 ^ 28 + state * 2 ^ 24 + (if missed then 2 ^ 9 else 0) +
    (if expired then 2 ^ 8 else 0) + st)
def codeOfJob (j : Job) (q : Nat) : Nat := if j.kind == .fence then 4 else q
def findJob (s : State) (h : Word) : Option Job :=
  (queueOf s (jhBlk h) (jhQueue h)).jobs.find? fun j => j.seq == jhSeq h
/-- The status word of a job: its entry's, its record's, or an expired one's. -/
def jobStatus (s : State) (h : Word) : Word :=
  let q := queueOf s (jhBlk h) (jhQueue h)
  match findJob s h with
  | some j => statusWord j.detail (codeOfJob j (jhQueue h)) j.state j.missed false j.status
  | none => match q.ended.find? fun e => e.1 == jhSeq h with
    | some e => e.2
    | none => statusWord 0 (jhCode h) 4 false true 0
/-- The state field of a job; 4 when it has ended. -/
def jobState (s : State) (h : Word) : Nat := ((findJob s h).map (·.state)).getD 4
/-- R253, R314: a fence is withheld while a job ahead of it in a named queue is in state 3. -/
def fenceWithheld (s : State) (h : Word) : Bool :=
  (List.range 3).any fun q =>
    (jhMask h).testBit q &&
    ((queueOf s (jhBlk h) q).jobs.takeWhile fun j => !(j.kind == .fence && j.parts.contains (lowQueue (jhMask h), jhSeq h))).any
      fun j => j.state == 3
def jobWithheld (s : State) (h : Word) : Bool :=
  if jhCode h == 4 then jobState s h != 4 && fenceWithheld s h else jobState s h == 3

/-- R254: the trigger word and the completion word of a command. -/
def tcEn (c : BitVec 512) : Bool := c.getLsbD (64 * 7 + 63)
def tcIdx (c : BitVec 512) : Nat := fld c 7 48 6
def tcInc (c : BitVec 512) : BitVec 48 := BitVec.ofNat 48 (fld c 7 0 48)
def mbEn (c : BitVec 512) : Bool := c.getLsbD 30
def mbCore (c : BitVec 512) : Nat := fld c 0 19 11
def mbOff (c : BitVec 512) : Nat := fld c 0 0 18

/-- R233, R239, R244, R254: a non-zero reserved field. A completion locator, where mb_en is set, that is not 16-byte aligned or has
bit 18 set counts as one: DESIGN CHOICE, log 86. -/
def actReserved (c : BitVec 512) : Bool := fld c 7 54 9 != 0 || (mbEn c && (fld c 0 0 4 != 0 || fld c 0 18 1 != 0))
def mxReserved (c : BitVec 512) : Bool :=
  actReserved c || fld c 0 56 4 != 0 || fld c 0 31 4 != 0 || fld c 1 48 16 != 0 || fld c 2 48 16 != 0 ||
  fld c 3 8 56 != 0 || fld c 3 0 1 != 0 || fld c 4 0 64 != 0 || fld c 5 0 64 != 0 || fld c 6 0 64 != 0
def cpReserved (c : BitVec 512) : Bool :=
  actReserved c || fld c 0 57 3 != 0 || fld c 0 31 6 != 0 || (List.range 6).any fun i => fld c (i + 1) 48 16 != 0
def collReserved (c : BitVec 512) : Bool :=
  actReserved c || fld c 0 31 9 != 0 || fld c 1 42 22 != 0 || fld c 1 16 16 != 0 || fld c 2 40 24 != 0 ||
  (List.range 4).any fun i => fld c (i + 3) 0 64 != 0
/-- R254: the completion word that a command of a context arrives on or counts into; one in a block that is not the context's is none:
DESIGN CHOICE, log 86. -/
def mbMine (s : State) (ctx : Nat) (c : BitVec 512) : Bool := mbEn c && hasBlk s ctx (blkOfCore (mbCore c))
/-- R254: a command arrives on its completion word. -/
def arriveFor (s : State) (ctx : Nat) (c : BitVec 512) : State :=
  if mbMine s ctx c then atWord s ctx (mbCore c) (mbOff c) fun z => mbArrive z (mbCore c) (mbOff c) 1 else s
/-- R254: n bytes of a command land, and are counted into its completion word. -/
def landFor (s : State) (ctx : Nat) (c : BitVec 512) (n : Nat) : State :=
  if mbMine s ctx c then atWord s ctx (mbCore c) (mbOff c) fun z => mbLand z (mbCore c) (mbOff c) n else s
/-- R382: what the Plaza compares. -/
def collSig (c : BitVec 512) : PostSig :=
  { op := fld c 0 60 4, dtype := fld c 0 56 4, root := fld c 1 32 10, n := fld c 2 0 40, bad := collReserved c }

/-! ## Promises (R247, R351) -/

/-- R247: T0 and r of one end of a copy. The space and the home of its base alone decide, and a base with no translation, or one that
maps to nothing, costs as the own District does: DESIGN CHOICE, log 86. -/
def endCost (s : State) (blk ctx : Nat) (d : BitVec 512) : Nat × Nat :=
  let a := fld d 0 0 64
  let sel := tdSpace d
  if sel == 0xF1 then
    let b := a / 2 ^ 22 % 256
    if b == blk then (64, 128) else if b / 64 == blk / 64 then (400, 64) else (900, 64)
  else if sel != 0 then (64, 128)
  else match translateNow s blk ctx .read (a % 2 ^ 57) with
    | .ok pa => (match physOf s pa with
      | .host _ => (4000, 8)
      | .fabric _ _ => (12000, 8)
      | .dev g => if 0x10000000000 ≤ localPa pa then (1500, 32) else if g == blk / 64 then (400, 64) else (900, 64)
      | .none => (400, 64))
    | _ => (400, 64)

/-- Elements of a copy: the product of its extents. -/
def copyCount (c : BitVec 512) : Nat := fld c 5 0 24 * fld c 5 24 24 * (fld c 6 0 24 * fld c 6 24 24)
/-- R246: the bytes a copy counts. -/
def copyBytes (c dst : BitVec 512) : Nat := copyCount c * elemBits (tdFormat dst) / 8

/-- R247: the promise of a copy entering behind `ahead`; none when any entry ahead has none. -/
def promiseFor (s : State) (blk ctx : Nat) (ahead : List Job) (c src dst : BitVec 512) : Option Nat :=
  if ahead.any fun j => j.promise.isNone then none
  else
    let (t1, r1) := endCost s blk ctx src
    let (t2, r2) := endCost s blk ctx dst
    let last := ((ahead.getLast?).bind (·.promise)).getD 0
    let r := min r1 r2
    some (max s.cycle last + max t1 t2 + (copyBytes c dst + r - 1) / r)

/-! ## Entering a queue -/

/-- R354: a job enters: its counter registers it. -/
def tcRegister (s : State) (b : Nat) (c : BitVec 512) : State :=
  if tcEn c then updTc s b (tcIdx c) fun t => { t with jobs := t.jobs + 1 } else s

/-- R233, R346: accept an entry; its sequence. A reserved field makes it end at once with reason 3. -/
def enterJob (s : State) (b q : Nat) (kind : JobKind) (c : BitVec 512) (descs : List (BitVec 512)) (bad : Bool)
    (trig : Option (Nat × BitVec 48)) (sid ctx : Nat) : Nat × Option Nat × State :=
  let x := queueOf s b q
  let seq := x.next % 2 ^ 28
  if bad then
    (seq, none, updQ s b q fun x => { x with next := x.next + 1, ended := ((seq, statusWord 3 q 4 false false 4) :: x.ended).take 1024 })
  else
    let p := if kind == .copy && trig.isNone then
        promiseFor s b ctx x.jobs c (descs.getD 0 0) (descs.getD 1 0) else none
    let j : Job := { seq := seq, kind := kind, cmd := c, descs := descs, state := if trig.isSome then 1 else 0,
                     status := 0, detail := 0, trig := trig, promise := p, missed := false, sid := sid, ctx := ctx,
                     halted := false, progress := 0, stopping := false, mask := 0, parts := [], goal := 0, redo := [],
                     lapsed := false }
    let s1 := updQ s b q fun x => { x with next := x.next + 1, jobs := x.jobs ++ [j] }
    (seq, p, if trig.isNone then tcRegister s1 b c else s1)

/-- R253: one fence entry in each named queue; the sequence in the lowest-numbered one. -/
def enterFence (s : State) (b mask sid ctx : Nat) : Nat × State :=
  let qs := (List.range 3).filter fun q => mask.testBit q
  let parts := qs.map fun q => (q, (queueOf s b q).next % 2 ^ 28)
  let s1 := qs.foldl (fun z q =>
    updQ z b q fun x => { x with
      next := x.next + 1
      jobs := x.jobs ++ [{ seq := x.next % 2 ^ 28, kind := .fence, cmd := 0, descs := [], state := 0, status := 0,
                           detail := 0, trig := none, promise := none, missed := false, sid := sid, ctx := ctx,
                           halted := false, progress := 0, stopping := false, mask := mask, parts := parts, goal := 0,
                           redo := [], lapsed := false }] }) s
  (((parts.head?).map (·.2)).getD 0, s1)

/-! ## Trigger counters evaluate (R356) -/

/-- A triggered entry fires: state 0, its counter registered, its promise given (R351). -/
def fireJob (s : State) (b q : Nat) (j : Job) : State :=
  let ahead := (queueOf s b q).jobs.takeWhile fun x => x.seq != j.seq
  let p := if j.kind == .copy then promiseFor s b j.ctx ahead j.cmd (j.descs.getD 0 0) (j.descs.getD 1 0) else none
  tcRegister (updJob s b q j.seq fun x => { x with state := 0, trig := none, promise := p }) b j.cmd

def fireQueue (s : State) (b i q : Nat) : State :=
  let cnt := (getTc s b i).count
  ((queueOf s b q).jobs.filter fun j => match j.trig with
    | some (k, t) => k == i && tcReached cnt t && j.state == 1
    | none => false).foldl (fun z j => fireJob z b q j) s

/-- R356, R257: every strand and entry that waits for a threshold reached is released, the triggered posts of the block's context among
them. -/
def tcEval (s : State) (b i : Nat) : State :=
  let s0 := fireQueue (fireQueue (fireQueue s b i 0) b i 1) b i 2
  let cnt := (getTc s b i).count
  let s1 := wakeWhere s0
    (fun t => waitsOn t 0x30D (tcHandle b i) && (t.wait.map fun w => tcReached cnt (w.arg.setWidth 48)).getD false)
    fun w => { w with stage := .granted cnt.toNat }
  let fired := s1.plaza.posts.filter fun p => match p.trig with
    | some (k, n, t) => k == b && n == i && tcReached cnt t && ownsBlk s p.ctx b && ctxRuns s p.ctx
    | none => false
  let hit := fun (p : Post) => fired.any fun f => f.key == p.key
  let s2 := updPlaza s1 fun z => { z with
    posts := z.posts.map fun p => if hit p then { p with trig := none, offered := true } else p }
  fired.foldl (fun z p => tcRegister z p.blk p.cmd) s2

/-- R354, R356: an increment; the counter is evaluated once the events of the cycle are over. -/
def tcAdd (s : State) (b i : Nat) (v : BitVec 48) : State := updTc s b i fun t => { t with count := t.count + v, moved := true }
/-- R356: a triggered entry has come, so that its counter is evaluated with the events of this cycle. -/
def tcMoved (s : State) (b i : Nat) : State := updTc s b i fun t => { t with moved := true }
/-- R356: every counter that had an event in the cycle is evaluated once. -/
def evalCounters (s : State) : State :=
  s.hubs.foldl (fun z h => (h.2.tc.filter fun t => t.2.moved).foldl
    (fun y t => tcEval (updTc y h.1 t.1 fun c => { c with moved := false }) h.1 t.1) z) s
/-- R451: the posts that have fired between two states reach their Plazas in ascending post number, whichever counters they waited on. -/
def offerFired (s z : State) : State :=
  let fired := z.plaza.posts.filter fun p => p.trig.isNone && s.plaza.posts.any fun q => q.key == p.key && q.trig.isSome
  { z with agenda := (sortBy (fun x y => x.k ≤ y.k) fired).map (fun p =>
      Act.event (.plazaPostArrival p.gid p.k p.member (collSig p.cmd))) ++ z.agenda }
def settleCounters (s : State) : State := offerFired s (evalCounters s)

/-! ## Ending a job (R254, R346, R354) -/

/-- The entry leaves its queue with a status word. OK and WITHHELD_RELEASED apply the completion actions. -/
def endJob (s : State) (b q : Nat) (j : Job) (status detail : Nat) : State :=
  let w := statusWord detail (codeOfJob j q) 4 j.missed false status
  let s1 := updQ s b q fun x => { x with
    jobs := x.jobs.filter fun y => y.seq != j.seq
    ended := ((j.seq, w) :: x.ended).take 1024 }
  let s2 := if tcEn j.cmd && j.state != 1 then updTc s1 b (tcIdx j.cmd) fun t =>
      { t with jobs := t.jobs - 1, rootJobs := if j.state == 3 then t.rootJobs - 1 else t.rootJobs } else s1
  if status == 0 || status == 2 then
    let s3 := if tcEn j.cmd then tcAdd s2 b (tcIdx j.cmd) (tcInc j.cmd) else s2
    if j.kind == .matrix then arriveFor s3 j.ctx j.cmd else s3
  else s2

/-- R332, R411: the address of the page that a copy's trapinfo names. -/
def pageOf (cls : Nat) (info : Word) : Word := (if cls == 3 then info &&& 0x01FFFFFFFFFFFFFF#64 else info) &&& ~~~ 0xFFF#64
/-- R242, R246, R332: a job halts in state 3 and sends a job trap record. -/
def haltJob (s : State) (b q : Nat) (j : Job) (cls step : Nat) (info : Word) : State :=
  let j1 := { j with state := 3, halted := true, status := if cls == 5 then 3 else 0,
                     detail := if j.kind == .matrix && cls == 5 then step else cls }
  let s1 := updJob s b q j.seq fun _ => j1
  let s2 := if tcEn j.cmd then updTc s1 b (tcIdx j.cmd) fun t => { t with rootJobs := t.rootJobs + 1 } else s1
  queueRecord s2 (some (coreOf j.sid)) j.ctx
    [BitVec.ofNat 64 (2 ^ 60 + cls * 2 ^ 48 + j.ctx * 2 ^ 32 + s.dom.member * 2 ^ 22 + j.sid), info, jobHandle b q j.seq 0,
     statusWord j1.detail q 3 j.missed false j1.status,
     if j.kind == .matrix then BitVec.ofNat 64 step else pageOf cls info, 0, 0, 0]

/-! ## The matrix engine -/

/-- Elements of K in one K step, and groups in one (R240). -/
def kStep (f : Nat) : Nat := if f == 7 then 512 else if f == 6 then 256 else 1024
def groupsPerStep (f : Nat) : Nat := kStep f / 128

/-- R239: the reason a matrix job ends ABORTED before it starts, 0 for none. Of several that hold the first of 3, 1, 4, 5, 6 is
reported: DESIGN CHOICE, log 86. -/
def mxReason (c a b : BitVec 512) : Nat :=
  let op := fld c 0 60 4
  let out := fld c 3 4 4
  let sp := match fld c 0 36 2 with | 1 => 16 | 2 => 32 | 3 => 64 | _ => 0
  let side := fld c 0 35 1
  let grouped := op == 2 || op == 3
  let inBuf := fun (x : Nat) (sel : Nat) => x / 2 ^ 56 % 256 == sel
  let place := fun (d : BitVec 512) (sel : Nat) =>
    inBuf (fld d 0 0 64) sel && (tdLayout d == 0 || inBuf (fld d 1 0 64) sel) &&
    (tdSparse d == 0 || inBuf (fld d 2 0 64) sel)
  if mxReserved c || 4 ≤ op || !(out == 0 || out == 5 || out == 6 || out == 7) then 3
  else if !tdOk a || !tdOk b || (!grouped && (tdGroups a != 0 || tdGroups b != 0)) then 1
  else if tdFormat a != tdFormat b || !(tdFormat a == 6 || tdFormat a == 7 || tdFormat a == 8) ||
      !place a 0xF5 || !place b 0xF4 then 4
  else if tdSparse (if side == 0 then a else b) != sp || tdSparse (if side == 0 then b else a) != 0 then 5
  else if fld c 2 0 24 % 128 != 0 || fld c 2 24 24 % 128 != 0 ||
      (grouped && (tdGroups a == 0 || tdRank b < 3)) then 6
  else 0

/-- R80: the place and the size of the scale of an element. -/
def scaleAt (d : BitVec 512) (c r : Nat) : Option (Nat × Nat) :=
  let base := fld d 1 0 64
  let st := fld d 7 32 32
  match tdLayout d with
  | 1 => some (base + r * st + 4 * (c / 128), 4)
  | 2 => some (base + r / 128 * st + 4 * (c / 128), 4)
  | 3 => some (base + r * st + c / 32, 1)
  | _ => none
/-- R79, R80: where the scale of an element is read: nowhere, for a tensor with none or an element outside the tensor. -/
def scaleRead (d : BitVec 512) (c r : Nat) : Option (Nat × Nat) := if insideTd d c r 0 0 then scaleAt d c r else none
/-- R79, R80: the scale of an element. Outside the tensor, where an element reads as zero, it is 1 and nothing is read: DESIGN CHOICE,
log 85. -/
def scaleOf (s : State) (e : Eng) (d : BitVec 512) (c r : Nat) : Except EngStop FVal :=
  match scaleRead d c r with
  | none => .ok (.fin false 1 0)
  | some (a, n) => (engRead s e a n).map fun v => if n == 1 then e8m0 v else fpValue fp32 v

/-- R82: the group of a row, by the row counts. -/
def groupOf (row : Nat) : Nat → Nat → List Nat → Option Nat
  | _, _, [] => none
  | j, top, n :: ns => if row < top + n then some j else groupOf row (j + 1) (top + n) ns

/-- The engine that works for a job: the block's own for its queue. -/
def engOf (b q : Nat) (j : Job) : Eng :=
  { src := .engine b q, blk := b, sid := j.sid, ctx := j.ctx, agent := if j.kind == .matrix then 2 else 1 }

/-- R58, R79, R240: the products of one group and accumulator, block by block of 32; a pruned position forms none. -/
def groupProducts (s : State) (e : Eng) (j : Job) (k m n : Nat) (slice : Option Nat) : Except EngStop (List (List FVal)) :=
  let a := j.descs.getD 0 0
  let b := j.descs.getD 1 0
  let f := fmtOf (tdFormat a)
  match slice with
  | none => .ok [[], [], [], []]
  | some g => (List.range 4).mapM fun q => do
      let xs ← (List.range 32).mapM fun i => do
        let kk := k + 32 * q + i
        let x ← elemRead s e a kk m 0 0
        let y ← elemRead s e b kk n g 0
        pure (match x, y with
          | some u, some v => some (groupProduct (fpValue f u) (fpValue f v))
          | _, _ => none)
      pure (xs.filterMap id)

/-- The key of accumulator q of a block's C buffer (R240). -/
def accKey (blk q : Nat) : Nat := bufKey 0xF6 blk (10 * q)

/-- R57: one group promoted into one accumulator. For a row in no group, which forms no products (R82), neither elements nor scales are
read: DEDUCED, log 85. -/
def promoteAt (s : State) (e : Eng) (j : Job) (k m n : Nat) (slice : Option Nat) (acc : Nat) : Except EngStop Nat := do
  let a := j.descs.getD 0 0
  let b := j.descs.getD 1 0
  let scale := fun (d : BitVec 512) (c r : Nat) => if slice.isNone then .ok (.fin false 1 0) else scaleOf s e d c r
  let ps ← groupProducts s e j k m n slice
  match tdFormat a with
  | 7 => do
    let x ← scale a k m
    let y ← scale b k n
    pure (promoteFp8 acc ps.flatten x y)
  | 6 => pure (promoteBf16 acc ps.flatten)
  | _ => do
    let sc ← (List.range 4).mapM fun q => do
      let x ← scale a (k + 32 * q) m
      let y ← scale b (k + 32 * q) n
      pure (x, y)
    pure (promoteFp4 acc ((ps.zip sc).map fun (p, x, y) => (p, x, y)))

/-- The row counts of a grouped multiplication (R82). -/
def groupCounts (s : State) (e : Eng) (j : Job) : Except EngStop (List Nat) :=
  let a := j.descs.getD 0 0
  if fld j.cmd 0 60 4 / 2 == 1 then (List.range (tdGroups a)).mapM fun i => engRead s e (fld a 3 0 64 + 4 * i) 4
  else .ok []

/-- The addresses and sizes of what one 128-group of a matrix job reads of some rows of an operand: elements, scales, index lists. -/
def mxTouches (s : State) (e : Eng) (d : BitVec 512) (k : Nat) (rows slices : List Nat) : List (Nat × Nat) :=
  rows.flatMap fun r =>
    let elems := slices.flatMap fun g => (List.range 128).filterMap fun c =>
      match elemAt s e d (k + c) r g 0 with
      | .ok (some (a, _)) => some (a, tdBytes d)
      | _ => none
    elems ++ ([0, 32, 64, 96].filterMap fun c => scaleRead d (k + c) r).eraseDups ++
      (if insideTd d k r 0 0 then (listAt d k r).toList else [])
/-- The addresses and sizes of all reads of one 128-group of a matrix job: of the rows that form products, and of the slices of B that
these use (R82). -/
def mxReads (s : State) (e : Eng) (j : Job) (g : Nat) : List (Nat × Nat) :=
  let c := j.cmd
  let k := fld c 2 0 24 + 128 * g
  let a := j.descs.getD 0 0
  let b := j.descs.getD 1 0
  let grouped := fld c 0 60 4 / 2 == 1
  let counts := if grouped then (List.range (tdGroups a)).map fun i => (fld a 3 0 64 + 4 * i, 4) else []
  match groupCounts s e j with
  | .error _ => counts
  | .ok ns =>
    let at0 := (List.range 128).map fun i => (fld c 1 0 24 + i, if grouped then groupOf (fld c 1 0 24 + i) 0 0 ns else some 0)
    let slices := (at0.filterMap (·.2)).eraseDups
    counts ++ mxTouches s e a k ((at0.filter fun x => x.2.isSome).map (·.1)) [0] ++
      (if slices.isEmpty then [] else mxTouches s e b k ((List.range 256).map fun i => fld c 1 24 24 + i) slices)
/-- R69: the out-of-range reads of one 128-group are captured with agent 2. Which comes first and into how many accesses the
engine divides them are free values. DESIGN CHOICE, log 1. -/
def noteMx (s : State) (e : Eng) (j : Job) (g : Nat) : State :=
  let gone := ((mxReads s e j g).flatMap fun r => (engParts r.1 r.2).map (·.1)).filter (engGone s e)
  if gone.isEmpty then s
  else captureMany { s with fresh := s.fresh + 2 } j.ctx j.sid 2 false
    (BitVec.ofNat 64 (gone.getD (Config.choice s.fresh % gone.length) 0)) (1 + Config.choice (s.fresh + 1) % gone.length)

/-- R240: one 128-group for every accumulator of the tile. -/
def mxGroup (s : State) (e : Eng) (j : Job) (g : Nat) : Except EngStop State := do
  let c := j.cmd
  let t := fld c 0 38 2
  let ovw := fld c 0 60 4 % 2 == 1
  let k := fld c 2 0 24 + 128 * g
  let counts ← groupCounts s e j
  let grouped := fld c 0 60 4 / 2 == 1
  let vals ← (List.range 32768).mapM fun i => do
    let m := fld c 1 0 24 + i / 256
    let n := fld c 1 24 24 + i % 256
    let slice := if grouped then groupOf m 0 0 counts else some 0
    let acc := if ovw && g == 0 then 0 else readLe s.mem (accKey e.blk (t * 32768 + i)) 10
    promoteAt s e j k m n slice acc
  pure { s with mem := (vals.zipIdx).foldl (fun z (v, i) => writeLe z (accKey e.blk (t * 32768 + i)) 10 v) s.mem }

/-- R240, R241: after the last group: an overwrite of no groups writes +0; the tile converts. -/
def mxFinish (s : State) (blk : Nat) (j : Job) : State :=
  let c := j.cmd
  let t := fld c 0 38 2
  let s1 := if fld c 0 60 4 % 2 == 1 && fld c 2 24 24 == 0 then
      { s with mem := clearRange s.mem (accKey blk (t * 32768)) (accKey blk ((t + 1) * 32768)) } else s
  match fld c 3 4 4 with
  | 0 => s1
  | out =>
    let n := elemBits out / 8
    let vals := (List.range 32768).map fun i =>
      (fpToFp a80 (fmtOf out) (rndOf (fld c 3 2 2)) (fld c 3 1 1 == 1) (readLe s1.mem (accKey blk (t * 32768 + i)) 10)).bits
    { s1 with mem := (vals.zipIdx).foldl (fun z (v, i) => writeLe z (accKey blk (t * 32768) + n * i) n v) s1.mem }

/-! ## The copy engines -/

/-- R244, R245: the reason a copy ends ABORTED before it starts, 0 for none; the first of 3, 1, 4: DESIGN CHOICE, log 86. -/
def cpReason (c a b : BitVec 512) : Nat :=
  let f := tdFormat a
  let g := tdFormat b
  let fl := fun (x : Nat) => x == 5 || x == 6 || x == 7
  let src := tdSpace a
  let dst := tdSpace b
  if cpReserved c || fld c 0 60 4 != 0 then 3
  else if !tdOk a || !tdOk b || tdGroups a != 0 || tdGroups b != 0 then 1
  else if !(f == g || ((fl f || f == 9) && fl g)) then 4
  else if f == 8 && (fld c 5 0 24 % 2 != 0 || fld c 1 0 24 % 2 != 0 || fld c 3 0 24 % 2 != 0) then 4
  else if !(src == 0 || src == 0xF0 || src == 0xF1 || src == 0xF6) ||
      !(dst == 0 || dst == 0xF0 || dst == 0xF1 || dst == 0xF4 || dst == 0xF5) then 4
  else 0

/-- R307: an element back from element i of a copy at which a 16-byte beat of its row begins; the row's first element
where the destination is sparse. -/
def beatFirst (j : Job) (i : Nat) : Nat :=
  let c := j.cmd
  let b := j.descs.getD 1 0
  let i0 := i % max 1 (fld c 5 0 24)
  let per := if tdFormat b == 9 then 8 else 128 / elemBits (tdFormat b)
  i - if tdSparse b == 0 then min i0 ((fld c 3 0 24 + i0) % per) else i0
/-- The element a copy moves as its i-th: elements are written in no promised order (R245, R306), so the beat to begin with
and the direction are free values. DESIGN CHOICE, log 29. -/
def copyOrder (j : Job) (n i : Nat) : Nat :=
  let r := beatFirst j (Config.choice (2 * j.seq) % n)
  if Config.choice (2 * j.seq + 1) % 2 = 0 then (r + i) % n else (n + r - 1 - i) % n

/-- R245: the offsets in its four dimensions of a copy's element. -/
def copyAt (c : BitVec 512) (idx : Nat) : Nat × Nat × Nat × Nat :=
  let e0 := max 1 (fld c 5 0 24)
  let e1 := max 1 (fld c 5 24 24)
  let e2 := max 1 (fld c 6 0 24)
  (idx % e0, idx / e0 % e1, idx / (e0 * e1) % e2, idx / (e0 * e1 * e2))
/-- R69: the out-of-range reads of a copy's element: of the index lists, where there are any, and of the source. -/
def noteCopy (s : State) (e : Eng) (j : Job) (idx : Nat) : State :=
  let c := j.cmd
  let a := j.descs.getD 0 0
  let b := j.descs.getD 1 0
  let (i0, i1, i2, i3) := copyAt c idx
  let s1 := noteList s e a (fld c 1 0 24 + i0) (fld c 1 24 24 + i1) (fld c 2 0 24 + i2) (fld c 2 24 24 + i3)
  let s2 := noteList s1 e b (fld c 3 0 24 + i0) (fld c 3 24 24 + i1) (fld c 4 0 24 + i2) (fld c 4 24 24 + i3)
  match elemAt s e a (fld c 1 0 24 + i0) (fld c 1 24 24 + i1) (fld c 2 0 24 + i2) (fld c 2 24 24 + i3) with
  | .ok at0 => noteGone s2 e (tdBytes a) at0
  | .error _ => s2
/-- R245: where a copy's element comes from and where it goes. -/
def copyFrom (s : State) (e : Eng) (j : Job) (idx : Nat) : Except EngStop (Option (Nat × Nat)) :=
  let (i0, i1, i2, i3) := copyAt j.cmd idx
  elemAt s e (j.descs.getD 0 0) (fld j.cmd 1 0 24 + i0) (fld j.cmd 1 24 24 + i1) (fld j.cmd 2 0 24 + i2) (fld j.cmd 2 24 24 + i3)
def copyTo (s : State) (e : Eng) (j : Job) (idx : Nat) : Except EngStop (Option (Nat × Nat)) :=
  let (i0, i1, i2, i3) := copyAt j.cmd idx
  elemAt s e (j.descs.getD 1 0) (fld j.cmd 3 0 24 + i0) (fld j.cmd 3 24 24 + i1) (fld j.cmd 4 0 24 + i2) (fld j.cmd 4 24 24 + i3)
/-- R245, R306: one element of a copy as it is read and converted, with its place; none for one that is dropped. -/
def copyElem (s : State) (e : Eng) (j : Job) (idx : Nat) : Except EngStop (Option EngWrite) :=
  let c := j.cmd
  let a := j.descs.getD 0 0
  let b := j.descs.getD 1 0
  let (i0, i1, i2, i3) := copyAt c idx
  do
    let x ← elemRead s e a (fld c 1 0 24 + i0) (fld c 1 24 24 + i1) (fld c 2 0 24 + i2) (fld c 2 24 24 + i3)
    let v := if tdFormat a == tdFormat b then x.getD 0
      else (fpToFp (fmtOf (tdFormat a)) (fmtOf (tdFormat b)) (rndOf (fld c 0 38 2)) (fld c 0 37 1 == 1) (x.getD 0)).bits
    let at1 ← copyTo s e j idx
    match at1 with
    | none => pure none
    | some (ea, bit) => do
      let w : EngWrite := { ea := ea, bit := bit, bits := elemBits (tdFormat b), v := v }
      engCanWrite s e w
      pure (some w)

/-- R246: an element's bytes are counted into the completion word as it lands or is dropped. An E2M1 pair counts its
byte with its second element. -/
def copyCounted (s : State) (j : Job) (i : Nat) : State :=
  let bits := elemBits (tdFormat (j.descs.getD 1 0))
  if bits == 4 then (if i % 2 == 1 then landFor s j.ctx j.cmd 1 else s) else landFor s j.ctx j.cmd (bits / 8)
/-- R291: the completion word of a command is free to be counted into. -/
def mbFree (s : State) (c : BitVec 512) : Bool := !mbEn c || !homeBusy s (spadKey (mbCore c) (mbOff c)) 16
def wordFree (s : State) (j : Job) : Bool := mbFree s j.cmd

/-- The next elements of a copy: those to do again, else at most n from its progress on. -/
def copyNext (j : Job) (n : Nat) : List Nat :=
  if j.redo.isEmpty then (List.range (min n (copyCount j.cmd - j.progress))).map (· + j.progress) else j.redo
/-- The first of some elements that are written in one group of 16-byte beats (R307): one that is dropped does not part them,
one that lies across two beats joins both. `span` gives the beats of the last one. -/
def beatGroup (s : State) (e : Eng) (j : Job) : Option (Nat × Nat) → List Nat → List Nat
  | _, [] => []
  | span, i :: is =>
    let n := tdBytes (j.descs.getD 1 0)
    match copyTo s e j (copyOrder j (copyCount j.cmd) i) with
    | .ok (some (u, _)) =>
      let here := (u / 16, (u + n - 1) / 16)
      if (span.map fun x => decide (x.1 ≤ here.2 ∧ here.1 ≤ x.2)).getD true then i :: beatGroup s e j (some here) is else []
    | _ => i :: beatGroup s e j span is
/-- The ports that a beat reads and writes through (R15, R276). -/
def beatPorts (s : State) (e : Eng) (j : Job) (is : List Nat) : List Served :=
  (is.flatMap fun i =>
    let x := copyOrder j (copyCount j.cmd) i
    (match copyFrom s e j x with | .ok (some (a, _)) => engPorts s e .read a (tdBytes (j.descs.getD 0 0)) | _ => []) ++
    (match copyTo s e j x with | .ok (some (a, _)) => engPorts s e .write a (tdBytes (j.descs.getD 1 0)) | _ => [])).eraseDups

/-- A beat of a copy is performed whole, or not at all (R306, R307): its elements are read, then written. Bytes that leave the
device are counted when their home acknowledges them. -/
def copyBeat (s : State) (b q : Nat) (j : Job) : Except EngStop State := do
  let e := engOf b q j
  let is := beatGroup s e j none (copyNext j 128)
  let order := fun (i : Nat) => copyOrder j (copyCount j.cmd) i
  let ws ← is.mapM fun i => copyElem s e j (order i)
  let ports := beatPorts s e j is
  if !portsFree s q ports || !wordFree s j then throw .busy
  let some s0 := takeTokens s j.ctx (limitedBytes s e (ws.filterMap id)) | throw .busy
  let s1 := is.foldl (fun z i => noteCopy z e j (order i)) (takePorts (dropReads s0 e) q ports)
  let (s2, ks) := putElems s1 e (ws.filterMap id)
  let out := ((is.zip ws).filter fun x => x.2.any (isFarWrite s e)).map (·.1)
  let s3 := (is.filter fun i => !out.contains i).foldl (fun z i => copyCounted z j i) s2
  let j1 := if j.redo.isEmpty then { j with progress := j.progress + is.length } else { j with redo := j.redo.drop is.length }
  pure (updQ (updJob s3 b q j.seq fun _ => j1) b q fun x => { x with
    sent := x.sent ++ (ks.zipIdx).map fun (k, i) => (k, if i == 0 then out else []) })

/-! ## Running the head of a queue -/

/-- The reason of R239 for a head job, 0 when it may start. -/
def startReason (j : Job) : Nat :=
  let a := j.descs.getD 0 0
  let b := j.descs.getD 1 0
  if j.kind == .matrix then mxReason j.cmd a b else cpReason j.cmd a b

/-- R346: a head job passes its checks and runs, or ends ABORTED with its reason. -/
def startJob (s : State) (b q : Nat) : State :=
  match headJob s b q with
  | some j =>
    if j.state == 0 && j.kind != .fence then
      if startReason j == 0 then updJob s b q j.seq fun x => { x with state := 2 } else endJob s b q j 4 (startReason j)
    else s
  | none => s

/-- Groups and K steps of a matrix job, and the groups of one step. -/
def mxGroups (j : Job) : Nat := fld j.cmd 2 24 24 / 128
def stepSize (j : Job) : Nat := groupsPerStep (tdFormat (j.descs.getD 0 0))
def mxSteps (j : Job) : Nat := (mxGroups j + stepSize j - 1) / stepSize j
def stepGroups (j : Job) (p : Nat) : List Nat := ((List.range (stepSize j)).map (· + p * stepSize j)).filter (· < mxGroups j)
/-- R240: the groups of a step promoted in order, up to one that cannot be read. DESIGN CHOICE, log 17. -/
def mxStep (s : State) (e : Eng) (j : Job) : List Nat → State × Option EngStop
  | [] => (s, none)
  | g :: gs => match mxGroup s e j g with
    | .ok s1 => mxStep s1 e j gs
    | .error x => (s, some x)

/-- R301: writes of the running job that their homes have not acknowledged. -/
def unackedJob (s : State) (b q : Nat) : Bool := !(queueOf s b q).sent.isEmpty
/-- R301: nothing of the job that works at an engine is on its way. -/
def engIdle (s : State) (b q : Nat) : Bool :=
  !unackedJob s b q && !s.net.any fun p => p.src == .engine b q && ctxRuns s p.ctx && p.reply.isNone && !(p.st == .performed && isBack p)
/-- R83, R242, R246: what becomes of a job whose engine cannot go on: it waits, asks, halts, or ends with reason 2 once its
writes are acknowledged. -/
def stopWork (s : State) (b q : Nat) (j : Job) (x : EngStop) : State :=
  match x with
  | .busy => s
  | .ask h a n ea => sendAsk s (engOf b q j) h a n ea
  | .miss va => engMiss s (engOf b q j) va
  | .trap c i => haltJob (dropReads s (engOf b q j)) b q j c (if j.kind == .matrix then j.progress else 0) i
  | .list => if engIdle s b q then endJob (dropReads s (engOf b q j)) b q j 4 2 else s

/-- R240, R242: a K step of every accumulator. A whole step is read before a group of it is promoted, so a fault halts the job
with the step not begun. A broken index list ends it with reason 2, the groups before it promoted (R83). -/
def mxPiece (s : State) (b q : Nat) (j : Job) : State :=
  let e := engOf b q j
  let gs := stepGroups j j.progress
  let s0 := gs.foldl (fun z g => noteMx z e j g) s
  match mxStep s0 e j gs with
  | (s1, none) => updJob (dropReads s1 e) b q j.seq fun x => { x with progress := x.progress + 1 }
  | (s1, some .list) => stopWork s1 b q j .list
  | (_, some (.trap c i)) => stopWork s0 b q j (.trap c i)
  | (_, some x) => stopWork s b q j x

/-- R252: the present piece of a job is done: a K step, or 256 bytes of a copy to the end of a beat. DESIGN CHOICE, log 17. -/
def pieceDone (j : Job) : Bool := j.goal ≤ j.progress && j.redo.isEmpty
/-- Beats of a copy until its piece is done, n at most. -/
def copyPiece (s : State) (b q : Nat) : Nat → State
  | 0 => s
  | n + 1 => match headJob s b q with
    | some j =>
      if j.state != 2 || pieceDone j then s
      else match copyBeat s b q j with
        | .ok s1 => copyPiece s1 b q n
        | .error x => stopWork s b q j x
    | none => s

/-- Pieces until the running head job has done all its work. -/
def workLeft (j : Job) : Nat :=
  if j.kind == .matrix then mxSteps j - j.progress else copyCount j.cmd - j.progress
/-- A new piece begins; none once the job has been cancelled (R252). -/
def nextGoal (j : Job) : Job :=
  if pieceDone j && !j.stopping then
    { j with goal := min (copyCount j.cmd) (j.progress + max 1 (2048 / elemBits (tdFormat (j.descs.getD 1 0)))) }
  else j
/-- One piece of the running head job's work. -/
def workJob (s : State) (b q : Nat) : State :=
  match headJob s b q with
  | some j =>
    if j.state != 2 then s
    else if j.kind == .matrix then (if mxSteps j ≤ j.progress || j.stopping then s else mxPiece s b q j)
    else copyPiece (updJob s b q j.seq nextGoal) b q (2048 / elemBits (tdFormat (j.descs.getD 1 0)) + 128)
  | none => s

/-- R301: the job has done its work, and its reads and writes are home. -/
def workOver (s : State) (b q : Nat) (j : Job) : Bool := workLeft j == 0 && j.redo.isEmpty && engIdle s b q
/-- R258: no strand's event waits at the hub in this cycle, so that an engine's may be performed. -/
def hubQuiet (s : State) (b : Nat) : Bool := !s.net.any fun p => pending s p && p.home == .hub b
/-- R346: a running job that has done its work applies its completion actions and ends. -/
def finishJob (s : State) (b q : Nat) : State :=
  match headJob s b q with
  | some j =>
    if j.state == 2 && !j.stopping && workOver s b q j && hubQuiet s b && wordFree s j then
      endJob (if j.kind == .matrix then mxFinish s b j else s) b q j (if j.halted then 2 else 0) 0
    else s
  | none => s

/-- R304, R386: a write of a collective's result outside the device is acknowledged, or refused. -/
def postAck (s : State) (k : Nat) (bad : Option (Nat × Word)) : State :=
  let f := fun (p : Post) =>
    if p.sent.contains k then { p with sent := p.sent.filter (· != k), failed := p.failed || bad.isSome } else p
  updPlaza s fun z => { z with posts := z.posts.map f }
/-- R246, R301: a write of a job outside the device is acknowledged: its bytes are counted, or it has to be done again once the
job, which halts, is resumed. -/
def queueAck (s : State) (b q k : Nat) (bad : Option (Nat × Word)) : State :=
  let is := (((queueOf s b q).sent.find? fun x => x.1 == k).map (·.2)).getD []
  let s1 := updQ s b q fun x => { x with sent := x.sent.filter fun y => y.1 != k }
  match headJob s1 b q, bad with
  | some j, none => is.foldl (fun z i => copyCounted z j i) s1
  | some j, some (c, i) =>
    let s2 := updJob s1 b q j.seq fun x => { x with redo := x.redo ++ is }
    if j.state == 2 then haltJob s2 b q { j with redo := j.redo ++ is } c 0 i else s2
  | none, _ => s1
/-- Queue number 3 stands for the collectives of a block, or of the device. -/
def engineAck (s : State) (b q k : Nat) (bad : Option (Nat × Word)) : State :=
  if q == 3 then postAck s k bad else queueAck s b q k bad

/-- R252, R301: cancel or resume a job by its handle. One whose work is over has ended first; one at work stops after its
present piece, and ends when what it has done is acknowledged. -/
def cancelJob (s : State) (h : Word) : State :=
  let b := jhBlk h
  let q := jhQueue h
  match findJob s h with
  | none => s
  | some j =>
    if j.kind == .fence then
      j.parts.foldl (fun z (p, sq) => match (queueOf z b p).jobs.find? fun x => x.seq == sq with
        | some x => endJob z b p x 4 7
        | none => z) s
    else if j.state == 2 && !j.stopping && workOver s b q j then finishJob s b q
    else if j.state == 2 || (j.state == 3 && !engIdle s b q) then updJob s b q j.seq fun x => { x with stopping := true }
    else endJob s b q j 4 7
def resumeJob (s : State) (h : Word) : State :=
  let b := jhBlk h
  let q := jhQueue h
  match findJob s h with
  | some j =>
    if j.state == 3 then
      let s1 := updJob s b q j.seq fun x => { x with state := 2, status := 0, detail := 0 }
      if tcEn j.cmd then updTc s1 b (tcIdx j.cmd) fun t => { t with rootJobs := t.rootJobs - 1 } else s1
    else s
  | none => s

end Sys2Proof.Machine
end

