-- ==== Sys2Proof/Machine/Ready.lean ====
section
/-! DEFINITION. Ready and Withheld (R126, R210, R314), joining and leaving the cordon (R316, R319), and what a strand's
end needs (R151). -/

namespace Sys2Proof.Machine
open Sys2Proof

/-! ## Groups and posts, as a waiter sees them -/

def findGroup (s : State) (ctx gid : Nat) : Option Group := s.plaza.groups.find? fun g => g.gid == gid && g.ctx == ctx
/-- R262: the entries of the strand's block and of its device. -/
def blockEntry (s : State) (sid : Nat) : Nat := s.dom.member * 2 ^ 16 + blkOf sid % 256
def deviceEntry (s : State) : Nat := 2 ^ 31 + s.dom.member * 2 ^ 16
def indexOf (g : Group) (e : Nat) : Option Nat := g.entries.findIdx? fun x => x == e
/-- R262, R265: the member that a strand owns. Of several (its block's and its device's entry) it is the first in the order in
which they were taken; the spec names none. DESIGN CHOICE, log 87. -/
def ownedBy (g : Group) (uid : Nat) : Option Nat := (g.owners.find? fun o => o.2 == uid).map (·.1)
/-- R263, R265: the issuer's member: the one it owns, else that of its block, else that of its device. -/
def memberOf (s : State) (g : Group) (sid uid : Nat) : Option Nat :=
  match ownedBy g uid with
  | some m => some m
  | none => match indexOf g (blockEntry s sid) with
    | some m => some m
    | none => indexOf g (deviceEntry s)
def findPost (s : State) (gid k m : Nat) : Option Post :=
  s.plaza.posts.find? fun p => p.gid == gid && p.k == k && p.member == m
/-- R350: the outcome of an ended collective; an older one reads OK. -/
def findEnded (s : State) (gid k m : Nat) : Option EndedPost :=
  s.plaza.ended.find? fun e => e.gid == gid && e.k == k && e.member == m
def endedStatus (s : State) (gid k m : Nat) : Nat := ((findEnded s gid k m).map (·.status)).getD 0
def collGid (h : Word) : Nat := h.toNat / 2 ^ 32 % 2 ^ 16
def collK (h : Word) : Nat := h.toNat % 2 ^ 32
/-- The posted member that a strand's handle names, while it has not ended. -/
def collPost (s : State) (sid : Nat) (t : Strand) (h : Word) : Option Post :=
  (findGroup s t.ctx (collGid h)).bind fun g => (memberOf s g sid t.uid).bind fun m => findPost s (collGid h) (collK h) m
def findPartial (s : State) (gid k : Nat) : Option Partial := s.plaza.partials.find? fun p => p.gid == gid && p.k == k
/-- R386: the members whose contributions are merged. -/
def mergedOf (s : State) (gid k : Nat) : List Nat := ((findPartial s gid k).map fun p => p.parts.map (·.1)).getD []
/-- R386: in a broadcast only the root contributes. -/
def contributes (c : BitVec 512) (m : Nat) : Bool := (collSig c).op != 3 || (collSig c).root == m
/-- R314: some member's owner is in the cordon and its contribution is not merged. -/
def collHeld (s : State) (gid k : Nat) (c : BitVec 512) : Bool :=
  match s.plaza.groups.find? fun g => g.gid == gid with
  | some g => g.marked.any fun m => contributes c m && !(mergedOf s gid k).contains m
  | none => false
/-- R387: the collectives of a group that have started are withheld, or go on. -/
def restate (s : State) (gid : Nat) : State :=
  let now := fun (p : Post) =>
    if p.gid != gid || !(p.state == 2 || p.state == 4) then p
    else if collHeld s gid p.k p.cmd then { p with state := 4, withheld := true } else { p with state := 2 }
  updPlaza s fun z => { z with posts := z.posts.map now }

/-- R268: a tree channel of a context in a District. -/
def treeKey (ctx d c : Nat) : Nat := ctx * 32 + d * 8 + c

/-! ## Inbox -/

/-- R215, R217: the oldest message that has arrived and is not taken. -/
def inboxOldest (c : Core) : Option (Nat × InEntry) :=
  (sortBy (fun a b => a.2.order ≤ b.2.order) (c.inbox.filter fun e => e.2.full && !e.2.taken)).head?
/-- R165: the oldest untaken unit. -/
def unitOldest (c : Core) : Option (Nat × UnitEntry) :=
  (sortBy (fun a b => a.2.order ≤ b.2.order) (c.unitInbox.filter fun e => !e.2.taken)).head?

/-- R212, R217: the source of a RECV at an own-scratchpad offset. -/
def isChannel (s : State) (core o : Nat) : Bool := (chanReg (getCore s core) o).isSome

/-- R284, R290: a packet of a core's port that a strand's access to its home has to wait for. -/
def holdsPort (s : State) (core uid : Nat) (p : Pkt) : Bool :=
  p.src == .core core && !isNotice p.body &&
    (blocksPair s p || (p.uid == uid && (p.st == .turned || p.st == .flying || holds p)))
/-- R284, R290: nothing of the core's own port is still on its way to a home, and no release of the strand to it whose outcome is not
known, so that an access there comes after all that left before. -/
def portClear (s : State) (core uid : Nat) (h : Home) : Bool := !s.net.any fun p => p.home == h && holdsPort s core uid p
/-- R201, R209: a posted store: a plain store's post, or a release's. -/
def isPost : Body → Bool
  | .store _ _ _ _ => true
  | .regStore _ _ _ _ => true
  | .message _ _ _ => true
  | .chanMsg _ _ _ _ _ => true
  | .ringProd _ _ => true
  | .mb _ _ _ _ => true
  | _ => false
/-- R201: the strand holds 32 posted stores that are not acknowledged. -/
def storesFull (s : State) (t : Strand) : Bool := 32 ≤ ((unacked s t.uid).filter fun p => isPost p.body).length

/-- The wait of a `drain` stage is over (R151, R171, R201, R207, R226, R284); what found a port in use tries again (R15, R276). -/
def drained (s : State) (sid : Nat) (t : Strand) : Nat → Bool
  | 0 => !owesAck s t.uid sid .core
  | 1 => !owesAck s t.uid sid .blk
  | 2 => !owesAck s t.uid sid .dst
  | 3 => !owesAck s t.uid sid .dev
  | 4 => !owesAck s t.uid sid .dom
  | 5 => t.copies.isEmpty
  | 8 => !(unacked s t.uid).any fun p => match p.body with | .hb _ _ _ _ => true | _ => false
  | 7 => !s.net.any (holdsPort s (coreOf sid) t.uid)
  | 9 => true
  | _ => !storesFull s t

/-- R227, R229, R210, R249, R256, R266: whether a tested object is ready for the wait it is recorded for. -/
def objReady (s : State) (sid : Nat) (t : Strand) (w : Wait) : Bool :=
  let core := coreOf sid
  let off := handleOff w.obj
  match w.form with
  | 0x2C3 => (getHb s (handleBlk w.obj) (handleIdx w.obj)).phase != w.arg.setWidth 16
  | 0x2C2 => (getHb s (handleBlk w.obj) (handleIdx w.obj)).phase != w.arg.setWidth 16
  | 0x2C9 => mbPhase s (handleCore w.obj) off != (w.arg &&& 1).toNat
  | 0x216 => if handleKind w.obj == 3 then chPresent s core off || chAtEnd s core off
      else (inboxOldest (getCore s core)).isSome
  | 0x2CD => rgPresent s core off || rgAtEnd s core off
  | 0x30D => tcReached (getTc s (handleBlk w.obj) (handleIdx w.obj)).count (w.arg.setWidth 48)
  | 0x306 => jobState s w.obj == 4
  | 0x307 => jobState s w.obj == 4
  | 0x309 => jobState s w.obj == 4
  | 0x0CF => (unitOldest (getCore s core)).isSome
  | 0x386 => (collPost s sid t w.obj).isNone
  | 0x388 => !((mapGet TreeRound.init s.trees (treeKey t.ctx (distOf sid) ((w.opnds.map fun o => o.b.toNat / 2 ^ 8 % 8).getD 0))).parts.any
      fun p => p.1 == blkOf sid)
  | _ => false

/-- R314: whether a tested object is withheld. -/
def objWithheld (s : State) (sid : Nat) (t : Strand) (w : Wait) : Bool :=
  let core := coreOf sid
  match w.form with
  | 0x2C3 => hbWithheld (getHb s (handleBlk w.obj) (handleIdx w.obj))
  | 0x2C9 => tableWithheld (getCore s (handleCore w.obj)) w.obj ||
      s.hubs.any fun h => (h.2.cq0.jobs ++ h.2.cq1.jobs).any fun j =>
        j.state == 3 && mbEn j.cmd && mbCore j.cmd == handleCore w.obj && mbOff j.cmd == handleOff w.obj
  | 0x216 => handleKind w.obj == 3 && chWithheld s core (handleOff w.obj)
  | 0x2CD => rgWithheld s core (handleOff w.obj)
  | 0x30D =>
    let b := handleBlk w.obj
    let i := handleIdx w.obj
    let c := getTc s b i
    !tcReached c.count (w.arg.setWidth 48) && (c.cordon != 0 || c.rootJobs != 0)
  | 0x306 => jobWithheld s w.obj
  | 0x307 => jobWithheld s w.obj
  | 0x386 => ((collPost s sid t w.obj).map fun p => collHeld s p.gid p.k p.cmd).getD false
  | _ => false

/-- Whether a parked strand may take up its instruction again. -/
def waitReady (s : State) (sid : Nat) (t : Strand) (w : Wait) : Bool :=
  match w.stage with
  | .sync => w.syncs.all fun r => fullOf t r
  | .test => objReady s sid t w || w.left == some 0 ||
      (w.form == 0x307 && (match findJob s w.obj with
        | some j => !j.lapsed && j.promise.any fun p => p < s.cycle && j.state != 3 && !j.missed
        | none => true))
  | .granted _ => true
  | .refused _ _ => true
  | .drain n => drained s sid t n
  | .copyOf r => !copying t r
  | .busy a n => !reserved s a n
  | .asked _ => false
  | .fetch => false
  | .tlb k _ _ => !(s.misses.any fun m => m.k == k)

/-- Whether a parked strand's object is withheld and not ready (R126, R210, R315). -/
def waitWithheld (s : State) (sid : Nat) (t : Strand) (w : Wait) : Bool :=
  match w.stage with
  | .sync => (w.syncs.all fun r => fullOf t r || regWithheld s sid t r) && w.syncs.any fun r => regWithheld s sid t r
  | .test => !objReady s sid t w && objWithheld s sid t w
  | _ => false

/-- R316: a strand joins the cordon: its slot is marked, and its own debts are noticed. -/
def joinCordon (s : State) (sid : Nat) : State :=
  let sl := getSlot s sid
  let hs := noticeHandles sl.s
  let t := { sl.s with noticed := sl.s.noticed ++ hs, wait := sl.s.wait.map fun w => { w with rel := true } }
  sendNotices (setSlot s sid { sl with st := .member, s := t }) (coreOf sid) t.uid sid t.ctx false hs

/-- Every strand parked on an object that has become withheld joins the cordon. -/
def settleCordon (s : State) : State :=
  (allSlots s).foldl (fun z e =>
    match (strandAt z e.1).wait with
    | some w => if (getSlot z e.1).st == .parked && waitWithheld z e.1 (strandAt z e.1) w then joinCordon z e.1 else z
    | none => z) s

/-- R398: a deadline has expired in the cordon, or in the cycle in which the strand leaves it. -/
def expired (s : State) (t : Strand) : Bool := t.dlPending || (t.dlArmed && decide (t.dline.toNat ≤ s.dtime))
/-- R332: a kind-2 record: the deadline, `dtime` of the release, the halt image. -/
def deadlineReport (s : State) (sid : Nat) : State :=
  let t := strandAt s sid
  let s1 := updStrand s sid fun t =>
    { t with dlValid := true, dlArmed := false, dlRelease := BitVec.ofNat 48 s.dtime, dlPending := false }
  queueRecord s1 (some (coreOf sid)) t.ctx
    [BitVec.ofNat 64 (2 * 2 ^ 60 + 7 * 2 ^ 48 + t.ctx * 2 ^ 32 + s.dom.member * 2 ^ 22 + sid), t.dline,
     BitVec.ofNat 64 s.dtime, BitVec.ofNat 64 (haltImage s t.ctx sid), 0, 0, 0, 0]

/-- R319, R398: a member leaves the cordon once its object is no longer withheld. -/
def leaveCordon (s : State) (sid : Nat) : State :=
  let sl := getSlot s sid
  let t := sl.s
  match t.wait with
  | some w =>
    if sl.st == .member && !waitWithheld s sid t w then
      let u := { t with noticed := [] }
      let now := waitReady s sid t w
      let s1 := setSlot s sid { sl with st := if now then .ready else .parked, s := u, moved := if now then s.cycle else sl.moved }
      let withdrawn := s.cores.flatMap fun c => (c.2.refused.filter fun r => r.2 == t.uid).map (·.1)
      let s2 := { s1 with cores := s1.cores.map fun c =>
        (c.1, { c.2 with refused := c.2.refused.filter fun r => r.2 != t.uid }) }
      let s3 := sendNotices s2 (coreOf sid) t.uid sid t.ctx true (t.noticed.filter fun h => !withdrawn.contains h)
      if expired s t then deadlineReport s3 sid else s3
    else s
  | none => s

/-! ## Units and the end of a strand -/

/-- R372, R370: a unit retires: its launch counts it, and its unit-inbox entry is free. -/
def retireUnit (s : State) (core : Nat) (u : UnitRec) : State :=
  let e := u.launch % 2048
  let l := mapGet Launch.init s.launches e
  let s1 := if l.live && u.launch / 2048 % 2 ^ 37 == l.gen then
    { s with launches := mapPut s.launches e { l with retired := l.retired + 1 } } else s
  updCore s1 core fun c => { c with unitInbox := c.unitInbox.filter fun x => !(x.2.unit.id == u.id && x.2.unit.launch == u.launch) }

/-- R291, R358: the header of a ring, one of whose slots a strand holds, that an atomic has reserved. -/
def ringHeldBy (s : State) (core uid : Nat) : Option Nat :=
  ((getCore s core).rings.find? fun r => (rgHeld s core r.off uid).isSome && reserved s (spadKey core r.off) 64).map (·.off)

/-- R151 steps 2 to 4, once the strand has drained: it halts if it is the slot-zero strand or has debts, else its units
retire, its ring slots are freed (R358), its deadline is disarmed and its slot is ended. -/
def endStrandNow (s : State) (sid : Nat) (word : BitVec 96) : State :=
  let sl := getSlot s sid
  let t := sl.s
  if slotOf sid == 0 then takeTrap s sid 9 0x04000000 true word
  else if !t.debts.isEmpty then takeTrap s sid 9 0x02000000 true word
  else
    let core := coreOf sid
    let s1 := t.units.foldl (fun z u => retireUnit z core u) s
    let s2 := (getCore s1 core).rings.foldl (fun z r => rgDrop (rgFree z core r.off t.uid) core r.off) s1
    setSlot s2 sid { sl with st := .ended, s := { disarm t with units := [], wait := none }, moved := s.cycle }

end Sys2Proof.Machine
end

