-- ==== Sys2Proof/Machine/Answer.lean ====
section
/-! DEFINITION. How an answer reaches the strand that asked (R201): it completes the parked instruction, lands in the saved
image of a strand that was halted, or sends the strand into a trap. -/

namespace Sys2Proof.Machine
open Sys2Proof

/-- A strand is parked on the answer to request k: it asked with that number or, where an instruction makes several
requests, with an earlier one. Numbers of a later instruction are higher. -/
def asksFor (t : Strand) (k : Nat) : Bool :=
  match t.wait with
  | some w => (match w.stage with | .asked j => j ≤ k | _ => false)
  | none => false

/-- Change a strand that is parked, evicted or saved while it waits for an answer, and make it ready. -/
def resume (s : State) (uid : Nat) (f : Strand → Strand) : State := wake (updUid s uid f) uid

/-- A strand's register takes the value, if there is one. -/
def landOpt (r : Option RegRef) (mask : BitVec 16) (v : Vec) (t : Strand) : Strand :=
  match r with
  | some x => landIn x mask v t
  | none => t

/-- An instruction that was parked on an answer completes: its result is written, the end check is made, and the strand is
ready; an evicted or saved strand's image follows (R334). A strand that no longer waits (it was stopped) gets the value in its saved
image (R201). -/
def answer (s : State) (uid k : Nat) (r : Option RegRef) (mask : BitVec 16) (v : Vec) : State :=
  match strandOf s uid with
  | none => s
  | some t =>
    let f := fun (u : Strand) => endWait (endCheck (landOpt r mask v u))
    if asksFor t k then resume (stepImages s uid f) uid f
    else match r with
      | some x => landReg s uid x mask v
      | none => s

/-- An answer that traps at the strand's next rotation. -/
def answerTrap (s : State) (uid k cls : Nat) (info : Word) : State :=
  match strandOf s uid with
  | none => s
  | some t =>
    if asksFor t k then resume s uid fun t => { t with wait := t.wait.map fun w => { w with stage := .refused cls info } } else s

/-- A grant that lets the instruction go on from its next rotation. -/
def answerGrant (s : State) (uid k n : Nat) : State :=
  match strandOf s uid with
  | none => s
  | some t =>
    if asksFor t k then resume s uid fun t => { t with wait := t.wait.map fun w => { w with stage := .granted n } } else s

/-- The result register of an instruction's field d; none where the field is absent. -/
def destOf (x : Opd) : Option RegRef :=
  match x with
  | .reg r => (match r.cls with | .g => some (.g r.idx.toNat) | .v => some (.v r.idx.toNat) | _ => none)
  | _ => none

/-- R342: the core at which a packet of a core counts as received: its home's core, else its own. -/
def recvCore (p : Pkt) : Option Nat := (srcCore p.src).map fun c => match p.home with | .core h => h | _ => c
/-- R342: whether a packet is only now received: at a home of this device when it arrives, at another member's when its
answer has come. -/
def isFresh (p : Pkt) : Bool :=
  match p.home with | .member _ => p.st == .waiting | _ => p.st == .flying || p.st == .turned
/-- R342: whether a packet counts: a core's or an engine's, and no notice; or what serves another member's request, from its acceptance on.
DEDUCED, log 38. -/
def isCounted (p : Pkt) : Bool := !isNotice p.body && match p.src with
  | .core _ => true
  | .own _ => true
  | .engine _ _ => true
  | .ichg => p.reply.isSome
  | .host => false
/-- R342: a packet is counted as received, once. -/
def countRecv (s : State) (p : Pkt) : State :=
  if !isFresh p || !isCounted p then s
  else match recvCore p with
    | some c =>
      let f := fun (x : Core) => { x with recv := countOne x.recv p.colour }
      if (getCtx s p.ctx).saved.isSome then updSavedCore s p.ctx c f else updCore s c f
    | none => updCtx s p.ctx fun x => { x with recv := countOne x.recv p.colour }

/-- A packet has been performed: its acknowledgement or answer starts on its way back (R424). -/
def toSource (p : Pkt) : Pkt := { p with st := .performed, route := wayBack p, via := localIn }
/-- A packet has been performed: it waits for its acknowledgement or the landing of its answer. -/
def performed (s : State) (p : Pkt) (ans : BitVec 512) : State :=
  countRecv (updPkt s p.k fun q => { toSource q with ans := ans }) p

/-- A packet that its home cannot perform yet waits there in the order of arrival. -/
def queuePkt (s : State) (p : Pkt) : State :=
  let s1 := match p.home with | .member _ => s | _ => countRecv s p
  { s1 with net := s1.net.filter (fun q => q.k != p.k) ++ [{ p with st := .waiting }] }

/-- A waiting packet that nothing waits in front of, among those `f` picks (R215, R219, R220, R359). -/
def oldestWaiting (s : State) (f : Pkt → Bool) : Option Pkt := s.net.find? fun p => p.st == .waiting && f p

end Sys2Proof.Machine
end

