-- ==== Sys2Proof/Machine/Launch.lean ====
section
/-! DEFINITION. Launches, units and the levels above them (R360-R377): acceptance, holding, release, placement, retirement
and cancel. -/

namespace Sys2Proof.Machine
open Sys2Proof

/-! ## Fields of a launch record (R362) -/

def lw (ws : List Word) (i lo n : Nat) : Nat := (ws.getD i 0).toNat / 2 ^ lo % 2 ^ n
def lrGraph (ws : List Word) : Nat := lw ws 3 16 10
def lrPhase (ws : List Word) : Nat := lw ws 3 32 8
def lrTjob (ws : List Word) : Nat := lw ws 3 40 8
def lrCount (ws : List Word) : Nat := lw ws 2 0 24
/-- R362: the producer reserve, 0 meaning 4. -/
def lrReserve (ws : List Word) : Nat := let r := lw ws 4 8 4; if r == 0 then 4 else r
def lrRadius (ws : List Word) : Nat := lw ws 4 5 3
def lrHint (ws : List Word) : Nat := lw ws 4 0 2
/-- The launch ids of the dependences that are present. -/
def lrDeps (ws : List Word) : List Nat :=
  (List.range 6).filterMap fun i => if lw ws (8 + i) 63 1 == 1 then some (lw ws (8 + i) 0 48) else none

def getLaunch (s : State) (e : Nat) : Launch := mapGet Launch.init s.launches e
def updLaunch (s : State) (e : Nat) (f : Launch → Launch) : State :=
  { s with launches := mapPut s.launches e (f (getLaunch s e)) }
def launchId (l : Launch) (e : Nat) : Nat := l.gen * 2048 + e

def getGraph (x : Ctx) (n : Nat) : Level := mapGet Level.init x.graphs n
def getPhase (x : Ctx) (n : Nat) : Level := mapGet Level.init x.phases n
def getTjob (x : Ctx) (n : Nat) : Level := mapGet Level.init x.tjobs n
def openLevel (l : Level) : Bool := l.state == 1 || l.state == 2 || l.state == 4

/-! ## Acceptance (R361, R364) -/

/-- R364: a reserved field is set, or entry_pc, units, reserve or hint_mode breaks the layout. -/
def lrMalformed (ws : List Word) (host : Bool) : Bool :=
  let pcSel := lw ws 0 56 8
  let unSel := lw ws 1 56 8
  2 ≤ pcSel || lw ws 0 0 4 != 0 || 2 ≤ unSel || lw ws 1 0 6 != 0 || lw ws 2 24 40 != 0 || lw ws 3 48 16 != 0 ||
  lw ws 3 26 6 != 0 || lw ws 3 3 13 != 0 || lw ws 4 12 52 != 0 || lw ws 4 2 3 != 0 ||
  (1 ≤ lw ws 4 8 4 && lw ws 4 8 4 ≤ 3) || lw ws 4 8 4 == 15 || lrHint ws == 3 || lw ws 5 31 33 != 0 ||
  ((List.range 6).any fun i => lw ws (8 + i) 48 15 != 0) || lw ws 14 0 64 != 0 || lw ws 15 0 64 != 0 ||
  ((List.range 8).any fun i => lw ws (23 + i) 0 64 != 0) || (host && lw ws 31 0 63 != 0)

/-- R364: a dependence that refuses the record. -/
def depBad (s : State) (ctx id : Nat) : Bool :=
  let l := getLaunch s (id % 2048)
  l.gen < id / 2048 || (id / 2048 == l.gen && l.gen != 0 && l.ctx != ctx)

/-- R364: the record's levels conflict with those that are open or closed. -/
def levelBad (x : Ctx) (ws : List Word) : Bool :=
  let g := getGraph x (lrGraph ws)
  let p := getPhase x (lrPhase ws)
  let t := getTjob x (lrTjob ws)
  (openLevel g && (g.closed || g.up != lrPhase ws || p.up != lrTjob ws)) ||
  (openLevel p && (p.closed || p.up != lrTjob ws)) || (openLevel t && t.closed)

/-- R361: the entry a launch takes: a free one, else the one that ended earliest. -/
def launchEntry (s : State) : Option Nat :=
  match (List.range 2048).find? fun e => (getLaunch s e).gen == 0 with
  | some e => some e
  | none => ((sortBy (fun a b => a.2.order ≤ b.2.order) (s.launches.filter fun e => !e.2.live)).head?).map (·.1)

/-- R373: a level that a launch closes counts as running. -/
def closeLevel (l : Level) (close : Bool) : Level :=
  if close then { l with closed := true, state := if l.state == 1 then 2 else l.state } else l
/-- Open a level, or count one more in an open one. -/
def enterLevel (l : Level) (up : Nat) (close : Bool) : Level :=
  if openLevel l then closeLevel { l with expected := l.expected + 1 } close
  else { state := if close then 2 else 1, status := 0, expected := 1, retired := 0, closed := close, bad := false, up := up }

/-- R366: a phase is open, and the tenant job's. -/
def phaseOpen (x : Ctx) (t n : Nat) : Bool := openLevel (getPhase x n) && (getPhase x n).up == t
/-- R360, R366, R372: the graph, phase and tenant job a launch counts in; its phase becomes the current one if the tenant job
opens with it, or if the current one has completed with no launch held. -/
def enterLevels (x : Ctx) (ws : List Word) : Ctx :=
  let g := getGraph x (lrGraph ws)
  let p := getPhase x (lrPhase ws)
  let t := getTjob x (lrTjob ws)
  let g1 := enterLevel g (lrPhase ws) (lw ws 3 0 1 == 1)
  let p1 := if openLevel g then closeLevel p (lw ws 3 1 1 == 1) else enterLevel p (lrTjob ws) (lw ws 3 1 1 == 1)
  let t1 := if openLevel p then closeLevel t (lw ws 3 2 1 == 1) else enterLevel t 0 (lw ws 3 2 1 == 1)
  { x with
    graphs := mapPut x.graphs (lrGraph ws) g1
    phases := mapPut x.phases (lrPhase ws) p1
    tjobs := mapPut x.tjobs (lrTjob ws) t1
    curPhase := if openLevel t && (mapFind x.curPhase (lrTjob ws)).any (phaseOpen x (lrTjob ws)) then x.curPhase else mapPut x.curPhase (lrTjob ws) (lrPhase ws) }

/-- The launch a dependence still names in its entry. -/
def depLaunch (s : State) (id : Nat) : Option Launch :=
  let l := getLaunch s (id % 2048)
  if l.gen == id / 2048 && l.gen != 0 then some l else none
/-- R371, R374 step 4: a dependence has not completed. -/
def depOpen (s : State) (id : Nat) : Bool := match depLaunch s id with | some l => l.live | none => false
def depAborted (s : State) (id : Nat) : Bool :=
  match depLaunch s id with | some l => l.state == 3 && l.status == 4 | none => false

/-- R361, R364: submit a record: status, launch id, and the state. A dependence that ended ABORTED makes the launch end
ABORTED without placing a unit. -/
def acceptLaunch (s : State) (ctx : Nat) (ws : List Word) (host : Bool) : Nat × Nat × State :=
  if lrMalformed ws host || (lrDeps ws).any (depBad s ctx) || levelBad (getCtx s ctx) ws then (4, 0, s)
  else match launchEntry s with
    | none => (6, 0, s)
    | some e =>
      let gen := ((getLaunch s e).gen + 1) % 2 ^ 37
      let dead := (lrDeps ws).any (depAborted s)
      let n := lrCount ws
      let l : Launch := { gen := gen, live := true, ctx := ctx, words := ws, state := if dead then 4 else 0, status := 0,
                          expected := n, retired := if dead then n else 0, sentUnits := if dead then n else 0,
                          order := s.nextId, dropped := [], ending := none }
      (0, gen * 2048 + e, updCtx { updLaunch s e (fun _ => l) with nextId := s.nextId + 1 } ctx fun x => enterLevels x ws)

/-! ## Holding (R366) -/

def held (s : State) (l : Launch) : Bool :=
  let x := getCtx s l.ctx
  ((lrDeps l.words).any fun id => match depLaunch s id with | some d => d.state == 0 && d.live | none => false) ||
  (mapFind x.curPhase (lrTjob l.words)).any (fun p => p != lrPhase l.words) ||
  ((blocksOf s l.ctx).any fun b => (getHub s b).scrub)

/-- The launches that some launches depend on, directly or through others, as long as their entries name them. -/
def depClosure (s : State) : Nat → List Nat → List Nat
  | 0, ids => ids
  | k + 1, ids =>
    let more := ids.flatMap fun id => match depLaunch s id with | some l => lrDeps l.words | none => []
    if more.all ids.contains then ids else depClosure s k (ids ++ more).eraseDups
/-- The producers of a launch (R367, R369). -/
def producersOf (s : State) (id : Nat) : List Nat :=
  match depLaunch s id with | some l => depClosure s 2048 (lrDeps l.words) | none => []

/-- R371: the lowest slot a unit of a launch may use. -/
def lowSlot (s : State) (id : Nat) : Nat :=
  match depLaunch s id with
  | none => 1
  | some l =>
    ((lrDeps l.words).filter (depOpen s)).foldl (fun m d =>
      match depLaunch s d with | some k => max m (lrReserve k.words + 1) | none => m) 1

/-! ## Placement (R368-R370) -/

def corner (d : Nat) : Nat := d * 64 + (match d with | 0 => 63 | 1 => 56 | 2 => 7 | _ => 0)
def hops (a b : Nat) : Nat :=
  let dif := fun (x y : Nat) => if x < y then y - x else x - y
  dif (a % 64 / 8) (b % 64 / 8) + dif (a % 8) (b % 8)

/-- The spread choice for unit i. -/
def spreadBlk (s : State) (ctx i : Nat) : Nat :=
  let bs := blocksOf s ctx
  bs.getD (i % max 1 bs.length) 0
/-- R368: a hint outside the partition moves to the nearest partition block of its District. -/
def nearestBlk (s : State) (ctx b i : Nat) : Nat :=
  if ownsBlk s ctx b then b
  else
    let bs := (blocksOf s ctx).filter fun x => x / 64 == b / 64
    match (sortBy (fun x y => hops x b < hops y b || (hops x b == hops y b && x ≤ y)) bs).head? with
    | some x => x
    | none => spreadBlk s ctx i
/-- R368: the hint block of a unit. -/
def hintBlk (s : State) (l : Launch) (u : UnitRec) (i : Nat) : Nat :=
  let w := (u.words.getD 0 0).toNat
  match lrHint l.words with
  | 1 => nearestBlk s l.ctx (w / 2 ^ 22 % 256) i
  | 2 =>
    if w / 2 ^ 56 == 0xF1 then nearestBlk s l.ctx (w / 2 ^ 22 % 256) i
    else if w / 2 ^ 57 == 0 then
      match translateNow s 300 l.ctx .read w with
      | .ok pa => (match physOf s pa with
        | .dev d => nearestBlk s l.ctx (quayBlk d (quayOf (localPa pa))) i
        | _ => spreadBlk s l.ctx i)
      | _ => spreadBlk s l.ctx i
    else spreadBlk s l.ctx i
  | _ => spreadBlk s l.ctx i

/-- R370: whether a core takes a unit. -/
def coreTakes (s : State) (core launch : Nat) : Bool :=
  let c := getCore s core
  let lo := lowSlot s launch
  let empties := ((List.range 16).filter fun n => lo ≤ n && (slotIn c n).st == .empty).length
  c.unitInbox.length < 16 && (c.unitInbox.filter fun e => !e.2.taken).length < empties
/-- The context of the launch that a unit is counted in. -/
def unitCtx (s : State) (u : UnitRec) : Nat := ((depLaunch s u.launch).map (·.ctx)).getD 0
/-- R370: the core of a partition block that takes a unit; a unit for a scratchpad goes to its home core only. A block whose context
is switched out takes none. -/
def takerOf (s : State) (b : Nat) (f : UnitFlight) : Option Nat :=
  if ownsBlk s (unitCtx s f.unit) b && (getCtx s (unitCtx s f.unit)).st != .switchedOut then
    (coresOfBlk b).find? fun c => (f.core.isNone || f.core == some c) && coreTakes s c f.unit.launch
  else none
def giveUnit (s : State) (core : Nat) (u : UnitRec) : State :=
  updCore { s with nextId := s.nextId + 1 } core fun c =>
    match (List.range 16).find? fun n => (mapFind c.unitInbox n).isNone with
    | some n => { c with unitInbox := mapPut c.unitInbox n { unit := u, taken := false, order := s.nextId } }
    | none => c

/-- The units that wait in a hint corner's queue (R369). -/
def cornerQueue (s : State) (b : Nat) : List UnitFlight := s.corners.filter fun f => f.hint == b && f.queued
/-- R369: a unit is not offered before one of a producer of its launch that no block has been offered, or that waits in the same
queue. -/
def behindProducer (s : State) (b : Nat) (f : UnitFlight) : Bool :=
  s.corners.any fun g => (!g.offered || g.hint == b) && (producersOf s f.unit.launch).contains g.unit.launch
def setFlight (s : State) (k : Nat) (f : UnitFlight → UnitFlight) : State :=
  { s with corners := updFirst (fun x => x.k == k) f s.corners }
def delFlight (s : State) (k : Nat) : State := { s with corners := delFirst (fun x => x.k == k) s.corners }

/-- R369: a unit joins the end of its hint corner's queue; with 32 there it waits at the corner, where it is offered again.
DESIGN CHOICE, log 82. -/
def joinQueue (s : State) (f : UnitFlight) : State :=
  if (cornerQueue s f.hint).length < 32 then
    let s1 := delFlight s f.k
    { s1 with corners := s1.corners ++ [{ f with queued := true, route := [] }] }
  else s
/-- R369: a unit at the head of its route: offered where the distance allows; at the hint corner, when refused, it is
queued. -/
def offerUnit (s : State) (f : UnitFlight) : State :=
  match f.route with
  | [] => joinQueue s f
  | b :: rest =>
    let near := b / 64 == f.hint / 64 && hops b f.hint ≤ f.radius
    let offer := near && !behindProducer s f.hint f
    let g := { f with offered := f.offered || offer }
    match if offer then takerOf s b f else none with
    | some c => giveUnit (delFlight s f.k) c f.unit
    | none => if rest.isEmpty then joinQueue (setFlight s f.k fun _ => g) g else setFlight s f.k fun _ => { g with route := rest }
/-- R369: a queue's head is offered again to the nearest block within its radius. -/
def reofferUnit (s : State) (b : Nat) : State :=
  match (cornerQueue s b).find? fun f => !behindProducer s b f with
  | none => s
  | some f =>
    let bs := sortBy (fun x y => hops x b < hops y b || (hops x b == hops y b && x ≤ y))
      ((blocksOf s (unitCtx s f.unit)).filter fun x => x / 64 == b / 64 && hops x b ≤ f.radius)
    match bs.findSome? fun x => takerOf s x f with
    | some c => giveUnit (delFlight s f.k) c f.unit
    | none => setFlight s f.k fun x => { x with offered := true }

/-- A unit sets out along corners. -/
def sendUnit (s : State) (u : UnitRec) (path : List Nat) (hint radius : Nat) (core : Option Nat) : State :=
  { s with corners := s.corners ++ [{ k := s.nextId, unit := u, route := path, hint := hint, radius := radius,
                                      core := core, queued := false, offered := false }], nextId := s.nextId + 1 }

/-! ## Cancel (R376) -/

/-- The untaken units of unit inboxes that a cancel removes leave them, a switched-out context's too. -/
def dropInboxes (s : State) (p : UnitRec → Bool) : State :=
  mapCores s fun c => { c with unitInbox := c.unitInbox.filter fun e => !(p e.2.unit && !e.2.taken) }
/-- R376: the units of a launch that no strand holds are removed and count as retired. -/
def dropUnits (s : State) (id : Nat) : State :=
  let mine := fun (u : UnitRec) => u.launch == id
  let fl := (s.corners.filter fun f => mine f.unit).length
  let inb := ((allInboxes s).filter fun e => mine e.unit && !e.taken).length
  let l := getLaunch s (id % 2048)
  let s1 := dropInboxes { s with corners := s.corners.filter fun f => !mine f.unit } mine
  let unsent := lrCount l.words - l.sentUnits - (l.dropped.filter fun i => l.sentUnits ≤ i).length
  updLaunch s1 (id % 2048) fun k =>
    { k with state := 4, retired := k.retired + fl + inb + unsent, sentUnits := lrCount l.words }

/-- R321, R376: every strand that holds a cancelled unit is stopped with class 13; one in no slot, before its next issue there. -/
def stopHolders (s : State) (p : UnitRec → Bool) (level id : Nat) : State :=
  let info := BitVec.ofNat 64 (2 ^ 63 + level * 2 ^ 60 + id)
  ((allStrands s).filter fun t => t.units.any p).foldl (fun z t => trapUid z t.uid 13 info) s

/-- R377: every unit of the launch has retired. -/
def allRetired (l : Launch) : Bool := l.state != 0 && l.retired == l.expected && l.sentUnits == lrCount l.words
/-- R376, R377: a launch is cancelled: its units go, its strands stop. One whose last unit has retired ends OK. -/
def cancelLaunch (s : State) (id level lid : Nat) : State :=
  let l := getLaunch s (id % 2048)
  if l.live && l.gen == id / 2048 && l.state != 3 && !allRetired l then
    stopHolders (dropUnits s id) (fun u => u.launch == id) level lid else s

/-- R376: the launches a level names. -/
def launchesOf (s : State) (ctx level id : Nat) : List Nat :=
  s.launches.filterMap fun e =>
    let l := e.2
    let hit := match level with
      | 1 => launchId l e.1 == id
      | 2 => lrGraph l.words == id
      | 3 => lrPhase l.words == id
      | _ => lrTjob l.words == id
    if l.live && l.ctx == ctx && hit then some (launchId l e.1) else none

/-- R376: cancelling marks the levels themselves. -/
def markLevels (x : Ctx) (level id : Nat) : Ctx :=
  let cancel := fun (l : Level) => if openLevel l then { l with state := 4, bad := true } else l
  let graphIn := fun (g : Level) => if level == 3 then g.up == id else (getPhase x g.up).up == id
  match level with
  | 2 => { x with graphs := x.graphs.map fun e => if e.1 == id then (e.1, cancel e.2) else e }
  | 3 => { x with
      phases := x.phases.map fun e => if e.1 == id then (e.1, cancel e.2) else e
      graphs := x.graphs.map fun e => if graphIn e.2 then (e.1, cancel e.2) else e }
  | 4 => { x with
      tjobs := x.tjobs.map fun e => if e.1 == id then (e.1, cancel e.2) else e
      phases := x.phases.map fun e => if e.2.up == id then (e.1, cancel e.2) else e
      graphs := x.graphs.map fun e => if graphIn e.2 then (e.1, cancel e.2) else e }
  | _ => x

/-- R376: a unit that has not been released leaves its launch, which counts it as retired. -/
def cancelUnreleased (s : State) (ctx id : Nat) : State :=
  let e := id / 2 ^ 37
  let i := id % 2 ^ 33
  let l := getLaunch s e
  if l.live && l.ctx == ctx && l.state ≤ 2 && id / 2 ^ 33 % 16 == 0 && l.sentUnits ≤ i && i < lrCount l.words && !l.dropped.contains i then
    updLaunch s e fun k => { k with retired := k.retired + 1, dropped := i :: k.dropped }
  else s
/-- R376: a unit is cancelled on its own. -/
def cancelUnit (s : State) (ctx id : Nat) : State :=
  let mine := fun (u : UnitRec) => u.id == id && (getLaunch s (u.launch % 2048)).ctx == ctx
  let gone := (s.corners.filter fun f => mine f.unit).map (·.unit.launch) ++
    ((allInboxes s).filter fun e => mine e.unit && !e.taken).map (·.unit.launch)
  let s1 := dropInboxes { s with corners := s.corners.filter fun f => !mine f.unit } mine
  let s2 := gone.foldl (fun z l => updLaunch z (l % 2048) fun k => { k with retired := k.retired + 1 }) s1
  stopHolders (cancelUnreleased s2 ctx id) mine 0 id

/-! ## Levels that end (R366, R373, R374) -/

/-- R373, R374: a level whose count is retired and which is closed, or cancelled, ends. -/
def settleLevel (l : Level) : Level :=
  if openLevel l && (l.closed || l.state == 4) && l.retired == l.expected then
    { l with state := 3, status := if l.bad || l.state == 4 then 4 else 0 } else l
/-- One more counted in a level has ended. -/
def countIn (l : Level) (bad : Bool) : Level := { l with retired := l.retired + 1, bad := l.bad || bad }

/-- R366: when a tenant job's current phase completes, the phase of its oldest held launch becomes current. -/
def nextPhase (s : State) (ctx t : Nat) : State :=
  match (sortBy (fun a b => a.2.order ≤ b.2.order) (s.launches.filter fun e =>
      e.2.live && e.2.ctx == ctx && lrTjob e.2.words == t && e.2.state == 0)).head? with
  | some e => updCtx s ctx fun x => { x with curPhase := mapPut x.curPhase t (lrPhase e.2.words) }
  | none => s
def settleTjob (s : State) (ctx n : Nat) : State :=
  updCtx s ctx fun x => { x with tjobs := mapPut x.tjobs n (settleLevel (getTjob x n)) }
def settlePhase (s : State) (ctx n : Nat) : State :=
  let x := getCtx s ctx
  let p := settleLevel (getPhase x n)
  if p == getPhase x n then s
  else
    let s1 := settleTjob (setCtx s ctx { x with phases := mapPut x.phases n p
                                                tjobs := mapPut x.tjobs p.up (countIn (getTjob x p.up) (p.status == 4)) }) ctx p.up
    if mapFind x.curPhase p.up == some n then nextPhase s1 ctx p.up else s1
def settleGraph (s : State) (ctx n : Nat) : State :=
  let x := getCtx s ctx
  let g := settleLevel (getGraph x n)
  if g == getGraph x n then s
  else settlePhase (setCtx s ctx { x with graphs := mapPut x.graphs n g
                                          phases := mapPut x.phases g.up (countIn (getPhase x g.up) (g.status == 4)) }) ctx g.up
/-- R372-R374: a launch's end counts in its graph, and so upward. -/
def countEnd (s : State) (ctx : Nat) (ws : List Word) (bad : Bool) : State :=
  settleGraph (updCtx s ctx fun x => { x with graphs := mapPut x.graphs (lrGraph ws) (countIn (getGraph x (lrGraph ws)) bad) }) ctx (lrGraph ws)
/-- R373: the levels of a context that a cancel leaves with nothing to wait for end. -/
def settleLevels (s : State) (ctx : Nat) : State :=
  let x := getCtx s ctx
  let s1 := (x.graphs.map (·.1)).foldl (fun z n => settleGraph z ctx n) s
  let s2 := (x.phases.map (·.1)).foldl (fun z n => settlePhase z ctx n) s1
  (x.tjobs.map (·.1)).foldl (fun z n => settleTjob z ctx n) s2

/-- R376: a store to WCANCEL. -/
def wcancel (s : State) (ctx : Nat) (v : Word) : State :=
  let level := v.toNat / 2 ^ 61
  let id := v.toNat % 2 ^ 48
  if 5 ≤ level || v.toNat / 2 ^ 48 % 2 ^ 13 != 0 then s
  else if level == 0 then cancelUnit s ctx id
  else
    let s1 := updCtx s ctx fun x => markLevels x level id
    settleLevels ((launchesOf s ctx level id).foldl (fun z l => cancelLaunch z l level id) s1) ctx
/-- R377: a cancel takes effect at the end of its cycle, after the retirements of that cycle. -/
def soonCancel (s : State) (ctx : Nat) (v : Word) : State := { s with cancels := s.cancels ++ [(ctx, v)] }
def settleCancels (s : State) : State :=
  { s with cancels := [], agenda := s.agenda ++ s.cancels.map fun c => .event (.wcancel c.1 c.2) }

/-! ## Release and ending (R363, R367, R373, R374) -/

/-- R363: who reads the records of a launch. -/
def unitReader (l : Launch) : Eng := { src := .engine ichgNode 4, blk := 0, sid := 0, ctx := l.ctx, agent := 3 }
/-- R363: the record of unit i, or why it is not there. -/
def unitWords (s : State) (l : Launch) (i : Nat) : Except EngStop (List Word) :=
  let units := (l.words.getD 1 0).toNat
  if units == 0 then .ok (BitVec.ofNat 64 i :: (List.range 7).map fun n => l.words.getD (16 + n) 0)
  else
    let va := (units + 64 * i) % 2 ^ 57
    match translateUnit s 300 l.ctx .read va with
    | .ok pa => do
      let bs ← deviceRead s (unitReader l) pa 1
      pure ((List.range 8).map fun n => wordAt bs (8 * n))
    | .bad c j => .error (.trap c j)
    | .miss => .error (.miss va)

/-- The unit that a launch releases next. -/
def nextUnit (l : Launch) (e : Nat) (ws : List Word) : UnitRec := { id := e * 2 ^ 37 + l.sentUnits, launch := launchId l e, words := ws }
/-- R369: the queue of the next unit's hint corner has room. A unit whose record is not there, or cannot be read, needs none (R363). -/
def unitRoom (s : State) (l : Launch) (e : Nat) : Bool :=
  l.dropped.contains l.sentUnits || match unitWords s l l.sentUnits with
  | .error _ => true
  | .ok ws => (cornerQueue s (hintBlk s l (nextUnit l e ws) l.sentUnits)).length < 32
/-- R367: a launch whose next unit may be released: it is not held, and its producers have no unit left to release. -/
def releasable (s : State) (e : Nat) : Bool :=
  let l := getLaunch s e
  l.live && l.state ≤ 2 && !held s l && !(blocksOf s l.ctx).isEmpty && l.sentUnits < lrCount l.words &&
    !((producersOf s (launchId l e)).any fun id => match depLaunch s id with
      | some d => d.live && d.sentUnits < lrCount d.words
      | none => false) && unitRoom s l e
/-- R367: the launch whose turn it is, round-robin in the order of the entries. DESIGN CHOICE, log 82. -/
def nextRelease (s : State) : Option Nat :=
  let es := (s.launches.map (·.1)).filter (releasable s)
  (es.find? fun e => s.relTurn < e) <|> es.head?

/-- R296, R363, R367, R369: release the next unit of the launch whose turn it is, once its record is there. One that was cancelled on its own
is passed over, its record unread. -/
def releaseUnit (s : State) (e : Nat) : State :=
  let l := getLaunch s e
  let n := l.sentUnits + 1
  let s1 := updLaunch { s with relTurn := e } e fun k => { k with sentUnits := n, state := if n == lrCount k.words then 2 else 1 }
  if nextRelease s != some e then s
  else if l.dropped.contains l.sentUnits then s1
  else match unitWords s l l.sentUnits with
    | .error (.trap _ _) => cancelLaunch (dropReads { s with relTurn := e } (unitReader l)) (launchId l e) 1 (launchId l e)
    | .error x => awaitRead s (unitReader l) x
    | .ok ws =>
      let h := hintBlk s l (nextUnit l e ws) l.sentUnits
      sendUnit (dropReads s1 (unitReader l)) (nextUnit l e ws) (corner (h / 64) :: meshPath (corner (h / 64)) h) h (lrRadius l.words) none
/-- R366, R373: a launch that is no longer held is being placed; one all of whose units are released runs. -/
def settleLaunch (s : State) (e : Nat) : State :=
  let l := getLaunch s e
  if !l.live then s
  else if l.state == 0 && !held s l then updLaunch s e fun k => { k with state := 1 }
  else if l.state == 1 && 0 < lrCount l.words && l.sentUnits == lrCount l.words then updLaunch s e fun k => { k with state := 2 }
  else s
def settleLaunches (s : State) : State :=
  (sortBy (fun a b => a.2.order ≤ b.2.order) s.launches).foldl (fun z e => settleLaunch z e.1) s

/-- R375: the two words of a launch's status entry. -/
def levelWord0 (status state level id : Nat) : Word :=
  BitVec.ofNat 64 (status * 2 ^ 56 + state * 2 ^ 52 + level * 2 ^ 49 + 2 ^ 48 + id)
def levelWord1 (retired expected : Nat) : Word := BitVec.ofNat 64 (retired * 2 ^ 32 + expected)

/-- R374 step 4, R364: the launches that depend on one that ended ABORTED end ABORTED. -/
def abortDependants (s : State) (id : Nat) : State :=
  (s.launches.filter fun e => e.2.live && e.2.state != 3 && (lrDeps e.2.words).contains id).foldl
    (fun z e => cancelLaunch z (launchId e.2 e.1) 1 (launchId e.2 e.1)) s

/-- R365, R374: 16 bytes that the Interchange writes at a global virtual address of a context: at a home on the device at once, else
in a packet, whose number is answered. An address outside that space or off its 16 bytes (DESIGN CHOICE, log 78), a fault or
poison drops them. -/
def ichgWrite (s : State) (ctx va : Nat) (bs : List Byte) : Option Nat × State :=
  let send := fun (h : Home) (a : Nat) =>
    let r := sendPkt s .ichg h 0 0 ctx (.store a 16 0xFFFF (BitVec.ofNat 128 (bytesNat bs))) none none (BitVec.ofNat 64 va)
    (some r.1, r.2)
  if va == 0 || 2 ^ 57 ≤ va || va % 16 != 0 then (none, s)
  else match translateNow s 300 ctx .write va with
    | .ok pa => (match physOf s pa with
      | .dev _ => (none, if poisoned s (localPa pa) 16 then memoryError s (localPa pa) else physWrite s pa bs)
      | .host a => send .hostPort a
      | .fabric m a => send (.member m) (m * 2 ^ 42 + a)
      | .none => (none, s))
    | _ => (none, s)

/-- R374 step 2: the completion word that an ending launch arrives on. One off its 16 bytes, with [18] set, or in a block that is not the
context's, is none: DESIGN CHOICE, log 78. -/
def endWord (s : State) (l : Launch) : Option (Nat × Nat) :=
  if l.status == 0 && lw l.words 5 30 1 == 1 && lw l.words 5 0 4 == 0 && lw l.words 5 18 1 == 0 &&
      hasBlk s l.ctx (blkOfCore (lw l.words 5 19 11)) then
    some (lw l.words 5 19 11, lw l.words 5 0 18) else none
/-- R374: an ending launch still waits for the acknowledgement of its done record, or for its completion word to be free (R291). -/
def endWaits (s : State) (l : Launch) : Bool :=
  (l.ending.any fun k => (findPkt s k).isSome) ||
    (endWord s l).any fun w => (getCtx s l.ctx).st != .switchedOut && homeBusy s (spadKey w.1 w.2) 16
/-- R374 steps 2 to 4: what an ending launch does once its done record is acknowledged. -/
def endRest (s : State) (e : Nat) : State :=
  let l := getLaunch s e
  if !l.live || l.state != 3 || endWaits s l then s
  else
    let s1 := updLaunch s e fun k => { k with live := false, order := s.nextId, ending := none }
    let s2 := { s1 with nextId := s.nextId + 1 }
    let s3 := match endWord s l with | some w => atWord s2 l.ctx w.1 w.2 (fun z => mbArrive z w.1 w.2 1) | none => s2
    let s4 := countEnd s3 l.ctx l.words (l.status == 4)
    if l.status == 4 then abortDependants s4 (launchId l e) else s4
/-- R374 step 1: a launch whose units have all retired ends. -/
def endLaunch (s : State) (e : Nat) : State :=
  let l := getLaunch s e
  if !l.live || l.state == 3 || !allRetired l then endRest s e
  else
    let st := if l.state == 4 then 4 else 0
    let s1 := updLaunch s e fun k => { k with state := 3, status := st }
    let w := ichgWrite s1 l.ctx (l.words.getD 6 0).toNat
      (wordsBytes [levelWord0 st 3 1 (launchId l e), levelWord1 l.retired l.expected])
    endRest (updLaunch w.2 e fun k => { k with ending := w.1 }) e

end Sys2Proof.Machine
end

