-- ==== Sys2Proof/Machine/Run.lean ====
section
/-! DEFINITION. How one instruction runs: guard (R129), privilege (R134), synchronised reads (R126), copies outstanding
into a register it writes (R137, R174), its own effect, and what follows it (R154, R169, R210). Every form's meaning is
`run` of a body, which says what the form does with its operands. -/

namespace Sys2Proof.Machine
open Sys2Proof

/-- What a body makes of an instruction: its effect is done and the end check follows; a transfer of control; a park on an
object; a trap that resumes at the instruction; one that resumes after it; or the strand is no longer the driver's
concern. Each carries the state reached. -/
inductive Res
  | done (s : State)
  | jump (s : State) (dest : Word)
  | park (s : State) (obj arg : Word) (left : Option Nat) (stage : Stage)
  | trap (s : State) (cls : Nat) (info : Word)
  | halt (s : State) (cls : Nat) (info : Word)
  | gone (s : State)

/-- A body: the state, the strand's id, the strand as its operands were read, and the operands. -/
abbrev Body1 := State → Nat → Strand → Opnds → Res

/-- The instruction is complete: the wait record is stale and the end check is made (R154, R464). -/
def finishAt (s : State) (sid : Nat) : State :=
  updSlot s sid fun z => { z with st := .ready, s := endWait (endCheck z.s) }

/-- A transfer of control is complete (R149). -/
def jumpAt (s : State) (sid : Nat) (dest : Word) : State :=
  updSlot s sid fun z => { z with st := .ready, s := { endWait z.s with pc := dest } }

/-- R210: whether the strand's tested object was withheld in an earlier part of the same wait. -/
def wasWithheld (t : Strand) : Bool :=
  match t.wait with
  | some w => (match w.stage with | .test => w.rel | .granted _ => w.rel | .busy _ _ => w.rel | _ => false)
  | none => false

/-- The cycle in which a waiting instruction was issued (R396). -/
def waitSince (cycle op : Nat) (t : Strand) : Nat :=
  match t.wait with
  | some w => if w.form == op then w.since else cycle
  | none => cycle

/-- What a waiting instruction has got so far (R204, R296). -/
def gotIn (t : Strand) : List (Nat × Nat) := (t.wait.map (·.got)).getD []

/-- What an instruction that has read its operands has got since (R204, R296). -/
def gotWords (t : Strand) : List (Nat × Nat) := ((t.wait.filter (·.opnds.isSome)).map (·.got)).getD []

/-- What a waiting instruction has got so far is kept with it. -/
def setGot (s : State) (sid : Nat) (got : List (Nat × Nat)) : State :=
  let first : Wait := { form := 0, obj := 0, left := none, arg := 0, since := 0, stage := .granted 0, rel := false, opnds := none,
                        syncs := [], word := 0, got := [] }
  updStrand s sid fun t => { t with wait := some { t.wait.getD first with got := got } }

/-- A strand parks (R464). Whether what it waits on is withheld is tested after the events of the cycle (R126, R210, R315). -/
def parkAt (s : State) (sid op : Nat) (obj arg : Word) (left : Option Nat) (stage : Stage) (o : Option Opnds)
    (rs : List RegRef) (word : BitVec 96) : State :=
  let sl := getSlot s sid
  let w : Wait := { form := op, obj := obj, left := left, arg := arg, since := waitSince s.cycle op sl.s, stage := stage,
                    rel := wasWithheld sl.s, opnds := o, syncs := rs, word := word, got := gotIn sl.s }
  setSlot s sid { sl with st := .parked, s := { sl.s with wait := some w }, moved := s.cycle }

/-- R131: the privilege marks. -/
def privOf (op : Nat) : Priv :=
  if op == 0xC3 then .h else if 0xCA ≤ op && op ≤ 0xCD then .z else if op == 0x38D then .c0 else .none

/-- R134: a mark, or the check of MTS to `tdbase`, does not allow the strand. -/
def privBad (op sid : Nat) (t : Strand) (x : Args) : Bool :=
  match privOf op with
  | .none => op == 0xC5 && idxOf x.d == 10 && t.ctx != 0
  | .z => slotOf sid != 0
  | .h => slotOf sid != 0 && t.ctx != 0
  | .c0 => t.ctx != 0

/-- R134: trapinfo of a privilege trap. -/
def privInfo (op : Nat) : Word := BitVec.ofNat 64 (op * 2 ^ 16)

/-- Forms whose field d is read and not written, or that wait for copies in their own way (R202, R203, R222, R248). -/
def dSource (op : Nat) : Bool :=
  op == 0x200 || op == 0x202 || (0x206 ≤ op && op ≤ 0x20A) || op == 0x201 || op == 0x203 || op == 0x205 || (0x20B ≤ op && op ≤ 0x20F) || op == 0x215 || op == 0x217 ||
  op == 0x218 || op == 0x305 || op == 0xC5

/-- How many registers, from field d on, a form writes. -/
def destCount (op : Nat) (code : Nat) : Nat :=
  if op == 0x204 then code + 1 else if op == 0x185 || op == 0x188 || op == 0x304 then 2 else 1

/-- The g and v registers a form writes. -/
def destRegs (op : Nat) (x : Args) : List RegRef :=
  if dSource op then []
  else match x.d with
    | .reg r =>
      (match r.cls with
        | .g => (List.range (destCount op r.code.toNat)).map fun i => .g (r.idx.toNat + i)
        | .v => (List.range (destCount op r.code.toNat)).map fun i => .v (r.idx.toNat + i)
        | _ => [])
    | _ => []

/-- The trap that an answer left for the strand's next rotation. -/
def refusedOf (t : Strand) : Option (Nat × Word) :=
  match t.wait with
  | some w => (match w.stage with | .refused c i => some (c, i) | _ => none)
  | none => none

/-- R126: the registers' F bits are cleared as they are read. -/
def clearSync (s : State) (sid : Nat) (rs : List RegRef) : State :=
  if rs.isEmpty then s else updStrand s sid fun t => rs.foldl (fun u r => setFull u r false) t

/-- A trap without effect: the F bits that the instruction's synchronised reads cleared are set again (R126, R169).
DEDUCED, log 22. -/
def restoreSync (s : State) (sid : Nat) (rs : List RegRef) : State :=
  updStrand s sid fun t => { rs.foldl (fun u r => setFull u r true) t with wait := none }

/-- What follows a body's answer. -/
def settle (op : Nat) (x : Args) (sid : Nat) (o : Opnds) : Res → State
  | .done s => finishAt s sid
  | .jump s dest => jumpAt s sid dest
  | .park s obj arg left stage => parkAt s sid op obj arg left stage (some o) (syncRegs x) (packWord op x)
  | .trap s cls info => haltStrand (restoreSync s sid (syncRegs x)) sid cls info (packWord op x)
  | .halt s cls info => takeTrap s sid cls info true (packWord op x)
  | .gone s => s

/-- The register whose F bit a strand waits for first, as a handle (R464). -/
def syncHandle (sid : Nat) (t : Strand) (rs : List RegRef) : Word :=
  match rs.find? fun r => !fullOf t r with
  | some r => regHandle sid r
  | none => 0

/-- One instruction of the strand in slot `sid`. The order of its waits: DEDUCED, log 23. -/
def runAt (op : Nat) (x : Args) (body : Body1) (s : State) (sid : Nat) : State :=
  let t := strandAt s sid
  if !laneMasked op && !guardOn t x then finishAt s sid
  else if privBad op sid t x then takeTrap s sid 1 (privInfo op) false (packWord op x)
  else match refusedOf t with
    | some (c, i) => takeTrap s sid c i false (packWord op x)
    | none => match (destRegs op x).find? (copying t) with
      | some r => parkAt s sid op (regHandle sid r) 0 none (.copyOf r) (t.wait.bind (·.opnds)) (syncRegs x) (packWord op x)
      | none => match t.wait.bind (·.opnds) with
        | some o => settle op x sid o (body s sid t o)
        | none =>
          if (syncRegs x).all (fullOf t) then
            settle op x sid (readOpnds t x (fourOf op))
              (body (clearSync s sid (syncRegs x)) sid t (readOpnds t x (fourOf op)))
          else parkAt s sid op (syncHandle sid t (syncRegs x)) 0 none .sync none (syncRegs x) (packWord op x)

/-- One instruction of the strand in the slot named by `cur`; only a ready strand issues (R13, R326). -/
def run (op : Nat) (x : Args) (body : Body1) (s : State) : Host.Outcome State Fault Refusal :=
  if (getSlot s s.cur).st == .ready then .next (runAt op x body s s.cur) else .fault .noStrand

/-! ## Bodies in common -/

/-- Write a result register (R137, R173). -/
def setReg (s : State) (sid : Nat) (o : Opd) (v : Vec) : State :=
  match destOf o with
  | some r => updStrand s sid fun t => writeReg t r v
  | none => s

/-- Write a 64-bit result into field d's g register; nothing where the field is absent. -/
def setG (s : State) (sid : Nat) (o : Opd) (v : Word) : State := setReg s sid o (v.setWidth 128)

/-- A form that only computes field d from its operands. -/
def compute (x : Args) (f : Opnds → Word) : Body1 := fun s sid _ o => .done (setG s sid x.d (f o))

/-! ## Fetching (R64, R74, R133, R149) -/

/-- What a fetch gives: an instruction, or the state in which the strand parked or halted. -/
inductive Fetched
  | instr (i : Instr)
  | other (s : State)

/-- R135: trapinfo of an illegal word. -/
def illegalInfo (w : BitVec 96) (part reason : Nat) : Word :=
  BitVec.ofNat 64 ((w.extractLsb' 86 10).toNat * 2 ^ 16 + part * 2 ^ 12 + reason * 2 ^ 8)

/-- A fetch that finds no line: the strand parks for it, for its translation, or traps. -/
def fetchMiss (s : State) (sid : Nat) (t : Strand) : State :=
  let va := t.pc.toNat % 2 ^ 57
  match translate s sid t.ctx .fetch va with
  | .ok _ => parkAt s sid 0 0 0 none .fetch none [] 0
  | .bad c i => takeTrap s sid c i false 0
  | .miss =>
    let (k, s1) := sendMiss s (blkOf sid) t.ctx va
    parkAt s1 sid 0 0 0 none (.tlb k va (needCode .fetch)) none [] 0

/-- The word of the instruction in which a strand waited, which it takes up again without a fetch (R210, R319). -/
def waitWord (t : Strand) : Option (BitVec 96) := (t.wait.map (·.word)).filter fun w => w != 0

/-- A word at a strand: an instruction, or the illegal-instruction trap (R133). -/
def decoded (s : State) (sid : Nat) (w : BitVec 96) : Fetched :=
  match decodeWord w with
  | .ok i => .instr i
  | .illegal p r => .other (takeTrap s sid 0 (illegalInfo w p r) false w)

/-- The fetch of a ready strand. A trap that the line's arrival left is taken first. The spec gives the trapinfo of a
misaligned pc no value: a free value. DESIGN CHOICE, log 10. -/
def fetch (s : State) (sid : Nat) : Fetched :=
  let sl := getSlot s sid
  let t := sl.s
  if sl.st != .ready || !ctxRuns s t.ctx then .other s
  else if (dueNow t).isSome then .other (takeDue s sid)
  else if let some w := waitWord t then decoded s sid w
  else if (t.pc >>> 56).toNat ≥ 2 then .other (takeTrap s sid 4 t.pc false 0)
  else if t.pc.toNat % 16 != 0 then
    .other (takeTrap { s with fresh := s.fresh + 1 } sid 2 ((Config.openValue s.fresh).setWidth 64) false 0)
  else match ibufWord s (coreOf sid) t.pc with
    | some w => decoded s sid w
    | none => match refusedOf t with
      | some (c, i) => .other (takeTrap s sid c i false 0)
      | none => .other (fetchMiss s sid t)

end Sys2Proof.Machine
end

