-- ==== Sys2Proof/Machine/Scrub.lean ====
section
/-! DEFINITION. Blocks change hands: scrub (R75), the partition that a context's PARTMAP lists (R323, R452, R458), and the
initial contents of newly scrubbed blocks (R329). -/

namespace Sys2Proof.Machine
open Sys2Proof

/-- The memory of a block: its 8 scratchpads and its W, A and C buffers, by key and size. -/
def blockRanges (b : Nat) : List (Nat × Nat) :=
  (coresOfBlk b).map (fun c => (spadKey c 0, 0x40000)) ++ [0xF4, 0xF5, 0xF6].map fun z => (bufKey z b 0, bufSize z)

/-- R461: the poison that a scrub meets is an error of on-die SRAM. The spec gives SRAM no physical address: a free value.
DESIGN CHOICE, log 54. -/
def scrubErrors (s : State) (b : Nat) : State :=
  (s.poison.filter fun p => (blockRanges b).any fun r => r.1 ≤ p && p < r.1 + r.2).foldl (fun z _ =>
    captureError { z with fresh := z.fresh + 1 } 3 (Config.choice z.fresh)) s
/-- R75: every byte of a block's memory is 0. -/
def clearBlock (s : State) (b : Nat) : State :=
  (blockRanges b).foldl (fun z (r : Nat × Nat) => heal { z with mem := clearRange z.mem r.1 (r.1 + r.2) } r.1 r.2) (scrubErrors s b)

/-- R75, R444, R448: a block is cleared for a new owner; its scrub ends later (SCRUB_END). -/
def scrubBlock (s : State) (b : Nat) (owner : Option Nat) : State :=
  let s1 := clearBlock s b
  setHub { s1 with cores := (coresOfBlk b).foldl mapDel s1.cores } b { Hub.init with owner := owner, scrub := true }

/-- R458: the blocks that PARTMAP0 to 3 list. -/
def partBlocks (s : State) (ctx : Nat) : List Nat :=
  (List.range 256).filter fun b => (ctxReg s ctx (0x480 + 8 * (b / 64))).getLsbD (b % 64)
/-- R323, R452: a block that a context may take. -/
def blockFree (s : State) (b : Nat) : Bool := distReady s (distOfBlk b) && (getHub s b).owner.isNone

/-! ## Initial contents (R329) -/

/-- Read k pieces of 16 bytes at a global virtual address of a context. -/
def readPieces (s : State) (ctx va : Nat) : Nat → Option (List Byte)
  | 0 => some []
  | k + 1 => do
    let bs ← virtRead1 s 300 ctx va 16
    let rest ← readPieces s ctx (va + 16) k
    pure (bs ++ rest)

/-- One of the record's three contents: its address and size, checked against its limit. -/
def readPart (s : State) (ctx : Nat) (addr n : Word) (limit : Nat) : Option (List Byte) :=
  if addr.toNat % 16 != 0 || n.toNat % 16 != 0 || limit < n.toNat || addr >>> 57 != 0 then none
  else readPieces s ctx addr.toNat (n.toNat / 16)

structure Contents where
  spad : List Byte
  w : List Byte
  a : List Byte

/-- R329: the contents that INITREC names; none where the record breaks its layout or a read fails. -/
def readContents (s : State) (ctx : Nat) : Option Contents :=
  let at0 := (ctxReg s ctx 0x4A8).toNat
  if at0 == 0 then some { spad := [], w := [], a := [] }
  else if at0 % 64 != 0 || 2 ^ 57 ≤ at0 then none
  else do
    let bs ← readPieces s ctx at0 4
    let word := fun (i : Nat) => wordAt bs (8 * i)
    let spad ← readPart s ctx (word 0) (word 1) 0x40000
    let w ← readPart s ctx (word 2) (word 3) 0x200000
    let a ← readPart s ctx (word 4) (word 5) 0x100000
    if word 6 == 0 && word 7 == 0 then pure { spad := spad, w := w, a := a } else none

def writeContents (s : State) (b : Nat) (x : Contents) : State :=
  let put := fun (z : State) (k : Nat) (bs : List Byte) => heal { z with mem := writeBytes z.mem k bs } k bs.length
  let s1 := (coresOfBlk b).foldl (fun z c => put z (spadKey c 0) x.spad) s
  updHub (put (put s1 (bufKey 0xF4 b 0) x.w) (bufKey 0xF5 b 0) x.a) b fun h => { h with initDone := true }

/-- R329: blocks that PARTMAP of a running context newly lists, and that are free, are added. DEDUCED, log 46. -/
def addBlocks (s : State) (ctx : Nat) : State :=
  let new := (partBlocks s ctx).filter (blockFree s)
  let s1 := new.foldl (fun z b => scrubBlock z b (some ctx)) s
  if new.isEmpty then s
  else match readContents s1 ctx with
    | some x => new.foldl (fun z b => writeContents z b x) s1
    | none => soon s1 (.unrecoverableFault ctx)

end Sys2Proof.Machine
end

