-- ==== Sys2Proof/Machine/Mgmt.lean ====
section
/-! DEFINITION. The device registers (R4, R67, R365, R375, R410, R414, R426, R435, R444, R448, R452-R461): what a read gives
and what a write does. A register with an event of its own raises that event. -/

namespace Sys2Proof.Machine
open Sys2Proof

/-- The context that CTXSEL names (R458). -/
def ctxSel (s : State) : Nat := s.mgmt.ctxsel.toNat % 64

/-- R459: the state codes. -/
def ctxStateNum (x : CtxState) : Nat :=
  match x with
  | .none => 0 | .created => 1 | .admitted => 2 | .running => 3 | .switchedOut => 4 | .stopping => 5 | .tornDown => 6

/-- R459. -/
def ctxCmdWord (x : Ctx) : Word :=
  BitVec.ofNat 64 (x.status * 2 ^ 56 + ctxStateNum x.st * 2 ^ 53 + if x.hold then 2 ^ 52 else 0)

/-- The 8 bytes of a table from an offset. -/
def tableWord (m : Map Byte) (o : Nat) : Word := BitVec.ofNat 64 (readLe m o 8)

/-- R375: one word of a level's entry. -/
def levelEntry (l : Level) (level id w : Nat) : Word :=
  if l.expected == 0 then 0 else if w == 0 then levelWord0 l.status l.state level id else levelWord1 l.retired l.expected
def statusEntry (s : State) (ctx off : Nat) : Word :=
  let x := getCtx s ctx
  let w := off % 16 / 8
  if off < 0x3000 then levelEntry (getPhase x ((off - 0x2000) / 16)) 3 ((off - 0x2000) / 16) w
  else if off < 0x4000 then levelEntry (getTjob x ((off - 0x3000) / 16)) 4 ((off - 0x3000) / 16) w
  else if off < 0x8000 then levelEntry (getGraph x ((off - 0x4000) / 16)) 2 ((off - 0x4000) / 16) w
  else
    let e := (off - 0x8000) / 16
    let l := getLaunch s e
    if l.gen == 0 || l.ctx != ctx then 0
    else if w == 0 then levelWord0 l.status l.state 1 (launchId l e) else levelWord1 l.retired l.expected

/-- R67: the value of a device register, for a strand of context `ctx` on a core. -/
def readRegister (s : State) (core ctx off : Nat) : Word :=
  let m := s.mgmt
  if off == 0x0 then m.ready
  else if off == 0x18 then m.pwrlim
  else if off == 0x20 then m.pwrstat
  else if off == 0x28 then m.late
  else if off == 0x30 then (if m.refusedBit then 0x8000000000000000 else 0)
  else if off == 0x40 then m.ctxsel
  else if off == 0x50 then m.errlog
  else if off == 0x100 then (getCore s core).trapring
  else if off == 0x108 then (getCore s core).ringstat
  else if off == 0x478 then ctxCmdWord (getCtx s (ctxSel s))
  else if 0x400 ≤ off && off ≤ 0x4A8 then ctxReg s (ctxSel s) off
  else if 0x800 ≤ off && off < 0xA00 then BitVec.ofNat 64 (getCtx s ((off - 0x800) / 8)).classmap
  else if 0xA00 ≤ off && off < 0xC00 then (getCtx s ((off - 0xA00) / 8)).ratelim
  else if 0xC00 ≤ off && off < 0x1000 then tableWord m.routes (off - 0xC00)
  else if 0x1000 ≤ off && off < 0x2000 then tableWord m.policy (off - 0x1000)
  else if 0x2000 ≤ off then statusEntry s ctx off
  else 0

/-- R4, R414: the writable bits of a context register. -/
def ctxRegMask (off : Nat) : Word :=
  match off with
  | 0x420 => 0x00FFFFFFFFFFF000
  | 0x428 => 0x01FF000000000000
  | 0x430 => 0x80000000000001FF
  | 0x438 => 0x00FFFFFFFFFFF000
  | 0x440 => 0x00FFFFFFFFFFF000
  | 0x448 => 0xF8FFFFFFFFFFF000
  | 0x450 => 0xF8FFFFFFFFFFF000
  | 0x458 => 0xF8FFFFFFFFFFF000
  | 0x460 => 0xFFFFFFFF00000000
  | 0x468 => 0xFFFFFFFF00000000
  | 0x470 => 0xFFFFFFFF00000000
  | _ => BitVec.allOnes 64

/-- A write of a context register: the masked bits change, and the register counts as written (R323). -/
def writeCtxReg (s : State) (c off : Nat) (v : Word) : State :=
  let s1 := updCtx s c fun x =>
    let m := ctxRegMask off
    let old := mapGet 0 x.regs off
    { x with regs := mapSet 0 x.regs off ((v &&& m) ||| (old &&& ~~~ m)), written := (off :: x.written).eraseDups }
  if 0x480 ≤ off && off ≤ 0x498 && ctxRuns s1 c then addBlocks s1 c else s1

/-- R459: the command of a CTXCMD write. DEDUCED, log 31. -/
def ctxCommand (s : State) (c : Nat) (v : Word) : State :=
  let cmd := v.toNat / 2 ^ 48 % 16
  let s1 := updCtx s c fun x => { x with hold := v.getLsbD 52 }
  match cmd with
  | 1 => soon s1 (.ctxCreate c)
  | 2 => soon s1 (.ctxAdmit c)
  | 3 => soon s1 (.ctxStart c)
  | 4 => soon s1 (.ctxSwitch c (v.toNat % 64))
  | 5 => soon s1 (.ctxStop c)
  | _ => updCtx s1 c fun x => { x with status := 6 }

/-- R435. -/
def domCommand (s : State) (v : Word) : State :=
  let s1 := if v.getLsbD 63 then updMgmt s fun m => { m with refusedBit := false } else s
  match v.toNat / 2 ^ 12 % 16 with
  | 0 => s1
  | 1 => soon s1 (.domForm (v.toNat % 1024))
  | 2 => soon s1 (.domJoin (v.toNat % 1024) (v.toNat / 2 ^ 16 % 1024))
  | 3 => soon s1 .domLeave
  | 4 => soon s1 (.domEvict (v.toNat % 1024))
  | _ => updMgmt s1 fun m => { m with refusedBit := true }

/-- R410: a store to TLBINV. -/
def tlbinv (s : State) (v : Word) : State :=
  if v.toNat / 2 ^ 45 % 2 ^ 11 != 0 || v.toNat / 2 ^ 56 % 64 == 0 then s
  else match v.toNat / 2 ^ 62 with
    | 0 => soon s (.tlbinvPage v)
    | 1 => soon s (.tlbinvKey v)
    | 2 => soon s (.tlbinvContext v)
    | _ => s

/-- R460. -/
def dbgctl (s : State) (v : Word) : State :=
  let ctx := v.toNat / 2 ^ 56 % 64
  let sid := v.toNat % 2 ^ 15
  match v.toNat / 2 ^ 62 with
  | 1 => soon s (.dbgStop ctx sid)
  | 2 => soon s (.dbgRelease ctx sid)
  | 3 => soon s (.dbgHold ctx sid)
  | _ => s

/-- R461: W1C of ERRLOG. -/
def writeErrlog (s : State) (v : Word) : State :=
  if v.getLsbD 63 then soon s .errlogClear
  else if v.getLsbD 62 then updMgmt s fun m => { m with errlog := m.errlog &&& 0xBFFFFFFFFFFFFFFF#64 } else s

/-- Eight bytes into a table. -/
def writeTable (m : Map Byte) (o : Nat) (v : Word) : Map Byte := writeLe m o 8 v.toNat

/-- R67: a store to a device register takes effect. A read-only register ignores it (R4). Reserved bits: DEDUCED, log 20. -/
def writeRegister (s : State) (core ctx off : Nat) (v : Word) : State :=
  if off == 0x18 then soon s (.pwrlimWrite v)
  else if off == 0x28 then updMgmt s fun m => { m with late := v }
  else if off == 0x30 then domCommand s v
  else if off == 0x38 then tlbinv s v
  else if off == 0x40 then updMgmt s fun m => { m with ctxsel := v &&& 0x3F#64 }
  else if off == 0x50 then writeErrlog s v
  else if off == 0x58 then dbgctl s v
  else if off == 0x100 then updCore s core fun c => { c with trapring := v &&& 0x800000000003FFC0#64 }
  else if off == 0x108 then updCore s core fun c => { c with ringstat := v }
  else if off == 0x200 then soonCancel s ctx v
  else if off == 0x478 then
    (if v.toNat / 2 ^ 48 % 16 == 0 then soon s (.ctxcmdHold (ctxSel s) (v.getLsbD 52)) else ctxCommand s (ctxSel s) v)
  else if 0x400 ≤ off && off ≤ 0x4A8 then writeCtxReg s (ctxSel s) off v
  else if 0x800 ≤ off && off < 0xA00 then updCtx s ((off - 0x800) / 8) fun x => { x with classmap := v.toNat % 4 }
  else if 0xA00 ≤ off && off < 0xC00 then
    updCtx s ((off - 0xA00) / 8) fun x => { x with ratelim := v, bucket := v.toNat / 2 ^ 32 }
  else if 0xC00 ≤ off && off < 0x1000 then
    updMgmt s fun m => { m with routes := writeTable m.routes (off - 0xC00) (v &&& 0x8F8F8F8F8F8F8F8F#64) }
  else if 0x1000 ≤ off && off < 0x2000 then updMgmt s fun m => { m with policy := writeTable m.policy (off - 0x1000) v }
  else s

end Sys2Proof.Machine
end

