-- ==== Sys2Proof/Machine/Kv.lean ====
section
/-! DEFINITION. The KV block table (R269-R273, R413-R420): the KV forms, and the events of the Interchange's KV unit. -/

namespace Sys2Proof.Machine
open Sys2Proof

/-! ## The tables and lists in memory -/

/-- R416: word 0 of a block descriptor. -/
def packDesc (count gen state tier frame : Nat) : Nat :=
  count * 2 ^ 48 + gen % 256 * 2 ^ 40 + state * 2 ^ 38 + tier * 2 ^ 37 + frame
def setDesc (s : State) (ctx i v : Nat) : State := { s with mem := writeLe s.mem (kvDescAddr s ctx i) 8 v }
def kvTarget (s : State) (ctx i : Nat) : Nat := readLe s.mem (kvDescAddr s ctx i + 8) 8 % 2 ^ 25
def setTarget (s : State) (ctx i f : Nat) : State := { s with mem := writeLe s.mem (kvDescAddr s ctx i + 8) 8 f }
/-- A descriptor with some of its fields changed. -/
def updDesc (s : State) (ctx i : Nat) (count gen state tier frame : Nat → Nat) : State :=
  let d := kvDesc s ctx i
  setDesc s ctx i (packDesc (count (descCount d)) (gen (descGen d)) (state (descState d)) (tier (descTier d)) (frame (descFrame d)))
/-- R415: the key's entry: the descriptor it maps, or unmapped. -/
def setKey (s : State) (ctx key : Nat) (d : Option Nat) : State :=
  match kvEntryAddr s ctx key with
  | some a => { s with mem := writeLe s.mem a 8 (match d with | some i => 2 ^ 63 + i | none => 0) }
  | none => s

/-- R414: list j's base, size and pointers. -/
def listBase (s : State) (ctx j : Nat) : Nat := (ctxReg s ctx (0x448 + 8 * j)).toNat / 2 ^ 12 % 2 ^ 44 * 2 ^ 12
def listSize (s : State) (ctx j : Nat) : Nat := 2 ^ ((ctxReg s ctx (0x448 + 8 * j)).toNat / 2 ^ 59)
def listHead (s : State) (ctx j : Nat) : Nat := (ctxReg s ctx (0x460 + 8 * j)).toNat % 2 ^ 32
def listTail (s : State) (ctx j : Nat) : Nat := (ctxReg s ctx (0x460 + 8 * j)).toNat / 2 ^ 32
def listEmpty (s : State) (ctx j : Nat) : Bool := listHead s ctx j == listTail s ctx j
def setPointers (s : State) (ctx j head tail : Nat) : State :=
  updCtx s ctx fun x => { x with regs := mapSet 0 x.regs (0x460 + 8 * j) (BitVec.ofNat 64 (tail % 2 ^ 32 * 2 ^ 32 + head % 2 ^ 32)) }
/-- R414: an index beyond its range is discarded when taken. -/
def listLimit (j : Nat) : Nat := match j with | 0 => 0xC00000 | 1 => 0x1800000 | _ => 0x1000000
def listTake (s : State) (ctx j : Nat) : Option Nat × State :=
  if listEmpty s ctx j then (none, s)
  else
    let e := readLe s.mem (listBase s ctx j + 4 * (listHead s ctx j % listSize s ctx j)) 4
    (if e < listLimit j then some e else none, setPointers s ctx j (listHead s ctx j + 1) (listTail s ctx j))
/-- R414: an index goes back; a full list is an unrecoverable fault. -/
def listReturn (s : State) (ctx j v : Nat) : State :=
  let n := (listTail s ctx j + 2 ^ 32 - listHead s ctx j) % 2 ^ 32
  if listSize s ctx j ≤ n then soon s (.unrecoverableFault ctx)
  else
    let s1 := { s with mem := writeLe s.mem (listBase s ctx j + 4 * (listTail s ctx j % listSize s ctx j)) 4 v }
    setPointers s1 ctx j (listHead s ctx j) (listTail s ctx j + 1)

/-- R269: the KV status word of a key. -/
def kvStatus (s : State) (ctx key status : Nat) : Word :=
  match kvMapped s ctx key with
  | none => BitVec.ofNat 64 (status * 2 ^ 56)
  | some i =>
    let d := kvDesc s ctx i
    BitVec.ofNat 64 (status * 2 ^ 56 + descGen d * 2 ^ 48 + descCount d % 2 ^ 16 * 2 ^ 32 + descState d * 2 ^ 30 +
      descTier d * 2 ^ 29 + 2 ^ 28 + descFrame d)

/-- R410, R418: the translations of a key leave every TLB. -/
def dropKey (s : State) (ctx key : Nat) : State :=
  { s with tlb := s.tlb.filter fun e => !(e.ctx == ctx && e.key == some key) }
/-- R418: the translations that name a frame leave every TLB. -/
def dropFrame (s : State) (ctx tier f : Nat) : State :=
  { s with tlb := s.tlb.filter fun e => !(e.ctx == ctx && e.key.isSome && e.pa == frameAddr tier f) }

/-- R418: a frame begins to retire; `drops` says that its descriptor goes with it. -/
def retireFrame (s : State) (ctx d tier f : Nat) (drops : Bool) : State :=
  { dropFrame s ctx tier f with
    retires := s.retires ++ [{ k := s.nextId, ctx := ctx, desc := d, tier := tier, frame := f, drops := drops }]
    nextId := s.nextId + 1 }

/-- R418: whether an access to a frame is still to be performed: on its way, waiting at its home, turned back, or in the drain area
of a context that is switched out. -/
def frameBusy (s : State) (tier f : Nat) : Bool :=
  let lo := frameAddr tier f
  (s.net ++ s.ctxs.flatMap fun x => (x.2.saved.map (·.drained)).getD []).any fun p => p.st != .performed && (match p.body with
    | .load a _ _ _ _ => lo ≤ a && a < lo + 0x10000
    | .store a _ _ _ => lo ≤ a && a < lo + 0x10000
    | .copyWord a _ _ _ => lo ≤ a && a < lo + 0x10000
    | .atomic a _ _ => lo ≤ a && a < lo + 0x10000
    | _ => false)

/-- R420: a move of a descriptor is abandoned: the target frame returns and the state goes back. -/
def abandonMove (s : State) (ctx i : Nat) : State :=
  let st := descState (kvDesc s ctx i)
  let s1 := { s with kvCopies := s.kvCopies.filter fun c => !(c.ctx == ctx && c.desc == i && c.kind != 0) }
  if st == 1 then listReturn (updDesc s1 ctx i id id (fun _ => 0) id id) ctx 1 (kvTarget s ctx i)
  else if st == 3 then listReturn (updDesc s1 ctx i id id (fun _ => 2) id id) ctx 0 (kvTarget s ctx i)
  else s1

/-- One key fewer names a descriptor; at none its frame retires with it (R270, R419). -/
def dropCount (s : State) (ctx i : Nat) : State :=
  let s1 := updDesc s ctx i (fun n => n - 1) id id id id
  if descCount (kvDesc s1 ctx i) == 0 then
    let s2 := abandonMove s1 ctx i
    retireFrame s2 ctx i (descTier (kvDesc s2 ctx i)) (descFrame (kvDesc s2 ctx i)) true
  else s1

/-! ## The events of the KV unit -/

/-- What a KV event makes of a form: its status word, or it goes on until a copy ends, or it waits. -/
inductive KvRes
  | status (w : Word) (s : State)
  | copying (s : State)
  | waits

/-- Take a frame of list j and a descriptor together; none when the form gets BUSY (R414, R419). -/
def takePair (s : State) (ctx : Nat) : Option (Nat × Nat) × State :=
  if listEmpty s ctx 0 || listEmpty s ctx 2 then (none, s)
  else match listTake s ctx 0 with
    | (none, s1) => (none, s1)
    | (some f, s1) => match listTake s1 ctx 2 with
      | (some n, s2) => (some (f, n), s2)
      | (none, s2) => (none, listReturn s2 ctx 0 f)

/-- R270: KVMAP. -/
def kvMapEvent (s : State) (ctx key b : Nat) : KvRes :=
  match b with
  | 0 =>
    if (kvMapped s ctx key).isSome then .status (kvStatus s ctx key 6) s
    else match takePair s ctx with
      | (none, s1) => .status (kvStatus s1 ctx key 6) s1
      | (some (f, n), s1) =>
        let s2 := heal { s1 with mem := clearRange s1.mem (frameAddr 0 f) (frameAddr 0 f + 0x10000) } (frameAddr 0 f) 0x10000
        let s3 := setKey (setTarget (setDesc s2 ctx n (packDesc 1 0 0 0 f)) ctx n 0) ctx key (some n)
        .status (kvStatus s3 ctx key 0) s3
  | 1 => match kvMapped s ctx key with
    | none => .status (kvStatus s ctx key 4) s
    | some i =>
      let s1 := dropCount (dropKey (setKey s ctx key none) ctx key) ctx i
      .status (kvStatus s1 ctx key 0) s1
  | _ => .status (kvStatus s ctx key 0) s

/-- R271: KVREF and KVFORK. -/
def kvRefEvent (s : State) (ctx key : Nat) (b : Int) : KvRes :=
  match kvMapped s ctx key with
  | none => .status (kvStatus s ctx key 4) s
  | some i =>
    let n : Int := descCount (kvDesc s ctx i) + b
    if n < 1 || 65535 < n then .status (kvStatus s ctx key 6) s
    else
      let s1 := updDesc s ctx i (fun _ => n.toNat) id id id id
      .status (kvStatus s1 ctx key 0) s1
def kvForkEvent (s : State) (ctx a b : Nat) : KvRes :=
  match kvMapped s ctx a with
  | none => .status (kvStatus s ctx b 4) s
  | some i =>
    if (kvMapped s ctx b).isSome || descCount (kvDesc s ctx i) == 65535 then .status (kvStatus s ctx b 6) s
    else
      let s1 := setKey (updDesc s ctx i (· + 1) id id id id) ctx b (some i)
      .status (kvStatus s1 ctx b 0) s1

/-- R419: a copy on write begins for packet `pkt`. -/
def startCow (s : State) (ctx key i pkt : Nat) (zero : Bool) : KvRes :=
  match takePair s ctx with
  | (none, s1) => .status (kvStatus s1 ctx key 6) s1
  | (some (f, n), s1) =>
    .copying { s1 with
      kvCopies := s1.kvCopies ++ [{ k := s1.nextId, kind := 0, ctx := ctx, key := key, desc := i, new := n, frame := f,
                                    zero := zero, pkt := pkt }]
      nextId := s1.nextId + 1 }

/-- R272, R420: KVW. While a promotion is under way, R272 waits for its end and R420, which decides the events that meet a moving
descriptor, waits at count 1 only: R420 is followed (DEDUCED, log 80). -/
def kvwEvent (s : State) (ctx key pkt : Nat) (zero : Bool) : KvRes :=
  match kvMapped s ctx key with
  | none => .status (kvStatus s ctx key 4) s
  | some i =>
    let d := kvDesc s ctx i
    match descState d with
    | 0 => if descCount d ≤ 1 then .status (kvStatus s ctx key 0) s else startCow s ctx key i pkt zero
    | 1 =>
      if descCount d ≤ 1 then
        let s1 := abandonMove s ctx i
        .status (kvStatus s1 ctx key 0) s1
      else startCow s ctx key i pkt zero
    | 2 => startCow s ctx key i pkt zero
    | _ => if descCount d ≤ 1 then .waits else startCow s ctx key i pkt zero

/-- R273: KVDEM. -/
def kvdemEvent (s : State) (ctx key : Nat) (promote : Bool) : KvRes :=
  match kvMapped s ctx key with
  | none => .status (kvStatus s ctx key 6) s
  | some i =>
    let j := if promote then 0 else 1
    if descState (kvDesc s ctx i) != (if promote then 2 else 0) then .status (kvStatus s ctx key 6) s
    else match listTake s ctx j with
      | (none, s1) => .status (kvStatus s1 ctx key 6) s1
      | (some f, s1) =>
        let s2 := setTarget (updDesc s1 ctx i id id (fun _ => if promote then 3 else 1) id id) ctx i f
        let s3 := { s2 with
          kvCopies := s2.kvCopies ++ [{ k := s2.nextId, kind := if promote then 2 else 1, ctx := ctx, key := key,
                                        desc := i, new := i, frame := f, zero := false, pkt := 0 }]
          nextId := s2.nextId + 1 }
        .status (kvStatus s3 ctx key 0) s3

/-- The context and keys that a KV form names: KVDEM names another context's key. -/
def kvCtx (op ctx : Nat) (a : Word) : Nat := if op == 4 then a.toNat / 2 ^ 40 % 64 else ctx
def kvKey (a : Word) : Nat := a.toNat % 2 ^ 32

/-- R413: one KV event: 0 KVMAP, 1 KVREF, 2 KVFORK, 3 KVW, 4 KVDEM. -/
def kvEvent (s : State) (ctx op : Nat) (a b : Word) (pkt : Nat) : KvRes :=
  let c := kvCtx op ctx a
  if kvHeld s c (kvKey a) || (op == 2 && kvHeld s c (kvKey b)) then .waits
  else match op with
    | 0 => kvMapEvent s c (kvKey a) b.toNat
    | 1 => kvRefEvent s c (kvKey a) b.toInt
    | 2 => kvForkEvent s c (kvKey a) (kvKey b)
    | 3 => kvwEvent s c (kvKey a) pkt (b.getLsbD 0)
    | _ => kvdemEvent s c (kvKey a) (a.getLsbD 46)

/-- The keys, each with its context, that a KV form names. -/
def kvKeys (ctx op : Nat) (a b : Word) : List (Nat × Nat) :=
  (kvCtx op ctx a, kvKey a) :: if op == 2 then [(ctx, kvKey b)] else []
def kvKeysOf (p : Pkt) : List (Nat × Nat) := match p.body with | .kv op a b _ => kvKeys p.ctx op a b | _ => []
/-- The descriptors, each with its context, that its keys map. -/
def kvDescsOf (s : State) (p : Pkt) : List (Nat × Nat) := (kvKeysOf p).filterMap fun e => (kvMapped s e.1 e.2).map fun i => (e.1, i)
/-- R420: a KVW that waits for the flip of a promotion, which holds nothing up but its key. -/
def waitsFlip (s : State) (p : Pkt) : Bool :=
  match p.body with
  | .kv 3 a _ _ => (kvMapped s p.ctx (kvKey a)).any fun i => descState (kvDesc s p.ctx i) == 3
  | _ => false
/-- R269, R413: a KV form that names a key of this one, or a descriptor on which it waits, has arrived before it and is not performed. -/
def kvBehind (s : State) (p : Pkt) : Bool :=
  s.net.any fun q => q.k != p.k && q.st == .waiting && (p.st != .waiting || precedes q p) &&
    ((kvKeysOf q).any (kvKeysOf p).contains || (!waitsFlip s q && (kvDescsOf s q).any (kvDescsOf s p).contains))

/-- The bytes of one frame into another. -/
def copyFrame (s : State) (src dst : Nat) : State :=
  heal { s with mem := writeBytes (clearRange s.mem dst (dst + 0x10000)) dst (readBytes s.mem src 0x10000) } dst 0x10000

/-- R416, R417: the frame of a descriptor in use. -/
def frameInUse (s : State) (ctx i : Nat) : Nat := frameAddr (descTier (kvDesc s ctx i)) (descFrame (kvDesc s ctx i))

/-- R419: a copy on write ends. Poison gives the writer its trap and takes nothing. -/
def kvCopyDone (s : State) (c : KvCopy) : State :=
  let s0 := { s with kvCopies := s.kvCopies.filter fun x => x.k != c.k }
  let src := frameInUse s c.ctx c.desc
  if !c.zero && poisoned s src 0x10000 then
    updPkt (listReturn (listReturn s0 c.ctx 0 c.frame) c.ctx 2 c.new) c.pkt fun p =>
      { p with st := .performed, bad := some (5, BitVec.ofNat 64 ((ctxReg s c.ctx 0x428).toNat / 2 ^ 48 % 512 * 2 ^ 48 + c.key * 0x10000)) }
  else
    let gen := descGen (kvDesc s c.ctx c.desc) + 1
    let dst := frameAddr 0 c.frame
    let s1 := if c.zero then heal { s0 with mem := clearRange s0.mem dst (dst + 0x10000) } dst 0x10000 else copyFrame s0 src dst
    let s2 := setKey (setTarget (setDesc s1 c.ctx c.new (packDesc 1 gen 0 0 c.frame)) c.ctx c.new 0) c.ctx c.key (some c.new)
    let s3 := dropCount (dropKey s2 c.ctx c.key) c.ctx c.desc
    updPkt s3 c.pkt fun p => { p with st := .performed, ans := (kvStatus s3 c.ctx c.key 0).setWidth 512 }

/-- R420: a demotion or promotion copy ends and the descriptor flips; poison abandons it and is logged. -/
def kvFlipDone (s : State) (c : KvCopy) : State :=
  let src := frameInUse s c.ctx c.desc
  if poisoned s src 0x10000 then
    memoryError (abandonMove s c.ctx c.desc) src
  else
    let s0 := { s with kvCopies := s.kvCopies.filter fun x => x.k != c.k }
    let d := kvDesc s c.ctx c.desc
    let tier := if c.kind == 1 then 1 else 0
    let s1 := copyFrame s0 src (frameAddr tier c.frame)
    let s2 := setDesc s1 c.ctx c.desc (packDesc (descCount d) (descGen d + 1) (if c.kind == 1 then 2 else 0) tier c.frame)
    retireFrame s2 c.ctx c.desc (descTier d) (descFrame d) false

/-- R418: a drained frame, and with it its descriptor, goes back to its list. -/
def frameRetired (s : State) (r : Retire) : State :=
  let s0 := { s with retires := s.retires.filter fun x => x.k != r.k }
  let s1 := listReturn s0 r.ctx r.tier r.frame
  if r.drops then listReturn s1 r.ctx 2 r.desc else s1

def execKvCopyEnd (k : Nat) (s : State) : Host.Outcome State Fault Refusal :=
  .next (match s.kvCopies.find? fun c => c.k == k && c.kind == 0 with | some c => kvCopyDone s c | none => s)
/-- R413: a copy on write holds its descriptors against the flip. -/
def descHeld (s : State) (ctx i : Nat) : Bool := s.kvCopies.any fun c => c.kind == 0 && c.ctx == ctx && (c.desc == i || c.new == i)
def execKvFlip (k : Nat) (s : State) : Host.Outcome State Fault Refusal :=
  .next (match s.kvCopies.find? fun c => c.k == k && c.kind != 0 with
    | some c => if descHeld s c.ctx c.desc then s else kvFlipDone s c
    | none => s)
def execFrameRetire (k : Nat) (s : State) : Host.Outcome State Fault Refusal :=
  .next (match s.retires.find? fun r => r.k == k with
    | some r => if frameBusy s r.tier r.frame then s else frameRetired s r
    | none => s)

end Sys2Proof.Machine
end

