-- ==== Sys2Proof/Machine/Net.lean ====
section
/-! DEFINITION. The network (R17-R25, R275-R298, R424-R426, R447, R448): how a packet travels, is performed at its home and is
acknowledged. `arrive` says what each kind of packet does at its home; each event of the table is `arrive`, a landing or an
acknowledgement for its own kinds. -/

namespace Sys2Proof.Machine
open Sys2Proof

/-! ## Packets of another member's stream (R293, R430-R433, R437); what is in a payload is notes/assumptions/12.md -/

/-- n bytes of a payload from an offset, little-endian. -/
def pay (bs : List Byte) (o n : Nat) : Nat := bytesNat ((bs.drop o).take n)
def getStream (s : State) (m : Nat) : Stream := mapGet Stream.init s.dom.streams m
def updStream (s : State) (m : Nat) (f : Stream → Stream) : State :=
  updDom s fun d => { d with streams := mapPut d.streams m (f (mapGet Stream.init d.streams m)) }

/-- R436: the member id that this device's packets name as their source: while it joins, the id that it proposes. -/
def ownId (s : State) : Nat := match s.dom.joining with | some (_, m) => m | none => s.dom.member
/-- A packet in clear, without its number. -/
def fabPacket (s : State) (m cls kind ctx : Nat) (colour : Bool) (payload : List Byte) : FabPkt :=
  { dst := m, src := ownId s, gen := 0, cls := cls, kind := kind, seq := 0, ctx := ctx, colour := colour,
    hops := 16, rsvd := 0, payload := payload }
/-- R430: the bytes on a link of a packet whose payload is in clear. -/
def fabSize (p : FabPkt) : Nat := 48 + p.payload.length
/-- R430, R433: the bytes of a sealed packet. -/
def sealedSize (p : FabPkt) : Nat := 32 + p.payload.length
def shadowSize (x : Stream) : Nat := (x.shadow.map sealedSize).sum

/-- R430: a packet's routing header, with a hop count and the length of its payload in clear. -/
def headerBytes (p : FabPkt) (hops n : Nat) : List Byte :=
  natBytes 2 (p.dst % 1024 + p.rsvd % 64 * 1024) ++ natBytes 2 (p.src % 1024 + p.rsvd / 64 % 64 * 1024) ++ natBytes 2 p.gen ++
    natBytes 1 p.cls ++ natBytes 1 p.kind ++ natBytes 8 p.seq ++
    [BitVec.ofNat 8 (p.ctx % 64 + (if p.colour then 64 else 0) + p.rsvd / 4096 % 2 * 128), BitVec.ofNat 8 hops] ++
    natBytes 2 n ++ natBytes 12 (p.rsvd / 8192)
/-- R431: the nonce, little-endian by field. -/
def nonce (p : FabPkt) : List Byte := natBytes 2 p.gen ++ natBytes 2 p.src ++ natBytes 8 p.seq
/-- R437: the traffic key from one member to another. -/
def trafficKey (d : Dom) (g a b : Nat) : List Byte :=
  let m := ((d.secrets.find? fun e => e.1 == g).map (·.2)).getD []
  Config.hkdf (List.replicate 64 0) m
    ([0x49#8, 0x58#8, 0x52#8, 0x4F#8, 0x56#8, 0x2D#8, 0x46#8, 0x41#8, 0x42#8] ++ natBytes 2 g ++ natBytes 2 a ++ natBytes 2 b)
/-- R436, R437: the key of a re-key message between two members: that of their SPDM session once its secret is agreed; two members
without one, as after an election, use the traffic key of the present generation, and a joiner none before its session has a secret.
DESIGN CHOICE, log 12. -/
def sessionKey (s : State) (a b : Nat) : List Byte :=
  let m := if a == ownId s then b else a
  match s.dom.sessions.find? fun x => x.id == m + 1 && (x.phase == 4 || x.phase == 5) with
  | some x => x.secret
  | none => if s.dom.gen != 0 && s.dom.members.contains m then trafficKey s.dom s.dom.gen a b else []
def packetKey (s : State) (p : FabPkt) : List Byte :=
  if p.kind == 5 then sessionKey s p.src p.dst else trafficKey s.dom p.gen p.src p.dst
/-- The first n of some bytes, with zeros where they are fewer. -/
def fixLen (n : Nat) (bs : List Byte) : List Byte := (bs ++ List.replicate n 0).take n
/-- R430, R431: what the tag covers beside the payload: nonce, and the header with the hop count that the source gave it, since every
hop lowers it. DEDUCED, log 12. -/
def sealedWith (p : FabPkt) (n : Nat) : List Byte := nonce p ++ headerBytes p 16 n
/-- R430: a packet sealed: its payload's ciphertext and the tag of 16 bytes. -/
def sealPkt (s : State) (p : FabPkt) : FabPkt :=
  { p with payload := fixLen (p.payload.length + 16) (Config.ciphertext (packetKey s p) (sealedWith p p.payload.length) p.payload) }
/-- R430: a packet opened; none where its tag fails. -/
def openPkt (s : State) (p : FabPkt) : Option FabPkt :=
  let n := p.payload.length - 16
  if p.payload.length < 16 || 528 < p.payload.length then none
  else (Config.opened (packetKey s p) (sealedWith p n) p.payload).map fun bs => { p with payload := fixLen n bs }

/-- R438, R440: the newest key generation this member has. -/
def newGen (d : Dom) : Nat := d.secrets.foldl (fun g e => max g e.1) d.gen
/-- R295, R440: a stream whose old packets are all acknowledged moves to the newest generation, unless its member is lost. -/
def moveStream (s : State) (m : Nat) : State :=
  let x := getStream s m
  if x.gen < newGen s.dom && x.shadow.isEmpty && (s.dom.barrier.isEmpty || s.dom.barrier.contains m) then
    updStream s m fun y => { y with gen := newGen s.dom, next := 0 }
  else s
/-- R432, R433, R440: a packet may take its sequence number: no packet of its class waits before it, the destination has
room for it, send-shadow SRAM has, and its stream is on the newest generation. -/
def maySequence (s : State) (m : Nat) (p : FabPkt) : Bool :=
  let x := getStream s m
  x.gen == newGen s.dom &&
  !(x.waiting.any fun q => q.cls == p.cls) && fabSize p ≤ mapGet 560 x.allowance p.cls &&
    shadowSize x + fabSize p ≤ 2 ^ 21 && (s.dom.streams.map fun e => shadowSize e.2).sum + fabSize p ≤ 2 ^ 24

/-- R293, R433: the packet takes the stream's next number, is sealed into send-shadow SRAM, and leaves. -/
def sequencePkt (s : State) (m : Nat) (p : FabPkt) : State :=
  let q := sealPkt s { p with seq := (getStream s m).next, gen := (getStream s m).gen }
  let s1 := updStream s m fun x => { x with
    next := x.next + 1
    since := if x.shadow.isEmpty then s.dtime else x.since
    allowance := mapPut x.allowance p.cls (mapGet 560 x.allowance p.cls - fabSize p)
    shadow := x.shadow ++ [q] }
  updDom s1 fun d => { d with outbox := d.outbox ++ [q] }

/-- R432, R433: a packet enters its stream or waits unsequenced. -/
def enterStream (s0 : State) (m : Nat) (p : FabPkt) : State :=
  let s := moveStream s0 m
  if maySequence s m p then sequencePkt s m p else updStream s m fun x => { x with waiting := x.waiting ++ [p] }
/-- R433, R440: an idle stream moves to the newest generation, and what waits unsequenced may enter now. -/
def pumpStream (s : State) (m : Nat) : State :=
  (getStream s m).waiting.foldl (fun z p => enterStream z m p) (updStream (moveStream s m) m fun x => { x with waiting := [] })
def pumpAll (s : State) : State := (s.dom.streams.map (·.1)).foldl pumpStream s

/-- R431: the generation of an escape packet: the present one between members, else the newest this member has. -/
def escGen (s : State) (m : Nat) : Nat := if s.dom.gen != 0 && s.dom.members.contains m then s.dom.gen else newGen s.dom
/-- R431: an escape-class packet takes a number of the counter of its member pair and generation, bit 63 set, and is sent once. -/
def sendEscape (s0 : State) (m kind : Nat) (payload : List Byte) : State :=
  let g := escGen s0 m
  let s := updStream s0 m fun x => if x.egen == g then x else { x with egen := g, escOut := 0 }
  let q := sealPkt s { fabPacket s m 5 kind 0 false payload with seq := 2 ^ 63 + (getStream s m).escOut, gen := g }
  updDom (updStream s m fun x => { x with escOut := x.escOut + 1 }) fun d => { d with outbox := d.outbox ++ [q] }

/-- A message to another member's Plaza or Interchange is cut into packets of kind 4; the first byte says whether it ends. -/
def plazaParts : Nat → List Byte → List (List Byte)
  | 0, bs => [1 :: bs]
  | n + 1, bs => if bs.length ≤ 500 then [1 :: bs] else (0 :: bs.take 500) :: plazaParts n (bs.drop 500)
def sendParts (s : State) (m cls ctx : Nat) (bs : List Byte) : State :=
  (plazaParts bs.length bs).foldl (fun z p => enterStream z m (fabPacket z m cls 4 ctx false p)) s
def sendPlaza (s : State) (m : Nat) (bs : List Byte) : State := sendParts s m 4 0 bs
/-- The other members that have an entry in a group. -/
def groupDevices (s : State) (g : Group) : List Nat :=
  ((g.entries.map fun e => e / 2 ^ 16 % 1024).eraseDups).filter fun m => m != s.dom.member
def tellGroup (s : State) (g : Group) (bs : List Byte) : State := (groupDevices s g).foldl (fun z m => sendPlaza z m bs) s
/-- R379: a message to every other member of the domain. -/
def tellDomain (s : State) (bs : List Byte) : State :=
  (s.dom.members.filter fun m => m != s.dom.member).foldl (fun z m => sendPlaza z m bs) s
/-- The members of a group that a strand owns. -/
def membersOwned (s : State) (gid uid : Nat) : List Nat :=
  ((s.plaza.groups.find? fun g => g.gid == gid).map fun g => (g.owners.filter fun o => o.2 == uid).map (·.1)).getD []
def markMessage (gid m : Nat) (un : Bool) : List Byte := 5 :: natBytes 2 gid ++ natBytes 2 m ++ [if un then 1 else 0]
/-- R312, R387: a strand's notice for a group goes to the group's home Plaza, which tells every member device. -/
def groupNotice (s : State) (h : Word) (uid : Nat) (un : Bool) : State :=
  let gid := h.toNat % 2 ^ 16
  if handleKind h != 7 then countNotice s h uid un
  else match s.plaza.groups.find? fun g => g.gid == gid with
    | none => s
    | some g =>
      let ms := membersOwned s gid uid
      if g.plaza == s.dom.member then ms.foldl (fun z m => tellGroup z g (markMessage gid m un)) (countNotice s h uid un)
      else ms.foldl (fun z m => sendPlaza z g.plaza (markMessage gid m un)) s

/-- The payload of a request to another member: operation, number, address, bytes and operands. -/
def requestPayload (p : Pkt) : List Byte :=
  match p.body with
  | .load a n _ _ _ => 0 :: natBytes 8 p.k ++ natBytes 8 (a % 2 ^ 42) ++ natBytes 4 n
  | .copyWord a n _ _ => 0 :: natBytes 8 p.k ++ natBytes 8 (a % 2 ^ 42) ++ natBytes 4 n
  | .store a n m d => 1 :: natBytes 8 p.k ++ natBytes 8 (a % 2 ^ 42) ++ natBytes 4 n ++ natBytes 2 m.toNat ++ natBytes 16 d.toNat
  | .atomic a n o => 2 :: natBytes 8 p.k ++ natBytes 8 (a % 2 ^ 42) ++ natBytes 4 n ++ natBytes 1 o.op ++ natBytes 1 o.ty ++
      natBytes 8 o.b.toNat ++ natBytes 8 o.d.toNat
  | _ => []

/-- The bytes of an answer. -/
def answerSize : Body → Nat
  | .load _ n _ _ _ => n
  | .copyWord _ n _ _ => n
  | .atomic _ n _ => n
  | _ => 0
/-- R296: the reply to a request of another member: the trap class or 0, the number, trapinfo, and n bytes of answer. -/
def replyPayload (num n : Nat) (ans : BitVec 512) (bad : Option (Nat × Word)) : List Byte :=
  natBytes 1 ((bad.map (·.1)).getD 0) ++ natBytes 8 num ++ natBytes 8 ((bad.map (·.2.toNat)).getD 0) ++ natBytes n ans.toNat

/-- R424: the request class of a context. -/
def reqClass (s : State) (ctx : Nat) : Nat := (getCtx s ctx).classmap % 4

/-! ## Atomics (R59-R61, R224, R291) -/

/-- R224: the new word and the flags. -/
def atomicNew (o : AtomOp) (old : Nat) : Nat × BitVec 5 :=
  let w := intWidth o.ty
  let b := o.b.toNat % 2 ^ w
  let pick := fun (x : Bool) => if x then old else b
  let int := fun (n : Int) => (intNarrow o.ty false n, (0 : BitVec 5))
  if o.ty == 5 && o.op == 0x280 then
    let r := fpAdd fp32 .rne (fpValue fp32 old) (fpValue fp32 (o.b.toNat % 2 ^ 32))
    (r.bits, r.fl)
  else if o.ty == 5 && (o.op == 0x284 || o.op == 0x285) then
    let r := fpMinMax fp32 (o.op == 0x285) old (o.b.toNat % 2 ^ 32)
    (r.bits, r.fl)
  else match o.op with
    | 0x280 => int (intValue o.ty old + intValue o.ty b)
    | 0x281 => (old &&& b, 0)
    | 0x282 => (old ||| b, 0)
    | 0x283 => (old ^^^ b, 0)
    | 0x284 => (pick (intValue o.ty old ≤ intValue o.ty b), 0)
    | 0x285 => (pick (intValue o.ty b ≤ intValue o.ty old), 0)
    | 0x286 => (b, 0)
    | 0x287 => (if old = o.d.toNat % 2 ^ w then b else old, 0)
    | _ => (if intValue o.ty b ≤ intValue o.ty old then 0 else old + 1, 0)

/-- R224: the width in bytes of an atomic's word. -/
def atomBytes (ty : Nat) : Nat := if ty == 5 then 4 else intWidth ty / 8
/-- R224: what the requester's register gets. -/
def atomicResult (ty old : Nat) : Word := if ty == 5 then BitVec.ofNat 64 (old % 2 ^ 32) else intExtend ty old

/-- A strand's flags and register take an atomic's result, wherever the strand is (R61). -/
def answerAtomic (s : State) (p : Pkt) (o : AtomOp) (old : Nat) (fl : BitVec 5) : State :=
  let s1 := updUid s p.uid fun t => raise t fl
  let s2 := if fl = 0 then s1 else mapImages s1 p.uid 1128 fun w => w ||| fl.setWidth 64
  answer s2 p.uid p.k (some (.g o.dst)) 0xFFFF ((atomicResult o.ty old).setWidth 128)

def overlap (a n b m : Nat) : Bool := a < b + m && b < a + n

/-- R276, R291: an access to some of the bytes arrived earlier and still waits at their home. -/
def earlierWaits (s : State) (p : Pkt) (a n : Nat) : Bool :=
  s.net.any fun q => q.st == .waiting && q.k != p.k && q.home == p.home && precedes q p &&
    ((bodyBytes q.body).map fun r => overlap r.1 r.2 a n).getD false

/-- R291: the reservation of packet k may be granted: it is the first in the order of arrival. -/
def grantable (s : State) (k : Nat) : Bool :=
  match s.resv.find? fun r => r.k == k, findPkt s k with
  | some r, some p => !r.granted && !(s.resv.any fun q => q.granted && overlap q.addr q.n r.addr r.n) && !earlierWaits s p r.addr r.n
  | _, _ => false

/-- R291 steps 1 to 3: the grant, and the new value that the requester computes. -/
def grantAtomic (s : State) (p : Pkt) (a n : Nat) (o : AtomOp) : State :=
  let old := readLe s.mem a n
  { s with resv := s.resv.map fun r =>
      if r.k == p.k then { r with granted := true, old := BitVec.ofNat 64 old, new := BitVec.ofNat 64 (atomicNew o old).1 } else r }

/-- R291 step 4: the word is written and the reservation released. -/
def writeAtomic (s : State) (p : Pkt) (a n : Nat) : State :=
  match s.resv.find? fun r => r.k == p.k with
  | some r => heal { s with mem := writeLe s.mem a n r.new.toNat, resv := s.resv.filter fun q => q.k != p.k } a n
  | none => s

/-! ## What a packet does at its home -/

/-- R276, R291: plain data at a word that an atomic holds, or behind what waits at the same bytes, waits. -/
def dataClear (s : State) (p : Pkt) (a n : Nat) : Bool :=
  !(s.resv.any fun r => r.granted && overlap r.addr r.n a n) && !earlierWaits s p a n

/-- A packet ends with a trap for its strand. -/
def badPkt (s : State) (p : Pkt) (cls : Nat) (info : Word) : State :=
  countRecv (updPkt s p.k fun q => { toSource q with bad := some (cls, info) }) p

/-- R421, R422: a request that the host port sends itself: it belongs to the IDE stream once that is Secure. -/
def sendTlp (s : State) (a tag n : Nat) (data : Option (List Byte)) : State :=
  updMgmt s fun m => { m with tlp := some { kind := 0, bar := 0, ide := m.ideSecure, offset := a, tag := tag, len := n, data := data } }
/-- R421: the lowest of the 14-bit tags that is free, while fewer than 1,024 reads are outstanding. Which tag is taken: DESIGN CHOICE,
log 79. -/
def freeTag (s : State) : Option Nat :=
  if 1024 ≤ s.mgmt.tags.length then none else (List.range 1025).find? fun t => !s.mgmt.tags.any fun e => e.1 == t
/-- R298, R421: a host-window load leaves as a read request and waits for its completion. -/
def hostLoad (s : State) (p : Pkt) (a n : Nat) : State :=
  match freeTag s with
  | some t => queuePkt (sendTlp (updMgmt s fun m => { m with tags := (t, p.k) :: m.tags }) a t n none) p
  | none => queuePkt s p
/-- R298, R421: the completion of a host-window load has come. What a load gets by an unsuccessful one is open: DESIGN CHOICE, log 79. -/
def hostCompletion (s : State) (t : Nat) (data : Option (List Byte)) : State :=
  match s.mgmt.tags.find? fun e => e.1 == t with
  | none => s
  | some (_, k) =>
    let s1 := updMgmt s fun m => { m with tags := m.tags.filter fun e => e.1 != t }
    match findPkt s1 k with
    | none => s1
    | some p =>
      let n := answerSize p.body
      let bs := match data with | some bs => bytesNat (fixLen n bs) | none => farBytes s.fresh 0 n
      performed { s1 with fresh := s.fresh + 1 } p (BitVec.ofNat 512 bs)

/-- R276, R345: a load of data: its value, or the poison trap. -/
def readData (s : State) (p : Pkt) (a n : Nat) : State :=
  if p.home == .hostPort then hostLoad s p a n
  else if poisoned s a n then badPkt s p 5 p.ea
  else performed s p (BitVec.ofNat 512 (readLe s.mem a n))

/-- The bytes of a store that its mask names, one after another. -/
def maskedBytes (n : Nat) (mask : BitVec 16) (v : Vec) : List Byte :=
  (List.range n).filterMap fun i => if mask.getLsbD i then some (BitVec.ofNat 8 (v.toNat / 256 ^ i)) else none
/-- R276, R298, R345: a store of data; the bytes it writes are whole again. At the host port it leaves as a posted write. -/
def writeData (s : State) (p : Pkt) (a n : Nat) (mask : BitVec 16) (v : Vec) : State :=
  if p.home == .hostPort then performed (sendTlp s a 0 n (some (maskedBytes n mask v))) p 0
  else performed { s with
    mem := writeMasked s.mem a mask.toNat n v.toNat
    poison := s.poison.filter fun q => q < a || a + n ≤ q || !mask.getLsbD (q - a) } p 0

/-- A granted request: its parked strand goes on with the grant, or the strand that is issuing it reads the answer. -/
def grant (s : State) (p : Pkt) (now : Bool) (n : Nat) : State :=
  if now then performed s p (BitVec.ofNat 512 n) else answerGrant (countRecv (delPkt s p.k) p) p.uid p.k n
/-- Whether the strand that made a request still waits for it. -/
def stillAsks (s : State) (p : Pkt) : Bool := ((strandOf s p.uid).map fun t => asksFor t p.k).getD false

/-- R215, R445: an entry that no message holds, nor is on its way to; it may still show the bytes of the last. -/
def entryFree (c : Core) (n : Nat) : Bool := !(mapGet InEntry.init c.inbox n).reserved
/-- R215: the lowest free entry of the pool. -/
def poolEntry (c : Core) : Option Nat := ((List.range 112).map (· + 16)).find? (entryFree c)
def reserveEntry (s : State) (core n : Nat) : State :=
  updCore s core fun c => { c with inbox := mapPut c.inbox n { mapGet InEntry.init c.inbox n with reserved := true } }
/-- R215: the packet of the strand that has waited longest for a pool entry. -/
def poolPkt (s : State) (core : Nat) : Option Pkt :=
  match (getCore s core).poolWait with
  | [] => none
  | u :: _ => s.net.find? fun p => p.uid == u && p.st == .waiting && p.body == .chanAsk core (2 ^ 18)
/-- R215: the head of the line takes a free pool entry; a request whose strand has gone leaves the line.
`now` names the packet of a strand that is still issuing its SEND. -/
def poolGrant (s : State) (core : Nat) (now : Option Nat) : State :=
  match (getCore s core).poolWait with
  | [] => s
  | _ :: rest =>
    let drop := updCore s core fun c => { c with poolWait := rest }
    match poolPkt s core, poolEntry (getCore s core) with
    | none, _ => drop
    | some _, none => s
    | some p, some n =>
      if now == some p.k || stillAsks s p then grant (reserveEntry drop core n) p (now == some p.k) n else delPkt drop p.k

/-- R216, R220: a slot of a channel for the oldest producer that waits. -/
def chanGrant (s : State) (p : Pkt) (core off : Nat) (now : Bool) : State :=
  if !now && !stillAsks s p then countRecv (delPkt s p.k) p
  else
    let (pos, s1) := chReserve s core off
    grant s1 p now pos
/-- The oldest producer that waits for a slot of a channel. -/
def chanWaiter (s : State) (core off : Nat) : Option Pkt := oldestWaiting s fun p => p.body == .chanAsk core off
/-- R216: a reservation reaches a channel's home. -/
def chanAsked (s : State) (p : Pkt) (core off : Nat) (now : Bool) : State :=
  if off == 2 ^ 18 then
    poolGrant (queuePkt (updCore s core fun c => { c with poolWait := c.poolWait ++ [p.uid] }) p) core (if now then some p.k else none)
  else if !chOpenBit s core off || !chProduces s core off p.uid then badPkt s p 4 p.ea
  else if chRoom s core off && (chanWaiter s core off).isNone then chanGrant s p core off now
  else queuePkt s p

/-- R230, R359: a reservation at a ring's home, of one of its producers. -/
def ringAsked (s : State) (p : Pkt) (core off : Nat) (now : Bool) : State :=
  if !rgProduces s core off p.uid then badPkt s p 4 p.ea
  else
  let first := match oldestWaiting s fun q => q.body == .ringAsk core off with | some q => q.k == p.k | none => true
  if rgRoom s core off && first then
    if !now && !stillAsks s p then countRecv (delPkt s p.k) p
    else
      let (i, s1) := rgReserve s core off
      grant s1 p now i
  else if p.st == .waiting then s else queuePkt s p

/-- R219: a producer registers (1), has registered before (0), or is refused. -/
def chanRegister (s : State) (p : Pkt) (core off : Nat) : State :=
  if (prodBit (getCore s core) off p.uid).isSome then performed s p 0
  else if chProducers s core off ≤ chRegistered s core off then badPkt s p 4 p.ea
  else performed (chRegister s core off p.uid) p 1
/-- R219: a CH.OPEN reaches the header's home. A consumer's open lets the producers that wait register in their order. -/
def chanOpened (s : State) (p : Pkt) (core off role : Nat) : State :=
  if role == 0 then
    if core != coreOf p.sid || !chCanOpen s core off then badPkt s p 4 p.ea
    else
      let s1 := performed (chOpen s core off p.sid) p 0
      (s1.net.filter fun q => q.st == .waiting && q.body == .chanOpen core off 1).foldl (fun z q => chanRegister z q core off) s1
  else if chOpenBit s core off then chanRegister s p core off
  else queuePkt s p

/-- R230: a producer of a ring: it is one that has still to end (1), has ended (0), or is refused. -/
def ringRegister (s : State) (p : Pkt) (core off : Nat) : State :=
  if (prodBit (getCore s core) off p.uid).isSome then performed s p (if rgProduces s core off p.uid then 1 else 0)
  else if rgProducers s core off ≤ rgRegistered s core off then badPkt s p 4 p.ea
  else performed (rgRegister s core off p.uid) p 1

/-- R215, R445: a message lands in its entry; one sent on a standing credit takes entry 2s if that is free, else 2s + 1. -/
def inboxLand (s : State) (core entry : Nat) (bytes : List Byte) : State :=
  updCore { s with nextId := s.nextId + 1 } core fun c =>
    let n := if entry < 16 && !entryFree c entry then entry + 1 else entry
    { c with inbox := mapPut c.inbox n { reserved := true, full := true, taken := false, order := s.nextId, bytes := bytes } }

/-- R354, R356: a counter event; `last` registers on a set and clears the registration on an add. The counter is evaluated
once the events of the cycle are over. -/
def counterEvent (s : State) (b i : Nat) (add last : Bool) (v : BitVec 48) (startId : Nat) : State :=
  updTc s b i fun t => { t with
    count := if add then t.count + v else v
    strands := if !last then t.strands else if add then t.strands.filter (· != startId)
      else if t.strands.contains startId then t.strands else t.strands ++ [startId]
    moved := true }

/-- R392: a join, arrival or leave. Whether its phase completes is tested once the events of the cycle are over. -/
def barrierEvent (s : State) (b i op uid : Nat) (v : Option (BitVec 32)) : State :=
  updHb s b i fun h => match op with
    | 0 => hbArrive h uid v
    | 1 => hbLeave h uid
    | _ => hbJoin h uid
/-- R392: the test of one barrier. A phase that completes is broadcast: each waiter of it takes its result. -/
def settleBarrier (s : State) (b i : Nat) : State :=
  let old := getHb s b i
  let new := hbTest old
  let s1 := setHb s b i new
  if new.phase = old.phase then s1
  else wakeWhere s1
    (fun t => waitsOn t 0x2C3 (hbHandle b i) && (t.wait.map fun w => w.arg == old.phase.setWidth 64).getD false)
    fun w => { w with stage := .granted new.result.toNat }
/-- R315, R392: the barriers whose arrivals or leaves of this cycle have still to be tested. -/
def settleBarriers (s : State) : State :=
  (s.hubs.flatMap fun h => (h.2.hb.filter fun e => e.2.moved).map fun e => (h.1, e.1)).foldl (fun z e => settleBarrier z e.1 e.2) s

/-- R394. -/
def wordEvent (s : State) (core off op : Nat) (n : Word) : State :=
  match op with
  | 0 => mbInit s core off (n.toNat % 2 ^ 32)
  | 1 => mbArrive s core off (n.toNat % 2 ^ 32)
  | _ => mbExpect s core off (n.toNat % 2 ^ 48)

/-- R293: a request for another member's home enters its stream. -/
def goFabric (s : State) (p : Pkt) (m : Nat) : State :=
  queuePkt (enterStream s m (fabPacket s m (reqClass s p.ctx) 0 p.ctx p.colour (requestPayload p))) p

/-- R410: accesses of a context, sent before packet number n, that have not been performed; those in its drain area too. -/
def inFlight (s : State) (ctx n : Nat) : Bool :=
  (s.net ++ ((getCtx s ctx).saved.map (·.drained)).getD []).any fun p =>
    p.k < n && p.ctx == ctx && p.st != .performed && (bodyBytes p.body).isSome
/-- R410: the context a TLBINV value names; none when the store is ignored. -/
def tlbCtx (v : Word) : Nat :=
  if v.toNat / 2 ^ 45 % 2 ^ 11 != 0 || v.toNat / 2 ^ 62 == 3 then 0 else v.toNat / 2 ^ 56 % 64

/-- What a packet does at its home. `now` says that the strand is still issuing the instruction that sent it. -/
def arrive (now : Bool) (s : State) (p : Pkt) : State :=
  match p.home with
  | .member m => goFabric s p m
  | _ => match p.body with
    | .load a n _ _ _ => if dataClear s p a n then readData s p a n else queuePkt s p
    | .store a n m v => if dataClear s p a n then writeData s p a n m v else queuePkt s p
    | .copyWord a n _ _ =>
      if p.home == .register then performed s p ((readRegister s (coreOf p.sid) p.ctx a).setWidth 512)
      else if dataClear s p a n then readData s p a n else queuePkt s p
    | .regLoad c x off _ => performed s p ((readRegister s c x off).setWidth 512)
    | .regStore c x off v =>
      if p.st == .waiting then performed s p 0
      else if off == 0x38 && !inFlight s (tlbCtx v) s.nextId then
        performed (writeRegister s c x off v) p 0
      else if off == 0x38 then
        queuePkt (writeRegister s c x off v) { p with ans := BitVec.ofNat 512 s.nextId }
      else performed (writeRegister s c x off v) p 0
    | .atomic a n _ =>
      queuePkt { s with resv := s.resv ++ [{ k := p.k, addr := a, n := n, granted := false, old := 0, new := 0 }] } p
    | .putr sid r v _ =>
      match putTarget s sid with
      | none => performed s p 0
      | some u =>
        if ((strandOf s u).map fun t => copying t (.g r)).getD false then (if p.st == .waiting then s else queuePkt s p)
        else performed (landReg s u (.g r) 0xFFFF (v.setWidth 128)) p 0
    | .message c e bs => performed (inboxLand s c e bs) p 0
    | .chanAsk c off => chanAsked s p c off now
    | .chanMsg c off slot bs last => performed (chLand s c off slot bs last p.uid) p 0
    | .chanOpen c off role => chanOpened s p c off role
    | .ringProd c off => ringRegister s p c off
    | .ringAsk c off => ringAsked s p c off now
    | .ringData c off i n bs last => performed (rgLand s c off i n bs last) p 0
    | .ringToken c off => performed (rgToken s c off p.uid) p 0
    | .hb b i op v => performed (barrierEvent s b i op p.uid v) p 0
    | .mb c off op n => performed (wordEvent s c off op n) p 0
    | .tc b i add last v => performed (counterEvent s b i add last v (((strandOf s p.uid).map (·.startId)).getD p.sid)) p 0
    | .kv op a b _ =>
      if kvBehind s p then (if p.st == .waiting then s else queuePkt s p)
      else match kvEvent s p.ctx op a b p.k with
      | .status w s1 => performed s1 p (w.setWidth 512)
      | .copying s1 => queuePkt s1 p
      | .waits => if p.st == .waiting then s else queuePkt s p
    | .notice h un => performed (if objCtx s h == some p.ctx then groupNotice s h p.uid un else s) p 0

/-- R291: an object's packet finds none of the bytes it acts on reserved: its header or word, and the slot it fills. -/
def objClear (s : State) (b : Body) : Bool :=
  ((objBytes b).toList ++ (slotSpan s b).toList).all fun r => !reserved s r.1 r.2

/-- A packet is performed now: it has arrived and it is its turn (R276), or it waited and nothing hinders it any more. -/
def mayPerform (s : State) (p : Pkt) : Bool :=
  (pending s p && !behind s p && homeTurn s p && objClear s p.body) || (p.st == .waiting && (match p.home with
    | .member _ => false
    | .core c => bankGrants s p c
    | .quay d q => !inUse s (.quay d q)
    | .hostPort => !(s.mgmt.tags.any fun e => e.2 == p.k) && (freeTag s).isSome
    | _ => true) && (match p.body with
    | .load a n _ _ _ => dataClear s p a n
    | .store a n _ _ => dataClear s p a n
    | .copyWord a n _ _ => dataClear s p a n
    | .regStore _ _ _ v => !inFlight s (tlbCtx v) p.ans.toNat
    | .putr _ _ _ _ => true
    | .ringAsk _ _ => objClear s p.body
    | .kv _ _ _ _ => !(s.kvCopies.any fun c => c.kind == 0 && c.pkt == p.k)
    | _ => false))

/-- The kinds of body of each event of the table. -/
inductive Kind | access | message | chanMsg | ringAsk | ringData | ringToken | hb | mb | tc | putr | kv | withhold | unwithhold
  deriving DecidableEq, Repr
def kindOf : Body → Kind
  | .putr _ _ _ _ => .putr
  | .message _ _ _ => .message
  | .chanMsg _ _ _ _ _ => .chanMsg
  | .ringAsk _ _ => .ringAsk
  | .ringData _ _ _ _ _ _ => .ringData
  | .ringToken _ _ => .ringToken
  | .hb _ _ _ _ => .hb
  | .mb _ _ _ _ => .mb
  | .tc _ _ _ _ _ => .tc
  | .kv _ _ _ _ => .kv
  | .notice _ un => if un then .unwithhold else .withhold
  | _ => .access

/-- An arrival event of one kind. What cannot be performed yet may be served by some of its banks. -/
def arrival (kind : Kind) (k : Nat) (s : State) : Host.Outcome State Fault Refusal :=
  .next (match findPkt s k with
    | some p => if kindOf p.body == kind then (if mayPerform s p then arrive false (takePort s p) p else gainBanks s p) else s
    | none => s)

/-- R310, R318: a notice leaves once its home has acknowledged every earlier access of its strand to that home, in the order in which
they were issued. -/
def noticeFree (s : State) (p : Pkt) : Bool :=
  !isNotice p.body || !s.net.any fun q => q.uid == p.uid && q.home == p.home && q.k < p.k && !isNotice q.body

/-! ## Landings and acknowledgements -/

/-- R296: what this device performed for another member is answered in the response class. -/
def sendReply (s : State) (p : Pkt) (m num : Nat) : State :=
  enterStream (delPkt s p.k) m (fabPacket s m 4 1 p.ctx p.colour (replyPayload num (answerSize p.body) p.ans p.bad))

/-- R202, R203: the register, byte mask and value of a landing load. -/
def landing (p : Pkt) : Option (RegRef × BitVec 16 × Vec) :=
  match p.body with
  | .load _ n ty mask dst =>
    let v := p.ans.toNat % 2 ^ (8 * n)
    some (dst, mask, match dst with
      | .g _ => (if ty == 5 then BitVec.ofNat 128 v else (intExtend ty v).setWidth 128)
      | .v _ => BitVec.ofNat 128 v)
  | .regLoad _ _ _ dst => some (dst, 0xFFFF, p.ans.setWidth 128)
  | .kv _ _ _ dst => some (dst, 0xFFFF, (p.ans.setWidth 64 : Word).setWidth 128)
  | _ => none

/-- R204, R296: the answer is a word of a multiple load, or a part of a block (its mask is 0), and its strand still waits. -/
def isWord (s : State) (p : Pkt) : Bool :=
  (strandOf s p.uid).any fun t => asksFor t p.k && (t.wait.any fun w => w.form == 0x204) ||
    asksFor t p.k && (match p.body with | .load _ _ _ m _ => m == 0 | _ => false)
/-- It is kept, under the address it was read from, until all is there, and the strand goes on to the next. -/
def keepWord (ea v : Nat) (w : Wait) : Wait := { w with got := w.got ++ [(ea, v)], stage := .test }

/-- R202: the answer's register still waits for a copy, so that the answer may not be written yet. -/
def copyFirst (s : State) (p : Pkt) : Bool :=
  p.bad.isNone && (landing p).any fun l => (strandOf s p.uid).any fun t => asksFor t p.k && copying t l.1

/-- R201: an answer lands. -/
def landAnswer (s : State) (p : Pkt) : State :=
  let s1 := delPkt s p.k
  if p.src == .host then
    updMgmt s1 fun m => { m with completion := some (p.ea.toNat, if p.bad.isNone then some (natBytes (answerSize p.body) p.ans.toNat) else none) }
  else match p.bad with
  | some (c, i) => answerTrap s1 p.uid p.k c i
  | none => match landing p with
    | none => s1
    | some (r, m, v) =>
      if isWord s p then resume s1 p.uid fun t => { t with wait := t.wait.map (keepWord p.ea.toNat p.ans.toNat) }
      else answer s1 p.uid p.k (some r) m v

/-- R219, R230: an opened or registered object enters the debt list of its producer as the answer comes. -/
def addDebt (t : Strand) (h : Word) (imp : Bool) : Strand :=
  if t.debts.any fun d => d.handle == h then t else { t with debts := t.debts ++ [{ handle := h, implicit := imp }] }
/-- R219: the debt that the answer to a CH.OPEN brings, wherever the strand is. -/
def takeDebt (s : State) (p : Pkt) (h : Word) : State :=
  if p.ans = 0 then s else addSavedDebt (updUid s p.uid fun t => addDebt t h true) p.uid h
/-- R230: an RG.PROD that registered nothing declared nothing. A declaration of OWE stays. -/
def undeclare (s : State) (uid : Nat) (h : Word) : State :=
  if (strandOf s uid).any fun t => t.debts.any fun d => d.handle == h && d.implicit then
    dropSavedDebt (updUid s uid fun t => { t with debts := t.debts.filter fun d => !(d.handle == h && d.implicit) }) uid h
  else s
/-- R345, R441: a strand halts as a root at its next instruction boundary: at once where it has not issued the next instruction,
else as that is complete; one in no slot, or halted already, does so when it is back. A refused RG.PROD is posted and so traps
here (R230). DEDUCED, log 75. -/
def haltLater (s : State) (uid cls : Nat) (info : Word) : State :=
  match locate s uid with
  | .slot sid =>
    let sl := getSlot s sid
    if sl.st == .halted && cls != 5 then updStrand s sid fun t => { t with due := t.due <|> some (cls, info) }
    else if !(sl.st == .ready || sl.st == .parked || sl.st == .member) then s
    else if inMid sl.s then updStrand s sid fun t => { t with due := t.due <|> some (cls, info) }
    else stopStrand s sid cls info
  | .away => s
  | _ => wake (updUid s uid fun t => { t with due := t.due <|> some (cls, info) }) uid

/-- R296: a store that a strand waits for is not acknowledged. -/
def storesLeft (s : State) (uid : Nat) : Bool :=
  (strandOf s uid).any fun t => (unacked s uid).any fun q => asksFor t q.k && (match q.body with | .store _ _ _ _ => true | _ => false)
/-- R275: an acknowledgement reaches the issuing core. -/
def acknowledge (s : State) (p : Pkt) : State :=
  let s1 := if holds p then letGo (delPkt s p.k) p else delPkt s p.k
  match p.src with
  | .engine b q => inHub s1 p.ctx b fun z => engineAck z b q p.k p.bad
  | .ichg => s1
  | _ => match p.body, p.bad with
    | .ringProd c off, some (cls, i) => haltLater (undeclare s1 p.uid (spadHandle 4 c off)) p.uid cls i
    | .ringProd c off, none => if p.ans = 0 then undeclare s1 p.uid (spadHandle 4 c off) else s1
    | _, some (cls, i) => answerTrap s1 p.uid p.k cls i
    | .chanOpen c off _, none => answer (takeDebt s1 p (spadHandle 3 c off)) p.uid p.k none 0 0
    | .store _ _ _ _, none => if storesLeft s1 p.uid then s1 else answerGrant s1 p.uid p.k 0
    | _, none => s1

/-- Performed and not yet home. -/
def comesHome (s : State) (k : Nat) (f : Pkt → Bool) (g : State → Pkt → State) : Host.Outcome State Fault Refusal :=
  .next (match findPkt s k with
    | some p =>
      if p.st == .performed && isBack p && f p then (match p.reply with | some (m, n) => sendReply s p m n | none => g s p) else s
    | none => s)

/-- An engine takes the answer to its own read up when it goes on (R301). -/
def fromEngine (p : Pkt) : Bool := match p.src with | .engine _ _ => true | _ => false

def isCopyWord : Body → Bool
  | .copyWord _ _ _ _ => true
  | _ => false

/-- R345: the read of a word of a register copy has failed: the copy counts as halted. -/
def haltCopy (s : State) (p : Pkt) : State :=
  match p.body with
  | .copyWord a _ r _ => updUid (delPkt s p.k) p.uid fun t => { t with
      copies := t.copies.map fun x => if x.reg == r && x.addr == a then { x with halted := true } else x }
  | _ => s
/-- R248: a word of a register copy lands; with the last, its debt goes. An uncorrectable error halts the copy (R345). -/
def landCopy (s : State) (p : Pkt) : State :=
  match p.body with
  | .copyWord a n r h =>
    let mine := fun (x : Copy) => x.reg == r && x.addr == a
    match p.bad with
    | some (c, i) => if c == 12 then haltCopy s p else haltLater (haltCopy s p) p.uid c i
    | none =>
      let s1 := landReg (delPkt s p.k) p.uid r 0xFFFF (BitVec.ofNat 128 (p.ans.toNat % 2 ^ (8 * n)))
      let left := (((strandOf s1 p.uid).map (·.copies)).getD []).filter fun x => !mine x
      let s2 := updUid s1 p.uid fun t => { t with copies := left }
      if left.any fun x => x.handle == h then s2
      else dropSavedDebt (updUid s2 p.uid fun t => { t with debts := t.debts.filter fun d => d.handle != h }) p.uid h
  | _ => s

/-! ## Sending with its effect in the same step -/

/-- R283: the core of a scratchpad has had its issue slot of this cycle, so that the shared port may serve it. -/
def portOpen (s : State) (p : Pkt) : Bool := match p.home with | .core c => c < s.turn || p.src == .own c | _ => true

/-- Send a packet. Where `prompt` says so, it has no ring to travel, nothing of its pair is before it and it is its turn at
its home, it is performed at once. DESIGN CHOICE, log 8. -/
def issuePkt (s : State) (src : Src) (h : Home) (uid sid ctx : Nat) (body : Body) (scope : Option Scope)
    (ring : Option RingPos) (ea : Word) : Nat × State :=
  let (k, s1) := sendPkt s src h uid sid ctx body scope ring ea
  match findPkt s1 k with
  | some p0 =>
    let p := { p0 with route := [], since := some s.cycle }
    if s1.prompt && p.st == .flying && !p.limited && p.ring.isNone && (scope.map fun c => inScope sid c h).getD true &&
        !behind s1 p && homeTurn s1 p && portOpen s1 p && objClear s1 body then
      let s2 := takePort (updPkt s1 k fun _ => p) p
      match body with
      | .atomic a n o =>
        let s3 := arrive true s2 p
        if grantable s3 k && !poisoned s3 a n then
          let old := readLe s3.mem a n
          (k, performed (writeAtomic (grantAtomic s3 p a n o) p a n) { p with st := .waiting }
            (BitVec.ofNat 512 (old + (atomicNew o old).2.toNat * 2 ^ 64)))
        else (k, s3)
      | _ => (k, arrive true s2 p)
    else (k, s1)
  | none => (k, s1)

/-- The packet that the strand sent, if it has been performed already, taken out of the network. -/
def takeDone (s : State) (k : Nat) : Option Pkt × State :=
  match findPkt s k with
  | some p => if p.st == .performed then (some p, delPkt s k) else (none, s)
  | none => (none, s)

/-- Post an access: nothing waits for its acknowledgement. -/
def postPkt (s : State) (src : Src) (h : Home) (uid sid ctx : Nat) (body : Body) (scope : Option Scope)
    (ring : Option RingPos) (ea : Word) : State :=
  let (k, s1) := issuePkt s src h uid sid ctx body scope ring ea
  (takeDone s1 k).2

/-! ## Travel -/

/-- R18, R20: the slots in use at a stop's buffer of one direction, by part and channel, those too whose packet's head has left. -/
def bufUsed (s : State) (b stop : Nat) (cw : Bool) (part : Nat) (chan : Option Nat) : Nat :=
  (((s.net.filterMap fun p => p.ring.filter fun _ => p.st == .flying) ++ s.draining).filterMap fun r =>
    if r.blk == b && r.stop == stop && r.cw == cw && r.part == part && (chan.map fun c => c == r.chan).getD true then
      some r.flits else none).sum

def nextStop (r : RingPos) : Nat := if r.cw then (r.stop + 1) % 8 else (r.stop + 7) % 8
/-- R19: the link between stops 7 and 0. -/
def crosses (r : RingPos) : Bool := if r.cw then r.stop == 7 else r.stop == 0
/-- R19: the channel after the hop. -/
def nextChan (r : RingPos) : Nat := if r.chan == 2 then 2 else if crosses r then 1 else r.chan

/-- R20: the place a head takes in the next buffer: part and channel. -/
def ringPlace (s : State) (r : RingPos) : Option (Nat × Nat) :=
  let b := r.blk
  let j := nextStop r
  let c := nextChan r
  let esc := bufUsed s b j r.cw 2 none
  if c == 2 then (if esc + r.flits ≤ 8 then some (2, 2) else none)
  else if bufUsed s b j r.cw 0 none + r.flits ≤ 12 then some (0, c)
  else if bufUsed s b j r.cw 1 (some c) + r.flits ≤ 2 then some (1, c)
  else if esc == 0 then some (2, 2) else none

/-- R20: an earlier packet of the same source and destination stands in the same buffer. -/
def ringBehind (s : State) (p : Pkt) (r : RingPos) : Bool :=
  s.net.any fun q => q.ord < p.ord && q.src == p.src && q.home == p.home && q.st == .flying && !heldPkt s q &&
    (q.ring.map fun z => z.blk == r.blk && z.stop == r.stop && z.cw == r.cw && (z.part == 3) == (r.part == 3)).getD false

/-- R214: an earlier packet of the core to the same stop still travels the other way. -/
def oppositeWay (s : State) (p : Pkt) (r : RingPos) : Bool :=
  s.net.any fun q => q.ord < p.ord && q.src == p.src && q.home == p.home && q.st == .flying && !heldPkt s q &&
    (q.ring.map fun z => z.cw != r.cw).getD false

/-- Whether a packet could leave its stop if the link were its own. -/
def canLeave (s : State) (p : Pkt) (r : RingPos) : Bool :=
  r.hold == 0 && (ringPlace s r).isSome && !ringBehind s p r && !(r.part == 3 && oppositeWay s p r)

/-- R21: packets at a stop for one outgoing link, those passing or those to be injected. -/
def atLink (s : State) (b stop : Nat) (cw inject : Bool) : List (Pkt × RingPos) :=
  s.net.filterMap fun p => p.ring.bind fun r =>
    if p.st == .flying && !heldPkt s p && r.hold == 0 && r.blk == b && r.stop == stop && r.cw == cw && (r.part == 3) == inject then some (p, r)
    else none
def linkKey (r : RingPos) : Nat := if r.cw then 1 else 0
/-- R21: how many passing packets have gone in a row while an injection waits. -/
def passedCount (s : State) (r : RingPos) : Nat := mapGet 0 (getCore s (r.blk * 8 + r.stop)).passed (linkKey r)
/-- R20, R21: the link is the packet's: it has moved nothing in this cycle, injections and passing packets take their turns, and
among its like the packet that can leave and entered the buffer first goes first. That an injection may go while every passing
packet is blocked under R20: DESIGN CHOICE, log 67. -/
def linkFree (s : State) (p : Pkt) (r : RingPos) : Bool :=
  !inUse s (.ring (r.blk * 8 + r.stop) r.cw) &&
  !((atLink s r.blk r.stop r.cw (r.part == 3)).any fun q => q.1.seat < p.seat && canLeave s q.1 q.2) &&
  (if r.part == 3 then
    4 ≤ passedCount s r || !(atLink s r.blk r.stop r.cw false).any fun q => canLeave s q.1 q.2
  else passedCount s r < 4 || (atLink s r.blk r.stop r.cw true).isEmpty)

/-- R448: a field of RINGSTAT of `n` bits at `lo`, raised and saturating. -/
def bumpField (w : Word) (lo n v : Nat) : Word :=
  let old := w.toNat / 2 ^ lo % 2 ^ n
  let new := min (2 ^ n - 1) v
  w + BitVec.ofNat 64 (new * 2 ^ lo) - BitVec.ofNat 64 (old * 2 ^ lo)
def fieldOf (w : Word) (lo n : Nat) : Nat := w.toNat / 2 ^ lo % 2 ^ n
/-- R448: the counts of the stop a packet enters. -/
def ringCount (s : State) (r : RingPos) (chan : Nat) (crossed : Bool) : State :=
  updCore s (r.blk * 8 + nextStop r) fun c =>
    let w := c.ringstat
    let eLo := if r.cw then 48 else 32
    let dLo := if r.cw then 8 else 0
    let w1 := if chan == 2 && r.chan != 2 then bumpField w eLo 16 (fieldOf w eLo 16 + 1) else w
    { c with ringstat := if crossed && chan == 1 && r.chan == 0 then bumpField w1 dLo 8 (fieldOf w1 dLo 8 + 1) else w1 }
/-- R448: the most shared slots held at the end of a cycle, at every stop whose buffers hold something. -/
def ringMarks (s : State) : State :=
  let rs := (s.net.filterMap fun p => p.ring.filter fun r => p.st == .flying && r.part == 0) ++ s.draining.filter (·.part == 0)
  ((rs.map fun r => (r.blk * 8 + r.stop, r.cw)).eraseDups).foldl (fun z e =>
    let lo := if e.2 then 24 else 16
    updCore z e.1 fun c => { c with
      ringstat := bumpField c.ringstat lo 8 (max (fieldOf c.ringstat lo 8) (bufUsed s (e.1 / 8) (e.1 % 8) e.2 0 none)) }) s

/-- R20, R447: the slots a head leaves empty one after another as its flits follow it; at its destination they do so as its flits
pass. -/
def drainOf (r : RingPos) (part chan : Nat) : List RingPos :=
  (if r.part == 3 then [] else [{ r with hold := 0 }]) ++
    if nextStop r == r.dest then [{ r with stop := nextStop r, chan := chan, part := part, hold := 2 }] else []
/-- R20, R21, R447: a head advances one stop; at its destination it is ejected, and it is there with its last flit. -/
def ringHop (s : State) (p : Pkt) (r : RingPos) : State :=
  match ringPlace s r with
  | none => s
  | some (part, chan) =>
    let s1 := ringCount s r chan (crosses r)
    let injectWaits := !(atLink s r.blk r.stop r.cw true).isEmpty
    let s2 := updCore s1 (r.blk * 8 + r.stop) fun c => { c with
      passed := mapPut c.passed (linkKey r) (if r.part == 3 || !injectWaits then 0 else mapGet 0 c.passed (linkKey r) + 1) }
    let there := nextStop r == r.dest
    updPkt { s2 with
      served := (.ring (r.blk * 8 + r.stop) r.cw, r.flits) :: s2.served
      draining := s2.draining ++ drainOf r part chan
      nextId := s2.nextId + 1 } p.k fun q => { q with
      ring := if there then none else some { r with stop := nextStop r, chan := chan, part := part, hold := 2 }
      seat := s2.nextId
      since := if there then some (s.cycle + 1 + r.flits) else none }

def execRingPacketHop (k : Nat) (s : State) : Host.Outcome State Fault Refusal :=
  .next (match findPkt s k with
    | some p => (match p.ring with
      | some r => if p.st == .flying && !heldPkt s p && canLeave s p r && linkFree s p r then ringHop s p r else s
      | none => s)
    | none => s)

/-! ### Mesh and links (R22-R25, R288, R292, R424, R425) -/

/-- A packet that travels on mesh and links: a request on its way to its home, or a response or turned-back release on its way to the
source. -/
def onMesh (q : Pkt) : Bool :=
  q.ring.isNone && ((q.st == .flying && q.since.isNone) || ((q.st == .performed || q.st == .turned) && !isBack q))
/-- R22: the output port through which a request leaves its last corner: that to the block's hub, or that to a quay. What starts at a
core or hub of the block does not pass the corner on its way to it. -/
def exitPort (q : Pkt) : Option Nat :=
  if q.st != .flying then none
  else match q.home with
    | .core _ => if q.via == localIn then none else some 512
    | .hub _ => if q.via == localIn then none else some 512
    | .quay _ _ => some 513
    | _ => none
/-- R22: the next node of a packet, or its exit port. -/
def nextPort (q : Pkt) : Option Nat := q.route.head? <|> exitPort q
/-- A packet that waits at a node for its next one, or for a port there. -/
def waitsAt (s : State) (q : Pkt) (node next cls : Nat) : Bool :=
  onMesh q && !heldPkt s q && noticeFree s q && q.node == node && nextPort q == some next && linkClass s q == cls
/-- R25: the first input, in turn, after the one served last. The inputs take their turns in ascending node number, that of the block or
quay last: DESIGN CHOICE, log 83. -/
def nextInput (last : Nat) (vs : List Nat) : Option Nat := (vs.filter (last < ·)).min? <|> vs.min?
/-- R213: the flits of a packet on the mesh. Of what is no message, and of a response: DESIGN CHOICE, log 68. -/
def bodyFlits : Body → Nat
  | .message _ _ bs => (bs.length + 63) / 64
  | .chanMsg _ _ _ bs _ => (bs.length + 63) / 64
  | .ringData _ _ _ _ bs _ => (16 + bs.length + 63) / 64
  | _ => 1
def meshFlits (q : Pkt) : Nat := if q.st == .flying then max 1 (bodyFlits q.body) else 1
/-- R385: the flits of a class that the collectives in progress have reserved on a link. -/
def heldFlits (s : State) (a b cls : Nat) : Nat :=
  16 * (s.plaza.partials.filter fun q => q.held.any fun h => h.cls == cls && h.links.contains (a, b)).length
/-- Whether a packet belongs to a collective, and so uses what collectives have reserved. -/
def ofCollective (p : Pkt) : Bool := match p.src with | .engine _ q => q == 3 | _ => false
def getPort (s : State) (p : Nat) : Port := mapGet Port.init s.dom.ports p
/-- R429: the port toward a member, if its entry is valid and the port is up. -/
def portOf (s : State) (m : Nat) : Option Nat :=
  let e := (readByte s.mgmt.routes m).toNat
  if 128 ≤ e && (getPort s (e % 16)).up then some (e % 16) else none
/-- R425: the allowance that a chip-link port still holds for a class, in flits: the depth of the buffer at its far end, a free
value, less the flits sent that it has not drained and, for others than the collectives, less what those have reserved. Log 68. -/
def portAllowance (s : State) (p cls : Nat) (own : Bool) : Nat :=
  Config.portDepth p cls + 16 - mapGet 0 (getPort s p).far cls -
    if own then 0 else 16 * (s.plaza.partials.filter fun q => q.held.any fun h => h.cls == cls && h.ports.contains p).length
/-- R425: the allowance that a sender still holds for a class at the far end of a link: the depth of the buffer there, a free
value that holds one packet at least, less the flits in it and, for others than the collectives, less what those have reserved.
Log 68. -/
def linkAllowance (s : State) (a b cls : Nat) (own : Bool) : Nat :=
  Config.linkDepth a b cls + 17 - ((s.net.filter fun q => onMesh q && q.via == a && q.node == b && linkClass s q == cls).map
    meshFlits).sum - if own then 0 else heldFlits s a b cls
def turnKey (a b cls : Nat) : Nat := (a * 1024 + b) * 8 + cls
/-- R22, R25, R292, R425: the packet may take the link to the next node, or the port there: it moves no other flit in this cycle, its
class has allowance for the whole packet, its input is next in turn, and nothing of its class that came by that input before it still
waits. -/
def linkOpen (s : State) (p : Pkt) (next : Nat) : Bool :=
  let cls := linkClass s p
  let there := s.net.filter fun q => waitsAt s q p.node next cls
  !inUse s (.link p.node next) && (512 ≤ next || meshFlits p ≤ linkAllowance s p.node next cls (ofCollective p)) &&
    nextInput (mapGet 0 s.portTurn (turnKey p.node next cls)) (there.map (·.via)) == some p.via &&
    !(there.any fun q => q.via == p.via && q.seat < p.seat)
/-- R22, R25: a packet takes a link or port; its flits follow one in each cycle. -/
def takeLink (s : State) (p : Pkt) (next : Nat) : State :=
  { s with served := (.link p.node next, meshFlits p) :: s.served
           portTurn := mapPut s.portTurn (turnKey p.node next (linkClass s p)) p.via
           nextId := s.nextId + 1 }
/-- R288: the boundary at which a release whose home lies outside its scope is turned back: the block's local port, the
corner whose next hop would leave the District, or the Interchange before a chip-link port. -/
def turnsBack (p : Pkt) (next : Option Nat) : Bool :=
  match p.scope with
  | none => false
  | some c => !inScope p.sid c p.home && (match c with
    | .core => true
    | .blk => true
    | .dst => (match next with | some n => n / 64 != p.node / 64 | none => true)
    | .dev => next.isNone
    | .dom => false)
/-- R24, R292, R424: one node of a packet's path, or its home's port at the end of a request's; a release out of scope is turned back at
its boundary. One held behind a release stays (R290), and a limited request stays at the Interchange (R426). -/
def meshHop (s : State) (p : Pkt) : State :=
  if p.st == .flying && turnsBack p p.route.head? then
    updPkt s p.k fun q => { q with st := .turned, route := pathNodes q.node (srcNode q.src), via := localIn }
  else match p.route with
    | [] =>
      if p.limited || behind s p then s
      else match exitPort p with
        | some n => if linkOpen s p n then
            updPkt (takeLink s p n) p.k fun q => { q with since := some (s.cycle + meshFlits p), seat := s.nextId } else s
        | none => updPkt { s with nextId := s.nextId + 1 } p.k fun q => { q with since := some (s.cycle + 1), seat := s.nextId }
    | n :: rest =>
      if linkOpen s p n then
        updPkt (takeLink s p n) p.k fun q => { q with node := n, via := p.node, route := rest, seat := s.nextId }
      else s
def execMeshFlitHop (k : Nat) (s : State) : Host.Outcome State Fault Refusal :=
  .next (match findPkt s k with
    | some p =>
      if onMesh p && !heldPkt s p && noticeFree s p then meshHop s p else s
    | none => s)

/-- R426: the bytes a request carries. DEDUCED, log 33. -/
def payloadBytes : Body → Nat
  | .store _ n _ _ => n
  | .atomic _ n _ => n
  | _ => 0
/-- R426: a request leaves once the bucket holds its bytes, in the order of its class. -/
def execRateLimitRelease (k : Nat) (s : State) : Host.Outcome State Fault Refusal :=
  .next (match findPkt s k with
    | some p =>
      let n := payloadBytes p.body
      if p.limited && p.st == .flying && n ≤ (getCtx s p.ctx).bucket &&
          !(s.net.any fun q => q.ord < p.ord && q.ctx == p.ctx && q.limited && q.st == .flying) then
        updPkt (updCtx s p.ctx fun x => { x with bucket := x.bucket - n }) k fun q => { q with limited := false }
      else s
    | none => s)

/-- R289: the smallest wider scope that holds a home. -/
def widerScope (sid : Nat) (h : Home) : Scope :=
  if inScope sid .blk h then .blk else if inScope sid .dst h then .dst else if inScope sid .dev h then .dev else .dom

/-- R289, R290: a release that was turned back is sent again, once the wider scope's earlier accesses are acknowledged;
the accesses held behind it follow. DEDUCED, log 25. -/
def reissue (s : State) (p : Pkt) : State :=
  let again := { p with st := .flying, scope := some (widerScope p.sid p.home), again := true, node := srcNode p.src, via := localIn,
                        route := routeOf p.src p.home, since := none, got := [], ord := s.nextId, seat := s.nextId }
  let s1 := letGo { s with net := s.net.filter fun q => q.k != p.k } p
  let s2 := updUid { s1 with net := s1.net ++ [again] } p.uid fun t => { t with scmiss := t.scmiss + 1 }
  mapImages s2 p.uid 1144 fun w => w + 1
def execScopeMissReissue (k : Nat) (s : State) : Host.Outcome State Fault Refusal :=
  .next (match findPkt s k with
    | some p =>
      if p.st == .turned && isBack p && !(s.net.any fun q =>
          q.uid == p.uid && q.k < p.k && !isNotice q.body && inScope p.sid (widerScope p.sid p.home) q.home) then reissue s p else s
    | none => s)

/-! ## The events -/

def execRequestPerformed (k : Nat) (s : State) : Host.Outcome State Fault Refusal := arrival .access k s
def execInboxMessageArrives (k : Nat) (s : State) : Host.Outcome State Fault Refusal := arrival .message k s
def execChannelMessageLands (k : Nat) (s : State) : Host.Outcome State Fault Refusal := arrival .chanMsg k s
def execRingSlotReserve (k : Nat) (s : State) : Host.Outcome State Fault Refusal := arrival .ringAsk k s
def execRingDataLands (k : Nat) (s : State) : Host.Outcome State Fault Refusal := arrival .ringData k s
def execRingTokenArrives (k : Nat) (s : State) : Host.Outcome State Fault Refusal := arrival .ringToken k s
def execHbEventPerformed (k : Nat) (s : State) : Host.Outcome State Fault Refusal := arrival .hb k s
def execMbEventPerformed (k : Nat) (s : State) : Host.Outcome State Fault Refusal := arrival .mb k s
def execTcEventPerformed (k : Nat) (s : State) : Host.Outcome State Fault Refusal := arrival .tc k s
def execPutrArrives (k : Nat) (s : State) : Host.Outcome State Fault Refusal := arrival .putr k s
def execKvEventPerformed (k : Nat) (s : State) : Host.Outcome State Fault Refusal := arrival .kv k s
def execWithholdNoticeArrives (k : Nat) (s : State) : Host.Outcome State Fault Refusal := arrival .withhold k s
def execUnwithholdNoticeArrives (k : Nat) (s : State) : Host.Outcome State Fault Refusal := arrival .unwithhold k s

def execInboxPoolGrant (core : Nat) (s : State) : Host.Outcome State Fault Refusal := .next (poolGrant s core none)
/-- R220: a channel's freed slot goes to the producer that has waited longest. -/
def execChannelSlotGrant (k : Nat) (s : State) : Host.Outcome State Fault Refusal :=
  .next (match findPkt s k with
    | some p => (match p.body with
      | .chanAsk c off =>
        if p.st == .waiting && off != 2 ^ 18 && objClear s p.body && chRoom s c off && (chanWaiter s c off).map (·.k) == some k then
          chanGrant s p c off false else s
      | _ => s)
    | none => s)

/-- R291. -/
def execAtomicGrant (k : Nat) (s : State) : Host.Outcome State Fault Refusal :=
  .next (match findPkt s k with
    | some p => (match p.body with
      | .atomic a n o =>
        if p.st == .waiting && grantable s k then
          if poisoned s a n then
            badPkt { s with resv := s.resv.filter fun r => r.k != k } p 5 p.ea
          else grantAtomic s p a n o
        else s
      | _ => s)
    | none => s)
def releaseAtomic (s : State) (k : Nat) : State :=
  match findPkt s k, s.resv.find? fun r => r.k == k with
    | some p, some r => (match p.body with
      | .atomic a n o =>
        if p.st == .waiting && r.granted then
          let s1 := writeAtomic s p a n
          match p.reply with
          | some (m, num) => sendReply s1 { p with ans := (r.old.setWidth 512) } m num
          | none => answerAtomic (countRecv (delPkt s1 k) p) p o r.old.toNat (atomicNew o r.old.toNat).2
        else s
      | _ => s)
    | _, _ => s
def execAtomicRelease (k : Nat) (s : State) : Host.Outcome State Fault Refusal := .next (releaseAtomic s k)

def execLoadDataLands (k : Nat) (s : State) : Host.Outcome State Fault Refusal :=
  comesHome s k (fun p => (landing p).isSome && (p.reply.isSome || (!fromEngine p && !copyFirst s p))) landAnswer
def execCprWordLands (k : Nat) (s : State) : Host.Outcome State Fault Refusal := comesHome s k (fun p => isCopyWord p.body) landCopy
/-- R246, R291, R339: an acknowledgement of an engine's write counts bytes into a completion word, which has to be free; while the
context is switched out it waits. -/
def ackClear (s : State) (p : Pkt) : Bool :=
  match p.src with
  | .engine b q => q == 3 || (match savedHub s p.ctx b with
    | some h => p.bad.isSome || (getQ h q).jobs.head?.all fun j => !mbEn j.cmd
    | none => (headJob s b q).all (wordFree s))
  | _ => true
def execAccessAcknowledged (k : Nat) (s : State) : Host.Outcome State Fault Refusal :=
  comesHome s k (fun p => (landing p).isNone && !isCopyWord p.body && ackClear s p) acknowledge

end Sys2Proof.Machine
end

