-- ==== Sys2Proof/Machine/Memory.lean ====
section
/-! DEFINITION. Loads, stores, acquire, release and fence (R199-R209). -/

namespace Sys2Proof.Machine
open Sys2Proof

/-! ## Access -/

/-- R63: the misaligned trap of a data access. The spec gives its trapinfo no value: a free value. DESIGN CHOICE, log 10. -/
def misTrap (s : State) : Res := .trap { s with fresh := s.fresh + 1 } 2 ((Config.openValue s.fresh).setWidth 64)

/-- R408: the strand parks until its miss is answered. -/
def missPark (s : State) (sid ctx : Nat) (need : Need) (ea arg : Word) : Res :=
  let (k, s1) := sendMiss s (blkOf sid) ctx (ea.toNat % 2 ^ 57)
  .park s1 0 arg none (.tlb k (ea.toNat % 2 ^ 57) (needCode need))

/-- R17, R65, R71: a packet of one flit from a strand's core to a home. -/
def sendFrom (s : State) (sid : Nat) (t : Strand) (h : Home) (body : Body) (scope : Option Scope) (ea : Word) : Nat × State :=
  issuePkt s (.core (coreOf sid)) h t.uid sid t.ctx body scope (ringOf (.core (coreOf sid)) h 1 none) ea
def postFrom (s : State) (sid : Nat) (t : Strand) (h : Home) (body : Body) (scope : Option Scope) (ea : Word) : State :=
  postPkt s (.core (coreOf sid)) h t.uid sid t.ctx body scope (ringOf (.core (coreOf sid)) h 1 none) ea

/-- R201: an access that waits: with the answer at hand the form goes on, else the strand parks on it. The wait record names
the object asked, if there is one (R464). -/
def awaitOn (obj : Word) (k : Nat) (s : State) (f : State → Pkt → Res) : Res :=
  match takeDone s k with
  | (some p, s1) => (match p.bad with | some (c, i) => .trap s1 c i | none => f s1 p)
  | (none, s1) => .park s1 obj 0 none (.asked k)
def awaitPkt (k : Nat) (s : State) (f : State → Pkt → Res) : Res := awaitOn 0 k s f

/-- A landed load completes. -/
def landDone (sid : Nat) (s : State) (p : Pkt) : Res :=
  match landing p with
  | some (r, m, v) => .done (updStrand s sid (landIn r m v))
  | none => .done s

/-- R69: the agent code of a strand. -/
def strandAgent : Nat := 0

/-- R202: a value as a load writes it: extended to a g register, or whole in a v register. -/
def loadedVec (ty n : Nat) (dst : RegRef) (v : Nat) : Vec :=
  match dst with
  | .g _ => (intExtend ty (v % 2 ^ (8 * n))).setWidth 128
  | .v _ => BitVec.ofNat 128 v

/-- R202: the value that an own-scratchpad load has read and keeps while a copy into its register is outstanding. -/
def heldLoad (t : Strand) (dst : RegRef) : Option Nat :=
  match dst, t.wait with
  | .g _, some w => (match w.stage, w.opnds with | .copyOf _, some _ => some w.arg.toNat | _, _ => none)
  | _, _ => none

/-- R201, R202: one load of n bytes into a register. What it has read waits until no copy into the register is outstanding. -/
def loadAt (s : State) (sid : Nat) (t : Strand) (sp : List Nat) (ea : Word) (n ty : Nat) (mask : BitVec 16) (dst : RegRef) : Res :=
  let put := fun (z : State) (v : Nat) => Res.done (updStrand z sid (landIn dst mask (loadedVec ty n dst v)))
  let keep := fun (z : State) (v : Nat) =>
    if copying t dst then .park z (regHandle sid dst) (BitVec.ofNat 64 v) none (.copyOf dst) else put z v
  let ask := fun (h : Home) (body : Body) =>
    let (k, s1) := sendFrom s sid t h body none ea
    if copying t dst then .park s1 0 0 none (.asked k) else awaitPkt k s1 (landDone sid)
  match heldLoad t dst with
  | some v => put s v
  | none => match target s sid t.ctx .read sp false ea n with
    | .bad c i => .trap s c i
    | .mis => misTrap s
    | .miss => missPark s sid t.ctx .read ea 0
    | .gone => keep (capture s t.ctx sid strandAgent false ea) 0
    | .own off =>
      let a := spadKey (coreOf sid) off
      if reserved s a n then .park s 0 0 none (.busy a n)
      else if poisoned s a n then .trap s 5 ea
      else keep s (readLe s.mem a n)
    | .reg off => ask .register (.regLoad (coreOf sid) t.ctx off dst)
    | .cell h a => ask h (.load a n ty mask dst)
    | .far h a => ask h (.load a n ty mask dst)

/-- What a store does with its address: its effect is done, or one of the reasons it is not. -/
inductive Stored
  | done (s : State)
  | full
  | busy (a n : Nat)
  | miss
  | bad (cls : Nat) (info : Word)
  | mis
  deriving DecidableEq, Repr

/-- R201, R202: one store of the masked bytes of `v`. -/
def storeAt (s : State) (sid : Nat) (t : Strand) (sp : List Nat) (ea : Word) (n : Nat) (mask : BitVec 16) (v : Vec)
    (scope : Option Scope) : Stored :=
  match target s sid t.ctx .write sp false ea n with
  | .bad c i => .bad c i
  | .mis => .mis
  | .miss => .miss
  | .gone => .done (capture s t.ctx sid strandAgent true ea)
  | .own off =>
    let a := spadKey (coreOf sid) off
    if reserved s a n then .busy a n
    else .done { s with
      mem := writeMasked s.mem a mask.toNat n v.toNat
      poison := s.poison.filter fun q => q < a || a + n ≤ q || !mask.getLsbD (q - a) }
  | .reg off =>
    if storesFull s t then .full
    else .done (postFrom s sid t .register (.regStore (coreOf sid) t.ctx off (v.setWidth 64)) scope ea)
  | .cell h a => if storesFull s t then .full else .done (postFrom s sid t h (.store a n mask v) scope ea)
  | .far h a => if storesFull s t then .full else .done (postFrom s sid t h (.store a n mask v) scope ea)

/-- What follows a store; `arg` is the number of words that a multiple store has posted. -/
def storeRes (s : State) (sid : Nat) (t : Strand) (ea arg : Word) : Stored → Res
  | .done s1 => .done s1
  | .full => .park s 0 arg none (.drain 6)
  | .busy a n => .park s 0 arg none (.busy a n)
  | .miss => missPark s sid t.ctx .write ea arg
  | .bad c i => .trap s c i
  | .mis => misTrap s

/-! ## LD, ST, VLD, VST (R200, R202, R203) -/

def loadSpaces : List Nat := [0xF0, 0xF1, 0, 0xFE]
def storeSpaces : List Nat := [0xF0, 0xF1, 0, 0xF5, 0xFE]

/-- R202. -/
def ldBody (x : Args) : Body1 := fun s sid t o =>
  let n := intWidth (codeOf x.d) / 8
  loadAt s sid t loadSpaces (effAddr o x n) n (codeOf x.d) 0xFFFF (.g (idxOf x.d))
def stBody (x : Args) : Body1 := fun s sid t o =>
  let n := intWidth (codeOf x.d) / 8
  let ea := effAddr o x n
  storeRes s sid t ea 0 (storeAt s sid t storeSpaces ea n 0xFFFF o.d none)

/-- R203: with no byte unmasked, a vector access is checked for space and alignment only; what follows where it passes. -/
def checkOnly (s : State) (sid : Nat) (t : Strand) (sp : List Nat) (ea : Word) (ok : Res) : Res :=
  if (ea >>> 56).toNat ≤ 1 then (if ea.toNat % 16 != 0 then misTrap s else ok)
  else match target s sid t.ctx .read sp false ea 16 with
    | .bad c i => .trap s c i
    | .mis => misTrap s
    | _ => ok

/-- R174, R203: a load with a byte unmasked parks, once checked, while a copy into its register is outstanding. -/
def vldBody (x : Args) : Body1 := fun s sid t o =>
  let ea := effAddr o x 16
  let m := laneMask t x
  let r := RegRef.v (idxOf x.d)
  if m = 0 then checkOnly s sid t loadSpaces ea (.done (updStrand s sid fun z => setTag (setFull z r true) r false))
  else if copying t r then checkOnly s sid t loadSpaces ea (.park s (regHandle sid r) 0 none (.copyOf r))
  else loadAt s sid t loadSpaces ea 16 0 m r
def vstBody (x : Args) : Body1 := fun s sid t o =>
  let ea := effAddr o x 16
  let m := laneMask t x
  if m = 0 then checkOnly s sid t storeSpaces ea (.done s)
  else storeRes s sid t ea 0 (storeAt s sid t storeSpaces ea 16 m o.d none)

def execLd (x : Args) (s : State) : Host.Outcome State Fault Refusal := run 0x200 x (ldBody x) s
def execSt (x : Args) (s : State) : Host.Outcome State Fault Refusal := run 0x201 x (stBody x) s
def execVld (x : Args) (s : State) : Host.Outcome State Fault Refusal := run 0x202 x (vldBody x) s
def execVst (x : Args) (s : State) : Host.Outcome State Fault Refusal := run 0x203 x (vstBody x) s

/-! ## LDM, STM (R204) -/

/-- The address of word i. -/
def wordAddr (ea : Word) (i : Nat) : Word := ea + BitVec.ofNat 64 (8 * i)

/-- R200, R204: the first word that may not be reached, before any word moves. -/
def multiCheck (s : State) (sid : Nat) (t : Strand) (need : Need) (sp : List Nat) (ea : Word) : Nat → Nat → Option (Word × Target)
  | 0, _ => none
  | k + 1, i =>
    let w := wordAddr ea i
    match target s sid t.ctx need sp false w 8 with
    | .bad c j => some (w, .bad c j)
    | .mis => some (w, .mis)
    | .miss => some (w, .miss)
    | _ => multiCheck s sid t need sp ea k (i + 1)

/-- R200: a multiple access reaches no device register: that is the misaligned trap. -/
def multiSpaces (store : Bool) : List Nat := if store then [0xF0, 0xF1, 0, 0xF5] else [0xF0, 0xF1, 0]
def multiBad (s : State) (sid : Nat) (t : Strand) (need : Need) (arg : Word) : Option (Word × Target) → Option Res
  | none => none
  | some (w, .miss) => some (missPark s sid t.ctx need w arg)
  | some (w, .bad c i) => some (if w >>> 56 = 0xFE then misTrap s else .trap s c i)
  | some _ => some (misTrap s)

/-- What becomes of a word of a multiple load: its value, what it waits for, or its trap. -/
inductive Word1
  | value (v : Nat)
  | waits (g : Stage)
  | bad (cls : Nat) (info : Word)
  deriving DecidableEq, Repr

/-- R204, R68: word i of a multiple load. -/
def loadWord (s : State) (sid : Nat) (t : Strand) (ea : Word) (d i : Nat) : State × Word1 :=
  let w := wordAddr ea i
  let ask := fun (h : Home) (a : Nat) =>
    let (k, s1) := sendFrom s sid t h (.load a 8 0 0xFFFF (.g (d + i))) none w
    match takeDone s1 k with
    | (some p, s2) => (match p.bad with
      | some (c, j) => (s2, .bad c j)
      | none => (s2, .value (p.ans.toNat % 2 ^ 64)))
    | (none, s2) => (s2, .waits (.asked k))
  match target s sid t.ctx .read (multiSpaces false) false w 8 with
  | .own off =>
    let a := spadKey (coreOf sid) off
    if reserved s a 8 then (s, .waits (.busy a 8))
    else if poisoned s a 8 then (s, .bad 5 w) else (s, .value (readLe s.mem a 8))
  | .cell h a => ask h a
  | .far h a => ask h a
  | _ => (capture s t.ctx sid strandAgent false w, .value 0)

/-- R204: the registers take the words, once all are there. -/
def landWords (d : Nat) (vs : List Nat) (t : Strand) : Strand :=
  (vs.zipIdx).foldl (fun u e => landIn (.g (d + e.2)) 0xFFFF (BitVec.ofNat 128 e.1) u) t
/-- R204: the words of a multiple load, one after another in ascending order; no register is written before the last is there. -/
def loadWords (s : State) (sid : Nat) (t : Strand) (ea : Word) (d : Nat) : Nat → List (Nat × Nat) → Res
  | 0, got => .done (updStrand s sid (landWords d (got.map (·.2))))
  | m + 1, got =>
    match loadWord s sid t ea d got.length with
    | (s1, .value v) => loadWords s1 sid t ea d m (got ++ [((wordAddr ea got.length).toNat, v)])
    | (s1, .waits g) => .park (setGot s1 sid got) 0 0 none g
    | (s1, .bad c j) => .trap s1 c j

def ldmBody (x : Args) : Body1 := fun s sid t o =>
  let n := codeOf x.d + 1
  let ea := o.aw + o.bw
  let got := gotWords t
  match multiBad s sid t .read 0 (multiCheck s sid t .read (multiSpaces false) ea n 0) with
  | some r => r
  | none => loadWords s sid t ea (idxOf x.d) (n - got.length) got

/-- The words of a multiple store from word i on; it parks at the word that finds no place. -/
def storeWords (s : State) (sid : Nat) (t : Strand) (ea : Word) (d : Nat) : Nat → Nat → Res
  | 0, _ => .done s
  | m + 1, i =>
    match storeAt s sid t (multiSpaces true) (wordAddr ea i) 8 0xFFFF ((readG t (d + i)).setWidth 128) none with
    | .done s1 => storeWords s1 sid t ea d m (i + 1)
    | r => storeRes s sid t (wordAddr ea i) (BitVec.ofNat 64 i) r

/-- R204: the words already posted. -/
def postedWords (t : Strand) : Nat := (t.wait.map (·.arg.toNat)).getD 0

def stmBody (x : Args) : Body1 := fun s sid t o =>
  let n := codeOf x.d + 1
  let i := postedWords t
  let ea := o.aw + o.bw
  match multiBad s sid t .write (BitVec.ofNat 64 i) (multiCheck s sid t .write (multiSpaces true) ea n 0) with
  | some r => r
  | none => storeWords s sid t ea (idxOf x.d) (n - i) i

def execLdm (x : Args) (s : State) : Host.Outcome State Fault Refusal := run 0x204 x (ldmBody x) s
def execStm (x : Args) (s : State) : Host.Outcome State Fault Refusal := run 0x205 x (stmBody x) s

/-! ## Acquire, release and fence (R205-R208) -/

def scopeNum (c : Scope) : Nat := match c with | .core => 0 | .blk => 1 | .dst => 2 | .dev => 3 | .dom => 4

/-- R207. -/
def relBody (c : Scope) (x : Args) : Body1 := fun s sid t o =>
  let n := intWidth (codeOf x.d) / 8
  let ea := o.aw + o.bw
  match target s sid t.ctx .write loadSpaces false ea n with
  | .bad k i => .trap s k i
  | .mis => misTrap s
  | .miss => missPark s sid t.ctx .write ea 0
  | _ =>
    if owesAck s t.uid sid c then .park s 0 0 none (.drain (scopeNum c))
    else storeRes s sid t ea 0 (storeAt s sid t loadSpaces ea n 0xFFFF o.d (some c))

/-- R74, R208. -/
def fncBody (c : Scope) : Body1 := fun s sid t _ =>
  if owesAck s t.uid sid c then .park s 0 0 none (.drain (scopeNum c))
  else .done (if c == .core then updCore s (coreOf sid) fun k => { k with ibuf := [] } else s)

/-- R206: an acquire is a load of the displacement form; it holds the strand until its value has landed. -/
def execAcq (c : Scope) (x : Args) (s : State) : Host.Outcome State Fault Refusal := run (0x206 + scopeNum c) x (ldBody x) s
def execRel (c : Scope) (x : Args) (s : State) : Host.Outcome State Fault Refusal := run (0x20B + scopeNum c) x (relBody c x) s
def execFnc (c : Scope) (x : Args) (s : State) : Host.Outcome State Fault Refusal := run (0x210 + scopeNum c) x (fncBody c) s

end Sys2Proof.Machine
end

