-- ==== Sys2Proof/Machine/Message.lean ====
section
/-! DEFINITION. Messages, channels and puts (R210-R222), and the wait on an object that several forms share (R210). -/

namespace Sys2Proof.Machine
open Sys2Proof

/-! ## Waiting (R210) -/

/-- What is left of the time-out: the wait record's count, or the operand's at the first test. -/
def waitLeft (t : Strand) (tmo : Option Nat) : Option Nat :=
  match t.wait with
  | some w => (match w.stage with | .test => w.left | .busy _ _ => w.left | _ => tmo)
  | none => tmo

/-- R11, R210: the status a wait returns once its object is ready. -/
def readyStatus (t : Strand) : Nat := if wasWithheld t then 2 else 0

/-- R210: the object is ready, or the time is up, or the strand parks (and joins the cordon if the object is withheld). -/
def waitOn (s : State) (t : Strand) (obj arg : Word) (tmo : Option Nat) (ready : Bool) (take : Nat → Res) (late : Res) : Res :=
  if ready then take (readyStatus t)
  else if waitLeft t tmo = some 0 then late
  else .park s obj arg (waitLeft t tmo) .test

/-- R210: the time-out operand; kind 11 means none. -/
def timeOut (x : Args) (o : Opnds) : Option Nat := if x.b == .none then none else some (o.bw.toNat % 2 ^ 32)

/-- R212: the status word. -/
def recvWord (offset tag : Nat) (ended : Bool) (length status : Nat) : Word :=
  BitVec.ofNat 64 (offset * 2 ^ 32 + tag * 2 ^ 16 + (if ended then 2 ^ 15 else 0) + length * 2 ^ 8 + status)

/-! ## Debts (R232) -/

def owes (t : Strand) (h : Word) : Bool := t.debts.any fun d => d.handle == h
/-- A declaration would make a ninth entry. -/
def debtFull (t : Strand) (h : Word) : Bool := !owes t h && 8 ≤ t.debts.length
def dropDebt (t : Strand) (h : Word) : Strand := { t with debts := t.debts.filter fun d => d.handle != h }

/-! ## Objects named by address (R200) -/

/-- Where an object's header or word stands: its core and offset, and whether it is reached as own scratchpad. -/
inductive ObjAt
  | at (core off : Nat) (own : Bool)
  | bad (cls : Nat) (info : Word)
  | mis
  deriving DecidableEq, Repr

def objTarget (s : State) (sid ctx : Nat) (ea : Word) (align : Nat) : ObjAt :=
  match target s sid ctx .write [0xF0, 0xF1] true ea align with
  | .own off => .at (coreOf sid) off true
  | .cell (.core c) key => .at c (key % 2 ^ 18) false
  | .bad c i => .bad c i
  | .mis => .mis
  | _ => .bad 4 ea

/-- A request to an object's home. One through the own scratchpad is performed in the issue cycle (R219, R283). -/
def askObj (s : State) (sid : Nat) (t : Strand) (core : Nat) (own : Bool) (body : Body) (scope : Option Scope) (ea : Word) :
    Nat × State :=
  if own then
    let (k, s1) := sendPkt s (.own core) (.core core) t.uid sid t.ctx body none none ea
    match findPkt s1 k with
    | some p => (k, arrive true s1 p)
    | none => (k, s1)
  else sendFrom s sid t (.core core) body scope ea
def postObj (s : State) (sid : Nat) (t : Strand) (core : Nat) (own : Bool) (body : Body) (scope : Option Scope) (ea : Word) :
    State :=
  let (k, s1) := askObj s sid t core own body scope ea
  (takeDone s1 k).2

/-- R291: the bytes that keep a request through the own scratchpad from being performed now: an atomic holds them. -/
def ownHeld (s : State) (own : Bool) (body : Body) : Option (Nat × Nat) :=
  if own && !objClear s body then objBytes body else none

/-! ## SEND (R213-R216) -/

/-- R214, R216: the checks of SEND in their order. A misaligned source: DESIGN CHOICE, log 10. -/
def sendCheck (s : State) (sid ctx : Nat) (d a b : Word) : Option (Nat × Word) :=
  let chan := b.getLsbD 8
  let len := b.toNat % 256
  match target s sid ctx .write [0xF1] true d 1 with
  | .cell (.core _) key =>
    if (if chan then key % 64 != 0 else key % 2 ^ 18 != 0) then some (4, d)
    else if a >>> 56 != 0xF0 then some (4, a)
    else if a &&& 7 != 0 then some (2, (Config.openValue s.fresh).setWidth 64)
    else if len % 8 != 0 || (if chan then 48 else 112) < len || b.toNat / 2 ^ 10 % 64 != 0 || b.toNat / 2 ^ 32 != 0 ||
        (b.getLsbD 9 && !chan) then some (2, b)
    else none
  | _ => some (4, d)

/-- R68: a byte of the own scratchpad that lies in range. -/
def ownByte (s : State) (core : Nat) (a : Word) (i : Nat) : Byte :=
  let n := (a.toNat + i) % 2 ^ 56
  if n < 2 ^ 18 then readByte s.mem (spadKey core n) else 0
/-- R68: of n bytes at an own-scratchpad address, those in range: their key and number. -/
def ownSpan (core : Nat) (a : Word) (n : Nat) : Nat × Nat :=
  let off := a.toNat % 2 ^ 56
  if off < 2 ^ 18 then (spadKey core off, min n (2 ^ 18 - off)) else (spadKey core 0, 0)
/-- R201, R291: bytes of them that an atomic holds. -/
def ownBusy (s : State) (r : Nat × Nat) : Bool := r.2 != 0 && reserved s r.1 r.2
/-- R68, R69: an access that leaves the scratchpad is captured. -/
def captureOwn (s : State) (sid ctx : Nat) (write : Bool) (a : Word) (n : Nat) : State :=
  if 0 < n && 2 ^ 18 < a.toNat % 2 ^ 56 + n then capture s ctx sid strandAgent write a else s

/-- R213: a message's bytes. -/
def messageBytes (s : State) (sid : Nat) (cycle : Nat) (a b : Word) : List Byte :=
  let len := b.toNat % 256
  natBytes 2 (b.toNat / 2 ^ 16) ++ natBytes 1 len ++
  natBytes 1 ((if b.getLsbD 8 then 1 else 0) + (if b.getLsbD 9 then 2 else 0)) ++ natBytes 2 (sid % 2 ^ 15) ++ natBytes 2 0 ++
  natBytes 8 cycle ++ (List.range len).map (ownByte s (coreOf sid) a)

/-- R130: the way round that the hint asks for. -/
def hintWay (x : Args) : Option Bool := if x.hint == 1 then some true else if x.hint == 2 then some false else none

/-- R216: the message leaves; with the last of a channel its debt goes. The cycle: DEDUCED, log 37. -/
def deliver (s : State) (sid : Nat) (t : Strand) (x : Args) (o : Opnds) (dest : Nat) (body : List Byte → Body) : Res :=
  let bytes := messageBytes s sid (waitSince s.cycle 0x215 t) o.aw o.bw
  let home := Home.core dest
  let ring := (ringOf (.core (coreOf sid)) home ((bytes.length + 31) / 32) (hintWay x)).map fun r => { r with hold := 2 }
  let s1 := captureOwn s sid t.ctx false o.aw (bytes.length - 16)
  let s2 := postPkt s1 (.core (coreOf sid)) home t.uid sid t.ctx (body bytes) none ring o.dw
  .done (if o.bw.getLsbD 9 then updStrand s2 sid fun z => dropDebt z (spadHandle 3 dest (handleOff o.dw)) else s2)

/-- R215: take a standing credit toward a core of the own block. -/
def takeCredit (s : State) (core dest : Nat) : Option State :=
  let n := mapGet 2 (getCore s core).credits (dest % 8)
  if blkOfCore core == blkOfCore dest && n != 0 then
    some (updCore s core fun c => { c with credits := mapPut c.credits (dest % 8) (n - 1) })
  else none

/-- The grant a parked form goes on with; one that has then to wait for a word keeps it in `arg`. -/
def grantedOf (t : Strand) : Option Nat :=
  match t.wait with
  | some w => (match w.stage with
    | .granted n => some n
    | .busy _ _ => if w.arg = 0 then none else some (w.arg.toNat - 1)
    | _ => none)
  | none => none

/-- The grant that an event has left (R229). -/
def eventOf (t : Strand) : Option Nat := t.wait.bind fun w => match w.stage with | .granted n => some n | _ => none

/-- R216. The request for a pool entry goes to a core of the block as a one-flit packet of the ring, as a scratchpad access does
(R17). DESIGN CHOICE, log 76. -/
def sendBody (x : Args) : Body1 := fun s sid t o =>
  let dest := handleCore o.dw
  let off := handleOff o.dw
  let chan := o.bw.getLsbD 8
  let span := ownSpan (coreOf sid) o.aw (o.bw.toNat % 256)
  let go := fun (z : State) (n : Nat) =>
    if chan then deliver z sid t x o dest fun bs => .chanMsg dest off n bs (o.bw.getLsbD 9)
    else deliver z sid t x o dest fun bs => .message dest n bs
  match sendCheck s sid t.ctx o.dw o.aw o.bw with
  | some (c, i) => .trap { s with fresh := s.fresh + 1 } c i
  | none =>
    if chan && !owes t (spadHandle 3 dest off) then .trap s 4 o.dw
    else match grantedOf t with
      | some n => go s n
      | none =>
        if ownBusy s span then .park s 0 0 none (.busy span.1 span.2)
        else if poisoned s span.1 span.2 then .trap s 5 o.aw
        else if storesFull s t then .park s 0 0 none (.drain 6)
        else match (if chan then none else takeCredit s (coreOf sid) dest) with
          | some s1 => go s1 (2 * (coreOf sid % 8))
          | none =>
            let (k, s1) := sendFrom s sid t (.core dest) (.chanAsk dest (if chan then off else 2 ^ 18)) none o.dw
            awaitOn (if chan then spadHandle 3 dest off else 0) k s1 fun z p => go z p.ans.toNat
def execSend (x : Args) (s : State) : Host.Outcome State Fault Refusal := run 0x215 x (sendBody x) s

/-! ## RECV (R217, R220) -/

/-- R217: an inbox message is written at `a`, what lies beyond the scratchpad dropped. -/
def writeOwn (s : State) (core : Nat) (a : Word) : Nat → List Byte → State
  | _, [] => s
  | i, b :: bs =>
    let n := (a.toNat + i) % 2 ^ 56
    writeOwn (if n < 2 ^ 18 then heal { s with mem := writeByte s.mem (spadKey core n) b } (spadKey core n) 1 else s) core a (i + 1) bs

/-- R445: a freed entry keeps its bytes. -/
def emptied (e : InEntry) : InEntry := { e with reserved := false, full := false, taken := false }
/-- R215, R445: a taken entry goes back to its stop's credit or to the pool. -/
def freeEntry (s : State) (core n : Nat) : State :=
  let s1 := updCore s core fun c => { c with inbox := mapPut c.inbox n (emptied (mapGet InEntry.init c.inbox n)) }
  if n < 16 then
    updCore s1 (core / 8 * 8 + n / 2) fun c =>
      { c with credits := mapPut c.credits (core % 8) (mapGet 2 c.credits (core % 8) + 1) }
  else s1

def byteAt (bs : List Byte) (i : Nat) : Nat := (bs.getD i 0).toNat
def msgTag (bs : List Byte) : Nat := byteAt bs 0 + 256 * byteAt bs 1
def msgLen (bs : List Byte) : Nat := byteAt bs 2

def recvInbox (x : Args) (s : State) (sid : Nat) (t : Strand) (o : Opnds) : Res :=
  let core := coreOf sid
  let late := Res.done (setG s sid x.d 1)
  waitOn s t 0 0 (timeOut x o) (inboxOldest (getCore s core)).isSome (fun st =>
    match inboxOldest (getCore s core) with
    | none => late
    | some (n, e) =>
      let span := ownSpan core o.aw e.bytes.length
      if ownBusy s span then .park s 0 0 (waitLeft t (timeOut x o)) (.busy span.1 span.2)
      else
        let s1 := writeOwn (captureOwn s sid t.ctx true o.aw e.bytes.length) core o.aw 0 e.bytes
        .done (setG (freeEntry s1 core n) sid x.d
          (recvWord (o.aw.toNat % 2 ^ 18) (msgTag e.bytes) false (msgLen e.bytes) st))) late

def recvChannel (x : Args) (s : State) (sid : Nat) (t : Strand) (o : Opnds) (off : Nat) : Res :=
  let core := coreOf sid
  if chConsumer s core off != sid % 2 ^ 15 then .trap s 4 o.aw
  else if reserved s (spadKey core off) 64 then
    .park s (spadHandle 3 core off) 0 (waitLeft t (timeOut x o)) (.busy (spadKey core off) 64)
  else
    let s0 := chFree s core off
    waitOn s0 t (spadHandle 3 core off) 0 (timeOut x o) (chPresent s0 core off || chAtEnd s0 core off) (fun st =>
      if chPresent s0 core off then
        let (pos, s1) := chHand s0 core off
        let at0 := chSlotOff s0 core off pos
        let bs := readBytes s1.mem (spadKey core at0) 16
        .done (setG s1 sid x.d (recvWord at0 (msgTag bs) false (msgLen bs) st))
      else .done (setG (chClose s0 core off) sid x.d (recvWord 0 0 true 0 0)))
      (.done (setG s0 sid x.d 1))

def recvBody (x : Args) : Body1 := fun s sid t o =>
  if o.aw >>> 56 != 0xF0 then .trap s 4 o.aw
  else if o.aw &&& 15 != 0 then misTrap s
  else if o.aw.toNat % 2 ^ 56 < 2 ^ 18 && isChannel s (coreOf sid) (o.aw.toNat % 2 ^ 18) then
    recvChannel x s sid t o (o.aw.toNat % 2 ^ 18)
  else recvInbox x s sid t o
def execRecv (x : Args) (s : State) : Host.Outcome State Fault Refusal := run 0x216 x (recvBody x) s

/-! ## CH.OPEN (R219) -/

def chOpenBody : Body1 := fun s sid t o =>
  match objTarget s sid t.ctx o.aw 64 with
  | .bad c i => .trap s c i
  | .mis => misTrap s
  | .at core off own =>
    let h := spadHandle 3 core off
    let body := Body.chanOpen core off o.bw.toNat
    if 1 < o.bw.toNat then .trap s 4 o.aw
    else if o.bw = 1 && debtFull t h then .trap s 4 h
    else match ownHeld s own body with
      | some (a, n) => .park s h 0 none (.busy a n)
      | none =>
        let (k, s1) := askObj s sid t core own body none o.aw
        awaitOn h k s1 fun z p => .done (if p.ans = 0 then z else updStrand z sid fun y => addDebt y h true)
def execChOpen (x : Args) (s : State) : Host.Outcome State Fault Refusal := run 0x2CA x chOpenBody s

/-! ## PUTR, FEC, FEQ (R221, R222) -/

/-- R221: the target slot's context is not the issuer's. An empty slot has its block's. -/
def putForeign (s : State) (ctx a : Nat) : Bool :=
  let sl := getSlot s a
  if sl.st == .empty then !ownsBlk s ctx (blkOf a) else sl.s.ctx != ctx
def putrBody : Body1 := fun s sid t o =>
  let a := o.aw.toNat % 2 ^ 15
  let r := o.bw.toNat % 64
  if r = 0 || o.bw.toNat / 64 != 0 then .trap s 4 o.bw
  else if putForeign s t.ctx a then .trap s 4 o.aw
  else if owesAck s t.uid sid .dev then .park s 0 0 none (.drain 3)
  else
    let s1 := postPkt s (.core (coreOf sid)) (.core (coreOf a)) t.uid sid t.ctx (.putr a r o.dw sid) (some .dev) none 0
    .done (updStrand s1 sid fun z => dropDebt z (regHandle a (.g r)))
def execPutr (x : Args) (s : State) : Host.Outcome State Fault Refusal := run 0x217 x putrBody s

/-- R222: the register that field d or a names. -/
def flagReg (x : Opd) : RegRef := (destOf x).getD (.g 0)
def fecBody (x : Args) : Body1 := fun s sid t _ =>
  let r := flagReg x.d
  if copying t r then .park s (regHandle sid r) 0 none (.copyOf r)
  else .done (updStrand s sid fun z => setTag (setFull z r false) r false)
def execFec (x : Args) (s : State) : Host.Outcome State Fault Refusal := run 0x218 x (fecBody x) s
def feqWord (s : State) (sid : Nat) (t : Strand) (r : RegRef) : Word :=
  BitVec.ofNat 64 ((if fullOf t r then 1 else 0) + (if regWithheld s sid t r then 2 else 0) + if copying t r then 4 else 0)
def execFeq (x : Args) (s : State) : Host.Outcome State Fault Refusal :=
  run 0x219 x (fun s sid t _ => .done (setG s sid x.d (feqWord s sid t (flagReg x.a)))) s

end Sys2Proof.Machine
end

