-- ==== Sys2Proof/Machine/Atomic.lean ====
section
/-! DEFINITION. The atomics (R223, R224, R291). -/

namespace Sys2Proof.Machine
open Sys2Proof

/-- R224: the old value and the flags reach the requester. -/
def atomicDone (x : Args) (ty : Nat) (sid : Nat) (s : State) (old : Nat) (fl : BitVec 5) : Res :=
  .done (setG (updStrand s sid fun t => raise t fl) sid x.d (atomicResult ty old))

/-- R224: one atomic; an out-of-range word takes the permission trap, as R200 rules for its last two rows (log 74). -/
def atomicBody (op : Nat) (x : Args) : Body1 := fun s sid t o =>
  let ty := codeOf x.d
  let n := atomBytes ty
  let ea := o.aw
  let a : AtomOp := { op := op, ty := ty, b := o.bw, d := o.dw, dst := idxOf x.d }
  let ends := fun (z : State) (p : Pkt) =>
    atomicDone x ty sid z (p.ans.toNat % 2 ^ 64) (BitVec.ofNat 5 (p.ans.toNat / 2 ^ 64))
  match target s sid t.ctx .atomic [0xF0, 0xF1, 0] true ea n with
  | .bad c i => .trap s c i
  | .mis => misTrap s
  | .miss => missPark s sid t.ctx .atomic ea 0
  | .gone => .trap s 4 ea
  | .own off =>
    let c := coreOf sid
    let (k, s1) := issuePkt s (.own c) (.core c) t.uid sid t.ctx (.atomic (spadKey c off) n a) none none ea
    awaitPkt k s1 ends
  | .cell h key =>
    let (k, s1) := sendFrom s sid t h (.atomic key n a) none ea
    awaitPkt k s1 ends
  | .far h key =>
    let (k, s1) := sendFrom s sid t h (.atomic key n a) none ea
    awaitPkt k s1 ends
  | .reg _ => .trap s 4 ea

def execAadd (x : Args) (s : State) : Host.Outcome State Fault Refusal := run 0x280 x (atomicBody 0x280 x) s
def execAand (x : Args) (s : State) : Host.Outcome State Fault Refusal := run 0x281 x (atomicBody 0x281 x) s
def execAor (x : Args) (s : State) : Host.Outcome State Fault Refusal := run 0x282 x (atomicBody 0x282 x) s
def execAxor (x : Args) (s : State) : Host.Outcome State Fault Refusal := run 0x283 x (atomicBody 0x283 x) s
def execAmin (x : Args) (s : State) : Host.Outcome State Fault Refusal := run 0x284 x (atomicBody 0x284 x) s
def execAmax (x : Args) (s : State) : Host.Outcome State Fault Refusal := run 0x285 x (atomicBody 0x285 x) s
def execAxch (x : Args) (s : State) : Host.Outcome State Fault Refusal := run 0x286 x (atomicBody 0x286 x) s
def execAcas (x : Args) (s : State) : Host.Outcome State Fault Refusal := run 0x287 x (atomicBody 0x287 x) s
def execAinc (x : Args) (s : State) : Host.Outcome State Fault Refusal := run 0x288 x (atomicBody 0x288 x) s

end Sys2Proof.Machine
end

