-- ==== Sys2Proof/Machine/Barrier.lean ====
section
/-! DEFINITION. Hardware barriers (R225-R227, R391-R393), memory barrier words (R228, R229, R394), stage rings (R230,
R357-R359) and declared debts (R231, R232). -/

namespace Sys2Proof.Machine
open Sys2Proof

/-! ## Hardware barriers -/

def hbIdx (o : Opnds) : Nat := o.aw.toNat % 32
/-- R226: a barrier that is not allocated or belongs to another context. -/
def hbForeign (h : HBar) (ctx : Nat) : Bool := !h.alloc || h.ctx != ctx
def bitCount {w : Nat} (m : BitVec w) (n : Nat) : Nat := ((List.range n).filter fun i => m.getLsbD i).length

/-- The joins and leaves of a barrier that its hub has still to perform. -/
def hbInFlight (s : State) (b i op : Nat) : List Pkt :=
  s.net.filter fun p => p.st == .flying && p.body == .hb b i op none
/-- R226: whether a strand is a member, its own posted joins and leaves counted as made. DEDUCED, log 63. -/
def hbMember (s : State) (b i uid : Nat) : Bool :=
  let mine := fun op => ((hbInFlight s b i op).filter fun p => p.uid == uid).map (·.k)
  match (mine 2).getLast?, (mine 1).getLast? with
  | some j, some l => l < j
  | some _, none => true
  | none, some _ => false
  | none, none => (hbEntry (getHb s b i) uid).isSome
/-- R227: the phase of a strand's latest arrival. -/
def hbArrivedIn (t : Strand) (b i : Nat) : Option (BitVec 16) := (t.arrived.find? fun e => e.1 == hbKey b i).map (·.2)
def setArrived (t : Strand) (b i : Nat) (p : Option (BitVec 16)) : Strand :=
  { t with arrived := (t.arrived.filter fun e => e.1 != hbKey b i) ++ (match p with | some v => [(hbKey b i, v)] | none => []) }
def postHub (s : State) (sid : Nat) (t : Strand) (body : Body) (scope : Option Scope) : State :=
  postPkt s (.core (coreOf sid)) (.hub (blkOf sid)) t.uid sid t.ctx body scope none 0

/-- R225. -/
def hbAllocBody (x : Args) : Body1 := fun s sid t o =>
  let b := blkOf sid
  let code := if x.a == .none then 0 else o.aw.toNat
  match (List.range 32).find? fun i => !(getHb s b i).alloc with
  | none => .done (setG s sid x.d 6)
  | some i =>
    .done (setG (setHb s b i { HBar.init with alloc := true, ctx := t.ctx, code := code, acc := combineId code }) sid x.d
      (BitVec.ofNat 64 (i * 2 ^ 8)))
def execHbAlloc (x : Args) (s : State) : Host.Outcome State Fault Refusal := run 0x2C0 x (hbAllocBody x) s

/-- R226, R392. -/
def hbJoinBody : Body1 := fun s sid t o =>
  let b := blkOf sid
  let i := hbIdx o
  let h := getHb s b i
  if hbForeign h t.ctx then .trap s 4 o.aw
  else if hbMember s b i t.uid then .done s
  else if 128 ≤ bitCount (hbUsed h) 128 + (hbInFlight s b i 2).length then .trap s 4 o.aw
  else if debtFull t (hbHandle b i) then .trap s 4 (hbHandle b i)
  else .done (postHub (updStrand s sid fun z => addDebt z (hbHandle b i) true) sid t (.hb b i 2 none) none)
def execHbJoin (x : Args) (s : State) : Host.Outcome State Fault Refusal := run 0x2C1 x hbJoinBody s

/-- R226, R227: the arrival counts from its issue, in the phase current then. -/
def hbArriveBody (x : Args) : Body1 := fun s sid t o =>
  let b := blkOf sid
  let i := hbIdx o
  let h := getHb s b i
  if hbForeign h t.ctx || !hbMember s b i t.uid then .trap s 4 o.aw
  else if hbArrivedIn t b i == some h.phase then .park s (hbHandle b i) (h.phase.setWidth 64) none .test
  else if owesAck s t.uid sid .dev then .park s 0 0 none (.drain 3)
  else
    let v := if x.b == .none then none else some (o.bw.setWidth 32)
    .done (postHub (updStrand s sid fun z => setArrived z b i (some h.phase)) sid t (.hb b i 0 v) (some .dev))
def execHbArrive (x : Args) (s : State) : Host.Outcome State Fault Refusal := run 0x2C2 x (hbArriveBody x) s

/-- R227: the phase a wait is for. -/
def hbAwaited (s : State) (b i : Nat) (t : Strand) : BitVec 16 :=
  let now := (getHb s b i).phase
  match t.wait with
  | some w => (match w.stage with
    | .test => w.arg.setWidth 16
    | _ => if hbMember s b i t.uid then (hbArrivedIn t b i).getD now else now)
  | none => if hbMember s b i t.uid then (hbArrivedIn t b i).getD now else now
/-- R212, R227. -/
def hbWaitBody (x : Args) : Body1 := fun s sid t o =>
  let b := blkOf sid
  let i := hbIdx o
  let h := getHb s b i
  let give := fun (r : BitVec 32) (st : Nat) => Res.done (setG s sid x.d (BitVec.ofNat 64 (r.toNat * 2 ^ 32 + st)))
  match grantedOf t with
  | some r => give (BitVec.ofNat 32 r) (readyStatus t)
  | none =>
    if hbForeign h t.ctx then .trap s 4 o.aw
    else
      let p := hbAwaited s b i t
      waitOn s t (hbHandle b i) (p.setWidth 64) (timeOut x o) (h.phase != p) (give h.result) (give 0 1)
def execHbWait (x : Args) (s : State) : Host.Outcome State Fault Refusal := run 0x2C3 x (hbWaitBody x) s

def hbLeaveBody : Body1 := fun s sid t o =>
  let b := blkOf sid
  let i := hbIdx o
  if hbForeign (getHb s b i) t.ctx then .trap s 4 o.aw
  else if !hbMember s b i t.uid then .done s
  else if owesAck s t.uid sid .dev then .park s 0 0 none (.drain 3)
  else .done (postHub (updStrand s sid fun z => setArrived (dropDebt z (hbHandle b i)) b i none) sid t (.hb b i 1 none) (some .dev))
def execHbLeave (x : Args) (s : State) : Host.Outcome State Fault Refusal := run 0x2C4 x hbLeaveBody s

/-- R226: the hub performs what the strand has posted to it before (R277). -/
def hbFreeBody : Body1 := fun s sid t o =>
  let b := blkOf sid
  let i := hbIdx o
  let h := getHb s b i
  if !drained s sid t 8 then .park s 0 0 none (.drain 8)
  else if hbForeign h t.ctx || h.mem != 0 || !(hbInFlight s b i 2).isEmpty || hbWaiters s b i != 0 then .trap s 4 o.aw
  else .done (setHb s b i HBar.init)
def execHbFree (x : Args) (s : State) : Host.Outcome State Fault Refusal := run 0x2C5 x hbFreeBody s

/-! ## Memory barrier words -/

/-- R229: MB.INIT, MB.ARRIVE and MB.EXPECT are the events 0, 1 and 2 of R394; an arrival is a release. -/
def mbBody (op : Nat) : Body1 := fun s sid t o =>
  match objTarget s sid t.ctx o.aw 16 with
  | .bad c i => .trap s c i
  | .mis => misTrap s
  | .at core off own =>
    if op == 0 && o.bw.toNat % 2 ^ 32 == 0 then .trap s 4 o.aw
    else if op == 1 && owesAck s t.uid sid .dev then .park s 0 0 none (.drain 3)
    else if !own && storesFull s t then .park s 0 0 none (.drain 6)
    else match ownHeld s own (.mb core off op o.bw) with
      | some (a, n) => .park s 0 0 none (.busy a n)
      | none => .done (postObj s sid t core own (.mb core off op o.bw) (if op == 1 then some .dev else none) o.aw)
def execMbInit (x : Args) (s : State) : Host.Outcome State Fault Refusal := run 0x2C6 x (mbBody 0) s
def execMbArrive (x : Args) (s : State) : Host.Outcome State Fault Refusal := run 0x2C7 x (mbBody 1) s
def execMbExpect (x : Args) (s : State) : Host.Outcome State Fault Refusal := run 0x2C8 x (mbBody 2) s

/-- R229: a wait on the word at a[63:4] for the parity a[0] to pass; an initialisation aborts it. The word is read behind the strand's
own posts to its home (R277, R290), and while no atomic holds it (R291). -/
def mbWaitBody (x : Args) : Body1 := fun s sid t o =>
  let give := fun (st : Nat) => Res.done (setG s sid x.d (BitVec.ofNat 64 st))
  match eventOf t with
  | some st => give st
  | none =>
    if o.aw &&& 14 != 0 then misTrap s
    else match objTarget s sid t.ctx (o.aw &&& ~~~ 15) 16 with
      | .bad c i => .trap s c i
      | .mis => misTrap s
      | .at core off _ =>
        let h := spadHandle 2 core off
        let left := waitLeft t (timeOut x o)
        if !portClear s (coreOf sid) t.uid (.core core) then .park s h (o.aw &&& 1) left (.drain 7)
        else if reserved s (spadKey core off) 16 then .park s h (o.aw &&& 1) left (.busy (spadKey core off) 16)
        else waitOn s t h (o.aw &&& 1) (timeOut x o) (mbPhase s core off != (o.aw &&& 1).toNat) give (give 1)
def execMbWait (x : Args) (s : State) : Host.Outcome State Fault Refusal := run 0x2C9 x (mbWaitBody x) s

/-! ## Stage rings -/

/-- R209, R230: register as a producer, a posted store. The debt is in the list from the issue on; one that a posted registration
did not bring goes with its answer. DEDUCED, log 75. -/
def rgProdBody : Body1 := fun s sid t o =>
  match objTarget s sid t.ctx o.aw 64 with
  | .bad c i => .trap s c i
  | .mis => misTrap s
  | .at core off own =>
    let h := spadHandle 4 core off
    let declare := fun (z : State) => updStrand z sid fun y => addDebt y h true
    if debtFull t h then .trap s 4 h
    else if !own && storesFull s t then .park s 0 0 none (.drain 6)
    else match ownHeld s own (.ringProd core off) with
      | some (a, n) => .park s 0 0 none (.busy a n)
      | none =>
        let (k, s1) := askObj s sid t core own (.ringProd core off) none o.aw
        match takeDone s1 k with
        | (some p, s2) => (match p.bad with
          | some (c, i) => .trap s2 c i
          | none => .done (if p.ans = 0 then s2 else declare s2))
        | (none, s2) => .done (declare s2)
def execRgProd (x : Args) (s : State) : Host.Outcome State Fault Refusal := run 0x2CB x rgProdBody s

/-- R17: the data of a slot in pieces that fit a ring packet of four flits with its header, each with its place in the slot.
DESIGN CHOICE, log 76. -/
def putPieces : Nat → Nat → List Byte → List (Nat × List Byte × Bool)
  | 0, i, bs => [(i, bs, true)]
  | f + 1, i, bs => if bs.length ≤ 112 then [(i, bs, true)] else (i, bs.take 112, false) :: putPieces f (i + 112) (bs.drop 112)
/-- R230: the data of a granted slot leave for it: on the ring of the block in packets of at most four flits, to another block in
one packet. DESIGN CHOICE, log 76. -/
def putData (s : State) (sid : Nat) (t : Strand) (core off : Nat) (own : Bool) (o : Opnds) (i : Nat) : Res :=
  let n := rgBytes s core off
  let bs := (List.range n).map (ownByte s (coreOf sid) o.bw)
  let s1 := captureOwn s sid t.ctx false o.bw n
  let from_ := Src.core (coreOf sid)
  let send := fun (z : State) (e : Nat × List Byte × Bool) =>
    postPkt z from_ (.core core) t.uid sid t.ctx (.ringData core off i e.1 e.2.1 e.2.2) (some .dev)
      (ringOf from_ (.core core) ((16 + e.2.1.length + 31) / 32) none) o.aw
  if own then (match ownHeld s own (.ringData core off i 0 bs true) with
    | some _ => .park s 0 (BitVec.ofNat 64 (i + 1)) none (.busy (spadKey core off) (64 + rgSlots s core off * n))
    | none => .done (postObj s1 sid t core true (.ringData core off i 0 bs true) none o.aw))
  else if (ringOf from_ (.core core) 1 none).isSome then .done ((putPieces 16 0 bs).foldl send s1)
  else .done (send s1 (0, bs, true))
/-- R230. -/
def rgPutBody : Body1 := fun s sid t o =>
  match objTarget s sid t.ctx o.aw 64 with
  | .bad c i => .trap s c i
  | .mis => misTrap s
  | .at core off own =>
    let h := spadHandle 4 core off
    let span := ownSpan (coreOf sid) o.bw (rgBytes s core off)
    if !owes t h then .trap s 4 o.aw
    else if o.bw >>> 56 != 0xF0 then .trap s 4 o.bw
    else if o.bw &&& 15 != 0 then misTrap s
    else match grantedOf t with
      | some i => putData s sid t core off own o i
      | none =>
        if owesAck s t.uid sid .dev then .park s 0 0 none (.drain 3)
        else if ownBusy s span then .park s 0 0 none (.busy span.1 span.2)
        else if poisoned s span.1 span.2 then .trap s 5 o.bw
        else match ownHeld s own (.ringAsk core off) with
          | some (a, n) => .park s h 0 none (.busy a n)
          | none =>
            let (k, s1) := askObj s sid t core own (.ringAsk core off) none o.aw
            awaitOn h k s1 fun z p => putData z sid t core off own o p.ans.toNat
def execRgPut (x : Args) (s : State) : Host.Outcome State Fault Refusal := run 0x2CC x rgPutBody s

/-- R358: the ring has a register of its core, or takes one. -/
def takeRing (s : State) (core off : Nat) : Option State :=
  let c := getCore s core
  if (ringReg c off).isSome || rgAtEnd s core off then some s
  else if 8 ≤ c.rings.length then none
  else some (updCore s core fun k => { k with rings := k.rings ++ [{ off := off, holders := [] }] })
/-- R230, R359. -/
def rgGetBody (x : Args) : Body1 := fun s sid t o =>
  match objTarget s sid t.ctx o.aw 64 with
  | .bad c i => .trap s c i
  | .mis => misTrap s
  | .at core off _ =>
    if core != coreOf sid then .trap s 4 o.aw
    else if reserved s (spadKey core off) 64 then
      .park s (spadHandle 4 core off) 0 (waitLeft t (timeOut x o)) (.busy (spadKey core off) 64)
    else match takeRing s core off with
      | none => .trap s 4 o.aw
      | some s0 =>
        let s1 := rgFree s0 core off t.uid
        waitOn s1 t (spadHandle 4 core off) 0 (timeOut x o) (rgPresent s1 core off || rgAtEnd s1 core off) (fun st =>
          if rgPresent s1 core off then
            let (i, s2) := rgHand s1 core off t.uid
            .done (setG s2 sid x.d (recvWord (rgSlotOff s1 core off i) 0 false 0 st))
          else .done (setG (rgDrop s1 core off) sid x.d (recvWord 0 0 true 0 0)))
          (.done (setG s1 sid x.d 1))
def execRgGet (x : Args) (s : State) : Host.Outcome State Fault Refusal := run 0x2CD x (rgGetBody x) s

/-- R230: the end-of-stream token, behind the issuer's own data. -/
def rgEosBody : Body1 := fun s sid t o =>
  match objTarget s sid t.ctx o.aw 64 with
  | .bad c i => .trap s c i
  | .mis => misTrap s
  | .at core off own =>
    if owesAck s t.uid sid .dev then .park s 0 0 none (.drain 3)
    else match ownHeld s own (.ringToken core off) with
      | some (a, n) => .park s 0 0 none (.busy a n)
      | none => .done (updStrand (postObj s sid t core own (.ringToken core off) (some .dev) o.aw) sid fun z =>
          dropDebt z (spadHandle 4 core off))
def execRgEos (x : Args) (s : State) : Host.Outcome State Fault Refusal := run 0x2CE x rgEosBody s

/-! ## Declared debts -/

/-- R231: a reserved kind, or a reserved bit set. DEDUCED, log 18. -/
def handleBad (h : Word) : Bool :=
  let k := handleKind h
  let loc := h.toNat % 2 ^ 30
  k == 0 || 8 ≤ k || h.toNat / 2 ^ 30 % 2 ^ 30 != 0 ||
  ((k == 1 || k == 5) && loc / 2 ^ 6 % 2 ^ 16 != 0) ||
  (k == 6 && (loc / 2 ^ 23 != 0 || loc.testBit 15)) || (k == 7 && loc / 2 ^ 16 != 0)
def oweBody : Body1 := fun s sid t o =>
  if handleBad o.aw then .trap s 4 o.aw
  else if debtFull t o.aw then .trap s 4 o.aw
  else .done (updStrand s sid fun z => addDebt z o.aw false)
def unoweBody : Body1 := fun s sid _ o =>
  if handleBad o.aw then .trap s 4 o.aw
  else .done (updStrand s sid fun z => { z with debts := z.debts.filter fun d => d.handle != o.aw || d.implicit })
def execOwe (x : Args) (s : State) : Host.Outcome State Fault Refusal := run 0x2CF x oweBody s
def execUnowe (x : Args) (s : State) : Host.Outcome State Fault Refusal := run 0x2D0 x unoweBody s

end Sys2Proof.Machine
end

