-- ==== Sys2Proof/Machine/Engine.lean ====
section
/-! DEFINITION. The engine forms (R233-R258): descriptors, commands and their queues, the C buffer, register copies, jobs and
trigger counters. -/

namespace Sys2Proof.Machine
open Sys2Proof

/-! ## Whole blocks of bytes -/

/-- What a block of 4, 64 or 256 bytes answers: its bytes, a stage to wait in, a trap, or a miss. -/
inductive Block
  | ok (s : State) (bytes : List Byte)
  | wait (s : State) (stage : Stage)
  | bad (s : State) (cls : Nat) (info : Word)
  | miss (need : Need)
  deriving DecidableEq, Repr

/-- R17, R296: the parts of a block outside the device or at another core, of 64 bytes at most, are asked for one after another. `i`
counts parts. -/
def fetchFar (s : State) (sid : Nat) (t : Strand) (h : Home) (a : Nat) (ea : Word) (n : Nat) :
    Nat → Nat → List (Nat × Nat) → List Byte → Block
  | 0, _, _, bs => .ok s bs
  | m + 1, i, got, bs =>
    let w := ea + BitVec.ofNat 64 (n * i)
    match (got.find? fun e => e.1 == w.toNat).map (·.2) with
    | some v => fetchFar s sid t h a ea n m (i + 1) got (bs ++ natBytes n v)
    | none =>
      let (k, s1) := sendFrom s sid t h (.load (a + n * i) n 0 0 (.g 0)) none w
      match takeDone s1 k with
      | (some p, s2) => (match p.bad with
        | some (c, j) => .bad s2 c j
        | none => fetchFar s2 sid t h a ea n m (i + 1) (got ++ [(w.toNat, p.ans.toNat)]) (bs ++ natBytes n p.ans.toNat))
      | (none, s2) => .wait (setGot s2 sid got) (.asked k)

/-- R276, R284: an access of a whole block to device memory, once nothing is before it at its home's port. -/
def atQuay (s : State) (sid : Nat) (t : Strand) (h : Home) (k n : Nat) (f : State → Block) : Block :=
  let xs := keyPorts s k n
  if !portClear s (coreOf sid) t.uid h then .wait s (.drain 7)
  else if !portsFree s 0 xs then .wait s (.drain 9)
  else f (takePorts s 0 xs)
/-- What reading n bytes gives where they stand; an atomic that holds one of them goes first. -/
def readNow (s z : State) (ea : Word) (k n : Nat) (f : State → List Byte → State) : Block :=
  if reserved s k n then .wait s (.busy k n)
  else if poisoned s k n then .bad z 5 ea
  else .ok (f z (readBytes s.mem k n)) (readBytes s.mem k n)
/-- A block read of device memory: the waiting instruction keeps it, since a second block at the same port comes in a later cycle. -/
def readQuay (s : State) (sid : Nat) (t : Strand) (h : Home) (k n : Nat) (ea : Word) : Block :=
  match ((gotIn (strandAt s sid)).find? fun e => e.1 == ea.toNat).map (·.2) with
  | some v => .ok s (natBytes n v)
  | none => atQuay s sid t h k n fun z => readNow s z ea k n fun y bs => setGot y sid (gotIn (strandAt y sid) ++ [(ea.toNat, bytesNat bs)])
/-- Read n bytes, aligned to n, at an address of one of the spaces `sp`. -/
def readBlock (s : State) (sid : Nat) (t : Strand) (sp : List Nat) (ea : Word) (n : Nat) : Block :=
  match target s sid t.ctx .read sp false ea (min n 16) with
  | .bad c i => .bad s c i
  | .mis => .bad s 2 ea
  | .miss => .miss .read
  | .gone => .ok (capture s t.ctx sid strandAgent false ea) (List.replicate n 0)
  | .own off => readNow s s ea (spadKey (coreOf sid) off) n fun y _ => y
  | .cell (.core c) a => fetchFar s sid t (.core c) a ea (min n 64) (n / min n 64) 0 (gotIn (strandAt s sid)) []
  | .cell h k => readQuay s sid t h k n ea
  | .far h a => fetchFar s sid t h a ea (min n 64) (n / min n 64) 0 (gotIn (strandAt s sid)) []
  | .reg _ => .bad s 4 ea

/-- R17, R296: a block outside the device or at another core is written by stores of 16 bytes; the strand waits for their acknowledgements. -/
def sendFar (s : State) (sid : Nat) (t : Strand) (h : Home) (a : Nat) (ea : Word) (bytes : List Byte) : Block :=
  let store := fun (z : State) (i : Nat) =>
    postFrom z sid t h (.store (a + 16 * i) 16 0xFFFF (BitVec.ofNat 128 (bytesNat ((bytes.drop (16 * i)).take 16)))) none
      (ea + BitVec.ofNat 64 (16 * i))
  let s1 := (List.range (bytes.length / 16)).foldl store s
  if (unacked s1 t.uid).any fun p => s.nextId ≤ p.k then .wait (setGot s1 sid [(2 ^ 64, 0)]) (.asked s.nextId) else .ok s1 []
/-- A block of the waiting instruction has left for its home. -/
def blockSent (t : Strand) : Bool := (gotWords t).any fun e => e.1 == 2 ^ 64

/-- Write n bytes, aligned to n; the write is acknowledged with it. -/
def writeBlock (s : State) (sid : Nat) (t : Strand) (sp : List Nat) (ea : Word) (bytes : List Byte) : Block :=
  let n := bytes.length
  let cell := fun (k : Nat) (z : State) =>
    if reserved s k n then Block.wait s (.busy k n)
    else .ok (heal { z with mem := writeBytes s.mem k bytes } k n) []
  match target s sid t.ctx .write sp false ea (min n 16) with
  | .bad c i => .bad s c i
  | .mis => .bad s 2 ea
  | .miss => .miss .write
  | .gone => .ok (capture s t.ctx sid strandAgent true ea) []
  | .own off => cell (spadKey (coreOf sid) off) s
  | .cell (.core c) a => sendFar s sid t (.core c) a ea bytes
  | .cell h k => atQuay s sid t h k n (cell k)
  | .far h a => sendFar s sid t h a ea bytes
  | .reg _ => .bad s 4 ea

/-- A form goes on with a block, or waits or traps. -/
def withBlock (s : State) (sid : Nat) (t : Strand) (ea : Word) (b : Block) (f : State → List Byte → Res) : Res :=
  match b with
  | .ok s1 bs => f s1 bs
  | .wait s1 st => .park s1 0 0 none st
  | .bad s1 c i => .trap s1 c i
  | .miss n => missPark s sid t.ctx n ea 0

/-! ## Tensor descriptors (R76, R238) -/

def blockSpaces : List Nat := [0xF0, 0xF1, 0]
/-- The address of descriptor n. -/
def tdAddr (s : State) (ctx n : Nat) : Word := (getCtx s ctx).tdbase + BitVec.ofNat 64 (64 * n)
/-- The spaces the table may lie in (R76): global virtual space. -/
def tableSpaces : List Nat := [0]

/-- R238: the checks on the descriptor number and the address. -/
def tdBad (o : Opnds) : Option (Nat × Word) :=
  if 256 ≤ o.aw.toNat then some (4, o.aw) else none
def tdBody (src dst : State → Strand → Opnds → Word) (ssp dsp : List Nat) : Body1 := fun s sid t o =>
  match tdBad o with
  | some (c, i) => .trap s c i
  | none =>
    if o.bw &&& 63 != 0 then misTrap s
    else if blockSent t then .done s
    else withBlock s sid t (src s t o) (readBlock s sid t ssp (src s t o) 64) fun s1 bs =>
      withBlock s1 sid t (dst s t o) (writeBlock s1 sid t dsp (dst s t o) bs) fun s2 _ => .done s2
def execTdset (x : Args) (s : State) : Host.Outcome State Fault Refusal :=
  run 0x300 x (tdBody (fun _ _ o => o.bw) (fun s t o => tdAddr s t.ctx o.aw.toNat) blockSpaces tableSpaces) s
def execTdget (x : Args) (s : State) : Host.Outcome State Fault Refusal :=
  run 0x301 x (tdBody (fun s t o => tdAddr s t.ctx o.aw.toNat) (fun _ _ o => o.bw) tableSpaces blockSpaces) s

/-! ## Submitting a command (R233, R257, R348) -/

/-- R233 step 4: the descriptors a command names, in order. -/
def takeDescs (s : State) (sid : Nat) (t : Strand) : List Nat → List (BitVec 512) → (State → List (BitVec 512) → Res) → Res
  | [], acc, f => f s acc
  | n :: ns, acc, f =>
    let ea := tdAddr s t.ctx n
    withBlock s sid t ea (readBlock s sid t tableSpaces ea 64) fun s1 bs =>
      takeDescs s1 sid t ns (acc ++ [BitVec.ofNat 512 (bytesNat bs)]) f

/-- The two descriptors of a command. -/
def namedDescs (c : BitVec 512) : List Nat := [fld c 0 48 8, fld c 0 40 8]

/-- R348: an entry is free and nobody waits for one. -/
def queueRoom (s : State) (b q : Nat) : Bool :=
  (queueOf s b q).jobs.length < depthOf q && (queueOf s b q).waiting.isEmpty

/-- The answer to a submission: its sequence and its promise, 0 for none. -/
def packSeq (seq : Nat) (p : Option Nat) : Nat := seq + p.getD 0 * 2 ^ 28

/-- A submission enters its queue (R233, R257, R356). -/
def enterSubmit (s : State) (b q : Nat) (w : Submit) : Nat × State :=
  let (seq, p, s1) := enterJob s b q w.kind w.cmd w.descs w.bad w.trig w.sid w.ctx
  (packSeq seq p, match w.trig with | some (i, _) => tcMoved s1 b i | none => s1)

/-- R234, R245: the handle, and for a copy the promise, reach the registers. -/
def giveHandle (s : State) (sid : Nat) (x : Args) (b q n : Nat) (promise : Bool) : Res :=
  let s1 := setG s sid x.d (jobHandle b q (n % 2 ^ 28) 0)
  .done (if promise then updStrand s1 sid fun t => writeG t (idxOf x.d + 1) (BitVec.ofNat 64 (n / 2 ^ 28)) else s1)

/-- R233: one submission to an engine queue. -/
def submit (s : State) (sid : Nat) (t : Strand) (x : Args) (o : Opnds) (q : Nat) (kind : JobKind)
    (trig : Option (Nat × BitVec 48)) (promise : Bool) : Res :=
  let b := blkOf sid
  match grantedOf t with
  | some n => giveHandle s sid x b q n promise
  | none =>
    if owesAck s t.uid sid .dev then .park s 0 0 none (.drain 3)
    else takeDescs s sid t (namedDescs o.a) [] fun s1 ds =>
      let wrong := if kind == .matrix then mxReserved o.a else cpReserved o.a
      let w : Submit := { uid := t.uid, k := s1.nextId, kind := kind, cmd := o.a, descs := ds, bad := wrong, trig := trig,
                          sid := sid, ctx := t.ctx, mask := 0 }
      if queueRoom s1 b q then
        let (n, s2) := enterSubmit s1 b q w
        giveHandle s2 sid x b q n promise
      else .park (updQ { s1 with nextId := s1.nextId + 1 } b q fun y => { y with waiting := y.waiting ++ [w] }) 0 0 none (.asked w.k)

def execMxq (x : Args) (s : State) : Host.Outcome State Fault Refusal :=
  run 0x302 x (fun s sid t o => submit s sid t x o 0 .matrix none false) s
/-- R244: the queue that a copy command names. -/
def copyQueue (c : BitVec 512) : Nat := 1 + fld c 0 56 1
def execCpq (x : Args) (s : State) : Host.Outcome State Fault Refusal :=
  run 0x304 x (fun s sid t o => submit s sid t x o (copyQueue o.a) .copy none true) s

/-! ## QFENCE (R253) -/

def namedQueues (mask : Nat) : List Nat := (List.range 3).filter fun q => mask.testBit q
def qfenceBody (x : Args) : Body1 := fun s sid t o =>
  let b := blkOf sid
  let mask := o.aw.toNat % 8
  let give := fun (z : State) (seq : Nat) => Res.done (setG z sid x.d (jobHandle b 4 (seq % 2 ^ 28) mask))
  match grantedOf t with
  | some n => give s n
  | none =>
    if (namedQueues mask).all (queueRoom s b) then
      let (seq, s1) := enterFence s b mask sid t.ctx
      give s1 seq
    else
      let w : Submit := { uid := t.uid, k := s.nextId, kind := .fence, cmd := 0, descs := [], bad := false, trig := none,
                          sid := sid, ctx := t.ctx, mask := mask }
      .park ((namedQueues mask).foldl (fun z q => updQ z b q fun y => { y with waiting := y.waiting ++ [w] })
        { s with nextId := s.nextId + 1 }) 0 0 none (.asked w.k)
def execQfence (x : Args) (s : State) : Host.Outcome State Fault Refusal := run 0x30A x (qfenceBody x) s

/-- A submission leaves every line it stands in. -/
def dropSubmit (s : State) (b k : Nat) : State :=
  (List.range 3).foldl (fun z q => updQ z b q fun y => { y with waiting := y.waiting.filter fun w => w.k != k }) s
/-- R348: the head of a queue's line gets an entry; a fence when every queue it names has one for it. -/
def grantEntry (s : State) (b q : Nat) : State :=
  match (queueOf s b q).waiting.head? with
  | none => s
  | some w =>
    let open1 := fun p => (queueOf s b p).jobs.length < depthOf p && ((queueOf s b p).waiting.head?).map (·.k) == some w.k
    if !((strandOf s w.uid).map fun t => asksFor t w.k).getD false then dropSubmit s b w.k
    else if w.kind == .fence then
      if (namedQueues w.mask).all open1 then
        let (seq, s1) := enterFence (dropSubmit s b w.k) b w.mask w.sid w.ctx
        answerGrant s1 w.uid w.k seq
      else s
    else if open1 q then
      let (n, s1) := enterSubmit (dropSubmit s b w.k) b q w
      answerGrant s1 w.uid w.k n
    else s
def execQueueEntryGrant (blk q : Nat) (s : State) : Host.Outcome State Fault Refusal := .next (grantEntry s blk q)

/-! ## CLD (R243) -/

def lanesOfFmt (t : Nat) : Nat := 128 / elemBits t
/-- An accumulator as it stands; one out of range reads as zero. -/
def accValue (s : State) (b q : Nat) : Nat := if q ≤ 131071 then readLe s.mem (accKey b q) 10 else 0
/-- R69: the address that an out-of-range read of the C buffer is captured with. -/
def cAddr (off : Nat) : Word := BitVec.ofNat 64 (0xF6 * 2 ^ 56 + off % 2 ^ 56)
def cldBody (x : Args) : Body1 := fun s sid t o =>
  let b := blkOf sid
  let ty := codeOf x.d
  let a := o.aw.toNat
  let n := idxOf x.d
  let put := fun (z : State) (v : Nat) (fl : BitVec 5) =>
    Res.done (updStrand z sid fun y => raise (writeV y n (BitVec.ofNat 128 v)) fl)
  if o.bw.toNat / 8 != 0 then .trap s 4 o.bw
  else if ty == 0 then
    if a % 16 != 0 then misTrap s
    else if 0x140000 ≤ a then put (capture s t.ctx sid strandAgent false (cAddr a)) 0 0
    else if poisoned s (bufKey 0xF6 b a) 16 then .trap s 5 (cAddr a)
    else put s (readLe s.mem (bufKey 0xF6 b a) 16) 0
  else
    let cnt := if ty == 9 then 1 else lanesOfFmt ty
    let s1 := if 131071 < a + cnt - 1 then capture s t.ctx sid strandAgent false (cAddr (10 * a)) else s
    if a ≤ 131071 && poisoned s (accKey b a) (10 * cnt) then .trap s 5 (cAddr (10 * a))
    else if ty == 9 then put s1 (accValue s b a) 0
    else
      let rs := (List.range cnt).map fun i =>
        fpToFp a80 (fmtOf ty) (rndOf (o.bw.toNat % 4)) (o.bw.getLsbD 2) (accValue s b (a + i))
      put s1 ((rs.zipIdx).foldl (fun v (r, i) => v + r.bits * 2 ^ (elemBits ty * i)) 0) (rs.foldl (fun f r => f ||| r.fl) 0)
def execCld (x : Args) (s : State) : Host.Outcome State Fault Refusal := run 0x303 x (cldBody x) s

/-! ## CPR (R248) -/

def cprRegs (x : Args) : List RegRef :=
  (List.range (codeOf x.d + 1)).map fun i => match x.d with
    | .reg r => if r.cls == .v then .v (r.idx.toNat + i) else .g (r.idx.toNat + i)
    | _ => .g i
def cprSize (x : Args) : Nat := match x.d with | .reg r => if r.cls == .v then 16 else 8 | _ => 8

/-- The first word that stops a register copy before it has any effect. -/
def cprCheck (s : State) (sid : Nat) (t : Strand) (ea : Word) (n : Nat) : Nat → Nat → Option Res
  | 0, _ => none
  | k + 1, i =>
    let w := ea + BitVec.ofNat 64 (n * i)
    match target s sid t.ctx .read loadSpaces false w n with
    | .bad c j => some (.trap s c j)
    | .mis => some (misTrap s)
    | .miss => some (missPark s sid t.ctx .read w 0)
    | .own off =>
      let a := spadKey (coreOf sid) off
      if reserved s a n then some (.park s 0 0 none (.busy a n))
      else if poisoned s a n then some (.trap s 5 w)
      else cprCheck s sid t ea n k (i + 1)
    | _ => cprCheck s sid t ea n k (i + 1)

/-- One word: it lands at once, or its read is sent. A poisoned word halts the strand once CPR is complete (R345). -/
def cprWord (s : State) (sid : Nat) (t : Strand) (w : Word) (n : Nat) (r : RegRef) (h : Word) : State :=
  let now := fun (z : State) (v : Nat) => updStrand z sid (landIn r 0xFFFF (BitVec.ofNat 128 v))
  let ask := fun (z : State) (hm : Home) (a : Nat) =>
    let z1 := updStrand z sid fun y =>
      { setTag (setFull y r false) r false with
        copies := y.copies ++ [{ reg := r, home := hm, addr := a, ea := w, handle := h, halted := false }] }
    let (k, z2) := sendFrom z1 sid t hm (.copyWord a n r h) none w
    match takeDone z2 k with
    | (some p, _) => (match p.bad with
      | some (c, i) => updStrand (haltCopy z2 p) sid fun y => if c == 12 then y else { y with due := y.due <|> some (c, i) }
      | none => landCopy z2 p)
    | (none, z3) => z3
  match target s sid t.ctx .read loadSpaces false w n with
  | .own off => now s (readLe s.mem (spadKey (coreOf sid) off) n)
  | .reg off => ask s .register off
  | .cell hm a => ask s hm a
  | .far hm a => ask s hm a
  | _ => now (capture s t.ctx sid strandAgent false w) 0

/-- The reads of a register copy, in ascending order. -/
def cprSend (s : State) (sid : Nat) (t : Strand) (ea : Word) (n : Nat) (h : Word) : List RegRef → Nat → State
  | [], _ => s
  | r :: rs, i => cprSend (cprWord s sid t (ea + BitVec.ofNat 64 (n * i)) n r h) sid t ea n h rs (i + 1)

def cprBody (x : Args) : Body1 := fun s sid t o =>
  let ea := o.aw + o.bw
  let rs := cprRegs x
  let n := cprSize x
  let h := regHandle sid (rs.headD (.g 0))
  match cprCheck s sid t ea n rs.length 0 with
  | some r => r
  | none => match rs.find? (copying t) with
    | some r => .park s (regHandle sid r) 0 none (.copyOf r)
    | none =>
      if debtFull t h then .trap s 4 h
      else
        let s1 := cprSend (updStrand s sid fun y => addDebt y h true) sid t ea n h rs 0
        .done (updStrand s1 sid fun y =>
          if (y.copies.any fun c => c.handle == h) || owes t h then y else dropDebt y h)
def execCpr (x : Args) (s : State) : Host.Outcome State Fault Refusal := run 0x305 x (cprBody x) s

/-! ## Jobs (R249-R252) -/

/-- R249: wait until a job ends. -/
def jobWait (x : Args) (s : State) (sid : Nat) (t : Strand) (o : Opnds) : Res :=
  waitOn s t o.aw 0 none (jobState s o.aw == 4) (fun _ => .done (setG s sid x.d (jobStatus s o.aw))) (.done s)
def jwaitBody (x : Args) : Body1 := fun s sid t o => if jhOk s t.ctx o.aw then jobWait x s sid t o else .trap s 4 o.aw
def execJwait (x : Args) (s : State) : Host.Outcome State Fault Refusal := run 0x306 x (jwaitBody x) s

/-- R250, R352: the job's promise has passed, it has not ended or halted, and no miss has been reported. A waiter that was
in the cordon waits as JWAIT does. -/
def promisePast (s : State) (t : Strand) (h : Word) : Bool :=
  !wasWithheld t && (match findJob s h with
    | some j => !j.lapsed && j.state != 3 && j.state != 4 && !j.missed && (j.promise.map fun p => decide (p < s.cycle)).getD false
    | none => false)
def markMissed (s : State) (h : Word) : State := updJob s (jhBlk h) (jhQueue h) (jhSeq h) fun j => { j with missed := true }
def jwaitpBody (x : Args) : Body1 := fun s sid t o =>
  if !jhOk s t.ctx o.aw then .trap s 4 o.aw
  else if promisePast s t o.aw then .trap (markMissed s o.aw) 6 o.aw
  else jobWait x s sid t o
def execJwaitp (x : Args) (s : State) : Host.Outcome State Fault Refusal := run 0x307 x (jwaitpBody x) s

def jstatBody (x : Args) : Body1 := fun s sid t o =>
  if jhOk s t.ctx o.aw then .done (setG s sid x.d (jobStatus s o.aw)) else .trap s 4 o.aw
def execJstat (x : Args) (s : State) : Host.Outcome State Fault Refusal := run 0x308 x (jstatBody x) s

/-- R252: the handle in a[47:0], and whether a[63] asks to resume. -/
def jcanHandle (a : Word) : Word := a &&& 0x7FFFFFFFFFFFFFFF
/-- R252. The answer holds the status after the action, so the strand waits until a job that it cancels while it runs has
stopped (notes/assumptions/15.md). DEDUCED. -/
def jcanBody (x : Args) : Body1 := fun s sid t o =>
  let h := jcanHandle o.aw
  if o.aw.getLsbD 63 && t.ctx != 0 && !(slotOf sid == 0 && ownsBlk s t.ctx (jhBlk h)) then .trap s 1 (privInfo 0x309)
  else if !jhOk s t.ctx h then .trap s 4 o.aw
  else if o.aw.getLsbD 63 then .done (setG (resumeJob s h) sid x.d (jobStatus (resumeJob s h) h))
  else if jobState (cancelJob s h) h != 4 then .park (cancelJob s h) h 0 none .test
  else .done (setG (cancelJob s h) sid x.d (jobStatus (cancelJob s h) h))
def execJcan (x : Args) (s : State) : Host.Outcome State Fault Refusal := run 0x309 x (jcanBody x) s

/-! ## Trigger counters (R255-R257) -/

/-- R255: a register outside 0 to 63, or reserved bits. -/
def tcBad (o : Opnds) (hi : Nat) : Option Word :=
  if 64 ≤ o.aw.toNat then some o.aw else if o.bw.toNat / 2 ^ 48 % 2 ^ hi != 0 then some o.bw else none
/-- R353: the strands, by start id, registered with a counter or about to be by a packet on its way, but for one. -/
def tcRegistered (s : State) (b i me : Nat) : Nat :=
  let coming := s.net.filterMap fun p => match p.body with
    | .tc y z false true _ => if p.st == .flying && y == b && z == i then (strandOf s p.uid).map (·.startId) else none
    | _ => none
  (((getTc s b i).strands ++ coming).eraseDups.filter fun k => k != me).length
def tcsetBody : Body1 := fun s sid t o =>
  let b := blkOf sid
  let i := o.aw.toNat
  let reg := o.bw.getLsbD 63
  match tcBad o 15 with
  | some w => .trap s 4 w
  | none =>
    if reg && !((getTc s b i).strands.contains t.startId) && 32 ≤ tcRegistered s b i t.startId then .trap s 4 o.aw
    else if reg && debtFull t (tcHandle b i) then .trap s 4 (tcHandle b i)
    else if owesAck s t.uid sid .dev then .park s 0 0 none (.drain 3)
    else
      let s1 := if reg then updStrand s sid fun y => addDebt y (tcHandle b i) true else s
      .done (postHub s1 sid t (.tc b i false reg (o.bw.setWidth 48)) (some .dev))
def execTcset (x : Args) (s : State) : Host.Outcome State Fault Refusal := run 0x30B x tcsetBody s
def tcaddBody : Body1 := fun s sid t o =>
  let b := blkOf sid
  let i := o.aw.toNat
  let last := o.bw.getLsbD 63
  match tcBad o 15 with
  | some w => .trap s 4 w
  | none =>
    if owesAck s t.uid sid .dev then .park s 0 0 none (.drain 3)
    else
      let s1 := if last then updStrand s sid fun y => dropDebt y (tcHandle b i) else s
      .done (postHub s1 sid t (.tc b i true last (o.bw.setWidth 48)) (some .dev))
def execTcadd (x : Args) (s : State) : Host.Outcome State Fault Refusal := run 0x30C x tcaddBody s

/-- R256, R290, R356: the counter is read behind the strand's own posts, as it stands once the events of a cycle are over. -/
def tcwaitBody (x : Args) : Body1 := fun s sid t o =>
  let b := blkOf sid
  let i := o.aw.toNat
  let give := fun (cnt st : Nat) => Res.done (setG s sid x.d (BitVec.ofNat 64 (cnt * 2 ^ 16 + st)))
  match grantedOf t with
  | some cnt => give cnt (readyStatus t)
  | none => match tcBad o 16 with
    | some w => .trap s 4 w
    | none =>
      let c := getTc s b i
      if !portClear s (coreOf sid) t.uid (.hub b) then .park s (tcHandle b i) o.bw none (.drain 7)
      else waitOn s t (tcHandle b i) o.bw none (!c.moved && tcReached c.count (o.bw.setWidth 48)) (give c.count.toNat) (.done s)
def execTcwait (x : Args) (s : State) : Host.Outcome State Fault Refusal := run 0x30D x (tcwaitBody x) s

end Sys2Proof.Machine
end

