-- ==== Sys2Proof/Machine/Work.lean ====
section
/-! DEFINITION. Launch and spawn (R259, R260), and the Interchange's and corners' work for them (R365-R374): submission by the
host, release, offering, ending and cancel. -/

namespace Sys2Proof.Machine
open Sys2Proof

/-- The 64-bit words of a block of bytes. -/
def bytesWords (bs : List Byte) : List Word := (List.range (bs.length / 8)).map fun i => wordAt bs (8 * i)
/-- R259, R261: the spaces of a record or list. -/
def recordSpaces : List Nat := [0xF0, 0]
/-- A status in [63:56] over a number. -/
def statusOver (status n : Nat) : Word := BitVec.ofNat 64 (status * 2 ^ 56 + n % 2 ^ 48)

/-! ## LAUNCH -/

/-- R259. The Interchange's acceptance is made in the step that reads the record. -/
def launchBody (x : Args) : Body1 := fun s sid t o =>
  if o.aw.toNat % 256 != 0 then misTrap s
  else if owesAck s t.uid sid .dev then .park s 0 0 none (.drain 3)
  else withBlock s sid t o.aw (readBlock s sid t recordSpaces o.aw 256) fun s1 bs =>
    let (status, id, s2) := acceptLaunch s1 t.ctx (bytesWords bs) false
    .done (setG s2 sid x.d (statusOver status id))
def execLaunch (x : Args) (s : State) : Host.Outcome State Fault Refusal := run 0x380 x (launchBody x) s

/-! ## SPAWN -/

/-- R260: where a spawned unit goes: its hint block, and the core it must reach. -/
inductive SpawnTo
  | home (blk : Nat) (core : Option Nat)
  | bad (cls : Nat) (info : Word)
  | miss
  deriving DecidableEq, Repr

/-- R260: the block of the partition in the issuer's District that is nearest to its Interchange corner. -/
def ichgBlk (s : State) (ctx sid : Nat) : Nat := nearestBlk s ctx (corner (distOf sid)) 0

/-- R260: the home of a. As a data read of a would, the translation asks for the page's r bit; where the home's District has no block of the
partition, the unit takes the spread choice of R368 by the spawn count. DESIGN CHOICE, log 87. -/
def spawnHome (s : State) (sid : Nat) (t : Strand) (a : Word) : SpawnTo :=
  let sel := (a >>> 56).toNat
  match target s sid t.ctx .read [0xF0, 0xF1, 0, 0xF4, 0xF5, 0xF6] false a 1 with
  | .bad c i => .bad c i
  | .mis => .bad 2 a
  | .miss => .miss
  | .own _ => .home (blkOf sid) (some (coreOf sid))
  | .gone =>
    if sel == 0xF0 then .home (blkOf sid) (some (coreOf sid))
    else if sel == 0xF1 then .home (blkOfCore (handleCore a)) (some (handleCore a))
    else .home (blkOf sid) none
  | .cell (.core c) _ => .home (blkOfCore c) (some c)
  | .cell (.quay d q) _ => .home (nearestBlk s t.ctx (quayBlk d q) t.spawns) none
  | .cell _ _ => .home (blkOf sid) none
  | .far _ _ => .home (ichgBlk s t.ctx sid) none
  | .reg _ => .bad 4 a

/-- R260: field b names the record: an address, or an own-scratchpad offset [17:0]. -/
def recordAddr (x : Args) (o : Opnds) : Word :=
  match x.b with
  | .imm _ => 0xF000000000000000#64 ||| (o.bw &&& 0x3FFFF)
  | _ => o.bw
/-- R260: the radius that the hint gives. -/
def spawnRadius (x : Args) (l : Launch) : Nat := if x.hint == 1 then 0 else if x.hint == 2 then 7 else lrRadius l.words

/-- R260, R372, R377: the launch counts the unit and it leaves; a cancelled launch refuses it. -/
def spawnUnit (s : State) (sid : Nat) (t : Strand) (x : Args) (ws : List Word) (blk : Nat) (core : Option Nat) : Nat × Nat × State :=
  let id := t.launchid.toNat
  let l := getLaunch s (id % 2048)
  let uid := sid % 2 ^ 15 * 2 ^ 33 + t.spawns % 2 ^ 33
  if l.state == 4 || launchId l (id % 2048) != id then (4, 0, s)
  else
    let s1 := updLaunch s (id % 2048) fun k => { k with expected := k.expected + 1, state := if k.state == 2 then 1 else k.state }
    let s2 := updStrand s1 sid fun z => { z with spawns := z.spawns + 1 }
    (0, uid, sendUnit s2 { id := uid, launch := id, words := ws } (blkOf sid :: pathTo (blkOf sid) blk) blk (spawnRadius x l) core)

/-- R260: the checks in their order, then the unit leaves. -/
def spawnBody (x : Args) : Body1 := fun s sid t o =>
  let id := t.launchid.toNat
  if id == 0 then .trap s 4 0
  else match spawnHome s sid t o.aw with
    | .bad c i => .trap s c i
    | .miss => missPark s sid t.ctx .read o.aw 0
    | .home blk core =>
      let b := recordAddr x o
      if b >>> 56 != 0xF0 then .trap s 4 b
      else if b.toNat % 64 != 0 then misTrap s
      else if (getLaunch s (id % 2048)).state != 4 && 0xFFFFFF < (getLaunch s (id % 2048)).expected + 1 then .trap s 4 t.launchid
      else if owesAck s t.uid sid .dev then .park s 0 0 none (.drain 3)
      else withBlock s sid t b (readBlock s sid t [0xF0] b 64) fun s1 bs =>
        let (status, uid, s2) := spawnUnit s1 sid t x (bytesWords bs) blk core
        .done (setG s2 sid x.d (statusOver status uid))
def execSpawn (x : Args) (s : State) : Host.Outcome State Fault Refusal := run 0x381 x (spawnBody x) s

/-! ## The Interchange and the corners -/

/-- R365: the host's record arrives with word 31. The words are what the host wrote in the slot; the reply is dropped
where it cannot be written. -/
def slotWords (s : State) (ctx slot : Nat) : List Word :=
  (List.range 32).map fun i => BitVec.ofNat 64 (readLe (mapGet [] s.mgmt.window ctx) (slot * 256 + 8 * i) 8)
def clearSlotWord (s : State) (ctx slot : Nat) : State :=
  updMgmt s fun m => { m with window := mapPut m.window ctx (writeLe (mapGet [] m.window ctx) (slot * 256 + 248) 8 0) }
def submitHost (s : State) (ctx slot : Nat) : State :=
  let ws := slotWords s ctx slot
  if !(ws.getD 31 0).getLsbD 63 then s
  else
    let st := (getCtx s ctx).st
    let (status, id, s1) :=
      if st == .admitted || st == .running || st == .switchedOut then acceptLaunch s ctx ws true else (4, 0, s)
    clearSlotWord (ichgWrite s1 ctx (ws.getD 7 0).toNat (wordsBytes [statusOver status id, 0])).2 ctx slot
def execHostSubmission (ctx slot : Nat) (s : State) : Host.Outcome State Fault Refusal :=
  .next (if slot < 16 && ctx < 64 then submitHost s ctx slot else s)

def execUnitRelease (entry : Nat) (s : State) : Host.Outcome State Fault Refusal := .next (releaseUnit s entry)
def execUnitOffer (k : Nat) (s : State) : Host.Outcome State Fault Refusal :=
  .next (match s.corners.find? fun f => f.k == k with
    | some f => if f.queued then s else offerUnit s f
    | none => s)
def execCornerQueueReoffer (blk : Nat) (s : State) : Host.Outcome State Fault Refusal := .next (reofferUnit s blk)
def execLaunchEnd (entry : Nat) (s : State) : Host.Outcome State Fault Refusal := .next (endLaunch s entry)
def execWcancel (ctx : Nat) (v : Word) (s : State) : Host.Outcome State Fault Refusal := .next (wcancel s ctx v)

end Sys2Proof.Machine
end

