-- ==== Sys2Proof/Machine/Group.lean ====
section
/-! DEFINITION. Groups and posted collectives (R261-R267, R379-R390, R451): the forms, the Plaza that matches posts and issues
tickets, and what a device does with a ticketed collective. -/

namespace Sys2Proof.Machine
open Sys2Proof

/-! ## Groups -/

def entDevice (e : Nat) : Bool := e.testBit 31
def entMember (e : Nat) : Nat := e / 2 ^ 16 % 1024
def entBlk (e : Nat) : Nat := e % 256

/-- R261: an entry breaks its layout. -/
def entBad (e : Nat) : Bool := e / 2 ^ 26 % 32 != 0 || e / 2 ^ 8 % 256 != 0 || (entDevice e && e % 256 != 0)
def ascending : List Nat → Bool
  | a :: b :: l => a < b && ascending (b :: l)
  | _ => true
/-- R261: the list is good and names members of the domain only. -/
def listOk (s : State) (es : List Nat) : Bool :=
  1 ≤ es.length && es.length ≤ 1024 && ascending es && es.all fun e => !entBad e && s.dom.members.contains (entMember e)

/-- R452: the list names no block whose District is not ready: of this device, or of another member as its READY word was last heard, and
no other member to which no port that is ready leads. That R452's commands are the requests for a group is DEDUCED, log 81. -/
def listReady (s : State) (es : List Nat) : Bool :=
  es.all fun e =>
    if entMember e == s.dom.member then entDevice e || distReady s (distOfBlk (entBlk e))
    else (portOf s (entMember e)).isSome &&
      (entDevice e || ((mapFind s.dom.readyOf (entMember e)).map fun w => w.getLsbD (42 + distOfBlk (entBlk e))).getD true)

/-- R379: this device's Plaza is the active one. -/
def activeHere (s : State) : Bool := s.dom.state == 0 || s.dom.plaza == s.dom.member
def localList (s : State) (es : List Nat) : Bool := es.all fun e => entMember e == s.dom.member

def addGroup (s : State) (gid ctx : Nat) (es : List Nat) (home : Nat) : State :=
  updPlaza s fun z => { z with groups := z.groups ++ [{ gid := gid, ctx := ctx, entries := es, state := 0, lost := 4, owners := [],
                                                        marked := [], posts := [], tickets := 0, plaza := home,
                                                        clear := [], trapped := false }] }
/-- R379: the ids of a table that are free; which one a group gets is open. -/
def freeIds (s : State) (lo n : Nat) : List Nat :=
  ((List.range n).map (· + lo)).filter fun i => !s.plaza.groups.any fun g => g.gid == i
/-- R261, R379: a Plaza creates a group: status, id. DESIGN CHOICE, log 1. -/
def createGroup (s : State) (ctx : Nat) (es : List Nat) : Nat × Nat × State :=
  let free := if localList s es then freeIds s 0x8000 1024 else freeIds s 1 16383
  if !listOk s es then (4, 0, s)
  else if !listReady s es then (6, 0, s)
  else match free[Config.choice s.fresh % free.length]? with
    | none => (6, 0, s)
    | some gid => (0, gid, addGroup { s with fresh := s.fresh + 1 } gid ctx es s.dom.member)

/-- The message that tells of a group; `answer` says that it answers a request. -/
def groupMessage (status gid ctx : Nat) (answer : Bool) (es : List Nat) : List Byte :=
  1 :: natBytes 1 status ++ natBytes 2 gid ++ natBytes 1 ctx ++ [if answer then 1 else 0] ++ es.flatMap (natBytes 4)
/-- R379: every other member of the domain hears of a new group of the active Plaza, but for the one that asked for it. -/
def tellNew (s : State) (gid ctx : Nat) (es : List Nat) (asker : Nat) : State :=
  (s.dom.members.filter fun d => d != s.dom.member && d != asker).foldl (fun z d => sendPlaza z d (groupMessage 0 gid ctx false es)) s
/-- R261: the active Plaza answers another member's request; the other devices hear of it. -/
def groupRequested (s : State) (m ctx : Nat) (es : List Nat) : State :=
  if !activeHere s then s
  else
    let (status, gid, s1) := createGroup s ctx es
    let s2 := if m == s.dom.member then s1 else sendPlaza s1 m (groupMessage status gid ctx true es)
    if status != 0 then s2 else tellNew s2 gid ctx es m
def execPlazaGroupRequest (m ctx : Nat) (entries : List Nat) (s : State) : Host.Outcome State Fault Refusal :=
  .next (groupRequested s m ctx entries)

/-- The result register of the instruction in which a strand waits. -/
def waitDest (s : State) (uid : Nat) : Option RegRef :=
  ((strandOf s uid).bind (·.wait)).bind fun w => destOf (parseOpd (w.word.extractLsb' 52 26))
/-- A group is known here, and answers the oldest request for it. -/
def groupArrives (s : State) (home status gid ctx : Nat) (ans : Bool) (es : List Nat) : State :=
  let s1 := if status == 0 && (findGroup s ctx gid).isNone then addGroup s gid ctx es home else s
  match s1.plaza.asked.find? fun a => ans && a.2.2.1 == ctx && a.2.2.2 == es with
  | some (uid, k, x, l) =>
    let s2 := updPlaza s1 fun z => { z with asked := delFirst (fun a => a == (uid, k, x, l)) z.asked }
    answer s2 uid k (waitDest s2 uid) 0xFFFF ((statusOver status gid).setWidth 128)
  | none => s1

/-- R261: the list in memory. -/
def readList (s : State) (sid : Nat) (t : Strand) (ea : Word) : Nat → List Nat → (State → List Nat → Res) → Res
  | 0, acc, f => f s acc
  | n + 1, acc, f =>
    withBlock s sid t ea (readBlock s sid t recordSpaces ea 4) fun s1 bs =>
      readList s1 sid t (ea + 4) n (acc ++ [bytesNat bs]) f
/-- The message that asks for a group. -/
def askMessage (ctx : Nat) (es : List Nat) : List Byte := 0 :: natBytes 1 ctx ++ es.flatMap (natBytes 4)
/-- R261. -/
def grpMakeBody (x : Args) : Body1 := fun s sid t o =>
  let give := fun (z : State) (status gid : Nat) => Res.done (setG z sid x.d (statusOver status gid))
  if o.aw.toNat % 4 != 0 then misTrap s
  else if !recordSpaces.contains (let k := (o.aw >>> 56).toNat; if k == 1 then 0 else k) then .trap s 4 o.aw
  else if o.bw.toNat < 1 || 1024 < o.bw.toNat then give s 4 0
  else readList s sid t o.aw o.bw.toNat [] fun s1 es =>
    if !listOk s1 es || localList s1 es then
      let (status, gid, s2) := createGroup s1 t.ctx es
      give s2 status gid
    else if activeHere s1 then
      let (status, gid, s2) := createGroup s1 t.ctx es
      give (if status == 0 then tellNew s2 gid t.ctx es s1.dom.member else s2) status gid
    else if !listReady s1 es || (portOf s1 s1.dom.plaza).isNone then give s1 6 0
    else
      let k := s1.nextId
      let s2 := updPlaza { s1 with nextId := k + 1 } fun z => { z with asked := z.asked ++ [(t.uid, k, t.ctx, es)] }
      .park (sendPlaza s2 s1.dom.plaza (askMessage t.ctx es)) 0 0 none (.asked k)
def execGrpMake (x : Args) (s : State) : Host.Outcome State Fault Refusal := run 0x382 x (grpMakeBody x) s

def updGroup (s : State) (gid : Nat) (f : Group → Group) : State :=
  updPlaza s fun z => { z with groups := updFirst (fun g => g.gid == gid) f z.groups }
/-- R380: a group's record is dropped, and its id may be assigned again. -/
def dropGroup (s : State) (gid : Nat) : State :=
  updPlaza s fun z => { z with groups := z.groups.filter fun g => g.gid != gid }
/-- R380: no post and no owner of a group is left on this device. -/
def clearHere (s : State) (g : Group) : Bool := g.owners.isEmpty && !s.plaza.posts.any fun p => p.gid == g.gid
/-- R380: at the home Plaza, no device has a post or an owner of a group that is gone: it is freed everywhere. -/
def settleGone (s : State) (gid : Nat) : State :=
  match s.plaza.groups.find? fun g => g.gid == gid with
  | none => s
  | some g =>
    if g.state == 2 && g.plaza == s.dom.member && clearHere s g && (groupDevices s g).all fun m => g.clear.contains m || !s.dom.members.contains m then
      dropGroup (if localList s g.entries then s else tellDomain s (14 :: natBytes 2 gid)) gid
    else s
/-- R380: a group that is gone is freed once no post and no owner of it is left on any device. -/
def freeGroup (s : State) (gid : Nat) : State :=
  match s.plaza.groups.find? fun g => g.gid == gid with
  | none => s
  | some g =>
    if g.state != 2 || !clearHere s g || g.clear.contains s.dom.member then s
    else
      let s1 := updGroup s gid fun x => { x with clear := s.dom.member :: x.clear }
      if g.plaza == s.dom.member then settleGone s1 gid else sendPlaza s1 g.plaza (13 :: natBytes 2 gid)
/-- R380: another device has neither posts nor owners of a group left. -/
def groupCleared (s : State) (gid m : Nat) : State :=
  settleGone (updGroup s gid fun g => { g with clear := (m :: g.clear).eraseDups }) gid
/-- R262: a strand that lives: in a slot and not ended, evicted, or saved. -/
def lives (s : State) (uid : Nat) : Bool :=
  match locate s uid with
  | .slot sid => (getSlot s sid).st != .ended
  | .away => false
  | _ => true

/-- R263. -/
def groupFact (s : State) (sid : Nat) (t : Strand) (gid sel : Nat) : Word :=
  if 6 ≤ sel then 0
  else match findGroup s t.ctx gid with
    | none => BitVec.allOnes 64
    | some g =>
      let m := memberOf s g sid t.uid
      match sel with
      | 0 => BitVec.ofNat 64 g.entries.length
      | 1 => (match m with | some i => BitVec.ofNat 64 i | none => BitVec.allOnes 64)
      | 2 => BitVec.ofNat 64 ((m.map fun i => mapGet 0 g.posts i).getD 0)
      | 3 => BitVec.ofNat 64 g.tickets
      | 4 => BitVec.ofNat 64 g.state
      | _ => BitVec.ofNat 64 g.plaza
def execGrpInfo (x : Args) (s : State) : Host.Outcome State Fault Refusal :=
  run 0x384 x (fun s sid t o => .done (setG s sid x.d (groupFact s sid t (o.aw.toNat % 2 ^ 16) o.bw.toNat))) s

/-! ## Ending a collective at a member (R254, R350, R386, R387) -/

/-- R350: the outcomes of the 2,048 most recently ended collectives stay readable; `seen` lists those already kept. -/
def keepEnded : List (Nat × Nat) → List EndedPost → List EndedPost
  | _, [] => []
  | seen, e :: es =>
    if seen.contains (e.gid, e.k) then e :: keepEnded seen es
    else if seen.length < 2048 then e :: keepEnded ((e.gid, e.k) :: seen) es else keepEnded seen es
/-- A member's entry leaves the table with a status; OK and WITHHELD_RELEASED apply its completion actions. With the last one of
the device, the collective's place in kq is free (R350). -/
def endPost (s : State) (p : Post) (status : Nat) : State :=
  let e : EndedPost := { gid := p.gid, k := p.k, member := p.member, status := status,
                         rank := (p.rank.map fun r => r.dom * 2 ^ 32 + r.loc).getD 0 }
  let left := s.plaza.posts.filter fun q => q.key != p.key
  let gone := !left.any fun q => q.gid == p.gid && q.k == p.k
  let off := fun (x : Nat × Nat × Rank) => gone && x.1 == p.gid && x.2.1 == p.k
  let s1 := updPlaza s fun z => { z with posts := left, ended := keepEnded [] (e :: z.ended), kq := z.kq.filter fun x => !off x
                                         heldTickets := z.heldTickets.filter fun x => !off x }
  let s2 := if tcEn p.cmd && p.trig.isNone then
      inHub s1 p.ctx p.blk fun z => updTc z p.blk (tcIdx p.cmd) fun t => { t with jobs := t.jobs - 1 } else s1
  let s3 := if status == 0 || status == 2 then
      let s3 := if tcEn p.cmd then inHub s2 p.ctx p.blk (fun z => tcAdd z p.blk (tcIdx p.cmd) (tcInc p.cmd)) else s2
      arriveFor s3 p.ctx p.cmd
    else s2
  freeGroup s3 p.gid
/-- R385: what a collective holds here is free once no member of this device is in it. -/
def freeHeld (s : State) (p : Partial) : State :=
  match p.held with
  | none => s
  | some h =>
    h.corners.foldl (fun z b => updHub z b fun x => { x with redUsed := x.redUsed - 2 })
      (updPlaza s fun z => { z with chunks := z.chunks + h.chunks })
def dropPartial (s : State) (gid k : Nat) : State :=
  match findPartial s gid k with
  | some p => updPlaza (freeHeld s p) fun z => { z with partials := z.partials.filter fun q => !(q.gid == gid && q.k == k) }
  | none => s
/-- The collective ends with a status at every member of this device that it still has; what it held is free. -/
def endHere (s : State) (gid k status : Nat) : State :=
  dropPartial ((s.plaza.posts.filter fun p => p.gid == gid && p.k == k).foldl (fun z p => endPost z p status) s) gid k
/-- R386: a fault ends it ABORTED at every member. -/
def abortAll (s : State) (gid k : Nat) : State :=
  match s.plaza.groups.find? fun g => g.gid == gid with
  | some g => endHere (tellGroup s g (9 :: natBytes 2 gid ++ natBytes 4 k)) gid k 4
  | none => endHere s gid k 4
def execCollectiveFaultAbort (gid k : Nat) (s : State) : Host.Outcome State Fault Refusal := .next (endHere s gid k 4)

/-- R382: the lowest number of a group for which a post is outstanding, as this device knows. -/
def firstOpen (s : State) (gid : Nat) : Option Nat :=
  (((s.plaza.posts.filter fun p => p.gid == gid).map (·.k)) ++
    ((s.plaza.pending ++ s.plaza.complete).filter fun p => p.gid == gid).map (·.k)).min?
/-- R388: the owner of each member here takes a trap with the group and the number of its first outstanding collective, which
`told` gives where none of its posts is here. -/
def trapOwners (s : State) (g : Group) (cls : Nat) (told : Option Nat) : State :=
  match firstOpen s g.gid <|> told with
  | none => s
  | some k => if g.trapped then s
    else (g.owners.map (·.2)).eraseDups.foldl (fun z u => trapUid z u cls (BitVec.ofNat 64 (k % 2 ^ 32 * 2 ^ 16 + g.gid)))
      (updGroup s g.gid fun x => { x with trapped := true })
/-- R388: the home Plaza of a group that is lost tells its devices the number of the first outstanding collective. -/
def relayTrap (s : State) (g : Group) (cls : Nat) : State :=
  match firstOpen s g.gid with
  | some k => if g.plaza == s.dom.member then tellGroup s g (17 :: natBytes 2 g.gid ++ natBytes 1 cls ++ natBytes 4 k) else s
  | none => s
/-- R380, R387, R388: a group is gone, and its collectives here end, but for those that `spare` names. -/
def groupGone (s : State) (gid status : Nat) (spare : Nat → Bool) : State :=
  let s1 := updGroup s gid fun g => { g with state := 2, lost := status }
  let s2 := updPlaza s1 fun z => { z with pending := z.pending.filter fun p => p.gid != gid
                                          complete := z.complete.filter fun p => p.gid != gid
                                          localWait := z.localWait.filter fun p => p.1 != gid }
  freeGroup ((((s2.plaza.posts.filter fun p => p.gid == gid).map (·.k)).eraseDups.filter fun k => !spare k).foldl
    (fun z k => endHere z gid k status) s2) gid

/-! ## Tickets (R382-R384) -/

/-- R384: a ticket reaches a device. One for a context that is switched out is held. -/
def placeTicket (s : State) (gid k : Nat) (rank : Rank) : State :=
  let s1 := updPlaza s fun z =>
    if z.topDom < rank.dom then { z with topDom := rank.dom, locSeq := 0 } else z
  match s1.plaza.groups.find? fun g => g.gid == gid with
  | none => s1
  | some g =>
    let mark := fun (p : Post) => if p.gid == gid && p.k == k && p.state == 0 then { p with state := 1, rank := some rank } else p
    let s2 := updGroup (updPlaza s1 fun z => { z with posts := z.posts.map mark }) gid fun x => { x with tickets := x.tickets + 1 }
    if (getCtx s g.ctx).st == .running then updPlaza s2 fun z => { z with kq := z.kq ++ [(gid, k, rank)] }
    else updPlaza s2 fun z => { z with heldTickets := z.heldTickets ++ [(gid, k, rank)] }
def execTicketArrives (gid k : Nat) (rank : Rank) (s : State) : Host.Outcome State Fault Refusal := .next (placeTicket s gid k rank)

/-- R263: a ticket has been issued to a group that has no member here. -/
def countTicket (s : State) (gid : Nat) : State := updGroup s gid fun x => { x with tickets := x.tickets + 1 }
/-- R384: a ticket goes to every device of its group, in rank order; on the Plaza's own device it is placed at once. The other
members of the domain count it. -/
def sendTicket (s : State) (g : Group) (k : Nat) (rank : Rank) : State :=
  let s1 := tellGroup s g (3 :: natBytes 2 g.gid ++ natBytes 4 k ++ natBytes 4 rank.dom ++ natBytes 4 rank.loc)
  let rest := if localList s g.entries then [] else
    s.dom.members.filter fun m => m != s.dom.member && !g.entries.any fun e => entMember e == m
  let s2 := rest.foldl (fun z m => sendPlaza z m (15 :: natBytes 2 g.gid)) s1
  if g.entries.any fun e => entMember e == s.dom.member then placeTicket s2 g.gid k rank else countTicket s2 g.gid

/-- R383: a bare ticket arrives: the local counter starts again, and the posts that waited for it get their tickets. -/
def localTicket (s : State) (g : Group) (k : Nat) : State :=
  let n := s.plaza.locSeq + 1
  sendTicket (updPlaza s fun z => { z with locSeq := n }) g k { dom := s.plaza.topDom, loc := n }
def bareArrives (s : State) (dom : Nat) : State :=
  let ws := s.plaza.localWait
  let s1 := updPlaza s fun z => { z with bare := false, topDom := dom, locSeq := 0, localWait := [] }
  ws.foldl (fun z w => match z.plaza.groups.find? fun g => g.gid == w.1 with
    | some g => localTicket z g w.2
    | none => z) s1
def execBareTicketArrives (dom : Nat) (s : State) : Host.Outcome State Fault Refusal :=
  .next (if s.plaza.bare then bareArrives s dom else s)
/-- R383: the active Plaza gives a bare ticket the next domain sequence. -/
def bareRequested (s : State) (m : Nat) : State :=
  if !activeHere s then s
  else
    let d := s.plaza.domSeq + 1
    let s1 := updPlaza s fun z => { z with domSeq := d }
    if m == s.dom.member then bareArrives s1 d else sendPlaza s1 m (8 :: natBytes 4 d)
def execBareTicketRequest (m : Nat) (s : State) : Host.Outcome State Fault Refusal := .next (bareRequested s m)

/-- R383: a ticket for a complete number of a group whose home Plaza is here. DEDUCED, log 40. -/
def issueTicket (s : State) (g : Group) (k : Nat) : State :=
  if !localList s g.entries then
    let d := s.plaza.domSeq + 1
    sendTicket (updPlaza s fun z => { z with domSeq := d }) g k { dom := d, loc := 0 }
  else if s.plaza.locSeq < 0xFFFFFFFF && !s.plaza.bare then localTicket s g k
  else
    let s1 := updPlaza s fun z => { z with localWait := z.localWait ++ [(g.gid, k)], bare := true }
    if s.plaza.bare || activeHere s then s1 else sendPlaza s1 s.dom.plaza (natBytes 1 7)
/-- R383: a device that is its own active Plaza takes the bare ticket it asked for in the cycle before. -/
def takeBare (s : State) : State := if s.plaza.bare && activeHere s then bareRequested s s.dom.member else s

/-- R382: the agreed fields are valid. -/
def sigOk (x : PostSig) (m : Nat) : Bool :=
  x.op ≤ 3 && x.dtype ≤ 3 && (x.op != 0 || x.n % m == 0) && (x.op != 3 || x.root < m)
/-- R382: the posts that the Plaza could not record are offered again. -/
def reoffer (s : State) : State :=
  let late := s.plaza.posts.filter fun p => !p.offered && p.trig.isNone && p.state == 0
  { updPlaza s (fun z => { z with posts := z.posts.map fun p => if p.trig.isNone then { p with offered := true } else p }) with
    agenda := s.agenda ++ late.map fun p => .event (.plazaPostArrival p.gid p.k p.member (collSig p.cmd)) }
/-- R382: a number that all members have posted leaves the store: it gets a ticket, or the collective ends ABORTED. The posts that
found the store full are offered again. -/
def completePosts (s : State) (g : Group) (p : Pending) : State :=
  let sigs := p.seen.map (·.2)
  let agree := match sigs with
    | [] => false
    | x :: xs => xs.all (fun y => { y with bad := x.bad } == x) && sigs.all (fun y => !y.bad) && sigOk x g.entries.length
  let s1 := if agree then issueTicket s g p.k
    else endHere (tellGroup s g (4 :: natBytes 2 g.gid ++ natBytes 4 p.k)) g.gid p.k 4
  let s2 := if s1.plaza.turned then tellDomain (updPlaza s1 fun z => { z with turned := false }) (natBytes 1 11) else s1
  reoffer s2
/-- R383, R388, R390: the numbers completed in a cycle are settled after its events, in ascending group id; one whose group has become
gone in the same cycle is there no more, and a group that loses a member gets no ticket once the barrier for that is open. -/
def settleTickets (s : State) : State :=
  (sortBy (fun a b => a.gid < b.gid || (a.gid == b.gid && a.k ≤ b.k)) s.plaza.complete).foldl (fun z p =>
    match z.plaza.groups.find? fun g => g.gid == p.gid with
    | some g => if g.state == 1 && z.dom.gen < newGen z.dom then z else completePosts z g p
    | none => z) (takeBare (updPlaza s fun z => { z with complete := [] }))
/-- R387, R315: which collectives are withheld is told after the events of a cycle. -/
def settleGroups (s : State) : State := s.plaza.groups.foldl (fun z g => restate z g.gid) (settleTickets s)

def postMessage (gid k m : Nat) (x : PostSig) : List Byte :=
  2 :: natBytes 2 gid ++ natBytes 4 k ++ natBytes 2 m ++ natBytes 1 x.op ++ natBytes 1 x.dtype ++ natBytes 2 x.root ++
    natBytes 5 x.n ++ [if x.bad then 1 else 0]

/-- R382: the store of the Plaza that serves a group, the device's local one or the domain's active one, holds 65,536 numbers. -/
def storeFull (s : State) (g : Group) : Bool :=
  65536 ≤ ((s.plaza.pending ++ s.plaza.complete).filter fun p => (s.plaza.groups.find? fun x => x.gid == p.gid).any fun x =>
    localList s x.entries == localList s g.entries).length
/-- R382: a post reaches the Plaza of its group, or is sent on to it. -/
def postArrives (s : State) (gid k m : Nat) (x : PostSig) : State :=
  match s.plaza.groups.find? fun g => g.gid == gid with
  | none => s
  | some g =>
    if g.state == 2 then (match findPost s gid k m with | some p => endPost s p g.lost | none => s)
    else if g.plaza != s.dom.member then sendPlaza s g.plaza (postMessage gid k m x)
    else match s.plaza.pending.find? fun p => p.gid == gid && p.k == k with
      | some p =>
        if p.seen.any fun e => e.1 == m then s
        else
          let q := { p with seen := p.seen ++ [(m, x)] }
          if q.seen.length == g.entries.length then
            updPlaza s fun z => { z with pending := z.pending.filter fun y => !(y.gid == gid && y.k == k), complete := z.complete ++ [q] }
          else updPlaza s fun z => { z with pending := updFirst (fun y => y.gid == gid && y.k == k) (fun _ => q) z.pending }
      | none =>
        let q : Pending := { gid := gid, k := k, seen := [(m, x)] }
        if storeFull s g then
          if (findPost s gid k m).isSome then
            updPlaza s fun z => { z with posts := z.posts.map fun p =>
              if p.gid == gid && p.k == k && p.member == m then { p with offered := false } else p }
          else sendPlaza (updPlaza s fun z => { z with turned := true }) (entMember (g.entries.getD m 0))
            (12 :: natBytes 2 gid ++ natBytes 4 k ++ natBytes 2 m)
        else if g.entries.length == 1 then updPlaza s fun z => { z with complete := z.complete ++ [q] }
        else updPlaza s fun z => { z with pending := z.pending ++ [q] }
def execPlazaPostArrival (gid k member : Nat) (sig : PostSig) (s : State) : Host.Outcome State Fault Refusal :=
  .next (postArrives s gid k member sig)

/-! ## CPOST and TRIG (R257, R265) -/

/-- R265: the group of a post and the member that its issuer owns. -/
def postMember (s : State) (t : Strand) (c : BitVec 512) : Option (Group × Nat) :=
  (findGroup s t.ctx (fld c 1 0 16)).bind fun g => (ownedBy g t.uid).map fun m => (g, m)

/-- R265, R380, R381: a post takes a table entry and its number, and is offered to its Plaza unless it waits for a trigger. -/
def enterPost (s : State) (sid : Nat) (t : Strand) (c : BitVec 512) (ds : List (BitVec 512)) (g : Group) (m : Nat)
    (trig : Option (Nat × Nat × BitVec 48)) : Nat × State :=
  let k := mapGet 0 g.posts m
  let p : Post := { key := s.nextId, gid := g.gid, k := k, member := m, ctx := t.ctx, uid := t.uid, startId := t.startId, sid := sid,
                    blk := blkOf sid, cmd := c, descs := ds, trig := trig, offered := trig.isNone, state := 0, status := 0, rank := none,
                    withheld := false, written := false, sent := [], failed := false, paid := 0 }
  let s1 := updGroup { s with nextId := s.nextId + 1 } g.gid fun x => { x with posts := mapPut x.posts m (k + 1) }
  let s2 := updPlaza (if trig.isNone then tcRegister s1 (blkOf sid) c else s1) fun z => { z with posts := z.posts ++ [p] }
  (k, if g.state == 2 then endPost s2 p g.lost
      else match trig with
        | none => { s2 with agenda := s2.agenda ++ [.event (.plazaPostArrival g.gid k m (collSig c))] }
        | some (b, i, _) => tcMoved s2 b i)
/-- R265. DEDUCED, log 42. -/
def postBody (x : Args) (trig : Option (Nat × Nat × BitVec 48)) : Body1 := fun s sid t o =>
  match postMember s t o.a with
  | none => .trap s 4 (BitVec.ofNat 64 (fld o.a 1 0 16))
  | some (g, m) =>
    if owesAck s t.uid sid .dev then .park s 0 0 none (.drain 3)
    else takeDescs s sid t (namedDescs o.a) [] fun s1 ds =>
      if 512 ≤ s1.plaza.posts.length then .done (setG s1 sid x.d (statusOver 6 0))
      else
        let (k, s2) := enterPost s1 sid t o.a ds g m trig
        .done (setG s2 sid x.d (BitVec.ofNat 64 (g.gid * 2 ^ 32 + k % 2 ^ 32)))
def execCpost (x : Args) (s : State) : Host.Outcome State Fault Refusal := run 0x385 x (postBody x none) s

/-- R257. -/
def trigBody (x : Args) : Body1 := fun s sid t o =>
  let b := o.bw.toNat
  let i := b / 2 ^ 48 % 64
  let n := BitVec.ofNat 48 b
  if b / 2 ^ 54 % 256 != 0 then .trap s 4 o.bw
  else match b / 2 ^ 62 with
    | 0 => submit s sid t x o 0 .matrix (some (i, n)) false
    | 1 => submit s sid t x o (copyQueue o.a) .copy (some (i, n)) false
    | 2 => postBody x (some (blkOf sid, i, n)) s sid t o
    | _ => .trap s 4 o.bw
def execTrig (x : Args) (s : State) : Host.Outcome State Fault Refusal := run 0x30E x (trigBody x) s

/-! ## CWAIT and CSTAT (R266, R267, R350) -/

/-- What a handle names for the issuer's member: an entry that has not ended, an outcome, or nothing that it posted. -/
inductive Coll
  | live (p : Post)
  | over (gid k m : Nat)
  | bad
def findColl (s : State) (sid : Nat) (t : Strand) (h : Word) : Coll :=
  match findGroup s t.ctx (collGid h) with
  | none => .bad
  | some g => match memberOf s g sid t.uid with
    | none => .bad
    | some m => match findPost s (collGid h) (collK h) m with
      | some p => .live p
      | none => if collK h < mapGet 0 g.posts m then .over (collGid h) (collK h) m else .bad
/-- R464: the collective handle. -/
def collHandle (h : Word) : Word := h &&& 0x0000FFFFFFFFFFFF#64
def cwaitBody (x : Args) : Body1 := fun s sid t o =>
  let give := fun (st : Nat) => Res.done (setG s sid x.d (BitVec.ofNat 64 st))
  match findColl s sid t o.aw with
  | .bad => .trap s 4 o.aw
  | .live _ => waitOn s t (collHandle o.aw) 0 (timeOut x o) false give (give 1)
  | .over gid k m =>
    let e := endedStatus s gid k m
    give (if e == 0 then readyStatus t else e)
def execCwait (x : Args) (s : State) : Host.Outcome State Fault Refusal := run 0x386 x (cwaitBody x) s

def collWord (rank state status : Nat) : Word := BitVec.ofNat 64 (rank % 2 ^ 48 * 2 ^ 16 + state * 2 ^ 8 + status)
/-- R267. The rank of an outcome no longer kept is open: a free value. DESIGN CHOICE, log 64. -/
def cstatBody (x : Args) : Body1 := fun s sid t o =>
  match findColl s sid t o.aw with
  | .bad => .trap s 4 o.aw
  | .live p => .done (setG s sid x.d (collWord ((p.rank.map fun r => r.dom * 2 ^ 32 + r.loc).getD 0) p.state p.status))
  | .over gid k m => match findEnded s gid k m with
    | some e => .done (setG s sid x.d (collWord e.rank 3 e.status))
    | none => .done (setG { s with fresh := s.fresh + 1 } sid x.d (collWord (Config.openValue s.fresh).toNat 3 0))
def execCstat (x : Args) (s : State) : Host.Outcome State Fault Refusal := run 0x387 x (cstatBody x) s

/-! ## Start and work (R385, R386, R451) -/

/-- R264: the type code of an element, and the bytes of one. -/
def collType (x : PostSig) : Nat := match x.dtype with | 0 => 5 | 1 => 6 | 2 => 3 | _ => 4
def collBytes (x : PostSig) : Nat := elemBits (collType x) / 8
def isReduction (x : PostSig) : Bool := x.op == 0 || x.op == 2

/-- R264, R451: a member's descriptors. DEDUCED, log 41. -/
def postDescOk (g : Group) (p : Post) : Bool :=
  let dev := entDevice (g.entries.getD p.member 0)
  let ok := fun (d : BitVec 512) (sp : List Nat) =>
    tdOk d && tdGroups d == 0 && tdFormat d == collType (collSig p.cmd) && (if dev then tdSpace d == 0 else sp.contains (tdSpace d))
  ok (p.descs.getD 0 0) [0, 0xF0, 0xF1, 0xF6] && ok (p.descs.getD 1 0) [0, 0xF0, 0xF1, 0xF4, 0xF5]

/-- The links of a path, both ways. -/
def linksOf : List Nat → List (Nat × Nat)
  | a :: b :: l => (a, b) :: (b, a) :: linksOf (b :: l)
  | _ => []
/-- R292: a link between Districts, or between one and the Interchange. -/
def isOuter (l : Nat × Nat) : Bool := l.1 / 64 != l.2 / 64
/-- R385: the pages that a member's descriptors begin in, as the corners of their homes: where a device member's elements are read and
written. -/
def homeNodes (s : State) (p : Post) : List Nat :=
  p.descs.filterMap fun d => match translateNow s 300 p.ctx .read (fld d 0 0 57) with
    | .ok pa => (match physOf s pa with | .dev g => some (quayBlk g (quayOf (localPa pa))) | _ => none)
    | _ => none
/-- R385: the die-to-die and Interchange links of this device that a collective uses, both ways: where it has members in more than one
District, at the Interchange or on another device, those between each block member's corner and the Interchange; between the Interchange and the
homes of a device member's elements. DESIGN CHOICE, log 44. -/
def collLinks (s : State) (g : Group) (ps : List Post) : List (Nat × Nat) :=
  let mine := g.entries.filter fun e => entMember e == s.dom.member
  let blks := (mine.filter fun e => !entDevice e).map entBlk
  let far := (ps.filter fun p => entDevice (g.entries.getD p.member 0)).flatMap (homeNodes s)
  if (groupDevices s g).isEmpty && !(mine.any entDevice) && ((blks.map distOfBlk).eraseDups).length ≤ 1 then []
  else ((blks ++ far).flatMap fun b => (linksOf (b :: pathOut b)).filter isOuter).eraseDups
/-- R385, R429: the chip-link ports toward the other members of a group. -/
def collPorts (s : State) (g : Group) : List Nat := ((groupDevices s g).filterMap (portOf s)).eraseDups
/-- R385: what a collective takes on this device. DESIGN CHOICE, log 44. -/
def collNeed (s : State) (g : Group) (x : PostSig) (ps : List Post) : Held :=
  let across := !(groupDevices s g).isEmpty
  let pieces := fun (bytes : Nat) => min 16 ((bytes + 65535) / 65536)
  let base : Held := { chunks := 0, corners := [], cls := reqClass s g.ctx, links := collLinks s g ps, ports := collPorts s g }
  if isReduction x then
    { base with chunks := if across then pieces (40 * x.n) else 0
                corners := (g.entries.filter fun e => entMember e == s.dom.member && !entDevice e).map entBlk }
  else { base with chunks := if g.entries.any entDevice then pieces (x.n * collBytes x) else 0 }
/-- Change the partial of a collective, made new if there is none. -/
def updPartial (s : State) (gid k : Nat) (f : Partial → Partial) : State :=
  let same := fun (q : Partial) => q.gid == gid && q.k == k
  let fresh : Partial := { gid := gid, k := k, lanes := [], parts := [], begun := [], wrote := [], held := none }
  let next := if s.plaza.partials.any same then updFirst same f s.plaza.partials else s.plaza.partials ++ [f fresh]
  updPlaza s fun z => { z with partials := next }
/-- R385: everything is reserved together, or nothing. -/
def reserveAll (s : State) (gid k : Nat) (need : Held) : Option State :=
  if need.chunks ≤ s.plaza.chunks && (need.corners.all fun b => (getHub s b).redUsed + 2 ≤ 8) &&
      (need.links.all fun l => 16 ≤ linkAllowance s l.1 l.2 need.cls false) &&
      (need.ports.all fun p => 16 ≤ portAllowance s p need.cls false) then
    let s1 := need.corners.foldl (fun z b => updHub z b fun h => { h with redUsed := h.redUsed + 2 })
      (updPlaza s fun z => { z with chunks := z.chunks - need.chunks })
    some (updPartial s1 gid k fun q => { q with held := some need })
  else none

/-- R388: a restored context's collective that has to reserve its resources again. -/
def toResume (s : State) : Option Partial :=
  s.plaza.partials.find? fun q => q.held.isNone && s.plaza.posts.any fun p =>
    p.gid == q.gid && p.k == q.k && (p.state == 2 || p.state == 4) && (getCtx s p.ctx).st == .running
/-- R350, R385: the collective of a place in kq has started. -/
def started (s : State) (gid k : Nat) : Bool :=
  s.plaza.posts.any fun p => p.gid == gid && p.k == k && (p.state == 2 || p.state == 4)
/-- The posts of a collective on this device. -/
def postsOf (s : State) (gid k : Nat) : List Post := s.plaza.posts.filter fun p => p.gid == gid && p.k == k
/-- R385, R387: the head of kq, the first that has not started, starts. A wrong descriptor ends it ABORTED at every member. -/
def startHead (s : State) : State :=
  match toResume s with
  | some q => (match s.plaza.groups.find? fun g => g.gid == q.gid, s.plaza.posts.find? fun p => p.gid == q.gid && p.k == q.k with
    | some g, some p => (reserveAll s q.gid q.k (collNeed s g (collSig p.cmd) (postsOf s q.gid q.k))).getD s
    | _, _ => s)
  | none => match s.plaza.kq.find? fun e => !started s e.1 e.2.1 with
    | none => s
    | some (gid, k, _) =>
      let mine := postsOf s gid k
      match s.plaza.groups.find? fun g => g.gid == gid, mine.head? with
      | some g, some p =>
        if !mine.all (postDescOk g) then abortAll s gid k
        else match reserveAll s gid k (collNeed s g (collSig p.cmd) mine) with
          | none => s
          | some s1 => updPlaza s1 fun z => { z with posts := z.posts.map fun q =>
              if q.gid == gid && q.k == k then { q with state := 2 } else q }
      | _, _ => updPlaza s fun z => { z with kq := z.kq.filter fun e => !(e.1 == gid && e.2.1 == k) }
def execCollectiveStart (s : State) : Host.Outcome State Fault Refusal := .next (startHead s)

/-- R264: the place of linear element j of a descriptor. -/
def linearAt (d : BitVec 512) (j : Nat) : Nat × Nat × Nat × Nat :=
  let d0 := max 1 (tdDim d 0)
  let d1 := max 1 (tdDim d 1)
  let d2 := max 1 (tdDim d 2)
  (j % d0, j / d0 % d1, j / (d0 * d1) % d2, j / (d0 * d1 * d2))
/-- R69, R386: who reads and writes for a member: its block's copy path, or the collective engine. -/
def collEng (g : Group) (p : Post) : Eng :=
  let dev := entDevice (g.entries.getD p.member 0)
  { src := .engine (if dev then ichgNode else p.blk) 3, blk := p.blk, sid := p.sid, ctx := p.ctx, agent := if dev then 3 else 1 }

/-- R386: a member's contribution as it stands. -/
def readContribution (s : State) (e : Eng) (d : BitVec 512) (n : Nat) : Except EngStop (List Nat) :=
  (List.range n).mapM fun j => do
    let (a, b, c, f) := linearAt d j
    let v ← elemRead s e d a b c f
    pure (v.getD 0)
/-- R69: the out-of-range reads of a contribution are captured. -/
def noteContribution (s : State) (e : Eng) (d : BitVec 512) (n : Nat) : State :=
  (List.range n).foldl (fun z j =>
    let (a, b, c, f) := linearAt d j
    let z1 := noteList z e d a b c f
    match elemAt z1 e d a b c f with
    | .ok at0 => noteGone z1 e (tdBytes d) at0
    | .error _ => z1) s
/-- R296: the elements of a contribution that lie outside the device are asked for. -/
def askContribution (s : State) (e : Eng) (d : BitVec 512) (n : Nat) : State :=
  (List.range n).foldl (fun z j =>
    let (a, b, c, f) := linearAt d j
    match elemRead z e d a b c f with
    | .error (.ask h x m ea) => sendAsk z e h x m ea
    | .error (.miss va) => engMiss z e va
    | _ => z) s
/-- R264, R386: the elements of a result, with their places. -/
def resultWrites (s : State) (e : Eng) (d : BitVec 512) : Nat → List Nat → Except EngStop (List EngWrite)
  | _, [] => .ok []
  | j, v :: vs => do
    let (a, b, c, f) := linearAt d j
    let at1 ← elemAt s e d a b c f
    let rest ← resultWrites s e d (j + 1) vs
    match at1 with
    | some (ea, bit) => do
      let w : EngWrite := { ea := ea, bit := bit, bits := elemBits (tdFormat d), v := v }
      engCanWrite s e w
      pure (w :: rest)
    | none => pure rest

/-- R42, R386: a contribution enters the partials. -/
def mergePart (s : State) (gid k m : Nat) (x : PostSig) (data : List Nat) : State :=
  let add := fun (q : Partial) =>
    if (q.parts.any fun e => e.1 == m) then q
    else if isReduction x then
      let new := data.map (laneIn (collType x))
      { q with parts := q.parts ++ [(m, [])], lanes := if q.lanes.isEmpty then new else q.lanes.zipWith laneAdd new }
    else { q with parts := q.parts ++ [(m, data)] }
  updPartial s gid k add

def partMessage (gid k m n : Nat) (data : List Nat) : List Byte :=
  6 :: natBytes 2 gid ++ natBytes 4 k ++ natBytes 2 m ++ data.flatMap (natBytes n)
/-- R386: a member of this device contributes once the collective has started here and its owner is not in the cordon; a read that has begun
completes all the same. -/
def mergeOwn (s : State) (g : Group) (p : Post) : State :=
  let x := collSig p.cmd
  let held := ((findPartial s p.gid p.k).bind (·.held)).isSome
  let begun := (findPartial s p.gid p.k).any fun q => q.begun.contains p.member
  if !held || !(p.state == 2 || p.state == 4) || (g.marked.contains p.member && !begun) || !contributes p.cmd p.member ||
      (getCtx s p.ctx).st != .running || (mergedOf s p.gid p.k).contains p.member then s
  else
    let e := collEng g p
    let d := p.descs.getD 0 0
    match readContribution s e d x.n with
    | .error .busy => s
    | .error (.miss va) => engMiss s e va
    | .error (.ask _ _ _ _) =>
      updPartial (askContribution s e d x.n) p.gid p.k fun q => { q with begun := (p.member :: q.begun).eraseDups }
    | .error _ => abortAll (dropReads s e) p.gid p.k
    | .ok data =>
      let s1 := mergePart (dropReads (noteContribution s e d x.n) e) p.gid p.k p.member x data
      (groupDevices s1 g).foldl (fun z m =>
        sendParts z m (reqClass z g.ctx) g.ctx (partMessage p.gid p.k p.member (collBytes x) data)) s1
/-- A contribution of this device's member is read here; one of another device comes with its data. -/
def execContributionMerged (gid k member : Nat) (data : List Nat) (s : State) : Host.Outcome State Fault Refusal :=
  .next (match s.plaza.groups.find? fun g => g.gid == gid, s.plaza.posts.find? fun p => p.gid == gid && p.k == k with
    | some g, some q =>
      if entMember (g.entries.getD member 0) == s.dom.member then
        (match findPost s gid k member with | some p => mergeOwn s g p | none => s)
      else if member < g.entries.length && contributes q.cmd member then mergePart s gid k member (collSig q.cmd) data
      else s
    | _, _ => s)

/-- R264: the elements that a member receives. -/
def resultOf (q : Partial) (x : PostSig) (m members : Nat) : List Nat :=
  let red := q.lanes.map (laneElem (collType x))
  let part := fun (i : Nat) => ((q.parts.find? fun e => e.1 == i).map (·.2)).getD []
  match x.op with
  | 0 => (red.drop (m * (x.n / members))).take (x.n / members)
  | 1 => (List.range members).flatMap part
  | 2 => red
  | _ => part x.root
/-- R387: a member's post ends once its result is written, with OK or WITHHELD_RELEASED. The group's other devices hear of it. -/
def closePost (s0 : State) (p : Post) : State :=
  let s := match s0.plaza.groups.find? fun g => g.gid == p.gid with
    | some g => tellGroup s0 g (20 :: natBytes 2 p.gid ++ natBytes 4 p.k ++ natBytes 2 p.member)
    | none => s0
  let s1 := endPost s p (if p.withheld then 2 else 0)
  if s1.plaza.posts.any fun z => z.gid == p.gid && z.k == p.k then s1 else dropPartial s1 p.gid p.k
/-- R426: a result of n bytes for LPDDR-6 takes what the bucket holds, again and again, until it has it all. -/
def payTokens (s : State) (p : Post) (n : Nat) : State × Bool :=
  let due := min (n - p.paid) (getCtx s p.ctx).bucket
  match takeTokens s p.ctx due with
  | none => (s, false)
  | some s1 => (updPlaza s1 fun z => { z with posts := z.posts.map fun x => if x.key == p.key then { x with paid := x.paid + due } else x },
      decide (n ≤ p.paid + due))
/-- R387: every contribution is merged: the result is written here, and the member's post ends once its writes outside the device
are acknowledged. -/
def finishPost (s : State) (g : Group) (p : Post) (q : Partial) : State :=
  let e := collEng g p
  if p.failed then abortAll s p.gid p.k
  else if p.written then (if p.sent.isEmpty then closePost s p else s)
  else match resultWrites s e (p.descs.getD 1 0) 0 (resultOf q (collSig p.cmd) p.member g.entries.length) with
    | .error .busy => s
    | .error (.ask h a n ea) => sendAsk s e h a n ea
    | .error (.miss va) => engMiss s e va
    | .error _ => abortAll (dropReads s e) p.gid p.k
    | .ok ws =>
      match payTokens s p (limitedBytes s e ws) with
      | (s0, false) => s0
      | (s0, true) =>
      let (s1, ks) := putElems (dropReads s0 e) e ws
      if ks.isEmpty then closePost s1 p
      else updPlaza s1 fun z => { z with posts := z.posts.map fun x => if x.key == p.key then { x with written := true, sent := ks } else x }
/-- R387: nothing hinders a member's post from ending: every contribution to it is merged. -/
def finishable (s : State) (g : Group) (p : Post) : Option Partial :=
  (findPartial s p.gid p.k).filter fun q =>
    p.state == 2 && q.held.isSome && (getCtx s p.ctx).st == .running && hubQuiet s p.blk && mbFree s p.cmd &&
      (List.range g.entries.length).all fun m => !contributes p.cmd m || q.parts.any fun e => e.1 == m
def endColl (s : State) (p : Post) : State :=
  match s.plaza.groups.find? fun g => g.gid == p.gid with
  | some g => (match finishable s g p with | some q => finishPost s g p q | none => s)
  | none => s
def execCollectiveEnd (post : Nat) (s : State) : Host.Outcome State Fault Refusal :=
  .next (match s.plaza.posts.find? fun p => p.key == post with
    | some p => endColl s p
    | none => s)

/-! ## GRP.JOIN -/

/-- R262, R390: what GRP.JOIN answers, and what it changes; a leave that finds a post of its member waits for the end of the cycle. A join by the strand that owns the entry already answers OK and changes nothing: DESIGN
CHOICE, log 87. -/
inductive Joined
  | ok (status idx : Nat) (s : State)
  | bad (info : Word)
  | waits
/-- R262: the member that a GRP.JOIN names, by its issuer's block or the device's engine. -/
def joinMember (s : State) (sid : Nat) (g : Group) (a : Nat) : Option Nat :=
  indexOf g (if a.testBit 17 then deviceEntry s else blockEntry s sid)
/-- R262, R390: a leaving owner's member still has posts. -/
def leaveHeld (s : State) (sid : Nat) (t : Strand) (a : Nat) : Bool :=
  (findGroup s t.ctx (a % 2 ^ 16)).any fun g => (joinMember s sid g a).any fun m =>
    g.state != 2 && s.plaza.posts.any fun p => p.gid == g.gid && p.member == m
def groupJoin (s : State) (sid : Nat) (t : Strand) (a : Nat) : Joined :=
  let gid := a % 2 ^ 16
  match findGroup s t.ctx gid with
  | none => .ok 4 0 s
  | some g => match joinMember s sid g a with
    | none => .ok 4 0 s
    | some m =>
      let owner := (g.owners.find? fun p => p.1 == m).map (·.2)
      let mine := owner == some t.uid
      if a.testBit 16 then
        if !mine then .ok 4 m s
        else if grantedOf t != some 0 && leaveHeld s sid t a then .waits
        else
          let left := g.owners.filter fun p => p.1 != m
          let s1 := updGroup s gid fun z => { z with owners := left }
          .ok 0 m (freeGroup (if left.any fun p => p.2 == t.uid then s1
            else updStrand s1 sid fun z => dropDebt z (groupHandle gid)) gid)
      else if g.state == 2 then .ok 4 m s
      else if mine then .ok 0 m s
      else if (owner.map (lives s)).getD false then .ok 6 m s
      else if debtFull t (groupHandle gid) then .bad (groupHandle gid)
      else .ok 0 m (updStrand (updGroup s gid fun z => { z with owners := z.owners.filter (fun p => p.1 != m) ++ [(m, t.uid)] }) sid
        fun z => addDebt z (groupHandle gid) true)
def grpJoinBody (x : Args) : Body1 := fun s sid t o =>
  if o.aw.toNat / 2 ^ 18 != 0 then .trap s 4 o.aw
  else if grantedOf t == some 6 then
    .done (setG s sid x.d (statusOver 6 (((findGroup s t.ctx (o.aw.toNat % 2 ^ 16)).bind fun g => joinMember s sid g o.aw.toNat).getD 0)))
  else match groupJoin s sid t o.aw.toNat with
    | .bad i => .trap s 4 i
    | .waits => .park s 0 o.aw none .test
    | .ok status m s1 => .done (setG s1 sid x.d (statusOver status m))
def execGrpJoin (x : Args) (s : State) : Host.Outcome State Fault Refusal := run 0x383 x (grpJoinBody x) s
/-- R390: at the end of a cycle a leave that found a post of its member is decided: it is done if that has ended in the cycle. -/
def settleLeave (s : State) (sid : Nat) : State :=
  let sl := getSlot s sid
  match sl.s.wait with
  | some w => if sl.st == .parked && w.form == 0x383 && w.stage == .test then
      updStrand s sid fun t => { t with wait := some { w with stage := .granted (if leaveHeld s sid sl.s w.arg.toNat then 6 else 0) } }
    else s
  | none => s
def settleLeaves (s : State) : State := ((allSlots s).map (·.1)).foldl settleLeave s

/-! ## TREE (R268) -/

/-- R268: the blocks that take part. -/
def treeBlocks (s : State) (ctx d : Nat) : List Nat := (blocksOf s ctx).filter fun b => distOfBlk b == d
def treeChan (o : Opnds) : Nat := o.b.toNat / 2 ^ 8 % 8
/-- R268: the result of a round. One whose contributions name different operations or types is open.
DESIGN CHOICE, log 43. -/
def treeResult (s : State) (r : TreeRound) : Word :=
  let vals := r.parts.map fun p => p.2.2.toNat % 2 ^ elemBits r.ty
  let fold := fun (f : Nat → Nat → Nat) => match vals with | [] => 0 | v :: vs => vs.foldl f v
  let raw := match r.op with
    | 0 => laneElem r.ty ((vals.map (laneIn r.ty)).foldl laneAdd laneZero)
    | 1 => fold fun a b => if intValue r.ty b < intValue r.ty a then b else a
    | 2 => fold fun a b => if intValue r.ty a < intValue r.ty b then b else a
    | 3 => fold (· &&& ·)
    | 4 => fold (· ||| ·)
    | _ => fold (· ^^^ ·)
  if r.mixed then (Config.openValue s.fresh).setWidth 64
  else if isFloat r.ty then BitVec.ofNat 64 raw else intExtend r.ty raw
def treeBody : Body1 := fun s sid t o =>
  let key := treeKey t.ctx (distOf sid) (treeChan o)
  let r := mapGet TreeRound.init s.trees key
  let op := o.b.toNat % 16
  let ty := o.b.toNat / 16 % 16
  if owesAck s t.uid sid .dst then .park s 0 0 none (.drain 2)
  else if r.parts.any fun p => p.1 == blkOf sid then .park s 0 0 none .test
  else
    let r1 := if r.parts.isEmpty then { r with op := op, ty := ty } else { r with mixed := r.mixed || r.op != op || r.ty != ty }
    .park { s with trees := mapPut s.trees key { r1 with parts := r1.parts ++ [(blkOf sid, t.uid, o.aw)] }
                   nextId := s.nextId + 1 } 0 0 none (.asked s.nextId)
def execTree (x : Args) (s : State) : Host.Outcome State Fault Refusal := run 0x388 x treeBody s

/-- R268: a round that holds every block's contribution answers all of them, and the next round opens. -/
def treeComplete (s : State) (ctx d c : Nat) : State :=
  let key := treeKey ctx d c
  let r := mapGet TreeRound.init s.trees key
  if r.parts.isEmpty || !(treeBlocks s ctx d).all fun b => r.parts.any fun p => p.1 == b then s
  else
    let v := (treeResult s r).setWidth 128
    r.parts.foldl (fun z p => answer z p.2.1 z.nextId (waitDest z p.2.1) 0xFFFF v)
      { s with trees := mapPut s.trees key TreeRound.init, fresh := s.fresh + 1 }
def execTreeRoundComplete (ctx dist chan : Nat) (s : State) : Host.Outcome State Fault Refusal :=
  .next (treeComplete s ctx dist chan)

/-! ## DOM.INFO (R274) -/

def domFact (s : State) (a : Nat) : Nat :=
  match a with
  | 0 => s.dom.member
  | 1 => s.dom.members.length
  | 2 => s.dom.gen
  | 3 => if s.dom.state == 0 then s.dom.member else s.dom.plaza
  | 4 => s.dom.state
  | 5 => s.dom.replays
  | 6 => s.dom.retrans
  | _ => 0
def execDomInfo (x : Args) (s : State) : Host.Outcome State Fault Refusal :=
  run 0x38E x (fun s sid _ o => .done (setG s sid x.d (BitVec.ofNat 64 (domFact s o.aw.toNat)))) s

/-! ## The KV forms (R269-R273) -/

/-- R414, R415, R456, R463: the checks of a KV form on its keys, by the context whose table it acts on. -/
def kvKeyBad (s : State) (ctx : Nat) (a : Word) : Option Word :=
  if !kvOn s ctx then some 0 else if !kvReady s ctx (kvKey a) then some a else none
/-- One KV form: the checks, then its event at the table's home. -/
def kvForm (x : Args) (op : Nat) (bad : Opnds → Option Word) : Body1 := fun s sid t o =>
  match bad o with
  | some w => .trap s 4 w
  | none => match kvKeyBad s (kvCtx op t.ctx o.aw) o.aw, (if op == 2 then kvKeyBad s t.ctx o.bw else none) with
    | some w, _ => .trap s 4 w
    | none, some w => .trap s 4 w
    | none, none =>
      let dst := (destOf x.d).getD (.g 0)
      let (k, s1) := sendFrom s sid t .kvUnit (.kv op o.aw o.bw dst) none 0
      awaitPkt k s1 (landDone sid)
def highBad (w : Word) : Option Word := if w >>> 32 != 0 then some w else none
def execKvmap (x : Args) (s : State) : Host.Outcome State Fault Refusal :=
  run 0x389 x (kvForm x 0 fun o => (highBad o.aw).or (if 2 < o.bw.toNat then some o.bw else none)) s
def execKvref (x : Args) (s : State) : Host.Outcome State Fault Refusal :=
  run 0x38A x (kvForm x 1 fun o => (highBad o.aw).or (if o.bw.toInt < -65535 || 65535 < o.bw.toInt then some o.bw else none)) s
def execKvfork (x : Args) (s : State) : Host.Outcome State Fault Refusal :=
  run 0x38B x (kvForm x 2 fun o => (highBad o.aw).or (highBad o.bw)) s
def execKvw (x : Args) (s : State) : Host.Outcome State Fault Refusal :=
  run 0x38C x (kvForm x 3 fun o => (highBad o.aw).or (if o.bw >>> 1 != 0 then some o.bw else none)) s
def execKvdem (x : Args) (s : State) : Host.Outcome State Fault Refusal :=
  run 0x38D x (kvForm x 4 fun o =>
    if o.aw.toNat / 2 ^ 47 != 0 || o.aw.toNat / 2 ^ 32 % 256 != 0 || o.aw.toNat / 2 ^ 40 % 64 == 0 then some o.aw else none) s

end Sys2Proof.Machine
end

