-- ==== Sys2Proof/Machine/System.lean ====
section
/-! DEFINITION. The system forms: halts (R162), release (R163), special registers (R155, R156), time and deadlines (R157-R160),
partition facts (R161), and the slots of a core (R164-R171) with the spill run queue (R334). -/

namespace Sys2Proof.Machine
open Sys2Proof

/-! ## Special registers -/

/-- R31: `member` stays what it was when the strand started, and reads 0 while the device stands alone. -/
def coordOf (s : State) (sid : Nat) : Word :=
  BitVec.ofNat 64 (sid % 2 ^ 15 + (if s.dom.state == 0 then 0 else (strandAt s sid).member) * 2 ^ 16)

/-- A bitmap of the slots that satisfy `p`. -/
def slotMap (c : Core) (p : Slot → Bool) : Nat :=
  (List.range 16).foldl (fun n i => if p (slotIn c i) then n + 2 ^ i else n) 0

/-- R156, R326: the parked slots, the occupied slots and the own slot. A member of the cordon does not read as parked: DEDUCED,
log 14. -/
def slotWord (s : State) (sid : Nat) : Word :=
  let c := getCore s (coreOf sid)
  BitVec.ofNat 64 (slotMap c (fun z => z.st == .parked) * 2 ^ 32 + slotMap c (fun z => z.st != .empty) * 2 ^ 16 + slotOf sid)

/-- R160. -/
def dlstatOf (t : Strand) : Word :=
  BitVec.ofNat 64 ((if t.dlValid then 2 ^ 63 else 0) + (if t.dlArmed then 2 ^ 62 else 0)) + t.dlRelease.setWidth 64

/-- R155: the value of a special register. -/
def readSpecial (s : State) (sid : Nat) (t : Strand) (n : Nat) : Word :=
  match n with
  | 0 => BitVec.ofNat 64 s.cycle
  | 1 => BitVec.ofNat 64 s.dtime
  | 2 => coordOf s sid
  | 3 => slotWord s sid
  | 4 => BitVec.ofNat 64 t.ctx
  | 5 => t.fflags.setWidth 64
  | 6 => (getCtx s t.ctx).spflag
  | 7 => (getCtx s t.ctx).spaddr
  | 8 => dlstatOf t
  | 9 => t.trapinfo
  | 10 => (getCtx s t.ctx).tdbase
  | 11 => t.lk
  | 12 => t.ls0 &&& ~~~ 15
  | 13 => t.le0 &&& ~~~ 15
  | 14 => t.lc0
  | 15 => t.ls1 &&& ~~~ 15
  | 16 => t.le1 &&& ~~~ 15
  | 17 => t.lc1
  | 18 => t.scmiss
  | 19 => t.dline
  | 20 => t.unitid
  | 21 => t.launchid
  | _ => 0

/-- R69: writing 1 to `valid` clears `valid`, `count` and `spaddr`; the offences of the write's own cycle are captured after
the clear. -/
def clearSpflag (cycle : Nat) (x : Ctx) : Ctx :=
  let z := { x with spValid := false, spaddr := 0, spflag := x.spflag &&& 0x0000FFFFFFFFFEFF#64 }
  match x.spNow with
  | some o => if o.cycle == cycle && x.spValid then showOffence z o else z
  | none => z

/-- R155: a write of a strand's special register. -/
def writeStrandSpecial (t : Strand) (n : Nat) (v : Word) : Strand :=
  match n with
  | 5 => { t with fflags := v.setWidth 5 }
  | 8 => if v.getLsbD 63 then { t with dlValid := false } else t
  | 11 => { t with lk := v }
  | 12 => { t with ls0 := v &&& ~~~ 15 }
  | 13 => { t with le0 := v &&& ~~~ 15 }
  | 14 => { t with lc0 := v }
  | 15 => { t with ls1 := v &&& ~~~ 15 }
  | 16 => { t with le1 := v &&& ~~~ 15 }
  | 17 => { t with lc1 := v }
  | 18 => { t with scmiss := v }
  | _ => t

/-- R155: MTS. A write to a read-only register has no effect. DEDUCED for tdbase, log 35. -/
def writeSpecial (s : State) (sid ctx n : Nat) (v : Word) : State :=
  match n with
  | 6 => if v.getLsbD 8 then updCtx s ctx (clearSpflag s.cycle) else s
  | 10 => updCtx s ctx fun x => { x with tdbase := v }
  | _ => updStrand s sid fun t => writeStrandSpecial t n v

def execMfs (x : Args) (s : State) : Host.Outcome State Fault Refusal :=
  run 0xC4 x (fun s sid t _ => .done (setG s sid x.d (readSpecial s sid t (idxOf x.a)))) s
/-- R155. That `tdbase` is written in context 0 only is a check before any effect (`privBad`). -/
def execMts (x : Args) (s : State) : Host.Outcome State Fault Refusal :=
  run 0xC5 x (fun s sid t o => .done (writeSpecial s sid t.ctx (idxOf x.d) o.aw)) s

/-! ## Halts -/

def execHalt (x : Args) (s : State) : Host.Outcome State Fault Refusal := run 0xC0 x (fun s _ _ _ => .halt s 9 0x01000000) s
def execTrap (x : Args) (s : State) : Host.Outcome State Fault Refusal :=
  run 0xC1 x (fun s _ _ o => .halt s 9 (o.aw &&& 0xFFFFFF)) s
/-- R162: trapinfo is 0 where the operand is omitted, as its field reads. -/
def execBkpt (x : Args) (s : State) : Host.Outcome State Fault Refusal :=
  run 0xC2 x (fun s _ _ o => .halt s 8 (o.aw &&& 0xFFFFFF)) s

/-- R163. -/
def rlsBody : Body1 := fun s sid t o =>
  let a := o.aw.toNat % 2 ^ 15
  let root := getSlot s a
  if root.st == .halted && t.ctx != 0 && root.s.ctx != t.ctx then .trap s 1 (privInfo 0xC3)
  else if owesAck s t.uid sid .dev then .park s 0 0 none (.drain 3)
  else .done (releaseRoot s a)
def execRls (x : Args) (s : State) : Host.Outcome State Fault Refusal := run 0xC3 x rlsBody s

/-! ## Time and deadlines -/

/-- R157. -/
def execTime (x : Args) (s : State) : Host.Outcome State Fault Refusal :=
  run 0xC6 x (fun s sid t _ =>
    if owesAck s t.uid sid .dom then .park s 0 0 none (.drain 4)
    else .done (setG s sid x.d (BitVec.ofNat 64 s.dtime))) s

/-- R158. -/
def dlnBody : Body1 := fun s sid _ o =>
  if o.aw.toNat ≤ s.dtime then .halt (updStrand s sid fun t => { t with dline := o.aw, dlArmed := false }) 7 o.aw
  else .done (updStrand s sid fun t => { t with dline := o.aw, dlArmed := true })
def execDln (x : Args) (s : State) : Host.Outcome State Fault Refusal := run 0xC7 x dlnBody s
/-- R155, R158: an armed deadline is disarmed and `dline` reads 0; where none is armed, `dline` keeps what an expiry left
there until the next DLN (R159). DEDUCED, log 32. -/
def disarmed (t : Strand) : Strand := { t with dlArmed := false, dline := if t.dlArmed then 0 else t.dline }
def execDlx (x : Args) (s : State) : Host.Outcome State Fault Refusal :=
  run 0xC8 x (fun s sid _ _ => .done (updStrand s sid disarmed)) s

/-! ## Partition facts -/

def bitmapOf (l : List Nat) : Nat := l.foldl (fun n i => n ||| 2 ^ i) 0
def readyDistricts (s : State) : Nat := s.mgmt.ready.toNat / 2 ^ 42 % 16

/-- R161, R456: PART. -/
def partFact (s : State) (ctx : Nat) (a : Word) : Nat :=
  let bs := (blocksOf s ctx).filter fun b => distReady s (distOfBlk b)
  match a.toNat with
  | 0 => bs.length
  | 1 => bitmapOf ((bs.filter fun b => distOfBlk b == 0).map (· % 64))
  | 2 => bitmapOf ((bs.filter fun b => distOfBlk b == 1).map (· % 64))
  | 3 => bitmapOf ((bs.filter fun b => distOfBlk b == 2).map (· % 64))
  | 4 => bitmapOf ((bs.filter fun b => distOfBlk b == 3).map (· % 64))
  | 5 => readyDistricts s
  | 6 => s.dom.member
  | 7 => s.dom.members.length
  | _ => 0
def execPart (x : Args) (s : State) : Host.Outcome State Fault Refusal :=
  run 0xC9 x (fun s sid t o => .done (setG s sid x.d (BitVec.ofNat 64 (partFact s t.ctx o.aw)))) s

/-! ## Slots -/

/-- R164. -/
def slotStatus (slot reason status : Nat) : Word := BitVec.ofNat 64 (slot % 16 * 2 ^ 16 + reason * 2 ^ 8 + status)

/-- R166: the lowest empty slot from `lo` on. -/
def emptySlot (c : Core) (lo : Nat) : Option Nat :=
  (List.range 16).find? fun n => max 1 lo ≤ n && (slotIn c n).st == .empty

/-- R165: the handle of a unit in an inbox entry. -/
def unitHandle (e : Nat) (u : UnitRec) : Word := BitVec.ofNat 64 (2 ^ 63 + e * 2 ^ 48 + u.id % 2 ^ 48)
/-- R166: the unit that a handle names among those the issuer holds. -/
def heldUnit (c : Core) (t : Strand) (h : Word) : Option UnitRec :=
  (c.unitInbox.find? fun e => e.2.taken && unitHandle e.1 e.2.unit == h && t.units.contains e.2.unit).map (·.2.unit)

/-- R166: a strand as STRT starts it. -/
def newStrand (uid ctx sid : Nat) (pc g1 : Word) : Strand :=
  { Strand.init with uid := uid, ctx := ctx, pc := pc, g := mapSet 0 [] 1 g1, startId := sid }
/-- R166: g1 to g8 take the words of a unit's record. -/
def bindUnit (t : Strand) (u : UnitRec) : Strand :=
  { t with
    g := (List.range 8).foldl (fun m i => mapSet 0 m (i + 1) (u.words.getD i 0)) t.g
    unitid := BitVec.ofNat 64 u.id
    launchid := BitVec.ofNat 64 u.launch
    units := [u] }

/-- R334: a slot has a new occupant, so it no longer stands for an evicted strand. A slot number of 16 or more is one that
an entry has lost. -/
def unbindSlot (c : Core) (n : Nat) : Core :=
  { c with spill := c.spill.map fun e => if e.slot == n then { e with slot := n + 16 } else e }

/-- Start a strand in a slot. -/
def startIn (s : State) (sid ctx : Nat) (pc g1 : Word) (u : Option UnitRec) : State :=
  let t := { newStrand s.nextId ctx sid pc g1 with member := s.dom.member }
  setSlot (updCore { s with nextId := s.nextId + 1 } (coreOf sid) fun c => unbindSlot c (slotOf sid)) sid
    { st := .ready, s := match u with | some w => bindUnit t w | none => t, moved := s.cycle }

/-- R166. -/
def strtBody (x : Args) : Body1 := fun s sid t o =>
  let core := coreOf sid
  let c := getCore s core
  let answer := fun (z : State) (w : Word) => Res.done (setG z sid x.d w)
  if owesAck s t.uid sid .dev then .park s 0 0 none (.drain 3)
  else if o.bw.getLsbD 63 then
    match heldUnit c t o.bw with
    | none => answer s (slotStatus 0 8 6)
    | some u => match emptySlot c (lowSlot s u.launch) with
      | none => answer s (slotStatus 0 6 6)
      | some n =>
        let s1 := updStrand s sid fun z => { z with units := z.units.filter fun w => w != u }
        answer (startIn s1 (core * 16 + n) t.ctx o.aw 0 (some u)) (slotStatus n 0 0)
  else match emptySlot c 1 with
    | none => answer s (slotStatus 0 6 6)
    | some n => answer (startIn s (core * 16 + n) t.ctx o.aw o.bw none) (slotStatus n 0 0)
def execStrt (x : Args) (s : State) : Host.Outcome State Fault Refusal := run 0xCA x (strtBody x) s

/-- R167. -/
def reapSlot (s : State) (core n : Nat) : Word × State :=
  match (getSlot s (core * 16 + n)).st with
  | .ended => (slotStatus n 0 0, setSlot s (core * 16 + n) Slot.init)
  | .empty => (slotStatus n 5 0, s)
  | _ => (slotStatus n 9 6, s)
def reapBody (x : Args) : Body1 := fun s sid _ o =>
  let core := coreOf sid
  let a := o.aw.toNat
  let r := if 15 < a then (slotStatus 0 10 6, s)
    else if a == 0 then
      match (List.range 16).find? fun n => (getSlot s (core * 16 + n)).st == .ended with
      | some n => reapSlot s core n
      | none => (slotStatus 0 5 6, s)
    else reapSlot s core a
  .done (setG r.2 sid x.d r.1)
def execReap (x : Args) (s : State) : Host.Outcome State Fault Refusal := run 0xCB x (reapBody x) s

/-! ## The spill run queue (R168, R170, R171, R334) -/

/-- The place that an evicted strand's image takes: the lowest free one. R168 calls the queue a ring and says tail: the order of the
entries is that of `Core.spill`, and which place an image takes is the model's. DESIGN CHOICE, log 84. -/
def spillPlace (c : Core) : Option Nat := (List.range 256).find? fun p => !c.spill.any fun e => e.place == p

/-- What a slot holds while an image moves between it and device memory: it reads as occupied and parked. DESIGN CHOICE, log 73. -/
def movingSlot (ctx cycle : Nat) : Slot := { st := .parked, s := { Strand.init with ctx := ctx }, moved := cycle }

/-- R168, R171: a strand leaves its slot for the tail of the queue; its image is written next (EVICT_COMPLETE). -/
def evictTo (s : State) (sid place : Nat) (ready : Bool) : State :=
  let sl := getSlot s sid
  let s1 := setSlot s sid (movingSlot sl.s.ctx s.cycle)
  updCore s1 (coreOf sid) fun c => { c with
    spill := c.spill ++ [{ place := place, strand := sl.s, written := false, ready := ready, since := s.cycle,
                           slot := slotOf sid, target := none }]
    moved := true }

/-- R168: the reason that refuses an eviction, 0 for none. An event that wakes the strand counts as arrived before it. -/
def evictReason (s : State) (sid : Nat) : Nat :=
  let sl := getSlot s sid
  let held := match sl.s.wait with | some w => waitWithheld s sid sl.s w | none => false
  let woken := match sl.s.wait with | some w => waitReady s sid sl.s w | none => false
  if sl.st == .empty || sl.st == .ended || sl == movingSlot sl.s.ctx sl.moved then 5
  else if sl.st == .halted || sl.st == .member || (sl.st == .parked && held) then 4
  else if sl.st != .parked || woken then 3
  else if !sl.s.copies.isEmpty then 1
  else if (spillPlace (getCore s (coreOf sid))).isNone then 2
  else 0

/-- R168. An event that wakes the strand in this cycle counts as arrived before it. The slot field of a refusal is the slot that the
form names, 0 where it names none in range; STRT, REAP and ADMIT likewise: the spec gives it for success only (R164; DESIGN CHOICE,
log 73). -/
def evictBody (x : Args) : Body1 := fun s sid _ o =>
  let a := o.aw.toNat
  let v := coreOf sid * 16 + a
  if a < 1 || 15 < a then .done (setG s sid x.d (slotStatus 0 10 6))
  else match evictReason s v, spillPlace (getCore s (coreOf sid)) with
    | 0, some p => .park (evictTo s v p false) 0 0 none (.asked (strandAt s v).uid)
    | r, _ => .done (setG s sid x.d (slotStatus a r 6))
def execEvict (x : Args) (s : State) : Host.Outcome State Fault Refusal := run 0xCC x (evictBody x) s

/-- R170: the entry that became ready earliest; of two of one cycle, the one evicted earlier: DESIGN CHOICE, log 84. -/
def oldestSpill (c : Core) : Option Spill :=
  (sortBy (fun a b => a.since ≤ b.since) (c.spill.filter fun e => e.ready && e.target.isNone)).head?
/-- R170, R371: the lowest empty slot an entry may take. -/
def spillSlot (s : State) (core : Nat) (e : Spill) : Option Nat :=
  emptySlot (getCore s core) (lowSlot s e.strand.launchid.toNat)
/-- R170: an entry's image is loaded next (ADMIT_COMPLETE). -/
def admitTo (s : State) (core : Nat) (e : Spill) (n : Nat) : State :=
  setSlot (updCore s core fun c => { updSpillIn c e.place fun z => { z with target := some n } with moved := true })
    (core * 16 + n) (movingSlot e.strand.ctx s.cycle)
def admitBody (x : Args) : Body1 := fun s sid _ _ =>
  let core := coreOf sid
  match oldestSpill (getCore s core) with
  | none => .done (setG s sid x.d (slotStatus 0 7 6))
  | some e => match spillSlot s core e with
    | none => .done (setG s sid x.d (slotStatus 0 6 6))
    | some n => .park (admitTo s core e n) 0 0 none (.asked e.strand.uid)
def execAdmitStrand (x : Args) (s : State) : Host.Outcome State Fault Refusal := run 0xCD x (admitBody x) s

/-- R171: the strand goes to the queue with its pc after YIELD. -/
def yieldBody : Body1 := fun s sid t _ =>
  if slotOf sid == 0 then .done s
  else if !t.copies.isEmpty then .park s 0 0 none (.drain 5)
  else match spillPlace (getCore s (coreOf sid)) with
    | none => .done s
    | some p => .gone (evictTo (finishAt s sid) sid p true)
def execYield (x : Args) (s : State) : Host.Outcome State Fault Refusal := run 0xCE x yieldBody s

/-- R165. -/
def utakeBody (x : Args) : Body1 := fun s sid _ _ =>
  let core := coreOf sid
  match unitOldest (getCore s core) with
  | none => .park s 0 0 none .test
  | some (n, e) =>
    let s1 := updCore s core fun c => { c with unitInbox := mapPut c.unitInbox n { e with taken := true } }
    .done (setG (updStrand s1 sid fun t => { t with units := t.units ++ [e.unit] }) sid x.d (unitHandle n e.unit))
def execUtake (x : Args) (s : State) : Host.Outcome State Fault Refusal := run 0xCF x (utakeBody x) s

end Sys2Proof.Machine
end

