-- ==== Sys2Proof/Machine/Strands.lean ====
section
/-! DEFINITION. What comes about for strands by itself: fetches land, waits end, time passes, members and roots leave the
cordon, records are delivered (R330-R333), strands move between slots and the spill run queue (R334-R336), and a
register file fails (R345). -/

namespace Sys2Proof.Machine
open Sys2Proof

/-- The slot of a strand, if it is in one. -/
def slotOfStrand (s : State) (uid : Nat) : Option Nat := match locate s uid with | .slot sid => some sid | _ => none
/-- An event of a strand that is in a slot. -/
def inSlot (s : State) (uid : Nat) (f : Nat → Slot → State) : Host.Outcome State Fault Refusal :=
  .next (match slotOfStrand s uid with | some sid => f sid (getSlot s sid) | none => s)

/-! ## Ends, fetches and wakes -/

/-- R151: a parked strand that is leaving ends once its copies have landed and its accesses are acknowledged. -/
def execEndStrand (uid : Nat) (s : State) : Host.Outcome State Fault Refusal :=
  inSlot s uid fun sid sl =>
    match sl.s.wait with
    | some w =>
      if sl.st == .parked && (w.form == 0x81 || w.form == 0x83) && (w.stage == .drain 5 || w.stage == .drain 4) &&
          sl.s.copies.isEmpty && !owesAck s uid sid .dom && (ringHeldBy s (coreOf sid) uid).isNone then endStrandNow s sid w.word else s
    | none => s

/-- The strands of a core, in slots or in its spill run queue, that wait for a line. -/
def lineWaiters (s : State) (core line : Nat) : List Strand :=
  let waits := fun (t : Strand) => (t.wait.map fun w => w.stage == .fetch).getD false && t.pc.toNat / 256 == line
  let c := getCore s core
  ((c.slots.filter fun e => e.2.st == .parked && waits e.2.s).map fun e => e.2.s) ++
    (c.spill.filter fun e => !e.ready && waits e.strand).map (·.strand)
/-- R74: a line enters the buffer, which holds 64; which one it replaces is open. DESIGN CHOICE, log 1. -/
def keepLine (s : State) (core line : Nat) (v : BitVec 2048) : State :=
  let c := getCore s core
  let room := c.ibuf.length < 64
  let kept := if room then c.ibuf else match c.ibuf[Config.choice s.fresh % c.ibuf.length]? with
    | some e => c.ibuf.filter fun x => x.1 != e.1
    | none => c.ibuf
  updCore { s with fresh := s.fresh + 1 } core fun k => { k with ibuf := mapPut kept line v }
/-- A strand that waited for its line goes on, or takes the trap that the fetch gave. -/
def fetched (s : State) (uid : Nat) (bad : Option (Nat × Word)) : State :=
  wake (updUid s uid fun t => { t with wait := match bad with
    | some (c, i) => t.wait.map fun w => { w with stage := .refused c i }
    | none => none }) uid
/-- R74: who reads the lines of a core. -/
def lineReader (core ctx : Nat) : Eng := { src := .engine (blkOfCore core) (4 + core % 8), blk := blkOfCore core, sid := core * 16, ctx := ctx, agent := 0 }
/-- R74, R168, R296: a line lands; the strands that missed on it share the read. One of another member is asked for first.
DESIGN CHOICE, log 27. -/
def landLine (s : State) (core line : Nat) : State :=
  let ws := lineWaiters s core line
  let all := fun (z : State) (bad : Strand → Option (Nat × Word)) => ws.foldl (fun z t => fetched z t.uid (bad t)) z
  match ws with
  | [] => s
  | t :: _ =>
    let va := line * 256 % 2 ^ 57
    let e := lineReader core t.ctx
    match translate s (core * 16) t.ctx .fetch va with
    | .ok pa => (match deviceRead s e pa 4 with
      | .ok bs => all (keepLine (dropReads s e) core line (BitVec.ofNat 2048 (bytesNat bs))) fun _ => none
      | .error (.trap c _) => all (dropReads s e) fun t => some (c, t.pc)
      | .error x => awaitRead s e x)
    | .bad c _ => all s fun t => some (c, t.pc)
    | .miss =>
      ws.foldl (fun z t =>
        let a := t.pc.toNat % 2 ^ 57
        let (k, z1) := sendMiss z (blkOfCore core) t.ctx a
        updUid z1 t.uid fun t => { t with wait := t.wait.map fun w => { w with stage := .tlb k a (needCode .fetch) } }) s
def execIbufLineLands (core line : Nat) (s : State) : Host.Outcome State Fault Refusal := .next (landLine s core line)

/-- R211, R334: a parked strand whose wait is over tests its object again; an evicted one's entry becomes ready. -/
def wakeIf (s : State) (sid : Nat) : State :=
  let sl := getSlot s sid
  let s1 := match sl.s.wait with
    | some w => if sl.st == .parked && waitReady s sid sl.s w then wake s sl.s.uid else s
    | none => s
  ((getCore s (coreOf sid)).spill.filter fun e =>
    e.slot % 16 == slotOf sid && !e.ready && (e.strand.wait.map fun w => waitReady s sid e.strand w).getD false).foldl
      (fun z e => wake z e.strand.uid) s1
def execWaitWake (sid : Nat) (s : State) : Host.Outcome State Fault Refusal := .next (wakeIf s sid)

/-! ## Time-outs, deadlines and promises -/

/-- R396: the forms that take a time-out. -/
def timedForm (f : Nat) : Bool := f == 0x216 || f == 0x2C3 || f == 0x2C9 || f == 0x2CD || f == 0x386
/-- R396: whether the time-out of a wait counts at this boundary. -/
def counts (s : State) (sid : Nat) (t : Strand) (w : Wait) : Bool :=
  timedForm w.form && (match w.stage with | .test => true | .busy _ _ => true | _ => false) && w.since < s.cycle && !objWithheld s sid t w && ctxRuns s t.ctx
def countDown (s : State) (sid : Nat) (t : Strand) : Strand :=
  { t with wait := t.wait.map fun w => if counts s sid t w then { w with left := w.left.map (· - 1) } else w }
/-- The strands whose time has run out. -/
def lateUids (s : State) : List Nat :=
  let due := fun (t : Strand) => (t.wait.map fun w => w.stage == .test && w.left == some 0).getD false
  ((allSlots s).filter fun e => e.2.st == .parked && due e.2.s).map (fun e => e.2.s.uid) ++
  s.cores.flatMap fun c => (c.2.spill.filter fun e => !e.ready && due e.strand).map (·.strand.uid)
/-- R396: a tick boundary. -/
def tickAll (s : State) : State :=
  let s1 := { s with cores := s.cores.map fun (c : Nat × Core) => (c.1, { c.2 with
    slots := c.2.slots.map fun (e : Nat × Slot) =>
      (e.1, if e.2.st == SlotState.parked then { e.2 with s := countDown s (c.1 * 16 + e.1) e.2.s } else e.2)
    spill := c.2.spill.map fun (e : Spill) => { e with strand := countDown s (c.1 * 16 + e.slot % 16) e.strand } }) }
  { s1 with agenda := (lateUids s1).map (fun u => Act.event (.waitTimeout u)) ++ s1.agenda }
def execTickBoundary (s : State) : Host.Outcome State Fault Refusal := .next (if s.cycle % 256 == 0 then tickAll s else s)
/-- R396: the wait ends at the strand's next rotation. -/
def execWaitTimeout (uid : Nat) (s : State) : Host.Outcome State Fault Refusal :=
  .next (if (lateUids s).contains uid then wake s uid else s)

/-- R159: the deadline in a strand's images is disarmed. -/
def disarmImage (s : State) (uid : Nat) : State := mapImages s uid 1128 fun w => setBit w 6 false
/-- R159: `dtime` has reached an armed deadline. -/
def expire (s : State) (uid : Nat) : State :=
  let off := fun (t : Strand) => { t with dlArmed := false }
  let later := fun (t : Strand) => { t with dlArmed := false, dlPending := true }
  match strandOf s uid, locate s uid with
  | some t, .slot sid =>
    let st := (getSlot s sid).st
    if !t.dlArmed || s.dtime < t.dline.toNat || st == .ended then s
    else if st == .halted then disarmImage (updStrand s sid later) uid
    else if st == .member then updStrand s sid later
    else stopSoon (updStrand s sid off) sid 7 t.dline
  | some t, .spill _ _ =>
    if !t.dlArmed || s.dtime < t.dline.toNat then s else disarmImage (wake (updUid s uid later) uid) uid
  | _, _ => s
def execDeadlineExpiry (uid : Nat) (s : State) : Host.Outcome State Fault Refusal := .next (expire s uid)

/-- R352: the strands parked in JWAITP on a job, outside the cordon and not there before. -/
def promiseWaiters (s : State) (h : Word) : List Nat :=
  ((allSlots s).filter fun e => e.2.st == .parked && waitsOn e.2.s 0x307 h && !(e.2.s.wait.map (·.rel)).getD false).map (·.1)
def missOf (s : State) (h : Word) : State :=
  match findJob s h with
  | some j =>
    let ws := promiseWaiters s h
    if !j.lapsed && j.state != 3 && !j.missed && (j.promise.map fun p => decide (p < s.cycle)).getD false && !ws.isEmpty then
      ws.foldl (fun z sid => stopStrand z sid 6 h) (markMissed s h)
    else s
  | none => s
def missPromise (s : State) (b q seq : Nat) : State := missOf s (jobHandle b q seq 0)
def execPromiseMissed (blk q seq : Nat) (s : State) : Host.Outcome State Fault Refusal := .next (missPromise s blk q seq)

/-! ## The cordon -/

def execCordonLeave (uid : Nat) (s : State) : Host.Outcome State Fault Refusal := inSlot s uid fun sid _ => leaveCordon s sid

/-- R318: a released root whose notices are all acknowledged; a deadline that expired meanwhile is reported. -/
def rootReady (s : State) (sid : Nat) (sl : Slot) : State :=
  let waits := s.net.any fun p => p.uid == sl.s.uid && (match p.body with | .notice _ un => un | _ => false)
  if sl.st != .halted || !sl.s.releasing || waits then s
  else
    let s1 := setSlot s sid { sl with st := .ready, s := { sl.s with releasing := false }, moved := s.cycle }
    if expired s sl.s then deadlineReport s1 sid else s1
def execRootReady (uid : Nat) (s : State) : Host.Outcome State Fault Refusal := inSlot s uid fun sid sl => rootReady s sid sl

/-! ## Trap records (R330, R333, R444) -/

/-- R357, R444: the header at an offset is a stage ring's, with slots of 64 bytes. -/
def trapHeader (s : State) (c o : Nat) : Bool :=
  rgBytes s c o == 64 && 2 ≤ rgSlots s c o && rgSlots s c o ≤ 256 && 2 ^ (rgSlots s c o).log2 == rgSlots s c o &&
    1 ≤ rgProducers s c o && rgProducers s c o ≤ 64 && spadRead s c (o + 7) 1 == 0 && spadRead s c (o + 30) 2 == 0
def recordKind (r : Record) : Nat := lw r.words 0 60 4
/-- R330, R359: the trap ring takes the record, while the core is still its context's, and behind what waits for a slot of it. -/
def ringTakes (s : State) (r : Record) : Option (Nat × Nat) :=
  match r.core with
  | none => none
  | some c =>
    let k := getCore s c
    let o := k.trapring.toNat % 2 ^ 18
    let z := (slotIn k 0).st
    if ctxRuns s r.ctx && ownsBlk s r.ctx (blkOfCore c) && !(s.net.any fun p => p.st == .waiting && p.body == .ringAsk c o) &&
        k.trapring.getLsbD 63 && trapHeader s c o && rgRoom s c o && z != .halted && z != .member &&
        !(recordKind r == 0 && lw r.words 0 0 4 == 0) then some (c, o) else none
/-- R333: what the context trap queue makes of a record. -/
inductive Queued
  | ok (s : State)
  | full
  | bad
def trapQueue (s : State) (ctx : Nat) : Nat := (ctxReg s ctx 0x408).toNat
def queueSizeOk (n : Nat) : Bool := 64 ≤ n && n ≤ 65536 && 2 ^ n.log2 == n
def writeQueue (s : State) (r : Record) : Queued :=
  let q := trapQueue s r.ctx
  let rd := fun (o n : Nat) => (virtRead1 s 300 r.ctx (q + o) n).map bytesNat
  match rd 0 8, rd 8 8, rd 16 4 with
  | some head, some tail, some n =>
    if !queueSizeOk n then .bad
    else if (tail + 2 ^ 64 - head) % 2 ^ 64 == n then .full
    else
      let ws := match r.words with | [] => [] | w :: l => (w ||| 0x0000200000000000#64) :: l
      match virtWrite1 s 300 r.ctx (q + 64 + 64 * (tail % n)) (wordsBytes ws) with
      | some s1 => (match virtWrite1 s1 300 r.ctx (q + 8) (natBytes 8 (tail + 1)) with | some s2 => .ok s2 | none => .bad)
      | none => .bad
  | _, _, _ => .bad
/-- R333: an earlier record waits for the same queue. -/
def recordBehind (s : State) (r : Record) : Bool :=
  (s.records.takeWhile fun q => q.k != r.k).any fun q => q.ctx == r.ctx && (q.core == r.core || (ringTakes s q).isNone)
/-- R291: an atomic holds the header or the slot that a record is to be written to. -/
def ringHolds (s : State) (r : Record) : Bool :=
  (ringTakes s r).any fun (c, o) =>
    reserved s (spadKey c o) 64 || reserved s (spadKey c (rgSlotOff s c o (rgIdx s c o (rgTail s c o)))) 64
def dropRecord (s : State) (k : Nat) : State := { s with records := s.records.filter fun r => r.k != k }
def deliverRecord (s : State) (r : Record) : State :=
  match ringTakes s r with
  | some (c, o) =>
    let (i, s1) := rgReserve (dropRecord s r.k) c o
    rgLand s1 c o i 0 (wordsBytes r.words) true
  | none => match writeQueue s r with
    | .ok s1 => dropRecord s1 r.k
    | .full => s
    | .bad => soon (dropRecord s r.k) (.unrecoverableFault r.ctx)
def execTrapRecordDelivery (k : Nat) (s : State) : Host.Outcome State Fault Refusal :=
  .next (match s.records.find? fun r => r.k == k with
    | some r => if recordBehind s r || ringHolds s r then s else deliverRecord s r
    | none => s)
/-- R333: 10 ms in nanoseconds of `dtime`. -/
def execTrapqRecordTimeout (k : Nat) (s : State) : Host.Outcome State Fault Refusal :=
  .next (match s.records.find? fun r => r.k == k with
    | some r => if 10000000 < s.dtime - r.since then soon s (.unrecoverableFault r.ctx) else s
    | none => s)

/-! ## The spill run queue (R168, R170, R334-R336) -/

/-- Slot zero's strand, if it is parked in a form: it issued the EVICT or ADMIT. -/
def slotZeroIn (s : State) (core form : Nat) : Option Nat :=
  let sl := getSlot s (core * 16)
  if sl.st == .parked && (sl.s.wait.map fun w => w.form == form).getD false then some sl.s.uid else none
/-- The issuer gets its status word. -/
def answerSlot (s : State) (core form k slot : Nat) : State :=
  match slotZeroIn s core form with
  | some u => answer s u k (waitDest s u) 0xFFFF ((slotStatus slot 0 0).setWidth 128)
  | none => s
/-- R168: an entry of this cycle whose strand an event has woken in it: the slot keeps the strand, and EVICT reports reason 3. -/
def unevict (s : State) (core : Nat) (e : Spill) : State :=
  let sid := core * 16 + e.slot
  let s1 := updCore s core fun c => { c with spill := c.spill.filter fun z => z.place != e.place }
  let s2 := setSlot s1 sid { st := .ready, s := { e.strand with dlPending := false }, moved := s.cycle }
  let s3 := match slotZeroIn s2 core 0xCC with
    | some u => answer s2 u e.strand.uid (waitDest s2 u) 0xFFFF ((slotStatus e.slot 3 6).setWidth 128)
    | none => s2
  if e.strand.dlPending then stopSoon s3 sid 7 e.strand.dline else s3
/-- An entry has entered the queue in this cycle for an EVICT. -/
def evictedNow (s : State) (core : Nat) (e : Spill) : Bool :=
  !e.written && e.slot < 16 && getSlot s (core * 16 + e.slot) == movingSlot e.strand.ctx s.cycle &&
    (slotZeroIn s core 0xCC).any fun u => (strandOf s u).any fun t => t.wait.any fun w => w.stage == .asked e.strand.uid
/-- R168: what has woken a strand counts as arrived before the EVICT of the same cycle. -/
def settleEvicts (s : State) : State :=
  s.cores.foldl (fun z c => (c.2.spill.filter fun e => e.ready && evictedNow s c.1 e).foldl (fun y e => unevict y c.1 e) z) s
/-- R168: the image is written and the slot is empty. DESIGN CHOICE, log 28. -/
def evicted (s : State) (core : Nat) (e : Spill) : State :=
  match writeImage s e.strand.ctx (blkOfCore core) (spillImage s e.strand.ctx core e.place) (spillTail s e.strand.ctx core e.place) e.strand with
  | none => soon s (.unrecoverableFault e.strand.ctx)
  | some s1 =>
    let s2 := updCore s1 core fun c => updSpillIn c e.place fun z => { z with written := true }
    answerSlot (setSlot s2 (core * 16 + e.slot % 16) Slot.init) core 0xCC e.strand.uid (e.slot % 16)
def execEvictComplete (uid : Nat) (s : State) : Host.Outcome State Fault Refusal :=
  .next (match spillOfUid s.cores uid with
    | some (core, place) => (match (getCore s core).spill.find? fun e => e.place == place with
      | some e => if e.written || evictedNow s core e then s else evicted s core e
      | none => s)
    | none => s)

/-- R334: the object records that name a strand follow it to its new slot. -/
def rename (s : State) (core old new : Nat) : State :=
  let move := fun (h : Word) => if handleKind h == 6 && handleSid h == old % 2 ^ 15 then h - BitVec.ofNat 64 (old % 2 ^ 15) + BitVec.ofNat 64 (new % 2 ^ 15) else h
  let s1 := (getCore s core).chans.foldl (fun z r =>
    if chConsumer z core r.off == old % 2 ^ 15 then
      spadWrite z core (r.off + 6) 2 (new % 2 ^ 15 + spadRead z core (r.off + 6) 2 / 2 ^ 15 * 2 ^ 15) else z) s
  let follow := fun (l : List (Word × Nat)) => l.map fun e => (move e.1, e.2)
  updCore s1 core fun c => { c with withhold := follow c.withhold, counted := follow c.counted, refused := follow c.refused }
/-- R291: an atomic holds a header that names the strand of a slot. -/
def nameHeld (s : State) (core old : Nat) : Bool :=
  (getCore s core).chans.any fun r => chConsumer s core r.off == old % 2 ^ 15 && reserved s (spadKey core r.off) 64
/-- R464: an admission reads the wait record back: its object, and its argument where the form has one. -/
def readWait (w : Wait) (tail : List Byte) : Wait :=
  if (wordAt tail 104).toNat % 1024 != w.form then w
  else { w with obj := wordAt tail 96, arg := if w.form == 0x2C3 || w.form == 0x2C9 || w.form == 0x30D then wordAt tail 120 else w.arg }
/-- R170, R159, R324, R326, R334: the image is loaded into the slot, where the strand is ready, or parked if its object still waits;
a deadline that expired meanwhile, or another trap that is due, is raised before the first issue. -/
def admitted (s : State) (core : Nat) (e : Spill) (n : Nat) : State :=
  let sid := core * 16 + n
  let ctx := e.strand.ctx
  match virtRead s (blkOfCore core) ctx (spillImage s ctx core e.place) 9, virtRead s (blkOfCore core) ctx (spillTail s ctx core e.place) 1 with
  | some im, some tl =>
    let t := { loadImage e.strand im tl with dlPending := false, wait := e.strand.wait.map fun w => readWait w tl }
    let s1 := updCore s core fun c => { unbindSlot { c with spill := c.spill.filter fun z => z.place != e.place } n with moved := true }
    let s2 := rename s1 core (core * 16 + e.slot % 16) sid
    let ready := (t.wait.map fun w => waitReady s2 sid t w).getD true
    let s3 := setSlot s2 sid { st := if ready then .ready else .parked, s := t, moved := s.cycle }
    let s4 := answerSlot s3 core 0xCD t.uid n
    if e.strand.dlPending then stopSoon s4 sid 7 t.dline else takeDue s4 sid
  | _, _ => areaFault s ctx
def execAdmitComplete (uid : Nat) (s : State) : Host.Outcome State Fault Refusal :=
  .next (match spillOfUid s.cores uid with
    | some (core, place) => (match (getCore s core).spill.find? fun e => e.place == place with
      | some e => (match e.target with
        | some n => if e.written && !nameHeld s core (core * 16 + e.slot % 16) then admitted s core e n else s
        | none => s)
      | none => s)
    | none => s)

/-- R335: every slot holds a strand that has long not issued. -/
def stalled (s : State) (core : Nat) : Bool :=
  ((List.range 15).map (· + 1)).all fun n =>
    let sl := slotIn (getCore s core) n
    sl.st != .empty && sl.st != .ready && 4096 < s.cycle - sl.moved
/-- R335: the strand to evict: one of a launch with an unfinished dependence before others, then the one parked longest. -/
def evictChoice (s : State) (core : Nat) : Option Nat :=
  let rank := fun (sid : Nat) =>
    let sl := getSlot s sid
    ((if 1 < lowSlot s sl.s.launchid.toNat then 0 else 1), sl.moved)
  (sortBy (fun a b => (rank a).1 < (rank b).1 || ((rank a).1 == (rank b).1 && (rank a).2 ≤ (rank b).2))
    (((List.range 15).map fun n => core * 16 + n + 1).filter fun sid => evictReason s sid == 0)).head?
def execAutoEvict (core : Nat) (s : State) : Host.Outcome State Fault Refusal :=
  let c := getCore s core
  .next (if (c.unitInbox.any (fun e => !e.2.taken) || c.spill.any (·.ready)) && stalled s core then
      (match evictChoice s core, spillPlace c with
        | some sid, some p => evictTo s sid p false
        | _, _ => s)
    else s)
/-- R336. -/
def execAutoAdmit (core : Nat) (s : State) : Host.Outcome State Fault Refusal :=
  .next (match oldestSpill (getCore s core) with
    | some e => if 4096 ≤ s.cycle - e.since then
        (match spillSlot s core e with | some n => admitTo s core e n | none => s)
      else s
    | none => s)

/-! ## Errors in a register file (R345) -/

/-- R345: the strand halts with class 5; trapinfo holds the register class and index. -/
def execRegisterFileError (sid cls idx : Nat) (s : State) : Host.Outcome State Fault Refusal :=
  let sl := getSlot s sid
  .next (if sl.st == .ready || sl.st == .parked || sl.st == .member then
      stopSoon s sid 5 (BitVec.ofNat 64 (2 ^ 63 + cls % 4 * 2 ^ 6 + idx % 64)) else s)

end Sys2Proof.Machine
end

