-- ==== Sys2Proof/Machine/Service.lean ====
section
/-! DEFINITION. What the engines and the page walkers bring about by themselves: jobs start, end, stop and fault, fences end
(R346, R347), walks end and fill the TLBs (R408, R409), and translations are removed (R410). -/

namespace Sys2Proof.Machine
open Sys2Proof

/-! ## Jobs -/

/-- R346: the head entry of a queue whose context runs. -/
def runningHead (s : State) (b q : Nat) (f : Job → State) : Host.Outcome State Fault Refusal :=
  .next (match headJob s b q with
    | some j => if ctxRuns s j.ctx then f j else s
    | none => s)
def execJobStart (blk q : Nat) (s : State) : Host.Outcome State Fault Refusal := runningHead s blk q fun _ => startJob s blk q
def execJobEnd (blk q : Nat) (s : State) : Host.Outcome State Fault Refusal :=
  runningHead s blk q fun _ => finishJob s blk q
/-- R252, R301: a cancelled job stops after its present piece and ends ABORTED once what it has done is acknowledged. -/
def execJobCancelStop (blk q : Nat) (s : State) : Host.Outcome State Fault Refusal :=
  runningHead s blk q fun j =>
    if j.stopping && (j.state == 3 || pieceDone j) && engIdle s blk q then
      endJob (dropReads s (engOf blk q j)) blk q j 4 7 else s
/-- R242, R246: an access of the running job faults. -/
def execJobFault (blk q cls step : Nat) (info : Word) (s : State) : Host.Outcome State Fault Refusal :=
  runningHead s blk q fun j => if j.state == 2 then haltJob s blk q j cls step info else s

/-- R347: whether each part of a fence is at the head of its queue. -/
def fenceAtHeads (s : State) (b : Nat) (j : Job) : Bool :=
  j.parts.all fun (p : Nat × Nat) => (headJob s b p.1).any fun h => h.kind == .fence && h.seq == p.2
/-- The fence of a block whose part in its lowest queue has this sequence, all its parts at the heads. -/
def readyFence (s : State) (b seq : Nat) : Option Job :=
  ([0, 1, 2].filterMap (headJob s b)).find? fun j =>
    j.kind == .fence && (j.parts.head?.map (·.2)) == some seq && fenceAtHeads s b j
def execFenceEnd (blk seq : Nat) (s : State) : Host.Outcome State Fault Refusal :=
  .next (match readyFence s blk seq with
    | some j =>
      if ctxRuns s j.ctx then
        j.parts.foldl (fun z (p : Nat × Nat) => match headJob z blk p.1 with
          | some h => endJob z blk p.1 h 0 0
          | none => z) s
      else s
    | none => s)

/-! ## Walks -/

/-- R407, R408: 64 walkers of a District serve its entries, oldest first. -/
def beingWalked (s : State) (m : Miss) : Bool :=
  ((s.misses.filter fun x => x.dist == m.dist && !x.waiting).take 64).any fun x => x.k == m.k

def needOf (n : Nat) : Need := if n == 0 then .read else if n == 1 then .write else if n == 2 then .fetch else .atomic

/-- Whether a strand waits for miss k, and its wait with the trap of its own access (R408, R412). -/
def waitsMiss (t : Strand) (k : Nat) : Bool :=
  (t.wait.map fun w => match w.stage with | .tlb j _ _ => j == k | _ => false).getD false
def missTrap (f : Nat → Nat → Nat × Word) (w : Wait) : Wait :=
  match w.stage with
  | .tlb _ va need => { w with stage := .refused (f va need).1 (f va need).2 }
  | _ => w

/-- R408: the entries whose address lies in a page. -/
def answeredBy (s : State) (m : Miss) (p : Page) : List Miss :=
  s.misses.filter fun x => x.dist == m.dist && x.ctx == m.ctx && (x.k == m.k || (p.va ≤ x.va && x.va < p.va + p.size))

/-- R408: the page fills the District's TLB and those of the blocks that asked; every requester goes on. -/
def fillPage (s : State) (m : Miss) (p : Page) : State :=
  let ms := answeredBy s m p
  let blks := (ms.flatMap fun x => x.blks).eraseDups
  let s1 := blks.foldl (fun z b => tlbFill z b m.ctx p) (tlbFill s (256 + m.dist) m.ctx p)
  ms.foldl (fun z (x : Miss) => wakeWhere z (fun t => waitsMiss t x.k) fun w => w)
    { s1 with misses := s1.misses.filter fun x => !(ms.any fun y => y.k == x.k) }
/-- R408, R412: each requester gets its own fault; nothing is cached. -/
def failMiss (s : State) (m : Miss) (f : Nat → Nat → Nat × Word) : State :=
  wakeWhere { s with misses := s.misses.filter fun x => x.k != m.k } (fun t => waitsMiss t m.k) (missTrap f)

def endWalk (s : State) (m : Miss) : State :=
  match walk s m.ctx m.va with
  | .page p => fillPage { s with fresh := s.fresh + 1 } m p
  | .fault l r => failMiss s m fun va need => faultTrap (needOf need) l r va
  | .deny => failMiss s m fun va _ => (4, BitVec.ofNat 64 va)
def execPageWalkComplete (k : Nat) (s : State) : Host.Outcome State Fault Refusal :=
  .next (match s.misses.find? fun m => m.k == k with
    | some m => if !m.waiting && beingWalked s m then endWalk s m else s
    | none => s)

/-- R408: the oldest miss that waits takes an entry. -/
def execMissMergeEntryGrant (dist : Nat) (s : State) : Host.Outcome State Fault Refusal :=
  .next (if missRoom s dist then
    { s with misses := updFirst (fun m => m.dist == dist && m.waiting) (fun m => { m with waiting := false }) s.misses }
    else s)

/-! ## Removal (R410) -/

def dropTlb (s : State) (v : Word) (f : TlbEntry → Bool) : State :=
  if tlbCtx v == 0 then s else { s with tlb := s.tlb.filter fun e => !(e.ctx == tlbCtx v && f e) }
def execTlbinvPage (v : Word) (s : State) : Host.Outcome State Fault Refusal :=
  let va := v.toNat % 2 ^ 45 * 4096
  .next (dropTlb s v fun e => e.va ≤ va && va < e.va + e.size)
def execTlbinvKey (v : Word) (s : State) : Host.Outcome State Fault Refusal :=
  .next (dropTlb s v fun e => e.key == some (v.toNat % 2 ^ 32))
def execTlbinvContext (v : Word) (s : State) : Host.Outcome State Fault Refusal := .next (dropTlb s v fun _ => true)

end Sys2Proof.Machine
end

