-- ==== Sys2Proof/Machine/Context.lean ====
section
/-! DEFINITION. Contexts: their commands (R323, R459), start (R328, R329), gang switch, save and restore (R337-R341), colour
cut (R342), teardown (R343) and deadlock (R399-R401). -/

namespace Sys2Proof.Machine
open Sys2Proof

/-! ## Commands (R323). 0 is OK, 6 is BUSY. -/

def ctxStatus (s : State) (ctx status : Nat) : State := updCtx s ctx fun x => { x with status := status }
/-- A command that the context's state admits and that its conditions allow, else BUSY. -/
def command (s : State) (ctx : Nat) (ok : Bool) (f : State → State) : Host.Outcome State Fault Refusal :=
  .next (if ok then f (ctxStatus s ctx 0) else ctxStatus s ctx 6)
def setSt (s : State) (ctx : Nat) (st : CtxState) : State := updCtx s ctx fun x => { x with st := st }

/-- R323: at most 63 contexts exist, besides the system's (R10). -/
def ctxRoom (s : State) : Bool := (s.ctxs.filter fun x => x.1 != 0 && x.2.st != .none).length < 63
def execCtxCreate (ctx : Nat) (s : State) : Host.Outcome State Fault Refusal :=
  command s ctx ((getCtx s ctx).st == .none && (ctx == 0 || ctxRoom s)) fun z => setSt z ctx .created

/-- R323, R414, R452: admitting needs its registers written, and every listed block ready and held by no context. -/
def mayAdmit (s : State) (ctx : Nat) : Bool :=
  (getCtx s ctx).st == .created && ([0x400, 0x408, 0x410, 0x418, 0x420].all fun o => ctxWritten s ctx o) &&
    (partBlocks s ctx).all (blockFree s)
def execCtxAdmit (ctx : Nat) (s : State) : Host.Outcome State Fault Refusal :=
  command s ctx (mayAdmit s ctx) fun z => setSt ((partBlocks z ctx).foldl (fun y b => scrubBlock y b (some ctx)) z) ctx .admitted
/-- R75: the scrub of a block ends. -/
def execScrubEnd (blk : Nat) (s : State) : Host.Outcome State Fault Refusal :=
  .next (if (getHub s blk).scrub then updHub s blk fun h => { h with scrub := false } else s)

/-- R323, R329. -/
def execCtxStart (ctx : Nat) (s : State) : Host.Outcome State Fault Refusal :=
  match readContents s ctx with
  | some x => command s ctx ((getCtx s ctx).st == .admitted) fun z =>
      setSt ((blocksOf z ctx).foldl (fun y b => writeContents y b x) z) ctx .running
  | none => command s ctx false id
/-- R328: slot 0 of a core whose block has its initial contents starts at ZEROPC. -/
def execSlotZeroStart (core : Nat) (s : State) : Host.Outcome State Fault Refusal :=
  let h := getHub s (blkOfCore core)
  .next (match h.owner with
    | some ctx =>
      if ctxRuns s ctx && h.initDone && !h.scrub && (getSlot s (core * 16)).st == .empty then
        startIn s (core * 16) ctx (ctxReg s ctx 0x418) (BitVec.ofNat 64 (strandArea s ctx core)) none
      else s
    | none => s)

/-- R323, R337: the instant is SWITCHT. -/
def execCtxSwitch (ctx succ : Nat) (s : State) : Host.Outcome State Fault Refusal :=
  let t := (ctxReg s ctx 0x4A0).toNat
  command s ctx (ctxRuns s ctx && s.dtime + 50000 ≤ t) fun z => updCtx z ctx fun x => { x with switchTo := some (t, succ) }

/-- R323, R342: every core of the context stops and flips its colour. -/
def flip (s : State) (ctx : Nat) : State :=
  let s1 := (coresOf s ctx).foldl (fun z c => updCore z c fun k => { k with colour := !k.colour }) s
  updCtx s1 ctx fun x => { x with colour := !x.colour }
def execCtxStop (ctx : Nat) (s : State) : Host.Outcome State Fault Refusal :=
  let st := (getCtx s ctx).st
  command s ctx (st == .running || st == .switchedOut) fun z => setSt (flip z ctx) ctx .stopping
/-- R459: a write with cmd 0 changes only hold. -/
def execCtxcmdHold (ctx : Nat) (hold : Bool) (s : State) : Host.Outcome State Fault Refusal :=
  .next (updCtx s ctx fun x => { x with hold := hold })

/-! ## Events for context 0 (R332, R341, R343) -/

def schedulerEvent (s : State) (ctx event : Nat) : State :=
  queueRecord s none 0 [BitVec.ofNat 64 (3 * 2 ^ 60 + s.dom.member * 2 ^ 22), BitVec.ofNat 64 event, BitVec.ofNat 64 s.dtime,
    BitVec.ofNat 64 ctx, 0, 0, 0, 0]

/-! ## Gang switch -/

/-- R339: what leaves the network for the drain area, what other members have sent among it. Accesses that have been performed, requests that have left the device,
and KV requests whose copy runs complete into the saved state (R337). -/
def drains (s : State) (ctx : Nat) (p : Pkt) : Bool :=
  p.ctx == ctx && p.src != .host && p.st != .performed && !(s.kvCopies.any fun c => c.pkt == p.k) &&
    (match p.home with | .member _ => false | _ => true)
/-- R337: an atomic that holds its word completes. -/
def finishAtomics (s : State) (ctx : Nat) : State :=
  ((s.net.filter fun p => drains s ctx p && s.resv.any fun r => r.k == p.k && r.granted).map (·.k)).foldl releaseAtomic s

/-- R388: a context's collectives stop: what they hold is free until the restore, and their tickets wait. -/
def parkCollectives (s : State) (ctx : Nat) : State :=
  let mine := fun (gid : Nat) => s.plaza.groups.any fun g => g.gid == gid && g.ctx == ctx
  let s1 := (s.plaza.partials.filter fun q => mine q.gid).foldl freeHeld s
  updPlaza s1 fun z => { z with
    partials := z.partials.map fun q => if mine q.gid then { q with held := none } else q
    kq := z.kq.filter fun e => !mine e.1
    heldTickets := z.heldTickets ++ z.kq.filter fun e => mine e.1 }

/-- The memory of a context's blocks. -/
def blockCells (s : State) (bs : List Nat) : Map Byte :=
  s.mem.filter fun e => (bs.flatMap blockRanges).any fun r => r.1 ≤ e.1 && e.1 < r.1 + r.2
def blockPoison (s : State) (bs : List Nat) : Bool := (bs.flatMap blockRanges).any fun r => poisoned s r.1 r.2

/-- R337, R346: a running copy goes on to the end of its present piece. A read or write that its home does not answer at once
stays for the restore. -/
def finishPieces (s : State) (ctx : Nat) : State :=
  let go := fun (z : State) (b q : Nat) =>
    if (headJob z b q).any fun j => j.kind == .copy && j.state == 2 && !pieceDone j then
      { copyPiece { z with served := [] } b q 384 with served := z.served }
    else z
  (blocksOf s ctx).foldl (fun z b => go (go z b 1) b 2) s
/-- R338: a core as a save holds it: the lines of its instruction buffer are not saved. -/
def savedCore (c : Core) : Core := { c with ibuf := [] }
/-- R337: a block's engines, cores and memory, once its state is the saved context's. -/
def emptyBlock (s : State) (ctx b : Nat) : State :=
  setHub { clearBlock s b with cores := (coresOfBlk b).foldl mapDel s.cores } b { Hub.init with owner := some ctx }
/-- R337: at T the context stops and its state leaves the partition; what was issued completes into the saved state.
DEDUCED, log 48 to 50. -/
def switchOut (s0 : State) (ctx : Nat) : State :=
  let s := parkCollectives (finishPieces (finishAtomics s0 ctx) ctx) ctx
  let bs := blocksOf s ctx
  let out := s.net.filter (drains s ctx)
  let tree := fun (e : Nat × TreeRound) => e.1 / 32 == ctx
  let saved : Saved :=
    { cycle := s.cycle
      cores := (s.cores.filter fun (c : Nat × Core) => bs.contains (blkOfCore c.1)).map fun c => (c.1, savedCore c.2)
      hubs := s.hubs.filter fun (h : Nat × Hub) => bs.contains h.1
      cells := blockCells s bs
      drained := out
      rounds := s.trees.filter tree }
  let s1 := { s with
    net := s.net.filter fun p => !drains s ctx p
    resv := s.resv.filter fun r => !(out.any fun p => p.k == r.k)
    trees := s.trees.filter fun e => !tree e }
  let s2 := updCtx (bs.foldl (fun z b => emptyBlock z ctx b) s1) ctx fun x =>
    { x with st := .switchedOut, saved := some saved, saving := true, late := false, quiet := none }
  if blockPoison s bs then soon s2 (.unrecoverableFault ctx) else s2
def execGangSwitch (ctx : Nat) (s : State) : Host.Outcome State Fault Refusal :=
  let x := getCtx s ctx
  .next (if x.st == .running && (x.switchTo.map fun w => decide (w.1 ≤ s.dtime)).getD false then switchOut s ctx else s)

/-- R338: the parts of a block's save area whose bytes have a form of the device's own: the inboxes, the hub's state, and the
reduction slots with the block's share of the collective engine's. Address and size. -/
def ownParts (s : State) (ctx blk : Nat) : List (Nat × Nat) :=
  let at0 := saveArea s ctx blk
  [(at0 + 0x640000, 0x28000), (at0 + 0x6C8000, 0x38000), (at0 + 0x700000, 0x100000)]
/-- R338, R339: the drain area; 1,152 bytes for an item are the model's. DESIGN CHOICE, log 21. -/
def drainArea (s : State) (ctx : Nat) (v : Saved) : Nat × Nat := ((ctxReg s ctx 0x410).toNat + 2 ^ 31, 1152 * v.drained.length)
/-- Bytes of a form of the device's own. -/
def ownBytes (s : State) (r : Nat × Nat) : List Byte := (List.range r.2).map fun i => Config.farByte s.fresh (r.1 + i)
/-- R338: a block's part of the save area, an address and its bytes for each piece. DESIGN CHOICE, log 21. -/
def savePieces (s : State) (ctx blk : Nat) (v : Saved) : List (Nat × List Byte) :=
  let at0 := saveArea s ctx blk
  let cell := fun (k n : Nat) => readBytes v.cells k n
  (List.range 8).map (fun i => (at0 + i * 0x40000, cell (spadKey (blk * 8 + i) 0) 0x40000)) ++
  [(at0 + 0x200000, cell (bufKey 0xF4 blk 0) 0x200000), (at0 + 0x400000, cell (bufKey 0xF5 blk 0) 0x100000),
   (at0 + 0x500000, cell (bufKey 0xF6 blk 0) 0x140000)] ++
  (ownParts s ctx blk).map (fun r => (r.1, ownBytes s r)) ++
  (List.range 128).map fun n =>
    let t := (slotIn (mapGet Core.init v.cores (blk * 8 + n / 16)) (n % 16)).s
    (saveSlot s ctx (blk * 8 + n / 16) (n % 16), imageBytes t ++ tailBytes t)
def writePieces (s : State) (ctx : Nat) (ps : List (Nat × List Byte)) : Option State :=
  ps.foldl (fun z p => z.bind fun y => virtWrite y 300 ctx p.1 (p.2.length / 128) p.2) (some s)

/-- R337, R338, R341: the save ends: the area is written, the partition is scrubbed and goes to the successor. -/
def saveDone (s : State) (ctx : Nat) (v : Saved) : State :=
  let bs := v.hubs.map (·.1)
  let next := (getCtx s ctx).switchTo.map (·.2)
  let takes := fun (b : Nat) => next.filter fun n =>
    ((getCtx s n).saved.map fun w => (mapFind w.hubs b).isSome).getD false
  let drain := drainArea s ctx v
  match bs.foldl (fun z b => z.bind fun y => writePieces y ctx (savePieces y ctx b v)) (writePieces s ctx [(drain.1, ownBytes s drain)]) with
  | some s0 =>
    let s1 := { s0 with fresh := s0.fresh + 1 }
    let s2 := updCtx s1 ctx fun x => { x with saving := false, saved := some { v with cells := [] } }
    schedulerEvent (bs.foldl (fun z b => scrubBlock z b (takes b)) s2) ctx 2
  | none => soon s (.unrecoverableFault ctx)
def execContextSaveComplete (ctx : Nat) (s : State) : Host.Outcome State Fault Refusal :=
  let x := getCtx s ctx
  .next (match x.saved with
    | some v => if x.st == .switchedOut && x.saving then saveDone s ctx v else s
    | none => s)
/-- R341. -/
def execLateDeviceEvent (ctx : Nat) (s : State) : Host.Outcome State Fault Refusal :=
  let x := getCtx s ctx
  let due := (x.switchTo.map fun w => decide (w.1 + s.mgmt.late.toNat ≤ s.dtime)).getD false
  .next (if x.saving && !x.late && due then schedulerEvent (updCtx s ctx fun x => { x with late := true }) ctx 1 else s)

/-! ## Restore -/

/-- R323, R337: the context whose switch named this one, its own save ended. -/
def predecessor (s : State) (ctx : Nat) : Option Nat :=
  (s.ctxs.find? fun x => !x.2.saving && (x.2.switchTo.map (·.2)) == some ctx && x.2.st == .switchedOut).map (·.1)
/-- Every block of the saved state is free for the context and scrubbed. -/
def mayRestore (s : State) (ctx : Nat) (v : Saved) : Bool :=
  v.hubs.all fun h => !(getHub s h.1).scrub && ((getHub s h.1).owner.isNone || ownsBlk s ctx h.1)

/-- R338, R339, R343: the parts of the device's own form are read back: poison in one is an unrecoverable fault. -/
def readable (s : State) (ctx : Nat) (r : Nat × Nat) : Bool := (virtRead s 300 ctx r.1 (r.2 / 128)).isSome
/-- R338: the strand of a slot comes back from its image. -/
def loadSlot (s : State) (ctx core n : Nat) (sl : Slot) : Option Slot :=
  if sl.st == .empty then some sl
  else (virtRead s 300 ctx (saveSlot s ctx core n) 10).map fun bs => { sl with s := loadImage sl.s (bs.take 1152) (bs.drop 1152) }
def loadCore (s : State) (ctx core : Nat) (c : Core) : Option Core :=
  (c.slots.mapM fun (e : Nat × Slot) => (loadSlot s ctx core e.1 e.2).map fun z => (e.1, z)).map fun l => { c with slots := l }
/-- R338: the cells of a block come back from the save area; poison there is an unrecoverable fault. -/
def loadCells (s : State) (ctx blk : Nat) : Option State :=
  (blockRanges blk).foldl (fun z (r : Nat × Nat) => z.bind fun (y : State × Nat) =>
      (readPieces y.1 ctx y.2 (r.2 / 16)).map fun bs => ({ y.1 with mem := writeBytes y.1.mem r.1 bs }, y.2 + r.2))
    (some (s, saveArea s ctx blk)) |>.map (·.1)

/-- R352: a promise that passed while the context was out counts as no promise. DEDUCED, log 51. -/
def forgivePromises (s : State) (v : Saved) (h : Hub) : Hub :=
  let fix := fun (q : Queue) => { q with jobs := q.jobs.map fun j =>
    { j with lapsed := j.lapsed || j.promise.any fun p => v.cycle ≤ p && p < s.cycle } }
  { h with mq := fix h.mq, cq0 := fix h.cq0, cq1 := fix h.cq1 }
/-- R339: atomics that had no grant take their places again. -/
def resvOf (ps : List Pkt) : List Resv :=
  ps.filterMap fun p => match p.body with
    | .atomic a n _ => if p.st == .waiting then some { k := p.k, addr := a, n := n, granted := false, old := 0, new := 0 } else none
    | _ => none
/-- R340, R345, R388, R441: before their first issue, strands whose deadline passed, or for which a trap is due, are stopped. -/
def restoreStrands (s : State) (ctx : Nat) : State :=
  let live := (allSlots s).filter fun e => e.2.s.ctx == ctx
  let away := (s.cores.flatMap fun c => c.2.spill.map (·.strand)).filter fun t => t.ctx == ctx
  away.foldl (fun z t => expire z t.uid) (live.foldl (fun z e => takeDue (expire z e.2.s.uid) e.1) s)

/-- R337, R339, R340, R384: the successor's state is back, and it runs. -/
def restored (s : State) (ctx from_ : Nat) (v : Saved) : State :=
  let parts := drainArea s ctx v :: v.hubs.flatMap fun h => ownParts s ctx h.1
  match v.hubs.foldl (fun z h => z.bind fun y => loadCells y ctx h.1) (if parts.all (readable s ctx) then some s else none),
      v.cores.mapM fun (c : Nat × Core) => (loadCore s ctx c.1 c.2).map fun k => (c.1, k) with
  | none, _ => soon s (.unrecoverableFault ctx)
  | _, none => soon s (.unrecoverableFault ctx)
  | some s1, some cores =>
    let s2 := cores.foldl (fun z c => setCore z c.1 c.2) s1
    let s3 := v.hubs.foldl (fun z h => setHub z h.1 (forgivePromises s v { h.2 with owner := some ctx, scrub := false })) s2
    let mine := fun (gid : Nat) => s.plaza.groups.any fun g => g.gid == gid && g.ctx == ctx
    let rank := fun (e : Nat × Nat × Rank) => e.2.2.dom * 2 ^ 32 + e.2.2.loc
    let s4 := updPlaza s3 fun z => { z with
      kq := sortBy (fun a b => rank a ≤ rank b) (z.kq ++ z.heldTickets.filter fun e => mine e.1)
      heldTickets := z.heldTickets.filter fun e => !mine e.1 }
    let s5 := { s4 with net := s4.net ++ v.drained, resv := s4.resv ++ resvOf v.drained,
                        trees := v.rounds.foldl (fun z r => mapPut z r.1 r.2) s4.trees }
    let s6 := updCtx s5 from_ fun x => { x with switchTo := none }
    restoreStrands (updCtx s6 ctx fun x => { x with st := .running, saved := none, switchTo := none, quiet := none }) ctx
def execContextRestore (ctx : Nat) (s : State) : Host.Outcome State Fault Refusal :=
  let x := getCtx s ctx
  .next (match x.saved, predecessor s ctx with
    | some v, some f => if x.st == .switchedOut && !x.saving && mayRestore s ctx v then restored s ctx f v else s
    | _, _ => s)

/-! ## Teardown -/

/-- R343, R380, R388: the groups of a torn-down context that have a member here are gone at every device; nothing of theirs is left
here. Message 10 gives one more than the number of the first outstanding collective, or 0. -/
def dropGroups (s : State) (ctx : Nat) : State :=
  let mine := s.plaza.groups.filter fun g => g.ctx == ctx && g.entries.any fun e => entMember e == s.dom.member
  let s1 := mine.foldl (fun z g =>
    let told := 10 :: natBytes 2 g.gid ++ natBytes 5 (((firstOpen z g.gid).map (· + 1)).getD 0)
    let z1 := tellGroup z g told
    let z2 := if g.plaza == z.dom.member || (groupDevices z g).contains g.plaza then z1 else sendPlaza z1 g.plaza told
    let z3 := updGroup (groupGone z2 g.gid 4 fun _ => false) g.gid fun x => { x with owners := [], marked := [] }
    freeGroup z3 g.gid) s
  updPlaza s1 fun z => { z with posts := z.posts.filter fun p => p.ctx != ctx, asked := z.asked.filter fun a => a.2.2.1 != ctx }
/-- R343: what the device holds of a context outside its blocks. -/
def dropTraces (s : State) (ctx : Nat) : State :=
  let dead := s.net.filter fun p => p.ctx == ctx
  { s with
    net := s.net.filter fun p => p.ctx != ctx
    resv := s.resv.filter fun r => !(dead.any fun p => p.k == r.k)
    corners := s.corners.filter fun f => unitCtx s f.unit != ctx
    trees := s.trees.filter fun e => e.1 / 32 != ctx
    records := s.records.filter fun r => r.ctx != ctx
    tlb := s.tlb.filter fun e => e.ctx != ctx
    misses := s.misses.filter fun m => m.ctx != ctx
    kvCopies := s.kvCopies.filter fun c => c.ctx != ctx
    retires := s.retires.filter fun r => r.ctx != ctx
    launches := s.launches.map fun (e : Nat × Launch) =>
      if e.2.ctx == ctx && e.2.gen != 0 then (e.1, { Launch.init with gen := e.2.gen, ctx := 64 }) else e }
/-- R343: every job of a block ends ABORTED, reason 8. -/
def abortJobs (s : State) (b : Nat) : State :=
  [0, 1, 2].foldl (fun z q => (queueOf z b q).jobs.foldl (fun y j => endJob y b q j 4 8) z) s
/-- R343. The blocks stay the context's until their scrub has ended. DESIGN CHOICE, log 52. -/
def teardown (s : State) (ctx : Nat) : State :=
  let bs := blocksOf s ctx
  let s1 := dropTraces (dropGroups (bs.foldl abortJobs s) ctx) ctx
  updCtx (bs.foldl (fun z b => scrubBlock z b (some ctx)) s1) ctx fun x =>
    { x with st := .tornDown, saved := none, saving := false, switchTo := none, graphs := [], phases := [], tjobs := [],
             curPhase := [], quiet := none, cut := [] }
def execUnrecoverableFault (ctx : Nat) (s : State) : Host.Outcome State Fault Refusal :=
  let st := (getCtx s ctx).st
  .next (if st == .running || st == .switchedOut || st == .stopping then teardown s ctx else s)

/-- R342: the packets of a colour sent and received, over the context's cores, here or saved, and its engines, in 48 bits. Drained items
count as received. -/
def colourSums (s : State) (ctx k : Nat) : Nat × Nat :=
  let x := getCtx s ctx
  let cs := (s.cores.filter fun c => ownsBlk s ctx (blkOfCore c.1)) ++ (x.saved.map (·.cores)).getD []
  let items := (x.saved.map fun v => (v.drained.filter fun p => isFresh p && isCounted p && (if p.colour then 1 else 0) == k).length).getD 0
  (((cs.map fun c => mapGet 0 c.2.sent k).sum + mapGet 0 x.sent k) % 2 ^ 48,
   ((cs.map fun c => mapGet 0 c.2.recv k).sum + mapGet 0 x.recv k + items) % 2 ^ 48)
/-- R342: the sums of the old colour. -/
def cutSums (s : State) (ctx : Nat) : Nat × Nat := colourSums s ctx (if (getCtx s ctx).colour then 0 else 1)
/-- R342: the other members, whose sums are added. -/
def cutMembers (s : State) : List Nat := s.dom.members.filter fun m => m != s.dom.member
/-- R342: the Interchange asks each other member for its sums of the old colour; until one has answered its entry stands 1,024 higher. -/
def askCuts (s : State) (ctx : Nat) : State :=
  let s1 := updCtx s ctx fun x => { x with cut := (cutMembers s).map fun m => (m + 1024, 0, 0) }
  (cutMembers s).foldl (fun z m => sendPlaza z m (18 :: natBytes 1 ctx ++ [if (getCtx s ctx).colour then 0 else 1])) s1
/-- R342: the sums of the old colour, over the domain's members. -/
def domSums (s : State) (ctx : Nat) : Nat × Nat :=
  let told := (getCtx s ctx).cut
  (((cutSums s ctx).1 + (told.map (·.2.1)).sum) % 2 ^ 48, ((cutSums s ctx).2 + (told.map (·.2.2)).sum) % 2 ^ 48)
/-- R342: the cut closes once every member has told its sums and the totals are equal; else they are asked for again. -/
def closeCut (s : State) (ctx : Nat) : State :=
  let told := (getCtx s ctx).cut
  if (cutMembers s).all (fun m => told.any fun e => e.1 == m) then
    (if (domSums s ctx).1 == (domSums s ctx).2 then teardown s ctx else askCuts s ctx)
  else if (cutMembers s).all fun m => told.any fun e => e.1 % 1024 == m then s
  else askCuts s ctx
def execCutClosed (ctx : Nat) (s : State) : Host.Outcome State Fault Refusal :=
  .next (if (getCtx s ctx).st == .stopping then closeCut s ctx else s)
/-- R342: another member asks for the sums of a colour here, or tells its own. -/
def tellCut (s : State) (m ctx k : Nat) : State :=
  sendPlaza s m (19 :: natBytes 1 ctx ++ natBytes 6 (colourSums s ctx k).1 ++ natBytes 6 (colourSums s ctx k).2)
def cutTold (s : State) (m ctx a b : Nat) : State :=
  updCtx s ctx fun x => { x with cut := x.cut.map fun e => if e.1 == m + 1024 then (m, a, b) else e }
/-- R323, R343: the id is free; CLASSMAP and RATELIM keep what was written. -/
def execTeardownComplete (ctx : Nat) (s : State) : Host.Outcome State Fault Refusal :=
  let x := getCtx s ctx
  let bs := blocksOf s ctx
  .next (if x.st == .tornDown && bs.all fun b => !(getHub s b).scrub then
      let s1 := bs.foldl (fun z b => updHub z b fun h => { h with owner := none }) s
      schedulerEvent (setCtx s1 ctx
        { Ctx.init with status := x.status, classmap := x.classmap, ratelim := x.ratelim, bucket := x.bucket }) ctx 3
    else s)

/-! ## Deadlock -/

/-- R399: a slot that the idle line counts as idle: parked in UTAKE, or slot 0 parked in RG.GET on its core's trap ring. -/
def idleSlot (s : State) (sid : Nat) (sl : Slot) : Bool :=
  let ring := (getCore s (coreOf sid)).trapring
  sl.st == .parked && (match sl.s.wait with
    | some w => w.form == 0xCF || (slotOf sid == 0 && w.form == 0x2CD && ring.getLsbD 63 &&
        w.obj == spadHandle 4 (coreOf sid) (ring.toNat % 2 ^ 18))
    | none => false)
def coreIdle (s : State) (core : Nat) : Bool :=
  ((allSlots s).filter fun e => coreOf e.1 == core).all fun e => e.2.st == .ended || idleSlot s e.1 e.2
def coreParked (s : State) (core : Nat) : Bool := ((allSlots s).filter fun e => coreOf e.1 == core).all fun e => e.2.st != .ready

/-- R400.4: automatic eviction or admission could act on a core. -/
def autoActs (s : State) (core : Nat) : Bool :=
  let c := getCore s core
  let ready := c.spill.filter (·.ready)
  (ready.any fun e => (spillSlot s core e).isSome) ||
  ((c.unitInbox.any (fun e => !e.2.taken) || !ready.isEmpty) && (evictChoice s core).isSome &&
    ((List.range 15).all fun n => (slotIn c (n + 1)).st != .empty))
/-- R400.5: a strand that keeps a wake armed. -/
def wakeArmed (s : State) (sid : Nat) (t : Strand) (inCordon : Bool) : Bool :=
  !inCordon && (t.dlArmed || (t.wait.map fun w =>
    (w.left.isSome && counts s sid t w) ||
    (w.form == 0x307 && ((findJob s w.obj).bind (·.promise)).any fun p => s.cycle ≤ p)).getD false)
def anyWake (s : State) (ctx : Nat) : Bool :=
  let q := trapQueue s ctx
  ((allSlots s).any fun e => e.2.s.ctx == ctx &&
    (wakeArmed s e.1 e.2.s (e.2.st == .halted || e.2.st == .member || e.2.st == .ended) || (e.2.st == .halted && e.2.s.held))) ||
  (s.cores.any fun c => c.2.spill.any fun e => e.strand.ctx == ctx && wakeArmed s (c.1 * 16 + e.slot % 16) e.strand false) ||
  (virtRead1 s 300 ctx q 8 != virtRead1 s 300 ctx (q + 8) 8) || (getCtx s ctx).hold
/-- R400.3: an entry in state 0 or 2, or a collective that can go on. -/
def workPending (s : State) (ctx : Nat) : Bool :=
  ((blocksOf s ctx).any fun b => [0, 1, 2].any fun q => (queueOf s b q).jobs.any fun j => j.state == 0 || j.state == 2) ||
  (s.plaza.posts.any fun p => p.ctx == ctx && (p.state == 2 || (p.state < 2 &&
    ((s.plaza.groups.find? fun g => g.gid == p.gid).map fun g =>
      g.entries.any fun e => entMember e != s.dom.member).getD false)))
/-- R400: the counts of the current colour. -/
def nowSums (s : State) (ctx : Nat) : Nat × Nat := colourSums s ctx (if (getCtx s ctx).colour then 1 else 0)

/-- R400: what one sample finds, but for the comparison with the sample before. -/
def stillNow (s : State) (ctx : Nat) : Bool :=
  let cs := coresOf s ctx
  (cs.all (coreParked s)) && (cs.any fun c => !coreIdle s c) && !workPending s ctx && !(cs.any (autoActs s)) &&
    !anyWake s ctx && (nowSums s ctx).1 == (nowSums s ctx).2

/-- R401: the strands parked outside the cordon and not idle, lowest id first. -/
def stuckStrands (s : State) (ctx : Nat) : List (Nat × Slot) :=
  sortBy (fun a b => a.1 ≤ b.1) ((allSlots s).filter fun e =>
    e.2.s.ctx == ctx && e.2.st == .parked && e.2.s.wait.isSome && !idleSlot s e.1 e.2)
def cordonStrands (s : State) (ctx : Nat) : List (Nat × Slot) :=
  (allSlots s).filter fun e => e.2.s.ctx == ctx && (e.2.st == .halted || e.2.st == .member)
def deadlockInfo (s : State) (ctx form : Nat) : Word :=
  BitVec.ofNat 64 (min 0xFFFF (cordonStrands s ctx).length * 2 ^ 32 + min 0xFFFF (stuckStrands s ctx).length * 2 ^ 16 + form)
/-- R401: the record goes to the context trap queue. -/
def toTrapQueue (s : State) (n : Nat) : State :=
  { s with records := s.records.take n ++ (s.records.drop n).map fun r => { r with core := none } }
def deadlocked (s : State) (ctx : Nat) : State :=
  let n := s.records.length
  match stuckStrands s ctx with
  | e :: _ => toTrapQueue (stopStrand s e.1 10 (deadlockInfo s ctx ((e.2.s.wait.map (·.form)).getD 0))) n
  | [] =>
    match sortBy (fun a b => a.1 ≤ b.1) ((cordonStrands s ctx).filter fun e => e.2.st == .halted) with
    | e :: _ => queueRecord s none ctx (trapRecord s e.1 10 (deadlockInfo s ctx 0) e.2.s (wordOf s e.1 e.2.s))
    | [] => s

/-- R400: two successive samples that find the same stillness. -/
def sampleDeadlock (s : State) (ctx : Nat) : State :=
  let moved := (coresOf s ctx).any fun c => (getCore s c).moved
  let sums := nowSums s ctx
  let x := getCtx s ctx
  let same := !moved && x.quiet == some sums
  let still := stillNow s ctx
  let declared := x.declared && !moved && (x.sample == sums.1 + sums.2)
  let s1 := (coresOf s ctx).foldl (fun z c => updCore z c fun k => { k with moved := false }) s
  let fire := same && still && !declared
  let s2 := updCtx s1 ctx fun y => { y with
    quiet := if still then some sums else none, sample := sums.1 + sums.2, declared := declared || fire }
  if fire then deadlocked s2 ctx else s2
def execDeadlockSample (ctx : Nat) (s : State) : Host.Outcome State Fault Refusal :=
  .next (if ctxRuns s ctx && s.cycle % 1024 == 0 then sampleDeadlock s ctx else s)

end Sys2Proof.Machine
end

