-- ==== Sys2Proof/Machine/Control.lean ====
section
/-! DEFINITION. Control transfer (R148-R151), the hardware loops (R152, R153) and NOP. -/

namespace Sys2Proof.Machine
open Sys2Proof

/-- R149: the checks of a destination and the transfer; `link` writes lk. BR and CALL keep the low bits of the pc. -/
def transfer (s : State) (sid : Nat) (t : Strand) (dest : Word) (link : Bool) : Res :=
  if dest &&& 15 != 0 then .trap s 2 dest
  else if 2 ≤ (dest >>> 56).toNat then .trap s 4 dest
  else .jump (if link then updStrand s sid fun u => { u with lk := t.pc + 16 } else s) dest

/-- R151: the strand waits for its copies and then for its accesses, and ends; the headers it then writes have to be free (R291). -/
def leaveWork (s : State) (sid : Nat) (t : Strand) (word : BitVec 96) : Res :=
  if !t.copies.isEmpty then .park s 0 0 none (.drain 5)
  else if owesAck s t.uid sid .dom then .park s 0 0 none (.drain 4)
  else match ringHeldBy s (coreOf sid) t.uid with
    | some o => .park s 0 0 none (.busy (spadKey (coreOf sid) o) 64)
    | none => .gone (endStrandNow s sid word)

/-- R149: BRI and RET. -/
def returnTo (op : Nat) (x : Args) (dest : Strand → Opnds → Word) : Body1 := fun s sid t o =>
  if dest t o = exitLink then leaveWork s sid t (packWord op x) else transfer s sid t (dest t o) false

/-- R149: BR and CALL. -/
def branch (link : Bool) : Body1 := fun s sid t o => transfer s sid t (t.pc + 16 * o.aw) link

/-- The loop registers of a set: start, end, count. -/
def setLoop (n : LoopSet) (t : Strand) (ls le lc : Word) : Strand :=
  match n with
  | .l0 => { t with ls0 := ls, le0 := le, lc0 := lc, lc1 := 0 }
  | .l1 => { t with ls1 := ls, le1 := le, lc1 := lc }
def loopNum (n : LoopSet) : Nat := match n with | .l0 => 0 | .l1 => 1

/-- R152: an inner loop that does not lie in the armed outer one. -/
def loopOutside (n : LoopSet) (t : Strand) (start last : Word) : Bool :=
  n == .l1 && t.lc0 != 0 && !(t.ls0 ≤ start && last ≤ t.le0)

/-- R152. -/
def loopBody (n : LoopSet) : Body1 := fun s sid t o =>
  let start := t.pc + 16
  let last := t.pc + 16 * o.bw
  if loopOutside n t start last then .trap s 0 (BitVec.ofNat 64 ((0x84 + loopNum n) * 2 ^ 16 + 5 * 2 ^ 12 + 8 * 2 ^ 8))
  else .jump (updStrand s sid fun u => setLoop n u start last o.aw) (if o.aw = 0 then last + 16 else start)

/-- R153: whether a set is armed, and the strand that has left it. -/
def loopArmed (n : LoopSet) (t : Strand) : Bool := match n with | .l0 => t.lc0 != 0 | .l1 => t.lc1 != 0
def loopLast (n : LoopSet) (t : Strand) : Word := match n with | .l0 => t.le0 | .l1 => t.le1
def breakLoop (n : LoopSet) (t : Strand) : Strand :=
  match n with
  | .l0 => { t with lc0 := 0, lc1 := 0 }
  | .l1 => { t with lc1 := 0 }
def lbrkBody (n : LoopSet) : Body1 := fun s sid t _ =>
  if loopArmed n t then .jump (updStrand s sid (breakLoop n)) (loopLast n t + 16) else .done s

def execBr (x : Args) (s : State) : Host.Outcome State Fault Refusal := run 0x80 x (branch false) s
def execBri (x : Args) (s : State) : Host.Outcome State Fault Refusal := run 0x81 x (returnTo 0x81 x fun _ o => o.aw) s
def execCall (x : Args) (s : State) : Host.Outcome State Fault Refusal := run 0x82 x (branch true) s
def execRet (x : Args) (s : State) : Host.Outcome State Fault Refusal := run 0x83 x (returnTo 0x83 x fun t _ => t.lk) s
def execLoop (n : LoopSet) (x : Args) (s : State) : Host.Outcome State Fault Refusal := run (0x84 + loopNum n) x (loopBody n) s
def execLbrk (n : LoopSet) (x : Args) (s : State) : Host.Outcome State Fault Refusal := run (0x86 + loopNum n) x (lbrkBody n) s
def execNop (x : Args) (s : State) : Host.Outcome State Fault Refusal := run 0x88 x (fun s _ _ _ => .done s) s

end Sys2Proof.Machine
end

