-- ==== Sys2Proof/Machine/Device.lean ====
section
/-! DEFINITION. The device as a whole: reset and the root of trust (R5, R453-R455), readiness (R452, R456), power (R457), the
debugger's register (R460), the error log (R461), and device registers without an event of their own (R67). -/

namespace Sys2Proof.Machine
open Sys2Proof

/-! ## Reset -/

def flashAt (i : Nat) : Nat := (Config.flash.getD i 0).toNat
/-- R453: the record is signed by the owner, and its magic and version are those of the table. DEDUCED, log 53. -/
def recordOk : Bool :=
  Config.ownerAccepts (Config.flash.take 128) ((Config.flash.drop 128).take 64) &&
    Config.flash.take 6 == [0x49#8, 0x58#8, 0x43#8, 0x46#8, 1#8, 0#8]
/-- R453-R455: what the root of trust has done at a start. -/
def rootOfTrust (fresh : Nat) : Mgmt :=
  let seed := Config.pufSeed fresh
  let m := { Mgmt.init with
    ready := BitVec.ofNat 64 ((if seed.isSome then 2 ^ 58 else 0) + if recordOk then 0 else 2 ^ 59)
    seed := seed
    blocks := (List.range 8).map fun i => Config.sha512 (Config.firmware (i + 1)) }
  if recordOk then
    { m with enable := flashAt 6 % 16, plainHost := flashAt 6 / 16 % 2 == 1, proposed := (flashAt 8 + 256 * flashAt 9) % 1024 }
  else m
/-- R5, R6: the Interchange leaves reset. The counter of free values goes on. -/
def execReset (s : State) : Host.Outcome State Fault Refusal :=
  .next { State.reset with agenda := [], mgmt := rootOfTrust s.fresh, fresh := s.fresh + 1 }

/-! ## Readiness -/

def readyBit (s : State) (n : Nat) : Bool := s.mgmt.ready.getLsbD n
def setReady (s : State) (n : Nat) (v : Bool) : State := updMgmt s fun m => { m with ready := setBit m.ready n v }
def updPort (s : State) (p : Nat) (f : Port → Port) : State :=
  updDom s fun d => { d with ports := mapPut d.ports p (f (mapGet Port.init d.ports p)) }
/-- R457: the clock that PWRSTAT shows for a District. -/
def setClock (s : State) (d n : Nat) : State :=
  updMgmt s fun m =>
    let w := m.pwrstat.toNat
    { m with pwrstat := BitVec.ofNat 64 (w % 2 ^ (12 * d) + n * 2 ^ (12 * d) + w / 2 ^ (12 * d + 12) * 2 ^ (12 * d + 12)) }
/-- R457: a District starts on a clock within the range, a free value. DESIGN CHOICE, log 54. -/
def startClock (s : State) (d : Nat) : State := setClock { s with fresh := s.fresh + 1 } d (1650 + Config.choice s.fresh % 1651)
/-- R452, R453, R456: whether a function may become ready: with a bad record only management and the host port, a District
with its enable bit and its three stacks. -/
def mayBeReady (s : State) (n : Nat) : Bool :=
  24 ≤ n && n ≤ 57 && (n ≤ 25 || !readyBit s 59) &&
    (!(42 ≤ n && n ≤ 45) || (s.mgmt.enable.testBit (n - 42) && (List.range 3).all fun i => readyBit s (46 + 3 * (n - 42) + i)))
def execFunctionReady (bit : Nat) (s : State) : Host.Outcome State Fault Refusal :=
  .next (if mayBeReady s bit && !readyBit s bit then
      let s1 := setReady s bit true
      if 26 ≤ bit && bit ≤ 41 then updPort s1 (bit - 26) fun _ => { Port.init with up := true }
      else if 42 ≤ bit && bit ≤ 45 then startClock s1 (bit - 42) else s1
    else s)
/-- R452: a function that is no District fails. -/
def execFunctionFailure (bit : Nat) (s : State) : Host.Outcome State Fault Refusal :=
  .next (if 24 ≤ bit && bit ≤ 57 && !(42 ≤ bit && bit ≤ 45) then
      let s1 := setReady s bit false
      if 26 ≤ bit && bit ≤ 41 then updPort s1 (bit - 26) fun p => { p with up := false } else s1
    else s)
/-- R456: the contexts that hold a block of a District. -/
def holdersOf (s : State) (d : Nat) : List Nat :=
  (s.ctxs.filter fun x => (blocksOf s x.1).any (fun b => distOfBlk b == d) ||
    ((x.2.saved.map fun v => v.hubs.any fun h => distOfBlk h.1 == d).getD false)).map (·.1)
def execDistrictFailure (d : Nat) (s : State) : Host.Outcome State Fault Refusal :=
  .next (if d < 4 && readyBit s (42 + d) then
      ((holdersOf s d).filter fun c => (getCtx s c).st != .tornDown).foldl teardown (setClock (setReady s (42 + d) false) d 0) else s)

/-! ## Power (R457) -/

def execPwrlimWrite (v : Word) (s : State) : Host.Outcome State Fault Refusal :=
  let n := v.toNat % 4096
  .next (if 1500 ≤ n && n ≤ 3000 then updMgmt s fun m => { m with pwrlim := BitVec.ofNat 64 n } else s)
/-- A District's clock in MHz, moved by a step down or up within its range. -/
def newClock (s : State) (d step : Nat) (down : Bool) : Nat :=
  let old := s.mgmt.pwrstat.toNat / 2 ^ (12 * d) % 4096
  if !readyBit s (42 + d) then 0 else if down then max 1650 (old - step) else min 3300 (max 1650 old + step)
/-- Each 1 ms: where the package would draw more than the limit, every ready District's clock goes down by the same step and the
power stays at or below the limit; else the clocks go up by one step. Draw, step and power are free. DESIGN CHOICE, log 54. -/
def powerWindow (s : State) : State :=
  let limit := s.mgmt.pwrlim.toNat
  let draw := Config.power s.fresh % 65536
  let step := Config.choice (s.fresh + 1) % 1650 + 1
  let down := limit < draw
  let power := if down then Config.choice (s.fresh + 2) % (limit + 1) else draw
  let stat := (List.range 4).foldl (fun n d => n + newClock s d step down * 2 ^ (12 * d)) (power * 2 ^ 48)
  updMgmt { s with fresh := s.fresh + 3 } fun m => { m with pwrstat := BitVec.ofNat 64 stat, clockWindow := s.dtime }
def execPowerWindow (s : State) : Host.Outcome State Fault Refusal :=
  .next (if s.mgmt.clockWindow + 1000000 ≤ s.dtime then powerWindow s else s)

/-! ## Debugger (R321, R460) and error log (R461) -/

/-- A store that names an absent strand has no effect: a slot is empty, or its strand's image is still on its way (R168, R170). -/
def debugged (s : State) (ctx sid : Nat) (f : Slot → State) : Host.Outcome State Fault Refusal :=
  let sl := getSlot s sid
  .next (if sl.st != .empty && sl.s.ctx == ctx && sl != movingSlot ctx sl.moved then f sl else s)
/-- R321. The spec gives its trapinfo no value: a free value. DESIGN CHOICE, log 55. -/
def stopInfo (s : State) : Word := (Config.openValue s.fresh).setWidth 64
def execDbgStop (ctx sid : Nat) (s : State) : Host.Outcome State Fault Refusal :=
  debugged s ctx sid fun sl => if sl.st == .ready || sl.st == .parked || sl.st == .member then
    stopSoon { s with fresh := s.fresh + 1 } sid 13 (stopInfo s) else s
def execDbgRelease (ctx sid : Nat) (s : State) : Host.Outcome State Fault Refusal :=
  debugged s ctx sid fun sl => if sl.st == .halted then releaseRoot s sid else s
def execDbgHold (ctx sid : Nat) (s : State) : Host.Outcome State Fault Refusal :=
  debugged s ctx sid fun sl => if sl.st == .halted then updStrand s sid fun t => { t with held := true } else s

/-- R461: an error of one of the three sources of the table. -/
def execErrlogCapture (src pa : Nat) (s : State) : Host.Outcome State Fault Refusal :=
  .next (if 1 ≤ src && src ≤ 3 then captureError s src pa else s)
def execErrlogClear (s : State) : Host.Outcome State Fault Refusal := .next (clearErrlog s)

/-- R67: a store to a device register takes effect. -/
def execRegisterWrite (core ctx off : Nat) (v : Word) (s : State) : Host.Outcome State Fault Refusal :=
  .next (if regMapped off && (!regPriv off || ctx == 0) then writeRegister s core ctx off v else s)

end Sys2Proof.Machine
end

