-- ==== Sys2Proof/Machine/Links.lean ====
section
/-! DEFINITION. The links: the host port with its mailbox (R421, R422), SPDM at its two ends (R423, R436), and chip-link flits
(R425, R427-R429). The bytes of SPDM messages that the spec leaves to its reference are in notes/assumptions/13.md. -/

namespace Sys2Proof.Machine
open Sys2Proof

/-! ## Memory requests of the host (R298, R365, R376, R421, R422, R453) -/

/-- R422, R453: whether the port takes a memory request; any other completes with Unsupported Request. -/
def tlpAccepted (s : State) (t : Tlp) : Bool :=
  readyBit s 25 && !readyBit s 59 && (if s.mgmt.ideSecure then t.ide else s.mgmt.plainHost)
/-- R422: the answer to a request of the host, by its tag. -/
def complete (s : State) (tag : Nat) (v : Option (List Byte)) : State := updMgmt s fun m => { m with completion := some (tag, v) }
/-- R365: a byte of the submission window. -/
def putWindow (s : State) (a : Nat) (b : Byte) : State :=
  if a % 0x2000 < 0x1000 then
    updMgmt s fun m => { m with window := mapPut m.window (a / 0x2000) (mapPut (mapGet [] m.window (a / 0x2000)) (a % 0x2000) b) }
  else s
def windowByte (s : State) (a : Nat) : Byte :=
  if a % 0x2000 < 0x1000 then mapGet 0 (mapGet [] s.mgmt.window (a / 0x2000)) (a % 0x2000) else 0
/-- R365: the submission slots whose word 31 a write covers and makes a record's arrival. -/
def arrivedSlots (off : Nat) (bs : List Byte) : List (Nat × Nat) :=
  ((List.range bs.length).filter fun i => (off + i) % 0x2000 < 0x1000 && (off + i) % 256 == 248 && i + 8 ≤ bs.length &&
    pay bs i 8 == 2 ^ 63).map fun i => ((off + i) / 0x2000, (off + i) % 0x2000 / 256)
/-- R365, R376: a write to the submission window. Its cancel register takes a write of its eight bytes. -/
def writeWindow (s : State) (off : Nat) (bs : List Byte) : State :=
  let s1 := (List.range bs.length).foldl (fun z i => putWindow z (off + i) (bs.getD i 0)) s
  let s2 := (arrivedSlots off bs).reverse.foldl (fun z e => soon z (.hostSubmission e.1 e.2)) s1
  if off % 0x2000 == 0x1000 && bs.length == 8 then soonCancel s2 (off / 0x2000) (BitVec.ofNat 64 (bytesNat bs)) else s2
/-- R421: a memory request is well formed: it lies in a page of 4 KiB, and a write has at most 512 bytes. -/
def tlpShape (t : Tlp) : Bool :=
  0 < t.len && t.offset % 4096 + t.len ≤ 4096 && t.data.all fun bs => bs.length == t.len && decide (t.len ≤ 512)
/-- R67, R421: the request names one device register. DEDUCED, log 79. -/
def tlpRegister (t : Tlp) : Bool := t.len == 8 && t.offset % 8 == 0 && t.offset < 0x10000 && regMapped t.offset
/-- R298, R365, R421: a read. The submission window reads as written, its cancel registers as zero; a device register reads as context 0 sees
it. A read of neither BAR is one of device memory: it enters the network as the host's own source. How such an address reaches memory is
open: DESIGN CHOICE, log 79. -/
def hostRead (s : State) (t : Tlp) : State :=
  if !tlpAccepted s t || !tlpShape t then complete s t.tag none
  else if t.bar == 0 then
    complete s t.tag (if t.offset < 0x80000 then some ((List.range t.len).map fun i => windowByte s (t.offset + i)) else none)
  else if t.bar == 2 then
    complete s t.tag (if tlpRegister t then some (natBytes 8 (readRegister s 0 0 t.offset).toNat) else none)
  else match physOf s t.offset with
    | .dev d =>
      if t.offset % 64 + t.len ≤ 64 then
        (sendPkt s .host (.quay d (quayOf (localPa t.offset))) 0 0 0 (.load (localPa t.offset) t.len 0 0xFFFF (.g 0)) none none
          (BitVec.ofNat 64 t.tag)).2
      else complete s t.tag none
    | _ => complete s t.tag none
/-- R365, R376, R421: a write, which is posted: one that the port does not take has no effect. -/
def hostWrite (s : State) (t : Tlp) (bs : List Byte) : State :=
  if !tlpAccepted s t || !tlpShape t then s
  else if t.bar == 0 && t.offset < 0x80000 then writeWindow s t.offset bs
  else if t.bar == 2 && tlpRegister t then writeRegister s 0 0 t.offset (BitVec.ofNat 64 (bytesNat bs))
  else s

/-! ## SPDM (R423, R436). The responder's phases: 1 version, 2 capabilities, 3 algorithms, 4 keys exchanged, 5 established. The
requester's: 10 version, 11 capabilities, 12 algorithms, 13 digests, 14 certificate, 15 measurements and 16 key exchange asked, then
4 and 5. -/

def sessionOf (s : State) (n : Nat) : Session :=
  (s.dom.sessions.find? fun x => x.id == n).getD { id := n, phase := 0, secret := [], reply := [], drawn := [], peer := [] }
def setSession (s : State) (x : Session) : State :=
  updDom s fun d => { d with sessions := x :: d.sessions.filter fun y => y.id != x.id }
def dropSession (s : State) (n : Nat) : State := updDom s fun d => { d with sessions := d.sessions.filter fun y => y.id != n }

/-- An SPDM message to a member, in parts of kind 5 with a code of log 12: 8 a request, 9 a reply. -/
def sendSpdm (s : State) (m code : Nat) (bs : List Byte) : State :=
  (plazaParts bs.length bs).foldl (fun z p => sendEscape z m 5 (BitVec.ofNat 8 code :: p)) s
/-- R421: a data object of the mailbox: vendor, type, length in words of four bytes, contents. PRESUMED, log 79. -/
def doeObject (kind : Nat) (bs : List Byte) : List Byte :=
  natBytes 2 1 ++ natBytes 2 kind ++ natBytes 4 (2 + (bs.length + 3) / 4) ++ fixLen ((bs.length + 3) / 4 * 4) bs
/-- What the secure session of the host covers beside a message. -/
def doeHeader : List Byte := natBytes 4 0
/-- R421, R436: an SPDM answer goes back to its asker: to the host by the mailbox, sealed in a secure session, or to a member. -/
def deliverReply (s : State) (x : Session) (bs : List Byte) : State :=
  let obj := if x.phase < 4 then doeObject 1 bs
    else doeObject 2 (doeHeader ++ fixLen (bs.length + 16) (Config.ciphertext x.secret doeHeader bs))
  if x.id != 0 then sendSpdm s (x.id - 1) 9 bs else updMgmt s fun m => { m with doeOut := obj }

/-- ERROR with a code. -/
def spdmError (s : State) (n code : Nat) : State :=
  let x := sessionOf s n
  let e : List Byte := [0x7F, BitVec.ofNat 8 code]
  setSession (deliverReply s x e) { x with reply := e }
/-- R454: without an identity every request is answered with ERROR; one out of its phase is unexpected. -/
def spdm (r : SpdmReq) (need : Nat) (f : Session → List Byte → State) (s : State) : Host.Outcome State Fault Refusal :=
  .next (match s.mgmt.seed with
    | none => spdmError s r.session 5
    | some seed =>
      let x := sessionOf s r.session
      if need ≤ x.phase && x.phase < 10 then f x seed else spdmError s r.session 4)
/-- The responder's answer, which goes before the session comes as far as it says. DESIGN CHOICE, log 13. -/
def answerSpdm (s : State) (x : Session) (phase : Nat) (code : Byte) (body : List Byte) : State :=
  setSession (deliverReply s (sessionOf s x.id) (code :: body)) { x with phase := phase, reply := code :: body }

/-- R423: a session begins anew. -/
def execGetVersion (r : SpdmReq) (s : State) : Host.Outcome State Fault Refusal :=
  spdm r 0 (fun _ _ => let s1 := dropSession s r.session
    answerSpdm s1 (sessionOf s1 r.session) 1 0x04 [0x13]) s
def execGetCapabilities (r : SpdmReq) (s : State) : Host.Outcome State Fault Refusal :=
  spdm r 1 (fun x _ => answerSpdm s x 2 0x61 []) s
/-- R423: bit 0 of each category says that the table's algorithm is offered. -/
def offersAll (r : SpdmReq) : Bool :=
  r.asym.testBit 0 && r.hash.testBit 0 && r.dhe.testBit 0 && r.aead.testBit 0 && r.sched.testBit 0
def execNegotiateAlgorithms (r : SpdmReq) (s : State) : Host.Outcome State Fault Refusal :=
  spdm r 2 (fun x _ => if offersAll r then answerSpdm s x 3 0x63 [1, 1, 1, 1, 1] else dropSession (spdmError s r.session 7) r.session) s
def execGetDigests (r : SpdmReq) (s : State) : Host.Outcome State Fault Refusal :=
  spdm r 3 (fun x seed => answerSpdm s x x.phase 0x01 (Config.sha512 (Config.chain (Config.publicKey seed)))) s
/-- R423: only slot 0 is provisioned. -/
def execGetCertificate (r : SpdmReq) (s : State) : Host.Outcome State Fault Refusal :=
  spdm r 3 (fun x seed => if (r.body.getD 0 0).toNat % 16 == 0 then answerSpdm s x x.phase 0x02 (Config.chain (Config.publicKey seed))
    else spdmError s r.session 1) s
/-- R455: the measurement blocks, 64 bytes each. -/
def ownBlocks (s : State) : List Byte := s.mgmt.blocks.flatMap (fixLen 64)
def signed (seed bs : List Byte) : List Byte := fixLen 64 (Config.sign seed bs)
/-- R423, R455: the measurement blocks, signed with the slot-0 key over them and the request. -/
def execGetMeasurements (r : SpdmReq) (s : State) : Host.Outcome State Fault Refusal :=
  spdm r 3 (fun x seed => answerSpdm s x x.phase 0x60 (ownBlocks s ++ signed seed (ownBlocks s ++ r.body))) s
/-- R423, R436: the responder draws its half; both shares are signed. -/
def execKeyExchange (r : SpdmReq) (s : State) : Host.Outcome State Fault Refusal :=
  spdm r 3 (fun x seed =>
    let half := Config.drawn s.fresh
    let theirs := fixLen 96 r.body
    let mine := fixLen 96 (Config.share half)
    answerSpdm { s with fresh := s.fresh + 1 } { x with secret := Config.agreed half theirs, drawn := theirs ++ mine } 4 0x64
      (mine ++ signed seed (theirs ++ mine))) s

/-- R455: a peer's digest of its measurement blocks equals an entry of the policy table; an all-zero entry is unused. -/
def policyAccepts (s : State) (digest : List Byte) : Bool :=
  digest.length == 64 && digest.any (· != 0) && (List.range 64).any fun i => readBytes s.mgmt.policy (64 * i) 64 == digest
/-- R436: a peer's chain and measurements pass, and its leaf key has signed them with what the session has exchanged. -/
def peerPasses (s : State) (chain blocks sig extra : List Byte) : Bool :=
  Config.chainAccepts chain && Config.verify (Config.leafKey chain) (blocks ++ extra) sig && policyAccepts s (fixLen 64 (Config.sha512 blocks))
/-- R436: what a joiner's FINISH proves of it: its chain, its measurement blocks and their signature, after the 64 bytes that prove the keys. -/
def finishPasses (s : State) (x : Session) (body : List Byte) : Bool :=
  let n := pay body 64 2
  let chain := (body.drop 66).take n
  let rest := body.drop (66 + n)
  peerPasses s chain (rest.take 512) ((rest.drop 512).take 64) x.drawn
/-- R436: session 0 is the host's; session m + 1 that of a joining member m, which proves itself in FINISH. A failed check ends the
session. -/
def execFinish (r : SpdmReq) (s : State) : Host.Outcome State Fault Refusal :=
  spdm r 4 (fun x _ =>
    if r.body.take 64 != fixLen 64 (Config.finishMac x.secret) || (r.session != 0 && !finishPasses s x r.body) then
      dropSession (spdmError s r.session 6) r.session
    else answerSpdm s x 5 0x65 []) s

/-- R421, R422: IDE_KM in the host's secure session: KEY_PROG gives the key, K_SET_GO makes the stream Secure, K_SET_STOP
ends that. -/
def execIdeKm (r : SpdmReq) (s : State) : Host.Outcome State Fault Refusal :=
  let x := sessionOf s 0
  .next (if r.session != 0 || x.phase != 5 then spdmError s r.session 4
    else match (r.body.getD 0 0).toNat with
      | 2 => deliverReply (updMgmt s fun m => { m with ideKey := (r.body.drop 1).take 32, ideSecure := false }) x [0xFE, 3]
      | 4 => deliverReply (updMgmt s fun m => { m with ideSecure := m.ideKey.length == 32 }) x [0xFE, 6]
      | 5 => deliverReply (updMgmt s fun m => { m with ideSecure := false }) x [0xFE, 6]
      | _ => spdmError s 0 1)

/-- R423, R436: a whole request reaches the responder, by its code; it is taken up next. -/
def spdmRequest (s : State) (n : Nat) (bs : List Byte) : State :=
  let b := bs.drop 1
  let r : SpdmReq := { session := n, asym := pay b 0 1, hash := pay b 1 1, dhe := pay b 2 1, aead := pay b 3 1, sched := pay b 4 1, body := b }
  match pay bs 0 1 with
  | 0x84 => soon s (.getVersion r)
  | 0xE1 => soon s (.getCapabilities r)
  | 0xE3 => soon s (.negotiateAlgorithms r)
  | 0x81 => soon s (.getDigests r)
  | 0x82 => soon s (.getCertificate r)
  | 0xE0 => soon s (.getMeasurements r)
  | 0xE4 => soon s (.keyExchange r)
  | 0xE5 => soon s (.finish r)
  | 0xFE => soon s (.ideKm r)
  | _ => spdmError s n 7

/-! ## Configuration space and the mailbox (R421, R422). Where the capability stands, and its layout: PRESUMED, log 79 -/

/-- R421: DOE Discovery: the type with an index, and the next index. -/
def doeDiscovery (i : Nat) : List Byte :=
  if 3 ≤ i then natBytes 2 0xFFFF ++ natBytes 2 0 else natBytes 2 1 ++ natBytes 1 i ++ natBytes 1 ((i + 1) % 3)
/-- R421: an object of Secured CMA/SPDM: opened with the session's secret. One that does not open is in error. -/
def doeSecured (s : State) (body : List Byte) : State :=
  let x := sessionOf s 0
  match (if x.phase == 4 || x.phase == 5 then Config.opened x.secret (body.take 4) (body.drop 4) else none) with
  | some bs => spdmRequest s 0 bs
  | none => updMgmt s fun m => { m with doeBad := true }
/-- R421: the object in the mailbox is whole. FINISH and IDE_KM belong in a secure session. -/
def doeGo (s0 : State) : State :=
  let obj := s0.mgmt.doeIn
  let body := obj.drop 8
  let s := updMgmt s0 fun m => { m with doeIn := [], doeOut := [] }
  let bad := updMgmt s fun m => { m with doeBad := true }
  if pay obj 0 2 != 1 || obj.length != 4 * (pay obj 4 4 % 2 ^ 18) then bad
  else match pay obj 2 1 with
    | 0 => updMgmt s fun m => { m with doeOut := doeObject 0 (doeDiscovery (pay body 0 1)) }
    | 1 => if pay body 0 1 == 0xE5 || pay body 0 1 == 0xFE then spdmError s 0 4 else spdmRequest s 0 body
    | 2 => doeSecured s body
    | _ => bad
/-- R421: a word of configuration space. -/
def cfgRead (s : State) (a : Nat) : List Byte :=
  match a with
  | 0x100 => natBytes 4 0x0001002E
  | 0x104 => natBytes 4 0
  | 0x108 => natBytes 4 0
  | 0x10C => natBytes 4 ((if s.mgmt.doeBad then 4 else 0) + if s.mgmt.doeOut.isEmpty then 0 else 2 ^ 31)
  | 0x110 => natBytes 4 0
  | 0x114 => fixLen 4 s.mgmt.doeOut
  | _ => (List.range 4).map fun i => (mapFind s.mgmt.config (a + i)).getD (Config.cfgByte (a + i))
def cfgWrite (s : State) (a : Nat) (bs : List Byte) : State :=
  match a with
  | 0x100 => s
  | 0x104 => s
  | 0x108 =>
    if (pay bs 0 4).testBit 0 then updMgmt s fun m => { m with doeIn := [], doeOut := [], doeBad := false }
    else if (pay bs 0 4).testBit 31 then doeGo s else s
  | 0x10C => s
  | 0x110 => updMgmt s fun m => { m with doeIn := m.doeIn ++ fixLen 4 bs }
  | 0x114 => updMgmt s fun m => { m with doeOut := m.doeOut.drop 4 }
  | _ => updMgmt s fun m => { m with config := writeLe m.config a 4 (pay bs 0 4) }
/-- R422: an access to configuration space is always taken. -/
def hostConfig (s : State) (t : Tlp) : State :=
  if t.len != 4 || t.offset % 4 != 0 || 4096 ≤ t.offset then complete s t.tag none
  else match t.data with
    | none => complete s t.tag (some (cfgRead s t.offset))
    | some bs => complete (cfgWrite s t.offset bs) t.tag (some [])
/-- R421, R422: what comes at the host port. -/
def execHostTlpReceive (t : Tlp) (s : State) : Host.Outcome State Fault Refusal :=
  .next (match t.kind, t.data with
    | 0, none => hostRead s t
    | 0, some bs => hostWrite s t bs
    | 1, _ => hostConfig s t
    | _, d => hostCompletion s t.tag d)

/-! ## Flits (R427-R429) -/

/-- R427: the 252 bytes under a flit's CRC. -/
def flitBytes (f : Flit) : List Byte :=
  natBytes 4 (f.lseq % 1024 * 2 ^ 22 + f.cls % 8 * 2 ^ 19 + f.kind % 4 * 2 ^ 17 + f.start % 512 * 2 ^ 8) ++ f.data
def flitCrc (f : Flit) : BitVec 32 := Config.crc32 0x04C11DB7 (flitBytes f)
def sealFlit (f : Flit) : Flit := { f with crc := flitCrc f }

/-- R428: an ack frees every flit up to the one it names. -/
def freeFlits (y : Port) (fs : List Flit) : Port := { y with replay := y.replay.drop fs.length }
def ackPort (s : State) (p lseq : Nat) : State :=
  let x := getPort s p
  if x.replay.any fun f => f.lseq == lseq then
    updPort s p fun y => { freeFlits y (y.replay.take ((y.replay.takeWhile fun f => f.lseq != lseq).length + 1)) with tries := 0 }
  else s
/-- R428, R429: the routes of a port that is down move to ports that are up; which, is open. DESIGN CHOICE, log 1. -/
def moveRoutes (s : State) (p : Nat) : State :=
  let ups := (List.range 16).filter fun q => q != p && (getPort s q).up
  let pick := fun (m : Nat) => ups[Config.choice (s.fresh + m) % ups.length]?
  updMgmt { s with fresh := s.fresh + 1024 } fun x => { x with routes := x.routes.map fun (e : Nat × Byte) =>
    if e.2.toNat == 128 + p then (e.1, match pick e.1 with | some q => BitVec.ofNat 8 (128 + q) | none => e.2) else e }
/-- R428: a port goes down; the packets in it are lost. -/
def portDown (s : State) (p : Nat) : State :=
  moveRoutes (setReady (updPort s p fun x => { Port.init with next := x.next, expect := x.expect }) (26 + p) false) p
/-- R428: a nak frees what comes before the flit it names, and every flit from there goes again, in order; a flit whose 16th replay fails
takes the port down. -/
def nakPort (s : State) (p lseq : Nat) : State :=
  let x := getPort s p
  match x.replay.head? with
  | none => s
  | some f =>
    if !(x.replay.any fun g => g.lseq == lseq) then s
    else
      let n := if f.lseq == lseq then x.tries + 1 else 1
      if 16 < n then portDown s p
      else updPort s p fun y =>
        let z := freeFlits y (y.replay.takeWhile fun g => g.lseq != lseq)
        { z with tries := n, wire := z.wire ++ z.replay }

/-- R428: a link ack (kind 1) or nak (kind 2), which names a flit by its lseq. The class of such a flit is open: DESIGN CHOICE,
log 57. -/
def controlFlit (kind lseq : Nat) : Flit :=
  sealFlit { lseq := lseq % 1024, cls := 6, kind := kind, start := 0x1FF, data := List.replicate 248 0, crc := 0 }
def sendNak (y : Port) : Port := { y with naked := true, wire := y.wire ++ [controlFlit 2 y.expect] }

/-- R430: a packet as its bytes on a link say. -/
def packetOf (bs : List Byte) : FabPkt :=
  { dst := pay bs 0 2 % 1024, src := pay bs 2 2 % 1024, gen := pay bs 4 2, cls := pay bs 6 1, kind := pay bs 7 1, seq := pay bs 8 8
    ctx := pay bs 16 1 % 64, colour := (pay bs 16 1).testBit 6, hops := pay bs 17 1
    rsvd := pay bs 0 2 / 1024 + pay bs 2 2 / 1024 * 64 + pay bs 16 1 / 128 * 4096 + pay bs 20 12 * 8192
    payload := (bs.drop 32).take (pay bs 18 2 + 16) }
/-- R427, R430: the packets that have come whole, what is left of the next, and how many were none: a header of zeros is padding, and a
length above 512 that of no packet. DEDUCED, log 57. -/
def takePkts : Nat → List Byte → List FabPkt × List Byte × Nat
  | 0, bs => ([], bs, 0)
  | n + 1, bs =>
    if bs.length < 32 then ([], bs, 0)
    else if (bs.take 32).all (· == 0) then ([], [], 0)
    else if 512 < pay bs 18 2 then ([], [], 1)
    else if bs.length < pay bs 18 2 + 48 then ([], bs, 0)
    else
      let (ps, left, bad) := takePkts n (bs.drop (pay bs 18 2 + 48))
      (packetOf (bs.take (pay bs 18 2 + 48)) :: ps, left, bad)
/-- R427: the bytes of a class that wait at a port, with those of a flit. What stands before the first packet that begins in it completes the
one before. -/
def joinData (x : Port) (f : Flit) : List Byte :=
  let old := mapGet [] x.inb f.cls
  if old.isEmpty || f.start == 4 then (if f.start == 0x1FF then [] else f.data.drop (f.start - 4)) else old ++ f.data
def countReplay (s : State) : State := updDom s fun d => { d with replays := d.replays + 1 }
/-- R429: a packet is for this device, and is taken up, or waits at its port to go on with one hop less; at zero it is dropped. -/
def takePacket (s : State) (port : Nat) (p : FabPkt) : State :=
  if p.dst == ownId s then { s with agenda := s.agenda ++ [.event (.fabricPacketArrival p)] }
  else if p.hops ≤ 1 then s
  else updPort s port fun y => { y with onward := y.onward ++ [{ p with hops := p.hops - 1 }] }
/-- R427, R428: a data flit is accepted, and its packets are taken out; with the 32nd since the last one an ack goes, which names it. -/
def acceptFlit (s : State) (port : Nat) (f : Flit) : State :=
  let x := getPort s port
  let bs := joinData x f
  let (ps, left, bad) := takePkts bs.length bs
  let s1 := updPort s port fun y => { y with
    expect := (y.expect + 1) % 1024, naked := false, inb := mapSet [] y.inb f.cls left
    unacked := if y.unacked + 1 < 32 then y.unacked + 1 else 0
    wire := if y.unacked + 1 < 32 then y.wire else y.wire ++ [controlFlit 1 y.expect] }
  ps.foldl (fun z p => takePacket z port p) (if bad == 0 then s1 else countReplay s1)

/-- R428: a flit that is damaged or out of order is discarded with one nak, which names the one expected; a data flit in order is
accepted. -/
def flitArrives (s : State) (p : Nat) (f : Flit) : State :=
  let x := getPort s p
  if !x.up then s
  else if flitCrc f != f.crc then updPort s p sendNak
  else if f.kind == 1 then ackPort s p f.lseq
  else if f.kind == 2 then nakPort s p f.lseq
  else if f.kind == 3 || 6 ≤ f.cls then s
  else if f.lseq != x.expect then (if x.naked then s else updPort s p sendNak)
  else acceptFlit s p f
def execChiplinkFlitReceive (port : Nat) (f : Flit) (s : State) : Host.Outcome State Fault Refusal :=
  .next (if port < 16 then flitArrives s port f else s)
def execLinkAck (port lseq : Nat) (s : State) : Host.Outcome State Fault Refusal :=
  .next (if (getPort s port).up then ackPort s port lseq else s)
def execLinkNak (port lseq : Nat) (s : State) : Host.Outcome State Fault Refusal :=
  .next (if (getPort s port).up then nakPort s port lseq else s)

/-! ## Packing (R424, R425, R427, R428) -/

/-- R430: a sealed packet's bytes on a link. -/
def packetBytes (p : FabPkt) : List Byte := headerBytes p p.hops (p.payload.length - 16) ++ p.payload
/-- Whether a fabric packet carries a contribution of a collective, and so uses what collectives have reserved (R385). -/
def ofReserved (p : FabPkt) : Bool := p.kind == 4 && p.cls < 4
/-- The packets that have a port go to it, in their order. -/
def leaveOutbox (s : State) : State :=
  let gone := s.dom.outbox.filter fun p => (portOf s p.dst).isSome
  gone.foldl (fun z p => match portOf z p.dst with
    | some q => updPort z q fun y => { y with
        out := mapPut y.out p.cls (mapGet [] y.out p.cls ++ [{ first := true, own := ofReserved p, bytes := packetBytes p }]) }
    | none => z) (updDom s fun d => { d with outbox := d.outbox.filter fun p => (portOf s p.dst).isNone })
/-- R425, R429: of each class, the first packet that waits at a port to go on does so once nothing of its class waits at the port
before it. -/
def drainOnward (s : State) (port : Nat) : State :=
  (List.range 6).foldl (fun z c => match (getPort z port).onward.find? fun p => p.cls == c with
    | some p => (match portOf z p.dst with
      | some q => if (mapGet [] (getPort z q).out c).isEmpty && !(z.dom.outbox.any fun o => o.cls == c && portOf z o.dst == some q) then
          updDom (updPort z port fun y => { y with onward := delFirst (fun o => o == p) y.onward }) fun d => { d with outbox := d.outbox ++ [p] }
        else z
      | none => z)
    | none => z) s

/-- R427: as many bytes of what waits as a flit has room for, where the first packet that begins among them begins, and what is left. -/
def fillFlit : Nat → List Piece → List Byte × Option Nat × List Piece
  | _, [] => ([], none, [])
  | room, p :: ps =>
    let here := if p.first then some (252 - room) else none
    if room = 0 then ([], none, p :: ps)
    else if p.bytes.length ≤ room then
      let (bs, at0, rest) := fillFlit (room - p.bytes.length) ps
      (p.bytes ++ bs, here <|> at0, rest)
    else (p.bytes.take room, here, { p with first := false, bytes := p.bytes.drop room } :: ps)
/-- R424, R425, R428: the classes of which a flit may leave by a port: something waits, fewer than 512 flits are outstanding, and the class
has allowance. -/
def sendable (s : State) (port : Nat) : List Nat :=
  let x := getPort s port
  if !x.up || 512 ≤ x.replay.length then []
  else (List.range 6).filter fun c => match mapGet [] x.out c with
    | [] => false
    | p :: _ => 1 ≤ portAllowance s port c p.own
/-- R425, R427: a flit of a class leaves, and uses allowance until the far end has drained it; it is filled up with zeros only where
nothing more waits. -/
def sendFlit (s : State) (port c : Nat) : State :=
  updPort s port fun y =>
    let (bs, at0, rest) := fillFlit 248 (mapGet [] y.out c)
    let f := sealFlit { lseq := y.next % 1024, cls := c, kind := 0, start := at0.getD 0x1FF, data := fixLen 248 bs, crc := 0 }
    { y with next := (y.next + 1) % 1024, out := mapSet [] y.out c rest, replay := y.replay ++ [f], wire := y.wire ++ [f]
             far := mapSet 0 y.far c (mapGet 0 y.far c + 1) }
/-- R425: of the flits of each class that have gone to the far end's buffer, some leave it. How many, is open: DESIGN CHOICE, log 68. -/
def drainFar (s : State) (port : Nat) : State :=
  let left := fun (e : Nat × Nat) => e.2 - (Config.choice s.fresh + e.1) % (e.2 + 1)
  updPort { s with fresh := s.fresh + 1 } port fun y => { y with
    far := (y.far.map fun e => (e.1, left e)).filter fun e => e.2 != 0 }
/-- R424, R425, R427, R428: what a port does in a cycle. Of which class a flit goes, is open: DESIGN CHOICE, log 57. -/
def tickPort (s0 : State) (port : Nat) : State :=
  let s := drainOnward (drainFar s0 port) port
  match (sendable s port)[Config.choice s.fresh % (sendable s port).length]? with
  | some c => sendFlit { s with fresh := s.fresh + 1 } port c
  | none => s
/-- The flits of the cycle before are on their way; then each port does what it can. -/
def packOut (s : State) : State :=
  let s1 := updDom s fun d => { d with ports := d.ports.map fun (e : Nat × Port) => (e.1, { e.2 with wire := [] }) }
  (s1.dom.ports.map (·.1)).foldl tickPort (leaveOutbox s1)

end Sys2Proof.Machine
end

