-- ==== Sys2Proof/Machine/Domain.lean ====
section
/-! DEFINITION. The trust domain (R435-R443): commands, joining, the re-key barrier, lost members, election (R389), settled
accesses (R441) and time. Messages of kind 5 between members have the layout of notes/assumptions/12.md. -/

namespace Sys2Proof.Machine
open Sys2Proof

def me (s : State) : Nat := s.dom.member
def others (s : State) (ms : List Nat) : List Nat := ms.filter fun m => m != me s
/-- R379, R436: whether this device is the active Plaza of a domain. -/
def isPlaza (s : State) : Bool := s.dom.state != 0 && s.dom.plaza == me s
/-- R435: a command that the domain's state does not accept. -/
def refuse (s : State) : State := updMgmt s fun m => { m with refusedBit := true }
/-- Members as a bit map of 128 bytes, and back. -/
def memberMap (ms : List Nat) : List Byte := natBytes 128 (ms.foldl (fun n m => if n.testBit m then n else n + 2 ^ m) 0)
def mapMembers (bs : List Byte) : List Nat := let n := bytesNat bs; (List.range 1024).filter n.testBit

/-! ## Groups and a change of membership (R380, R388) -/

/-- R380: groups with an entry on a member are losing it. -/
def loseMember (s : State) (m : Nat) : State :=
  updPlaza s fun z => { z with groups := z.groups.map fun g =>
    if g.state == 0 && g.entries.any (fun e => entMember e == m) then { g with state := 1 } else g }
/-- R31, R379: the device takes a member id; the groups of its own blocks and engine are its own still. DESIGN CHOICE, log 72. -/
def takeMember (s : State) (m : Nat) : State :=
  let old := s.dom.member
  let own := fun (e : Nat) => if entMember e == old then e % 2 ^ 16 + m * 2 ^ 16 + e / 2 ^ 26 * 2 ^ 26 else e
  updPlaza (updDom s fun d => { d with member := m }) fun z => { z with groups := z.groups.map fun g =>
    { g with entries := g.entries.map own, plaza := if g.plaza == old then m else g.plaza } }
/-- R379: a group's record, for a device that has none. -/
def groupRecord (g : Group) : List Byte :=
  16 :: natBytes 2 g.gid ++ natBytes 1 g.ctx ++ natBytes 1 g.state ++ natBytes 1 g.lost ++ natBytes 8 g.tickets ++
    natBytes 2 g.plaza ++ g.entries.flatMap (natBytes 4)
/-- R379: a new member hears from the active Plaza of every group of the domain. -/
def tellRecords (s : State) (m : Nat) : State :=
  (s.plaza.groups.filter fun g => !localList s g.entries).foldl (fun z g => sendPlaza z m (groupRecord g)) s
/-- R389: the groups that live on have a new home; it hears again who has nothing left of a group that is gone, of a bare ticket
that is wanted, and of the groups that are wanted. -/
def newHome (s : State) (p : Nat) : State :=
  let s1 := updPlaza s fun z => { z with groups := z.groups.map fun g => if localList s g.entries then g else { g with plaza := p } }
  if p == s.dom.member then s1
  else
    let s2 := (s1.plaza.groups.filter fun g => g.plaza == p && g.clear.contains s.dom.member).foldl
      (fun z g => sendPlaza z p (13 :: natBytes 2 g.gid)) s1
    let s3 := if s2.plaza.bare then sendPlaza s2 p (natBytes 1 7) else s2
    s3.plaza.asked.foldl (fun z a => sendPlaza z p (askMessage a.2.2.1 a.2.2.2)) s3
/-- R388: a collective ticketed to this device includes a member. -/
def owesTo (s : State) (m : Nat) : Bool :=
  s.plaza.posts.any fun p => p.state != 0 && ((s.plaza.groups.find? fun g => g.gid == p.gid).map fun g =>
    g.entries.any fun e => entMember e == m).getD false

/-! ## The barrier (R440) -/

/-- A message of kind 5 to a member, by its code. DESIGN CHOICE, log 12. -/
def sendRekey (s : State) (m code : Nat) (bs : List Byte) : State := sendEscape s m 5 (BitVec.ofNat 8 code :: bs)
/-- A barrier is open. -/
def rekeying (d : Dom) : Bool := d.gen < newGen d
/-- R440: this member has moved every stream it sends to a surviving member, its collectives with leaving members have
ended, and the time of one that joins is right. -/
def mayArrive (s : State) : Bool :=
  let d := s.dom
  (d.state == 1 || d.state == 3) && rekeying d && !d.arrived.contains d.member &&
    (d.barrier.contains d.member || d.leaving.contains d.member) &&
    ((others s d.barrier).all fun m => let x := getStream s m; x.gen == newGen d || x.shadow.isEmpty) &&
    !(d.leaving.any (owesTo s)) && (d.near || d.gen != 0 || d.plaza == d.member)
/-- R440, R389: a member's arrival, with its highest domain sequence, is counted at the Plaza. -/
def arrivalAt (s : State) (m top : Nat) : State :=
  updPlaza (updDom s fun d => { d with arrived := (m :: d.arrived).eraseDups }) fun z => { z with domSeq := max z.domSeq top }
/-- R440: everyone the barrier waits for has arrived. -/
def barrierFull (s : State) : Bool :=
  let d := s.dom
  rekeying d && !(d.barrier ++ d.leaving).isEmpty && (d.barrier ++ d.leaving).all d.arrived.contains
def tryClose (s : State) : State := if isPlaza s && barrierFull s then soon s .rekeyClose else s
/-- This member tells the Plaza that it has arrived. -/
def sendArrival (s : State) : State := sendRekey s s.dom.plaza 1 (natBytes 2 (newGen s.dom) ++ natBytes 4 s.plaza.topDom)
/-- R440, R442: a member arrives; from then on its time changes by its rate only. -/
def arriveSelf (s : State) : State :=
  if !mayArrive s then s
  else
    let s1 := updDom s fun d => { d with aligned := true }
    if isPlaza s then tryClose (arrivalAt s1 (me s) s.plaza.topDom)
    else sendArrival (updDom s1 fun d => { d with arrived := me s :: d.arrived })

/-- R440 step 1: the new member list and secret are installed; waiting packets may move. -/
def installKeys (s : State) (gen : Nat) (members leaving : List Nat) (secret : List Byte) : State :=
  let s1 := updDom s fun d => { d with
    secrets := (gen, fixLen 64 secret) :: d.secrets.filter fun e => e.1 != gen
    barrier := members, leaving := leaving, arrived := [], state := if d.state == 1 then 1 else 3 }
  let s2 := (s.dom.members.filter fun m => !members.contains m || leaving.contains m).foldl loseMember s1
  arriveSelf ((others s2 members).foldl pumpStream s2)
/-- R437, R440: the list of the open barrier and its secret, to one member inside its SPDM session. -/
def sendList (s : State) (m : Nat) : State :=
  let g := newGen s.dom
  sendRekey s m 0 (natBytes 2 g ++ memberMap s.dom.barrier ++ memberMap s.dom.leaving ++
    ((s.dom.secrets.find? fun e => e.1 == g).map (·.2)).getD [])
/-- R440: the Plaza opens a barrier for the next generation. A change while one is open joins the next one. -/
def startRekey (s : State) : State :=
  let d := s.dom
  if !isPlaza s || rekeying d then s
  else
    let g := d.gen + 1
    let leaving := d.leaving.filter fun m => !d.next.contains m
    let s1 := installKeys { s with fresh := s.fresh + 1 } g d.next leaving (Config.secret (s.fresh + g))
    (others s (d.next ++ leaving)).foldl sendList s1
def execRekeyStart (s : State) : Host.Outcome State Fault Refusal := .next (startRekey s)
/-- R438: a change of membership at the Plaza. -/
def changeTo (s : State) (next : List Nat) : State :=
  soon (updDom s fun d => { d with next := next, state := if d.state == 1 then 1 else 3 }) .rekeyStart

/-- R440: a member receives the list and the secret of the next generation. -/
def rekeyMessage (s : State) (gen : Nat) (members leaving : List Nat) (secret : List Byte) : State :=
  if s.dom.state != 0 && newGen s.dom < gen && (members ++ leaving).contains (me s) then installKeys s gen members leaving secret
  else s
def execRekeyMessageArrives (gen : Nat) (members : List Nat) (secret : List Byte) (s : State) : Host.Outcome State Fault Refusal :=
  .next (rekeyMessage s gen members [] secret)
/-- R440: a member arrives. -/
def rekeyArrival (s : State) (m top : Nat) : State :=
  if m == me s then arriveSelf s
  else if isPlaza s && (s.dom.barrier ++ s.dom.leaving).contains m then tryClose (arrivalAt s m top) else s
def execRekeyArrive (m : Nat) (s : State) : Host.Outcome State Fault Refusal := .next (rekeyArrival s m 0)

/-! ## Close (R388, R389, R438, R440, R441) -/

/-- R441: the issuer of an access that is lost halts with class 12, wherever it is; an engine's job enters state 3. -/
def settlePkt (s : State) (m : Nat) (p : Pkt) : State :=
  let bad := (12, BitVec.ofNat 64 m)
  match p.src, p.body with
  | .engine _ _, _ => badPkt s p bad.1 bad.2
  | _, .copyWord _ _ _ _ => landCopy s { p with bad := some bad }
  | _, _ => trapUid (countRecv (delPkt s p.k) p) p.uid bad.1 bad.2
/-- R441: every access outstanding to a lost member is settled, and its stream and session are gone. Messages of the barrier still leave. -/
def settleLost (s : State) (m : Nat) : State :=
  let s1 := (s.net.filter fun p => p.home == .member m && p.st != .performed).foldl (fun z p => settlePkt z m p) s
  dropSession (updDom s1 fun d => { d with
    streams := mapDel d.streams m
    outbox := d.outbox.filter fun p => p.dst != m || p.src != d.member || p.kind == 5 }) (m + 1)

/-- R387: a collective runs on though members are gone: each of them has its contribution merged and its result written. -/
def spared (s : State) (gone : List Nat) (g : Group) (k : Nat) : Bool :=
  (s.plaza.posts.find? fun p => p.gid == g.gid && p.k == k).any fun p => (findPartial s g.gid k).any fun q =>
    (List.range g.entries.length).all fun m => !gone.contains (entMember (g.entries.getD m 0)) ||
      (q.wrote.contains m && (!contributes p.cmd m || q.parts.any fun e => e.1 == m))
/-- The numbers of a group's collectives that are open, as this device knows. -/
def openNumbers (s : State) (gid : Nat) : List Nat :=
  ((s.plaza.posts.filter fun p => p.gid == gid).map (·.k)) ++
    (((s.plaza.pending ++ s.plaza.complete).filter fun p => p.gid == gid).map (·.k))
/-- R380, R387, R388: the groups with an entry on a member that has gone end; owners take class 12 where it failed. -/
def loseGroups (s : State) (gone failed : List Nat) : State :=
  (s.plaza.groups.filter fun g => g.state != 2 && g.entries.any fun e => gone.contains (entMember e)).foldl (fun z g =>
    let traps := (g.entries.any fun e => failed.contains (entMember e)) && !(openNumbers z g.gid).all (spared z gone g)
    let z1 := if traps then relayTrap (trapOwners z g 12 none) g 12 else z
    groupGone z1 g.gid 5 (spared z1 gone g)) s

/-- R438: this device stands alone: generation 0, no fabric mapping, and its groups are gone. DEDUCED, log 58. -/
def standAlone (s : State) : State :=
  let s1 := (others s (s.dom.members ++ s.dom.barrier).eraseDups).foldl settleLost s
  let s2 := loseGroups s1 s.dom.members []
  let s3 := updDom { s2 with tlb := s2.tlb.filter fun e => !e.pa.testBit 54 || e.pa.testBit 55 } fun d => { d with
    member := 0, members := [0], next := [0], plaza := 0, state := 0, gen := 0, secrets := [], barrier := [], leaving := [],
    arrived := [], elected := false, streams := [], heard := [], readyOf := [], near := false, ahead := 0
    timed := if d.aligned then s.dtime else 0, sessions := d.sessions.filter fun x => x.id == 0 }
  let s4 := updPlaza s3 fun z => { z with
    groups := z.groups.map fun g => { g with plaza := 0 }, pending := [], complete := [], turned := false }
  s4.plaza.groups.foldl (fun z g => settleGone z g.gid) s4
/-- R438, R440: the barrier closes at a member that stays. -/
def stayIn (s : State) : State :=
  let d := s.dom
  let gone := d.members.filter fun m => !d.barrier.contains m
  let joined := d.barrier.filter fun m => !d.members.contains m
  let s1 := gone.foldl settleLost s
  let s2 := loseGroups s1 gone (gone.filter fun m => !d.leaving.contains m)
  let plaza := if d.barrier.contains d.plaza then d.plaza else (d.barrier.min?).getD d.member
  let s3 := updDom s2 fun y => { y with
    members := d.barrier, plaza := plaza, state := 2, gen := newGen d
    heard := if plaza == d.plaza then d.heard else d.barrier.map fun m => (m, s.dtime)
    next := if d.plaza == d.member then d.next else d.barrier
    secrets := d.secrets.filter fun e => e.1 == newGen d
    barrier := [], leaving := d.leaving.filter fun m => d.barrier.contains m && !d.next.contains m
    arrived := [], elected := false }
  let s4 := (others s3 d.barrier).foldl pumpStream s3
  let s5 := if d.elected || plaza != d.plaza then
      reoffer (updPlaza (newHome s4 plaza) fun z => { z with posts := z.posts.map fun p =>
        if p.state == 0 then { p with offered := false } else p })
    else s4
  if plaza != d.member then s5
  else
    let s6 := (others s5 joined).foldl tellRecords s5
    if s6.dom.next != d.barrier then soon s6 .rekeyStart else s6
def closeBarrier (s : State) : State := if s.dom.barrier.contains s.dom.member then stayIn s else standAlone s
/-- R438, R440: the Plaza's word that a barrier has closed, with its domain sequence, from which a new Plaza goes on (R389), and the members
that it keeps. A member that was not told of the generation has been evicted. -/
def closeArrives (s : State) (gen top : Nat) (keep : List Nat) : State :=
  if s.dom.state == 0 || !(rekeying s.dom || newGen s.dom < gen) || gen < newGen s.dom then s
  else if gen == newGen s.dom then
    closeBarrier (updPlaza (updDom s fun d => { d with barrier := keep }) fun z => { z with domSeq := max z.domSeq top })
  else standAlone s
/-- The Plaza's word of the close. -/
def sendClose (s : State) (gen : Nat) (keep : List Nat) (m : Nat) : State :=
  sendRekey s m 2 (natBytes 2 gen ++ natBytes 4 s.plaza.domSeq ++ memberMap keep)
/-- R440: the Plaza tells everyone that the barrier has closed. -/
def plazaClose (s : State) : State :=
  let d := s.dom
  let told := others s ((d.barrier ++ d.leaving ++ d.members).eraseDups)
  closeBarrier (told.foldl (fun z m => sendClose z (newGen d) d.barrier m) s)
def execRekeyClose (s : State) : Host.Outcome State Fault Refusal :=
  .next (if isPlaza s then (if barrierFull s then plazaClose s else s)
    else if s.dom.state != 0 && rekeying s.dom && s.dom.arrived.contains (me s) then closeBarrier s else s)

/-! ## Joining (R435, R436, R438, R454) -/

/-- A command the state accepts, on a device with an identity; else the refused bit. -/
def domCmd (s : State) (ok : Bool) (f : State) : Host.Outcome State Fault Refusal :=
  .next (if ok && s.mgmt.seed.isSome then f else refuse s)
def alone (s : State) : Bool := s.dom.state == 0
/-- R436, R438: the device becomes the domain's first member and active Plaza; the barrier of generation 1 opens. -/
def execDomForm (m : Nat) (s : State) : Host.Outcome State Fault Refusal :=
  domCmd s (alone s) (soon (updDom (takeMember s m) fun d => { d with
    members := [m], next := [m], plaza := m, state := 1, aligned := true, joining := none }) .rekeyStart)
/-- R436: the joiner asks the responder something, and how far its session has come then. -/
def askSpdm (s : State) (plaza : Nat) (x : Session) (phase : Nat) (code : Byte) (body : List Byte) : State :=
  sendSpdm (setSession s { x with phase := phase }) plaza 8 (code :: body)
/-- R429, R436: the Plaza to ask must have a valid route. The session begins. -/
def startJoin (s : State) (m plaza : Nat) : State :=
  let s1 := dropSession (updDom s fun d => { d with joining := some (plaza, m), streams := mapDel d.streams plaza }) (plaza + 1)
  askSpdm s1 plaza (sessionOf s1 (plaza + 1)) 10 0x84 []
def execDomJoin (m plaza : Nat) (s : State) : Host.Outcome State Fault Refusal :=
  domCmd s (alone s && (portOf s plaza).isSome) (startJoin s m plaza)
/-- R436: the joiner ends its session and stays alone. -/
def endJoin (s : State) (plaza : Nat) : State := dropSession (updDom s fun d => { d with joining := none }) (plaza + 1)
/-- R436: the joiner's FINISH: what proves the keys, its chain, its measurement blocks, and their signature with the shares. -/
def finishBody (s : State) (secret shares seed : List Byte) : List Byte :=
  let chain := Config.chain (Config.publicKey seed)
  fixLen 64 (Config.finishMac secret) ++ natBytes 2 chain.length ++ chain ++ ownBlocks s ++ signed seed (ownBlocks s ++ shares)
/-- R436: the joiner's next request, if the answer to the last one is good. -/
def joinStep (s : State) (plaza m : Nat) (x : Session) (code : Nat) (body : List Byte) : Option State :=
  let next := { s with fresh := s.fresh + 1 }
  match x.phase, code with
  | 10, 0x04 => some (askSpdm s plaza x 11 0xE1 [])
  | 11, 0x61 => some (askSpdm s plaza x 12 0xE3 [1, 1, 1, 1, 1])
  | 12, 0x63 => if body == [1, 1, 1, 1, 1] then some (askSpdm s plaza x 13 0x81 []) else none
  | 13, 0x01 => some (askSpdm s plaza { x with drawn := body } 14 0x82 [0])
  | 14, 0x02 =>
    let nonce := fixLen 32 (Config.drawn s.fresh)
    if Config.sha512 body == x.drawn then some (askSpdm next plaza { x with peer := body, drawn := nonce } 15 0xE0 nonce) else none
  | 15, 0x60 =>
    if peerPasses s x.peer (body.take 512) ((body.drop 512).take 64) x.drawn then
      some (askSpdm next plaza { x with drawn := Config.drawn s.fresh } 16 0xE4 (fixLen 96 (Config.share (Config.drawn s.fresh))))
    else none
  | 16, 0x64 =>
    let shares := fixLen 96 (Config.share x.drawn) ++ fixLen 96 body
    let secret := Config.agreed x.drawn (fixLen 96 body)
    if Config.verify (Config.leafKey x.peer) shares ((body.drop 96).take 64) then
      s.mgmt.seed.map fun seed => askSpdm s plaza { x with secret := secret } 4 0xE5 (finishBody s secret shares seed)
    else none
  | 4, 0x65 => some (sendRekey (setSession s { x with phase := 5 }) plaza 7 (natBytes 2 m))
  | _, _ => none
/-- R436: an answer of the responder; a check that fails ends the session. -/
def execSpdmResponseArrives (code : Nat) (body : List Byte) (s : State) : Host.Outcome State Fault Refusal :=
  .next (match s.dom.joining with
    | none => s
    | some (plaza, m) => (joinStep s plaza m (sessionOf s (plaza + 1)) code body).getD (endJoin s plaza))
/-- R438, R443: the Plaza has accepted this device. -/
def joinAccepted (s : State) (plaza m : Nat) : State :=
  updDom (takeMember s m) fun d => { d with
    joining := none, members := [m], next := [m], plaza := plaza, state := 3, near := false, heard := mapPut d.heard plaza s.dtime }
/-- R436: the Plaza's answer to the join request; a refusal sets refused. -/
def joinAnswered (s : State) (src : Nat) (ok : Bool) : State :=
  match s.dom.joining with
  | none => s
  | some (plaza, m) => if src != plaza then s else if ok then joinAccepted s plaza m else refuse (endJoin s plaza)
/-- R436: a join request, accepted by the active Plaza for an id not in use once its session is established. -/
def execJoinRequest (m : Nat) (s : State) : Host.Outcome State Fault Refusal :=
  .next (if isPlaza s && !(s.dom.members ++ s.dom.next ++ s.dom.barrier).contains m && (sessionOf s (m + 1)).phase == 5 then
      changeTo (updDom (sendRekey s m 10 [1]) fun d => { d with heard := mapPut d.heard m s.dtime }) (s.dom.next ++ [m])
    else if (s.dom.members ++ s.dom.next ++ s.dom.barrier).contains m then sendRekey s m 10 [0]
    else dropSession (sendRekey s m 10 [0]) (m + 1))

/-! ## Leaving (R438) -/

/-- R438: a member begins to leave. The Plaza opens the barrier. -/
def leaveMember (s : State) (m : Nat) : State :=
  if isPlaza s && s.dom.next.contains m then
    changeTo (updDom (loseMember s m) fun d => { d with leaving := (m :: d.leaving).eraseDups }) (s.dom.next.filter fun x => x != m)
  else s
def execDomLeave (s : State) : Host.Outcome State Fault Refusal :=
  domCmd s (!alone s)
    (if isPlaza s then leaveMember s (me s)
     else sendRekey (updDom s fun d => { d with state := 3, leaving := (me s :: d.leaving).eraseDups }) s.dom.plaza 3 [])
def evictMember (s : State) (m : Nat) : State :=
  if isPlaza s && s.dom.next.contains m then changeTo (loseMember s m) (s.dom.next.filter fun x => x != m) else s
def execDomEvict (m : Nat) (s : State) : Host.Outcome State Fault Refusal :=
  domCmd s (!alone s && s.dom.members.contains m && m != me s)
    (if isPlaza s then evictMember s m
     else sendRekey (updDom s fun d => { d with state := 3 }) s.dom.plaza 4 (natBytes 2 m))

/-! ## Heartbeats (R439) and election (R389) -/

def heardAt (s : State) (m : Nat) : Nat := mapGet 0 s.dom.heard m
/-- R439, R452: a heartbeat, which tells the others this device's READY word. DESIGN CHOICE, log 12. -/
def sendBeat (s : State) (m : Nat) : State := sendEscape s m 7 (natBytes 8 s.mgmt.ready.toNat)
/-- What a lost message of the barrier would have told is told again with each heartbeat: that a member has arrived, or begins to
leave; or, by the Plaza, the list. -/
def retell (s : State) : State :=
  if rekeying s.dom && s.dom.arrived.contains (me s) then sendArrival s
  else if s.dom.leaving.contains (me s) then sendRekey s s.dom.plaza 3 [] else s
def retellTo (s : State) (m : Nat) : State :=
  if rekeying s.dom && (s.dom.barrier ++ s.dom.leaving).contains m && !s.dom.arrived.contains m then sendList s m else s
/-- A member's heartbeat reaches the Plaza, which answers it; or the answer reaches a member; or this member sends its own. -/
def heartbeatOf (s : State) (m : Nat) : State :=
  if s.dom.state == 0 then s
  else if m == me s then
    if isPlaza s || s.dtime < s.dom.beat + 2000 then s
    else retell (sendBeat (updDom s fun d => { d with beat := s.dtime }) s.dom.plaza)
  else
    let s1 := updDom s fun d => { d with heard := mapPut d.heard m s.dtime }
    if isPlaza s then retellTo (sendBeat s1 m) m else s1
def execHeartbeat (m : Nat) (s : State) : Host.Outcome State Fault Refusal := .next (heartbeatOf s m)

/-- R440: a member that is lost during a barrier is removed from it. -/
def lostInBarrier (s : State) (m : Nat) : State :=
  if rekeying s.dom then
    updDom (loseMember s m) fun d => { d with barrier := d.barrier.filter fun x => x != m, leaving := d.leaving.filter fun x => x != m }
  else s
/-- R439, R440: 20 µs without its heartbeat. The others hear of one that is lost during a barrier. -/
def memberGone (s : State) (m : Nat) : State :=
  if isPlaza s && m != me s && (s.dom.members ++ s.dom.barrier).contains m && (s.dom.next ++ s.dom.leaving).contains m &&
      heardAt s m + 20000 ≤ s.dtime then
    let s1 := lostInBarrier (loseMember s m) m
    let told := if rekeying s.dom then others s1 (s1.dom.barrier ++ s1.dom.leaving) else []
    tryClose (changeTo (told.foldl (fun z x => sendRekey z x 5 (natBytes 2 m)) (updDom s1 fun d => { d with
      leaving := d.leaving.filter fun x => x != m })) (s.dom.next.filter fun x => x != m))
  else s
def execMemberLost (m : Nat) (s : State) : Host.Outcome State Fault Refusal := .next (memberGone s m)
/-- R389: the members that survive the active Plaza, as this one knows. -/
def survivors (d : Dom) : List Nat := d.members.filter fun m => m != d.plaza && (d.next ++ d.leaving).contains m
/-- R389: who is elected when the active Plaza fails: the surviving member with the lowest id. -/
def heir (d : Dom) : Nat := ((survivors d).min?).getD d.member
/-- R389, R439: the Plaza is lost: its barrier falls, and the heir is the new one. DEDUCED, log 60. -/
def elect (s : State) : State :=
  let d := s.dom
  let rest := survivors d
  updDom (loseMember s d.plaza) fun y => { y with
    plaza := heir d, next := rest.filter fun m => !d.leaving.contains m, state := 3, elected := true
    heard := rest.map fun m => (m, s.dtime)
    secrets := y.secrets.filter fun e => e.1 == y.gen, barrier := [], arrived := []
    leaving := d.leaving.filter rest.contains }
/-- A member that has not yet joined loses with the Plaza its way into the domain, and stands alone. -/
def plazaGone (s : State) : State :=
  let d := s.dom
  if d.state < 2 || isPlaza s || s.dtime < heardAt s d.plaza + 20000 then s
  else if d.gen == 0 then standAlone s
  else
    let s1 := elect s
    if heir d == d.member then soon (updPlaza s1 fun z => { z with domSeq := max z.domSeq z.topDom }) .rekeyStart else s1
def execPlazaLost (s : State) : Host.Outcome State Fault Refusal := .next (plazaGone s)

/-! ## Time (R442, R443) -/

/-- R442: by how much the rate may have moved the time since it was last corrected: 200 ppm. -/
def rateLimit (s : State) : Int := ((s.dtime - s.dom.timed) / 5000 : Nat)
/-- R442, R443: a joiner that is behind steps forward once, one that is ahead counts at half rate until it is right; else the rate
changes. DEDUCED, log 59. -/
def exchangeTime (s : State) (ref : Nat) : State :=
  let d := s.dom
  let diff := (ref : Int) - (s.dtime : Int)
  let mark := fun (z : State) (near : Bool) (ahead : Nat) => updDom z fun y => { y with near := near, ahead := ahead, timed := max 1 z.dtime }
  if d.aligned || (d.timed != 0 && d.ahead == 0) then
    let move := max (-(rateLimit s)) (min (rateLimit s) diff)
    mark { s with skew := s.skew + move } (decide (-2 ≤ diff - move ∧ diff - move ≤ 2)) 0
  else if d.timed == 0 && s.dtime < ref then
    mark { s with skew := s.skew + ((ref - s.dtime : Nat) : Int), dtime := ref } true 0
  else mark s (decide (-2 ≤ diff ∧ diff ≤ 2)) (if s.dtime ≤ ref + 2 then 0 else s.dtime - ref)
def execTimeExchange (ref : Nat) (s : State) : Host.Outcome State Fault Refusal :=
  .next (if s.dom.state == 0 || isPlaza s then s else exchangeTime s ref)

end Sys2Proof.Machine
end

