-- ==== Sys2Proof/Machine/Fabric.lean ====
section
/-! DEFINITION. Fabric packets as they arrive, sealed, and what they bring (R293, R294, R296, R429-R434): requests of other members,
replies, messages between Plazas (R261, R381-R389), the SPDM session (R436) and link control. Payload layouts are in
notes/assumptions/12.md. -/

namespace Sys2Proof.Machine
open Sys2Proof

/-! ## Acknowledgement and retransmission (R294, R432-R434) -/

/-- R432: whether a packet still takes room in the accept buffer of a source member and class: it stands at the Interchange, or in the drain
area of a context that is switched out. -/
def inAccept (s : State) (m c : Nat) (q : Pkt) : Bool :=
  q.src == .ichg && q.reply.map (·.1) == some m && linkClass s q == c
/-- R432: the bytes of a source member and class that the accept buffer holds. -/
def heldBytes (s : State) (m c : Nat) : Nat :=
  let here := s.net.filter fun q => inAccept s m c q && q.st == .flying && q.node == ichgNode && q.since.isNone
  let out := s.ctxs.flatMap fun x => ((x.2.saved.map (·.drained)).getD []).filter (inAccept s m c)
  ((here ++ out).map fun q => 48 + (requestPayload q).length).sum
/-- R432: what a source member holds of this device's allowance for a class, with what the buffer holds of it. -/
def takenBytes (s : State) (m c : Nat) : Nat := mapGet 560 (getStream s m).lent c + heldBytes s m c
/-- R432: what is left of a class's MiB once each source member has what it is guaranteed, or what it has taken. -/
def poolLeft (s : State) (c : Nat) : Nat :=
  2 ^ 20 - ((others s (s.dom.members ++ s.dom.barrier).eraseDups).map fun m => max 560 (takenBytes s m c)).sum
/-- R432: the allowance to grant a source member for a class, in units of 64 bytes: what it is guaranteed, and some of the pool. How
much of that, is open: DESIGN CHOICE, log 12. -/
def grantUnits (s : State) (m c : Nat) : Nat :=
  (560 - takenBytes s m c + 63) / 64 + Config.choice (s.fresh + c) % (poolLeft s c / 64 + 1)
/-- R434: an ack with the highest number accepted, none before the first, and a grant. -/
def sendAck (s : State) (m : Nat) : State :=
  let x := getStream s m
  let units := (List.range 5).map (grantUnits s m)
  let lend := fun (y : Stream) (c : Nat) => { y with lent := mapPut y.lent c (mapGet 560 y.lent c + 64 * units.getD c 0) }
  let s1 := updStream { s with fresh := s.fresh + 5 } m fun y => (List.range 5).foldl lend { y with unacked := 0 }
  sendEscape s1 m 2 (natBytes 8 (if x.expect = 0 then 2 ^ 64 - 1 else x.expect - 1) ++ units.flatMap (natBytes 2) ++ natBytes 2 x.rgen)
/-- R432: the allowance that a grant returns. -/
def takeGrant (s : State) (m grant : Nat) : State :=
  let give := fun (a : Map Nat) (c : Nat) => mapPut a c (mapGet 560 a c + 64 * (grant / 2 ^ (16 * c) % 65536))
  updStream s m fun y => { y with allowance := (List.range 5).foldl give y.allowance }
/-- R433, R434: an ack frees every packet up to its sequence and adds the allowance; packets that wait may go, of other streams too. -/
def ackStream (s : State) (m seq grant : Nat) : State :=
  let x := getStream s m
  let left := x.shadow.filter fun p => seq < p.seq
  let s1 := updStream (takeGrant s m grant) m fun y => { y with
    shadow := left, since := if left.length < x.shadow.length then s.dtime else y.since }
  arriveSelf (pumpAll s1)
/-- An ack as it comes: one of an older generation's stream, or one before the first packet, brings its grant only. -/
def ackComes (s : State) (m : Nat) (bs : List Byte) : State :=
  if pay bs 18 2 == (getStream s m).gen && pay bs 0 8 != 2 ^ 64 - 1 then ackStream s m (pay bs 0 8) (pay bs 8 10)
  else pumpAll (takeGrant s m (pay bs 8 10))
def execE2eAck (peer seq grant : Nat) (s : State) : Host.Outcome State Fault Refusal :=
  .next (if s.dom.state != 0 then ackStream s peer seq grant else s)
/-- R432: a class of a source member has less than it is guaranteed, since the buffer has drained after its last ack. -/
def owesGrant (s : State) (m : Nat) : Bool := (getStream s m).unacked == 0 && (List.range 5).any fun c => takenBytes s m c < 560
/-- R432, R434: 1 µs with an accepted packet unacknowledged, or a grant alone. -/
def ackDue (s : State) (m : Nat) : State :=
  let x := getStream s m
  if (0 < x.unacked && x.oldest + 1000 ≤ s.dtime) || owesGrant s m then sendAck s m else s
def execE2eAckTimer (peer : Nat) (s : State) : Host.Outcome State Fault Refusal := .next (ackDue s peer)
/-- R294: every unacknowledged packet from a number upward goes again, in order. -/
def resend (s : State) (m seq : Nat) : State :=
  updDom s fun d => { d with outbox := d.outbox ++ (getStream s m).shadow.filter fun p => seq ≤ p.seq }
def execRetransmissionRequest (peer seq : Nat) (s : State) : Host.Outcome State Fault Refusal := .next (resend s peer seq)
/-- R434: 20 µs with no progress. -/
def resendDue (s : State) (m : Nat) : State :=
  let x := getStream s m
  if !x.shadow.isEmpty && x.since + 20000 ≤ s.dtime then updStream (resend s m 0) m fun y => { y with since := s.dtime } else s
def execStreamResendTimeout (peer : Nat) (s : State) : Host.Outcome State Fault Refusal := .next (resendDue s peer)

/-! ## Requests and replies of other members (R293, R296) -/

/-- The access that a request's payload asks for, at a local address. -/
def askedBody (bs : List Byte) (a : Nat) : Body :=
  let n := pay bs 17 4
  match pay bs 0 1 with
  | 0 => .load a n 8 0xFFFF (.g 0)
  | 1 => .store a n (BitVec.ofNat 16 (pay bs 21 2)) (BitVec.ofNat 128 (pay bs 23 16))
  | _ => .atomic a n { op := 0x280 + pay bs 21 1 % 128, ty := pay bs 22 1, b := BitVec.ofNat 64 (pay bs 23 8),
                       d := BitVec.ofNat 64 (pay bs 31 8), dst := 0 }
/-- R70, R71, R342: a request enters the device toward its home, and counts as sent for its colour; one outside the device's memory is
refused. One for a context that is switched out waits (R339). -/
def serve (s : State) (p : FabPkt) : State :=
  let num := pay p.payload 1 8
  let a := pay p.payload 9 8
  match localDist s a with
  | none => enterStream s p.src (fabPacket s p.src 4 1 p.ctx p.colour (replyPayload num 0 0 (some (4, BitVec.ofNat 64 a))))
  | some d =>
    let s0 := updCtx s p.ctx fun x => { x with sent := countOne x.sent p.colour }
    let (k, s1) := sendPkt s0 .ichg (.quay d (quayOf a)) 0 0 p.ctx (askedBody p.payload a) none none (BitVec.ofNat 64 a)
    let s2 := updPkt s1 k fun q => { q with reply := some (p.src, num), colour := p.colour, limited := false }
    match (getCtx s p.ctx).saved, findPkt s2 k with
    | some _, some q => updCtx (delPkt s2 k) p.ctx fun x => { x with saved := x.saved.map fun v => { v with drained := v.drained ++ [q] } }
    | _, _ => s2
/-- R296: a reply reaches the access it answers. -/
def replied (s : State) (p : FabPkt) : State :=
  match findPkt s (pay p.payload 1 8) with
  | none => s
  | some q =>
    if q.home != .member p.src || q.st != .waiting then s
    else
      let cls := pay p.payload 0 1
      let info := BitVec.ofNat 64 (pay p.payload 9 8)
      let ans := pay p.payload 17 (p.payload.length - 17)
      match q.body with
      | .atomic _ _ o =>
        let s1 := countRecv (delPkt s q.k) q
        if cls == 0 then answerAtomic s1 q o ans (atomicNew o ans).2 else answerTrap s1 q.uid q.k cls info
      | _ => if cls == 0 then performed s q (BitVec.ofNat 512 ans) else badPkt s q cls info

/-! ## Messages between Plazas -/

/-- R387: the owner of a member enters or leaves the cordon; the home Plaza tells every member device. -/
def markMember (s : State) (gid m : Nat) (un : Bool) : State :=
  let s1 := updGroup s gid fun g => { g with marked := if un then g.marked.filter fun x => x != m else (m :: g.marked).eraseDups }
  match s1.plaza.groups.find? fun g => g.gid == gid with
  | some g => if g.plaza == me s then tellGroup s1 g (markMessage gid m un) else s1
  | none => s1
/-- R386: a contribution of another member's device. -/
def partArrives (s : State) (gid k m : Nat) (bs : List Byte) : State :=
  match s.plaza.posts.find? fun p => p.gid == gid && p.k == k with
  | some p =>
    let x := collSig p.cmd
    let n := collBytes x
    mergePart s gid k m x ((List.range (bs.length / n)).map fun i => pay bs (n * i) n)
  | none => s
/-- R380, R388: a group's context was torn down elsewhere; `k` is one more than the number of its first outstanding collective
there, or 0. -/
def groupTornDown (s : State) (gid k : Nat) : State :=
  match s.plaza.groups.find? fun g => g.gid == gid with
  | some g => if g.state == 2 then s else groupGone (relayTrap (trapOwners s g 11 (if k == 0 then none else some (k - 1))) g 11) gid 4 fun _ => false
  | none => s
/-- R388: the number of a lost group's first outstanding collective, which its home Plaza knows. -/
def trapTold (s : State) (gid cls k : Nat) : State :=
  match s.plaza.groups.find? fun g => g.gid == gid with
  | some g => trapOwners s g cls (some k)
  | none => s
/-- R379: the record of a group of the domain. -/
def recordArrives (s : State) (g : Group) : State :=
  if s.plaza.groups.any fun x => x.gid == g.gid then s else updPlaza s fun z => { z with groups := z.groups ++ [g] }
def entriesAt (bs : List Byte) (o : Nat) : List Nat := (List.range ((bs.length - o) / 4)).map fun i => pay bs (o + 4 * i) 4
/-- R382: the Plaza could not record a post. -/
def turnPost (s : State) (gid k m : Nat) : State :=
  let turn := fun (p : Post) => if p.gid == gid && p.k == k && p.member == m then { p with offered := false } else p
  updPlaza s fun z => { z with posts := z.posts.map turn }
/-- R387: a member of another device has its result. -/
def resultTold (s : State) (gid k m : Nat) : State :=
  if (findPartial s gid k).isSome then updPartial s gid k fun q => { q with wrote := (m :: q.wrote).eraseDups } else s
/-- R388, R440: a ticket that comes after this device has arrived at the barrier, for a group that loses a member, takes the arrival back. -/
def ticketTold (s : State) (gid k : Nat) (rank : Rank) : State :=
  let s1 := placeTicket s gid k rank
  if rekeying s1.dom && s1.dom.arrived.contains (me s) && s1.dom.leaving.any (owesTo s1) then
    let s2 := updDom s1 fun d => { d with arrived := d.arrived.filter fun m => m != me s }
    if isPlaza s then s2 else sendRekey s2 s.dom.plaza 6 (natBytes 2 (newGen s.dom))
  else s1
/-- A whole message of kind 4, by its first byte. DESIGN CHOICE, log 12. -/
def plazaMessage (s : State) (src : Nat) (bs : List Byte) : State :=
  match pay bs 0 1 with
  | 0 => groupRequested s src (pay bs 1 1) (entriesAt bs 2)
  | 1 => groupArrives s src (pay bs 1 1) (pay bs 2 2) (pay bs 4 1) (pay bs 5 1 == 1) (entriesAt bs 6)
  | 2 => postArrives s (pay bs 1 2) (pay bs 3 4) (pay bs 7 2)
      { op := pay bs 9 1, dtype := pay bs 10 1, root := pay bs 11 2, n := pay bs 13 5, bad := pay bs 18 1 == 1 }
  | 3 => ticketTold s (pay bs 1 2) (pay bs 3 4) { dom := pay bs 7 4, loc := pay bs 11 4 }
  | 4 => endHere s (pay bs 1 2) (pay bs 3 4) 4
  | 5 => markMember s (pay bs 1 2) (pay bs 3 2) (pay bs 5 1 == 1)
  | 6 => partArrives s (pay bs 1 2) (pay bs 3 4) (pay bs 7 2) (bs.drop 9)
  | 7 => bareRequested s src
  | 8 => bareArrives s (pay bs 1 4)
  | 9 => endHere s (pay bs 1 2) (pay bs 3 4) 4
  | 10 => groupTornDown s (pay bs 1 2) (pay bs 3 5)
  | 11 => reoffer s
  | 12 => turnPost s (pay bs 1 2) (pay bs 3 4) (pay bs 7 2)
  | 13 => groupCleared s (pay bs 1 2) src
  | 14 => dropGroup s (pay bs 1 2)
  | 15 => countTicket s (pay bs 1 2)
  | 16 => recordArrives s { gid := pay bs 1 2, ctx := pay bs 3 1, entries := entriesAt bs 16, state := pay bs 4 1, lost := pay bs 5 1,
                            owners := [], marked := [], posts := [], tickets := pay bs 6 8, plaza := pay bs 14 2, clear := [],
                            trapped := false }
  | 17 => trapTold s (pay bs 1 2) (pay bs 3 1) (pay bs 4 4)
  | 18 => tellCut s src (pay bs 1 1) (pay bs 2 1)
  | 19 => cutTold s src (pay bs 1 1) (pay bs 2 6) (pay bs 8 6)
  | 20 => resultTold s (pay bs 1 2) (pay bs 3 4) (pay bs 7 2)
  | _ => s
/-- The parts of a message are put together in the order of their stream. -/
def plazaPart (s : State) (src cls : Nat) (bs : List Byte) : State :=
  let all := mapGet [] (getStream s src).gather cls ++ bs.drop 1
  if pay bs 0 1 == 1 then plazaMessage (updStream s src fun x => { x with gather := mapDel x.gather cls }) src all
  else updStream s src fun x => { x with gather := mapPut x.gather cls all }

/-- R436: the parts of an SPDM message are put together: a request goes to the responder, a reply to the joiner. -/
def spdmPart (s : State) (src code : Nat) (bs : List Byte) : State :=
  let all := mapGet [] (getStream s src).gather code ++ bs.drop 1
  let s1 := updStream s src fun x => { x with gather := if pay bs 0 1 == 1 then mapDel x.gather code else mapPut x.gather code all }
  if pay bs 0 1 != 1 then s1
  else if code == 8 then spdmRequest s1 (src + 1) all
  else if s.dom.joining.map (·.1) == some src then soon s1 (.spdmResponseArrives (pay all 0 1) (all.drop 1)) else s1
/-- R389, R440: the list of a barrier comes from the Plaza, from the one that has accepted this device, or from one that has been elected. -/
def listArrives (s : State) (src gen : Nat) (members leaving : List Nat) (secret : List Byte) : State :=
  let s1 := match s.dom.joining with
    | some (p, m) => if p == src && (sessionOf s (p + 1)).phase == 5 then joinAccepted s p m else s
    | none => s
  if src == s1.dom.plaza then rekeyMessage s1 gen members leaving secret
  else if s1.dom.gen != 0 && src == heir s1.dom && newGen s1.dom < gen then rekeyMessage (elect s1) gen members leaving secret else s1
/-- R440: a member that has not heard of a close is told again. -/
def arrivalTold (s : State) (src gen top : Nat) : State :=
  if gen == newGen s.dom && rekeying s.dom then rekeyArrival s src top
  else if isPlaza s && gen == s.dom.gen && s.dom.members.contains src then sendClose s gen s.dom.members src else s
/-- R436, R437, R440: messages of kind 5, by their first byte. DESIGN CHOICE, log 12. -/
def rekeyPart (s : State) (src : Nat) (bs : List Byte) : State :=
  match pay bs 0 1 with
  | 0 => listArrives s src (pay bs 1 2) (mapMembers ((bs.drop 3).take 128)) (mapMembers ((bs.drop 131).take 128)) (bs.drop 259)
  | 1 => arrivalTold s src (pay bs 1 2) (pay bs 3 4)
  | 2 => if src == s.dom.plaza then closeArrives s (pay bs 1 2) (pay bs 3 4) (mapMembers ((bs.drop 7).take 128)) else s
  | 3 => leaveMember s src
  | 4 => if s.dom.members.contains src then evictMember s (pay bs 1 2) else s
  | 5 => if src == s.dom.plaza then arriveSelf (lostInBarrier s (pay bs 1 2)) else s
  | 6 => if pay bs 1 2 == newGen s.dom then updDom s fun d => { d with arrived := d.arrived.filter fun m => m != src } else s
  | 7 => soon s (.joinRequest src)
  | 8 => spdmPart s src 8 (bs.drop 1)
  | 9 => spdmPart s src 9 (bs.drop 1)
  | 10 => joinAnswered s src (pay bs 1 1 == 1)
  | _ => s

/-- R442: a time message. One that asks is answered at once with the times at which it came and the answer goes; an answer gives the
link's delay one way, and on the way to the Plaza the time to follow. DESIGN CHOICE, log 59. -/
def timeMessage (s : State) (src : Nat) (bs : List Byte) : State :=
  if pay bs 0 1 == 0 then sendEscape s src 6 (1 :: (bs.drop 1).take 9 ++ natBytes 8 s.dtime ++ natBytes 8 s.dtime)
  else
    let port := pay bs 1 1
    let delay := (s.dtime - pay bs 2 8 - (pay bs 18 8 - pay bs 10 8)) / 2
    let s1 := updPort s port fun y => { y with delay := delay }
    if s.dom.state == 0 || isPlaza s || portOf s s.dom.plaza != some port then s1 else exchangeTime s1 (pay bs 18 8 + delay)
/-- R439, R452: a heartbeat, with its sender's READY word. -/
def beatArrives (s : State) (src : Nat) (bs : List Byte) : State :=
  heartbeatOf (updDom s fun d => { d with readyOf := mapPut d.readyOf src (BitVec.ofNat 64 (pay bs 0 8)) }) src

/-! ## Arrival (R294, R429-R431) -/

/-- R430, R440: a packet from a peer this member has keys for: of the current generation, or of the next one while its barrier
is open. -/
def keyed (s : State) (p : FabPkt) : Bool :=
  let d := s.dom
  d.state != 0 && (d.members ++ d.barrier).contains p.src && (p.gen == d.gen || p.gen == newGen d)
/-- Messages of the barrier and of the SPDM session travel under that session's key. -/
def inSession (p : FabPkt) : Bool := p.kind == 5 && p.cls == 5
/-- R431: an escape packet must be newer than the last one. -/
def escapeArrives (s : State) (p : FabPkt) : State :=
  let x := getStream s p.src
  let newer := p.seq % 2 ^ 63 + 1
  if p.gen < x.regen || (p.gen == x.regen && newer ≤ x.escIn) then countReplay s
  else
    let s1 := updStream s p.src fun y => { y with escIn := newer, regen := p.gen }
    match p.kind with
    | 2 => ackComes s1 p.src p.payload
    | 3 => resend s1 p.src (pay p.payload 0 8)
    | 5 => rekeyPart s1 p.src p.payload
    | 6 => timeMessage s1 p.src p.payload
    | 7 => beatArrives s1 p.src p.payload
    | _ => s1
/-- R294: what an accepted packet brings. -/
def deliverFabric (s : State) (p : FabPkt) : State :=
  match p.kind with
  | 0 => serve s p
  | 1 => replied s p
  | 4 => plazaPart s p.src p.cls p.payload
  | _ => s
/-- R294: the three cases of a sequenced packet. -/
def sequencedArrives (s : State) (p : FabPkt) : State :=
  let x := getStream s p.src
  let expect := if p.gen == x.rgen then x.expect else 0
  if p.gen < x.rgen || p.seq < expect then countReplay s
  else if expect < p.seq then
    if x.asked == some expect && p.gen == x.rgen then s
    else
      let s1 := updStream s p.src fun y => { y with rgen := p.gen, expect := expect, asked := some expect }
      sendEscape (updDom s1 fun d => { d with retrans := d.retrans + 1 }) p.src 3 (natBytes 8 expect)
  else
    let s1 := updStream s p.src fun y => { y with
      rgen := p.gen, expect := expect + 1, asked := none
      unacked := y.unacked + 1, oldest := if y.unacked == 0 then s.dtime else y.oldest
      lent := mapPut y.lent p.cls (mapGet 560 y.lent p.cls - fabSize p) }
    let s2 := if (getStream s1 p.src).unacked < 256 then s1 else sendAck s1 p.src
    deliverFabric s2 p
/-- R429: a packet for another member goes on as it came with one hop less, and is dropped at zero. -/
def forward (s : State) (p : FabPkt) : State :=
  if p.hops ≤ 1 then s else updDom s fun d => { d with outbox := d.outbox ++ [{ p with hops := p.hops - 1 }] }
/-- R431, R436: the first message of the session of a device that is no member. It has no generation with this one, so that its counter
begins. DEDUCED, log 12. -/
def openStart (s : State) (p : FabPkt) : Option FabPkt :=
  if !inSession p || (s.dom.state != 0 && (s.dom.members ++ s.dom.barrier).contains p.src) || p.payload.length < 16 then none
  else (Config.opened [] (sealedWith p (p.payload.length - 16)) p.payload).bind fun bs =>
    if bs.take 3 == [8, 1, 0x84] then some { p with payload := bs } else none
def startArrives (s : State) (p : FabPkt) : State :=
  spdmPart (updStream s p.src fun y => { y with escIn := p.seq % 2 ^ 63 + 1, regen := p.gen }) p.src 8 (p.payload.drop 1)
/-- R430: one that is not whole is dropped and counted. -/
def openedArrives (s : State) (p : FabPkt) : State :=
  if inSession p then escapeArrives s p
  else if !keyed s p then countReplay s
  else if p.cls == 5 then escapeArrives s p
  else sequencedArrives s p
def fabricArrives (s : State) (p : FabPkt) : State :=
  if p.dst != ownId s then forward s p
  else if p.rsvd != 0 then countReplay s
  else match openStart s p with
    | some q => startArrives s q
    | none => ((openPkt s p).map (openedArrives s)).getD (countReplay s)
def execFabricPacketArrival (p : FabPkt) (s : State) : Host.Outcome State Fault Refusal := .next (fabricArrives s p)

end Sys2Proof.Machine
end

