-- ==== Sys2Proof/Machine/Scalar.lean ====
section
/-! DEFINITION. The scalar forms: integers (R136-R140), logic and shifts (R141), counts and fields (R142, R143), selection and
moves (R144, R145), comparison and predicates (R146, R147). -/

namespace Sys2Proof.Machine
open Sys2Proof

/-! ## Results -/

/-- R137: an exact result of two typed values, narrowed and extended. -/
def arith (t : Nat) (sat : Bool) (e : Int → Int → Int) (a b : Word) : Word :=
  intExtend t (intNarrow t sat (e (intValue t a.toNat) (intValue t b.toNat)))

/-- R141: a result on the w-bit patterns. -/
def bits2 (t : Nat) (f : Nat → Nat → Nat) (a b : Word) : Word :=
  let m := 2 ^ intWidth t
  intExtend t (f (a.toNat % m) (b.toNat % m) % m)

/-- R140: quotient and remainder. -/
def divInt (x y : Int) : Int := if y = 0 then -1 else x.tdiv y
def remInt (x y : Int) : Int := if y = 0 then x else x.tmod y

/-- R139: the upper half of a product. -/
def mulHigh (t : Nat) (x y : Int) : Int := x * y / (2 ^ intWidth t : Nat)

/-- The w-bit pattern read as a signed number. -/
def asSigned (w u : Nat) : Int := if 2 ^ (w - 1) ≤ u then (u : Int) - (2 ^ w : Nat) else u

/-- R141: the shifts; a count of w or more acts as w. -/
def shlVal (t : Nat) (sat : Bool) (a c : Word) : Word :=
  intExtend t (intNarrow t sat (intValue t a.toNat * (2 ^ min c.toNat (intWidth t) : Nat)))
def shrVal (t : Nat) (a c : Word) : Word :=
  let w := intWidth t
  intExtend t (a.toNat % 2 ^ w / 2 ^ min c.toNat w)
def sarVal (t : Nat) (a c : Word) : Word :=
  let w := intWidth t
  intExtend t (intNarrow t false (asSigned w (a.toNat % 2 ^ w) / (2 ^ min c.toNat w : Nat)))
def rotVal (t : Nat) (a c : Word) : Word :=
  let w := intWidth t
  let u := a.toNat % 2 ^ w
  let r := c.toNat % w
  intExtend t ((u * 2 ^ r + u / 2 ^ (w - r)) % 2 ^ w)

/-- R142: the counts. -/
def clzVal (t : Nat) (a : Word) : Word :=
  let w := intWidth t
  BitVec.ofNat 64 (w - bitLen (a.toNat % 2 ^ w))
def ctzVal (t : Nat) (a : Word) : Word :=
  let w := intWidth t
  BitVec.ofNat 64 (((List.range w).find? fun i => a.getLsbD i).getD w)
def popcVal (t : Nat) (a : Word) : Word :=
  BitVec.ofNat 64 ((List.range (intWidth t)).filter fun i => a.getLsbD i).length
def extVal (t : Nat) (a : Word) : Word := intExtend t (a.toNat % 2 ^ intWidth t)

/-- R143: the place and length of a field. -/
def fieldPos (b : Word) : Nat := b.toNat % 64
def fieldLen (b : Word) : Nat := min (b.toNat / 64 % 128) (64 - fieldPos b)
def bfxVal (t : Nat) (a b : Word) : Word :=
  let n := fieldLen b
  let f := a.toNat % 2 ^ intWidth t / 2 ^ fieldPos b % 2 ^ n
  intExtend t (intNarrow t false (if n ≠ 0 && intSigned t then asSigned n f else f))
def bfiVal (t : Nat) (d a b : Word) : Word :=
  let w := intWidth t
  let m : Word := BitVec.ofNat 64 ((2 ^ fieldLen b - 1) * 2 ^ fieldPos b % 2 ^ w)
  intExtend t (((d &&& ~~~ m) ||| ((a <<< fieldPos b) &&& m)).toNat % 2 ^ w)

/-- R146: whether a condition holds of two numbers. -/
def condHolds (c : Cond) (x y : Int) : Bool :=
  match c with
  | .eq => x == y
  | .ne => x != y
  | .lt => decide (x < y)
  | .le => decide (x ≤ y)
  | .gt => decide (y < x)
  | .ge => decide (y ≤ x)
def condNum (c : Cond) : Nat := match c with | .eq => 0 | .ne => 1 | .lt => 2 | .le => 3 | .gt => 4 | .ge => 5
def cmpVal (c : Cond) (t : Nat) (a b : Word) : BitVec 16 :=
  if condHolds c (intValue t a.toNat) (intValue t b.toNat) then 0xFFFF else 0

/-- A predicate operand. -/
def Opnds.ap (o : Opnds) : BitVec 16 := o.a.setWidth 16
def Opnds.bp (o : Opnds) : BitVec 16 := o.b.setWidth 16

/-- A form that only computes field d's predicate (R146, R147). -/
def computeP (x : Args) (f : Opnds → BitVec 16) : Body1 := fun s sid _ o =>
  .done (updStrand s sid fun t => writeP t (idxOf x.d) (f o))

/-! ## The forms -/

def execAdd (x : Args) (s : State) : Host.Outcome State Fault Refusal :=
  run 0x1 x (compute x fun o => arith (codeOf x.d) (satOf x) (· + ·) o.aw o.bw) s
def execSub (x : Args) (s : State) : Host.Outcome State Fault Refusal :=
  run 0x2 x (compute x fun o => arith (codeOf x.d) (satOf x) (· - ·) o.aw o.bw) s
def execMul (x : Args) (s : State) : Host.Outcome State Fault Refusal :=
  run 0x3 x (compute x fun o => arith (codeOf x.d) (satOf x) (· * ·) o.aw o.bw) s
def execMulh (x : Args) (s : State) : Host.Outcome State Fault Refusal :=
  run 0x4 x (compute x fun o => arith (codeOf x.d) false (mulHigh (codeOf x.d)) o.aw o.bw) s
def execDiv (x : Args) (s : State) : Host.Outcome State Fault Refusal :=
  run 0x5 x (compute x fun o => arith (codeOf x.d) false divInt o.aw o.bw) s
def execRem (x : Args) (s : State) : Host.Outcome State Fault Refusal :=
  run 0x6 x (compute x fun o => arith (codeOf x.d) false remInt o.aw o.bw) s
def execMin (x : Args) (s : State) : Host.Outcome State Fault Refusal :=
  run 0x7 x (compute x fun o => arith (codeOf x.d) false Min.min o.aw o.bw) s
def execMax (x : Args) (s : State) : Host.Outcome State Fault Refusal :=
  run 0x8 x (compute x fun o => arith (codeOf x.d) false Max.max o.aw o.bw) s
def execAbs (x : Args) (s : State) : Host.Outcome State Fault Refusal :=
  run 0x9 x (compute x fun o => arith (codeOf x.d) (satOf x) (fun v _ => v.natAbs) o.aw 0) s
def execNeg (x : Args) (s : State) : Host.Outcome State Fault Refusal :=
  run 0xA x (compute x fun o => arith (codeOf x.d) (satOf x) (fun v _ => -v) o.aw 0) s
def execAnd (x : Args) (s : State) : Host.Outcome State Fault Refusal :=
  run 0xB x (compute x fun o => bits2 (codeOf x.d) (· &&& ·) o.aw o.bw) s
def execOr (x : Args) (s : State) : Host.Outcome State Fault Refusal :=
  run 0xC x (compute x fun o => bits2 (codeOf x.d) (· ||| ·) o.aw o.bw) s
def execXor (x : Args) (s : State) : Host.Outcome State Fault Refusal :=
  run 0xD x (compute x fun o => bits2 (codeOf x.d) (· ^^^ ·) o.aw o.bw) s
def execAndn (x : Args) (s : State) : Host.Outcome State Fault Refusal :=
  run 0xE x (compute x fun o => bits2 (codeOf x.d) (· &&& ·) o.aw (~~~ o.bw)) s
def execShl (x : Args) (s : State) : Host.Outcome State Fault Refusal :=
  run 0xF x (compute x fun o => shlVal (codeOf x.d) (satOf x) o.aw o.bw) s
def execShr (x : Args) (s : State) : Host.Outcome State Fault Refusal :=
  run 0x10 x (compute x fun o => shrVal (codeOf x.d) o.aw o.bw) s
def execSar (x : Args) (s : State) : Host.Outcome State Fault Refusal :=
  run 0x11 x (compute x fun o => sarVal (codeOf x.d) o.aw o.bw) s
def execRot (x : Args) (s : State) : Host.Outcome State Fault Refusal :=
  run 0x12 x (compute x fun o => rotVal (codeOf x.d) o.aw o.bw) s
def execClz (x : Args) (s : State) : Host.Outcome State Fault Refusal :=
  run 0x13 x (compute x fun o => clzVal (codeOf x.d) o.aw) s
def execCtz (x : Args) (s : State) : Host.Outcome State Fault Refusal :=
  run 0x14 x (compute x fun o => ctzVal (codeOf x.d) o.aw) s
def execPopc (x : Args) (s : State) : Host.Outcome State Fault Refusal :=
  run 0x15 x (compute x fun o => popcVal (codeOf x.d) o.aw) s
def execExt (x : Args) (s : State) : Host.Outcome State Fault Refusal :=
  run 0x16 x (compute x fun o => extVal (codeOf x.d) o.aw) s
def execBfx (x : Args) (s : State) : Host.Outcome State Fault Refusal :=
  run 0x17 x (compute x fun o => bfxVal (codeOf x.d) o.aw o.bw) s
def execBfi (x : Args) (s : State) : Host.Outcome State Fault Refusal :=
  run 0x18 x (compute x fun o => bfiVal (codeOf x.d) o.dw o.aw o.bw) s
/-- R144: the predicate is named by field d's code. -/
def execSel (x : Args) (s : State) : Host.Outcome State Fault Refusal :=
  run 0x19 x (fun s sid t o => .done (setG s sid x.d (if (readP t (codeOf x.d)).getLsbD 0 then o.aw else o.bw))) s
def execMov (x : Args) (s : State) : Host.Outcome State Fault Refusal := run 0x1A x (compute x fun o => o.aw) s
def execMovw (x : Args) (s : State) : Host.Outcome State Fault Refusal := run 0x1B x (compute x fun o => o.aw) s
def execLea (x : Args) (s : State) : Host.Outcome State Fault Refusal := run 0x1C x (compute x fun o => o.aw + o.bw) s
def execCmp (c : Cond) (x : Args) (s : State) : Host.Outcome State Fault Refusal :=
  run (0x1D + condNum c) x (computeP x fun o => cmpVal c (codeOf x.d) o.aw o.bw) s
def execPand (x : Args) (s : State) : Host.Outcome State Fault Refusal := run 0x23 x (computeP x fun o => o.ap &&& o.bp) s
def execPor (x : Args) (s : State) : Host.Outcome State Fault Refusal := run 0x24 x (computeP x fun o => o.ap ||| o.bp) s
def execPxor (x : Args) (s : State) : Host.Outcome State Fault Refusal := run 0x25 x (computeP x fun o => o.ap ^^^ o.bp) s
def execPnot (x : Args) (s : State) : Host.Outcome State Fault Refusal := run 0x26 x (computeP x fun o => ~~~ o.ap) s

end Sys2Proof.Machine
end

