-- ==== Sys2Proof/Machine/Vector.lean ====
section
/-! DEFINITION. The vector, function and conversion forms (R172-R197). -/

namespace Sys2Proof.Machine
open Sys2Proof

/-! ## Lanes (R172, R173) -/

/-- Lane i of w bits. -/
def laneGet (w i : Nat) (v : Vec) : Nat := v.toNat / 2 ^ (w * i) % 2 ^ w
def laneSet (w i : Nat) (v : Vec) (u : Nat) : Vec :=
  (v &&& ~~~ BitVec.ofNat 128 ((2 ^ w - 1) * 2 ^ (w * i))) ||| BitVec.ofNat 128 (u % 2 ^ w * 2 ^ (w * i))

/-- R172: the mask bit that governs lane i is that of its lowest byte. -/
def laneOn (m : BitVec 16) (w i : Nat) : Bool := m.getLsbD (w * i / 8)

/-- R173: the unmasked lanes take their results and raise their flags; a masked lane is unchanged and raises none. -/
def lanewise (w n : Nat) (m : BitVec 16) (old : Vec) (f : Nat → FRes) : Vec × BitVec 5 :=
  (List.range n).foldl (fun (v, fl) i => if laneOn m w i then (laneSet w i v (f i).bits, fl ||| (f i).fl) else (v, fl)) (old, 0)

/-- R125: a source lane, its sign flipped where the operand is written with `-`. -/
def srcLane (o : Opd) (t : Nat) (v : Vec) (i : Nat) : Nat :=
  let w := elemBits t
  match o with
  | .reg r => if r.neg then laneGet w i v ^^^ 2 ^ (w - 1) else laneGet w i v
  | _ => laneGet w i v

/-- A form that writes a v register lane by lane. -/
def vecBody (x : Args) (w n : Nat) (f : Strand → Opnds → Nat → FRes) : Body1 := fun s sid t o =>
  let r := lanewise w n (laneMask t x) (readV t (idxOf x.d)) (f t o)
  .done (updStrand s sid fun z => raise (writeV z (idxOf x.d) r.1) r.2)

/-- A form on lanes of its type code: the lanes of va and vb. -/
def laneForm (x : Args) (f : Nat → Nat → Nat → FRes) : Body1 :=
  let t := codeOf x.d
  vecBody x (elemBits t) (lanesOf t) fun _ o i => f t (srcLane x.a t o.av i) (srcLane x.b t o.b i)

/-- A form on bytes (R184, R185, R187). -/
def byteForm (x : Args) (f : Vec → Vec → Nat → Nat) : Body1 := vecBody x 8 16 fun _ o i => ⟨f o.av o.b i, 0⟩

def noFlag (n : Nat) : FRes := ⟨n, 0⟩

/-- R177, R180: an arithmetic lane, integer or floating. -/
def arithLane (x : Args) (fi : Int → Int → Int) (ff : Fmt → Rnd → FVal → FVal → FRes) (t a b : Nat) : FRes :=
  if isFloat t then ff (fmtOf t) (rndOf (codeOf x.a)) (fpValue (fmtOf t) a) (fpValue (fmtOf t) b)
  else noFlag (intNarrow t (satOf x) (fi (intValue t a) (intValue t b)))

/-- R177, R181. -/
def minMaxLane (isMax : Bool) (t a b : Nat) : FRes :=
  if isFloat t then fpMinMax (fmtOf t) isMax a b
  else noFlag (intNarrow t false (if isMax then max (intValue t a) (intValue t b) else min (intValue t a) (intValue t b)))

/-- R182: the sign bit cleared or inverted. -/
def signLane (f : Fmt) (flip : Bool) (a : Nat) : FRes :=
  match fpValue f a with
  | .nan s => nanRes f s
  | _ => noFlag (if flip then a ^^^ 2 ^ (f.eb + f.fb) else a % 2 ^ (f.eb + f.fb))
def absLane (x : Args) (t a : Nat) : FRes :=
  if isFloat t then signLane (fmtOf t) false a else noFlag (intNarrow t (satOf x) (intValue t a).natAbs)
def negLane (x : Args) (t a : Nat) : FRes :=
  if isFloat t then signLane (fmtOf t) true a else noFlag (intNarrow t (satOf x) (-(intValue t a)))

/-- R178: the count of a lane. -/
def laneCount (x : Args) (t : Nat) (o : Opnds) (i : Nat) : Nat :=
  if isImm x.b then o.bw.toNat else laneGet (elemBits t) i o.b
def shiftForm (x : Args) (f : Nat → Nat → Nat → Nat) : Body1 :=
  let t := codeOf x.d
  vecBody x (elemBits t) (lanesOf t) fun _ o i => noFlag (f t (laneGet (elemBits t) i o.av) (laneCount x t o i))
def shlLane (sat : Bool) (t a c : Nat) : Nat := intNarrow t sat (intValue t a * (2 ^ min c (intWidth t) : Nat))
def shrLane (t a c : Nat) : Nat := a / 2 ^ min c (intWidth t)
def sarLane (t a c : Nat) : Nat := intNarrow t false (asSigned (intWidth t) a / (2 ^ min c (intWidth t) : Nat))

/-- R183: a comparison writes every bit of pd that covers the lane's bytes. -/
def cmpLane (c : Cond) (t a b : Nat) : Bool × BitVec 5 :=
  if isFloat t then fpCompare (fmtOf t) c a b else (condHolds c (intValue t a) (intValue t b), 0)
def cmpBits (w i : Nat) : BitVec 16 := BitVec.ofNat 16 ((2 ^ (w / 8) - 1) * 2 ^ (w / 8 * i))
def vcmpBody (c : Cond) (x : Args) : Body1 := fun s sid t o =>
  let ty := codeOf x.d
  let w := elemBits ty
  let m := laneMask t x
  let r := (List.range (lanesOf ty)).foldl (fun (p, fl) i =>
    if laneOn m w i then
      let q := cmpLane c ty (srcLane x.a ty o.av i) (srcLane x.b ty o.b i)
      (if q.1 then p ||| cmpBits w i else p &&& ~~~ cmpBits w i, fl ||| q.2)
    else (p, fl)) (readP t (idxOf x.d), (0 : BitVec 5))
  .done (updStrand s sid fun z => raise (writeP z (idxOf x.d) r.1) r.2)

def execVadd (x : Args) (s : State) : Host.Outcome State Fault Refusal := run 0x100 x (laneForm x (arithLane x (· + ·) fpAdd)) s
def execVsub (x : Args) (s : State) : Host.Outcome State Fault Refusal := run 0x101 x (laneForm x (arithLane x (· - ·) fpSub)) s
def execVmul (x : Args) (s : State) : Host.Outcome State Fault Refusal := run 0x102 x (laneForm x (arithLane x (· * ·) fpMul)) s
/-- R180: field d is the addend. -/
def execVfma (x : Args) (s : State) : Host.Outcome State Fault Refusal :=
  run 0x103 x (let t := codeOf x.d; let f := fmtOf t; vecBody x (elemBits t) (lanesOf t) fun _ o i =>
    fpFma f (rndOf (codeOf x.a)) (fpValue f (srcLane x.a t o.av i)) (fpValue f (srcLane x.b t o.b i))
      (fpValue f (laneGet (elemBits t) i o.d))) s
def execVmin (x : Args) (s : State) : Host.Outcome State Fault Refusal := run 0x104 x (laneForm x (minMaxLane false)) s
def execVmax (x : Args) (s : State) : Host.Outcome State Fault Refusal := run 0x105 x (laneForm x (minMaxLane true)) s
def execVabs (x : Args) (s : State) : Host.Outcome State Fault Refusal := run 0x106 x (laneForm x fun t a _ => absLane x t a) s
def execVneg (x : Args) (s : State) : Host.Outcome State Fault Refusal := run 0x107 x (laneForm x fun t a _ => negLane x t a) s
def execVand (x : Args) (s : State) : Host.Outcome State Fault Refusal :=
  run 0x108 x (byteForm x fun a b i => laneGet 8 i (a &&& b)) s
def execVor (x : Args) (s : State) : Host.Outcome State Fault Refusal :=
  run 0x109 x (byteForm x fun a b i => laneGet 8 i (a ||| b)) s
def execVxor (x : Args) (s : State) : Host.Outcome State Fault Refusal :=
  run 0x10A x (byteForm x fun a b i => laneGet 8 i (a ^^^ b)) s
def execVshl (x : Args) (s : State) : Host.Outcome State Fault Refusal := run 0x10B x (shiftForm x (shlLane (satOf x))) s
def execVshr (x : Args) (s : State) : Host.Outcome State Fault Refusal := run 0x10C x (shiftForm x shrLane) s
def execVsar (x : Args) (s : State) : Host.Outcome State Fault Refusal := run 0x10D x (shiftForm x sarLane) s
def execVcmp (c : Cond) (x : Args) (s : State) : Host.Outcome State Fault Refusal := run (0x10E + condNum c) x (vcmpBody c x) s
/-- R185. -/
def execVsel (x : Args) (s : State) : Host.Outcome State Fault Refusal :=
  run 0x114 x (byteForm x fun a b i => if 128 ≤ laneGet 8 i b then laneGet 8 i a else 0) s

/-- R179: a lane of a dot product. -/
def dotLane (sat : Bool) (t d : Nat) (a b : Vec) (j : Nat) : Nat :=
  let tt := if t == 1 then 3 else 11
  let e := (List.range 4).foldl (fun (n : Int) i =>
    n + intValue t (laneGet 8 (4 * j + i) a) * intValue t (laneGet 8 (4 * j + i) b)) (intValue tt d)
  intNarrow tt sat e
def execVdot (x : Args) (s : State) : Host.Outcome State Fault Refusal :=
  run 0x115 x (vecBody x 32 4 fun _ o j => noFlag (dotLane (satOf x) (codeOf x.d) (laneGet 32 j o.d) o.av o.b j)) s

/-- R186: the sum of every lane. -/
def sumLanes (x : Args) (t : Nat) (v : Vec) : FRes :=
  let ls := (List.range (lanesOf t)).map (srcLane x.a t v)
  if isFloat t then fpSum (fmtOf t) (rndOf (codeOf x.a)) (ls.map (fpValue (fmtOf t)))
  else noFlag (intNarrow t (satOf x) (ls.foldl (fun (n : Int) u => n + intValue t u) 0))
def execVsum (x : Args) (s : State) : Host.Outcome State Fault Refusal :=
  run 0x116 x (let t := codeOf x.d; vecBody x (elemBits t) (lanesOf t) fun _ o i =>
    if i == 0 then sumLanes x t o.av else noFlag 0) s

/-! ## Functions -/

/-- R193: a function of one floating lane. -/
def funForm (x : Args) (f : Fmt → FVal → FRes) : Body1 := laneForm x fun t a _ => f (fmtOf t) (fpValue (fmtOf t) a)

def execVexp2 (x : Args) (s : State) : Host.Outcome State Fault Refusal := run 0x180 x (funForm x fpExp2) s
def execVlog2 (x : Args) (s : State) : Host.Outcome State Fault Refusal := run 0x181 x (funForm x fpLog2) s
def execVrcp (x : Args) (s : State) : Host.Outcome State Fault Refusal := run 0x182 x (funForm x fpRcp) s
def execVrsq (x : Args) (s : State) : Host.Outcome State Fault Refusal := run 0x183 x (funForm x fpRsq) s
def execVtanh (x : Args) (s : State) : Host.Outcome State Fault Refusal := run 0x184 x (funForm x fpTanh) s

/-- The integer type code of the lanes beside a floating type (R194-R196). -/
def intBeside (t : Nat) : Nat := if t == 5 || t == 3 then 3 else 2

/-- R194: a lane's fraction and integer. The spec calls the fraction exact; where no pattern of the format holds it
(a small negative operand) it is a free value in [0, 1), one of the patterns below that of 1.0.
DESIGN CHOICE, log 11. -/
def splitLane (fresh t a i : Nat) : FRes × Nat :=
  let w := elemBits t
  match fpSplit (fmtOf t) w a with
  | (fr, k, fl) => (⟨fr.getD ((Config.openValue (fresh + i)).toNat % oneBits (fmtOf t)), fl⟩, intNarrow (intBeside t) false k)
def vexpnBody (x : Args) : Body1 := fun s sid t o =>
  let ty := codeOf x.d
  let w := elemBits ty
  let d := idxOf x.d
  let part := fun i => splitLane s.fresh ty (srcLane x.a ty o.av i) i
  let r := lanewise w (lanesOf ty) (laneMask t x) (readV t d) fun i => (part i).1
  let k := lanewise w (lanesOf ty) (laneMask t x) (readV t (d + 1)) fun i => noFlag (part i).2
  .done (updStrand { s with fresh := s.fresh + 8 } sid fun z => raise (writeV (writeV z d r.1) (d + 1) k.1) r.2)
def execVexpn (x : Args) (s : State) : Host.Outcome State Fault Refusal := run 0x185 x (vexpnBody x) s

/-- R195. -/
def maxeLane (t a b : Nat) : FRes :=
  if isFloat t then
    let w := elemBits t
    noFlag (intNarrow (intBeside t) false (max (fpExpLane (fmtOf t) w a) (fpExpLane (fmtOf t) w b)))
  else minMaxLane true t a b
def execVmaxe (x : Args) (s : State) : Host.Outcome State Fault Refusal := run 0x186 x (laneForm x maxeLane) s
/-- R196. -/
def execVldexp (x : Args) (s : State) : Host.Outcome State Fault Refusal :=
  run 0x187 x (laneForm x fun t a b => fpLdexp (fmtOf t) (rndOf (codeOf x.a)) a (intValue (intBeside t) b)) s
/-- R197: the new maximum and the shift of one lane. -/
def rmaxLane (t d a : Nat) : Nat × Nat :=
  let new := max (intValue t d) (intValue t a)
  (intNarrow t false new, intNarrow t false (max (intValue t d - new) (intMin t)))
def vrmaxBody (x : Args) : Body1 := fun s sid t o =>
  let ty := codeOf x.d
  let w := elemBits ty
  let d := idxOf x.d
  let part := fun i => rmaxLane ty (laneGet w i o.d) (laneGet w i o.av)
  let r := lanewise w (lanesOf ty) (laneMask t x) (readV t d) fun i => noFlag (part i).1
  let k := lanewise w (lanesOf ty) (laneMask t x) (readV t (d + 1)) fun i => noFlag (part i).2
  .done (updStrand s sid fun z => writeV (writeV z d r.1) (d + 1) k.1)
def execVrmax (x : Args) (s : State) : Host.Outcome State Fault Refusal := run 0x188 x (vrmaxBody x) s

/-! ## Conversion and arrangement -/

/-- R190: converted lanes, then zero in every unmasked byte above them. A half byte: DEDUCED, log 36. -/
def vcvtBody (x : Args) : Body1 := fun s sid t o =>
  let ty := codeOf x.d
  let src := (immOf x.b).toNat
  let w := elemBits ty
  let n := 128 / max (elemBits src) w
  let m := laneMask t x
  let r := lanewise w n m (readV t (idxOf x.d)) fun i =>
    convert src ty (rndOf (codeOf x.a)) (satOf x) (laneGet (elemBits src) i o.av)
  let top := (n * w + 7) / 8
  let z := lanewise 8 16 (m &&& BitVec.ofNat 16 (65535 * 2 ^ top)) r.1 fun _ => noFlag 0
  .done (updStrand s sid fun u => raise (writeV u (idxOf x.d) z.1) r.2)
def execVcvt (x : Args) (s : State) : Host.Outcome State Fault Refusal := run 0x1C0 x (vcvtBody x) s
/-- R187. -/
def execVperm (x : Args) (s : State) : Host.Outcome State Fault Refusal :=
  run 0x1C1 x (byteForm x fun a b i =>
    let k := laneGet 8 i b
    if 128 ≤ k then 0 else laneGet 8 (k % 16) a) s
/-- R188. -/
def execVsplat (x : Args) (s : State) : Host.Outcome State Fault Refusal :=
  run 0x1C2 x (let t := codeOf x.d; vecBody x (elemBits t) (lanesOf t) fun _ o _ => noFlag o.aw.toNat) s
/-- R189. -/
def execVins (x : Args) (s : State) : Host.Outcome State Fault Refusal :=
  run 0x1C3 x (let t := codeOf x.d; vecBody x (elemBits t) (lanesOf t) fun _ o i =>
    noFlag (if (i : Int) = immOf x.b then o.aw.toNat else laneGet (elemBits t) i o.d)) s
def execVext (x : Args) (s : State) : Host.Outcome State Fault Refusal :=
  run 0x1C4 x (compute x fun o =>
    let u := laneGet (elemBits (codeOf x.d)) (immOf x.b).toNat o.av
    if isFloat (codeOf x.d) then BitVec.ofNat 64 u else intExtend (codeOf x.d) u) s

end Sys2Proof.Machine
end

