-- ==== Sys2Proof/Machine/Dispatch.lean ====
section
/-! DEFINITION. One arm per instruction and event: its meaning, called by its full name. -/

namespace Sys2Proof.Machine
open Sys2Proof

def exec (i : Instr) (s : State) : Host.Outcome State Fault Refusal :=
  match i with
  | .add x => Sys2Proof.Machine.execAdd x s
  | .sub x => Sys2Proof.Machine.execSub x s
  | .mul x => Sys2Proof.Machine.execMul x s
  | .mulh x => Sys2Proof.Machine.execMulh x s
  | .div x => Sys2Proof.Machine.execDiv x s
  | .rem x => Sys2Proof.Machine.execRem x s
  | .min x => Sys2Proof.Machine.execMin x s
  | .max x => Sys2Proof.Machine.execMax x s
  | .abs x => Sys2Proof.Machine.execAbs x s
  | .neg x => Sys2Proof.Machine.execNeg x s
  | .and x => Sys2Proof.Machine.execAnd x s
  | .or x => Sys2Proof.Machine.execOr x s
  | .xor x => Sys2Proof.Machine.execXor x s
  | .andn x => Sys2Proof.Machine.execAndn x s
  | .shl x => Sys2Proof.Machine.execShl x s
  | .shr x => Sys2Proof.Machine.execShr x s
  | .sar x => Sys2Proof.Machine.execSar x s
  | .rot x => Sys2Proof.Machine.execRot x s
  | .clz x => Sys2Proof.Machine.execClz x s
  | .ctz x => Sys2Proof.Machine.execCtz x s
  | .popc x => Sys2Proof.Machine.execPopc x s
  | .ext x => Sys2Proof.Machine.execExt x s
  | .bfx x => Sys2Proof.Machine.execBfx x s
  | .bfi x => Sys2Proof.Machine.execBfi x s
  | .sel x => Sys2Proof.Machine.execSel x s
  | .mov x => Sys2Proof.Machine.execMov x s
  | .movw x => Sys2Proof.Machine.execMovw x s
  | .lea x => Sys2Proof.Machine.execLea x s
  | .cmp c x => Sys2Proof.Machine.execCmp c x s
  | .pand x => Sys2Proof.Machine.execPand x s
  | .por x => Sys2Proof.Machine.execPor x s
  | .pxor x => Sys2Proof.Machine.execPxor x s
  | .pnot x => Sys2Proof.Machine.execPnot x s
  | .br x => Sys2Proof.Machine.execBr x s
  | .bri x => Sys2Proof.Machine.execBri x s
  | .call x => Sys2Proof.Machine.execCall x s
  | .ret x => Sys2Proof.Machine.execRet x s
  | .loop n x => Sys2Proof.Machine.execLoop n x s
  | .lbrk n x => Sys2Proof.Machine.execLbrk n x s
  | .nop x => Sys2Proof.Machine.execNop x s
  | .halt x => Sys2Proof.Machine.execHalt x s
  | .trap x => Sys2Proof.Machine.execTrap x s
  | .bkpt x => Sys2Proof.Machine.execBkpt x s
  | .rls x => Sys2Proof.Machine.execRls x s
  | .mfs x => Sys2Proof.Machine.execMfs x s
  | .mts x => Sys2Proof.Machine.execMts x s
  | .time x => Sys2Proof.Machine.execTime x s
  | .dln x => Sys2Proof.Machine.execDln x s
  | .dlx x => Sys2Proof.Machine.execDlx x s
  | .part x => Sys2Proof.Machine.execPart x s
  | .strt x => Sys2Proof.Machine.execStrt x s
  | .reap x => Sys2Proof.Machine.execReap x s
  | .evict x => Sys2Proof.Machine.execEvict x s
  | .admitStrand x => Sys2Proof.Machine.execAdmitStrand x s
  | .yield x => Sys2Proof.Machine.execYield x s
  | .utake x => Sys2Proof.Machine.execUtake x s
  | .vadd x => Sys2Proof.Machine.execVadd x s
  | .vsub x => Sys2Proof.Machine.execVsub x s
  | .vmul x => Sys2Proof.Machine.execVmul x s
  | .vfma x => Sys2Proof.Machine.execVfma x s
  | .vmin x => Sys2Proof.Machine.execVmin x s
  | .vmax x => Sys2Proof.Machine.execVmax x s
  | .vabs x => Sys2Proof.Machine.execVabs x s
  | .vneg x => Sys2Proof.Machine.execVneg x s
  | .vand x => Sys2Proof.Machine.execVand x s
  | .vor x => Sys2Proof.Machine.execVor x s
  | .vxor x => Sys2Proof.Machine.execVxor x s
  | .vshl x => Sys2Proof.Machine.execVshl x s
  | .vshr x => Sys2Proof.Machine.execVshr x s
  | .vsar x => Sys2Proof.Machine.execVsar x s
  | .vcmp c x => Sys2Proof.Machine.execVcmp c x s
  | .vsel x => Sys2Proof.Machine.execVsel x s
  | .vdot x => Sys2Proof.Machine.execVdot x s
  | .vsum x => Sys2Proof.Machine.execVsum x s
  | .vexp2 x => Sys2Proof.Machine.execVexp2 x s
  | .vlog2 x => Sys2Proof.Machine.execVlog2 x s
  | .vrcp x => Sys2Proof.Machine.execVrcp x s
  | .vrsq x => Sys2Proof.Machine.execVrsq x s
  | .vtanh x => Sys2Proof.Machine.execVtanh x s
  | .vexpn x => Sys2Proof.Machine.execVexpn x s
  | .vmaxe x => Sys2Proof.Machine.execVmaxe x s
  | .vldexp x => Sys2Proof.Machine.execVldexp x s
  | .vrmax x => Sys2Proof.Machine.execVrmax x s
  | .vcvt x => Sys2Proof.Machine.execVcvt x s
  | .vperm x => Sys2Proof.Machine.execVperm x s
  | .vsplat x => Sys2Proof.Machine.execVsplat x s
  | .vins x => Sys2Proof.Machine.execVins x s
  | .vext x => Sys2Proof.Machine.execVext x s
  | .ld x => Sys2Proof.Machine.execLd x s
  | .st x => Sys2Proof.Machine.execSt x s
  | .vld x => Sys2Proof.Machine.execVld x s
  | .vst x => Sys2Proof.Machine.execVst x s
  | .ldm x => Sys2Proof.Machine.execLdm x s
  | .stm x => Sys2Proof.Machine.execStm x s
  | .acq c x => Sys2Proof.Machine.execAcq c x s
  | .rel c x => Sys2Proof.Machine.execRel c x s
  | .fnc c x => Sys2Proof.Machine.execFnc c x s
  | .send x => Sys2Proof.Machine.execSend x s
  | .recv x => Sys2Proof.Machine.execRecv x s
  | .putr x => Sys2Proof.Machine.execPutr x s
  | .fec x => Sys2Proof.Machine.execFec x s
  | .feq x => Sys2Proof.Machine.execFeq x s
  | .aadd x => Sys2Proof.Machine.execAadd x s
  | .aand x => Sys2Proof.Machine.execAand x s
  | .aor x => Sys2Proof.Machine.execAor x s
  | .axor x => Sys2Proof.Machine.execAxor x s
  | .amin x => Sys2Proof.Machine.execAmin x s
  | .amax x => Sys2Proof.Machine.execAmax x s
  | .axch x => Sys2Proof.Machine.execAxch x s
  | .acas x => Sys2Proof.Machine.execAcas x s
  | .ainc x => Sys2Proof.Machine.execAinc x s
  | .hbAlloc x => Sys2Proof.Machine.execHbAlloc x s
  | .hbJoin x => Sys2Proof.Machine.execHbJoin x s
  | .hbArrive x => Sys2Proof.Machine.execHbArrive x s
  | .hbWait x => Sys2Proof.Machine.execHbWait x s
  | .hbLeave x => Sys2Proof.Machine.execHbLeave x s
  | .hbFree x => Sys2Proof.Machine.execHbFree x s
  | .mbInit x => Sys2Proof.Machine.execMbInit x s
  | .mbArrive x => Sys2Proof.Machine.execMbArrive x s
  | .mbExpect x => Sys2Proof.Machine.execMbExpect x s
  | .mbWait x => Sys2Proof.Machine.execMbWait x s
  | .chOpen x => Sys2Proof.Machine.execChOpen x s
  | .rgProd x => Sys2Proof.Machine.execRgProd x s
  | .rgPut x => Sys2Proof.Machine.execRgPut x s
  | .rgGet x => Sys2Proof.Machine.execRgGet x s
  | .rgEos x => Sys2Proof.Machine.execRgEos x s
  | .owe x => Sys2Proof.Machine.execOwe x s
  | .unowe x => Sys2Proof.Machine.execUnowe x s
  | .tdset x => Sys2Proof.Machine.execTdset x s
  | .tdget x => Sys2Proof.Machine.execTdget x s
  | .mxq x => Sys2Proof.Machine.execMxq x s
  | .cld x => Sys2Proof.Machine.execCld x s
  | .cpq x => Sys2Proof.Machine.execCpq x s
  | .cpr x => Sys2Proof.Machine.execCpr x s
  | .jwait x => Sys2Proof.Machine.execJwait x s
  | .jwaitp x => Sys2Proof.Machine.execJwaitp x s
  | .jstat x => Sys2Proof.Machine.execJstat x s
  | .jcan x => Sys2Proof.Machine.execJcan x s
  | .qfence x => Sys2Proof.Machine.execQfence x s
  | .tcset x => Sys2Proof.Machine.execTcset x s
  | .tcadd x => Sys2Proof.Machine.execTcadd x s
  | .tcwait x => Sys2Proof.Machine.execTcwait x s
  | .trig x => Sys2Proof.Machine.execTrig x s
  | .launch x => Sys2Proof.Machine.execLaunch x s
  | .spawn x => Sys2Proof.Machine.execSpawn x s
  | .grpMake x => Sys2Proof.Machine.execGrpMake x s
  | .grpJoin x => Sys2Proof.Machine.execGrpJoin x s
  | .grpInfo x => Sys2Proof.Machine.execGrpInfo x s
  | .cpost x => Sys2Proof.Machine.execCpost x s
  | .cwait x => Sys2Proof.Machine.execCwait x s
  | .cstat x => Sys2Proof.Machine.execCstat x s
  | .tree x => Sys2Proof.Machine.execTree x s
  | .kvmap x => Sys2Proof.Machine.execKvmap x s
  | .kvref x => Sys2Proof.Machine.execKvref x s
  | .kvfork x => Sys2Proof.Machine.execKvfork x s
  | .kvw x => Sys2Proof.Machine.execKvw x s
  | .kvdem x => Sys2Proof.Machine.execKvdem x s
  | .domInfo x => Sys2Proof.Machine.execDomInfo x s
  | .endStrand uid => Sys2Proof.Machine.execEndStrand uid s
  | .ibufLineLands core line => Sys2Proof.Machine.execIbufLineLands core line s
  | .requestPerformed k => Sys2Proof.Machine.execRequestPerformed k s
  | .loadDataLands k => Sys2Proof.Machine.execLoadDataLands k s
  | .accessAcknowledged k => Sys2Proof.Machine.execAccessAcknowledged k s
  | .scopeMissReissue k => Sys2Proof.Machine.execScopeMissReissue k s
  | .atomicGrant k => Sys2Proof.Machine.execAtomicGrant k s
  | .atomicRelease k => Sys2Proof.Machine.execAtomicRelease k s
  | .ringPacketHop k => Sys2Proof.Machine.execRingPacketHop k s
  | .meshFlitHop k => Sys2Proof.Machine.execMeshFlitHop k s
  | .inboxPoolGrant core => Sys2Proof.Machine.execInboxPoolGrant core s
  | .inboxMessageArrives k => Sys2Proof.Machine.execInboxMessageArrives k s
  | .channelSlotGrant k => Sys2Proof.Machine.execChannelSlotGrant k s
  | .channelMessageLands k => Sys2Proof.Machine.execChannelMessageLands k s
  | .ringSlotReserve k => Sys2Proof.Machine.execRingSlotReserve k s
  | .ringDataLands k => Sys2Proof.Machine.execRingDataLands k s
  | .ringTokenArrives k => Sys2Proof.Machine.execRingTokenArrives k s
  | .hbEventPerformed k => Sys2Proof.Machine.execHbEventPerformed k s
  | .mbEventPerformed k => Sys2Proof.Machine.execMbEventPerformed k s
  | .tcEventPerformed k => Sys2Proof.Machine.execTcEventPerformed k s
  | .putrArrives k => Sys2Proof.Machine.execPutrArrives k s
  | .cprWordLands k => Sys2Proof.Machine.execCprWordLands k s
  | .waitWake sid => Sys2Proof.Machine.execWaitWake sid s
  | .waitTimeout uid => Sys2Proof.Machine.execWaitTimeout uid s
  | .deadlineExpiry uid => Sys2Proof.Machine.execDeadlineExpiry uid s
  | .promiseMissed blk q seq => Sys2Proof.Machine.execPromiseMissed blk q seq s
  | .withholdNoticeArrives k => Sys2Proof.Machine.execWithholdNoticeArrives k s
  | .unwithholdNoticeArrives k => Sys2Proof.Machine.execUnwithholdNoticeArrives k s
  | .cordonLeave uid => Sys2Proof.Machine.execCordonLeave uid s
  | .rootReady uid => Sys2Proof.Machine.execRootReady uid s
  | .trapRecordDelivery k => Sys2Proof.Machine.execTrapRecordDelivery k s
  | .trapqRecordTimeout k => Sys2Proof.Machine.execTrapqRecordTimeout k s
  | .evictComplete uid => Sys2Proof.Machine.execEvictComplete uid s
  | .admitComplete uid => Sys2Proof.Machine.execAdmitComplete uid s
  | .autoEvict core => Sys2Proof.Machine.execAutoEvict core s
  | .autoAdmit core => Sys2Proof.Machine.execAutoAdmit core s
  | .queueEntryGrant blk q => Sys2Proof.Machine.execQueueEntryGrant blk q s
  | .jobStart blk q => Sys2Proof.Machine.execJobStart blk q s
  | .jobEnd blk q => Sys2Proof.Machine.execJobEnd blk q s
  | .jobCancelStop blk q => Sys2Proof.Machine.execJobCancelStop blk q s
  | .fenceEnd blk seq => Sys2Proof.Machine.execFenceEnd blk seq s
  | .treeRoundComplete ctx dist chan => Sys2Proof.Machine.execTreeRoundComplete ctx dist chan s
  | .hostSubmission ctx slot => Sys2Proof.Machine.execHostSubmission ctx slot s
  | .unitRelease entry => Sys2Proof.Machine.execUnitRelease entry s
  | .unitOffer k => Sys2Proof.Machine.execUnitOffer k s
  | .cornerQueueReoffer blk => Sys2Proof.Machine.execCornerQueueReoffer blk s
  | .launchEnd entry => Sys2Proof.Machine.execLaunchEnd entry s
  | .wcancel ctx v => Sys2Proof.Machine.execWcancel ctx v s
  | .plazaPostArrival gid k member sig => Sys2Proof.Machine.execPlazaPostArrival gid k member sig s
  | .ticketArrives gid k rank => Sys2Proof.Machine.execTicketArrives gid k rank s
  | .collectiveEnd post => Sys2Proof.Machine.execCollectiveEnd post s
  | .pageWalkComplete k => Sys2Proof.Machine.execPageWalkComplete k s
  | .missMergeEntryGrant dist => Sys2Proof.Machine.execMissMergeEntryGrant dist s
  | .tlbinvPage v => Sys2Proof.Machine.execTlbinvPage v s
  | .tlbinvKey v => Sys2Proof.Machine.execTlbinvKey v s
  | .tlbinvContext v => Sys2Proof.Machine.execTlbinvContext v s
  | .kvEventPerformed k => Sys2Proof.Machine.execKvEventPerformed k s
  | .kvCopyEnd k => Sys2Proof.Machine.execKvCopyEnd k s
  | .kvFlip k => Sys2Proof.Machine.execKvFlip k s
  | .frameRetire k => Sys2Proof.Machine.execFrameRetire k s
  | .scrubEnd blk => Sys2Proof.Machine.execScrubEnd blk s
  | .ctxCreate ctx => Sys2Proof.Machine.execCtxCreate ctx s
  | .ctxAdmit ctx => Sys2Proof.Machine.execCtxAdmit ctx s
  | .ctxStart ctx => Sys2Proof.Machine.execCtxStart ctx s
  | .ctxSwitch ctx succ => Sys2Proof.Machine.execCtxSwitch ctx succ s
  | .ctxStop ctx => Sys2Proof.Machine.execCtxStop ctx s
  | .ctxcmdHold ctx hold => Sys2Proof.Machine.execCtxcmdHold ctx hold s
  | .slotZeroStart core => Sys2Proof.Machine.execSlotZeroStart core s
  | .gangSwitch ctx => Sys2Proof.Machine.execGangSwitch ctx s
  | .contextSaveComplete ctx => Sys2Proof.Machine.execContextSaveComplete ctx s
  | .lateDeviceEvent ctx => Sys2Proof.Machine.execLateDeviceEvent ctx s
  | .contextRestore ctx => Sys2Proof.Machine.execContextRestore ctx s
  | .cutClosed ctx => Sys2Proof.Machine.execCutClosed ctx s
  | .unrecoverableFault ctx => Sys2Proof.Machine.execUnrecoverableFault ctx s
  | .teardownComplete ctx => Sys2Proof.Machine.execTeardownComplete ctx s
  | .deadlockSample ctx => Sys2Proof.Machine.execDeadlockSample ctx s
  | .dbgStop ctx sid => Sys2Proof.Machine.execDbgStop ctx sid s
  | .dbgRelease ctx sid => Sys2Proof.Machine.execDbgRelease ctx sid s
  | .dbgHold ctx sid => Sys2Proof.Machine.execDbgHold ctx sid s
  | .pwrlimWrite v => Sys2Proof.Machine.execPwrlimWrite v s
  | .rateLimitRelease k => Sys2Proof.Machine.execRateLimitRelease k s
  | .registerWrite core ctx off v => Sys2Proof.Machine.execRegisterWrite core ctx off v s
  | .domForm m => Sys2Proof.Machine.execDomForm m s
  | .domJoin m plaza => Sys2Proof.Machine.execDomJoin m plaza s
  | .domEvict m => Sys2Proof.Machine.execDomEvict m s
  | .tickBoundary => Sys2Proof.Machine.execTickBoundary s
  | .jobFault blk q cls step info => Sys2Proof.Machine.execJobFault blk q cls step info s
  | .bareTicketArrives dom => Sys2Proof.Machine.execBareTicketArrives dom s
  | .collectiveStart => Sys2Proof.Machine.execCollectiveStart s
  | .contributionMerged gid k member data => Sys2Proof.Machine.execContributionMerged gid k member data s
  | .collectiveFaultAbort gid k => Sys2Proof.Machine.execCollectiveFaultAbort gid k s
  | .errlogCapture src pa => Sys2Proof.Machine.execErrlogCapture src pa s
  | .errlogClear => Sys2Proof.Machine.execErrlogClear s
  | .powerWindow => Sys2Proof.Machine.execPowerWindow s
  | .domLeave => Sys2Proof.Machine.execDomLeave s
  | .joinRequest m => Sys2Proof.Machine.execJoinRequest m s
  | .getVersion r => Sys2Proof.Machine.execGetVersion r s
  | .getCapabilities r => Sys2Proof.Machine.execGetCapabilities r s
  | .negotiateAlgorithms r => Sys2Proof.Machine.execNegotiateAlgorithms r s
  | .getDigests r => Sys2Proof.Machine.execGetDigests r s
  | .getCertificate r => Sys2Proof.Machine.execGetCertificate r s
  | .getMeasurements r => Sys2Proof.Machine.execGetMeasurements r s
  | .keyExchange r => Sys2Proof.Machine.execKeyExchange r s
  | .finish r => Sys2Proof.Machine.execFinish r s
  | .ideKm r => Sys2Proof.Machine.execIdeKm r s
  | .hostTlpReceive t => Sys2Proof.Machine.execHostTlpReceive t s
  | .rekeyStart => Sys2Proof.Machine.execRekeyStart s
  | .rekeyArrive m => Sys2Proof.Machine.execRekeyArrive m s
  | .rekeyClose => Sys2Proof.Machine.execRekeyClose s
  | .heartbeat m => Sys2Proof.Machine.execHeartbeat m s
  | .memberLost m => Sys2Proof.Machine.execMemberLost m s
  | .plazaLost => Sys2Proof.Machine.execPlazaLost s
  | .timeExchange ref => Sys2Proof.Machine.execTimeExchange ref s
  | .chiplinkFlitReceive port f => Sys2Proof.Machine.execChiplinkFlitReceive port f s
  | .linkAck port lseq => Sys2Proof.Machine.execLinkAck port lseq s
  | .linkNak port lseq => Sys2Proof.Machine.execLinkNak port lseq s
  | .fabricPacketArrival p => Sys2Proof.Machine.execFabricPacketArrival p s
  | .retransmissionRequest peer seq => Sys2Proof.Machine.execRetransmissionRequest peer seq s
  | .e2eAck peer seq grant => Sys2Proof.Machine.execE2eAck peer seq grant s
  | .e2eAckTimer peer => Sys2Proof.Machine.execE2eAckTimer peer s
  | .streamResendTimeout peer => Sys2Proof.Machine.execStreamResendTimeout peer s
  | .reset => Sys2Proof.Machine.execReset s
  | .functionReady bit => Sys2Proof.Machine.execFunctionReady bit s
  | .districtFailure d => Sys2Proof.Machine.execDistrictFailure d s
  | .plazaGroupRequest m ctx entries => Sys2Proof.Machine.execPlazaGroupRequest m ctx entries s
  | .bareTicketRequest m => Sys2Proof.Machine.execBareTicketRequest m s
  | .spdmResponseArrives code body => Sys2Proof.Machine.execSpdmResponseArrives code body s
  | .rekeyMessageArrives gen members secret => Sys2Proof.Machine.execRekeyMessageArrives gen members secret s
  | .registerFileError sid cls idx => Sys2Proof.Machine.execRegisterFileError sid cls idx s
  | .functionFailure bit => Sys2Proof.Machine.execFunctionFailure bit s

end Sys2Proof.Machine
end

