-- ==== Sys2Proof/Machine/Plan.lean ====
section
/-! DEFINITION. What acts next: what the last act made due, else the rotation of the slots by their Districts' clocks (R13, R30),
else, once the slots of this cycle have issued, what the outside or the hardware brings about (a free value), and at the end of
the cycle what is tested once in it (`settleCycle`) and time (R5-R7, R396, R426). -/

namespace Sys2Proof.Machine
open Sys2Proof

/-! ## The rotation -/

/-- R13, R30: the slot that issues in a District in this cycle, by the District's own clock; none between two of its cycles. -/
def turnSlot (s : State) (d : Nat) : Option Nat :=
  match mapFind s.clocks d with
  | none => some (s.cycle % 16)
  | some c => if c.ticks then some (c.count % 16) else none
/-- The core and slot that issue next in this cycle. -/
def nextIssue (s : State) : Option (Nat × Nat) :=
  (List.range 4).findSome? fun d =>
    let c := max s.turn (d * 512)
    if c < (d + 1) * 512 then (turnSlot s d).map fun n => (c, n) else none

/-- R399: an issue sets its core's moved bit. -/
def markIssue (s : State) (sid : Nat) : State := updCore { s with cur := sid } (coreOf sid) fun c => { c with moved := true }

/-! ## Time -/

/-- R6, R442, R443: nanoseconds of the reference at a cycle. -/
def refTime (cycle : Nat) : Nat := cycle * 10 / 33
/-- R5, R6, R443: the next cycle; `dtime` never steps backward; a joiner that is ahead counts every second nanosecond until it is within
2 ns. DEDUCED, log 59. -/
def tickTime (s : State) : State :=
  let n := s.cycle + 1
  let lose := 2 < s.dom.ahead && refTime n != refTime s.cycle && refTime n % 2 == 1
  let skew := if lose then s.skew - 1 else s.skew
  let s1 := { s with cycle := n, skew := skew, turn := 0, dtime := max s.dtime ((refTime n : Int) + skew).toNat }
  if !lose then s1
  else if s.dom.ahead ≤ 3 then updDom s1 fun d => { d with ahead := 0, near := true }
  else updDom s1 fun d => { d with ahead := d.ahead - 1 }

/-- R30, R457: the Districts' clocks. One at its nominal clock, or not yet measured, counts the reference (R13). -/
def tickClocks (s : State) : State :=
  let mhz := fun (d : Nat) => s.mgmt.pwrstat.toNat / 2 ^ (12 * d) % 4096
  { s with clocks := (List.range 4).filterMap fun d =>
      if mhz d == 0 || 3300 ≤ mhz d then none
      else
        let old := mapGet { DistClock.init with count := s.cycle } s.clocks d
        let n := old.part + mhz d
        some (d, if 3300 ≤ n then { count := old.count + 1, part := n - 3300, ticks := true }
          else { old with part := n, ticks := false }) }

/-- R30: whether a District's own clock begins a cycle in this cycle of the reference. -/
def distTicks (s : State) (d : Nat) : Bool := (mapFind s.clocks d).all (·.ticks)
/-- R30: the District whose clock a port or link counts; none for the Interchange's. -/
def servedDist : Served → Option Nat
  | .bank c _ => some (c / 512)
  | .quay d _ => some d
  | .link a _ => if a < ichgNode then some (a / 64) else none
  | .ring c _ => some (c / 512)
/-- R20, R30, R447: ring heads come nearer to their departure, and slots empty, in a District's own cycles. -/
def tickRing (s : State) (r : RingPos) : RingPos :=
  if distTicks s (r.blk / 64) then (if r.hold == 0 then r else { r with hold := r.hold - 1 }) else r
def tickDrain (s : State) (r : RingPos) : RingPos :=
  if r.hold != 0 then tickRing s r else if distTicks s (r.blk / 64) then { r with flits := r.flits - 1 } else r
/-- R15, R17, R20, R22, R30: what a cycle does to the ports and links in use and to the ring's buffers. -/
def tickLinks (s0 : State) : State :=
  let s := ringMarks s0
  { s with
    served := s.served.filterMap fun e =>
      if (servedDist e.1).all (distTicks s) then (if e.2 ≤ 1 then none else some (e.1, e.2 - 1)) else some e
    draining := (s.draining.map (tickDrain s)).filter fun r => r.flits != 0
    net := s.net.map fun p => { p with ring := p.ring.map (tickRing s) } }

/-- R426: the buckets fill at their rates, in bytes per µs, up to their depths. DESIGN CHOICE, log 33. -/
def fillBuckets (s : State) : State :=
  { s with ctxs := s.ctxs.map fun (e : Nat × Ctx) =>
      let rate := e.2.ratelim.toNat % 2 ^ 32
      let got := rate * s.cycle / 3300 - rate * (s.cycle - 1) / 3300
      (e.1, { e.2 with bucket := min (e.2.ratelim.toNat / 2 ^ 32) (e.2.bucket + got) }) }

/-- What is due for strands as a cycle begins (R319, R335, R336). -/
def dueStrands (s : State) : List Instr :=
  ((allSlots s).filter fun e => e.2.st == .member && e.2.s.wait.any fun w => !waitWithheld s e.1 e.2.s w).map (fun e => .cordonLeave e.2.s.uid) ++
  (s.cores.filter fun c => !c.2.spill.isEmpty || !c.2.unitInbox.isEmpty).flatMap fun c => [.autoAdmit c.1, .autoEvict c.1]
/-- R352: the promises that have passed. -/
def duePromises (s : State) : List Instr :=
  s.hubs.flatMap fun h => [0, 1, 2].flatMap fun q =>
    ((queueOf s h.1 q).jobs.filter fun j => !j.missed && !j.lapsed && (j.promise.map fun p => decide (p < s.cycle)).getD false).map
      fun j => .promiseMissed h.1 q j.seq
/-- What is due for contexts, records and power (R333, R337, R341, R400, R457). -/
def dueContexts (s : State) : List Instr :=
  (s.ctxs.flatMap fun x =>
    (if (x.2.switchTo.map fun w => decide (w.1 ≤ s.dtime)).getD false then [.gangSwitch x.1] else []) ++
    (if x.2.saving then [.lateDeviceEvent x.1] else []) ++
    (if x.2.st == .running && s.cycle % 1024 == 0 then [.deadlockSample x.1] else [])) ++
  s.records.map fun r => .trapqRecordTimeout r.k
def dueEvents (s : State) : List Instr := dueStrands s ++ duePromises s ++ dueContexts s
/-- What is due once all other events of a cycle have come about: the deadlines that it has reached (R159, R398), and the waits that
are over (R168, R211, R334). -/
def dueLate (s : State) : List Instr :=
  ((allStrands s).filter fun t => t.dlArmed && t.dline.toNat ≤ s.dtime && ctxRuns s t.ctx).map (fun t => .deadlineExpiry t.uid) ++
  (((allSlots s).filter fun e => e.2.st == .parked).map (·.1) ++
    s.cores.flatMap fun c => (c.2.spill.filter fun e => !e.ready).map fun e => c.1 * 16 + e.slot % 16).eraseDups.map .waitWake

/-- R434, R439, R440: what the Interchange does for its streams and its domain as time passes. -/
def tickDomain (s : State) : State :=
  let ms := s.dom.streams.map (·.1)
  let s1 := ms.foldl (fun z m => resendDue (ackDue z m) m) s
  let s2 := if s1.dom.state == 0 then s1 else arriveSelf (heartbeatOf s1 (me s1))
  let s3 := (others s2 (s2.dom.members ++ s2.dom.barrier).eraseDups).foldl memberGone s2
  packOut (plazaGone s3)
/-- R442: an escape packet that goes by one port. -/
def sendOn (s : State) (port m kind : Nat) (payload : List Byte) : State :=
  let s1 := sendEscape s m kind payload
  match s1.dom.outbox.getLast? with
  | some q => updPort (updDom s1 fun d => { d with outbox := d.outbox.dropLast }) port fun y => { y with
      out := mapPut y.out q.cls (mapGet [] y.out q.cls ++ [{ first := true, own := false, bytes := packetBytes q }]) }
  | none => s1
/-- R442: every 10 µs each port asks the one at its other end for the time. DESIGN CHOICE, log 59. -/
def timeDue (s : State) (before : Nat) : State :=
  if s.dom.state != 0 && before / 10000 < s.dtime / 10000 then
    (s.dom.ports.filter fun e => e.2.up && (others s (s.dom.members ++ s.dom.barrier)).contains (Config.neighbour e.1)).foldl
      (fun z e => sendOn z e.1 (Config.neighbour e.1) 6 (0 :: natBytes 1 e.1 ++ natBytes 8 z.dtime)) s
  else s
def tick (s0 : State) : State :=
  let s := settleEvicts s0
  let s1 := tickDomain (timeDue (fillBuckets (tickTime (tickLinks (tickClocks s)))) s.dtime)
  { s1 with agenda := s1.agenda ++ (dueEvents s1).map Act.event }
/-- R315, R356, R383, R392: what is tested once in a cycle, after all its events: the trigger counters, the barriers, the post
numbers that are complete, leaves (R390), what is withheld, then the launches, and the cancels of the cycle (R366, R377). -/
def settleCycle (s : State) : State := settleCancels <| settleLaunches <| settleCordon (settleLeaves (settleGroups (settleBarriers (settleCounters s))))
/-- The turn of a cycle in which all that could act has acted. -/
def cycleOver : Nat := 2049
/-- The end of a cycle: what is tested once in it, then what is due last, then time goes on. -/
def endCycle (s : State) : State :=
  let s1 := settleCycle s
  { s1 with turn := cycleOver, agenda := s1.agenda ++ (dueLate s1).map Act.event }

/-! ## What comes about by itself -/

/-- Whether an event may come about at any time: not an instruction, not what a register write, a packet or a flit brings,
and not what the device itself makes due. DESIGN CHOICE, log 61. -/
def mayCome (s : State) (i : Instr) : Bool :=
  match i with
  | .registerWrite _ _ _ _ => false
  | .wcancel _ _ => false
  | .hostSubmission _ _ => false
  | .ctxCreate _ => false
  | .ctxAdmit _ => false
  | .ctxStart _ => false
  | .ctxSwitch _ _ => false
  | .ctxStop _ => false
  | .ctxcmdHold _ _ => false
  | .dbgStop _ _ => false
  | .dbgRelease _ _ => false
  | .dbgHold _ _ => false
  | .tlbinvPage _ => false
  | .tlbinvKey _ => false
  | .tlbinvContext _ => false
  | .pwrlimWrite _ => false
  | .errlogClear => false
  | .domForm _ => false
  | .domJoin _ _ => false
  | .domLeave => false
  | .domEvict _ => false
  | .cordonLeave _ => false
  | .tickBoundary => false
  | .deadlockSample _ => false
  | .unrecoverableFault _ => false
  | .jobFault _ _ _ _ _ => false
  | .plazaPostArrival _ _ _ _ => false
  | .ticketArrives _ _ _ => false
  | .bareTicketArrives _ => false
  | .plazaGroupRequest _ _ _ => false
  | .bareTicketRequest _ => false
  | .collectiveFaultAbort _ _ => false
  | .contributionMerged gid _ m _ =>
    (s.plaza.groups.find? fun g => g.gid == gid).any fun g => entMember (g.entries.getD m 0) == me s
  | .rekeyStart => false
  | .rekeyClose => false
  | .rekeyArrive _ => false
  | .rekeyMessageArrives _ _ _ => false
  | .heartbeat _ => false
  | .joinRequest _ => false
  | .getVersion _ => false
  | .getCapabilities _ => false
  | .negotiateAlgorithms _ => false
  | .getDigests _ => false
  | .getCertificate _ => false
  | .getMeasurements _ => false
  | .keyExchange _ => false
  | .finish _ => false
  | .ideKm _ => false
  | .spdmResponseArrives _ _ => false
  | .timeExchange _ => false
  | .fabricPacketArrival _ => false
  | .e2eAck _ _ _ => false
  | .retransmissionRequest _ _ => false
  | .linkAck _ _ => false
  | .linkNak _ _ => false
  | i => (argsOf i).isNone

/-- The next act once the slots of this cycle have issued (R283): what the outside, the network or an engine brings about,
while the device is at liberty, else the end of the cycle. DESIGN CHOICE, log 1 and 61. -/
def freeAct (s : State) : Act × State :=
  let n := s.fresh
  let s1 := { s with fresh := n + 1 }
  let close := (Act.event .tickBoundary, endCycle s1)
  if s.turn == cycleOver then (Act.event .powerWindow, tick s1)
  else match Config.errorAt n, Config.work n, Config.input n with
  | some a, _, _ => (.poison a, s1)
  | _, some (b, q), _ => (.work b q, s1)
  | _, _, some i => if mayCome s i then (.event i, s1) else close
  | _, _, _ => close

/-- The next act, and the state without it. DESIGN CHOICE, log 62. -/
def nextAct (s : State) : Act × State :=
  match s.agenda with
  | a :: rest => (a, { s with agenda := rest })
  | [] => match nextIssue s with
    | some (c, n) => (.issue (c * 16 + n), { s with turn := c + 1, fresh := s.fresh + 1, prompt := Config.prompt s.fresh })
    | none => freeAct s

/-- R244, R346: a piece of a job's work, while its context runs. -/
def workAct (s : State) (b q : Nat) : State :=
  match headJob s b q with
  | some j => if ctxRuns s j.ctx then workJob s b q else s
  | none => s
/-- R345: hardware fails in a byte of memory. -/
def poisonAct (s : State) (a : Nat) : State := { s with poison := a :: s.poison.filter fun x => x != a }

/-! ## A first instruction -/

/-- Where `withFetchWord` puts its line: context 0 runs on block 0, and a ready strand in core 0's slot 0 has the word in
its core's instruction buffer (notes/assumptions/5.md). -/
def placeWord (s : State) (w : BitVec 96) : State :=
  let s1 := updHub (updCtx s 0 fun x => { x with st := .running }) 0 fun h => { h with owner := some 0 }
  let s2 := updCore s1 0 fun c => { c with ibuf := mapPut c.ibuf 0 (w.setWidth 2048) }
  let s3 := setSlot s2 0 { st := .ready, s := { Strand.init with uid := s.nextId }, moved := s.cycle }
  { s3 with agenda := .issue 0 :: s.agenda, nextId := s.nextId + 1 }

end Sys2Proof.Machine
end

