-- ==== Sys2Proof/Machine/Step.lean ====
section
/-! DEFINITION. One step of the device: what acts next, acts. -/

namespace Sys2Proof.Machine
open Sys2Proof

/-- The strand in slot `sid` issues: it fetches, and runs the instruction it fetched (R13, R74). -/
def issue (s : State) (sid : Nat) : Host.Outcome State Fault Refusal :=
  match fetch s sid with
  | .instr i => exec i (markIssue s sid)
  | .other s1 => .next s1

/-- One act. -/
def act (a : Act) (s : State) : Host.Outcome State Fault Refusal :=
  match a with
  | .issue sid => issue s sid
  | .event i => if (argsOf i).isNone then exec i s else .next s
  | .work b q => .next (workAct s b q)
  | .poison k => .next (poisonAct s k)

def step (s : State) : Host.Outcome State Fault Refusal := act (nextAct s).1 (nextAct s).2

/-- The state with an instruction where the next step fetches it; bits above `nbits` are zero. -/
def State.withFetchWord (s : State) (nbits w : Nat) : State := placeWord s (BitVec.ofNat 96 (w % 2 ^ nbits))

end Sys2Proof.Machine
end

