-- ==== Sys2Proof/Safety.lean ====
section
/-! DEFINITION. What counts as a safe step, and the terms in which claims about instructions are stated: when an instruction
issues unhindered, what it reads, and what it leaves. -/

namespace Sys2Proof.Machine
open Sys2Proof

/-- An outcome is a next state. -/
def Goes (o : Host.Outcome State Fault Refusal) : Prop := ∃ t, o = .next t

/-- A step is safe when the machine goes on. -/
def SafeStep (s : State) : Prop := Goes (step s)

/-! ## Issue -/

/-- The strand in the slot whose turn it is. -/
def acting (s : State) : Strand := strandAt s s.cur

/-- The operands as the instruction reads them (R118, R126). -/
def ops (x : Args) (s : State) : Opnds := readOpnds (acting s) x false
/-- The operands of a form whose field a is the first of four v registers (R127). -/
def ops4 (x : Args) (s : State) : Opnds := readOpnds (acting s) x true

/-- The strand once its synchronised reads have cleared their F bits (R126). -/
def cleared (x : Args) (t : Strand) : Strand := (syncRegs x).foldl (fun u r => setFull u r false) t
/-- R126: the state once the synchronised reads have cleared their F bits. -/
def entry (x : Args) (s : State) : State := clearSync s s.cur (syncRegs x)

/-- The register of a load or an acquire, whose wait for a copy comes after its checks and its read (R202, R203). -/
def landRegs (op : Nat) (x : Args) : List RegRef :=
  if op == 0x202 then [.v (idxOf x.d)] else if op == 0x200 || (0x206 ≤ op && op ≤ 0x20A) then [.g (idxOf x.d)] else []

/-- What every instruction passes before its own effect: the strand is ready, the guard is on (R129), the privilege mark
allows it (R134), no answer has left a trap for it, and no copy into a register it writes is outstanding (R137). -/
def passes (op : Nat) (x : Args) (s : State) : Bool :=
  (getSlot s s.cur).st == .ready && (laneMasked op || guardOn (acting s) x) && !privBad op s.cur (acting s) x &&
    (refusedOf (acting s)).isNone && ((destRegs op x ++ landRegs op x).find? (copying (acting s))).isNone

/-- The instruction issues for the first time, and every register that it reads with sync is full (R126). -/
def clear (op : Nat) (x : Args) (s : State) : Bool :=
  passes op x s && ((acting s).wait.bind (·.opnds)).isNone && (syncRegs x).all (fullOf (acting s))

/-- The instruction goes on after a wait, with the operands that it read before the wait (R126). -/
def resumed (op : Nat) (x : Args) (s : State) (o : Opnds) : Bool :=
  passes op x s && (acting s).wait.bind (·.opnds) == some o

/-- The number of the g, v or p register of a field. -/
def gField (o : Opd) : Option Nat := match o with | .reg r => if r.cls == .g then some r.idx.toNat else none | _ => none
def vField (o : Opd) : Option Nat := match o with | .reg r => if r.cls == .v then some r.idx.toNat else none | _ => none
def pField (o : Opd) : Option Nat := match o with | .reg r => if r.cls == .p then some r.idx.toNat else none | _ => none

/-! ## What an instruction leaves -/

/-- A register that the files hold. -/
def inFile (r : RegRef) : Bool := match r with | .g n => n < 64 | .v n => n < 32

/-- Nothing differs but in the slot `sid`: no memory, no packet, no other slot, and of its core nothing else. The model's
counter of free values may advance (notes/assumptions/1.md). -/
structure OnlySlot (s t : State) (sid : Nat) : Prop where
  rest : t = { s with cores := t.cores, fresh := t.fresh }
  core : ∀ c, getCore t c = { getCore s c with slots := (getCore t c).slots }
  slots : ∀ i, i ≠ sid → getSlot t i = getSlot s i

/-- The acting strand has completed an instruction that writes g, v and p registers and flags only: it is ready, its wait
record is stale, the end check has set its pc and loop counts (R154), and its other registers are as they were. -/
structure Completed (s t : State) : Prop where
  only : OnlySlot s t s.cur
  ready : (getSlot t s.cur).st = .ready
  moved : (getSlot t s.cur).moved = (getSlot s s.cur).moved
  strand : strandAt t s.cur = { endCheck (acting s) with
    g := (strandAt t s.cur).g, v := (strandAt t s.cur).v, p := (strandAt t s.cur).p
    gF := (strandAt t s.cur).gF, gW := (strandAt t s.cur).gW, vF := (strandAt t s.cur).vF, vW := (strandAt t s.cur).vW
    fflags := (strandAt t s.cur).fflags, wait := none }

/-- The acting strand has completed an instruction that leaves it as `u`: nothing outside its slot differs. -/
def Leaves (s t : State) (u : Strand) : Prop :=
  OnlySlot s t s.cur ∧ getSlot t s.cur = { getSlot s s.cur with st := .ready, s := u }

/-- The registers, flags and F bits after it: `w` says which registers were written. -/
structure Result (x : Args) (s t : State) (G : Nat → Word) (V : Nat → Vec) (P : Nat → BitVec 16) (fl : BitVec 5)
    (w : RegRef → Bool) : Prop where
  done : Completed s t
  g : ∀ n, readG (strandAt t s.cur) n = G n
  v : ∀ n, readV (strandAt t s.cur) n = V n
  p : ∀ n, readP (strandAt t s.cur) n = P n
  flags : (strandAt t s.cur).fflags = fl
  full : ∀ r, inFile r = true → fullOf (strandAt t s.cur) r =
    (r == .g 0 || w r || (fullOf (acting s) r && !(syncRegs x).contains r))
  tags : ∀ r, inFile r = true → tagOf (strandAt t s.cur) r = (tagOf (acting s) r && !w r)

/-- Only general register n takes a value; g0 takes none (R137). -/
def WritesG (x : Args) (s t : State) (n : Nat) (a : Word) : Prop :=
  Result x s t (fun m => if m = n ∧ n ≠ 0 then a else readG (acting s) m) (readV (acting s)) (readP (acting s))
    (acting s).fflags (fun r => r == .g n && n != 0)
/-- Only vector register n takes a value, and flags are raised (R47, R173). -/
def WritesV (x : Args) (s t : State) (n : Nat) (a : Vec) (fl : BitVec 5) : Prop :=
  Result x s t (readG (acting s)) (fun m => if m = n then a else readV (acting s) m) (readP (acting s))
    ((acting s).fflags ||| fl) (fun r => r == .v n)
/-- Vector registers n and n + 1 take values (R194, R197). -/
def WritesVV (x : Args) (s t : State) (n : Nat) (a b : Vec) (fl : BitVec 5) : Prop :=
  Result x s t (readG (acting s)) (fun m => if m = n + 1 then b else if m = n then a else readV (acting s) m)
    (readP (acting s)) ((acting s).fflags ||| fl) (fun r => r == .v n || r == .v (n + 1))
/-- Only predicate register n takes a value, and flags are raised; p0 takes none (R146). -/
def WritesP (x : Args) (s t : State) (n : Nat) (a : BitVec 16) (fl : BitVec 5) : Prop :=
  Result x s t (readG (acting s)) (readV (acting s)) (fun m => if m = n ∧ n ≠ 0 then a else readP (acting s) m)
    ((acting s).fflags ||| fl) (fun _ => false)

/-! ## Memory -/

/-- R62, R68: an aligned access of n bytes lies in the own scratchpad. -/
def ownSpace (ea : Word) (n : Nat) : Prop := ea >>> 56 = 0xF0 ∧ ea.toNat % 2 ^ 56 < 2 ^ 18 ∧ ea.toNat % n = 0
/-- The memory key of an own-scratchpad address of the acting strand. -/
def ownKey (s : State) (ea : Word) : Nat := spadKey (coreOf s.cur) (ea.toNat % 2 ^ 56)

/-- R199: base + displacement, or base + index, the index times the access size where it is scaled. -/
def address (x : Args) (s : State) (n : Nat) : Word :=
  (ops x s).aw + (ops x s).bw * (match x.b with | .reg r => if r.code == 1 then BitVec.ofNat 64 n else 1 | _ => 1)

/-- The acting strand has completed an instruction that stores: from `a` on, n bytes take those of `b` that it gives, every
other byte of memory is as it was, no register and no flag changes (the F bits of synchronised reads apart), and no other
slot, packet or unit differs. -/
structure StoresTo (x : Args) (s t : State) (a n : Nat) (b : Nat → Option Byte) : Prop where
  bytes : ∀ k, readByte t.mem k =
    if a ≤ k ∧ k < a + n then (b (k - a)).getD (readByte s.mem k) else readByte s.mem k
  slot : getSlot t s.cur = { getSlot s s.cur with st := .ready, s := endWait (endCheck (cleared x (acting s))) }
  rest : t = { s with cores := t.cores, mem := t.mem, poison := t.poison }
  core : ∀ c, getCore t c = { getCore s c with slots := (getCore t c).slots }
  slots : ∀ i, i ≠ s.cur → getSlot t i = getSlot s i

end Sys2Proof.Machine
end

