-- ==== Sys2Proof/Certificates/Slice0/Obligations.lean ====
section
/-! DEFINITION. Statements for the provers. Each holds for every state and for the operands that its hypotheses allow; its docstring
names the rules of spec/ it comes from. -/

open Sys2Proof Sys2Proof.Machine

/-! ## Scalar forms -/

/-- R137, R139, R140: every two-operand integer form writes gd with its exact result, narrowed to the type (clamped with
`:sat`) and extended, and nothing else but the F bit of gd and those of its synchronised reads; a write to g0 is discarded. -/
def Obligations.IntegerArithmeticResults : Prop :=
  ∀ (x : Args) (s : State) (n : Nat), gField x.d = some n →
    let t := codeOf x.d
    let a := intValue t (ops x s).aw.toNat
    let b := intValue t (ops x s).bw.toNat
    let gives := fun (op : Nat) (i : Instr) (sat : Bool) (e : Int) =>
      clear op x s = true → ∃ z, exec i s = .next z ∧ WritesG x s z n (intExtend t (intNarrow t sat e))
    gives 0x1 (.add x) (satOf x) (a + b) ∧ gives 0x2 (.sub x) (satOf x) (a - b) ∧
    gives 0x3 (.mul x) (satOf x) (a * b) ∧ gives 0x4 (.mulh x) false (a * b / (2 ^ intWidth t : Nat)) ∧
    gives 0x5 (.div x) false (if b = 0 then -1 else a.tdiv b) ∧ gives 0x6 (.rem x) false (if b = 0 then a else a.tmod b) ∧
    gives 0x7 (.min x) false (if a ≤ b then a else b) ∧ gives 0x8 (.max x) false (if a ≤ b then b else a) ∧
    gives 0x9 (.abs x) (satOf x) a.natAbs ∧ gives 0xA (.neg x) (satOf x) (-a)

/-- R141: the logic forms work on the w-bit patterns; a shift by w or more gives 0, 0 and all fill bits; ROT rotates left by
the count mod w. The frame is that of the arithmetic forms. -/
def Obligations.LogicAndShiftResults : Prop :=
  ∀ (x : Args) (s : State) (n : Nat), gField x.d = some n →
    let t := codeOf x.d
    let w := intWidth t
    let a := (ops x s).aw.toNat % 2 ^ w
    let b := (ops x s).bw.toNat % 2 ^ w
    let c := (ops x s).bw.toNat
    let gives := fun (op : Nat) (i : Instr) (v : Word) =>
      clear op x s = true → ∃ z, exec i s = .next z ∧ WritesG x s z n v
    gives 0xB (.and x) (intExtend t (a &&& b)) ∧ gives 0xC (.or x) (intExtend t (a ||| b)) ∧
    gives 0xD (.xor x) (intExtend t (a ^^^ b)) ∧
    gives 0xE (.andn x) (intExtend t (a &&& ((~~~ (ops x s).bw).toNat % 2 ^ w))) ∧
    gives 0xF (.shl x) (intExtend t (intNarrow t (satOf x) (intValue t (ops x s).aw.toNat * (2 ^ min c w : Nat)))) ∧
    gives 0x10 (.shr x) (intExtend t (if w ≤ c then 0 else a / 2 ^ c)) ∧
    gives 0x11 (.sar x) (intExtend t (intNarrow t false (asSigned w a / (2 ^ min c w : Nat)))) ∧
    gives 0x12 (.rot x) (intExtend t ((a * 2 ^ (c % w) + a / 2 ^ (w - c % w)) % 2 ^ w))

/-- R142, R143: CLZ, CTZ and POPC count in the w-bit pattern, w for a zero pattern of the first two, and write the count
zero-extended; EXT extends; BFX extracts the field of b, cut at bit 64, signed by its type; BFI replaces those bits of d that
lie below w. -/
def Obligations.CountAndFieldResults : Prop :=
  ∀ (x : Args) (s : State) (n : Nat), gField x.d = some n →
    let t := codeOf x.d
    let w := intWidth t
    let a := (ops x s).aw.toNat % 2 ^ w
    let pos := (ops x s).bw.toNat % 64
    let len := min ((ops x s).bw.toNat / 64 % 128) (64 - pos)
    let f := a / 2 ^ pos % 2 ^ len
    (clear 0x13 x s = true → ∃ z k, exec (.clz x) s = .next z ∧ WritesG x s z n (BitVec.ofNat 64 k) ∧
      k ≤ w ∧ a < 2 ^ (w - k) ∧ (k < w → 2 ^ (w - k - 1) ≤ a)) ∧
    (clear 0x14 x s = true → ∃ z k, exec (.ctz x) s = .next z ∧ WritesG x s z n (BitVec.ofNat 64 k) ∧
      k ≤ w ∧ (∀ i, i < k → a.testBit i = false) ∧ (k < w → a.testBit k = true)) ∧
    (clear 0x15 x s = true → ∃ z, exec (.popc x) s = .next z ∧
      WritesG x s z n (BitVec.ofNat 64 ((List.range w).filter fun i => a.testBit i).length)) ∧
    (clear 0x16 x s = true → ∃ z, exec (.ext x) s = .next z ∧ WritesG x s z n (intExtend t a)) ∧
    (clear 0x17 x s = true → ∃ z, exec (.bfx x) s = .next z ∧
      WritesG x s z n (intExtend t (intNarrow t false
        (if len = 0 then 0 else if intSigned t then asSigned len f else f)))) ∧
    (clear 0x18 x s = true → ∃ z r, exec (.bfi x) s = .next z ∧ WritesG x s z n (intExtend t r) ∧ r < 2 ^ w ∧
      ∀ i, i < w → r.testBit i =
        if pos ≤ i ∧ i < pos + len then (ops x s).aw.getLsbD (i - pos) else (ops x s).dw.getLsbD i)

/-- R144, R145: SEL writes a when bit 0 of the predicate named by the code bits of field d is 1, and b otherwise; MOV copies
a; MOVW writes the wide value; LEA writes base + displacement or index, wrapped, with no access. -/
def Obligations.SelectAndMoveResults : Prop :=
  ∀ (x : Args) (s : State) (n : Nat), gField x.d = some n →
    let o := ops x s
    let gives := fun (op : Nat) (i : Instr) (v : Word) =>
      clear op x s = true → ∃ z, exec i s = .next z ∧ WritesG x s z n v
    gives 0x19 (.sel x) (if (readP (acting s) (codeOf x.d)).getLsbD 0 then o.aw else o.bw) ∧
    gives 0x1A (.mov x) o.aw ∧ gives 0x1B (.movw x) o.aw ∧ gives 0x1C (.lea x) (o.aw + o.bw)

/-- R146, R147: CMP writes all ones where the condition holds and zero otherwise; PAND, POR, PXOR and PNOT work on all 16
bits; no flag is raised and a write to p0 is discarded. -/
def Obligations.PredicateResults : Prop :=
  ∀ (x : Args) (s : State) (n : Nat), pField x.d = some n →
    let t := codeOf x.d
    let a := intValue t (ops x s).aw.toNat
    let b := intValue t (ops x s).bw.toNat
    let gives := fun (op : Nat) (i : Instr) (v : BitVec 16) =>
      clear op x s = true → ∃ z, exec i s = .next z ∧ WritesP x s z n v 0
    let holds := fun (p : Prop) [Decidable p] => if p then (0xFFFF : BitVec 16) else 0
    gives 0x1D (.cmp .eq x) (holds (a = b)) ∧ gives 0x1E (.cmp .ne x) (holds (a ≠ b)) ∧
    gives 0x1F (.cmp .lt x) (holds (a < b)) ∧ gives 0x20 (.cmp .le x) (holds (a ≤ b)) ∧
    gives 0x21 (.cmp .gt x) (holds (b < a)) ∧ gives 0x22 (.cmp .ge x) (holds (b ≤ a)) ∧
    gives 0x23 (.pand x) ((ops x s).ap &&& (ops x s).bp) ∧ gives 0x24 (.por x) ((ops x s).ap ||| (ops x s).bp) ∧
    gives 0x25 (.pxor x) ((ops x s).ap ^^^ (ops x s).bp) ∧ gives 0x26 (.pnot x) (~~~ (ops x s).ap)

/-! ## Control -/

/-- R149: BR and CALL go to pc + 16 · offset, BRI to a, RET to lk, where the destination is a multiple of 16 in global virtual
space and, for BRI and RET, not the exit link; CALL saves pc + 16 in lk; nothing else changes, and no end check is made. -/
def Obligations.TransferResults : Prop :=
  ∀ (x : Args) (s : State),
    let u := cleared x (acting s)
    let goes := fun (op : Nat) (i : Instr) (dest lk : Word) =>
      clear op x s = true → dest &&& 15 = 0 → (dest >>> 56).toNat < 2 →
        ∃ z, exec i s = .next z ∧ Leaves s z { u with pc := dest, lk := lk, wait := none }
    goes 0x80 (.br x) ((acting s).pc + 16 * (ops x s).aw) (acting s).lk ∧
    goes 0x82 (.call x) ((acting s).pc + 16 * (ops x s).aw) ((acting s).pc + 16) ∧
    ((ops x s).aw ≠ exitLink → goes 0x81 (.bri x) (ops x s).aw (acting s).lk) ∧
    ((acting s).lk ≠ exitLink → goes 0x83 (.ret x) (acting s).lk (acting s).lk)

/-- R149: a destination that is no multiple of 16 raises the misaligned trap (class 2), one outside global virtual space the
permission trap (class 4); trapinfo holds it, lk and pc are unchanged, and the strand is halted. From an aligned pc the
destination of BR and CALL is aligned, so that their trap is the permission trap. -/
def Obligations.TransferTraps : Prop :=
  ∀ (x : Args) (s : State),
    let traps := fun (op : Nat) (i : Instr) (dest : Word) =>
      clear op x s = true → (dest &&& 15 ≠ 0 ∨ 2 ≤ (dest >>> 56).toNat) →
        ∃ z, exec i s = .next z ∧ (getSlot z s.cur).st = .halted ∧ (strandAt z s.cur).trapinfo = dest ∧
          (strandAt z s.cur).pc = (acting s).pc ∧ (strandAt z s.cur).lk = (acting s).lk ∧
          ∃ r, z.records = s.records ++ [r] ∧ r.words.getD 1 0 = dest ∧ r.words.getD 2 0 = (acting s).pc ∧
            ((acting s).ctx < 64 → s.dom.member < 1024 → s.cur < 2 ^ 15 →
              (r.words.getD 0 0).toNat / 2 ^ 48 = if dest &&& 15 = 0 then 4 else 2)
    ((acting s).pc &&& 15 = 0 → ((acting s).pc + 16 * (ops x s).aw) &&& 15 = 0) ∧
    traps 0x80 (.br x) ((acting s).pc + 16 * (ops x s).aw) ∧ traps 0x82 (.call x) ((acting s).pc + 16 * (ops x s).aw) ∧
    ((ops x s).aw ≠ exitLink → traps 0x81 (.bri x) (ops x s).aw) ∧
    ((acting s).lk ≠ exitLink → traps 0x83 (.ret x) (acting s).lk)

/-- R151: BRI and RET to the exit link end a strand that is not in slot 0 and has no debts, once its copies have landed and
its accesses are acknowledged: its slot is ended and its deadline disarmed. In slot 0, or with debts, it halts instead with
the software trap (class 9) and trapinfo 0x04000000 or 0x02000000, and resumes after the instruction. Before, it waits. -/
def Obligations.ExitEndsStrand : Prop :=
  ∀ (x : Args) (s : State),
    let u := cleared x (acting s)
    let ends := fun (op : Nat) (i : Instr) =>
      clear op x s = true →
      ((acting s).copies = [] → owesAck s (acting s).uid s.cur .dom = false → ringHeldBy s (coreOf s.cur) (acting s).uid = none →
        let roots := fun (z : State) (info : Word) => (getSlot z s.cur).st = .halted ∧ (strandAt z s.cur).trapinfo = info ∧
          (strandAt z s.cur).pc = (endCheck (acting s)).pc ∧
          ∃ r, z.records = s.records ++ [r] ∧ r.words.getD 1 0 = info ∧
            ((acting s).ctx < 64 → s.dom.member < 1024 → s.cur < 2 ^ 15 → (r.words.getD 0 0).toNat / 2 ^ 48 = 9)
        ∃ z, exec i s = .next z ∧
          (if slotOf s.cur = 0 then roots z 0x04000000
          else if (acting s).debts ≠ [] then roots z 0x02000000
          else (getSlot z s.cur).st = .ended ∧ (strandAt z s.cur).dlArmed = false ∧ (strandAt z s.cur).units = [] ∧
            (strandAt z s.cur).g = u.g ∧ (strandAt z s.cur).gF = u.gF ∧ (strandAt z s.cur).v = u.v ∧ (strandAt z s.cur).vF = u.vF)) ∧
      ((acting s).copies ≠ [] ∨ owesAck s (acting s).uid s.cur .dom = true →
        ∃ z, exec i s = .next z ∧ (getSlot z s.cur).st = .parked ∧ (strandAt z s.cur).pc = (acting s).pc ∧ z.records = s.records)
    ((ops x s).aw = exitLink → ends 0x81 (.bri x)) ∧ ((acting s).lk = exitLink → ends 0x83 (.ret x))

/-- R152, R153: LOOP arms its set and goes to the body, or past it when the count is 0; a new outer loop disarms the inner
set; an inner body outside an armed outer one is an illegal instruction, part 5, reason 8. LBRK of an armed set disarms it and
goes past its end; LBRK.l0 disarms both; of a set that is not armed it only goes on. R154: NOP leaves the strand at the next line,
except where an armed set ends here: the inner set counts down first and loops back while its count is not zero; the outer set
counts only when the inner does not loop back. -/
def Obligations.LoopResults : Prop :=
  ∀ (x : Args) (s : State),
    let u := cleared x (acting s)
    let t := acting s
    let start := t.pc + 16
    let last := t.pc + 16 * (ops x s).bw
    let count := (ops x s).aw
    let pc := if count = 0 then last + 16 else start
    (clear 0x84 x s = true → ∃ z, exec (.loop .l0 x) s = .next z ∧
      Leaves s z { u with ls0 := start, le0 := last, lc0 := count, lc1 := 0, pc := pc, wait := none }) ∧
    (clear 0x85 x s = true → (t.lc0 = 0 ∨ (t.ls0 ≤ start ∧ last ≤ t.le0)) → ∃ z, exec (.loop .l1 x) s = .next z ∧
      Leaves s z { u with ls1 := start, le1 := last, lc1 := count, pc := pc, wait := none }) ∧
    (clear 0x85 x s = true → t.lc0 ≠ 0 → ¬(t.ls0 ≤ start ∧ last ≤ t.le0) → ∃ z, exec (.loop .l1 x) s = .next z ∧
      (getSlot z s.cur).st = .halted ∧ (strandAt z s.cur).trapinfo = 0x00855800) ∧
    (clear 0x86 x s = true → t.lc0 ≠ 0 → ∃ z, exec (.lbrk .l0 x) s = .next z ∧
      Leaves s z { u with lc0 := 0, lc1 := 0, pc := t.le0 + 16, wait := none }) ∧
    (clear 0x87 x s = true → t.lc1 ≠ 0 → ∃ z, exec (.lbrk .l1 x) s = .next z ∧
      Leaves s z { u with lc1 := 0, pc := t.le1 + 16, wait := none }) ∧
    (clear 0x86 x s = true → t.lc0 = 0 → ∃ z, exec (.lbrk .l0 x) s = .next z ∧ Leaves s z (endWait (endCheck u))) ∧
    (clear 0x87 x s = true → t.lc1 = 0 → ∃ z, exec (.lbrk .l1 x) s = .next z ∧ Leaves s z (endWait (endCheck u))) ∧
    (let ends1 := t.lc1 ≠ 0 ∧ t.pc = t.le1
     let ends0 := t.lc0 ≠ 0 ∧ t.pc = t.le0
     let back1 := ends1 ∧ t.lc1 - 1 ≠ 0
     let back0 := ends0 ∧ t.lc0 - 1 ≠ 0
     clear 0x88 x s = true → ∃ z, exec (.nop x) s = .next z ∧
      Leaves s z { u with
        wait := none
        lc1 := if ends1 then t.lc1 - 1 else t.lc1
        lc0 := if ends0 ∧ ¬back1 then t.lc0 - 1 else t.lc0
        pc := if back1 then t.ls1 else if back0 then t.ls0 else t.pc + 16 })

/-! ## Guards, privilege and traps -/

/-- R129: an instruction that is not lane-masked and whose guard is off has no effect: it completes, with the end check. -/
def Obligations.GuardOffHasNoEffect : Prop :=
  ∀ (i : Instr) (op : Nat) (x : Args) (s : State), argsOf i = some (op, x) → laneMasked op = false →
    (getSlot s s.cur).st = .ready → guardOn (acting s) x = false →
    ∃ z, exec i s = .next z ∧ Leaves s z (endWait (endCheck (acting s)))

/-- R131, R134: a marked form in a strand that the mark does not allow takes the privilege trap (class 1) before any effect, and
so does MTS to `tdbase` outside context 0: trapinfo holds the opcode in [25:16], and the strand resumes at the instruction. -/
def Obligations.PrivilegeTraps : Prop :=
  ∀ (i : Instr) (op : Nat) (x : Args) (s : State), argsOf i = some (op, x) → (getSlot s s.cur).st = .ready →
    (laneMasked op = true ∨ guardOn (acting s) x = true) → privBad op s.cur (acting s) x = true →
    ∃ z, exec i s = .next z ∧ (getSlot z s.cur).st = .halted ∧
      (strandAt z s.cur).trapinfo = BitVec.ofNat 64 (op * 2 ^ 16) ∧ (strandAt z s.cur).pc = (acting s).pc ∧
      (∀ n, readG (strandAt z s.cur) n = readG (acting s) n) ∧
      ∃ r, z.records = s.records ++ [r] ∧ r.words.getD 1 0 = BitVec.ofNat 64 (op * 2 ^ 16) ∧
        ((acting s).ctx < 64 → s.dom.member < 1024 → s.cur < 2 ^ 15 → (r.words.getD 0 0).toNat / 2 ^ 48 = 1)

/-- R162, R169: HALT, TRAP and BKPT make the strand a cordon root whose resume point is after the instruction, the end check
applied first; trapinfo is 0x01000000 for HALT and a[23:0] for the others. -/
def Obligations.HaltResults : Prop :=
  ∀ (x : Args) (s : State),
    let halts := fun (op : Nat) (i : Instr) (cls : Nat) (info : Word) =>
      clear op x s = true → ∃ z, exec i s = .next z ∧ (getSlot z s.cur).st = .halted ∧
        (strandAt z s.cur).trapinfo = info ∧ (strandAt z s.cur).pc = (endCheck (acting s)).pc ∧
        (strandAt z s.cur).lc0 = (endCheck (acting s)).lc0 ∧ (strandAt z s.cur).lc1 = (endCheck (acting s)).lc1 ∧
        (∀ n, readG (strandAt z s.cur) n = readG (acting s) n) ∧
        ∃ r, z.records = s.records ++ [r] ∧ r.ctx = (acting s).ctx ∧ r.words.getD 1 0 = info ∧
          r.words.getD 2 0 = (endCheck (acting s)).pc ∧
          ((acting s).ctx < 64 → s.dom.member < 1024 → s.cur < 2 ^ 15 → (r.words.getD 0 0).toNat / 2 ^ 48 = cls)
    halts 0xC0 (.halt x) 9 0x01000000 ∧ halts 0xC1 (.trap x) 9 ((ops x s).aw &&& 0xFFFFFF) ∧
    halts 0xC2 (.bkpt x) 8 ((ops x s).aw &&& 0xFFFFFF)

/-- R310, R324, R330, R331: taking a trap halts the slot, keeps every register, sets trapinfo and the resume point, leaves every
other slot as it was, and queues one record with the class, trapinfo, resume pc and instruction word. -/
def Obligations.TrapTaken : Prop :=
  ∀ (s : State) (sid cls : Nat) (info : Word) (after : Bool) (word : BitVec 96),
    let z := takeTrap s sid cls info after word
    let t := strandAt s sid
    let u := if after then endWait (endCheck t) else abandon t
    (getSlot z sid).st = .halted ∧
    strandAt z sid = { u with trapinfo := info, wait := none, noticed := (strandAt z sid).noticed, due := u.due.filter fun d => d.1 != 5 } ∧
    (∀ i, i ≠ sid → getSlot z i = getSlot s i) ∧ z.ctxs = s.ctxs ∧ z.hubs = s.hubs ∧
    ∃ r, z.records = s.records ++ [r] ∧ r.core = some (coreOf sid) ∧ r.ctx = t.ctx ∧ r.words.getD 1 0 = info ∧
      r.words.getD 2 0 = u.pc ∧ r.words.getD 6 0 = word.setWidth 64 ∧
      (t.ctx < 64 → s.dom.member < 1024 → sid < 2 ^ 15 → cls < 2 ^ 16 → (r.words.getD 0 0).toNat / 2 ^ 48 = cls)

/-! ## System forms -/

/-- R154, R137: what completing with a result does, from any state `z`: gd takes the value (g0 takes none), no other register
and no flag changes, the end check is made, and nothing outside the slot differs. -/
def Obligations.AnswerCompletes : Prop :=
  ∀ (z : State) (sid n : Nat) (o : Opd) (v : Word), gField o = some n →
    let t := finishAt (setG z sid o v) sid
    OnlySlot z t sid ∧ (getSlot t sid).st = .ready ∧
    (∀ m, readG (strandAt t sid) m = if m = n ∧ n ≠ 0 then v else readG (strandAt z sid) m) ∧
    (∀ m, readV (strandAt t sid) m = readV (strandAt z sid) m) ∧
    (∀ m, readP (strandAt t sid) m = readP (strandAt z sid) m) ∧
    strandAt t sid = { endCheck (strandAt z sid) with
      g := (strandAt t sid).g, gF := (strandAt t sid).gF, gW := (strandAt t sid).gW, wait := none }

/-- R155, R156, R31, R161: MFS writes the special register of its table's index, PART the partition fact, and nothing else; the
`member` of `coord` is the one the strand started with, and 0 while the device stands alone. -/
def Obligations.SpecialReadResults : Prop :=
  ∀ (x : Args) (s : State) (n : Nat), gField x.d = some n →
    let t := acting s
    let value : Word := match idxOf x.a with
      | 0 => BitVec.ofNat 64 s.cycle
      | 1 => BitVec.ofNat 64 s.dtime
      | 2 => BitVec.ofNat 64 (s.cur % 2 ^ 15 + (if s.dom.state = 0 then 0 else t.member) * 2 ^ 16)
      | 3 => slotWord (entry x s) s.cur
      | 4 => BitVec.ofNat 64 t.ctx
      | 5 => t.fflags.setWidth 64
      | 6 => (getCtx s t.ctx).spflag
      | 7 => (getCtx s t.ctx).spaddr
      | 8 => dlstatOf t
      | 9 => t.trapinfo
      | 10 => (getCtx s t.ctx).tdbase
      | 11 => t.lk
      | 12 => t.ls0 &&& ~~~ 15
      | 13 => t.le0 &&& ~~~ 15
      | 14 => t.lc0
      | 15 => t.ls1 &&& ~~~ 15
      | 16 => t.le1 &&& ~~~ 15
      | 17 => t.lc1
      | 18 => t.scmiss
      | 19 => t.dline
      | 20 => t.unitid
      | 21 => t.launchid
      | _ => 0
    (clear 0xC4 x s = true → ∃ z, exec (.mfs x) s = .next z ∧ WritesG x s z n value) ∧
    (clear 0xC9 x s = true → ∃ z, exec (.part x) s = .next z ∧
      WritesG x s z n (BitVec.ofNat 64 (partFact (entry x s) t.ctx (ops x s).aw)))

/-- R155, R134: MTS writes fflags [4:0], lk, the loop registers (starts and ends at a multiple of 16) and scmiss whole, before
its own end check; `valid` of dlstat and spflag are cleared by a one; tdbase is written in context 0 and raises the privilege
trap elsewhere, before any effect; the other registers ignore it. R69: the offences of the cycle in which `valid` of spflag is
cleared are captured after the clear. -/
def Obligations.SpecialWriteResults : Prop :=
  ∀ (x : Args) (s : State),
    let t := acting s
    let u := cleared x t
    let v := (ops x s).aw
    let c := getCtx s t.ctx
    ((getSlot s s.cur).st = .ready → guardOn t x = true → idxOf x.d = 10 → t.ctx ≠ 0 → ∃ z, exec (.mts x) s = .next z ∧
      (getSlot z s.cur).st = .halted ∧ (strandAt z s.cur).trapinfo = 0x00C50000 ∧ z.ctxs = s.ctxs) ∧
    (clear 0xC5 x s = true →
    let sets := fun (k : Nat) (w : Strand) =>
      idxOf x.d = k → ∃ z, exec (.mts x) s = .next z ∧ Leaves s z (endWait (endCheck w))
    sets 5 { u with fflags := v.setWidth 5 } ∧ sets 11 { u with lk := v } ∧
    sets 12 { u with ls0 := v &&& ~~~ 15 } ∧ sets 13 { u with le0 := v &&& ~~~ 15 } ∧ sets 14 { u with lc0 := v } ∧
    sets 15 { u with ls1 := v &&& ~~~ 15 } ∧ sets 16 { u with le1 := v &&& ~~~ 15 } ∧ sets 17 { u with lc1 := v } ∧
    sets 18 { u with scmiss := v } ∧ sets 8 (if v.getLsbD 63 then { u with dlValid := false } else u) ∧
    (∀ k ∈ [0, 1, 2, 3, 4, 7, 9, 19, 20, 21], sets k u) ∧
    (idxOf x.d = 10 → t.ctx = 0 → ∃ z, exec (.mts x) s = .next z ∧ (getCtx z 0).tdbase = v ∧
      getSlot z s.cur = { getSlot s s.cur with st := .ready, s := endWait (endCheck u) } ∧ z.mem = s.mem) ∧
    (idxOf x.d = 6 → ∃ z, exec (.mts x) s = .next z ∧
      (v.getLsbD 8 = false → getCtx z t.ctx = c) ∧
      (v.getLsbD 8 = true → (∀ o, c.spNow = some o → o.cycle = s.cycle → c.spValid = false) →
        (getCtx z t.ctx).spflag = c.spflag &&& 0x0000FFFFFFFFFEFF ∧ (getCtx z t.ctx).spaddr = 0 ∧ (getCtx z t.ctx).spValid = false) ∧
      (∀ o, v.getLsbD 8 = true → c.spNow = some o → o.cycle = s.cycle → c.spValid = true →
        (getCtx z t.ctx).spflag = BitVec.ofNat 64 (min 0xFFFF o.n * 2 ^ 48) ||| o.word ∧ (getCtx z t.ctx).spaddr = o.ea ∧
        (getCtx z t.ctx).spValid = true) ∧
      getSlot z s.cur = { getSlot s s.cur with st := .ready, s := endWait (endCheck u) } ∧ z.mem = s.mem))

/-- R157, R158: TIME writes dtime once every access is acknowledged; DLN arms the deadline, or raises the deadline trap at
once when it has passed, with dline written and none armed; DLX disarms it, and where an expiry has disarmed it before, dline
keeps its value (R159). -/
def Obligations.TimeAndDeadlineResults : Prop :=
  ∀ (x : Args) (s : State),
    let t := acting s
    let u := cleared x t
    (∀ n, gField x.d = some n → clear 0xC6 x s = true → owesAck (entry x s) t.uid s.cur .dom = false →
      ∃ z, exec (.time x) s = .next z ∧ WritesG x s z n (BitVec.ofNat 64 s.dtime)) ∧
    (clear 0xC7 x s = true → s.dtime < (ops x s).aw.toNat → ∃ z, exec (.dln x) s = .next z ∧
      Leaves s z (endWait (endCheck { u with dline := (ops x s).aw, dlArmed := true }))) ∧
    (clear 0xC7 x s = true → (ops x s).aw.toNat ≤ s.dtime → ∃ z, exec (.dln x) s = .next z ∧
      (getSlot z s.cur).st = .halted ∧ (strandAt z s.cur).trapinfo = (ops x s).aw ∧
      (strandAt z s.cur).dline = (ops x s).aw ∧ (strandAt z s.cur).dlArmed = false ∧
      (strandAt z s.cur).pc = (endCheck t).pc) ∧
    (clear 0xC8 x s = true → ∃ z, exec (.dlx x) s = .next z ∧
      Leaves s z (endWait (endCheck { u with dlArmed := false, dline := if t.dlArmed = true then 0 else t.dline })))

/-- R163, R166, R167, R168, R170, R171, R165: RLS releases a halted root; STRT starts a strand in the lowest empty slot; REAP
frees an ended slot; EVICT moves a parked strand to the spill run queue and waits for its image; ADMIT moves the entry that
became ready first into an empty slot and waits for its image; YIELD does nothing in slot 0 and elsewhere queues the issuer
as ready; UTAKE takes the oldest unit. A refused form answers its status. -/
def Obligations.SlotFormsComplete : Prop :=
  ∀ (x : Args) (s : State),
    let t := acting s
    let e := entry x s
    let core := coreOf s.cur
    let c := getCore e core
    let answers := fun (i : Instr) (z : State) (v : Word) =>
      exec i s = .next (finishAt (setG z s.cur x.d v) s.cur)
    (clear 0xC3 x s = true →
      let a := (ops x s).aw.toNat % 2 ^ 15
      ((getSlot e a).st ≠ .halted ∨ t.ctx = 0 ∨ (getSlot e a).s.ctx = t.ctx) →
      owesAck e t.uid s.cur .dev = false → exec (.rls x) s = .next (finishAt (releaseRoot e a) s.cur)) ∧
    (∀ n, clear 0xCA x s = true → owesAck e t.uid s.cur .dev = false → (ops x s).bw.getLsbD 63 = false →
      emptySlot c 1 = some n →
      answers (.strt x) (startIn e (core * 16 + n) t.ctx (ops x s).aw (ops x s).bw none) (slotStatus n 0 0)) ∧
    (∀ n u, clear 0xCA x s = true → owesAck e t.uid s.cur .dev = false → (ops x s).bw.getLsbD 63 = true →
      heldUnit c t (ops x s).bw = some u → emptySlot c (lowSlot e u.launch) = some n →
      answers (.strt x) (startIn (updStrand e s.cur fun y => { y with units := y.units.filter fun w => w != u })
        (core * 16 + n) t.ctx (ops x s).aw 0 (some u)) (slotStatus n 0 0)) ∧
    (clear 0xCB x s = true → 0 < (ops x s).aw.toNat → (ops x s).aw.toNat ≤ 15 →
      (getSlot e (core * 16 + (ops x s).aw.toNat)).st = .ended →
      answers (.reap x) (setSlot e (core * 16 + (ops x s).aw.toNat) Slot.init) (slotStatus (ops x s).aw.toNat 0 0)) ∧
    (∀ p, clear 0xCC x s = true → 0 < (ops x s).aw.toNat → (ops x s).aw.toNat ≤ 15 →
      evictReason e (core * 16 + (ops x s).aw.toNat) = 0 → spillPlace c = some p →
      ∃ z, exec (.evict x) s = .next z ∧ z = parkAt (evictTo e (core * 16 + (ops x s).aw.toNat) p false) s.cur 0xCC 0 0 none
        (.asked (strandAt e (core * 16 + (ops x s).aw.toNat)).uid) (some (ops x s)) (syncRegs x) (packWord 0xCC x)) ∧
    (clear 0xCC x s = true → ((ops x s).aw.toNat < 1 ∨ 15 < (ops x s).aw.toNat) →
      answers (.evict x) e (slotStatus 0 10 6)) ∧
    (∀ y n, clear 0xCD x s = true → oldestSpill c = some y → spillSlot e core y = some n →
      exec (.admitStrand x) s = .next (parkAt (admitTo e core y n) s.cur 0xCD 0 0 none (.asked y.strand.uid)
        (some (ops x s)) (syncRegs x) (packWord 0xCD x))) ∧
    (clear 0xCD x s = true → oldestSpill c = none → answers (.admitStrand x) e (slotStatus 0 7 6)) ∧
    (clear 0xCE x s = true → slotOf s.cur = 0 → exec (.yield x) s = .next (finishAt e s.cur)) ∧
    (∀ p, clear 0xCE x s = true → slotOf s.cur ≠ 0 → t.copies = [] → spillPlace c = some p →
      exec (.yield x) s = .next (evictTo (finishAt e s.cur) s.cur p true)) ∧
    (∀ n y, clear 0xCF x s = true → unitOldest c = some (n, y) →
      answers (.utake x) (updStrand (updCore e core fun k => { k with unitInbox := mapPut k.unitInbox n { y with taken := true } })
        s.cur fun w => { w with units := w.units ++ [y.unit] }) (unitHandle n y.unit))

/-! ## Vector forms -/

/-- R173: what a lane-masked form does to its destination: an unmasked lane takes its result, narrowed to the lane; a masked
lane, and every bit above the lanes, is unchanged; a flag is raised exactly where an unmasked lane raises it. -/
def Obligations.MaskedLanesKept : Prop :=
  ∀ (w n : Nat) (m : BitVec 16) (old : Vec) (f : Nat → FRes), 0 < w → w * n ≤ 128 →
    (∀ i, i < n → laneGet w i (lanewise w n m old f).1 =
      if laneOn m w i then (f i).bits % 2 ^ w else laneGet w i old) ∧
    (∀ j, w * n ≤ j → (lanewise w n m old f).1.getLsbD j = old.getLsbD j) ∧
    (∀ j, (lanewise w n m old f).2.getLsbD j = (List.range n).any fun i => laneOn m w i && (f i).fl.getLsbD j)

/-- R177, R178: on an integer type code every unmasked lane takes the exact result, narrowed to the type or clamped with
`:sat`; no flag is raised; the count of a shift is the lane of vb or the immediate, read unsigned. -/
def Obligations.VectorIntegerResults : Prop :=
  ∀ (x : Args) (s : State) (n : Nat), vField x.d = some n → isFloat (codeOf x.d) = false →
    let t := codeOf x.d
    let w := intWidth t
    let a := fun i => srcLane x.a t (ops x s).av i
    let b := fun i => srcLane x.b t (ops x s).b i
    let c := fun i => if isImm x.b then (ops x s).bw.toNat else laneGet w i (ops x s).b
    let gives := fun (op : Nat) (i : Instr) (sat : Bool) (e : Nat → Int) =>
      clear op x s = true → ∃ z, exec i s = .next z ∧
        let r := lanewise w (lanesOf t) (laneMask (acting s) x) (readV (acting s) n) fun k => ⟨intNarrow t sat (e k), 0⟩
        WritesV x s z n r.1 r.2
    gives 0x100 (.vadd x) (satOf x) (fun k => intValue t (a k) + intValue t (b k)) ∧
    gives 0x101 (.vsub x) (satOf x) (fun k => intValue t (a k) - intValue t (b k)) ∧
    gives 0x102 (.vmul x) (satOf x) (fun k => intValue t (a k) * intValue t (b k)) ∧
    gives 0x104 (.vmin x) false (fun k => min (intValue t (a k)) (intValue t (b k))) ∧
    gives 0x105 (.vmax x) false (fun k => max (intValue t (a k)) (intValue t (b k))) ∧
    gives 0x106 (.vabs x) (satOf x) (fun k => (intValue t (a k)).natAbs) ∧
    gives 0x107 (.vneg x) (satOf x) (fun k => -intValue t (a k)) ∧
    gives 0x10B (.vshl x) (satOf x)
      (fun k => intValue t (laneGet w k (ops x s).av) * (2 ^ min (c k) w : Nat)) ∧
    gives 0x10D (.vsar x) false
      (fun k => asSigned w (laneGet w k (ops x s).av) / (2 ^ min (c k) w : Nat)) ∧
    (clear 0x10C x s = true → ∃ z, exec (.vshr x) s = .next z ∧
      let r := lanewise w (lanesOf t) (laneMask (acting s) x) (readV (acting s) n) fun k =>
        ⟨if w ≤ c k then 0 else laneGet w k (ops x s).av / 2 ^ c k, 0⟩
      WritesV x s z n r.1 r.2)

/-- R180-R182: on a floating type code VADD, VSUB, VMUL and VFMA round the exact lane result once in the mode of field a and
raise its flags; VMIN and VMAX choose an operand; VABS and VNEG clear and invert the sign bit, NaN lanes apart. -/
def Obligations.VectorFloatResults : Prop :=
  ∀ (x : Args) (s : State) (n : Nat), vField x.d = some n → isFloat (codeOf x.d) = true →
    let t := codeOf x.d
    let f := fmtOf t
    let r := rndOf (codeOf x.a)
    let a := fun i => srcLane x.a t (ops x s).av i
    let b := fun i => srcLane x.b t (ops x s).b i
    let gives := fun (op : Nat) (i : Instr) (e : Nat → FRes) =>
      clear op x s = true → ∃ z, exec i s = .next z ∧
        let q := lanewise (elemBits t) (lanesOf t) (laneMask (acting s) x) (readV (acting s) n) e
        WritesV x s z n q.1 q.2
    gives 0x100 (.vadd x) (fun k => fpAdd f r (fpValue f (a k)) (fpValue f (b k))) ∧
    gives 0x101 (.vsub x) (fun k => fpAdd f r (fpValue f (a k)) (negVal (fpValue f (b k)))) ∧
    gives 0x102 (.vmul x) (fun k => fpMul f r (fpValue f (a k)) (fpValue f (b k))) ∧
    gives 0x103 (.vfma x) (fun k => fpFma f r (fpValue f (a k)) (fpValue f (b k))
      (fpValue f (laneGet (elemBits t) k (ops x s).d))) ∧
    gives 0x104 (.vmin x) (fun k => fpMinMax f false (a k) (b k)) ∧
    gives 0x105 (.vmax x) (fun k => fpMinMax f true (a k) (b k)) ∧
    gives 0x106 (.vabs x) (fun k => if isNan (fpValue f (a k)) then ⟨qnan f, if sigOf (fpValue f (a k)) then flInvalid else 0⟩
      else ⟨a k % 2 ^ (f.eb + f.fb), 0⟩) ∧
    gives 0x107 (.vneg x) (fun k => if isNan (fpValue f (a k)) then ⟨qnan f, if sigOf (fpValue f (a k)) then flInvalid else 0⟩
      else ⟨a k ^^^ 2 ^ (f.eb + f.fb), 0⟩)

/-- R45: the one rounding of m · 2^e to a multiple of 2^q keeps a value that is already one; toward zero it cuts; to nearest
it is within half a quantum, a tie going to an even multiple; down and up it goes against and with the sign; it is inexact
exactly when the value is no multiple. -/
def Obligations.RoundingIsCorrect : Prop :=
  ∀ (s : Bool) (m : Nat) (e q : Int),
    (q ≤ e → ∀ r, roundTo r s m e q = (m * 2 ^ (e - q).toNat, false)) ∧
    (e < q →
      let u := 2 ^ (q - e).toNat
      let n := fun r => (roundTo r s m e q).1
      n .rtz * u ≤ m ∧ m < (n .rtz + 1) * u ∧
      2 * (n .rne * u) ≤ 2 * m + u ∧ 2 * m ≤ 2 * (n .rne * u) + u ∧
      (2 * (n .rne * u) = 2 * m + u ∨ 2 * m = 2 * (n .rne * u) + u → n .rne % 2 = 0) ∧
      n .rdn = (if s = true ∧ m % u ≠ 0 then n .rtz + 1 else n .rtz) ∧
      n .rup = (if s = false ∧ m % u ≠ 0 then n .rtz + 1 else n .rtz) ∧
      ∀ r, (roundTo r s m e q).2 = decide (m % u ≠ 0))

/-- R38, R49, R50, R180, R181, R186, R193, R194: a NaN operand of a sum, product, multiply-add, scaling, function or conversion
gives the canonical quiet NaN of the result's format, and invalid exactly when a NaN operand is signalling, when the operation
itself is invalid, or when the result's format has no quiet NaN to carry it (fp8, e2m1); VMIN and VMAX give the other operand;
a conversion to an integer gives 0 and invalid. -/
def Obligations.NanResults : Prop :=
  ∀ (f g : Fmt) (r : Rnd) (a b d : FVal) (xs : List FVal) (u v k : Nat) (n : Int) (sat : Bool),
    let quiet := fun (sig : Bool) => (⟨qnan f, if sig then flInvalid else 0⟩ : FRes)
    ((isNan a = true ∨ isNan b = true) → fpAdd f r a b = quiet (sigOf a || sigOf b) ∧ fpMul f r a b = quiet (sigOf a || sigOf b) ∧
      fpSub f r a b = quiet (sigOf a || sigOf b)) ∧
    (∀ p, fpAdd f r (.inf p) (.inf !p) = quiet true) ∧ (∀ p q e, fpMul f r (.inf p) (.fin q 0 e) = quiet true) ∧
    ((isNan a = true ∨ isNan b = true ∨ isNan d = true) → fpFma f r a b d = quiet (sigOf a || sigOf b || sigOf d ||
      ((isZero a && b == .inf (signOf b)) || (isZero b && a == .inf (signOf a))))) ∧
    (xs.any isNan = true → fpSum f r xs = quiet (xs.any sigOf || (xs.contains (.inf false) && xs.contains (.inf true)))) ∧
    (∀ s, fpValue f u = .nan s → fpLdexp f r u n = quiet s ∧ fpSplit f k u = (some (qnan f), 0, if s = true then flInvalid else 0)) ∧
    (isNan a = true → ∀ h ∈ [fpExp2, fpLog2, fpRcp, fpRsq, fpTanh], h f a = quiet (sigOf a)) ∧
    (∀ s, fpValue g u = .nan s → fpToFp g f r sat u = quiet (s || (g != f && (f == fp8 || f == e2m1))) ∧
      fpToInt g k r u = ⟨0, flInvalid⟩) ∧
    (let x := fpValue f u
     let y := fpValue f v
     let fl := if (sigOf x || sigOf y) = true then flInvalid else 0
     ∀ m, (isNan x = true → isNan y = true → fpMinMax f m u v = ⟨qnan f, fl⟩) ∧
      (isNan x = true → isNan y = false → fpMinMax f m u v = ⟨v, fl⟩) ∧
      (isNan x = false → isNan y = true → fpMinMax f m u v = ⟨u, fl⟩))

/-- R184, R185, R187: VAND, VOR and VXOR work on all 128 bits; VSEL takes a byte of va where the sign bit of vb's byte is 1
and zero elsewhere; VPERM takes the byte of va that the low four bits of vb's byte name, or zero; the mask is by bytes. -/
def Obligations.VectorByteResults : Prop :=
  ∀ (x : Args) (s : State) (n : Nat), vField x.d = some n →
    let a := (ops x s).av
    let b : Vec := (ops x s).b
    let sel := fun k => laneGet 8 k b
    let gives := fun (op : Nat) (i : Instr) (e : Nat → Nat) =>
      clear op x s = true → ∃ z, exec i s = .next z ∧
        let r := lanewise 8 16 (laneMask (acting s) x) (readV (acting s) n) fun k => ⟨e k, 0⟩
        WritesV x s z n r.1 r.2
    gives 0x108 (.vand x) (fun k => laneGet 8 k a &&& laneGet 8 k b) ∧
    gives 0x109 (.vor x) (fun k => laneGet 8 k a ||| laneGet 8 k b) ∧
    gives 0x10A (.vxor x) (fun k => laneGet 8 k a ^^^ laneGet 8 k b) ∧
    gives 0x114 (.vsel x) (fun k => if (sel k).testBit 7 then laneGet 8 k a else 0) ∧
    gives 0x1C1 (.vperm x) (fun k => if (sel k).testBit 7 then 0 else laneGet 8 (sel k &&& 15) a)

/-- R183: VCMP writes, for each unmasked lane, every predicate bit that covers its bytes with whether the condition holds, and
keeps the bits of masked lanes; integer lanes raise no flag. R189: VEXT extends or, for a floating type, zero-extends the
lane. -/
def Obligations.CompareAndExtractResults : Prop :=
  ∀ (x : Args) (s : State) (n : Nat),
    let t := codeOf x.d
    let w := elemBits t
    let m := laneMask (acting s) x
    let cond := fun c k => cmpLane c t (srcLane x.a t (ops x s).av k) (srcLane x.b t (ops x s).b k)
    (∀ c, pField x.d = some n → w ∈ [8, 16, 32, 64] → lanesOf t = 128 / w → clear (0x10E + condNum c) x s = true →
      ∃ z p fl, exec (.vcmp c x) s = .next z ∧ WritesP x s z n p fl ∧
        (∀ j, j < 16 → p.getLsbD j = if laneOn m w (8 * j / w) then (cond c (8 * j / w)).1 else (readP (acting s) n).getLsbD j) ∧
        (isFloat t = false → fl = 0)) ∧
    (gField x.d = some n → clear 0x1C4 x s = true → ∃ z, exec (.vext x) s = .next z ∧
      WritesG x s z n
        (let u := laneGet w (immOf x.b).toNat (ops x s).av
         if isFloat t then BitVec.ofNat 64 u else intExtend t u))

/-- R179, R186, R188, R189: VDOT adds four byte products to each 32-bit lane; VSUM writes the sum of every lane of va, masked
or not, to lane 0 and zero to the others; VSPLAT writes a to every lane; VINS writes a to one lane. -/
def Obligations.VectorArrangeResults : Prop :=
  ∀ (x : Args) (s : State) (n : Nat), vField x.d = some n →
    let t := codeOf x.d
    let w := elemBits t
    let o := ops x s
    let gives := fun (op : Nat) (i : Instr) (w' k : Nat) (e : Nat → FRes) =>
      clear op x s = true → ∃ z, exec i s = .next z ∧
        let r := lanewise w' k (laneMask (acting s) x) (readV (acting s) n) e
        WritesV x s z n r.1 r.2
    let byte := fun (v : Vec) (k : Nat) => intValue t (laneGet 8 k v)
    let t32 := if t = 1 then 3 else 11
    let lanes := (List.range (lanesOf t)).map fun k => srcLane x.a t o.av k
    gives 0x115 (.vdot x) 32 4 (fun j => ⟨intNarrow t32 (satOf x) (intValue t32 (laneGet 32 j o.d) +
      byte o.av (4 * j) * byte o.b (4 * j) + byte o.av (4 * j + 1) * byte o.b (4 * j + 1) +
      byte o.av (4 * j + 2) * byte o.b (4 * j + 2) + byte o.av (4 * j + 3) * byte o.b (4 * j + 3)), 0⟩) ∧
    gives 0x116 (.vsum x) w (lanesOf t) (fun j => if j = 0 then
      (if isFloat t then fpSum (fmtOf t) (rndOf (codeOf x.a)) (lanes.map (fpValue (fmtOf t)))
       else ⟨intNarrow t (satOf x) (lanes.map (intValue t)).sum, 0⟩) else ⟨0, 0⟩) ∧
    gives 0x1C2 (.vsplat x) w (lanesOf t) (fun _ => ⟨o.aw.toNat, 0⟩) ∧
    gives 0x1C3 (.vins x) w (lanesOf t) (fun k => ⟨if (k : Int) = immOf x.b then o.aw.toNat else laneGet w k o.d, 0⟩)

/-- R190: VCVT converts the low elements of va and zeroes every unmasked byte above them. R193: VEXP2, VLOG2, VRCP, VRSQ and
VTANH write the function of each lane. R195, R196: VMAXE and VLDEXP. -/
def Obligations.ConversionAndFunctionResults : Prop :=
  ∀ (x : Args) (s : State) (n : Nat), vField x.d = some n →
    let t := codeOf x.d
    let w := elemBits t
    let f := fmtOf t
    let a := fun i => srcLane x.a t (ops x s).av i
    let b := fun i => srcLane x.b t (ops x s).b i
    let m := laneMask (acting s) x
    let gives := fun (op : Nat) (i : Instr) (e : Nat → FRes) =>
      clear op x s = true → ∃ z, exec i s = .next z ∧
        let q := lanewise w (lanesOf t) m (readV (acting s) n) e
        WritesV x s z n q.1 q.2
    (clear 0x1C0 x s = true → ∃ z, exec (.vcvt x) s = .next z ∧
      let sw := elemBits (immOf x.b).toNat
      let k := 128 / max sw w
      let q := lanewise w k m (readV (acting s) n) fun i =>
        convert (immOf x.b).toNat t (rndOf (codeOf x.a)) (satOf x) (laneGet sw i (ops x s).av)
      let top := (k * w + 7) / 8
      WritesV x s z n (lanewise 8 16 (m &&& BitVec.ofNat 16 (65535 * 2 ^ top)) q.1 fun _ => ⟨0, 0⟩).1 q.2) ∧
    gives 0x180 (.vexp2 x) (fun i => fpExp2 f (fpValue f (a i))) ∧
    gives 0x181 (.vlog2 x) (fun i => fpLog2 f (fpValue f (a i))) ∧
    gives 0x182 (.vrcp x) (fun i => fpRcp f (fpValue f (a i))) ∧
    gives 0x183 (.vrsq x) (fun i => fpRsq f (fpValue f (a i))) ∧
    gives 0x184 (.vtanh x) (fun i => fpTanh f (fpValue f (a i))) ∧
    gives 0x186 (.vmaxe x) (fun i =>
      if isFloat t then ⟨intNarrow (intBeside t) false (max (fpExpLane f w (a i)) (fpExpLane f w (b i))), 0⟩
      else ⟨intNarrow t false (max (intValue t (a i)) (intValue t (b i))), 0⟩) ∧
    gives 0x187 (.vldexp x) (fun i => fpLdexp f (rndOf (codeOf x.a)) (a i) (intValue (intBeside t) (b i)))

/-- R194, R197: VEXPN writes fractions to vd and integers to vd + 1; VRMAX writes the new maximum to vd and the shift, at least
the lane minimum and at most 0, to vd + 1; both under one mask. The fraction of a lane where no pattern holds it is a free
value (notes/assumptions/11.md). -/
def Obligations.PairedLaneResults : Prop :=
  ∀ (x : Args) (s : State) (n : Nat), vField x.d = some n →
    let t := codeOf x.d
    let w := elemBits t
    let m := laneMask (acting s) x
    let a := fun i => srcLane x.a t (ops x s).av i
    let into := fun (d : Nat) (e : Nat → FRes) => lanewise w (lanesOf t) m (readV (acting s) d) e
    (clear 0x185 x s = true → ∃ (z : State) (fr : Nat → Nat), exec (.vexpn x) s = .next z ∧
      (∀ i, ((fpSplit (fmtOf t) w (a i)).1).all (fun u => decide (fr i = u)) = true) ∧
      let r := into n fun i => ⟨fr i, (fpSplit (fmtOf t) w (a i)).2.2⟩
      WritesVV x s z n r.1 (into (n + 1) fun i => ⟨intNarrow (intBeside t) false (fpSplit (fmtOf t) w (a i)).2.1, 0⟩).1 r.2) ∧
    (clear 0x188 x s = true → ∃ z, exec (.vrmax x) s = .next z ∧
      let old := fun i => intValue t (laneGet w i (ops x s).d)
      let new := fun i => max (old i) (intValue t (laneGet w i (ops x s).av))
      WritesVV x s z n (into n fun i => ⟨intNarrow t false (new i), 0⟩).1
        (into (n + 1) fun i => ⟨intNarrow t false (max (old i - new i) (intMin t)), 0⟩).1 0)

/-! ## Words, fetch and reset -/

/-- R115-R122, R133: decoding the word of any well-formed instruction gives the instruction back, with every field at every
value its encoding admits. -/
def Obligations.DecodeEncodeAgree : Prop :=
  ∀ (i : Instr) (w : BitVec 96), wellFormed i = true → encode i = some w → decodeWord w = .ok i

/-- R115-R119, R133: a word that decodes is the word of the instruction it decodes to, and that instruction is well formed: no
bit of an accepted word is dropped. R132: every opcode outside the map is unassigned, and a word with such an opcode, and no other,
is illegal with part 0 and reason 0. -/
def Obligations.EncodeDecodeAgree : Prop :=
  ∀ w : BitVec 96,
    let op := (w.extractLsb' 86 10).toNat
    (∀ i, decodeWord w = .ok i → encode i = some w ∧ wellFormed i = true) ∧
    (decodeWord w = .illegal 0 0 ↔
      (op = 0 ∨ (0x27 ≤ op ∧ op ≤ 0x7F) ∨ (0x89 ≤ op ∧ op ≤ 0xBF) ∨ (0xD0 ≤ op ∧ op ≤ 0xFF) ∨ (0x117 ≤ op ∧ op ≤ 0x17F) ∨
       (0x189 ≤ op ∧ op ≤ 0x1BF) ∨ (0x1C5 ≤ op ∧ op ≤ 0x1FF) ∨ (0x21A ≤ op ∧ op ≤ 0x27F) ∨ (0x289 ≤ op ∧ op ≤ 0x2BF) ∨
       (0x2D1 ≤ op ∧ op ≤ 0x2FF) ∨ (0x30F ≤ op ∧ op ≤ 0x37F) ∨ (0x38F ≤ op ∧ op ≤ 0x3FF)))

/-- R131, R147, R152: words written out from the spec's encodings stand for their instructions: `CMP.lt.n32 p2, g3, 100`,
`LOOP.l1 g4, +3`, and forms of every other family. -/
def Obligations.DecodedWordsStand : Prop :=
  let g := fun (c : BitVec 4) (n : BitVec 6) => Opd.reg ⟨.g, false, false, c, n⟩
  let v := fun (c : BitVec 4) (n : BitVec 6) => Opd.reg ⟨.v, false, false, c, n⟩
  let word := fun (bs : List Nat) => decodeBytes (bs.map fun b => BitVec.ofNat 8 b)
  word [0x64, 0x00, 0x00, 0x0D, 0x00, 0x00, 0x20, 0x00, 0xB0, 0x08, 0xC0, 0x07] =
    .ok (.cmp .lt ⟨false, 0, 0, .reg ⟨.p, false, false, 11, 2⟩, g 0 3, .imm 100⟩) ∧
  word [0x03, 0x00, 0x00, 0x11, 0x00, 0x00, 0x00, 0x00, 0x00, 0x30, 0x40, 0x21] =
    .ok (.loop .l1 ⟨false, 0, 0, .none, g 0 4, .imm 3⟩) ∧
  word [0x03, 0x00, 0x40, 0x08, 0x00, 0x00, 0x11, 0x00, 0x50, 0x04, 0x00, 0x40] =
    .ok (.vadd ⟨false, 0, 0, v 5 1, v 0 2, v 0 3⟩) ∧
  word [0x08, 0x00, 0x00, 0x09, 0x00, 0x00, 0x20, 0x00, 0x40, 0x00, 0x00, 0x80] =
    .ok (.ld ⟨false, 0, 0, g 4 2, g 0 2, .imm 8⟩) ∧
  word [0x00, 0x00, 0x00, 0x03, 0x00, 0x00, 0x0C, 0x00, 0x00, 0x30, 0x00, 0x22] = .ok (.nop ⟨false, 0, 0, .none, .none, .none⟩) ∧
  word [0, 0, 0, 0, 0, 0, 0, 0, 0, 0, 0, 0] = .illegal 0 0

/-- R13, R74, R133, R135: when the next act is the issue of a ready strand of a running context, for which no trap is due, whose pc
is a multiple of 16 in global virtual space and whose line is in the buffer, a step is the decoded instruction's `exec` with that slot acting and its
core's moved bit set; a word that does not decode halts the strand with the illegal-instruction trap instead. -/
def Obligations.StepRunsDecoded : Prop :=
  ∀ (s s1 : State) (sid : Nat) (w : BitVec 96), nextAct s = (.issue sid, s1) → (getSlot s1 sid).st = .ready →
    ctxRuns s1 (strandAt s1 sid).ctx = true → dueNow (strandAt s1 sid) = none → waitWord (strandAt s1 sid) = none →
    ((strandAt s1 sid).pc >>> 56).toNat < 2 → (strandAt s1 sid).pc.toNat % 16 = 0 →
    ibufWord s1 (coreOf sid) (strandAt s1 sid).pc = some w →
      let s2 := markIssue s1 sid
      s2.cur = sid ∧ (∀ k, getSlot s2 k = getSlot s1 k) ∧ s2.mem = s1.mem ∧ s2.net = s1.net ∧
      (∀ i, decodeWord w = .ok i → step s = exec i s2) ∧
      (∀ p r, decodeWord w = .illegal p r → ∃ z, step s = .next z ∧ (getSlot z sid).st = .halted ∧
        (strandAt z sid).trapinfo = BitVec.ofNat 64 ((w.extractLsb' 86 10).toNat * 2 ^ 16 + p * 2 ^ 12 + r * 2 ^ 8) ∧
        (strandAt z sid).pc = (strandAt s1 sid).pc)

/-- R74 (withFetchWord, notes/assumptions/5.md): a word placed in the state after reset is the first instruction that a step
runs. -/
def Obligations.PlacedWordRuns : Prop :=
  ∀ (n : Nat) (i : Instr), decodeWord (BitVec.ofNat 96 (n % 2 ^ 96)) = .ok i →
    ∃ s, step (State.reset.withFetchWord 96 n) = exec i s ∧ s.cur = 0 ∧ (getSlot s 0).st = .ready ∧ s.mem = [] ∧
      (∀ k, readG (strandAt s 0) k = 0) ∧ (∀ k, readV (strandAt s 0) k = 0) ∧ (strandAt s 0).pc = 0

/-- R5, R6, R452: after reset `cycle` and `dtime` are zero, no context runs, every slot is empty, nothing travels and no
function is ready; the first step is the reset event itself. What R5 and R452 do not say (memory lists nothing, registers
read as zero) is the model's choice (notes/assumptions/3.md). -/
def Obligations.ResetFacts : Prop :=
  State.reset.cycle = 0 ∧ State.reset.dtime = 0 ∧ (∀ k, (getSlot State.reset k).st = .empty) ∧
  (∀ c, ctxRuns State.reset c = false) ∧ State.reset.net = [] ∧ State.reset.records = [] ∧ State.reset.mgmt.ready = 0 ∧
  (∀ c n, readG (getSlot State.reset c).s n = 0) ∧
  (∃ z, step State.reset = .next z ∧ z.cycle = 0 ∧ z.dtime = 0 ∧ (∀ k, (getSlot z k).st = .empty) ∧ z.net = [] ∧ z.mem = [])

/-- The memory list of every state that a step reaches from a state with a canonical one is canonical: addresses rising, and
no entry that an unlisted address would read as. -/
def Obligations.MemoryFormKept : Prop :=
  ∀ s t : State, memWf s.mem = true → step s = .next t → memWf t.mem = true

/-- Memory is in canonical form after reset. -/
def Obligations.ResetMemoryForm : Prop := memWf State.reset.mem = true

/-- R126: an instruction that reads an empty register with sync does not issue: its strand parks, with no register, F bit, pc,
packet or byte of memory changed. (Where what it waits for is withheld, it joins the cordon after the events of the cycle, R315.) -/
def Obligations.EmptySyncParks : Prop :=
  ∀ (i : Instr) (op : Nat) (x : Args) (s : State), argsOf i = some (op, x) → passes op x s = true →
    (acting s).wait.bind (·.opnds) = none → (syncRegs x).all (fullOf (acting s)) = false →
    ∃ z, exec i s = .next z ∧ (getSlot z s.cur).st = .parked ∧ z.mem = s.mem ∧ z.net = s.net ∧
      strandAt z s.cur = { acting s with wait := (strandAt z s.cur).wait } ∧ ∀ k, k ≠ s.cur → getSlot z k = getSlot s k

/-! ## Memory forms -/

/-- R199, R202, R203, R206: LD, ACQ and VLD of an own-scratchpad address write the bytes there, little-endian: extended to a g
register, or the unmasked bytes of a v register; no byte of memory and no other register changes. A masked-out VLD writes
nothing. -/
def Obligations.OwnLoadResults : Prop :=
  ∀ (x : Args) (s : State),
    let w := intWidth (codeOf x.d) / 8
    let free := fun (ea : Word) (n : Nat) =>
      ownSpace ea n ∧ reserved s (ownKey s ea) n = false ∧ poisoned s (ownKey s ea) n = false
    (∀ n, gField x.d = some n → clear 0x200 x s = true → free (address x s w) w → ∃ z, exec (.ld x) s = .next z ∧
      WritesG x s z n (intExtend (codeOf x.d) (readLe s.mem (ownKey s (address x s w)) w))) ∧
    (∀ n c, gField x.d = some n → clear (0x206 + scopeNum c) x s = true → free (address x s w) w →
      ∃ z, exec (.acq c x) s = .next z ∧
        WritesG x s z n (intExtend (codeOf x.d) (readLe s.mem (ownKey s (address x s w)) w))) ∧
    (∀ n, vField x.d = some n → clear 0x202 x s = true → free (address x s 16) 16 → ∃ z v, exec (.vld x) s = .next z ∧
      WritesV x s z n v 0 ∧ ∀ i, i < 16 → laneGet 8 i v =
        if (laneMask (acting s) x).getLsbD i then (readByte s.mem (ownKey s (address x s 16) + i)).toNat
        else laneGet 8 i (readV (acting s) n))

/-- R199, R202, R203, R207: ST, REL and VST to an own-scratchpad address store the low bytes of field d, or the unmasked bytes
of the v register, little-endian, and change nothing else; while an access in its scope is unacknowledged, REL waits with no
effect. -/
def Obligations.OwnStoreResults : Prop :=
  ∀ (x : Args) (s : State),
    let w := intWidth (codeOf x.d) / 8
    let free := fun (ea : Word) (n : Nat) => ownSpace ea n ∧ reserved s (ownKey s ea) n = false
    let byte := fun (i : Nat) => BitVec.ofNat 8 ((ops x s).d.toNat / 256 ^ i)
    (clear 0x201 x s = true → free (address x s w) w → ∃ z, exec (.st x) s = .next z ∧
      StoresTo x s z (ownKey s (address x s w)) w fun i => some (byte i)) ∧
    (∀ c, clear (0x20B + scopeNum c) x s = true → free ((ops x s).aw + (ops x s).bw) w →
      owesAck s (acting s).uid s.cur c = false → ∃ z, exec (.rel c x) s = .next z ∧
        StoresTo x s z (ownKey s ((ops x s).aw + (ops x s).bw)) w fun i => some (byte i)) ∧
    (∀ c, clear (0x20B + scopeNum c) x s = true → free ((ops x s).aw + (ops x s).bw) w →
      owesAck s (acting s).uid s.cur c = true → ∃ z, exec (.rel c x) s = .next z ∧ (getSlot z s.cur).st = .parked ∧
        (strandAt z s.cur).pc = (acting s).pc ∧ z.mem = s.mem ∧ z.net = s.net ∧ (∀ m, readG (strandAt z s.cur) m = readG (acting s) m)) ∧
    (clear 0x203 x s = true → free (address x s 16) 16 → ∃ z, exec (.vst x) s = .next z ∧
      StoresTo x s z (ownKey s (address x s 16)) 16 fun i => if (laneMask (acting s) x).getLsbD i then some (byte i) else none)

/-- R204: LDM writes n consecutive g registers with n consecutive words of the own scratchpad, STM stores them; g0 takes no
value and reads as zero. -/
def Obligations.MultipleWordResults : Prop :=
  ∀ (x : Args) (s : State),
    let n := codeOf x.d + 1
    let d := idxOf x.d
    let ea := (ops x s).aw + (ops x s).bw
    let inside := ownSpace ea 8 ∧ ea.toNat % 2 ^ 56 + 8 * n ≤ 2 ^ 18
    let free := ∀ i, i < n → reserved s (ownKey s ea + 8 * i) 8 = false
    (clear 0x204 x s = true → inside → free → (∀ i, i < n → poisoned s (ownKey s ea + 8 * i) 8 = false) →
      ∃ z, exec (.ldm x) s = .next z ∧
        Result x s z
          (fun m => if d ≤ m ∧ m < d + n ∧ m ≠ 0 then BitVec.ofNat 64 (readLe s.mem (ownKey s ea + 8 * (m - d)) 8)
            else readG (acting s) m)
          (readV (acting s)) (readP (acting s)) (acting s).fflags
          (fun r => match r with | .g m => decide (d ≤ m ∧ m < d + n ∧ m ≠ 0) | .v _ => false)) ∧
    (clear 0x205 x s = true → (acting s).wait = none → inside → free → ∃ z, exec (.stm x) s = .next z ∧
      StoresTo x s z (ownKey s ea) (8 * n) fun i =>
        some (BitVec.ofNat 8 ((readG (acting s) (d + i / 8)).toNat / 256 ^ (i % 8))))

/-- R62, R63, R200: a load or store whose address space its form may not reach takes the permission trap with the address in
trapinfo; a misaligned one takes the misaligned trap; the pc and every g register keep their values. -/
def Obligations.AccessTraps : Prop :=
  ∀ (x : Args) (s : State),
    let w := intWidth (codeOf x.d) / 8
    let traps := fun (op : Nat) (i : Instr) (n : Nat) (spaces : List Nat) =>
      clear op x s = true →
        let ea := address x s n
        let sel := if (ea >>> 56).toNat = 1 then 0 else (ea >>> 56).toNat
        (sel ∉ spaces ∨ ea.toNat % n ≠ 0) → ∃ z, exec i s = .next z ∧ (getSlot z s.cur).st = .halted ∧
          (strandAt z s.cur).pc = (acting s).pc ∧ (∀ m, readG (strandAt z s.cur) m = readG (acting s) m) ∧
          (sel ∉ spaces → (strandAt z s.cur).trapinfo = ea) ∧
          ∃ r, z.records = s.records ++ [r] ∧
            ((acting s).ctx < 64 → s.dom.member < 1024 → s.cur < 2 ^ 15 →
              (r.words.getD 0 0).toNat / 2 ^ 48 = if sel ∉ spaces then 4 else 2)
    traps 0x200 (.ld x) w [0xF0, 0xF1, 0, 0xFE] ∧ traps 0x201 (.st x) w [0xF0, 0xF1, 0, 0xF5, 0xFE] ∧
    (laneMask (acting s) x ≠ 0 → traps 0x202 (.vld x) 16 [0xF0, 0xF1, 0, 0xFE] ∧
      traps 0x203 (.vst x) 16 [0xF0, 0xF1, 0, 0xF5, 0xFE])

/-- R68, R69: an own-scratchpad access beyond 256 KiB traps nothing: a load gives zero, a store is dropped, and the context's
`spflag` and `spaddr` capture the first such access, and among those of one cycle that of the lowest strand id. -/
def Obligations.OutOfRangeCaptured : Prop :=
  ∀ (x : Args) (s : State),
    let w := intWidth (codeOf x.d) / 8
    let t := acting s
    let ea := address x s w
    ea >>> 56 = 0xF0 → 2 ^ 18 ≤ ea.toNat % 2 ^ 56 → ea.toNat % w = 0 →
    let captured := fun (z : State) (write : Bool) =>
      z.mem = s.mem ∧
      (getCtx z t.ctx).spValid = true ∧
      ((getCtx s t.ctx).spValid = false → (getCtx z t.ctx).spaddr = ea ∧
        (getCtx z t.ctx).spflag = BitVec.ofNat 64
          (2 ^ 48 + s.cur % 2 ^ 15 * 2 ^ 16 + (if write then 2 ^ 9 else 0) + 2 ^ 8 + 0xF0)) ∧
      ((getCtx s t.ctx).spValid = true → (∀ o, (getCtx s t.ctx).spNow = some o → o.cycle ≠ s.cycle) →
        (getCtx z t.ctx).spaddr = (getCtx s t.ctx).spaddr) ∧
      ((getCtx s t.ctx).spValid = true → (getCtx s t.ctx).spMine = false → (getCtx z t.ctx).spaddr = (getCtx s t.ctx).spaddr) ∧
      (∀ o, (getCtx s t.ctx).spValid = true → (getCtx s t.ctx).spMine = true → (getCtx s t.ctx).spNow = some o → o.cycle = s.cycle →
        (getCtx z t.ctx).spaddr = if s.cur < o.sid then ea else o.ea)
    (∀ n, gField x.d = some n → clear 0x200 x s = true → ∃ z, exec (.ld x) s = .next z ∧ captured z false ∧
      (∀ m, readG (strandAt z s.cur) m = if m = n then 0 else readG t m)) ∧
    (clear 0x201 x s = true → ∃ z, exec (.st x) s = .next z ∧ captured z true ∧
      ∀ m, readG (strandAt z s.cur) m = readG t m)

/-- R74, R208: FNC completes once no access in its scope is unacknowledged, and changes no register and no memory; `FNC.core`
discards every line of its core's instruction buffer. While an access is unacknowledged the strand waits. -/
def Obligations.FenceResults : Prop :=
  ∀ (c : Scope) (x : Args) (s : State), clear (0x210 + scopeNum c) x s = true →
    (owesAck s (acting s).uid s.cur c = false → ∃ z, exec (.fnc c x) s = .next z ∧ z.mem = s.mem ∧ z.net = s.net ∧
      getSlot z s.cur = { getSlot s s.cur with st := .ready, s := endWait (endCheck (cleared x (acting s))) } ∧
      (∀ k, k ≠ s.cur → getSlot z k = getSlot s k) ∧
      (getCore z (coreOf s.cur)).ibuf = (if c = .core then [] else (getCore s (coreOf s.cur)).ibuf)) ∧
    (owesAck s (acting s).uid s.cur c = true → ∃ z, exec (.fnc c x) s = .next z ∧ (getSlot z s.cur).st ≠ .ready ∧
      (strandAt z s.cur).pc = (acting s).pc)

/-- R223, R224, R291: an atomic on an own-scratchpad word that nothing else is using is performed at once (where `prompt` lets
it, notes/assumptions/1.md): the word takes the new value of its operation, field d the old one, the flags of the operation
are raised, and no other byte changes. `AINC` wraps at b; `ACAS` stores b where the old value is d; `.f32` adds and compares
as binary32 and returns raw bits. -/
def Obligations.AtomicResults : Prop :=
  ∀ (x : Args) (s : State) (n : Nat), gField x.d = some n →
    let ty := codeOf x.d
    let w := if ty = 5 then 32 else intWidth ty
    let ea := (ops x s).aw
    let key := ownKey s ea
    let old := readLe s.mem key (w / 8)
    let b := (ops x s).bw.toNat % 2 ^ w
    let v := fun (u : Nat) => intValue ty u
    ownSpace ea (w / 8) → s.net = [] → s.resv = [] → s.served = [] → s.prompt = true → poisoned s key (w / 8) = false →
    let gives := fun (op : Nat) (i : Instr) (new : Nat) (fl : BitVec 5) =>
      clear op x s = true → ∃ z, exec i s = .next z ∧
        (∀ k, k < key ∨ key + w / 8 ≤ k → readByte z.mem k = readByte s.mem k) ∧
        readLe z.mem key (w / 8) = new % 2 ^ w ∧ z.net = [] ∧ z.resv = [] ∧
        (getSlot z s.cur).st = .ready ∧ (strandAt z s.cur).pc = (endCheck (acting s)).pc ∧
        (strandAt z s.cur).fflags = (acting s).fflags ||| fl ∧
        (∀ m, readG (strandAt z s.cur) m = if m = n ∧ n ≠ 0 then (if ty = 5 then BitVec.ofNat 64 old else intExtend ty old)
          else readG (acting s) m) ∧
        (∀ k, k ≠ s.cur → getSlot z k = getSlot s k)
    (ty ∈ [3, 4, 11, 12] →
      gives 0x280 (.aadd x) (old + b) 0 ∧ gives 0x281 (.aand x) (old &&& b) 0 ∧ gives 0x282 (.aor x) (old ||| b) 0 ∧
      gives 0x283 (.axor x) (old ^^^ b) 0 ∧ gives 0x284 (.amin x) (if v old ≤ v b then old else b) 0 ∧
      gives 0x285 (.amax x) (if v b ≤ v old then old else b) 0 ∧ gives 0x286 (.axch x) b 0 ∧
      gives 0x287 (.acas x) (if old = (ops x s).dw.toNat % 2 ^ w then b else old) 0 ∧
      gives 0x288 (.ainc x) (if v b ≤ v old then 0 else old + 1) 0) ∧
    (ty = 5 →
      let sum := fpAdd fp32 .rne (fpValue fp32 old) (fpValue fp32 b)
      gives 0x280 (.aadd x) sum.bits sum.fl ∧
      gives 0x284 (.amin x) (fpMinMax fp32 false old b).bits (fpMinMax fp32 false old b).fl ∧
      gives 0x285 (.amax x) (fpMinMax fp32 true old b).bits (fpMinMax fp32 true old b).fl)

/-! ## Messages, flags and synchronisation objects -/

/-- R213 to R216: an inbox message to another core of the own block, sent on a standing credit, leaves as one packet that
carries the header and the payload; one credit is taken, and neither memory nor a register changes. -/
def Obligations.SendResults : Prop :=
  ∀ (x : Args) (s : State),
    let d := (ops x s).dw
    let a := (ops x s).aw
    let b := (ops x s).bw
    let len := b.toNat % 256
    let me := coreOf s.cur
    let dest := handleCore d
    let key := spadKey me (a.toNat % 2 ^ 18)
    clear 0x215 x s = true → (acting s).wait = none → s.net = [] → d >>> 56 = 0xF1 → d.toNat % 2 ^ 56 = dest * 2 ^ 19 → dest ≠ me →
    blkOfCore dest = blkOfCore me → reachesBlk s (acting s).ctx (blkOfCore dest) = true → distReady s (dest / 512) = true →
    ownSpace a 8 → a.toNat % 2 ^ 56 + len ≤ 2 ^ 18 → len % 8 = 0 → len ≤ 112 →
    b.toNat = b.toNat / 2 ^ 16 % 2 ^ 16 * 2 ^ 16 + len → reserved s key len = false → poisoned s key len = false →
    mapGet 2 (getCore s me).credits (dest % 8) ≠ 0 →
    ∃ z p bytes, exec (.send x) s = .next (finishAt z s.cur) ∧ z.mem = s.mem ∧ z.net = [p] ∧
      p.home = .core dest ∧ p.uid = (acting s).uid ∧ p.body = .message dest (2 * (me % 8)) bytes ∧
      (∀ k, getSlot z k = getSlot (entry x s) k) ∧
      mapGet 2 (getCore z me).credits (dest % 8) = mapGet 2 (getCore s me).credits (dest % 8) - 1 ∧
      bytes.length = 16 + len ∧ bytesNat (bytes.take 2) = b.toNat / 2 ^ 16 % 2 ^ 16 ∧ byteAt bytes 2 = len ∧ byteAt bytes 3 = 0 ∧
      bytesNat ((bytes.drop 4).take 2) = s.cur % 2 ^ 15 ∧ bytesNat ((bytes.drop 8).take 8) = s.cycle % 2 ^ 64 ∧
      ∀ i, i < len → bytes.getD (16 + i) 0 = readByte s.mem (key + i)

/-- R212, R217, R445: RECV from the inbox writes the oldest message at a, frees its entry, which keeps its bytes, and gd
takes the status word; with no message there, a time-out of zero gives TIMEOUT, and without a time-out the strand waits. -/
def Obligations.ReceiveResults : Prop :=
  ∀ (x : Args) (s : State) (n : Nat), gField x.d = some n →
    let a := (ops x s).aw
    let c := coreOf s.cur
    clear 0x216 x s = true → (acting s).wait = none → ownSpace a 16 → isChannel s c (a.toNat % 2 ^ 18) = false →
    (∀ k e, inboxOldest (getCore s c) = some (k, e) → mapFind (getCore s c).inbox k = some e → a.toNat % 2 ^ 56 + e.bytes.length ≤ 2 ^ 18 →
      reserved s (ownKey s a) e.bytes.length = false →
      ∃ z, exec (.recv x) s = .next (finishAt (setG z s.cur x.d
          (recvWord (a.toNat % 2 ^ 18) (msgTag e.bytes) false (msgLen e.bytes) 0)) s.cur) ∧
        (∀ i, readByte z.mem i = if ownKey s a ≤ i ∧ i < ownKey s a + e.bytes.length then e.bytes.getD (i - ownKey s a) 0
          else readByte s.mem i) ∧
        mapFind (getCore z c).inbox k = some { e with reserved := false, full := false, taken := false } ∧
        (∀ m, m ≠ k → mapFind (getCore z c).inbox m = mapFind (getCore s c).inbox m) ∧
        (∀ i, getSlot z i = getSlot (entry x s) i)) ∧
    (inboxOldest (getCore s c) = none →
      (timeOut x (ops x s) = some 0 → exec (.recv x) s = .next (finishAt (setG (entry x s) s.cur x.d 1) s.cur)) ∧
      (timeOut x (ops x s) = none → ∃ z, exec (.recv x) s = .next z ∧ (getSlot z s.cur).st ≠ .ready ∧ z.mem = s.mem ∧
        (strandAt z s.cur).pc = (acting s).pc))

/-- R219: CH.OPEN at an own header. As consumer: the channel is open, its consumer is the issuer, its counts and maps are zero
and it takes a channel register. As producer of an open channel: the issuer takes the lowest clear bit of the registered map,
the count of registered producers rises by one, and the channel enters its debt list; one that is registered already only goes on. -/
def Obligations.ChannelOpenResults : Prop :=
  ∀ (x : Args) (s : State),
    let a := (ops x s).aw
    let c := coreOf s.cur
    let o := a.toNat % 2 ^ 56
    let h := spadHandle 3 c o
    clear 0x2CA x s = true → s.net = [] → s.resv = [] → ownSpace a 64 →
    ((ops x s).bw = 1 → chOpenBit s c o = true → (prodBit (getCore s c) o (acting s).uid).isSome = true → debtFull (acting s) h = false →
      ∃ z, exec (.chOpen x) s = .next (finishAt z s.cur) ∧ z.mem = s.mem ∧ z.net = [] ∧ ∀ i, getSlot z i = getSlot (entry x s) i) ∧
    ((ops x s).bw = 0 → chOpenBit s c o = false → (getCore s c).chans.length < 8 →
      ∃ z, exec (.chOpen x) s = .next (finishAt z s.cur) ∧ chOpenBit z c o = true ∧ chConsumer z c o = s.cur % 2 ^ 15 ∧
        chHead z c o = 0 ∧ chTail z c o = 0 ∧ chTaken z c o = 0 ∧ chRegistered z c o = 0 ∧ chEnded z c o = 0 ∧
        chRegMap z c o = 0 ∧ chEndedMap z c o = 0 ∧ chDepth z c o = chDepth s c o ∧ chProducers z c o = chProducers s c o ∧
        (∀ k, k < spadKey c o ∨ spadKey c o + 40 ≤ k → readByte z.mem k = readByte s.mem k) ∧
        (chanReg (getCore z c) o).isSome = true ∧ z.net = [] ∧ ∀ i, getSlot z i = getSlot (entry x s) i) ∧
    (∀ i, (ops x s).bw = 1 → chOpenBit s c o = true → prodBit (getCore s c) o (acting s).uid = none →
      chRegistered s c o < chProducers s c o → debtFull (acting s) h = false → lowestClear (chRegMap s c o) 64 = some i →
      ∃ z, exec (.chOpen x) s = .next (finishAt z s.cur) ∧ chRegMap z c o = setBit (chRegMap s c o) i true ∧
        chRegistered z c o = chRegistered s c o + 1 ∧ prodBit (getCore z c) o (acting s).uid = some i ∧
        owes (strandAt z s.cur) h = true ∧ z.net = [] ∧
        ∀ k, k < spadKey c o + 4 ∨ (spadKey c o + 5 ≤ k ∧ k < spadKey c o + 32) ∨ spadKey c o + 40 ≤ k →
          readByte z.mem k = readByte s.mem k)

/-- R221, R222, R231, R232: PUTR to a strand of the issuer's context leaves as a release toward it and drops the debt; FEC
empties a register's flags and FEQ reads them; OWE adds a handle to the debt list, which UNOWE takes off again. -/
def Obligations.RegisterFlagResults : Prop :=
  ∀ (x : Args) (s : State),
    let u := cleared x (acting s)
    let a := (ops x s).aw
    let b := (ops x s).bw
    (clear 0x217 x s = true → s.net = [] → s.prompt = false → 0 < b.toNat → b.toNat < 64 →
      putForeign s (acting s).ctx (a.toNat % 2 ^ 15) = false →
      ∃ z p, exec (.putr x) s = .next (finishAt z s.cur) ∧ z.net = [p] ∧ p.home = .core (coreOf (a.toNat % 2 ^ 15)) ∧
        p.body = .putr (a.toNat % 2 ^ 15) b.toNat (ops x s).dw s.cur ∧ p.scope = some .dev ∧ p.st = .flying ∧ z.mem = s.mem ∧
        strandAt z s.cur = dropDebt u (regHandle (a.toNat % 2 ^ 15) (.g b.toNat)) ∧ (∀ i, i ≠ s.cur → getSlot z i = getSlot s i)) ∧
    (clear 0x218 x s = true → copying (acting s) (flagReg x.d) = false → inFile (flagReg x.d) = true →
      ∃ z, exec (.fec x) s = .next z ∧ OnlySlot s z s.cur ∧
        (∀ r, inFile r = true → fullOf (strandAt z s.cur) r =
          (r == .g 0 || (fullOf (acting s) r && !(syncRegs x).contains r && r != flagReg x.d)) ∧
          tagOf (strandAt z s.cur) r = (tagOf (acting s) r && (r == .g 0 || r != flagReg x.d))) ∧
        (∀ m, readG (strandAt z s.cur) m = readG (acting s) m) ∧ (∀ m, readV (strandAt z s.cur) m = readV (acting s) m)) ∧
    (∀ n, gField x.d = some n → clear 0x219 x s = true → syncRegs x = [] → ∃ z, exec (.feq x) s = .next z ∧
      WritesG x s z n (BitVec.ofNat 64 ((if fullOf (acting s) (flagReg x.a) then 1 else 0) +
        (if regWithheld s s.cur (acting s) (flagReg x.a) then 2 else 0) +
        if copying (acting s) (flagReg x.a) then 4 else 0))) ∧
    (handleBad a = false →
      (clear 0x2CF x s = true → debtFull (acting s) a = false → ∃ z, exec (.owe x) s = .next z ∧
        Leaves s z (endWait (endCheck { u with
          debts := if owes (acting s) a then u.debts else u.debts ++ [{ handle := a, implicit := false }] }))) ∧
      (clear 0x2D0 x s = true → ∃ z, exec (.unowe x) s = .next z ∧
        Leaves s z (endWait (endCheck { u with debts := u.debts.filter fun d => d.handle != a || d.implicit }))))

/-- R225 to R227, R392: HB.ALLOC takes the lowest free barrier of the own block, or answers NO_RESOURCE with none free; HB.JOIN
takes the lowest entry not in use and puts the barrier into the debt list; HB.ARRIVE sets the member's arrival bit and combines
its value; HB.WAIT answers the result of a phase that is complete; HB.LEAVE takes the membership and the debt away; HB.FREE frees a
barrier with neither members nor waiters. The test of a barrier, after the events of a cycle with an arrival or a leave, completes
the phase where no member is without its arrival. -/
def Obligations.HardwareBarrierResults : Prop :=
  ∀ (x : Args) (s : State),
    let b := blkOf s.cur
    let t := acting s
    let i := (ops x s).aw.toNat % 32
    let h := getHb s b i
    let ends := fun (j : Instr) (f : State → Prop) => ∃ z, exec j s = .next (finishAt z s.cur) ∧ z.mem = s.mem ∧ f z
    let others := fun (z : State) (k : Nat) => ∀ j, j ≠ k → getHb z b j = getHb s b j
    (∀ n k, gField x.d = some n → clear 0x2C0 x s = true → k < 32 → (getHb s b k).alloc = false →
      (∀ j, j < k → (getHb s b j).alloc = true) →
      ∃ z code, exec (.hbAlloc x) s = .next (finishAt (setG z s.cur x.d (BitVec.ofNat 64 (k * 2 ^ 8))) s.cur) ∧
        code = (if x.a = .none then 0 else (ops x s).aw.toNat) ∧ others z k ∧
        getHb z b k = { HBar.init with alloc := true, ctx := t.ctx, code := code, acc := combineId code }) ∧
    (∀ n, gField x.d = some n → clear 0x2C0 x s = true → (∀ j, j < 32 → (getHb s b j).alloc = true) →
      ∃ z, exec (.hbAlloc x) s = .next z ∧ WritesG x s z n 6) ∧
    (let new := getHb (settleBarrier s b i) b i
     (settleBarrier s b i).mem = s.mem ∧ others (settleBarrier s b i) i ∧
     new = if h.moved = true ∧ h.mem &&& ~~~ h.arr = 0 then
         { h with arr := 0, kept := 0, phase := h.phase + 1, acc := combineId h.code, moved := false
                  result := if h.code = 0 then 0 else h.acc }
       else { h with moved := false }) ∧
    (s.net = [] → s.resv = [] → s.served = [] → s.prompt = true → h.alloc = true → h.ctx = t.ctx →
      (∀ e, clear 0x2C1 x s = true → hbEntry h t.uid = none → lowestClear (hbUsed h) 128 = some e → bitCount (hbUsed h) 128 < 128 →
        debtFull t (hbHandle b i) = false →
        ends (.hbJoin x) fun z => owes (strandAt z s.cur) (hbHandle b i) = true ∧ others z i ∧
          getHb z b i = { h with mem := setBit h.mem e true, cordon := setBit h.cordon e false, who := mapPut h.who e t.uid }) ∧
      (∀ e, clear 0x2C2 x s = true → hbEntry h t.uid = some e → hbArrivedIn t b i ≠ some h.phase →
        let v := if x.b = .none then combineId h.code else (ops x s).bw.setWidth 32
        ends (.hbArrive x) fun z => hbArrivedIn (strandAt z s.cur) b i = some h.phase ∧ others z i ∧
          getHb z b i = { h with arr := setBit h.arr e true, acc := combine h.code h.acc v, moved := true }) ∧
      (∀ n p, gField x.d = some n → clear 0x2C3 x s = true → t.wait = none → hbEntry h t.uid ≠ none → hbArrivedIn t b i = some p →
        p ≠ h.phase → ∃ z, exec (.hbWait x) s = .next z ∧ WritesG x s z n (BitVec.ofNat 64 (h.result.toNat * 2 ^ 32))) ∧
      (∀ e, clear 0x2C4 x s = true → hbEntry h t.uid = some e →
        ends (.hbLeave x) fun z => owes (strandAt z s.cur) (hbHandle b i) = false ∧ others z i ∧
          getHb z b i = { h with mem := setBit h.mem e false, kept := if h.arr.getLsbD e then setBit h.kept e true else h.kept
                                 cordon := setBit h.cordon e false, who := mapDel h.who e, moved := true }) ∧
      (clear 0x2C5 x s = true → h.mem = 0 → hbWaiters (entry x s) b i = 0 →
        ends (.hbFree x) fun z => getHb z b i = HBar.init ∧ others z i ∧ ∀ k, getSlot z k = getSlot (entry x s) k))

/-- R228, R229, R230, R359, at own words and headers. MB.INIT sets the expected and pending arrivals, no bytes due and phase 0;
MB.ARRIVE takes from the pending arrivals and MB.EXPECT adds to the bytes due, and the phase flips when neither is left;
MB.WAIT, which waits behind the strand's own posts to the word's home, answers OK once the phase has passed the awaited parity and
TIMEOUT when its time is up. RG.PROD registers a producer
and its debt; RG.PUT fills the next slot with its data; RG.GET hands out the oldest full slot; RG.EOS counts the producer's
token and drops the debt. -/
def Obligations.HomeObjectResults : Prop :=
  ∀ (x : Args) (s : State),
    let a := (ops x s).aw
    let c := coreOf s.cur
    let o := a.toNat % 2 ^ 56
    let t := acting s
    let n := (ops x s).bw.toNat % 2 ^ 32
    let h := spadHandle 4 c o
    let ends := fun (j : Instr) (f : State → Prop) => ∃ z, exec j s = .next (finishAt z s.cur) ∧ f z
    let rest := fun (z : State) (lo hi : Nat) => ∀ k, k < spadKey c o + lo ∨ spadKey c o + hi ≤ k → readByte z.mem k = readByte s.mem k
    let counts := fun (z : State) (pending bytes : Nat) => mbExpected z c o = mbExpected s c o ∧
      (if pending = 0 ∧ bytes = 0 then mbPending z c o = mbExpected s c o ∧ mbBytes z c o = 0 ∧ mbPhase z c o = 1 - mbPhase s c o
       else mbPending z c o = pending ∧ mbBytes z c o = bytes ∧ mbPhase z c o = mbPhase s c o)
    (s.net = [] → s.resv = [] → ownSpace a 16 →
      (clear 0x2C6 x s = true → n ≠ 0 → ends (.mbInit x) fun z =>
        mbExpected z c o = n ∧ mbPending z c o = n ∧ mbBytes z c o = 0 ∧ mbPhase z c o = 0 ∧ rest z 0 16) ∧
      (clear 0x2C7 x s = true → ends (.mbArrive x) fun z =>
        counts z (mbPending s c o - min n (mbPending s c o)) (mbBytes s c o) ∧ rest z 0 16) ∧
      (clear 0x2C8 x s = true → ends (.mbExpect x) fun z =>
        counts z (mbPending s c o) ((mbBytes s c o + (ops x s).bw.toNat % 2 ^ 48) % 2 ^ 48) ∧ rest z 0 16)) ∧
    (∀ m, gField x.d = some m → clear 0x2C9 x s = true → t.wait = none → s.resv = [] → a &&& 14 = 0 → ownSpace (a &&& ~~~ 15) 16 →
      let w := (a &&& ~~~ 15).toNat % 2 ^ 56
      let behind := portClear (entry x s) c t.uid (.core c) = false
      (behind → ∃ z, exec (.mbWait x) s = .next z ∧ (getSlot z s.cur).st = .parked ∧ (strandAt z s.cur).pc = t.pc ∧ z.mem = s.mem) ∧
      (¬ behind → mbPhase s c w ≠ (a &&& 1).toNat → ∃ z, exec (.mbWait x) s = .next z ∧ WritesG x s z m 0) ∧
      (¬ behind → mbPhase s c w = (a &&& 1).toNat → timeOut x (ops x s) = some 0 → ∃ z, exec (.mbWait x) s = .next z ∧ WritesG x s z m 1)) ∧
    (s.net = [] → s.resv = [] → ownSpace a 64 →
      (∀ i, clear 0x2CB x s = true → prodBit (getCore s c) o t.uid = none → rgRegistered s c o < rgProducers s c o →
        debtFull t h = false → lowestClear (rgRegMap s c o) 64 = some i →
        ends (.rgProd x) fun z => rgRegMap z c o = setBit (rgRegMap s c o) i true ∧ rgRegistered z c o = rgRegistered s c o + 1 ∧
          prodBit (getCore z c) o t.uid = some i ∧ owes (strandAt z s.cur) h = true) ∧
      (clear 0x2CC x s = true → t.wait = none → owes t h = true → rgProduces s c o t.uid = true → ownSpace (ops x s).bw 16 → rgRoom s c o = true →
        (ops x s).bw.toNat % 2 ^ 56 + rgBytes s c o ≤ 2 ^ 18 →
        reserved s (ownKey s (ops x s).bw) (rgBytes s c o) = false → poisoned s (ownKey s (ops x s).bw) (rgBytes s c o) = false →
        let i := rgIdx s c o (rgTail s c o)
        ends (.rgPut x) fun z =>
          z.mem = (rgLand (rgReserve s c o).2 c o i 0 ((List.range (rgBytes s c o)).map fun k =>
            readByte (rgReserve s c o).2.mem (ownKey s (ops x s).bw + k)) true).mem ∧ z.net = [] ∧ ∀ k, getSlot z k = getSlot (entry x s) k) ∧
      (∀ m, gField x.d = some m → clear 0x2CD x s = true → t.wait = none → rgHeld s c o t.uid = none →
        (ringReg (getCore s c) o).isSome = true → rgPresent s c o = true →
        let i := rgIdx s c o (rgTaken s c o)
        ∃ z, exec (.rgGet x) s = .next (finishAt (setG z s.cur x.d (recvWord (rgSlotOff s c o i) 0 false 0 0)) s.cur) ∧
          rgTaken z c o = (rgTaken s c o + 1) % 2 ^ 16 ∧ rgHeld z c o t.uid = some i ∧ rest z 28 30) ∧
      (∀ i, clear 0x2CE x s = true → prodBit (getCore s c) o t.uid = some i → (rgTokMap s c o).getLsbD i = false →
        ends (.rgEos x) fun z => rgTokMap z c o = setBit (rgTokMap s c o) i true ∧
          rgEnded z c o = (rgEnded s c o + 1) % 256 ∧ owes (strandAt z s.cur) h = false))

/-! ## Engines, counters, groups and launches -/

/-- R233, R234, R253: a descriptor in device memory, whose port is free, is read as its 64 bytes, and the read changes no memory, no
queue and no other strand; MXQ and CPQ put the command with the two descriptors it names at the tail of its queue and answer the
job's handle, CPQ the promised cycle (R247) too; QFENCE puts one fence entry into every named queue, and its handle carries the
mask and the sequence that the fence took in the lowest-numbered named queue. -/
def Obligations.SubmissionResults : Prop :=
  ∀ (x : Args) (s : State),
    let t := acting s
    let b := blkOf s.cur
    let E := entry x s
    let c := (ops4 x s).a
    let old := fun q => queueOf s b q
    let seq := fun q => (old q).next % 2 ^ 28
    let entered := fun q (kind : JobKind) (cmd : BitVec 512) ds p mask parts => ({ old q with
      next := (old q).next + 1
      jobs := (old q).jobs ++ [{ seq := seq q, kind := kind, cmd := cmd, descs := ds, state := 0, status := 0, detail := 0, trig := none,
                                 promise := p, missed := false, sid := s.cur, ctx := t.ctx, halted := false, progress := 0,
                                 stopping := false, mask := mask, parts := parts, goal := 0, redo := [], lapsed := false }] } : Queue)
    let keeps := fun (E z : State) => z.mem = E.mem ∧ z.net = E.net ∧ ∀ k, getSlot z k = getSlot E k
    let kept := keeps E
    (∀ (z : State) (ea : Word) k d q, z.resv = [] → gotIn (strandAt z s.cur) = [] →
      target z s.cur t.ctx .read tableSpaces false ea 16 = .cell (.quay d q) k → portClear z (coreOf s.cur) t.uid (.quay d q) = true →
      portsFree z 0 (keyPorts z k 64) = true → poisoned z k 64 = false →
      ∃ y, readBlock z s.cur t tableSpaces ea 64 = .ok y (readBytes z.mem k 64) ∧ y.mem = z.mem ∧ y.net = z.net ∧ y.hubs = z.hubs ∧
        (∀ i, i ≠ s.cur → getSlot y i = getSlot z i) ∧ { strandAt y s.cur with wait := none } = { strandAt z s.cur with wait := none }) ∧
    (∀ d1 d2 E1 E2, t.wait = none → s.net = [] →
      readBlock E s.cur t tableSpaces (tdAddr E t.ctx (fld c 0 48 8)) 64 = .ok E1 d1 →
      readBlock E1 s.cur t tableSpaces (tdAddr E1 t.ctx (fld c 0 40 8)) 64 = .ok E2 d2 →
      let ds := [BitVec.ofNat 512 (bytesNat d1), BitVec.ofNat 512 (bytesNat d2)]
      let kept := keeps E2
      let old := fun q => queueOf E2 b q
      let seq := fun q => (old q).next % 2 ^ 28
      let entered := fun q (kind : JobKind) (cmd : BitVec 512) ds p mask parts => ({ old q with
        next := (old q).next + 1
        jobs := (old q).jobs ++ [{ seq := seq q, kind := kind, cmd := cmd, descs := ds, state := 0, status := 0, detail := 0, trig := none,
                                   promise := p, missed := false, sid := s.cur, ctx := t.ctx, halted := false, progress := 0,
                                   stopping := false, mask := mask, parts := parts, goal := 0, redo := [], lapsed := false }] } : Queue)
      (clear 0x302 x s = true → mxReserved c = false → queueRoom E2 b 0 = true →
        ∃ z, exec (.mxq x) s = .next (finishAt (setG z s.cur x.d (jobHandle b 0 (seq 0) 0)) s.cur) ∧ kept z ∧
          queueOf z b 0 = entered 0 .matrix c ds none 0 [] ∧ queueOf z b 1 = old 1 ∧ queueOf z b 2 = old 2) ∧
      (clear 0x304 x s = true → cpReserved c = false → queueRoom E2 b (copyQueue c) = true →
        let q := copyQueue c
        let p := promiseFor E2 b t.ctx (old q).jobs c (ds.getD 0 0) (ds.getD 1 0)
        ∃ z, exec (.cpq x) s = .next (finishAt (updStrand (setG z s.cur x.d (jobHandle b q (seq q) 0)) s.cur
            fun y => writeG y (idxOf x.d + 1) (BitVec.ofNat 64 (p.getD 0))) s.cur) ∧ kept z ∧
          queueOf z b q = entered q .copy c ds p 0 [] ∧ queueOf z b 0 = old 0 ∧ queueOf z b (3 - q) = old (3 - q))) ∧
    (∀ mask, clear 0x30A x s = true → t.wait = none → mask = (ops x s).aw.toNat → 1 ≤ mask → mask ≤ 7 →
      (∀ q, q < 3 → mask.testBit q = true → queueRoom s b q = true) →
      ∃ z, exec (.qfence x) s = .next (finishAt (setG z s.cur x.d (jobHandle b 4 (seq (lowQueue mask)) mask)) s.cur) ∧ kept z ∧
        ∀ q, q < 3 → queueOf z b q = if mask.testBit q then
          entered q .fence 0 [] none mask ((namedQueues mask).map fun r => (r, seq r)) else old q)

/-- R238, at an own-scratchpad address and a table in memory of the device whose port is free: TDSET copies the 64 bytes at b into descriptor a, and
TDGET copies descriptor a into the 64 bytes at b; every other byte of memory is as it was. R243, R248: CLD reads 16 bytes, one
accumulator as it stands, or accumulators converted into all lanes; CPR, from own scratchpad words, copies them into consecutive
registers, which end full with W clear, and leaves no debt. -/
def Obligations.TableAndBufferResults : Prop :=
  ∀ (x : Args) (s : State),
    let a := (ops x s).aw.toNat
    let b := (ops x s).bw
    let E := entry x s
    let o := ownKey s b
    let k := blkOf s.cur
    let ty := codeOf x.d
    let table := fun n => target E s.cur (acting s).ctx n tableSpaces false (tdAddr E (acting s).ctx a) 16
    let copies := fun (j : Instr) (src dst : Nat) => ∃ z, exec j s = .next (finishAt z s.cur) ∧ z.net = s.net ∧
      (∀ i, i ≠ s.cur → getSlot z i = getSlot E i) ∧ { strandAt z s.cur with wait := none } = { strandAt E s.cur with wait := none } ∧
      ∀ i, readByte z.mem i = if dst ≤ i ∧ i < dst + 64 then readByte s.mem (src + (i - dst)) else readByte s.mem i
    (∀ d q c, gotIn (acting s) = [] → a < 256 → ownSpace b 64 → portClear E (coreOf s.cur) (acting s).uid (.quay d q) = true →
      portsFree E 0 (keyPorts E c 64) = true → reserved s o 64 = false → reserved s c 64 = false →
      let h := Home.quay d q
      (clear 0x300 x s = true → table .write = .cell h c → poisoned s o 64 = false → copies (.tdset x) o c) ∧
      (clear 0x301 x s = true → table .read = .cell h c → poisoned s c 64 = false → copies (.tdget x) c o)) ∧
    (∀ n, vField x.d = some n → clear 0x303 x s = true → b.toNat / 8 = 0 →
      let lane := fun i => fpToFp a80 (fmtOf ty) (rndOf (b.toNat % 4)) (b.getLsbD 2) (accValue s k (a + i))
      (ty = 0 → a % 16 = 0 → a < 0x140000 → poisoned s (bufKey 0xF6 k a) 16 = false →
        ∃ z, exec (.cld x) s = .next z ∧ WritesV x s z n (BitVec.ofNat 128 (readLe s.mem (bufKey 0xF6 k a) 16)) 0) ∧
      (ty = 9 → a ≤ 131071 → poisoned s (accKey k a) 10 = false →
        ∃ z, exec (.cld x) s = .next z ∧ WritesV x s z n (BitVec.ofNat 128 (readLe s.mem (accKey k a) 10)) 0) ∧
      (ty ∈ [5, 6, 7] → a + lanesOfFmt ty ≤ 131072 → poisoned s (accKey k a) (10 * lanesOfFmt ty) = false →
        ∃ z, exec (.cld x) s = .next z ∧
          WritesV x s z n (BitVec.ofNat 128 (((List.range (lanesOfFmt ty)).map fun i => (lane i).bits * 2 ^ (elemBits ty * i)).sum))
            ((List.range (lanesOfFmt ty)).foldl (fun f i => f ||| (lane i).fl) 0))) ∧
    (∀ n, (gField x.d = some n ∨ vField x.d = some n) → clear 0x305 x s = true →
      let sz := cprSize x
      let ea := (ops x s).aw + b
      let cnt := codeOf x.d + 1
      let key := ownKey s ea
      ownSpace ea sz → ea.toNat % 2 ^ 56 + sz * cnt ≤ 2 ^ 18 → cnt ≤ 8 → (gField x.d = some n → n + cnt ≤ 64) →
      (vField x.d = some n → n + cnt ≤ 32) → reserved s key (sz * cnt) = false → poisoned s key (sz * cnt) = false →
      (cprRegs x).find? (copying (acting s)) = none → (acting s).copies = [] → owes (acting s) (regHandle s.cur ((cprRegs x).headD (.g 0))) = false →
      debtFull (acting s) (regHandle s.cur ((cprRegs x).headD (.g 0))) = false →
      ∃ z, exec (.cpr x) s = .next z ∧ z.mem = s.mem ∧ z.net = s.net ∧ (∀ i, i ≠ s.cur → getSlot z i = getSlot s i) ∧
        (getSlot z s.cur).st = .ready ∧ (strandAt z s.cur).debts = (acting s).debts ∧
        (∀ m, readG (strandAt z s.cur) m = if gField x.d = some n ∧ n ≤ m ∧ m < n + cnt ∧ m ≠ 0 then
          BitVec.ofNat 64 (readLe s.mem (key + 8 * (m - n)) 8) else readG (acting s) m) ∧
        (∀ m, readV (strandAt z s.cur) m = if vField x.d = some n ∧ n ≤ m ∧ m < n + cnt then
          BitVec.ofNat 128 (readLe s.mem (key + 16 * (m - n)) 16) else readV (acting s) m) ∧
        ∀ r, inFile r = true → (fullOf (strandAt z s.cur) r =
            (r == .g 0 || (cprRegs x).contains r || (fullOf (acting s) r && !(syncRegs x).contains r))) ∧
          tagOf (strandAt z s.cur) r = (tagOf (acting s) r && !((cprRegs x).contains r && r != .g 0)))

/-- R249 to R252: JWAIT and JWAITP answer the status word of a job that has ended, JSTAT that of any job; JCAN answers the status
word after its action, which is to cancel a job that is not running, or, in context 0 or in slot 0 of a core of the job's context, to
resume it; elsewhere a resume raises the privilege trap. A job wait parks while the job has not ended. -/
def Obligations.JobResults : Prop :=
  ∀ (x : Args) (s : State) (n : Nat), gField x.d = some n →
    let a := (ops x s).aw
    let t := acting s
    let h := jcanHandle a
    (jhOk s t.ctx a = true →
      (clear 0x308 x s = true → ∃ z, exec (.jstat x) s = .next z ∧ WritesG x s z n (jobStatus s a)) ∧
      (jobState s a = 4 →
        (clear 0x306 x s = true → t.wait = none → ∃ z, exec (.jwait x) s = .next z ∧ WritesG x s z n (jobStatus s a)) ∧
        (clear 0x307 x s = true → t.wait = none → ∃ z, exec (.jwaitp x) s = .next z ∧ WritesG x s z n (jobStatus s a))) ∧
      (jobState s a ≠ 4 → clear 0x306 x s = true → t.wait = none → ∃ z, exec (.jwait x) s = .next z ∧
        (getSlot z s.cur).st ≠ .ready ∧ (strandAt z s.cur).pc = t.pc)) ∧
    (clear 0x309 x s = true → jhOk s t.ctx h = true →
      (a.getLsbD 63 = false → jobState (cancelJob (entry x s) h) h = 4 → exec (.jcan x) s =
        .next (finishAt (setG (cancelJob (entry x s) h) s.cur x.d (jobStatus (cancelJob (entry x s) h) h)) s.cur)) ∧
      (∀ j, a.getLsbD 63 = false → findJob s h = some j → j.kind ≠ .fence → j.state ≤ 1 →
        let z := cancelJob (entry x s) h
        findJob z h = none ∧ jobState z h = 4 ∧ jobStatus z h = statusWord 7 (jhQueue h) 4 j.missed false 4) ∧
      (a.getLsbD 63 = true → (slotOf s.cur = 0 ∧ ownsBlk (entry x s) t.ctx (jhBlk h) = true) ∨ t.ctx = 0 → exec (.jcan x) s =
        .next (finishAt (setG (resumeJob (entry x s) h) s.cur x.d (jobStatus (resumeJob (entry x s) h) h)) s.cur))) ∧
    (clear 0x309 x s = true → a.getLsbD 63 = true → t.ctx ≠ 0 → (slotOf s.cur ≠ 0 ∨ ownsBlk (entry x s) t.ctx (jhBlk h) = false) →
      ∃ z, exec (.jcan x) s = .next z ∧ (getSlot z s.cur).st = .halted ∧ (strandAt z s.cur).trapinfo = 0x03090000 ∧
        (strandAt z s.cur).pc = t.pc)

/-- R255 to R257: TCSET gives its counter a value and TCADD adds to it, modulo 2^48; with b[63] TCSET declares the counter's debt and
TCADD clears it; TCWAIT answers the count once the threshold is reached, the strand's own posts have landed and the events of the
cycle are over, and parks before; TRIG puts its command at the tail of
its queue as an entry that waits on its trigger, without a promise. -/
def Obligations.CounterResults : Prop :=
  ∀ (x : Args) (s : State),
    let i := (ops x s).aw.toNat
    let v := (ops x s).bw
    let b := blkOf s.cur
    let t := acting s
    let h := tcHandle b i
    let E := entry x s
    let ends := fun (j : Instr) (f : State → Prop) => ∃ z, exec j s = .next (finishAt z s.cur) ∧ z.mem = s.mem ∧ f z
    (s.net = [] → s.resv = [] → s.served = [] → s.prompt = true → i < 64 → v.toNat / 2 ^ 48 % 2 ^ 15 = 0 →
      (clear 0x30B x s = true → (v.getLsbD 63 = true → tcRegistered s b i t.startId < 32 ∧ debtFull t h = false) →
        ends (.tcset x) fun z => (getTc z b i).count = v.setWidth 48 ∧
          owes (strandAt z s.cur) h = (v.getLsbD 63 || owes t h)) ∧
      (clear 0x30C x s = true →
        ends (.tcadd x) fun z => (getTc z b i).count = (getTc s b i).count + v.setWidth 48 ∧
          owes (strandAt z s.cur) h = (owes t h && !v.getLsbD 63))) ∧
    (∀ n, gField x.d = some n → clear 0x30D x s = true → t.wait = none → i < 64 → v.toNat / 2 ^ 48 = 0 →
      let now := portClear E (coreOf s.cur) t.uid (.hub b) = true ∧ (getTc s b i).moved = false ∧
        tcReached (getTc s b i).count (v.setWidth 48) = true
      (now → ∃ z, exec (.tcwait x) s = .next z ∧
        WritesG x s z n (BitVec.ofNat 64 ((getTc s b i).count.toNat * 2 ^ 16))) ∧
      (¬ now → ∃ z, exec (.tcwait x) s = .next z ∧
        (getSlot z s.cur).st ≠ .ready ∧ (strandAt z s.cur).pc = t.pc ∧ z.mem = s.mem)) ∧
    (∀ d1 d2 E1 E2, clear 0x30E x s = true → t.wait = none → s.net = [] →
      let w := (ops4 x s).bw.toNat
      let c := (ops4 x s).a
      let m := w / 2 ^ 48 % 64
      let q := if w / 2 ^ 62 = 0 then 0 else copyQueue c
      let old := queueOf E2 b q
      readBlock E s.cur t tableSpaces (tdAddr E t.ctx (fld c 0 48 8)) 64 = .ok E1 d1 →
      readBlock E1 s.cur t tableSpaces (tdAddr E1 t.ctx (fld c 0 40 8)) 64 = .ok E2 d2 →
      w / 2 ^ 54 % 256 = 0 → w / 2 ^ 62 < 2 → (if w / 2 ^ 62 = 0 then mxReserved c else cpReserved c) = false → queueRoom E2 b q = true →
      ∃ z, exec (.trig x) s = .next (finishAt (setG z s.cur x.d (jobHandle b q (old.next % 2 ^ 28) 0)) s.cur) ∧ z.mem = E2.mem ∧
        (∀ k, getSlot z k = getSlot E2 k) ∧ getTc z b m = { getTc E2 b m with moved := true } ∧
        queueOf z b q = { old with
          next := old.next + 1
          jobs := old.jobs ++ [{ seq := old.next % 2 ^ 28, kind := if w / 2 ^ 62 = 0 then .matrix else .copy, cmd := c,
                                 descs := [BitVec.ofNat 512 (bytesNat d1), BitVec.ofNat 512 (bytesNat d2)], state := 1, status := 0,
                                 detail := 0, trig := some (m, BitVec.ofNat 48 w), promise := none, missed := false, sid := s.cur,
                                 ctx := t.ctx, halted := false, progress := 0, stopping := false, mask := 0, parts := []
                                 goal := 0, redo := [], lapsed := false }] })

/-- R261 to R263, R265 to R268, R274. GRP.MAKE, from a list in the own scratchpad, creates a group of a good local list under a free
id, and answers ABORTED for a bad list and BUSY with no id free (or for a block of a District that is not ready: log 81); GRP.JOIN
makes the issuer the owner of its free entry, or takes its ownership away, or waits for the end of the cycle while a post of it has
not ended, and answers BUSY if one has not ended then; CPOST gives a post the next number of its member and answers the group and the
number, or BUSY with a full table; CWAIT and CSTAT answer the outcome or the state; TREE adds the block's contribution to the open round and waits; GRP.INFO
and DOM.INFO answer facts. -/
def Obligations.GroupResults : Prop :=
  ∀ (x : Args) (s : State) (n : Nat), gField x.d = some n →
    let a := (ops x s).aw
    let t := acting s
    let ends := fun (j : Instr) (v : Word) (f : State → Prop) => ∃ z, exec j s = .next (finishAt (setG z s.cur x.d v) s.cur) ∧ z.mem = s.mem ∧ f z
    let answers := fun (j : Instr) (v : Word) => ∃ z, exec j s = .next z ∧ WritesG x s z n v
    let parks := fun (j : Instr) (f : State → Prop) => ∃ z, exec j s = .next z ∧ (getSlot z s.cur).st ≠ .ready ∧ (strandAt z s.cur).pc = t.pc ∧
      z.mem = s.mem ∧ f z
    let known := fun (z : State) (gid : Nat) => z.plaza.groups.find? fun g => g.gid == gid
    (clear 0x382 x s = true → ownSpace a 4 →
      let k := (ops x s).bw.toNat
      let es := (List.range k).map fun i => readLe s.mem (ownKey s a + 4 * i) 4
      (k < 1 ∨ 1024 < k → answers (.grpMake x) (statusOver 4 0)) ∧
      (1 ≤ k → k ≤ 1024 → a.toNat % 2 ^ 56 + 4 * k ≤ 2 ^ 18 → reserved s (ownKey s a) (4 * k) = false → poisoned s (ownKey s a) (4 * k) = false →
        (listOk s es = false → answers (.grpMake x) (statusOver 4 0)) ∧
        (listOk s es = true → localList s es = true → listReady s es = false → answers (.grpMake x) (statusOver 6 0)) ∧
        (listOk s es = true → localList s es = true → freeIds s 0x8000 1024 = [] → answers (.grpMake x) (statusOver 6 0)) ∧
        (listOk s es = true → localList s es = true → listReady s es = true → freeIds s 0x8000 1024 ≠ [] → ∃ gid, gid ∈ freeIds s 0x8000 1024 ∧
          ends (.grpMake x) (statusOver 0 gid) fun z => known z gid =
            some { gid := gid, ctx := t.ctx, entries := es, state := 0, lost := 4, owners := [], marked := [], posts := [], tickets := 0,
                   plaza := s.dom.member, clear := [], trapped := false }))) ∧
    (∀ o : Opnds, resumed 0x383 x s o = true → o.aw.toNat < 2 ^ 18 → grantedOf t = some 6 →
      ∃ m, exec (.grpJoin x) s = .next (finishAt (setG s s.cur x.d (statusOver 6 m)) s.cur)) ∧
    (∀ z sid w, (getSlot z sid).st = .parked → (strandAt z sid).wait = some w → w.form = 0x383 → w.stage = .test →
      ((strandAt (settleLeave z sid) sid).wait.map (·.stage) =
        some (.granted (if leaveHeld z sid (strandAt z sid) w.arg.toNat = true then 6 else 0)))) ∧
    (clear 0x383 x s = true → a.toNat < 2 ^ 18 → t.wait = none →
      let gid := a.toNat % 2 ^ 16
      let e := if a.toNat.testBit 17 then deviceEntry s else blockEntry s s.cur
      (findGroup s t.ctx gid = none → answers (.grpJoin x) (statusOver 4 0)) ∧
      (∀ g, known s gid = some g → g.ctx = t.ctx → indexOf g e = none → answers (.grpJoin x) (statusOver 4 0)) ∧
      (∀ g m, known s gid = some g → g.ctx = t.ctx → indexOf g e = some m → g.state ≠ 2 →
        let owner := (g.owners.find? fun p => p.1 == m).map (·.2)
        (a.toNat.testBit 16 = false → owner = none → debtFull t (groupHandle gid) = false →
          ends (.grpJoin x) (statusOver 0 m) fun z => owes (strandAt z s.cur) (groupHandle gid) = true ∧
            known z gid = some { g with owners := g.owners.filter (fun p => p.1 != m) ++ [(m, t.uid)] }) ∧
        (a.toNat.testBit 16 = false → (∃ u, owner = some u ∧ u ≠ t.uid ∧ lives (entry x s) u = true) → answers (.grpJoin x) (statusOver 6 m)) ∧
        (a.toNat.testBit 16 = true → owner = some t.uid → (∀ p ∈ s.plaza.posts, ¬ (p.gid = gid ∧ p.member = m)) →
          (∀ p ∈ g.owners, p.1 ≠ m → p.2 ≠ t.uid) →
          ends (.grpJoin x) (statusOver 0 m) fun z => owes (strandAt z s.cur) (groupHandle gid) = false ∧
            known z gid = some { g with owners := g.owners.filter fun p => p.1 != m }) ∧
        (a.toNat.testBit 16 = true → owner = some t.uid → (∃ p ∈ s.plaza.posts, p.gid = gid ∧ p.member = m) →
          parks (.grpJoin x) fun z => ((strandAt z s.cur).wait.map (·.stage)) = some .test) ∧
        (a.toNat.testBit 16 = true → owner ≠ some t.uid → answers (.grpJoin x) (statusOver 4 m)))) ∧
    (clear 0x384 x s = true → answers (.grpInfo x) (
      let sel := (ops x s).bw.toNat
      if 6 ≤ sel then 0
      else match findGroup s t.ctx (a.toNat % 2 ^ 16) with
        | none => BitVec.allOnes 64
        | some g =>
          let m := memberOf s g s.cur t.uid
          if sel = 0 then BitVec.ofNat 64 g.entries.length
          else if sel = 1 then (m.map fun i => BitVec.ofNat 64 i).getD (BitVec.allOnes 64)
          else if sel = 2 then BitVec.ofNat 64 ((m.map fun i => mapGet 0 g.posts i).getD 0)
          else BitVec.ofNat 64 (if sel = 3 then g.tickets else if sel = 4 then g.state else g.plaza))) ∧
    (∀ g m d1 d2 E1 E2, clear 0x385 x s = true → s.net = [] → t.wait = none →
      let E := entry x s
      let c := (ops4 x s).a
      let k := mapGet 0 g.posts m
      findGroup s t.ctx (fld c 1 0 16) = some g → ownedBy g t.uid = some m →
      readBlock E s.cur t tableSpaces (tdAddr E t.ctx (fld c 0 48 8)) 64 = .ok E1 d1 →
      readBlock E1 s.cur t tableSpaces (tdAddr E1 t.ctx (fld c 0 40 8)) 64 = .ok E2 d2 →
      (512 ≤ E2.plaza.posts.length → exec (.cpost x) s = .next (finishAt (setG E2 s.cur x.d (statusOver 6 0)) s.cur)) ∧
      (E2.plaza.posts.length < 512 → g.state ≠ 2 →
        ∃ z, exec (.cpost x) s = .next (finishAt (setG z s.cur x.d (BitVec.ofNat 64 (g.gid * 2 ^ 32 + k % 2 ^ 32))) s.cur) ∧
          z.mem = E2.mem ∧ (∀ i, getSlot z i = getSlot E2 i) ∧
          z.plaza.posts = E2.plaza.posts ++ [{ key := E2.nextId, gid := g.gid, k := k, member := m, ctx := t.ctx, uid := t.uid, sid := s.cur,
                                               blk := blkOf s.cur, cmd := c,
                                               descs := [BitVec.ofNat 512 (bytesNat d1), BitVec.ofNat 512 (bytesNat d2)],
                                               trig := none, offered := true, state := 0, status := 0, rank := none, withheld := false,
                                               startId := t.startId, written := false, sent := [], failed := false, paid := 0 }] ∧
          z.agenda = E2.agenda ++ [.event (.plazaPostArrival g.gid k m (collSig c))])) ∧
    (clear 0x386 x s = true → t.wait = none →
      (∀ gid k m, findColl s s.cur t a = .over gid k m → answers (.cwait x) (BitVec.ofNat 64 (endedStatus s gid k m))) ∧
      (∀ p, findColl s s.cur t a = .live p → timeOut x (ops x s) = some 0 → answers (.cwait x) 1) ∧
      (∀ p, findColl s s.cur t a = .live p → timeOut x (ops x s) = none → parks (.cwait x) fun _ => True)) ∧
    (clear 0x387 x s = true →
      (∀ p, findColl s s.cur t a = .live p →
        answers (.cstat x) (collWord ((p.rank.map fun r => r.dom * 2 ^ 32 + r.loc).getD 0) p.state p.status)) ∧
      (∀ gid k m e, findColl s s.cur t a = .over gid k m → findEnded s gid k m = some e →
        answers (.cstat x) (collWord e.rank 3 e.status))) ∧
    (clear 0x388 x s = true → s.net = [] →
      let key := treeKey t.ctx (distOf s.cur) (treeChan (ops x s))
      let r := mapGet TreeRound.init s.trees key
      (∀ p ∈ r.parts, p.1 ≠ blkOf s.cur) →
      parks (.tree x) fun z => (mapGet TreeRound.init z.trees key).parts = r.parts ++ [(blkOf s.cur, t.uid, a)] ∧
        ∀ j, j ≠ key → mapGet TreeRound.init z.trees j = mapGet TreeRound.init s.trees j) ∧
    (clear 0x38E x s = true → answers (.domInfo x) (BitVec.ofNat 64 (
      if a.toNat = 0 then s.dom.member else if a.toNat = 1 then s.dom.members.length else if a.toNat = 2 then s.dom.gen
      else if a.toNat = 3 then (if s.dom.state = 0 then s.dom.member else s.dom.plaza) else if a.toNat = 4 then s.dom.state
      else if a.toNat = 5 then s.dom.replays else if a.toNat = 6 then s.dom.retrans else 0)))

/-- R259, R260, R364: LAUNCH of a record that it can read answers ABORTED for an invalid one, BUSY with no launch entry free, and
otherwise OK with the launch's id, and the Interchange holds the launch; SPAWN sends one unit of the issuer's launch, which the
launch counts, with the 64 bytes of its record, and answers its id; a launch that is cancelled refuses it. -/
def Obligations.LaunchResults : Prop :=
  ∀ (x : Args) (s : State),
    let a := (ops x s).aw
    let t := acting s
    let E := entry x s
    let ends := fun (j : Instr) (v : Word) (f : State → Prop) =>
      ∃ z, exec j s = .next (finishAt (setG z s.cur x.d v) s.cur) ∧ z.mem = s.mem ∧ z.net = s.net ∧ f z
    (∀ bs E1, clear 0x380 x s = true → s.net = [] → a.toNat % 256 = 0 → readBlock E s.cur t recordSpaces a 256 = .ok E1 bs →
      let ends := fun (j : Instr) (v : Word) (f : State → Prop) =>
        ∃ z, exec j s = .next (finishAt (setG z s.cur x.d v) s.cur) ∧ z.mem = E1.mem ∧ z.net = E1.net ∧ f z
      let ws := bytesWords bs
      let bad := lrMalformed ws false || (lrDeps ws).any (depBad E1 t.ctx) || levelBad (getCtx E1 t.ctx) ws
      (bad = true → ends (.launch x) (statusOver 4 0) fun z => z = E1) ∧
      (bad = false → launchEntry E1 = none → ends (.launch x) (statusOver 6 0) fun z => z = E1) ∧
      (∀ e, bad = false → launchEntry E1 = some e → (lrDeps ws).any (depAborted E1) = false →
        let gen := ((getLaunch E1 e).gen + 1) % 2 ^ 37
        ends (.launch x) (statusOver 0 (gen * 2048 + e)) fun z => getLaunch z e =
            { gen := gen, live := true, ctx := t.ctx, words := ws, state := 0, status := 0, expected := lrCount ws, retired := 0,
              sentUnits := 0, order := E1.nextId, dropped := [], ending := none } ∧
          (∀ i, i ≠ e → getLaunch z i = getLaunch E1 i) ∧ ∀ k, getSlot z k = getSlot E1 k)) ∧
    (∀ blk core, clear 0x381 x s = true → s.net = [] →
      let id := t.launchid.toNat
      let l := getLaunch s (id % 2048)
      let b := recordAddr x (ops x s)
      let unit := s.cur % 2 ^ 15 * 2 ^ 33 + t.spawns % 2 ^ 33
      id ≠ 0 → spawnHome E s.cur t a = .home blk core → ownSpace b 64 → reserved s (ownKey s b) 64 = false → poisoned s (ownKey s b) 64 = false →
      (l.state ≠ 4 → launchId l (id % 2048) = id → l.expected < 0xFFFFFF →
        ends (.spawn x) (statusOver 0 unit) fun z =>
          z.corners = s.corners ++ [{ k := s.nextId, unit := { id := unit, launch := id, words := bytesWords (readBytes s.mem (ownKey s b) 64) },
                                      route := blkOf s.cur :: pathTo (blkOf s.cur) blk, hint := blk, radius := spawnRadius x l,
                                      core := core, queued := false, offered := false }] ∧
          getLaunch z (id % 2048) = { l with expected := l.expected + 1, state := if l.state = 2 then 1 else l.state } ∧
          (strandAt z s.cur).spawns = t.spawns + 1) ∧
      (l.state = 4 → ends (.spawn x) (statusOver 4 0) fun z => z = E))

/-- R269 to R273, R413, R414. First: a KV form with good operands, whose keys no copy on write holds, completes with its status word,
which is that of the key afterwards with OK, ABORTED or BUSY: KVMAP looks up with OK, unmaps a mapped key with OK and an unmapped one
with ABORTED, and answers BUSY where the key to map is mapped; KVREF and KVFORK answer ABORTED for an unmapped key, OK where the count
stays in range (and for KVFORK the new key is unmapped), else BUSY; KVW keeps a frame that it may write, OK; KVDEM answers BUSY for an
unmapped key, or a frame whose state does not allow the move. Then what each does to the table: KVMAP maps, unmaps or looks up a key,
KVREF and KVFORK change a count, KVW keeps a frame that it may write, and KVDEM answers BUSY where the frame's state does not allow
it. Of a context only the tallies of its packets may differ besides. -/
def Obligations.BlockTableResults : Prop :=
  (∀ (x : Args) (s : State) (n : Nat), gField x.d = some n → s.net = [] → s.resv = [] → s.served = [] → s.prompt = true →
     let a := (ops x s).aw
     let b := (ops x s).bw
     let t := acting s
     let key := kvKey a
     let home := kvCtx 4 t.ctx a
     let answers := fun (j : Instr) (c k : Nat) (fits : Nat → Prop) => ∃ y st, exec j s = .next y ∧ fits st ∧ st ∈ [0, 4, 6] ∧
       (getSlot y s.cur).st = .ready ∧ (strandAt y s.cur).pc = (endCheck t).pc ∧
       readG (strandAt y s.cur) n = (if n = 0 then 0 else kvStatus y c k st)
     let counts := fun (i : Nat) (d : Int) => 1 ≤ (descCount (kvDesc s t.ctx i) : Int) + d ∧ (descCount (kvDesc s t.ctx i) : Int) + d ≤ 65535
     (clear 0x389 x s = true → a.toNat < 2 ^ 32 → b.toNat ≤ 2 → kvKeyBad s t.ctx a = none → kvHeld s t.ctx key = false →
       answers (.kvmap x) t.ctx key fun st => (b.toNat = 2 → st = 0) ∧ (b.toNat = 1 → st = if (kvMapped s t.ctx key).isSome then 0 else 4) ∧
         (b.toNat = 0 → (kvMapped s t.ctx key).isSome = true → st = 6)) ∧
     (clear 0x38A x s = true → a.toNat < 2 ^ 32 → -65535 ≤ b.toInt → b.toInt ≤ 65535 → kvKeyBad s t.ctx a = none → kvHeld s t.ctx key = false →
       answers (.kvref x) t.ctx key fun st => (kvMapped s t.ctx key = none → st = 4) ∧
         ∀ i, kvMapped s t.ctx key = some i → (counts i b.toInt → st = 0) ∧ (¬ counts i b.toInt → st = 6)) ∧
     (clear 0x38B x s = true → a.toNat < 2 ^ 32 → b.toNat < 2 ^ 32 → kvKeyBad s t.ctx a = none → kvKeyBad s t.ctx b = none →
       kvHeld s t.ctx key = false → kvHeld s t.ctx (kvKey b) = false →
       answers (.kvfork x) t.ctx (kvKey b) fun st => (kvMapped s t.ctx key = none → st = 4) ∧
         ∀ i, kvMapped s t.ctx key = some i → st = if (kvMapped s t.ctx (kvKey b)).isSome ∨ descCount (kvDesc s t.ctx i) = 65535 then 6 else 0) ∧
     (clear 0x38C x s = true → a.toNat < 2 ^ 32 → b.toNat < 2 → kvKeyBad s t.ctx a = none → kvHeld s t.ctx key = false →
       (kvMapped s t.ctx key = none → answers (.kvw x) t.ctx key fun st => st = 4) ∧
       ∀ i, kvMapped s t.ctx key = some i → descState (kvDesc s t.ctx i) ≤ 1 → descCount (kvDesc s t.ctx i) ≤ 1 →
         answers (.kvw x) t.ctx key fun st => st = 0) ∧
     (clear 0x38D x s = true → a.toNat < 2 ^ 47 → a.toNat / 2 ^ 32 % 256 = 0 → a.toNat / 2 ^ 40 % 64 ≠ 0 → kvKeyBad s home a = none →
       kvHeld s home key = false →
       answers (.kvdem x) home key fun st => (kvMapped s home key = none → st = 6) ∧
         ∀ i, kvMapped s home key = some i → descState (kvDesc s home i) ≠ (if a.getLsbD 46 then 2 else 0) → st = 6)) ∧
  (∀ (x : Args) (s : State) (n : Nat), gField x.d = some n → s.net = [] → s.resv = [] → s.served = [] → s.prompt = true →
     let a := (ops x s).aw
     let b := (ops x s).bw
     let t := acting s
     let key := kvKey a
     let same := fun (y z : State) => ∀ c, ∃ m r v, getCtx y c = { getCtx z c with sent := m, recv := r, saved := v }
     let performs := fun (j : Instr) (op : Nat) => kvKeyBad s (kvCtx op t.ctx a) a = none → ∃ W : State,
       W.mem = s.mem ∧ same W s ∧ W.kvCopies = s.kvCopies ∧ W.poison = s.poison ∧ ∀ w z, kvEvent W t.ctx op a b s.nextId = .status w z →
         ∃ y, exec j s = .next y ∧ y.mem = z.mem ∧ same y z ∧ y.kvCopies = z.kvCopies ∧ y.retires = z.retires ∧
           (getSlot y s.cur).st = .ready ∧ readG (strandAt y s.cur) n = (if n = 0 then 0 else w) ∧ (strandAt y s.cur).pc = (endCheck t).pc
     (clear 0x389 x s = true → a.toNat < 2 ^ 32 → b.toNat ≤ 2 → performs (.kvmap x) 0) ∧
     (clear 0x38A x s = true → a.toNat < 2 ^ 32 → -65535 ≤ b.toInt → b.toInt ≤ 65535 → performs (.kvref x) 1) ∧
     (clear 0x38B x s = true → a.toNat < 2 ^ 32 → b.toNat < 2 ^ 32 → kvKeyBad s t.ctx b = none → performs (.kvfork x) 2) ∧
     (clear 0x38C x s = true → a.toNat < 2 ^ 32 → b.toNat < 2 → performs (.kvw x) 3) ∧
     (clear 0x38D x s = true → a.toNat < 2 ^ 47 → a.toNat / 2 ^ 32 % 256 = 0 → a.toNat / 2 ^ 40 % 64 ≠ 0 → performs (.kvdem x) 4) ∧
     ∀ (W : State) (c k : Nat),
       (kvHeld W c key = false →
         (b.toNat = 2 → kvEvent W c 0 a b k = .status (kvStatus W c key 0) W) ∧
         (b.toNat = 1 → kvMapped W c key = none → kvEvent W c 0 a b k = .status (kvStatus W c key 4) W) ∧
         (b.toNat = 0 → (kvMapped W c key).isSome = true → kvEvent W c 0 a b k = .status (kvStatus W c key 6) W) ∧
         (∀ f rest d, b.toNat = 0 → kvMapped W c key = none → takePair W c = (some (f, d), rest) →
           let cleared := heal { rest with mem := clearRange rest.mem (frameAddr 0 f) (frameAddr 0 f + 0x10000) } (frameAddr 0 f) 0x10000
           let z := setKey (setTarget (setDesc cleared c d (packDesc 1 0 0 0 f)) c d 0) c key (some d)
           kvEvent W c 0 a b k = .status (kvStatus z c key 0) z) ∧
         (∀ i, kvMapped W c key = some i →
           let cnt : Int := descCount (kvDesc W c i) + b.toInt
           (1 ≤ cnt → cnt ≤ 65535 → let z := updDesc W c i (fun _ => cnt.toNat) id id id id
             kvEvent W c 1 a b k = .status (kvStatus z c key 0) z) ∧
           ((cnt < 1 ∨ 65535 < cnt) → kvEvent W c 1 a b k = .status (kvStatus W c key 6) W) ∧
           (kvHeld W c (kvKey b) = false → (kvMapped W c (kvKey b)).isSome = false → descCount (kvDesc W c i) ≠ 65535 →
             let z := setKey (updDesc W c i (· + 1) id id id id) c (kvKey b) (some i)
             kvEvent W c 2 a b k = .status (kvStatus z c (kvKey b) 0) z) ∧
           (descState (kvDesc W c i) = 0 → descCount (kvDesc W c i) ≤ 1 → kvEvent W c 3 a b k = .status (kvStatus W c key 0) W))) ∧
       (kvHeld W (kvCtx 4 c a) key = false → kvMapped W (kvCtx 4 c a) key = none →
         kvEvent W c 4 a b k = .status (kvStatus W (kvCtx 4 c a) key 6) W))

/-- What happens by itself to strands and in the network, each event where its rule lets it happen. A packet at its home is performed
(R275, R276): a message lands in its inbox entry (R215), a channel message in its slot (R220), ring data in its slot and a token
on its ring (R228, R359), barrier, barrier-word and trigger-counter events and puts take effect at their homes (R221, R354, R392,
R394), a notice counts at its group (R310). An atomic is granted, written and answered (R291), a line of the instruction buffer
lands (R74), answers come home (R201, R275), a packet hops on the ring (R20, R21) and on the mesh, where a release out of scope is turned
back (R25, R288, R292, R425) or leaves through its last port (R22), a wait ends at its time-out (R396), a deadline and a missed promise stop their strands (R159,
R352), records are delivered or time out (R330, R333), and strands leave the cordon, end, and move between slots and the spill
run queue (R151, R334-R336, R345). -/
def Obligations.StrandAndNetworkEvents : Prop :=
  ∀ s : State,
    (∀ uid sid w, slotOfStrand s uid = some sid → (getSlot s sid).st = .parked → (getSlot s sid).s.wait = some w →
      (w.form = 0x81 ∨ w.form = 0x83) → (w.stage = .drain 5 ∨ w.stage = .drain 4) → (getSlot s sid).s.copies = [] →
      owesAck s uid sid .dom = false → ringHeldBy s (coreOf sid) uid = none →
      exec (.endStrand uid) s = .next (endStrandNow s sid w.word)) ∧
    (∀ core line t rest pa, lineWaiters s core line = t :: rest →
      translate s (core * 16) t.ctx .fetch (line * 256 % 2 ^ 57) = .ok pa →
      let e := lineReader core t.ctx
      let lands := fun (y : State) => exec (.ibufLineLands core line) s = .next y
      (∀ bs, deviceRead s e pa 4 = .ok bs → lands ((t :: rest).foldl (fun z u => fetched z u.uid none)
        (keepLine (dropReads s e) core line (BitVec.ofNat 2048 (bytesNat bs))))) ∧
      (∀ c i, deviceRead s e pa 4 = .error (.trap c i) →
        lands ((t :: rest).foldl (fun z u => fetched z u.uid (some (c, u.pc))) (dropReads s e))) ∧
      (∀ x, deviceRead s e pa 4 = .error x → (∀ c i, x ≠ .trap c i) → lands (awaitRead s e x))) ∧
    (∀ k p, findPkt s k = some p → mayPerform s p = true →
      let z := takePort s p
      let goes := fun (j : Instr) (y : State) => exec j s = .next y
      (∀ m, p.home = .member m → kindOf p.body = .access → goes (.requestPerformed k) (goFabric z p m)) ∧
      ((∀ m, p.home ≠ .member m) →
        (∀ a n ty mask dst, p.body = .load a n ty mask dst → dataClear z p a n = true → goes (.requestPerformed k) (readData z p a n)) ∧
        (∀ a n mask v, p.body = .store a n mask v → dataClear z p a n = true → goes (.requestPerformed k) (writeData z p a n mask v)) ∧
        (∀ c e bs, p.body = .message c e bs → goes (.inboxMessageArrives k) (performed (inboxLand z c e bs) p 0)) ∧
        (∀ c off slot bs last, p.body = .chanMsg c off slot bs last →
          goes (.channelMessageLands k) (performed (chLand z c off slot bs last p.uid) p 0)) ∧
        (∀ c off, p.body = .ringAsk c off → rgProduces z c off p.uid = true → rgRoom z c off = true → stillAsks z p = true →
          (oldestWaiting z fun q => q.body == .ringAsk c off) = none →
          goes (.ringSlotReserve k) (grant (rgReserve z c off).2 p false (rgReserve z c off).1)) ∧
        (∀ c off i at_ bs last, p.body = .ringData c off i at_ bs last →
          goes (.ringDataLands k) (performed (rgLand z c off i at_ bs last) p 0)) ∧
        (∀ c off, p.body = .ringToken c off → goes (.ringTokenArrives k) (performed (rgToken z c off p.uid) p 0)) ∧
        (∀ b i op v, p.body = .hb b i op v → goes (.hbEventPerformed k) (performed (barrierEvent z b i op p.uid v) p 0)) ∧
        (∀ c off op n, p.body = .mb c off op n → goes (.mbEventPerformed k) (performed (wordEvent z c off op n) p 0)) ∧
        (∀ b i add last v, p.body = .tc b i add last v → goes (.tcEventPerformed k)
          (performed (counterEvent z b i add last v (((strandOf z p.uid).map (·.startId)).getD p.sid)) p 0)) ∧
        (∀ sid r v h u, p.body = .putr sid r v h → putTarget z sid = some u →
          ((strandOf z u).map fun t => copying t (.g r)).getD false = false →
          goes (.putrArrives k) (performed (landReg z u (.g r) 0xFFFF (v.setWidth 128)) p 0)) ∧
        (∀ op a b dst w y, p.body = .kv op a b dst → kvBehind z p = false → kvEvent z p.ctx op a b p.k = .status w y →
          goes (.kvEventPerformed k) (performed y p (w.setWidth 512))) ∧
        (∀ h, p.body = .notice h false → goes (.withholdNoticeArrives k)
          (performed (if objCtx z h = some p.ctx then groupNotice z h p.uid false else z) p 0)) ∧
        (∀ h, p.body = .notice h true → goes (.unwithholdNoticeArrives k)
          (performed (if objCtx z h = some p.ctx then groupNotice z h p.uid true else z) p 0)))) ∧
    (∀ k p, findPkt s k = some p → kindOf p.body = .access → mayPerform s p = false →
      exec (.requestPerformed k) s = .next (gainBanks s p)) ∧
    (∀ k p, findPkt s k = some p → p.st = .performed → isBack p = true →
      (p.reply = none →
        ((landing p).isSome = true → fromEngine p = false → copyFirst s p = false → exec (.loadDataLands k) s = .next (landAnswer s p)) ∧
        (isCopyWord p.body = true → exec (.cprWordLands k) s = .next (landCopy s p)) ∧
        ((landing p).isNone = true → isCopyWord p.body = false → ackClear s p = true →
          exec (.accessAcknowledged k) s = .next (acknowledge s p))) ∧
      (∀ m n, p.reply = some (m, n) → (landing p).isSome = true → exec (.loadDataLands k) s = .next (sendReply s p m n))) ∧
    (∀ k p, findPkt s k = some p → p.st = .turned → isBack p = true →
      (∀ q ∈ s.net, q.uid = p.uid → q.k < p.k → isNotice q.body = false → inScope p.sid (widerScope p.sid p.home) q.home = false) →
      exec (.scopeMissReissue k) s = .next (reissue s p)) ∧
    (∀ k p a n o, findPkt s k = some p → p.body = .atomic a n o → p.st = .waiting →
      (grantable s k = true → poisoned s a n = false → exec (.atomicGrant k) s = .next (grantAtomic s p a n o)) ∧
      (grantable s k = true → poisoned s a n = true → exec (.atomicGrant k) s =
        .next (badPkt { s with resv := s.resv.filter fun r => r.k != k } p 5 p.ea)) ∧
      (∀ r, (s.resv.find? fun r => r.k == k) = some r → r.granted = true → p.reply = none → exec (.atomicRelease k) s =
        .next (answerAtomic (countRecv (delPkt (writeAtomic s p a n) k) p) p o r.old.toNat (atomicNew o r.old.toNat).2))) ∧
    (∀ k p r, findPkt s k = some p → p.ring = some r → p.st = .flying → heldPkt s p = false → canLeave s p r = true →
      linkFree s p r = true → exec (.ringPacketHop k) s = .next (ringHop s p r)) ∧
    (∀ k p, findPkt s k = some p → onMesh p = true → heldPkt s p = false → noticeFree s p = true →
      let hops := fun (y : State) => exec (.meshFlitHop k) s = .next y
      (p.st = .flying → turnsBack p p.route.head? = true →
        hops (updPkt s p.k fun q => { q with st := .turned, route := pathNodes q.node (srcNode q.src), via := localIn })) ∧
      ((p.st = .flying → turnsBack p p.route.head? = false) →
        (p.route = [] → p.limited = false → behind s p = false →
          (exitPort p = none →
            hops (updPkt { s with nextId := s.nextId + 1 } p.k fun q => { q with since := some (s.cycle + 1), seat := s.nextId })) ∧
          (∀ n, exitPort p = some n → linkOpen s p n = true →
            hops (updPkt (takeLink s p n) p.k fun q => { q with since := some (s.cycle + meshFlits p), seat := s.nextId }))) ∧
        (∀ n rest, p.route = n :: rest → linkOpen s p n = true →
          hops (updPkt (takeLink s p n) p.k fun q => { q with node := n, via := p.node, route := rest, seat := s.nextId })))) ∧
    (∀ core u rest p n, (getCore s core).poolWait = u :: rest → poolPkt s core = some p → poolEntry (getCore s core) = some n →
      stillAsks s p = true → exec (.inboxPoolGrant core) s =
        .next (grant (reserveEntry (updCore s core fun c => { c with poolWait := rest }) core n) p false n)) ∧
    (∀ k p c off, findPkt s k = some p → p.body = .chanAsk c off → p.st = .waiting → off ≠ 2 ^ 18 → objClear s p.body = true → chRoom s c off = true →
      (chanWaiter s c off).map (·.k) = some k → stillAsks s p = true →
      exec (.channelSlotGrant k) s = .next (grant (chReserve s c off).2 p false (chReserve s c off).1)) ∧
    (∀ sid w, (getSlot s sid).s.wait = some w → (getSlot s sid).st = .parked → waitReady s sid (getSlot s sid).s w = true →
      (getCore s (coreOf sid)).spill = [] → exec (.waitWake sid) s = .next (wake s (getSlot s sid).s.uid)) ∧
    (∀ uid, uid ∈ lateUids s → exec (.waitTimeout uid) s = .next (wake s uid)) ∧
    (∀ uid sid t, strandOf s uid = some t → locate s uid = .slot sid → t.dlArmed = true → t.dline.toNat ≤ s.dtime →
      ((getSlot s sid).st = .ready ∨ (getSlot s sid).st = .parked) → exec (.deadlineExpiry uid) s =
        .next (stopSoon (updStrand s sid fun t => { t with dlArmed := false }) sid 7 t.dline)) ∧
    (∀ b q n j p, findJob s (jobHandle b q n 0) = some j → j.lapsed = false → j.state ≠ 3 → j.missed = false → j.promise = some p → p < s.cycle →
      promiseWaiters s (jobHandle b q n 0) ≠ [] → exec (.promiseMissed b q n) s =
        .next ((promiseWaiters s (jobHandle b q n 0)).foldl (fun z sid => stopStrand z sid 6 (jobHandle b q n 0))
          (markMissed s (jobHandle b q n 0)))) ∧
    (∀ uid sid, slotOfStrand s uid = some sid → exec (.cordonLeave uid) s = .next (leaveCordon s sid)) ∧
    (∀ uid sid, slotOfStrand s uid = some sid → (getSlot s sid).st = .halted → (getSlot s sid).s.releasing = true →
      (∀ q ∈ s.net, q.uid = (getSlot s sid).s.uid → ∀ h, q.body ≠ .notice h true) →
      let y := setSlot s sid { getSlot s sid with
        st := .ready, s := { (getSlot s sid).s with releasing := false }, moved := s.cycle }
      exec (.rootReady uid) s = .next (if expired s (getSlot s sid).s = true then deadlineReport y sid else y)) ∧
    (∀ k r, (s.records.find? fun r => r.k == k) = some r →
      (recordBehind s r = false → ringHolds s r = false → exec (.trapRecordDelivery k) s = .next (deliverRecord s r)) ∧
      (10000000 < s.dtime - r.since → exec (.trapqRecordTimeout k) s = .next (soon s (.unrecoverableFault r.ctx)))) ∧
    (∀ uid core place e, spillOfUid s.cores uid = some (core, place) →
      ((getCore s core).spill.find? fun e => e.place == place) = some e →
      (e.written = false → evictedNow s core e = false → exec (.evictComplete uid) s = .next (evicted s core e)) ∧
      (∀ n, e.target = some n → e.written = true → nameHeld s core (core * 16 + e.slot % 16) = false → exec (.admitComplete uid) s = .next (admitted s core e n))) ∧
    (∀ core,
      (∀ sid p, (getCore s core).spill.any (·.ready) = true → stalled s core = true → evictChoice s core = some sid →
        spillPlace (getCore s core) = some p → exec (.autoEvict core) s = .next (evictTo s sid p false)) ∧
      (∀ e n, oldestSpill (getCore s core) = some e → 4096 ≤ s.cycle - e.since → spillSlot s core e = some n →
        exec (.autoAdmit core) s = .next (admitTo s core e n))) ∧
    (s.cycle % 256 = 0 → exec .tickBoundary s = .next (tickAll s)) ∧
    (∀ sid cls idx, ((getSlot s sid).st = .ready ∨ (getSlot s sid).st = .parked ∨ (getSlot s sid).st = .member) →
      cls < 4 → idx < 64 → exec (.registerFileError sid cls idx) s =
        .next (stopSoon s sid 5 (BitVec.ofNat 64 (2 ^ 63 + cls * 2 ^ 6 + idx))))

/-- What the engines, the Interchange, the Plaza, the page walkers and contexts do by themselves, each event where its rule lets it
happen. A queue's free entry goes to the head of its line (R348); a head job starts, ends OK, stops once cancelled, or halts on a
fault, and a fence whose parts are all at their heads ends OK (R242, R252, R346, R347). Launches are submitted, released, offered
and end, and WCANCEL acts (R365-R376). Posts reach their Plaza, tickets and contributions arrive, collectives start and end
(R382-R387). Walks fill or fault (R408, R412), translations are removed (R410), KV copies, flips and retirements end (R416-R420). A
context is created, admitted, started, switched, stopped, saved, restored and torn down (R323, R337-R343), and its deadlock sample
is taken every 1024 cycles (R400). -/
def Obligations.EngineAndContextEvents : Prop :=
  ∀ s : State,
    (∀ b q w, (queueOf s b q).waiting.head? = some w → w.kind ≠ .fence → ((strandOf s w.uid).map fun t => asksFor t w.k).getD false = true →
      (queueOf s b q).jobs.length < depthOf q → exec (.queueEntryGrant b q) s =
        .next (answerGrant (enterSubmit (dropSubmit s b w.k) b q w).2 w.uid w.k (enterSubmit (dropSubmit s b w.k) b q w).1)) ∧
    (∀ b q j, headJob s b q = some j → ctxRuns s j.ctx = true →
      (j.state = 0 → j.kind ≠ .fence → startReason j = 0 →
        exec (.jobStart b q) s = .next (updJob s b q j.seq fun x => { x with state := 2 })) ∧
      (j.state = 0 → j.kind ≠ .fence → startReason j ≠ 0 →
        exec (.jobStart b q) s = .next (endJob s b q j 4 (startReason j))) ∧
      (j.state = 2 → j.stopping = false → workOver s b q j = true → hubQuiet s b = true → wordFree s j = true → j.kind = .copy →
        exec (.jobEnd b q) s = .next (endJob s b q j (if j.halted then 2 else 0) 0)) ∧
      (j.state = 2 → j.stopping = false → workOver s b q j = true → hubQuiet s b = true → wordFree s j = true → j.kind = .matrix →
        exec (.jobEnd b q) s = .next (endJob (mxFinish s b j) b q j (if j.halted then 2 else 0) 0)) ∧
      (j.stopping = true → (j.state = 3 ∨ pieceDone j = true) → engIdle s b q = true →
        exec (.jobCancelStop b q) s = .next (endJob (dropReads s (engOf b q j)) b q j 4 7)) ∧
      (∀ cls step info, j.state = 2 → exec (.jobFault b q cls step info) s = .next (haltJob s b q j cls step info))) ∧
    (∀ b n j, readyFence s b n = some j → ctxRuns s j.ctx = true → exec (.fenceEnd b n) s =
      .next (j.parts.foldl (fun z p => match headJob z b p.1 with | some h => endJob z b p.1 h 0 0 | none => z) s)) ∧
    (∀ ctx d c, let r := mapGet TreeRound.init s.trees (treeKey ctx d c)
      r.parts ≠ [] → (∀ b ∈ treeBlocks s ctx d, ∃ p ∈ r.parts, p.1 = b) → exec (.treeRoundComplete ctx d c) s =
        .next (r.parts.foldl (fun z p => answer z p.2.1 z.nextId (waitDest z p.2.1) 0xFFFF ((treeResult s r).setWidth 128))
          { s with trees := mapPut s.trees (treeKey ctx d c) TreeRound.init, fresh := s.fresh + 1 })) ∧
    (∀ ctx slot, slot < 16 → ctx < 64 → ((slotWords s ctx slot).getD 31 0).getLsbD 63 = true →
      (slotWords s ctx slot).getD 7 0 = 0 → (getCtx s ctx).st = .running →
      exec (.hostSubmission ctx slot) s = .next (clearSlotWord (acceptLaunch s ctx (slotWords s ctx slot) true).2.2 ctx slot)) ∧
    (∀ e ws, let l := getLaunch s e
      let u := nextUnit l e ws
      let h := hintBlk s l u l.sentUnits
      nextRelease s = some e → unitWords s l l.sentUnits = .ok ws → l.dropped.contains l.sentUnits = false → exec (.unitRelease e) s =
        .next (sendUnit (dropReads (updLaunch { s with relTurn := e } e fun k =>
            { k with sentUnits := l.sentUnits + 1, state := if l.sentUnits + 1 == lrCount k.words then 2 else 1 }) (unitReader l))
          u (corner (h / 64) :: meshPath (corner (h / 64)) h) h (lrRadius l.words) none)) ∧
    (∀ k f, (s.corners.find? fun f => f.k == k) = some f → f.queued = false → exec (.unitOffer k) s = .next (offerUnit s f)) ∧
    (∀ b f c, ((cornerQueue s b).find? fun f => !behindProducer s b f) = some f →
      ((sortBy (fun x y => hops x b < hops y b || (hops x b == hops y b && x ≤ y))
        ((blocksOf s (unitCtx s f.unit)).filter fun x => x / 64 == b / 64 && hops x b ≤ f.radius)).findSome? fun x => takerOf s x f) = some c →
      exec (.cornerQueueReoffer b) s = .next (giveUnit (delFlight s f.k) c f.unit)) ∧
    (∀ e, let l := getLaunch s e
      l.live = true → (l.state = 1 ∨ l.state = 2) → l.retired = l.expected → l.sentUnits = lrCount l.words → l.words.getD 6 0 = 0 →
      lw l.words 5 30 1 = 0 → exec (.launchEnd e) s =
        .next (countEnd { updLaunch s e (fun k => { k with live := false, state := 3, status := 0, order := s.nextId, ending := none }) with
          nextId := s.nextId + 1 } l.ctx l.words false)) ∧
    (∀ ctx (v : Word), v.toNat / 2 ^ 48 % 2 ^ 13 = 0 →
      (v.toNat / 2 ^ 61 = 0 → exec (.wcancel ctx v) s = .next (cancelUnit s ctx (v.toNat % 2 ^ 48))) ∧
      (1 ≤ v.toNat / 2 ^ 61 → v.toNat / 2 ^ 61 < 5 → exec (.wcancel ctx v) s =
        .next (settleLevels ((launchesOf s ctx (v.toNat / 2 ^ 61) (v.toNat % 2 ^ 48)).foldl
          (fun z l => cancelLaunch z l (v.toNat / 2 ^ 61) (v.toNat % 2 ^ 48))
          (updCtx s ctx fun x => markLevels x (v.toNat / 2 ^ 61) (v.toNat % 2 ^ 48))) ctx))) ∧
    (∀ gid k m x g, (s.plaza.groups.find? fun g => g.gid == gid) = some g → g.state ≠ 2 →
      (g.plaza ≠ s.dom.member → exec (.plazaPostArrival gid k m x) s = .next (sendPlaza s g.plaza (postMessage gid k m x))) ∧
      (g.plaza = s.dom.member → g.entries.length ≠ 1 → (s.plaza.pending.find? fun p => p.gid == gid && p.k == k) = none →
        storeFull s g = false → exec (.plazaPostArrival gid k m x) s =
          .next (updPlaza s fun z => { z with pending := z.pending ++ [{ gid := gid, k := k, seen := [(m, x)] }] }))) ∧
    (∀ m ctx es, activeHere s = true → exec (.plazaGroupRequest m ctx es) s = .next (groupRequested s m ctx es)) ∧
    (∀ m, activeHere s = true → m ≠ s.dom.member → exec (.bareTicketRequest m) s =
      .next (sendPlaza (updPlaza s fun z => { z with domSeq := s.plaza.domSeq + 1 }) m (8 :: natBytes 4 (s.plaza.domSeq + 1)))) ∧
    (∀ d, s.plaza.bare = true → s.plaza.localWait = [] → exec (.bareTicketArrives d) s =
      .next (updPlaza s fun z => { z with bare := false, topDom := d, locSeq := 0, localWait := [] })) ∧
    (∀ gid k rank g, (s.plaza.groups.find? fun g => g.gid == gid) = some g → rank.dom ≤ s.plaza.topDom → (getCtx s g.ctx).st = .running →
      exec (.ticketArrives gid k rank) s = .next (updPlaza (updGroup (updPlaza s fun z => { z with posts := z.posts.map fun p =>
          if p.gid == gid && p.k == k && p.state == 0 then { p with state := 1, rank := some rank } else p }) gid
          fun x => { x with tickets := x.tickets + 1 }) fun z => { z with kq := z.kq ++ [(gid, k, rank)] })) ∧
    (∀ gid k rank g p mine s1, toResume s = none → (s.plaza.kq.find? fun e => !started s e.1 e.2.1) = some (gid, k, rank) →
      (s.plaza.groups.find? fun g => g.gid == gid) = some g → (s.plaza.posts.filter fun p => p.gid == gid && p.k == k) = p :: mine →
      (p :: mine).all (postDescOk g) = true →
      reserveAll s gid k (collNeed s g (collSig p.cmd) (p :: mine)) = some s1 →
      exec .collectiveStart s = .next (updPlaza s1 fun z => { z with posts := z.posts.map fun q =>
          if q.gid == gid && q.k == k then { q with state := 2 } else q })) ∧
    (∀ gid k m data g q, (s.plaza.groups.find? fun g => g.gid == gid) = some g →
      (s.plaza.posts.find? fun p => p.gid == gid && p.k == k) = some q →
      (entMember (g.entries.getD m 0) ≠ s.dom.member → m < g.entries.length → contributes q.cmd m = true →
        exec (.contributionMerged gid k m data) s = .next (mergePart s gid k m (collSig q.cmd) data)) ∧
      (∀ p, entMember (g.entries.getD m 0) = s.dom.member → findPost s gid k m = some p →
        exec (.contributionMerged gid k m data) s = .next (mergeOwn s g p))) ∧
    (∀ key p g q, (s.plaza.posts.find? fun p => p.key == key) = some p → (s.plaza.groups.find? fun g => g.gid == p.gid) = some g →
      findPartial s p.gid p.k = some q → p.state = 2 → q.held ≠ none → (getCtx s p.ctx).st = .running →
      hubQuiet s p.blk = true → mbFree s p.cmd = true →
      (∀ m < g.entries.length, contributes p.cmd m = true → ∃ e ∈ q.parts, e.1 = m) →
      exec (.collectiveEnd key) s = .next (finishPost s g p q)) ∧
    (∀ gid k, exec (.collectiveFaultAbort gid k) s = .next (endHere s gid k 4)) ∧
    (∀ k m, (s.misses.find? fun m => m.k == k) = some m → m.waiting = false → beingWalked s m = true →
      (∀ p, walk s m.ctx m.va = .page p → exec (.pageWalkComplete k) s = .next (fillPage { s with fresh := s.fresh + 1 } m p)) ∧
      (∀ l r, walk s m.ctx m.va = .fault l r → exec (.pageWalkComplete k) s =
        .next (failMiss s m fun va need => faultTrap (needOf need) l r va)) ∧
      (walk s m.ctx m.va = .deny → exec (.pageWalkComplete k) s = .next (failMiss s m fun va _ => (4, BitVec.ofNat 64 va)))) ∧
    (∀ d, missRoom s d = true → exec (.missMergeEntryGrant d) s = .next
      { s with misses := updFirst (fun m => m.dist == d && m.waiting) (fun m => { m with waiting := false }) s.misses }) ∧
    (∀ v : Word, tlbCtx v ≠ 0 →
      exec (.tlbinvPage v) s = .next { s with tlb := s.tlb.filter fun e =>
          !(e.ctx == tlbCtx v && (e.va ≤ v.toNat % 2 ^ 45 * 4096 && v.toNat % 2 ^ 45 * 4096 < e.va + e.size)) } ∧
      exec (.tlbinvKey v) s = .next { s with tlb := s.tlb.filter fun e => !(e.ctx == tlbCtx v && e.key == some (v.toNat % 2 ^ 32)) } ∧
      exec (.tlbinvContext v) s = .next { s with tlb := s.tlb.filter fun e => e.ctx != tlbCtx v }) ∧
    (∀ k c, (s.kvCopies.find? fun c => c.k == k && c.kind == 0) = some c → exec (.kvCopyEnd k) s = .next (kvCopyDone s c)) ∧
    (∀ k c, (s.kvCopies.find? fun c => c.k == k && c.kind != 0) = some c → descHeld s c.ctx c.desc = false → exec (.kvFlip k) s = .next (kvFlipDone s c)) ∧
    (∀ k r, (s.retires.find? fun r => r.k == k) = some r → frameBusy s r.tier r.frame = false →
      exec (.frameRetire k) s = .next (frameRetired s r)) ∧
    (∀ b, (getHub s b).scrub = true → exec (.scrubEnd b) s = .next (updHub s b fun h => { h with scrub := false })) ∧
    (∀ ctx,
      ((getCtx s ctx).st = .none → (ctx = 0 ∨ ctxRoom s = true) →
        exec (.ctxCreate ctx) s = .next (setSt (ctxStatus s ctx 0) ctx .created)) ∧
      (mayAdmit s ctx = true → exec (.ctxAdmit ctx) s = .next (setSt ((partBlocks (ctxStatus s ctx 0) ctx).foldl
        (fun y b => scrubBlock y b (some ctx)) (ctxStatus s ctx 0)) ctx .admitted)) ∧
      (∀ x, (getCtx s ctx).st = .admitted → readContents s ctx = some x → exec (.ctxStart ctx) s =
        .next (setSt ((blocksOf (ctxStatus s ctx 0) ctx).foldl (fun y b => writeContents y b x) (ctxStatus s ctx 0)) ctx .running)) ∧
      (∀ succ, (getCtx s ctx).st = .running → s.dtime + 50000 ≤ (ctxReg s ctx 0x4A0).toNat → exec (.ctxSwitch ctx succ) s =
        .next (updCtx (ctxStatus s ctx 0) ctx fun x => { x with switchTo := some ((ctxReg s ctx 0x4A0).toNat, succ) })) ∧
      (((getCtx s ctx).st = .running ∨ (getCtx s ctx).st = .switchedOut) → exec (.ctxStop ctx) s =
        .next (setSt (flip (ctxStatus s ctx 0) ctx) ctx .stopping)) ∧
      (∀ h, exec (.ctxcmdHold ctx h) s = .next (updCtx s ctx fun x => { x with hold := h })) ∧
      (∀ t n, (getCtx s ctx).st = .running → (getCtx s ctx).switchTo = some (t, n) → t ≤ s.dtime →
        exec (.gangSwitch ctx) s = .next (switchOut s ctx)) ∧
      (∀ v, (getCtx s ctx).saved = some v → (getCtx s ctx).st = .switchedOut →
        ((getCtx s ctx).saving = true → exec (.contextSaveComplete ctx) s = .next (saveDone s ctx v)) ∧
        (∀ f, (getCtx s ctx).saving = false → predecessor s ctx = some f → mayRestore s ctx v = true →
          exec (.contextRestore ctx) s = .next (restored s ctx f v))) ∧
      (∀ t n, (getCtx s ctx).saving = true → (getCtx s ctx).late = false → (getCtx s ctx).switchTo = some (t, n) →
        t + s.mgmt.late.toNat ≤ s.dtime → exec (.lateDeviceEvent ctx) s =
          .next (schedulerEvent (updCtx s ctx fun x => { x with late := true }) ctx 1)) ∧
      ((getCtx s ctx).st = .stopping → (∀ m ∈ cutMembers s, ∃ e ∈ (getCtx s ctx).cut, e.1 = m) → exec (.cutClosed ctx) s =
        .next (if (domSums s ctx).1 = (domSums s ctx).2 then teardown s ctx else askCuts s ctx)) ∧
      (((getCtx s ctx).st = .running ∨ (getCtx s ctx).st = .switchedOut ∨ (getCtx s ctx).st = .stopping) →
        exec (.unrecoverableFault ctx) s = .next (teardown s ctx)) ∧
      ((getCtx s ctx).st = .tornDown → (∀ b ∈ blocksOf s ctx, (getHub s b).scrub = false) → exec (.teardownComplete ctx) s =
        .next (schedulerEvent (setCtx ((blocksOf s ctx).foldl (fun z b => updHub z b fun h => { h with owner := none }) s) ctx
          { Ctx.init with status := (getCtx s ctx).status, classmap := (getCtx s ctx).classmap, ratelim := (getCtx s ctx).ratelim,
                          bucket := (getCtx s ctx).bucket }) ctx 3)) ∧
      ((getCtx s ctx).st = .running → s.cycle % 1024 = 0 → exec (.deadlockSample ctx) s = .next (sampleDeadlock s ctx))) ∧
    (∀ core ctx, (getHub s (blkOfCore core)).owner = some ctx → (getCtx s ctx).st = .running →
      (getHub s (blkOfCore core)).initDone = true → (getHub s (blkOfCore core)).scrub = false → (getSlot s (core * 16)).st = .empty →
      exec (.slotZeroStart core) s =
        .next (startIn s (core * 16) ctx (ctxReg s ctx 0x418) (BitVec.ofNat 64 (strandArea s ctx core)) none))

/-- What the management agent, the debugger, the links and the trust domain do, each event where its rule lets it happen: DBG stops,
releases and holds a strand (R460), PWRLIM takes 1500 to 3000 (R457), the error log latches and clears (R461), a register write
takes effect (R67), the host's submission is written (R365, R422), the responder answers each request in its phase (R423, R436) and
IDE_KM acts in the host's session (R421); domain commands are taken where the state accepts them and set the refused bit elsewhere
(R435, R436, R438), the re-key barrier opens, counts arrivals and closes (R440), heartbeats, losses and elections come about (R389,
R439), time is set (R442, R443), flits, acks and naks act on their port (R428), packets are accepted, discarded, asked for again or
passed on (R294, R429), and functions get ready and fail (R452, R456); reset leaves the state of State.reset with what the root of
trust found (R5, R453). The trapinfo of a debugger's stop is a free value (notes/assumptions/55.md). The bytes of the responder's answers are the model's choice (notes/assumptions/13.md). -/
def Obligations.DeviceAndDomainEvents : Prop :=
  ∀ s : State,
    (∀ ctx sid, (getSlot s sid).st ≠ .empty → (getSlot s sid).s.ctx = ctx → getSlot s sid ≠ movingSlot ctx (getSlot s sid).moved →
      (((getSlot s sid).st = .ready ∨ (getSlot s sid).st = .parked ∨ (getSlot s sid).st = .member) →
        exec (.dbgStop ctx sid) s = .next (stopSoon { s with fresh := s.fresh + 1 } sid 13 (stopInfo s))) ∧
      ((getSlot s sid).st = .halted → exec (.dbgRelease ctx sid) s = .next (releaseRoot s sid)) ∧
      ((getSlot s sid).st = .halted → exec (.dbgHold ctx sid) s = .next (updStrand s sid fun t => { t with held := true }))) ∧
    (∀ ctx sid, (getSlot s sid).st = .empty ∨ (getSlot s sid).s.ctx ≠ ctx ∨ getSlot s sid = movingSlot ctx (getSlot s sid).moved → exec (.dbgStop ctx sid) s = .next s ∧
      exec (.dbgRelease ctx sid) s = .next s ∧ exec (.dbgHold ctx sid) s = .next s) ∧
    (∀ v : Word, exec (.pwrlimWrite v) s = .next (if 1500 ≤ v.toNat % 4096 ∧ v.toNat % 4096 ≤ 3000 then
      updMgmt s fun m => { m with pwrlim := BitVec.ofNat 64 (v.toNat % 4096) } else s)) ∧
    (s.mgmt.clockWindow + 1000000 ≤ s.dtime → exec .powerWindow s = .next (powerWindow s)) ∧
    (∀ src pa t, 1 ≤ src → src ≤ 3 → exec (.errlogCapture src pa) s = .next t →
      t = updMgmt s (fun m => { m with errlog := t.mgmt.errlog, errNow := t.mgmt.errNow }) ∧
      (s.mgmt.errlog.getLsbD 63 = false → t.mgmt.errlog = BitVec.ofNat 64 (2 ^ 63 + src % 64 * 2 ^ 56 + pa % 2 ^ 56)) ∧
      (s.mgmt.errlog.getLsbD 63 = true → t.mgmt.errlog = s.mgmt.errlog ||| 0x4000000000000000#64) ∧
      (∃ w, t.mgmt.errNow = some (s.cycle, w) ∧ exec .errlogClear t = .next (updMgmt t fun m => { m with errlog := w }) ∧
        ((∀ e, s.mgmt.errNow = some e → e.1 ≠ s.cycle) → w = BitVec.ofNat 64 (2 ^ 63 + src % 64 * 2 ^ 56 + pa % 2 ^ 56)))) ∧
    (∀ src pa, 1 ≤ src → src ≤ 3 → exec (.errlogCapture src pa) s = .next (captureError s src pa)) ∧
    ((∀ e, s.mgmt.errNow = some e → e.1 ≠ s.cycle) → exec .errlogClear s = .next (updMgmt s fun m => { m with errlog := 0 })) ∧
    (∀ k p, findPkt s k = some p → p.limited = true → p.st = .flying → payloadBytes p.body ≤ (getCtx s p.ctx).bucket →
      (∀ q ∈ s.net, q.ord < p.ord → q.ctx = p.ctx → q.limited = true → q.st ≠ .flying) →
      exec (.rateLimitRelease k) s = .next (updPkt (updCtx s p.ctx fun x => { x with bucket := x.bucket - payloadBytes p.body }) k
        fun q => { q with limited := false })) ∧
    (∀ core ctx off v, regMapped off = true → (regPriv off = false ∨ ctx = 0) →
      exec (.registerWrite core ctx off v) s = .next (writeRegister s core ctx off v)) ∧
    (∀ t, t.kind = 0 →
      (∀ bs, t.data = some bs → tlpAccepted s t = true → tlpShape t = true →
        (t.bar = 0 → t.offset < 0x80000 → exec (.hostTlpReceive t) s = .next (writeWindow s t.offset bs)) ∧
        (t.bar = 2 → tlpRegister t = true → exec (.hostTlpReceive t) s =
          .next (writeRegister s 0 0 t.offset (BitVec.ofNat 64 (bytesNat bs))))) ∧
      (t.data = none →
        let answers := fun (v : Option (List Byte)) => exec (.hostTlpReceive t) s =
          .next (updMgmt s fun m => { m with completion := some (t.tag, v) })
        (tlpAccepted s t = false ∨ tlpShape t = false → answers none) ∧
        (tlpAccepted s t = true → tlpShape t = true →
          (t.bar = 0 → t.offset < 0x80000 → answers (some ((List.range t.len).map fun i => windowByte s (t.offset + i)))) ∧
          (t.bar = 2 → tlpRegister t = true → answers (some (natBytes 8 (readRegister s 0 0 t.offset).toNat)))))) ∧
    (∀ t, t.kind = 1 → t.len = 4 → t.offset % 4 = 0 → t.offset < 4096 →
      (t.data = none → exec (.hostTlpReceive t) s = .next (complete s t.tag (some (cfgRead s t.offset)))) ∧
      (∀ bs, t.data = some bs → exec (.hostTlpReceive t) s = .next (complete (cfgWrite s t.offset bs) t.tag (some [])))) ∧
    (∀ r seed, s.mgmt.seed = some seed →
      let x := sessionOf s r.session
      x.phase < 10 →
      exec (.getVersion r) s = .next (answerSpdm (dropSession s r.session) (sessionOf (dropSession s r.session) r.session) 1 0x04 [0x13]) ∧
      (1 ≤ x.phase → exec (.getCapabilities r) s = .next (answerSpdm s x 2 0x61 [])) ∧
      (2 ≤ x.phase → offersAll r = true → exec (.negotiateAlgorithms r) s = .next (answerSpdm s x 3 0x63 [1, 1, 1, 1, 1])) ∧
      (3 ≤ x.phase →
        exec (.getDigests r) s = .next (answerSpdm s x x.phase 0x01 (Config.sha512 (Config.chain (Config.publicKey seed)))) ∧
        ((r.body.getD 0 0).toNat % 16 = 0 →
          exec (.getCertificate r) s = .next (answerSpdm s x x.phase 0x02 (Config.chain (Config.publicKey seed)))) ∧
        exec (.getMeasurements r) s = .next (answerSpdm s x x.phase 0x60 (ownBlocks s ++ signed seed (ownBlocks s ++ r.body))) ∧
        (let theirs := fixLen 96 r.body
         let mine := fixLen 96 (Config.share (Config.drawn s.fresh))
         exec (.keyExchange r) s = .next (answerSpdm { s with fresh := s.fresh + 1 }
           { x with secret := Config.agreed (Config.drawn s.fresh) theirs, drawn := theirs ++ mine } 4 0x64
           (mine ++ signed seed (theirs ++ mine))))) ∧
      (4 ≤ x.phase → exec (.finish r) s =
        .next (if r.body.take 64 = fixLen 64 (Config.finishMac x.secret) ∧ (r.session = 0 ∨ finishPasses s x r.body = true)
          then answerSpdm s x 5 0x65 [] else dropSession (spdmError s r.session 6) r.session))) ∧
    (∀ r, s.mgmt.seed = none → exec (.getVersion r) s = .next (spdmError s r.session 5)) ∧
    (∀ r, r.session = 0 → (sessionOf s 0).phase = 5 →
      ((r.body.getD 0 0).toNat = 2 → exec (.ideKm r) s =
        .next (deliverReply (updMgmt s fun m => { m with ideKey := (r.body.drop 1).take 32, ideSecure := false }) (sessionOf s 0) [0xFE, 3])) ∧
      ((r.body.getD 0 0).toNat = 4 → exec (.ideKm r) s =
        .next (deliverReply (updMgmt s fun m => { m with ideSecure := m.ideKey.length == 32 }) (sessionOf s 0) [0xFE, 6])) ∧
      ((r.body.getD 0 0).toNat = 5 → exec (.ideKm r) s =
        .next (deliverReply (updMgmt s fun m => { m with ideSecure := false }) (sessionOf s 0) [0xFE, 6]))) ∧
    (∀ m,
      (s.dom.state = 0 → s.mgmt.seed ≠ none →
        exec (.domForm m) s = .next (soon (updDom (takeMember s m) fun d => { d with
          members := [m], next := [m], plaza := m, state := 1, aligned := true, joining := none }) .rekeyStart) ∧
        (∀ p, (portOf s p).isSome = true → exec (.domJoin m p) s = .next (startJoin s m p))) ∧
      (s.dom.state ≠ 0 → exec (.domForm m) s = .next (refuse s) ∧ (∀ p, exec (.domJoin m p) s = .next (refuse s))) ∧
      (s.dom.state ≠ 0 → s.mgmt.seed ≠ none →
        exec .domLeave s = .next (if isPlaza s then leaveMember s (me s) else sendRekey (updDom s fun d => { d with
          state := 3, leaving := (me s :: d.leaving).eraseDups }) s.dom.plaza 3 []) ∧
        (m ∈ s.dom.members → m ≠ me s → exec (.domEvict m) s = .next (if isPlaza s then evictMember s m
          else sendRekey (updDom s fun d => { d with state := 3 }) s.dom.plaza 4 (natBytes 2 m)))) ∧
      (isPlaza s = true → m ∉ s.dom.members → m ∉ s.dom.next → m ∉ s.dom.barrier → (sessionOf s (m + 1)).phase = 5 →
        exec (.joinRequest m) s = .next (changeTo (updDom (sendRekey s m 10 [1]) fun d => { d with
          heard := mapPut d.heard m s.dtime }) (s.dom.next ++ [m])))) ∧
    (∀ p m code body, s.dom.joining = some (p, m) →
      let x := sessionOf s (p + 1)
      let goes := fun (y : State) => exec (.spdmResponseArrives code body) s = .next y
      (joinStep s p m x code body = none → goes (endJoin s p)) ∧
      (∀ y, joinStep s p m x code body = some y → goes y) ∧
      (x.phase = 10 → code = 0x04 → goes (askSpdm s p x 11 0xE1 [])) ∧
      (x.phase = 4 → code = 0x65 → goes (sendRekey (setSession s { x with phase := 5 }) p 7 (natBytes 2 m)))) ∧
    (isPlaza s = true → newGen s.dom ≤ s.dom.gen →
      let leaving := s.dom.leaving.filter fun m => !s.dom.next.contains m
      exec .rekeyStart s = .next ((others s (s.dom.next ++ leaving)).foldl sendList (installKeys { s with fresh := s.fresh + 1 }
        (s.dom.gen + 1) s.dom.next leaving (Config.secret (s.fresh + (s.dom.gen + 1)))))) ∧
    (∀ g ms secret, s.dom.state ≠ 0 → newGen s.dom < g → me s ∈ ms →
      exec (.rekeyMessageArrives g ms secret) s = .next (installKeys s g ms [] secret)) ∧
    (∀ m, isPlaza s = true → m ≠ me s → m ∈ s.dom.barrier → exec (.rekeyArrive m) s = .next (tryClose (arrivalAt s m 0))) ∧
    (isPlaza s = true → barrierFull s = true → exec .rekeyClose s = .next (plazaClose s)) ∧
    (isPlaza s = false → s.dom.state ≠ 0 → s.dom.gen < newGen s.dom → me s ∈ s.dom.arrived →
      exec .rekeyClose s = .next (closeBarrier s)) ∧
    (∀ m, m ≠ me s → s.dom.state ≠ 0 →
      let heard := updDom s fun d => { d with heard := mapPut d.heard m s.dtime }
      (isPlaza s = true → newGen s.dom ≤ s.dom.gen → exec (.heartbeat m) s = .next (sendBeat heard m)) ∧
      (isPlaza s = false → exec (.heartbeat m) s = .next heard)) ∧
    (∀ m, isPlaza s = true → m ≠ me s → m ∈ s.dom.members → m ∈ s.dom.next → heardAt s m + 20000 ≤ s.dtime →
      newGen s.dom ≤ s.dom.gen →
      exec (.memberLost m) s = .next (tryClose (changeTo (updDom (lostInBarrier (loseMember s m) m) fun d => { d with
        leaving := d.leaving.filter (· != m) }) (s.dom.next.filter (· != m))))) ∧
    (2 ≤ s.dom.state → isPlaza s = false → heardAt s s.dom.plaza + 20000 ≤ s.dtime →
      (s.dom.gen = 0 → exec .plazaLost s = .next (standAlone s)) ∧
      (s.dom.gen ≠ 0 → heir s.dom ≠ s.dom.member → exec .plazaLost s = .next (elect s)) ∧
      (s.dom.gen ≠ 0 → heir s.dom = s.dom.member → exec .plazaLost s =
        .next (soon (updPlaza (elect s) fun z => { z with domSeq := max z.domSeq z.topDom }) .rekeyStart))) ∧
    (∀ ref : Nat, s.dom.state ≠ 0 → isPlaza s = false →
      let move := max (-(rateLimit s)) (min (rateLimit s) ((ref : Int) - (s.dtime : Int)))
      (s.dom.aligned = true → ∃ near, exec (.timeExchange ref) s = .next (updDom { s with skew := s.skew + move } fun d => { d with
        near := near, ahead := 0, timed := max 1 s.dtime })) ∧
      (s.dom.aligned = false → s.dom.timed = 0 → s.dtime < ref → exec (.timeExchange ref) s =
        .next (updDom { s with skew := s.skew + ((ref - s.dtime : Nat) : Int), dtime := ref } fun d => { d with
          near := true, ahead := 0, timed := max 1 ref }))) ∧
    (∀ p f, p < 16 → (getPort s p).up = true →
      (flitCrc f ≠ f.crc → exec (.chiplinkFlitReceive p f) s = .next (updPort s p sendNak)) ∧
      (flitCrc f = f.crc → f.kind = 0 → f.cls < 6 →
        (f.lseq = (getPort s p).expect →
          exec (.chiplinkFlitReceive p f) s = .next (acceptFlit s p f) ∧
          (mapGet [] (getPort s p).inb f.cls = [] → f.start = 0x1FF → acceptFlit s p f = updPort s p fun y => { y with
            expect := (y.expect + 1) % 1024, naked := false, inb := mapSet [] y.inb f.cls []
            unacked := if y.unacked + 1 < 32 then y.unacked + 1 else 0
            wire := if y.unacked + 1 < 32 then y.wire else y.wire ++ [controlFlit 1 y.expect] })) ∧
        (f.lseq ≠ (getPort s p).expect → (getPort s p).naked = false →
          exec (.chiplinkFlitReceive p f) s = .next (updPort s p sendNak)) ∧
        (f.lseq ≠ (getPort s p).expect → (getPort s p).naked = true → exec (.chiplinkFlitReceive p f) s = .next s))) ∧
    (∀ p n, (getPort s p).up = true → (∃ f ∈ (getPort s p).replay, f.lseq = n) →
      exec (.linkAck p n) s = .next (updPort s p fun y =>
        { freeFlits y (y.replay.take ((y.replay.takeWhile fun f => f.lseq != n).length + 1)) with tries := 0 }) ∧
      (∀ f, (getPort s p).replay.head? = some f → f.lseq ≠ n → exec (.linkNak p n) s = .next (updPort s p fun y =>
        let z := freeFlits y (y.replay.takeWhile fun g => g.lseq != n)
        { z with tries := 1, wire := z.wire ++ z.replay }))) ∧
    (∀ p : FabPkt,
      let goes := fun (y : State) => exec (.fabricPacketArrival p) s = .next y
      (p.dst ≠ ownId s → 1 < p.hops →
        goes (updDom s fun d => { d with outbox := d.outbox ++ [{ p with hops := p.hops - 1 }] })) ∧
      (p.dst ≠ ownId s → p.hops ≤ 1 → goes s) ∧
      (p.dst = ownId s → p.rsvd ≠ 0 → goes (countReplay s)) ∧
      (p.dst = ownId s → p.rsvd = 0 → openStart s p = none →
        (openPkt s p = none → goes (countReplay s)) ∧
        (∀ q, openPkt s p = some q → q.cls ≠ 5 →
          (keyed s q = false → goes (countReplay s)) ∧
          (keyed s q = true → q.gen = (getStream s q.src).rgen → q.seq < (getStream s q.src).expect → goes (countReplay s)) ∧
          (keyed s q = true → q.gen = (getStream s q.src).rgen →
            let x := getStream s q.src
            let got := updStream s q.src fun y => { y with
              expect := y.expect + 1, asked := none, unacked := y.unacked + 1
              oldest := if y.unacked == 0 then s.dtime else y.oldest
              lent := mapPut y.lent q.cls (mapGet 560 y.lent q.cls - fabSize q) }
            (q.seq = x.expect → goes (deliverFabric (if x.unacked + 1 < 256 then got else sendAck got q.src) q)) ∧
            (x.expect < q.seq → x.asked = some x.expect → goes s) ∧
            (x.expect < q.seq → x.asked ≠ some x.expect → goes (sendEscape
              (updDom (updStream s q.src fun y => { y with asked := some x.expect }) fun d => { d with retrans := d.retrans + 1 })
              q.src 3 (natBytes 8 x.expect))))))) ∧
    (∀ m n, exec (.retransmissionRequest m n) s =
      .next (updDom s fun d => { d with outbox := d.outbox ++ (getStream s m).shadow.filter fun p => n ≤ p.seq })) ∧
    (∀ m n g, s.dom.state ≠ 0 → exec (.e2eAck m n g) s = .next (ackStream s m n g)) ∧
    (∀ m, 0 < (getStream s m).unacked → (getStream s m).oldest + 1000 ≤ s.dtime → exec (.e2eAckTimer m) s = .next (sendAck s m)) ∧
    (∀ m, (getStream s m).shadow ≠ [] → (getStream s m).since + 20000 ≤ s.dtime →
      exec (.streamResendTimeout m) s = .next (updStream (resend s m 0) m fun y => { y with since := s.dtime })) ∧
    (exec .reset s = .next { State.reset with agenda := [], mgmt := rootOfTrust s.fresh, fresh := s.fresh + 1 }) ∧
    (∀ n, mayBeReady s n = true → readyBit s n = false → exec (.functionReady n) s =
      .next (if 26 ≤ n ∧ n ≤ 41 then updPort (setReady s n true) (n - 26) (fun _ => { Port.init with up := true })
        else if 42 ≤ n ∧ n ≤ 45 then startClock (setReady s n true) (n - 42) else setReady s n true)) ∧
    (∀ n, 24 ≤ n → n ≤ 57 → (n < 42 ∨ 45 < n) → exec (.functionFailure n) s = .next (if 26 ≤ n ∧ n ≤ 41 then
      updPort (setReady s n false) (n - 26) (fun p => { p with up := false }) else setReady s n false)) ∧
    (∀ d, d < 4 → readyBit s (42 + d) = true → exec (.districtFailure d) s =
      .next (((holdersOf s d).filter fun c => (getCtx s c).st != .tornDown).foldl teardown (setClock (setReady s (42 + d) false) d 0)))
end

