-- ==== Sys2Proof/Laws/Map.lean ====
section
/-! SUPPORT. What the finite maps and the one memory do: reading after writing, and the canonical form. -/

namespace Sys2Proof.Machine
open Sys2Proof

/-! ## Reading after writing -/

theorem mapFind_put_same {α : Type} (m : Map α) (i : Nat) (v : α) : mapFind (mapPut m i v) i = some v := by
  fun_induction mapPut m i v <;> simp_all [mapFind]

theorem mapFind_put_other {α : Type} (m : Map α) (i j : Nat) (v : α) (h : j ≠ i) :
    mapFind (mapPut m i v) j = mapFind m j := by
  fun_induction mapPut m i v <;> simp_all [mapFind]

theorem mapFind_del_same {α : Type} (m : Map α) (i : Nat) : mapFind (mapDel m i) i = none := by
  fun_induction mapDel m i <;> simp_all [mapFind]

theorem mapFind_del_other {α : Type} (m : Map α) (i j : Nat) (h : j ≠ i) :
    mapFind (mapDel m i) j = mapFind m j := by
  fun_induction mapDel m i <;> simp_all [mapFind]

theorem mapGet_put {α : Type} (d : α) (m : Map α) (i j : Nat) (v : α) :
    mapGet d (mapPut m i v) j = if j = i then v else mapGet d m j := by
  unfold mapGet
  split
  · subst_vars; simp [mapFind_put_same]
  · rw [mapFind_put_other _ _ _ _ ‹_›]

theorem mapGet_del {α : Type} (d : α) (m : Map α) (i j : Nat) :
    mapGet d (mapDel m i) j = if j = i then d else mapGet d m j := by
  unfold mapGet
  split
  · subst_vars; simp [mapFind_del_same]
  · rw [mapFind_del_other _ _ _ ‹_›]

theorem mapGet_set {α : Type} [DecidableEq α] (d : α) (m : Map α) (i j : Nat) (v : α) :
    mapGet d (mapSet d m i v) j = if j = i then v else mapGet d m j := by
  unfold mapSet
  split
  · subst_vars; exact mapGet_del _ _ _ _
  · exact mapGet_put _ _ _ _ _

/-- One byte read after one byte written. -/
theorem readByte_writeByte (m : Map Byte) (a b : Nat) (v : Byte) :
    readByte (writeByte m a v) b = if b = a then v else readByte m b := by
  unfold readByte writeByte
  split
  · subst_vars; exact mapGet_del _ _ _ _
  · exact mapGet_put _ _ _ _ _

/-- A little-endian write leaves every byte outside its own alone. -/
theorem readByte_writeLe (m : Map Byte) (a n v b : Nat) (h : b < a ∨ a + n ≤ b) :
    readByte (writeLe m a n v) b = readByte m b := by
  induction n generalizing m a v with
  | zero => rfl
  | succ n ih => rw [writeLe, ih _ _ _ (by omega), readByte_writeByte, if_neg (by omega)]

/-- A list of bytes written leaves every byte outside its own alone. -/
theorem readByte_writeBytes (m : Map Byte) (a b : Nat) (bs : List Byte) (h : b < a ∨ a + bs.length ≤ b) :
    readByte (writeBytes m a bs) b = readByte m b := by
  induction bs generalizing m a with
  | nil => rfl
  | cons x xs ih =>
    simp only [List.length_cons] at h
    rw [writeBytes, ih _ _ (by omega), readByte_writeByte, if_neg (by omega)]

/-- A masked write leaves every byte outside its own alone. -/
theorem readByte_writeMasked (m : Map Byte) (a mask n v b : Nat) (h : b < a ∨ a + n ≤ b) :
    readByte (writeMasked m a mask n v) b = readByte m b := by
  induction n generalizing m a mask v with
  | zero => rfl
  | succ n ih =>
    rw [writeMasked, ih _ _ _ _ (by omega)]
    split
    · rw [readByte_writeByte, if_neg (by omega)]
    · rfl

/-- A little-endian read depends on its own bytes only. -/
theorem readLe_congr (m m' : Map Byte) (a n : Nat) (h : ∀ b, a ≤ b → b < a + n → readByte m b = readByte m' b) :
    readLe m a n = readLe m' a n := by
  induction n generalizing a with
  | zero => rfl
  | succ n ih => rw [readLe, readLe, h a (by omega) (by omega), ih (a + 1) fun b h1 h2 => h b (by omega) (by omega)]

/-- A little-endian read after a little-endian write of the same bytes. -/
theorem readLe_writeLe (m : Map Byte) (a n v : Nat) : readLe (writeLe m a n v) a n = v % 256 ^ n := by
  induction n generalizing m a v with
  | zero => simp [readLe, Nat.mod_one]
  | succ n ih =>
    rw [readLe, writeLe, readByte_writeLe _ _ _ _ _ (by omega), readByte_writeByte, if_pos rfl, ih]
    rw [BitVec.toNat_ofNat, Nat.pow_succ' (m := 256), Nat.mod_mul]

/-! ## The canonical form -/

theorem mapSorted_mono {α : Type} (m : Map α) (a b : Nat) (h : a ≤ b) (hs : mapSorted b m = true) :
    mapSorted a m = true := by
  cases m with
  | nil => rfl
  | cons e m => obtain ⟨k, w⟩ := e; simp_all [mapSorted]; omega

theorem mapSorted_put {α : Type} (m : Map α) (lo i : Nat) (v : α) (hl : lo ≤ i) (h : mapSorted lo m = true) :
    mapSorted lo (mapPut m i v) = true := by
  induction m generalizing lo with
  | nil => simp [mapPut, mapSorted, hl]
  | cons e m ih =>
    obtain ⟨k, w⟩ := e
    simp only [mapSorted, Bool.and_eq_true, decide_eq_true_eq] at h
    simp only [mapPut]
    split
    · simp_all [mapSorted]
    · split
      · simp_all [mapSorted]
      · simp only [mapSorted, Bool.and_eq_true, decide_eq_true_eq]
        exact ⟨h.1, ih _ (by omega) h.2⟩

theorem mapSorted_filter {α : Type} (m : Map α) (lo : Nat) (p : Nat × α → Bool) (h : mapSorted lo m = true) :
    mapSorted lo (m.filter p) = true := by
  induction m generalizing lo with
  | nil => rfl
  | cons e m ih =>
    obtain ⟨k, w⟩ := e
    simp only [mapSorted, Bool.and_eq_true, decide_eq_true_eq] at h
    rw [List.filter_cons]
    split
    · simp only [mapSorted, Bool.and_eq_true, decide_eq_true_eq]; exact ⟨h.1, ih _ h.2⟩
    · exact mapSorted_mono _ _ _ (by omega) (ih _ h.2)

theorem mapDel_eq_filter {α : Type} (m : Map α) (i : Nat) : mapDel m i = m.filter fun e => !decide (i = e.1) := by
  fun_induction mapDel m i <;> simp_all

theorem mapPut_all {α : Type} (m : Map α) (i : Nat) (v : α) (p : Nat × α → Bool) (hv : p (i, v) = true)
    (h : m.all p = true) : (mapPut m i v).all p = true := by
  fun_induction mapPut m i v <;> simp_all

theorem memWf_filter (m : Map Byte) (p : Nat × Byte → Bool) (h : memWf m = true) : memWf (m.filter p) = true := by
  unfold memWf at *
  simp only [Bool.and_eq_true] at *
  refine ⟨mapSorted_filter _ _ _ h.1, ?_⟩
  simp only [List.all_filter, List.all_eq_true] at *
  intro e he
  simp [h.2 e he]

/-- The canonical form is kept by a byte written. -/
theorem memWf_writeByte (m : Map Byte) (a : Nat) (v : Byte) (h : memWf m = true) : memWf (writeByte m a v) = true := by
  unfold writeByte
  split
  · rw [mapDel_eq_filter]; exact memWf_filter _ _ h
  · unfold memWf at *
    simp only [Bool.and_eq_true] at *
    exact ⟨mapSorted_put _ _ _ _ (Nat.zero_le _) h.1, mapPut_all _ _ _ _ (by simpa using ‹_›) h.2⟩

theorem memWf_writeLe (m : Map Byte) (a n v : Nat) (h : memWf m = true) : memWf (writeLe m a n v) = true := by
  induction n generalizing m a v with
  | zero => exact h
  | succ n ih => exact ih _ _ _ (memWf_writeByte _ _ _ h)

theorem memWf_writeMasked (m : Map Byte) (a mask n v : Nat) (h : memWf m = true) :
    memWf (writeMasked m a mask n v) = true := by
  induction n generalizing m a mask v with
  | zero => exact h
  | succ n ih =>
    rw [writeMasked]
    split
    · exact ih _ _ _ _ (memWf_writeByte _ _ _ h)
    · exact ih _ _ _ _ h

theorem memWf_writeBytes (m : Map Byte) (a : Nat) (bs : List Byte) (h : memWf m = true) :
    memWf (writeBytes m a bs) = true := by
  induction bs generalizing m a with
  | nil => exact h
  | cons b bs ih => exact ih _ _ (memWf_writeByte _ _ _ h)

theorem memWf_clearRange (m : Map Byte) (lo hi : Nat) (h : memWf m = true) : memWf (clearRange m lo hi) = true :=
  memWf_filter _ _ h

/-- Reset's memory has the canonical form. -/
theorem memWf_reset : memWf State.reset.mem = true := rfl

end Sys2Proof.Machine
end

