-- ==== Sys2Proof/Laws/State.lean ====
section
/-! SUPPORT. What each update of the state leaves, field by field, and what reading a part after writing it gives. -/

namespace Sys2Proof.Machine
open Sys2Proof

/-! ## setCore -/

@[simp] theorem setCore_cycle (s : State) (c : Nat) (x : Core) : (setCore s c x).cycle = s.cycle := rfl
@[simp] theorem setCore_dtime (s : State) (c : Nat) (x : Core) : (setCore s c x).dtime = s.dtime := rfl
@[simp] theorem setCore_skew (s : State) (c : Nat) (x : Core) : (setCore s c x).skew = s.skew := rfl
@[simp] theorem setCore_clocks (s : State) (c : Nat) (x : Core) : (setCore s c x).clocks = s.clocks := rfl
@[simp] theorem setCore_mem (s : State) (c : Nat) (x : Core) : (setCore s c x).mem = s.mem := rfl
@[simp] theorem setCore_poison (s : State) (c : Nat) (x : Core) : (setCore s c x).poison = s.poison := rfl
@[simp] theorem setCore_hubs (s : State) (c : Nat) (x : Core) : (setCore s c x).hubs = s.hubs := rfl
@[simp] theorem setCore_corners (s : State) (c : Nat) (x : Core) : (setCore s c x).corners = s.corners := rfl
@[simp] theorem setCore_trees (s : State) (c : Nat) (x : Core) : (setCore s c x).trees = s.trees := rfl
@[simp] theorem setCore_net (s : State) (c : Nat) (x : Core) : (setCore s c x).net = s.net := rfl
@[simp] theorem setCore_resv (s : State) (c : Nat) (x : Core) : (setCore s c x).resv = s.resv := rfl
@[simp] theorem setCore_served (s : State) (c : Nat) (x : Core) : (setCore s c x).served = s.served := rfl
@[simp] theorem setCore_draining (s : State) (c : Nat) (x : Core) : (setCore s c x).draining = s.draining := rfl
@[simp] theorem setCore_portTurn (s : State) (c : Nat) (x : Core) : (setCore s c x).portTurn = s.portTurn := rfl
@[simp] theorem setCore_records (s : State) (c : Nat) (x : Core) : (setCore s c x).records = s.records := rfl
@[simp] theorem setCore_ctxs (s : State) (c : Nat) (x : Core) : (setCore s c x).ctxs = s.ctxs := rfl
@[simp] theorem setCore_launches (s : State) (c : Nat) (x : Core) : (setCore s c x).launches = s.launches := rfl
@[simp] theorem setCore_relTurn (s : State) (c : Nat) (x : Core) : (setCore s c x).relTurn = s.relTurn := rfl
@[simp] theorem setCore_cancels (s : State) (c : Nat) (x : Core) : (setCore s c x).cancels = s.cancels := rfl
@[simp] theorem setCore_plaza (s : State) (c : Nat) (x : Core) : (setCore s c x).plaza = s.plaza := rfl
@[simp] theorem setCore_tlb (s : State) (c : Nat) (x : Core) : (setCore s c x).tlb = s.tlb := rfl
@[simp] theorem setCore_misses (s : State) (c : Nat) (x : Core) : (setCore s c x).misses = s.misses := rfl
@[simp] theorem setCore_kvCopies (s : State) (c : Nat) (x : Core) : (setCore s c x).kvCopies = s.kvCopies := rfl
@[simp] theorem setCore_retires (s : State) (c : Nat) (x : Core) : (setCore s c x).retires = s.retires := rfl
@[simp] theorem setCore_mgmt (s : State) (c : Nat) (x : Core) : (setCore s c x).mgmt = s.mgmt := rfl
@[simp] theorem setCore_dom (s : State) (c : Nat) (x : Core) : (setCore s c x).dom = s.dom := rfl
@[simp] theorem setCore_agenda (s : State) (c : Nat) (x : Core) : (setCore s c x).agenda = s.agenda := rfl
@[simp] theorem setCore_turn (s : State) (c : Nat) (x : Core) : (setCore s c x).turn = s.turn := rfl
@[simp] theorem setCore_cur (s : State) (c : Nat) (x : Core) : (setCore s c x).cur = s.cur := rfl
@[simp] theorem setCore_fresh (s : State) (c : Nat) (x : Core) : (setCore s c x).fresh = s.fresh := rfl
@[simp] theorem setCore_nextId (s : State) (c : Nat) (x : Core) : (setCore s c x).nextId = s.nextId := rfl
@[simp] theorem setCore_prompt (s : State) (c : Nat) (x : Core) : (setCore s c x).prompt = s.prompt := rfl

/-! ## updCore -/

@[simp] theorem updCore_cycle (s : State) (c : Nat) (f : Core → Core) : (updCore s c f).cycle = s.cycle := rfl
@[simp] theorem updCore_dtime (s : State) (c : Nat) (f : Core → Core) : (updCore s c f).dtime = s.dtime := rfl
@[simp] theorem updCore_skew (s : State) (c : Nat) (f : Core → Core) : (updCore s c f).skew = s.skew := rfl
@[simp] theorem updCore_clocks (s : State) (c : Nat) (f : Core → Core) : (updCore s c f).clocks = s.clocks := rfl
@[simp] theorem updCore_mem (s : State) (c : Nat) (f : Core → Core) : (updCore s c f).mem = s.mem := rfl
@[simp] theorem updCore_poison (s : State) (c : Nat) (f : Core → Core) : (updCore s c f).poison = s.poison := rfl
@[simp] theorem updCore_hubs (s : State) (c : Nat) (f : Core → Core) : (updCore s c f).hubs = s.hubs := rfl
@[simp] theorem updCore_corners (s : State) (c : Nat) (f : Core → Core) : (updCore s c f).corners = s.corners := rfl
@[simp] theorem updCore_trees (s : State) (c : Nat) (f : Core → Core) : (updCore s c f).trees = s.trees := rfl
@[simp] theorem updCore_net (s : State) (c : Nat) (f : Core → Core) : (updCore s c f).net = s.net := rfl
@[simp] theorem updCore_resv (s : State) (c : Nat) (f : Core → Core) : (updCore s c f).resv = s.resv := rfl
@[simp] theorem updCore_served (s : State) (c : Nat) (f : Core → Core) : (updCore s c f).served = s.served := rfl
@[simp] theorem updCore_draining (s : State) (c : Nat) (f : Core → Core) : (updCore s c f).draining = s.draining := rfl
@[simp] theorem updCore_portTurn (s : State) (c : Nat) (f : Core → Core) : (updCore s c f).portTurn = s.portTurn := rfl
@[simp] theorem updCore_records (s : State) (c : Nat) (f : Core → Core) : (updCore s c f).records = s.records := rfl
@[simp] theorem updCore_ctxs (s : State) (c : Nat) (f : Core → Core) : (updCore s c f).ctxs = s.ctxs := rfl
@[simp] theorem updCore_launches (s : State) (c : Nat) (f : Core → Core) : (updCore s c f).launches = s.launches := rfl
@[simp] theorem updCore_relTurn (s : State) (c : Nat) (f : Core → Core) : (updCore s c f).relTurn = s.relTurn := rfl
@[simp] theorem updCore_cancels (s : State) (c : Nat) (f : Core → Core) : (updCore s c f).cancels = s.cancels := rfl
@[simp] theorem updCore_plaza (s : State) (c : Nat) (f : Core → Core) : (updCore s c f).plaza = s.plaza := rfl
@[simp] theorem updCore_tlb (s : State) (c : Nat) (f : Core → Core) : (updCore s c f).tlb = s.tlb := rfl
@[simp] theorem updCore_misses (s : State) (c : Nat) (f : Core → Core) : (updCore s c f).misses = s.misses := rfl
@[simp] theorem updCore_kvCopies (s : State) (c : Nat) (f : Core → Core) : (updCore s c f).kvCopies = s.kvCopies := rfl
@[simp] theorem updCore_retires (s : State) (c : Nat) (f : Core → Core) : (updCore s c f).retires = s.retires := rfl
@[simp] theorem updCore_mgmt (s : State) (c : Nat) (f : Core → Core) : (updCore s c f).mgmt = s.mgmt := rfl
@[simp] theorem updCore_dom (s : State) (c : Nat) (f : Core → Core) : (updCore s c f).dom = s.dom := rfl
@[simp] theorem updCore_agenda (s : State) (c : Nat) (f : Core → Core) : (updCore s c f).agenda = s.agenda := rfl
@[simp] theorem updCore_turn (s : State) (c : Nat) (f : Core → Core) : (updCore s c f).turn = s.turn := rfl
@[simp] theorem updCore_cur (s : State) (c : Nat) (f : Core → Core) : (updCore s c f).cur = s.cur := rfl
@[simp] theorem updCore_fresh (s : State) (c : Nat) (f : Core → Core) : (updCore s c f).fresh = s.fresh := rfl
@[simp] theorem updCore_nextId (s : State) (c : Nat) (f : Core → Core) : (updCore s c f).nextId = s.nextId := rfl
@[simp] theorem updCore_prompt (s : State) (c : Nat) (f : Core → Core) : (updCore s c f).prompt = s.prompt := rfl

/-! ## setSlot -/

@[simp] theorem setSlot_cycle (s : State) (sid : Nat) (x : Slot) : (setSlot s sid x).cycle = s.cycle := rfl
@[simp] theorem setSlot_dtime (s : State) (sid : Nat) (x : Slot) : (setSlot s sid x).dtime = s.dtime := rfl
@[simp] theorem setSlot_skew (s : State) (sid : Nat) (x : Slot) : (setSlot s sid x).skew = s.skew := rfl
@[simp] theorem setSlot_clocks (s : State) (sid : Nat) (x : Slot) : (setSlot s sid x).clocks = s.clocks := rfl
@[simp] theorem setSlot_mem (s : State) (sid : Nat) (x : Slot) : (setSlot s sid x).mem = s.mem := rfl
@[simp] theorem setSlot_poison (s : State) (sid : Nat) (x : Slot) : (setSlot s sid x).poison = s.poison := rfl
@[simp] theorem setSlot_hubs (s : State) (sid : Nat) (x : Slot) : (setSlot s sid x).hubs = s.hubs := rfl
@[simp] theorem setSlot_corners (s : State) (sid : Nat) (x : Slot) : (setSlot s sid x).corners = s.corners := rfl
@[simp] theorem setSlot_trees (s : State) (sid : Nat) (x : Slot) : (setSlot s sid x).trees = s.trees := rfl
@[simp] theorem setSlot_net (s : State) (sid : Nat) (x : Slot) : (setSlot s sid x).net = s.net := rfl
@[simp] theorem setSlot_resv (s : State) (sid : Nat) (x : Slot) : (setSlot s sid x).resv = s.resv := rfl
@[simp] theorem setSlot_served (s : State) (sid : Nat) (x : Slot) : (setSlot s sid x).served = s.served := rfl
@[simp] theorem setSlot_draining (s : State) (sid : Nat) (x : Slot) : (setSlot s sid x).draining = s.draining := rfl
@[simp] theorem setSlot_portTurn (s : State) (sid : Nat) (x : Slot) : (setSlot s sid x).portTurn = s.portTurn := rfl
@[simp] theorem setSlot_records (s : State) (sid : Nat) (x : Slot) : (setSlot s sid x).records = s.records := rfl
@[simp] theorem setSlot_ctxs (s : State) (sid : Nat) (x : Slot) : (setSlot s sid x).ctxs = s.ctxs := rfl
@[simp] theorem setSlot_launches (s : State) (sid : Nat) (x : Slot) : (setSlot s sid x).launches = s.launches := rfl
@[simp] theorem setSlot_relTurn (s : State) (sid : Nat) (x : Slot) : (setSlot s sid x).relTurn = s.relTurn := rfl
@[simp] theorem setSlot_cancels (s : State) (sid : Nat) (x : Slot) : (setSlot s sid x).cancels = s.cancels := rfl
@[simp] theorem setSlot_plaza (s : State) (sid : Nat) (x : Slot) : (setSlot s sid x).plaza = s.plaza := rfl
@[simp] theorem setSlot_tlb (s : State) (sid : Nat) (x : Slot) : (setSlot s sid x).tlb = s.tlb := rfl
@[simp] theorem setSlot_misses (s : State) (sid : Nat) (x : Slot) : (setSlot s sid x).misses = s.misses := rfl
@[simp] theorem setSlot_kvCopies (s : State) (sid : Nat) (x : Slot) : (setSlot s sid x).kvCopies = s.kvCopies := rfl
@[simp] theorem setSlot_retires (s : State) (sid : Nat) (x : Slot) : (setSlot s sid x).retires = s.retires := rfl
@[simp] theorem setSlot_mgmt (s : State) (sid : Nat) (x : Slot) : (setSlot s sid x).mgmt = s.mgmt := rfl
@[simp] theorem setSlot_dom (s : State) (sid : Nat) (x : Slot) : (setSlot s sid x).dom = s.dom := rfl
@[simp] theorem setSlot_agenda (s : State) (sid : Nat) (x : Slot) : (setSlot s sid x).agenda = s.agenda := rfl
@[simp] theorem setSlot_turn (s : State) (sid : Nat) (x : Slot) : (setSlot s sid x).turn = s.turn := rfl
@[simp] theorem setSlot_cur (s : State) (sid : Nat) (x : Slot) : (setSlot s sid x).cur = s.cur := rfl
@[simp] theorem setSlot_fresh (s : State) (sid : Nat) (x : Slot) : (setSlot s sid x).fresh = s.fresh := rfl
@[simp] theorem setSlot_nextId (s : State) (sid : Nat) (x : Slot) : (setSlot s sid x).nextId = s.nextId := rfl
@[simp] theorem setSlot_prompt (s : State) (sid : Nat) (x : Slot) : (setSlot s sid x).prompt = s.prompt := rfl

/-! ## updSlot -/

@[simp] theorem updSlot_cycle (s : State) (sid : Nat) (f : Slot → Slot) : (updSlot s sid f).cycle = s.cycle := rfl
@[simp] theorem updSlot_dtime (s : State) (sid : Nat) (f : Slot → Slot) : (updSlot s sid f).dtime = s.dtime := rfl
@[simp] theorem updSlot_skew (s : State) (sid : Nat) (f : Slot → Slot) : (updSlot s sid f).skew = s.skew := rfl
@[simp] theorem updSlot_clocks (s : State) (sid : Nat) (f : Slot → Slot) : (updSlot s sid f).clocks = s.clocks := rfl
@[simp] theorem updSlot_mem (s : State) (sid : Nat) (f : Slot → Slot) : (updSlot s sid f).mem = s.mem := rfl
@[simp] theorem updSlot_poison (s : State) (sid : Nat) (f : Slot → Slot) : (updSlot s sid f).poison = s.poison := rfl
@[simp] theorem updSlot_hubs (s : State) (sid : Nat) (f : Slot → Slot) : (updSlot s sid f).hubs = s.hubs := rfl
@[simp] theorem updSlot_corners (s : State) (sid : Nat) (f : Slot → Slot) : (updSlot s sid f).corners = s.corners := rfl
@[simp] theorem updSlot_trees (s : State) (sid : Nat) (f : Slot → Slot) : (updSlot s sid f).trees = s.trees := rfl
@[simp] theorem updSlot_net (s : State) (sid : Nat) (f : Slot → Slot) : (updSlot s sid f).net = s.net := rfl
@[simp] theorem updSlot_resv (s : State) (sid : Nat) (f : Slot → Slot) : (updSlot s sid f).resv = s.resv := rfl
@[simp] theorem updSlot_served (s : State) (sid : Nat) (f : Slot → Slot) : (updSlot s sid f).served = s.served := rfl
@[simp] theorem updSlot_draining (s : State) (sid : Nat) (f : Slot → Slot) : (updSlot s sid f).draining = s.draining := rfl
@[simp] theorem updSlot_portTurn (s : State) (sid : Nat) (f : Slot → Slot) : (updSlot s sid f).portTurn = s.portTurn := rfl
@[simp] theorem updSlot_records (s : State) (sid : Nat) (f : Slot → Slot) : (updSlot s sid f).records = s.records := rfl
@[simp] theorem updSlot_ctxs (s : State) (sid : Nat) (f : Slot → Slot) : (updSlot s sid f).ctxs = s.ctxs := rfl
@[simp] theorem updSlot_launches (s : State) (sid : Nat) (f : Slot → Slot) : (updSlot s sid f).launches = s.launches := rfl
@[simp] theorem updSlot_relTurn (s : State) (sid : Nat) (f : Slot → Slot) : (updSlot s sid f).relTurn = s.relTurn := rfl
@[simp] theorem updSlot_cancels (s : State) (sid : Nat) (f : Slot → Slot) : (updSlot s sid f).cancels = s.cancels := rfl
@[simp] theorem updSlot_plaza (s : State) (sid : Nat) (f : Slot → Slot) : (updSlot s sid f).plaza = s.plaza := rfl
@[simp] theorem updSlot_tlb (s : State) (sid : Nat) (f : Slot → Slot) : (updSlot s sid f).tlb = s.tlb := rfl
@[simp] theorem updSlot_misses (s : State) (sid : Nat) (f : Slot → Slot) : (updSlot s sid f).misses = s.misses := rfl
@[simp] theorem updSlot_kvCopies (s : State) (sid : Nat) (f : Slot → Slot) : (updSlot s sid f).kvCopies = s.kvCopies := rfl
@[simp] theorem updSlot_retires (s : State) (sid : Nat) (f : Slot → Slot) : (updSlot s sid f).retires = s.retires := rfl
@[simp] theorem updSlot_mgmt (s : State) (sid : Nat) (f : Slot → Slot) : (updSlot s sid f).mgmt = s.mgmt := rfl
@[simp] theorem updSlot_dom (s : State) (sid : Nat) (f : Slot → Slot) : (updSlot s sid f).dom = s.dom := rfl
@[simp] theorem updSlot_agenda (s : State) (sid : Nat) (f : Slot → Slot) : (updSlot s sid f).agenda = s.agenda := rfl
@[simp] theorem updSlot_turn (s : State) (sid : Nat) (f : Slot → Slot) : (updSlot s sid f).turn = s.turn := rfl
@[simp] theorem updSlot_cur (s : State) (sid : Nat) (f : Slot → Slot) : (updSlot s sid f).cur = s.cur := rfl
@[simp] theorem updSlot_fresh (s : State) (sid : Nat) (f : Slot → Slot) : (updSlot s sid f).fresh = s.fresh := rfl
@[simp] theorem updSlot_nextId (s : State) (sid : Nat) (f : Slot → Slot) : (updSlot s sid f).nextId = s.nextId := rfl
@[simp] theorem updSlot_prompt (s : State) (sid : Nat) (f : Slot → Slot) : (updSlot s sid f).prompt = s.prompt := rfl

/-! ## updStrand -/

@[simp] theorem updStrand_cycle (s : State) (sid : Nat) (f : Strand → Strand) : (updStrand s sid f).cycle = s.cycle := rfl
@[simp] theorem updStrand_dtime (s : State) (sid : Nat) (f : Strand → Strand) : (updStrand s sid f).dtime = s.dtime := rfl
@[simp] theorem updStrand_skew (s : State) (sid : Nat) (f : Strand → Strand) : (updStrand s sid f).skew = s.skew := rfl
@[simp] theorem updStrand_clocks (s : State) (sid : Nat) (f : Strand → Strand) : (updStrand s sid f).clocks = s.clocks := rfl
@[simp] theorem updStrand_mem (s : State) (sid : Nat) (f : Strand → Strand) : (updStrand s sid f).mem = s.mem := rfl
@[simp] theorem updStrand_poison (s : State) (sid : Nat) (f : Strand → Strand) : (updStrand s sid f).poison = s.poison := rfl
@[simp] theorem updStrand_hubs (s : State) (sid : Nat) (f : Strand → Strand) : (updStrand s sid f).hubs = s.hubs := rfl
@[simp] theorem updStrand_corners (s : State) (sid : Nat) (f : Strand → Strand) : (updStrand s sid f).corners = s.corners := rfl
@[simp] theorem updStrand_trees (s : State) (sid : Nat) (f : Strand → Strand) : (updStrand s sid f).trees = s.trees := rfl
@[simp] theorem updStrand_net (s : State) (sid : Nat) (f : Strand → Strand) : (updStrand s sid f).net = s.net := rfl
@[simp] theorem updStrand_resv (s : State) (sid : Nat) (f : Strand → Strand) : (updStrand s sid f).resv = s.resv := rfl
@[simp] theorem updStrand_served (s : State) (sid : Nat) (f : Strand → Strand) : (updStrand s sid f).served = s.served := rfl
@[simp] theorem updStrand_draining (s : State) (sid : Nat) (f : Strand → Strand) : (updStrand s sid f).draining = s.draining := rfl
@[simp] theorem updStrand_portTurn (s : State) (sid : Nat) (f : Strand → Strand) : (updStrand s sid f).portTurn = s.portTurn := rfl
@[simp] theorem updStrand_records (s : State) (sid : Nat) (f : Strand → Strand) : (updStrand s sid f).records = s.records := rfl
@[simp] theorem updStrand_ctxs (s : State) (sid : Nat) (f : Strand → Strand) : (updStrand s sid f).ctxs = s.ctxs := rfl
@[simp] theorem updStrand_launches (s : State) (sid : Nat) (f : Strand → Strand) : (updStrand s sid f).launches = s.launches := rfl
@[simp] theorem updStrand_relTurn (s : State) (sid : Nat) (f : Strand → Strand) : (updStrand s sid f).relTurn = s.relTurn := rfl
@[simp] theorem updStrand_cancels (s : State) (sid : Nat) (f : Strand → Strand) : (updStrand s sid f).cancels = s.cancels := rfl
@[simp] theorem updStrand_plaza (s : State) (sid : Nat) (f : Strand → Strand) : (updStrand s sid f).plaza = s.plaza := rfl
@[simp] theorem updStrand_tlb (s : State) (sid : Nat) (f : Strand → Strand) : (updStrand s sid f).tlb = s.tlb := rfl
@[simp] theorem updStrand_misses (s : State) (sid : Nat) (f : Strand → Strand) : (updStrand s sid f).misses = s.misses := rfl
@[simp] theorem updStrand_kvCopies (s : State) (sid : Nat) (f : Strand → Strand) : (updStrand s sid f).kvCopies = s.kvCopies := rfl
@[simp] theorem updStrand_retires (s : State) (sid : Nat) (f : Strand → Strand) : (updStrand s sid f).retires = s.retires := rfl
@[simp] theorem updStrand_mgmt (s : State) (sid : Nat) (f : Strand → Strand) : (updStrand s sid f).mgmt = s.mgmt := rfl
@[simp] theorem updStrand_dom (s : State) (sid : Nat) (f : Strand → Strand) : (updStrand s sid f).dom = s.dom := rfl
@[simp] theorem updStrand_agenda (s : State) (sid : Nat) (f : Strand → Strand) : (updStrand s sid f).agenda = s.agenda := rfl
@[simp] theorem updStrand_turn (s : State) (sid : Nat) (f : Strand → Strand) : (updStrand s sid f).turn = s.turn := rfl
@[simp] theorem updStrand_cur (s : State) (sid : Nat) (f : Strand → Strand) : (updStrand s sid f).cur = s.cur := rfl
@[simp] theorem updStrand_fresh (s : State) (sid : Nat) (f : Strand → Strand) : (updStrand s sid f).fresh = s.fresh := rfl
@[simp] theorem updStrand_nextId (s : State) (sid : Nat) (f : Strand → Strand) : (updStrand s sid f).nextId = s.nextId := rfl
@[simp] theorem updStrand_prompt (s : State) (sid : Nat) (f : Strand → Strand) : (updStrand s sid f).prompt = s.prompt := rfl

/-! ## setHub -/

@[simp] theorem setHub_cycle (s : State) (b : Nat) (h : Hub) : (setHub s b h).cycle = s.cycle := rfl
@[simp] theorem setHub_dtime (s : State) (b : Nat) (h : Hub) : (setHub s b h).dtime = s.dtime := rfl
@[simp] theorem setHub_skew (s : State) (b : Nat) (h : Hub) : (setHub s b h).skew = s.skew := rfl
@[simp] theorem setHub_clocks (s : State) (b : Nat) (h : Hub) : (setHub s b h).clocks = s.clocks := rfl
@[simp] theorem setHub_mem (s : State) (b : Nat) (h : Hub) : (setHub s b h).mem = s.mem := rfl
@[simp] theorem setHub_poison (s : State) (b : Nat) (h : Hub) : (setHub s b h).poison = s.poison := rfl
@[simp] theorem setHub_cores (s : State) (b : Nat) (h : Hub) : (setHub s b h).cores = s.cores := rfl
@[simp] theorem setHub_corners (s : State) (b : Nat) (h : Hub) : (setHub s b h).corners = s.corners := rfl
@[simp] theorem setHub_trees (s : State) (b : Nat) (h : Hub) : (setHub s b h).trees = s.trees := rfl
@[simp] theorem setHub_net (s : State) (b : Nat) (h : Hub) : (setHub s b h).net = s.net := rfl
@[simp] theorem setHub_resv (s : State) (b : Nat) (h : Hub) : (setHub s b h).resv = s.resv := rfl
@[simp] theorem setHub_served (s : State) (b : Nat) (h : Hub) : (setHub s b h).served = s.served := rfl
@[simp] theorem setHub_draining (s : State) (b : Nat) (h : Hub) : (setHub s b h).draining = s.draining := rfl
@[simp] theorem setHub_portTurn (s : State) (b : Nat) (h : Hub) : (setHub s b h).portTurn = s.portTurn := rfl
@[simp] theorem setHub_records (s : State) (b : Nat) (h : Hub) : (setHub s b h).records = s.records := rfl
@[simp] theorem setHub_ctxs (s : State) (b : Nat) (h : Hub) : (setHub s b h).ctxs = s.ctxs := rfl
@[simp] theorem setHub_launches (s : State) (b : Nat) (h : Hub) : (setHub s b h).launches = s.launches := rfl
@[simp] theorem setHub_relTurn (s : State) (b : Nat) (h : Hub) : (setHub s b h).relTurn = s.relTurn := rfl
@[simp] theorem setHub_cancels (s : State) (b : Nat) (h : Hub) : (setHub s b h).cancels = s.cancels := rfl
@[simp] theorem setHub_plaza (s : State) (b : Nat) (h : Hub) : (setHub s b h).plaza = s.plaza := rfl
@[simp] theorem setHub_tlb (s : State) (b : Nat) (h : Hub) : (setHub s b h).tlb = s.tlb := rfl
@[simp] theorem setHub_misses (s : State) (b : Nat) (h : Hub) : (setHub s b h).misses = s.misses := rfl
@[simp] theorem setHub_kvCopies (s : State) (b : Nat) (h : Hub) : (setHub s b h).kvCopies = s.kvCopies := rfl
@[simp] theorem setHub_retires (s : State) (b : Nat) (h : Hub) : (setHub s b h).retires = s.retires := rfl
@[simp] theorem setHub_mgmt (s : State) (b : Nat) (h : Hub) : (setHub s b h).mgmt = s.mgmt := rfl
@[simp] theorem setHub_dom (s : State) (b : Nat) (h : Hub) : (setHub s b h).dom = s.dom := rfl
@[simp] theorem setHub_agenda (s : State) (b : Nat) (h : Hub) : (setHub s b h).agenda = s.agenda := rfl
@[simp] theorem setHub_turn (s : State) (b : Nat) (h : Hub) : (setHub s b h).turn = s.turn := rfl
@[simp] theorem setHub_cur (s : State) (b : Nat) (h : Hub) : (setHub s b h).cur = s.cur := rfl
@[simp] theorem setHub_fresh (s : State) (b : Nat) (h : Hub) : (setHub s b h).fresh = s.fresh := rfl
@[simp] theorem setHub_nextId (s : State) (b : Nat) (h : Hub) : (setHub s b h).nextId = s.nextId := rfl
@[simp] theorem setHub_prompt (s : State) (b : Nat) (h : Hub) : (setHub s b h).prompt = s.prompt := rfl

/-! ## updHub -/

@[simp] theorem updHub_cycle (s : State) (b : Nat) (f : Hub → Hub) : (updHub s b f).cycle = s.cycle := rfl
@[simp] theorem updHub_dtime (s : State) (b : Nat) (f : Hub → Hub) : (updHub s b f).dtime = s.dtime := rfl
@[simp] theorem updHub_skew (s : State) (b : Nat) (f : Hub → Hub) : (updHub s b f).skew = s.skew := rfl
@[simp] theorem updHub_clocks (s : State) (b : Nat) (f : Hub → Hub) : (updHub s b f).clocks = s.clocks := rfl
@[simp] theorem updHub_mem (s : State) (b : Nat) (f : Hub → Hub) : (updHub s b f).mem = s.mem := rfl
@[simp] theorem updHub_poison (s : State) (b : Nat) (f : Hub → Hub) : (updHub s b f).poison = s.poison := rfl
@[simp] theorem updHub_cores (s : State) (b : Nat) (f : Hub → Hub) : (updHub s b f).cores = s.cores := rfl
@[simp] theorem updHub_corners (s : State) (b : Nat) (f : Hub → Hub) : (updHub s b f).corners = s.corners := rfl
@[simp] theorem updHub_trees (s : State) (b : Nat) (f : Hub → Hub) : (updHub s b f).trees = s.trees := rfl
@[simp] theorem updHub_net (s : State) (b : Nat) (f : Hub → Hub) : (updHub s b f).net = s.net := rfl
@[simp] theorem updHub_resv (s : State) (b : Nat) (f : Hub → Hub) : (updHub s b f).resv = s.resv := rfl
@[simp] theorem updHub_served (s : State) (b : Nat) (f : Hub → Hub) : (updHub s b f).served = s.served := rfl
@[simp] theorem updHub_draining (s : State) (b : Nat) (f : Hub → Hub) : (updHub s b f).draining = s.draining := rfl
@[simp] theorem updHub_portTurn (s : State) (b : Nat) (f : Hub → Hub) : (updHub s b f).portTurn = s.portTurn := rfl
@[simp] theorem updHub_records (s : State) (b : Nat) (f : Hub → Hub) : (updHub s b f).records = s.records := rfl
@[simp] theorem updHub_ctxs (s : State) (b : Nat) (f : Hub → Hub) : (updHub s b f).ctxs = s.ctxs := rfl
@[simp] theorem updHub_launches (s : State) (b : Nat) (f : Hub → Hub) : (updHub s b f).launches = s.launches := rfl
@[simp] theorem updHub_relTurn (s : State) (b : Nat) (f : Hub → Hub) : (updHub s b f).relTurn = s.relTurn := rfl
@[simp] theorem updHub_cancels (s : State) (b : Nat) (f : Hub → Hub) : (updHub s b f).cancels = s.cancels := rfl
@[simp] theorem updHub_plaza (s : State) (b : Nat) (f : Hub → Hub) : (updHub s b f).plaza = s.plaza := rfl
@[simp] theorem updHub_tlb (s : State) (b : Nat) (f : Hub → Hub) : (updHub s b f).tlb = s.tlb := rfl
@[simp] theorem updHub_misses (s : State) (b : Nat) (f : Hub → Hub) : (updHub s b f).misses = s.misses := rfl
@[simp] theorem updHub_kvCopies (s : State) (b : Nat) (f : Hub → Hub) : (updHub s b f).kvCopies = s.kvCopies := rfl
@[simp] theorem updHub_retires (s : State) (b : Nat) (f : Hub → Hub) : (updHub s b f).retires = s.retires := rfl
@[simp] theorem updHub_mgmt (s : State) (b : Nat) (f : Hub → Hub) : (updHub s b f).mgmt = s.mgmt := rfl
@[simp] theorem updHub_dom (s : State) (b : Nat) (f : Hub → Hub) : (updHub s b f).dom = s.dom := rfl
@[simp] theorem updHub_agenda (s : State) (b : Nat) (f : Hub → Hub) : (updHub s b f).agenda = s.agenda := rfl
@[simp] theorem updHub_turn (s : State) (b : Nat) (f : Hub → Hub) : (updHub s b f).turn = s.turn := rfl
@[simp] theorem updHub_cur (s : State) (b : Nat) (f : Hub → Hub) : (updHub s b f).cur = s.cur := rfl
@[simp] theorem updHub_fresh (s : State) (b : Nat) (f : Hub → Hub) : (updHub s b f).fresh = s.fresh := rfl
@[simp] theorem updHub_nextId (s : State) (b : Nat) (f : Hub → Hub) : (updHub s b f).nextId = s.nextId := rfl
@[simp] theorem updHub_prompt (s : State) (b : Nat) (f : Hub → Hub) : (updHub s b f).prompt = s.prompt := rfl

/-! ## setCtx -/

@[simp] theorem setCtx_cycle (s : State) (c : Nat) (x : Ctx) : (setCtx s c x).cycle = s.cycle := rfl
@[simp] theorem setCtx_dtime (s : State) (c : Nat) (x : Ctx) : (setCtx s c x).dtime = s.dtime := rfl
@[simp] theorem setCtx_skew (s : State) (c : Nat) (x : Ctx) : (setCtx s c x).skew = s.skew := rfl
@[simp] theorem setCtx_clocks (s : State) (c : Nat) (x : Ctx) : (setCtx s c x).clocks = s.clocks := rfl
@[simp] theorem setCtx_mem (s : State) (c : Nat) (x : Ctx) : (setCtx s c x).mem = s.mem := rfl
@[simp] theorem setCtx_poison (s : State) (c : Nat) (x : Ctx) : (setCtx s c x).poison = s.poison := rfl
@[simp] theorem setCtx_cores (s : State) (c : Nat) (x : Ctx) : (setCtx s c x).cores = s.cores := rfl
@[simp] theorem setCtx_hubs (s : State) (c : Nat) (x : Ctx) : (setCtx s c x).hubs = s.hubs := rfl
@[simp] theorem setCtx_corners (s : State) (c : Nat) (x : Ctx) : (setCtx s c x).corners = s.corners := rfl
@[simp] theorem setCtx_trees (s : State) (c : Nat) (x : Ctx) : (setCtx s c x).trees = s.trees := rfl
@[simp] theorem setCtx_net (s : State) (c : Nat) (x : Ctx) : (setCtx s c x).net = s.net := rfl
@[simp] theorem setCtx_resv (s : State) (c : Nat) (x : Ctx) : (setCtx s c x).resv = s.resv := rfl
@[simp] theorem setCtx_served (s : State) (c : Nat) (x : Ctx) : (setCtx s c x).served = s.served := rfl
@[simp] theorem setCtx_draining (s : State) (c : Nat) (x : Ctx) : (setCtx s c x).draining = s.draining := rfl
@[simp] theorem setCtx_portTurn (s : State) (c : Nat) (x : Ctx) : (setCtx s c x).portTurn = s.portTurn := rfl
@[simp] theorem setCtx_records (s : State) (c : Nat) (x : Ctx) : (setCtx s c x).records = s.records := rfl
@[simp] theorem setCtx_launches (s : State) (c : Nat) (x : Ctx) : (setCtx s c x).launches = s.launches := rfl
@[simp] theorem setCtx_relTurn (s : State) (c : Nat) (x : Ctx) : (setCtx s c x).relTurn = s.relTurn := rfl
@[simp] theorem setCtx_cancels (s : State) (c : Nat) (x : Ctx) : (setCtx s c x).cancels = s.cancels := rfl
@[simp] theorem setCtx_plaza (s : State) (c : Nat) (x : Ctx) : (setCtx s c x).plaza = s.plaza := rfl
@[simp] theorem setCtx_tlb (s : State) (c : Nat) (x : Ctx) : (setCtx s c x).tlb = s.tlb := rfl
@[simp] theorem setCtx_misses (s : State) (c : Nat) (x : Ctx) : (setCtx s c x).misses = s.misses := rfl
@[simp] theorem setCtx_kvCopies (s : State) (c : Nat) (x : Ctx) : (setCtx s c x).kvCopies = s.kvCopies := rfl
@[simp] theorem setCtx_retires (s : State) (c : Nat) (x : Ctx) : (setCtx s c x).retires = s.retires := rfl
@[simp] theorem setCtx_mgmt (s : State) (c : Nat) (x : Ctx) : (setCtx s c x).mgmt = s.mgmt := rfl
@[simp] theorem setCtx_dom (s : State) (c : Nat) (x : Ctx) : (setCtx s c x).dom = s.dom := rfl
@[simp] theorem setCtx_agenda (s : State) (c : Nat) (x : Ctx) : (setCtx s c x).agenda = s.agenda := rfl
@[simp] theorem setCtx_turn (s : State) (c : Nat) (x : Ctx) : (setCtx s c x).turn = s.turn := rfl
@[simp] theorem setCtx_cur (s : State) (c : Nat) (x : Ctx) : (setCtx s c x).cur = s.cur := rfl
@[simp] theorem setCtx_fresh (s : State) (c : Nat) (x : Ctx) : (setCtx s c x).fresh = s.fresh := rfl
@[simp] theorem setCtx_nextId (s : State) (c : Nat) (x : Ctx) : (setCtx s c x).nextId = s.nextId := rfl
@[simp] theorem setCtx_prompt (s : State) (c : Nat) (x : Ctx) : (setCtx s c x).prompt = s.prompt := rfl

/-! ## updCtx -/

@[simp] theorem updCtx_cycle (s : State) (c : Nat) (f : Ctx → Ctx) : (updCtx s c f).cycle = s.cycle := rfl
@[simp] theorem updCtx_dtime (s : State) (c : Nat) (f : Ctx → Ctx) : (updCtx s c f).dtime = s.dtime := rfl
@[simp] theorem updCtx_skew (s : State) (c : Nat) (f : Ctx → Ctx) : (updCtx s c f).skew = s.skew := rfl
@[simp] theorem updCtx_clocks (s : State) (c : Nat) (f : Ctx → Ctx) : (updCtx s c f).clocks = s.clocks := rfl
@[simp] theorem updCtx_mem (s : State) (c : Nat) (f : Ctx → Ctx) : (updCtx s c f).mem = s.mem := rfl
@[simp] theorem updCtx_poison (s : State) (c : Nat) (f : Ctx → Ctx) : (updCtx s c f).poison = s.poison := rfl
@[simp] theorem updCtx_cores (s : State) (c : Nat) (f : Ctx → Ctx) : (updCtx s c f).cores = s.cores := rfl
@[simp] theorem updCtx_hubs (s : State) (c : Nat) (f : Ctx → Ctx) : (updCtx s c f).hubs = s.hubs := rfl
@[simp] theorem updCtx_corners (s : State) (c : Nat) (f : Ctx → Ctx) : (updCtx s c f).corners = s.corners := rfl
@[simp] theorem updCtx_trees (s : State) (c : Nat) (f : Ctx → Ctx) : (updCtx s c f).trees = s.trees := rfl
@[simp] theorem updCtx_net (s : State) (c : Nat) (f : Ctx → Ctx) : (updCtx s c f).net = s.net := rfl
@[simp] theorem updCtx_resv (s : State) (c : Nat) (f : Ctx → Ctx) : (updCtx s c f).resv = s.resv := rfl
@[simp] theorem updCtx_served (s : State) (c : Nat) (f : Ctx → Ctx) : (updCtx s c f).served = s.served := rfl
@[simp] theorem updCtx_draining (s : State) (c : Nat) (f : Ctx → Ctx) : (updCtx s c f).draining = s.draining := rfl
@[simp] theorem updCtx_portTurn (s : State) (c : Nat) (f : Ctx → Ctx) : (updCtx s c f).portTurn = s.portTurn := rfl
@[simp] theorem updCtx_records (s : State) (c : Nat) (f : Ctx → Ctx) : (updCtx s c f).records = s.records := rfl
@[simp] theorem updCtx_launches (s : State) (c : Nat) (f : Ctx → Ctx) : (updCtx s c f).launches = s.launches := rfl
@[simp] theorem updCtx_relTurn (s : State) (c : Nat) (f : Ctx → Ctx) : (updCtx s c f).relTurn = s.relTurn := rfl
@[simp] theorem updCtx_cancels (s : State) (c : Nat) (f : Ctx → Ctx) : (updCtx s c f).cancels = s.cancels := rfl
@[simp] theorem updCtx_plaza (s : State) (c : Nat) (f : Ctx → Ctx) : (updCtx s c f).plaza = s.plaza := rfl
@[simp] theorem updCtx_tlb (s : State) (c : Nat) (f : Ctx → Ctx) : (updCtx s c f).tlb = s.tlb := rfl
@[simp] theorem updCtx_misses (s : State) (c : Nat) (f : Ctx → Ctx) : (updCtx s c f).misses = s.misses := rfl
@[simp] theorem updCtx_kvCopies (s : State) (c : Nat) (f : Ctx → Ctx) : (updCtx s c f).kvCopies = s.kvCopies := rfl
@[simp] theorem updCtx_retires (s : State) (c : Nat) (f : Ctx → Ctx) : (updCtx s c f).retires = s.retires := rfl
@[simp] theorem updCtx_mgmt (s : State) (c : Nat) (f : Ctx → Ctx) : (updCtx s c f).mgmt = s.mgmt := rfl
@[simp] theorem updCtx_dom (s : State) (c : Nat) (f : Ctx → Ctx) : (updCtx s c f).dom = s.dom := rfl
@[simp] theorem updCtx_agenda (s : State) (c : Nat) (f : Ctx → Ctx) : (updCtx s c f).agenda = s.agenda := rfl
@[simp] theorem updCtx_turn (s : State) (c : Nat) (f : Ctx → Ctx) : (updCtx s c f).turn = s.turn := rfl
@[simp] theorem updCtx_cur (s : State) (c : Nat) (f : Ctx → Ctx) : (updCtx s c f).cur = s.cur := rfl
@[simp] theorem updCtx_fresh (s : State) (c : Nat) (f : Ctx → Ctx) : (updCtx s c f).fresh = s.fresh := rfl
@[simp] theorem updCtx_nextId (s : State) (c : Nat) (f : Ctx → Ctx) : (updCtx s c f).nextId = s.nextId := rfl
@[simp] theorem updCtx_prompt (s : State) (c : Nat) (f : Ctx → Ctx) : (updCtx s c f).prompt = s.prompt := rfl

/-! ## updMgmt -/

@[simp] theorem updMgmt_cycle (s : State) (f : Mgmt → Mgmt) : (updMgmt s f).cycle = s.cycle := rfl
@[simp] theorem updMgmt_dtime (s : State) (f : Mgmt → Mgmt) : (updMgmt s f).dtime = s.dtime := rfl
@[simp] theorem updMgmt_skew (s : State) (f : Mgmt → Mgmt) : (updMgmt s f).skew = s.skew := rfl
@[simp] theorem updMgmt_clocks (s : State) (f : Mgmt → Mgmt) : (updMgmt s f).clocks = s.clocks := rfl
@[simp] theorem updMgmt_mem (s : State) (f : Mgmt → Mgmt) : (updMgmt s f).mem = s.mem := rfl
@[simp] theorem updMgmt_poison (s : State) (f : Mgmt → Mgmt) : (updMgmt s f).poison = s.poison := rfl
@[simp] theorem updMgmt_cores (s : State) (f : Mgmt → Mgmt) : (updMgmt s f).cores = s.cores := rfl
@[simp] theorem updMgmt_hubs (s : State) (f : Mgmt → Mgmt) : (updMgmt s f).hubs = s.hubs := rfl
@[simp] theorem updMgmt_corners (s : State) (f : Mgmt → Mgmt) : (updMgmt s f).corners = s.corners := rfl
@[simp] theorem updMgmt_trees (s : State) (f : Mgmt → Mgmt) : (updMgmt s f).trees = s.trees := rfl
@[simp] theorem updMgmt_net (s : State) (f : Mgmt → Mgmt) : (updMgmt s f).net = s.net := rfl
@[simp] theorem updMgmt_resv (s : State) (f : Mgmt → Mgmt) : (updMgmt s f).resv = s.resv := rfl
@[simp] theorem updMgmt_served (s : State) (f : Mgmt → Mgmt) : (updMgmt s f).served = s.served := rfl
@[simp] theorem updMgmt_draining (s : State) (f : Mgmt → Mgmt) : (updMgmt s f).draining = s.draining := rfl
@[simp] theorem updMgmt_portTurn (s : State) (f : Mgmt → Mgmt) : (updMgmt s f).portTurn = s.portTurn := rfl
@[simp] theorem updMgmt_records (s : State) (f : Mgmt → Mgmt) : (updMgmt s f).records = s.records := rfl
@[simp] theorem updMgmt_ctxs (s : State) (f : Mgmt → Mgmt) : (updMgmt s f).ctxs = s.ctxs := rfl
@[simp] theorem updMgmt_launches (s : State) (f : Mgmt → Mgmt) : (updMgmt s f).launches = s.launches := rfl
@[simp] theorem updMgmt_relTurn (s : State) (f : Mgmt → Mgmt) : (updMgmt s f).relTurn = s.relTurn := rfl
@[simp] theorem updMgmt_cancels (s : State) (f : Mgmt → Mgmt) : (updMgmt s f).cancels = s.cancels := rfl
@[simp] theorem updMgmt_plaza (s : State) (f : Mgmt → Mgmt) : (updMgmt s f).plaza = s.plaza := rfl
@[simp] theorem updMgmt_tlb (s : State) (f : Mgmt → Mgmt) : (updMgmt s f).tlb = s.tlb := rfl
@[simp] theorem updMgmt_misses (s : State) (f : Mgmt → Mgmt) : (updMgmt s f).misses = s.misses := rfl
@[simp] theorem updMgmt_kvCopies (s : State) (f : Mgmt → Mgmt) : (updMgmt s f).kvCopies = s.kvCopies := rfl
@[simp] theorem updMgmt_retires (s : State) (f : Mgmt → Mgmt) : (updMgmt s f).retires = s.retires := rfl
@[simp] theorem updMgmt_dom (s : State) (f : Mgmt → Mgmt) : (updMgmt s f).dom = s.dom := rfl
@[simp] theorem updMgmt_agenda (s : State) (f : Mgmt → Mgmt) : (updMgmt s f).agenda = s.agenda := rfl
@[simp] theorem updMgmt_turn (s : State) (f : Mgmt → Mgmt) : (updMgmt s f).turn = s.turn := rfl
@[simp] theorem updMgmt_cur (s : State) (f : Mgmt → Mgmt) : (updMgmt s f).cur = s.cur := rfl
@[simp] theorem updMgmt_fresh (s : State) (f : Mgmt → Mgmt) : (updMgmt s f).fresh = s.fresh := rfl
@[simp] theorem updMgmt_nextId (s : State) (f : Mgmt → Mgmt) : (updMgmt s f).nextId = s.nextId := rfl
@[simp] theorem updMgmt_prompt (s : State) (f : Mgmt → Mgmt) : (updMgmt s f).prompt = s.prompt := rfl

/-! ## updDom -/

@[simp] theorem updDom_cycle (s : State) (f : Dom → Dom) : (updDom s f).cycle = s.cycle := rfl
@[simp] theorem updDom_dtime (s : State) (f : Dom → Dom) : (updDom s f).dtime = s.dtime := rfl
@[simp] theorem updDom_skew (s : State) (f : Dom → Dom) : (updDom s f).skew = s.skew := rfl
@[simp] theorem updDom_clocks (s : State) (f : Dom → Dom) : (updDom s f).clocks = s.clocks := rfl
@[simp] theorem updDom_mem (s : State) (f : Dom → Dom) : (updDom s f).mem = s.mem := rfl
@[simp] theorem updDom_poison (s : State) (f : Dom → Dom) : (updDom s f).poison = s.poison := rfl
@[simp] theorem updDom_cores (s : State) (f : Dom → Dom) : (updDom s f).cores = s.cores := rfl
@[simp] theorem updDom_hubs (s : State) (f : Dom → Dom) : (updDom s f).hubs = s.hubs := rfl
@[simp] theorem updDom_corners (s : State) (f : Dom → Dom) : (updDom s f).corners = s.corners := rfl
@[simp] theorem updDom_trees (s : State) (f : Dom → Dom) : (updDom s f).trees = s.trees := rfl
@[simp] theorem updDom_net (s : State) (f : Dom → Dom) : (updDom s f).net = s.net := rfl
@[simp] theorem updDom_resv (s : State) (f : Dom → Dom) : (updDom s f).resv = s.resv := rfl
@[simp] theorem updDom_served (s : State) (f : Dom → Dom) : (updDom s f).served = s.served := rfl
@[simp] theorem updDom_draining (s : State) (f : Dom → Dom) : (updDom s f).draining = s.draining := rfl
@[simp] theorem updDom_portTurn (s : State) (f : Dom → Dom) : (updDom s f).portTurn = s.portTurn := rfl
@[simp] theorem updDom_records (s : State) (f : Dom → Dom) : (updDom s f).records = s.records := rfl
@[simp] theorem updDom_ctxs (s : State) (f : Dom → Dom) : (updDom s f).ctxs = s.ctxs := rfl
@[simp] theorem updDom_launches (s : State) (f : Dom → Dom) : (updDom s f).launches = s.launches := rfl
@[simp] theorem updDom_relTurn (s : State) (f : Dom → Dom) : (updDom s f).relTurn = s.relTurn := rfl
@[simp] theorem updDom_cancels (s : State) (f : Dom → Dom) : (updDom s f).cancels = s.cancels := rfl
@[simp] theorem updDom_plaza (s : State) (f : Dom → Dom) : (updDom s f).plaza = s.plaza := rfl
@[simp] theorem updDom_tlb (s : State) (f : Dom → Dom) : (updDom s f).tlb = s.tlb := rfl
@[simp] theorem updDom_misses (s : State) (f : Dom → Dom) : (updDom s f).misses = s.misses := rfl
@[simp] theorem updDom_kvCopies (s : State) (f : Dom → Dom) : (updDom s f).kvCopies = s.kvCopies := rfl
@[simp] theorem updDom_retires (s : State) (f : Dom → Dom) : (updDom s f).retires = s.retires := rfl
@[simp] theorem updDom_mgmt (s : State) (f : Dom → Dom) : (updDom s f).mgmt = s.mgmt := rfl
@[simp] theorem updDom_agenda (s : State) (f : Dom → Dom) : (updDom s f).agenda = s.agenda := rfl
@[simp] theorem updDom_turn (s : State) (f : Dom → Dom) : (updDom s f).turn = s.turn := rfl
@[simp] theorem updDom_cur (s : State) (f : Dom → Dom) : (updDom s f).cur = s.cur := rfl
@[simp] theorem updDom_fresh (s : State) (f : Dom → Dom) : (updDom s f).fresh = s.fresh := rfl
@[simp] theorem updDom_nextId (s : State) (f : Dom → Dom) : (updDom s f).nextId = s.nextId := rfl
@[simp] theorem updDom_prompt (s : State) (f : Dom → Dom) : (updDom s f).prompt = s.prompt := rfl

/-! ## updPlaza -/

@[simp] theorem updPlaza_cycle (s : State) (f : Plaza → Plaza) : (updPlaza s f).cycle = s.cycle := rfl
@[simp] theorem updPlaza_dtime (s : State) (f : Plaza → Plaza) : (updPlaza s f).dtime = s.dtime := rfl
@[simp] theorem updPlaza_skew (s : State) (f : Plaza → Plaza) : (updPlaza s f).skew = s.skew := rfl
@[simp] theorem updPlaza_clocks (s : State) (f : Plaza → Plaza) : (updPlaza s f).clocks = s.clocks := rfl
@[simp] theorem updPlaza_mem (s : State) (f : Plaza → Plaza) : (updPlaza s f).mem = s.mem := rfl
@[simp] theorem updPlaza_poison (s : State) (f : Plaza → Plaza) : (updPlaza s f).poison = s.poison := rfl
@[simp] theorem updPlaza_cores (s : State) (f : Plaza → Plaza) : (updPlaza s f).cores = s.cores := rfl
@[simp] theorem updPlaza_hubs (s : State) (f : Plaza → Plaza) : (updPlaza s f).hubs = s.hubs := rfl
@[simp] theorem updPlaza_corners (s : State) (f : Plaza → Plaza) : (updPlaza s f).corners = s.corners := rfl
@[simp] theorem updPlaza_trees (s : State) (f : Plaza → Plaza) : (updPlaza s f).trees = s.trees := rfl
@[simp] theorem updPlaza_net (s : State) (f : Plaza → Plaza) : (updPlaza s f).net = s.net := rfl
@[simp] theorem updPlaza_resv (s : State) (f : Plaza → Plaza) : (updPlaza s f).resv = s.resv := rfl
@[simp] theorem updPlaza_served (s : State) (f : Plaza → Plaza) : (updPlaza s f).served = s.served := rfl
@[simp] theorem updPlaza_draining (s : State) (f : Plaza → Plaza) : (updPlaza s f).draining = s.draining := rfl
@[simp] theorem updPlaza_portTurn (s : State) (f : Plaza → Plaza) : (updPlaza s f).portTurn = s.portTurn := rfl
@[simp] theorem updPlaza_records (s : State) (f : Plaza → Plaza) : (updPlaza s f).records = s.records := rfl
@[simp] theorem updPlaza_ctxs (s : State) (f : Plaza → Plaza) : (updPlaza s f).ctxs = s.ctxs := rfl
@[simp] theorem updPlaza_launches (s : State) (f : Plaza → Plaza) : (updPlaza s f).launches = s.launches := rfl
@[simp] theorem updPlaza_relTurn (s : State) (f : Plaza → Plaza) : (updPlaza s f).relTurn = s.relTurn := rfl
@[simp] theorem updPlaza_cancels (s : State) (f : Plaza → Plaza) : (updPlaza s f).cancels = s.cancels := rfl
@[simp] theorem updPlaza_tlb (s : State) (f : Plaza → Plaza) : (updPlaza s f).tlb = s.tlb := rfl
@[simp] theorem updPlaza_misses (s : State) (f : Plaza → Plaza) : (updPlaza s f).misses = s.misses := rfl
@[simp] theorem updPlaza_kvCopies (s : State) (f : Plaza → Plaza) : (updPlaza s f).kvCopies = s.kvCopies := rfl
@[simp] theorem updPlaza_retires (s : State) (f : Plaza → Plaza) : (updPlaza s f).retires = s.retires := rfl
@[simp] theorem updPlaza_mgmt (s : State) (f : Plaza → Plaza) : (updPlaza s f).mgmt = s.mgmt := rfl
@[simp] theorem updPlaza_dom (s : State) (f : Plaza → Plaza) : (updPlaza s f).dom = s.dom := rfl
@[simp] theorem updPlaza_agenda (s : State) (f : Plaza → Plaza) : (updPlaza s f).agenda = s.agenda := rfl
@[simp] theorem updPlaza_turn (s : State) (f : Plaza → Plaza) : (updPlaza s f).turn = s.turn := rfl
@[simp] theorem updPlaza_cur (s : State) (f : Plaza → Plaza) : (updPlaza s f).cur = s.cur := rfl
@[simp] theorem updPlaza_fresh (s : State) (f : Plaza → Plaza) : (updPlaza s f).fresh = s.fresh := rfl
@[simp] theorem updPlaza_nextId (s : State) (f : Plaza → Plaza) : (updPlaza s f).nextId = s.nextId := rfl
@[simp] theorem updPlaza_prompt (s : State) (f : Plaza → Plaza) : (updPlaza s f).prompt = s.prompt := rfl

/-! ## heal -/

@[simp] theorem heal_cycle (s : State) (a n : Nat) : (heal s a n).cycle = s.cycle := rfl
@[simp] theorem heal_dtime (s : State) (a n : Nat) : (heal s a n).dtime = s.dtime := rfl
@[simp] theorem heal_skew (s : State) (a n : Nat) : (heal s a n).skew = s.skew := rfl
@[simp] theorem heal_clocks (s : State) (a n : Nat) : (heal s a n).clocks = s.clocks := rfl
@[simp] theorem heal_mem (s : State) (a n : Nat) : (heal s a n).mem = s.mem := rfl
@[simp] theorem heal_cores (s : State) (a n : Nat) : (heal s a n).cores = s.cores := rfl
@[simp] theorem heal_hubs (s : State) (a n : Nat) : (heal s a n).hubs = s.hubs := rfl
@[simp] theorem heal_corners (s : State) (a n : Nat) : (heal s a n).corners = s.corners := rfl
@[simp] theorem heal_trees (s : State) (a n : Nat) : (heal s a n).trees = s.trees := rfl
@[simp] theorem heal_net (s : State) (a n : Nat) : (heal s a n).net = s.net := rfl
@[simp] theorem heal_resv (s : State) (a n : Nat) : (heal s a n).resv = s.resv := rfl
@[simp] theorem heal_served (s : State) (a n : Nat) : (heal s a n).served = s.served := rfl
@[simp] theorem heal_draining (s : State) (a n : Nat) : (heal s a n).draining = s.draining := rfl
@[simp] theorem heal_portTurn (s : State) (a n : Nat) : (heal s a n).portTurn = s.portTurn := rfl
@[simp] theorem heal_records (s : State) (a n : Nat) : (heal s a n).records = s.records := rfl
@[simp] theorem heal_ctxs (s : State) (a n : Nat) : (heal s a n).ctxs = s.ctxs := rfl
@[simp] theorem heal_launches (s : State) (a n : Nat) : (heal s a n).launches = s.launches := rfl
@[simp] theorem heal_relTurn (s : State) (a n : Nat) : (heal s a n).relTurn = s.relTurn := rfl
@[simp] theorem heal_cancels (s : State) (a n : Nat) : (heal s a n).cancels = s.cancels := rfl
@[simp] theorem heal_plaza (s : State) (a n : Nat) : (heal s a n).plaza = s.plaza := rfl
@[simp] theorem heal_tlb (s : State) (a n : Nat) : (heal s a n).tlb = s.tlb := rfl
@[simp] theorem heal_misses (s : State) (a n : Nat) : (heal s a n).misses = s.misses := rfl
@[simp] theorem heal_kvCopies (s : State) (a n : Nat) : (heal s a n).kvCopies = s.kvCopies := rfl
@[simp] theorem heal_retires (s : State) (a n : Nat) : (heal s a n).retires = s.retires := rfl
@[simp] theorem heal_mgmt (s : State) (a n : Nat) : (heal s a n).mgmt = s.mgmt := rfl
@[simp] theorem heal_dom (s : State) (a n : Nat) : (heal s a n).dom = s.dom := rfl
@[simp] theorem heal_agenda (s : State) (a n : Nat) : (heal s a n).agenda = s.agenda := rfl
@[simp] theorem heal_turn (s : State) (a n : Nat) : (heal s a n).turn = s.turn := rfl
@[simp] theorem heal_cur (s : State) (a n : Nat) : (heal s a n).cur = s.cur := rfl
@[simp] theorem heal_fresh (s : State) (a n : Nat) : (heal s a n).fresh = s.fresh := rfl
@[simp] theorem heal_nextId (s : State) (a n : Nat) : (heal s a n).nextId = s.nextId := rfl
@[simp] theorem heal_prompt (s : State) (a n : Nat) : (heal s a n).prompt = s.prompt := rfl

/-! ## soon -/

@[simp] theorem soon_cycle (s : State) (i : Instr) : (soon s i).cycle = s.cycle := rfl
@[simp] theorem soon_dtime (s : State) (i : Instr) : (soon s i).dtime = s.dtime := rfl
@[simp] theorem soon_skew (s : State) (i : Instr) : (soon s i).skew = s.skew := rfl
@[simp] theorem soon_clocks (s : State) (i : Instr) : (soon s i).clocks = s.clocks := rfl
@[simp] theorem soon_mem (s : State) (i : Instr) : (soon s i).mem = s.mem := rfl
@[simp] theorem soon_poison (s : State) (i : Instr) : (soon s i).poison = s.poison := rfl
@[simp] theorem soon_cores (s : State) (i : Instr) : (soon s i).cores = s.cores := rfl
@[simp] theorem soon_hubs (s : State) (i : Instr) : (soon s i).hubs = s.hubs := rfl
@[simp] theorem soon_corners (s : State) (i : Instr) : (soon s i).corners = s.corners := rfl
@[simp] theorem soon_trees (s : State) (i : Instr) : (soon s i).trees = s.trees := rfl
@[simp] theorem soon_net (s : State) (i : Instr) : (soon s i).net = s.net := rfl
@[simp] theorem soon_resv (s : State) (i : Instr) : (soon s i).resv = s.resv := rfl
@[simp] theorem soon_served (s : State) (i : Instr) : (soon s i).served = s.served := rfl
@[simp] theorem soon_draining (s : State) (i : Instr) : (soon s i).draining = s.draining := rfl
@[simp] theorem soon_portTurn (s : State) (i : Instr) : (soon s i).portTurn = s.portTurn := rfl
@[simp] theorem soon_records (s : State) (i : Instr) : (soon s i).records = s.records := rfl
@[simp] theorem soon_ctxs (s : State) (i : Instr) : (soon s i).ctxs = s.ctxs := rfl
@[simp] theorem soon_launches (s : State) (i : Instr) : (soon s i).launches = s.launches := rfl
@[simp] theorem soon_relTurn (s : State) (i : Instr) : (soon s i).relTurn = s.relTurn := rfl
@[simp] theorem soon_cancels (s : State) (i : Instr) : (soon s i).cancels = s.cancels := rfl
@[simp] theorem soon_plaza (s : State) (i : Instr) : (soon s i).plaza = s.plaza := rfl
@[simp] theorem soon_tlb (s : State) (i : Instr) : (soon s i).tlb = s.tlb := rfl
@[simp] theorem soon_misses (s : State) (i : Instr) : (soon s i).misses = s.misses := rfl
@[simp] theorem soon_kvCopies (s : State) (i : Instr) : (soon s i).kvCopies = s.kvCopies := rfl
@[simp] theorem soon_retires (s : State) (i : Instr) : (soon s i).retires = s.retires := rfl
@[simp] theorem soon_mgmt (s : State) (i : Instr) : (soon s i).mgmt = s.mgmt := rfl
@[simp] theorem soon_dom (s : State) (i : Instr) : (soon s i).dom = s.dom := rfl
@[simp] theorem soon_turn (s : State) (i : Instr) : (soon s i).turn = s.turn := rfl
@[simp] theorem soon_cur (s : State) (i : Instr) : (soon s i).cur = s.cur := rfl
@[simp] theorem soon_fresh (s : State) (i : Instr) : (soon s i).fresh = s.fresh := rfl
@[simp] theorem soon_nextId (s : State) (i : Instr) : (soon s i).nextId = s.nextId := rfl
@[simp] theorem soon_prompt (s : State) (i : Instr) : (soon s i).prompt = s.prompt := rfl

/-! ## spadWrite -/

@[simp] theorem spadWrite_cycle (s : State) (core off n v : Nat) : (spadWrite s core off n v).cycle = s.cycle := rfl
@[simp] theorem spadWrite_dtime (s : State) (core off n v : Nat) : (spadWrite s core off n v).dtime = s.dtime := rfl
@[simp] theorem spadWrite_skew (s : State) (core off n v : Nat) : (spadWrite s core off n v).skew = s.skew := rfl
@[simp] theorem spadWrite_clocks (s : State) (core off n v : Nat) : (spadWrite s core off n v).clocks = s.clocks := rfl
@[simp] theorem spadWrite_poison (s : State) (core off n v : Nat) : (spadWrite s core off n v).poison = s.poison := rfl
@[simp] theorem spadWrite_cores (s : State) (core off n v : Nat) : (spadWrite s core off n v).cores = s.cores := rfl
@[simp] theorem spadWrite_hubs (s : State) (core off n v : Nat) : (spadWrite s core off n v).hubs = s.hubs := rfl
@[simp] theorem spadWrite_corners (s : State) (core off n v : Nat) : (spadWrite s core off n v).corners = s.corners := rfl
@[simp] theorem spadWrite_trees (s : State) (core off n v : Nat) : (spadWrite s core off n v).trees = s.trees := rfl
@[simp] theorem spadWrite_net (s : State) (core off n v : Nat) : (spadWrite s core off n v).net = s.net := rfl
@[simp] theorem spadWrite_resv (s : State) (core off n v : Nat) : (spadWrite s core off n v).resv = s.resv := rfl
@[simp] theorem spadWrite_served (s : State) (core off n v : Nat) : (spadWrite s core off n v).served = s.served := rfl
@[simp] theorem spadWrite_draining (s : State) (core off n v : Nat) : (spadWrite s core off n v).draining = s.draining := rfl
@[simp] theorem spadWrite_portTurn (s : State) (core off n v : Nat) : (spadWrite s core off n v).portTurn = s.portTurn := rfl
@[simp] theorem spadWrite_records (s : State) (core off n v : Nat) : (spadWrite s core off n v).records = s.records := rfl
@[simp] theorem spadWrite_ctxs (s : State) (core off n v : Nat) : (spadWrite s core off n v).ctxs = s.ctxs := rfl
@[simp] theorem spadWrite_launches (s : State) (core off n v : Nat) : (spadWrite s core off n v).launches = s.launches := rfl
@[simp] theorem spadWrite_relTurn (s : State) (core off n v : Nat) : (spadWrite s core off n v).relTurn = s.relTurn := rfl
@[simp] theorem spadWrite_cancels (s : State) (core off n v : Nat) : (spadWrite s core off n v).cancels = s.cancels := rfl
@[simp] theorem spadWrite_plaza (s : State) (core off n v : Nat) : (spadWrite s core off n v).plaza = s.plaza := rfl
@[simp] theorem spadWrite_tlb (s : State) (core off n v : Nat) : (spadWrite s core off n v).tlb = s.tlb := rfl
@[simp] theorem spadWrite_misses (s : State) (core off n v : Nat) : (spadWrite s core off n v).misses = s.misses := rfl
@[simp] theorem spadWrite_kvCopies (s : State) (core off n v : Nat) : (spadWrite s core off n v).kvCopies = s.kvCopies := rfl
@[simp] theorem spadWrite_retires (s : State) (core off n v : Nat) : (spadWrite s core off n v).retires = s.retires := rfl
@[simp] theorem spadWrite_mgmt (s : State) (core off n v : Nat) : (spadWrite s core off n v).mgmt = s.mgmt := rfl
@[simp] theorem spadWrite_dom (s : State) (core off n v : Nat) : (spadWrite s core off n v).dom = s.dom := rfl
@[simp] theorem spadWrite_agenda (s : State) (core off n v : Nat) : (spadWrite s core off n v).agenda = s.agenda := rfl
@[simp] theorem spadWrite_turn (s : State) (core off n v : Nat) : (spadWrite s core off n v).turn = s.turn := rfl
@[simp] theorem spadWrite_cur (s : State) (core off n v : Nat) : (spadWrite s core off n v).cur = s.cur := rfl
@[simp] theorem spadWrite_fresh (s : State) (core off n v : Nat) : (spadWrite s core off n v).fresh = s.fresh := rfl
@[simp] theorem spadWrite_nextId (s : State) (core off n v : Nat) : (spadWrite s core off n v).nextId = s.nextId := rfl
@[simp] theorem spadWrite_prompt (s : State) (core off n v : Nat) : (spadWrite s core off n v).prompt = s.prompt := rfl

/-! ## The field that each update writes -/

@[simp] theorem updMgmt_mgmt (s : State) (f : Mgmt → Mgmt) : (updMgmt s f).mgmt = f s.mgmt := rfl
@[simp] theorem updDom_dom (s : State) (f : Dom → Dom) : (updDom s f).dom = f s.dom := rfl
@[simp] theorem updPlaza_plaza (s : State) (f : Plaza → Plaza) : (updPlaza s f).plaza = f s.plaza := rfl
@[simp] theorem soon_agenda (s : State) (i : Instr) : (soon s i).agenda = .event i :: s.agenda := rfl
@[simp] theorem spadWrite_mem (s : State) (core off n v : Nat) :
    (spadWrite s core off n v).mem = writeLe s.mem (spadKey core off) n v := rfl

/-! ## A part read after it is written -/

theorem getCore_setCore (s : State) (c d : Nat) (x : Core) :
    getCore (setCore s c x) d = if d = c then x else getCore s d := mapGet_put _ _ _ _ _
@[simp] theorem getCore_setCore_same (s : State) (c : Nat) (x : Core) : getCore (setCore s c x) c = x := by
  simp [getCore_setCore]
theorem getHub_setHub (s : State) (c d : Nat) (x : Hub) :
    getHub (setHub s c x) d = if d = c then x else getHub s d := mapGet_put _ _ _ _ _
@[simp] theorem getHub_updHub_same (s : State) (c : Nat) (f : Hub → Hub) :
    getHub (updHub s c f) c = f (getHub s c) := by simp [updHub, getHub_setHub]
theorem getCtx_setCtx (s : State) (c d : Nat) (x : Ctx) :
    getCtx (setCtx s c x) d = if d = c then x else getCtx s d := mapGet_put _ _ _ _ _
@[simp] theorem getCtx_updCtx_same (s : State) (c : Nat) (f : Ctx → Ctx) :
    getCtx (updCtx s c f) c = f (getCtx s c) := by simp [updCtx, getCtx_setCtx]

/-- Two strand ids with one core and one slot are one. -/
theorem sid_ext (a b : Nat) (hc : coreOf a = coreOf b) (hs : slotOf a = slotOf b) : a = b := by
  unfold coreOf slotOf at *; omega

/-- The slots of every strand id after one slot is set. -/
theorem getSlot_setSlot (s : State) (a b : Nat) (x : Slot) :
    getSlot (setSlot s a x) b = if b = a then x else getSlot s b := by
  simp only [getSlot, setSlot, updCore, getCore_setCore]
  split
  · simp only [slotIn, mapGet_put]
    split
    · rw [if_pos (sid_ext _ _ ‹_› ‹_›)]
    · rw [if_neg (by rintro rfl; exact ‹¬_› rfl)]; simp_all
  · rw [if_neg (by rintro rfl; exact ‹¬_› rfl)]

@[simp] theorem getSlot_setSlot_same (s : State) (a : Nat) (x : Slot) : getSlot (setSlot s a x) a = x := by
  simp [getSlot_setSlot]
theorem getSlot_updSlot (s : State) (a b : Nat) (f : Slot → Slot) :
    getSlot (updSlot s a f) b = if b = a then f (getSlot s a) else getSlot s b := getSlot_setSlot _ _ _ _
@[simp] theorem getSlot_updSlot_same (s : State) (a : Nat) (f : Slot → Slot) :
    getSlot (updSlot s a f) a = f (getSlot s a) := by simp [getSlot_updSlot]
theorem getSlot_updStrand (s : State) (a b : Nat) (f : Strand → Strand) :
    getSlot (updStrand s a f) b =
      if b = a then { getSlot s a with s := f (getSlot s a).s } else getSlot s b := getSlot_setSlot _ _ _ _
@[simp] theorem strandAt_updStrand_same (s : State) (a : Nat) (f : Strand → Strand) :
    strandAt (updStrand s a f) a = f (strandAt s a) := by simp [strandAt, getSlot_updStrand]

@[simp] theorem getCtx_updSlot (s : State) (a c : Nat) (f : Slot → Slot) : getCtx (updSlot s a f) c = getCtx s c := rfl
@[simp] theorem getCtx_updStrand (s : State) (a c : Nat) (f : Strand → Strand) : getCtx (updStrand s a f) c = getCtx s c := rfl
@[simp] theorem getHub_updSlot (s : State) (a c : Nat) (f : Slot → Slot) : getHub (updSlot s a f) c = getHub s c := rfl
@[simp] theorem getHub_updStrand (s : State) (a c : Nat) (f : Strand → Strand) : getHub (updStrand s a f) c = getHub s c := rfl
@[simp] theorem getSlot_updCtx (s : State) (a c : Nat) (f : Ctx → Ctx) : getSlot (updCtx s c f) a = getSlot s a := rfl
@[simp] theorem getSlot_updHub (s : State) (a c : Nat) (f : Hub → Hub) : getSlot (updHub s c f) a = getSlot s a := rfl

/-- A core without its slots, before and after a slot is set. -/
theorem getCore_updCore (s : State) (c d : Nat) (f : Core → Core) :
    getCore (updCore s c f) d = if d = c then f (getCore s c) else getCore s d := getCore_setCore _ _ _ _
/-- A change of a core that leaves its slots. -/
theorem getSlot_updCore (s : State) (c sid : Nat) (f : Core → Core) (h : ∀ x, (f x).slots = x.slots) :
    getSlot (updCore s c f) sid = getSlot s sid := by
  simp only [getSlot, slotIn, getCore_updCore]
  split
  · rename_i e; rw [h, e]
  · rfl
theorem getCore_setSlot (s : State) (a c : Nat) (x : Slot) :
    getCore (setSlot s a x) c =
      if c = coreOf a then { getCore s c with slots := mapPut (getCore s c).slots (slotOf a) x } else getCore s c := by
  simp only [setSlot, updCore, getCore_setCore]
  split <;> simp_all

/-- Nothing but the cores changes when a slot is set. -/
theorem setSlot_eq (s : State) (a : Nat) (x : Slot) : setSlot s a x = { s with cores := (setSlot s a x).cores } := rfl

/-! ## Registers -/

theorem readG_writeG (t : Strand) (n m : Nat) (v : Word) :
    readG (writeG t n v) m = if m = n ∧ n ≠ 0 then v else readG t m := by
  by_cases hm : m = 0
  · subst hm; rw [if_neg (by omega)]; rfl
  · by_cases hn : n = 0
    · subst hn; rw [if_neg (by omega)]; rfl
    · simp only [writeG, readG, if_neg hm, if_neg hn, mapGet_set]; simp_all

theorem readV_writeV (t : Strand) (n m : Nat) (v : Vec) :
    readV (writeV t n v) m = if m = n then v else readV t m := by
  simp [writeV, readV, mapGet_set]

theorem readP_writeP (t : Strand) (n m : Nat) (v : BitVec 16) :
    readP (writeP t n v) m = if m = n ∧ n ≠ 0 then v else readP t m := by
  by_cases hm : m = 0
  · subst hm; rw [if_neg (by omega)]; rfl
  · by_cases hn : n = 0
    · subst hn; rw [if_neg (by omega)]; rfl
    · simp only [writeP, readP, if_neg hm, if_neg hn, mapGet_set]; simp_all

/-- R89: g0 reads as zero and p0 as all ones, in every state. -/
@[simp] theorem readG_zero (t : Strand) : readG t 0 = 0 := rfl
@[simp] theorem readP_zero (t : Strand) : readP t 0 = 0xFFFF := rfl

end Sys2Proof.Machine
end

