-- ==== Sys2Proof/Laws/Run.lean ====
section
/-! SUPPORT. What running one instruction does: the driver's outcome when it issues unhindered, when its guard is off and when
its privilege mark fails, and what an instruction that only writes registers leaves. -/

namespace Sys2Proof.Machine
open Sys2Proof

/-! ## The driver -/

theorem passes_iff (op : Nat) (x : Args) (s : State) : passes op x s = true ↔
    (getSlot s s.cur).st = .ready ∧ (laneMasked op || guardOn (strandAt s s.cur) x) = true ∧
    privBad op s.cur (strandAt s s.cur) x = false ∧ refusedOf (strandAt s s.cur) = none ∧
    (destRegs op x ++ landRegs op x).find? (copying (strandAt s s.cur)) = none := by
  simp only [passes, acting, Bool.and_eq_true, beq_iff_eq, Bool.not_eq_true', Option.isNone_iff_eq_none, and_assoc]

/-- A strand without a copy into any register of a list has none into one of its first part, or of the rest. -/
theorem find_append_none (p : RegRef → Bool) (a b : List RegRef) (h : (a ++ b).find? p = none) :
    a.find? p = none ∧ b.find? p = none := by
  simp only [List.find?_eq_none, List.mem_append] at h ⊢
  exact ⟨fun r hr => h r (.inl hr), fun r hr => h r (.inr hr)⟩

/-- An instruction that issues unhindered: its body answers, and what follows the answer is done. -/
theorem run_clear (op : Nat) (x : Args) (body : Body1) (s : State) (h : clear op x s = true) :
    run op x body s = .next (settle op x s.cur (readOpnds (acting s) x (fourOf op))
      (body (entry x s) s.cur (acting s) (readOpnds (acting s) x (fourOf op)))) := by
  simp only [clear, Bool.and_eq_true, passes_iff, Option.isNone_iff_eq_none] at h
  obtain ⟨⟨⟨h1, h2, h3, h4, h5⟩, h6⟩, h7⟩ := h
  replace h5 := (find_append_none _ _ _ h5).1
  unfold acting at h6 h7
  have hg : (!laneMasked op && !guardOn (strandAt s s.cur) x) = false := by
    revert h2; cases laneMasked op <;> cases guardOn (strandAt s s.cur) x <;> simp
  simp [run, h1, runAt, hg, h3, h4, h5, h6, h7, acting, entry]

/-- The same, for a form whose field a is one operand. -/
theorem run_ops (op : Nat) (x : Args) (body : Body1) (s : State) (h : clear op x s = true) (h4 : fourOf op = false) :
    run op x body s = .next (settle op x s.cur (ops x s) (body (entry x s) s.cur (acting s) (ops x s))) := by
  have := run_clear op x body s h
  rwa [h4] at this

/-- An instruction that goes on after a wait. -/
theorem run_resumed (op : Nat) (x : Args) (body : Body1) (s : State) (o : Opnds) (h : resumed op x s o = true) :
    run op x body s = .next (settle op x s.cur o (body s s.cur (acting s) o)) := by
  simp only [resumed, Bool.and_eq_true, passes_iff, beq_iff_eq] at h
  obtain ⟨⟨h1, h2, h3, h4, h5⟩, h6⟩ := h
  replace h5 := (find_append_none _ _ _ h5).1
  unfold acting at h6
  have hg : (!laneMasked op && !guardOn (strandAt s s.cur) x) = false := by
    revert h2; cases laneMasked op <;> cases guardOn (strandAt s s.cur) x <;> simp
  simp [run, h1, runAt, hg, h3, h4, h5, h6, acting]

/-- R129: an instruction whose guard is off completes without any other effect. -/
theorem run_guard_off (op : Nat) (x : Args) (body : Body1) (s : State) (h : (getSlot s s.cur).st = .ready)
    (hm : laneMasked op = false) (hg : guardOn (acting s) x = false) : run op x body s = .next (finishAt s s.cur) := by
  unfold acting at hg
  simp [run, h, runAt, hm, hg]

/-- R134: an instruction whose privilege mark does not allow the strand takes the privilege trap. -/
theorem run_priv_bad (op : Nat) (x : Args) (body : Body1) (s : State) (h : (getSlot s s.cur).st = .ready)
    (hg : (laneMasked op || guardOn (acting s) x) = true) (hp : privBad op s.cur (acting s) x = true) :
    run op x body s = .next (takeTrap s s.cur 1 (privInfo op) false (packWord op x)) := by
  unfold acting at hg hp
  have hg : (!laneMasked op && !guardOn (strandAt s s.cur) x) = false := by
    revert hg; cases laneMasked op <;> cases guardOn (strandAt s s.cur) x <;> simp
  simp [run, h, runAt, hg, hp]

/-! ## F bits and W tags -/

theorem getLsbD_setBit {w : Nat} (b : BitVec w) (i j : Nat) (v : Bool) (hj : j < w) :
    (setBit b i v).getLsbD j = if j = i then v else b.getLsbD j := by
  have ht : (BitVec.ofNat w (2 ^ i)).getLsbD j = decide (i = j) := by
    rw [BitVec.getLsbD_ofNat, Nat.testBit_two_pow]; simp [hj]
  unfold setBit
  generalize BitVec.ofNat w (2 ^ i) = m at ht
  by_cases h : j = i
  · subst h
    simp only [decide_true] at ht
    cases v
    · simp only [Bool.false_eq_true, if_false, if_true, BitVec.getLsbD_and, BitVec.getLsbD_not, ht]; simp
    · simp only [if_true, BitVec.getLsbD_or, ht]; simp
  · have h' : decide (i = j) = false := decide_eq_false fun e => h e.symm
    rw [h'] at ht
    cases v
    · simp only [Bool.false_eq_true, if_false, BitVec.getLsbD_and, BitVec.getLsbD_not, ht, hj, h]; simp
    · simp only [if_true, BitVec.getLsbD_or, ht, h]; simp

/-- Two strands that differ at most in registers, F bits, tags and flags. -/
def SameCtl (u w : Strand) : Prop :=
  u = { w with g := u.g, v := u.v, p := u.p, gF := u.gF, gW := u.gW, vF := u.vF, vW := u.vW, fflags := u.fflags }

theorem SameCtl.refl (u : Strand) : SameCtl u u := rfl
theorem SameCtl.trans {a b c : Strand} (h : SameCtl a b) (g : SameCtl b c) : SameCtl a c := by
  unfold SameCtl at *; rw [h, g]
theorem sameCtl_setFull (t : Strand) (r : RegRef) (b : Bool) : SameCtl (setFull t r b) t := by
  cases r <;> simp only [setFull]
  · split <;> rfl
  · rfl
theorem sameCtl_setTag (t : Strand) (r : RegRef) (b : Bool) : SameCtl (setTag t r b) t := by
  cases r <;> simp only [setTag]
  · split <;> rfl
  · rfl
theorem sameCtl_writeG (t : Strand) (n : Nat) (v : Word) : SameCtl (writeG t n v) t := by
  unfold writeG; split <;> rfl
theorem sameCtl_writeV (t : Strand) (n : Nat) (v : Vec) : SameCtl (writeV t n v) t := rfl
theorem sameCtl_writeP (t : Strand) (n : Nat) (v : BitVec 16) : SameCtl (writeP t n v) t := by
  unfold writeP; split <;> rfl
theorem sameCtl_raise (t : Strand) (fl : BitVec 5) : SameCtl (raise t fl) t := rfl

theorem sameCtl_foldl (rs : List RegRef) (t : Strand) (b : Bool) :
    SameCtl (rs.foldl (fun u r => setFull u r b) t) t := by
  induction rs generalizing t with
  | nil => rfl
  | cons r rs ih => exact (ih _).trans (sameCtl_setFull _ _ _)
theorem sameCtl_cleared (x : Args) (t : Strand) : SameCtl (cleared x t) t := sameCtl_foldl _ _ _

/-- The end check looks at no register. -/
theorem endCheck_sameCtl (u w : Strand) (h : SameCtl u w) : endWait (endCheck u) =
    { endCheck w with g := u.g, v := u.v, p := u.p, gF := u.gF, gW := u.gW, vF := u.vF, vW := u.vW,
                      fflags := u.fflags, wait := none } := by
  rw [h]
  simp only [endCheck]
  cases (loopEnd w.pc w.le1 w.lc1 w.ls1).2 <;> rfl

theorem readG_setFull (t : Strand) (r : RegRef) (b : Bool) (n : Nat) : readG (setFull t r b) n = readG t n := by
  cases r <;> simp only [setFull]
  · split <;> rfl
  · rfl
theorem readV_setFull (t : Strand) (r : RegRef) (b : Bool) (n : Nat) : readV (setFull t r b) n = readV t n := by
  cases r <;> simp only [setFull]
  · split <;> rfl
  · rfl
theorem readP_setFull (t : Strand) (r : RegRef) (b : Bool) (n : Nat) : readP (setFull t r b) n = readP t n := by
  cases r <;> simp only [setFull]
  · split <;> rfl
  · rfl
theorem fflags_setFull (t : Strand) (r : RegRef) (b : Bool) : (setFull t r b).fflags = t.fflags := by
  cases r <;> simp only [setFull]
  split <;> rfl
theorem tagOf_setFull (t : Strand) (r q : RegRef) (b : Bool) : tagOf (setFull t r b) q = tagOf t q := by
  cases r <;> cases q <;> simp only [setFull] <;> (try split) <;> rfl
theorem fullOf_setFull (t : Strand) (r q : RegRef) (b : Bool) (h : inFile q = true) :
    fullOf (setFull t r b) q = (q == .g 0 || if q = r then b else fullOf t q) := by
  cases r with
  | g n =>
    by_cases hn : n = 0
    · subst hn
      cases q with
      | g m => by_cases hm : m = 0 <;> simp [setFull, fullOf, hm]
      | v m => simp [setFull, fullOf]
    · cases q with
      | g m =>
        simp only [inFile, decide_eq_true_eq] at h
        by_cases hm : m = 0
        · simp [setFull, fullOf, hn, hm]
        · have : (RegRef.g m == RegRef.g 0) = false := by simp [hm]
          have h0 : (m == 0) = false := by simp [hm]
          simp [setFull, fullOf, hn, this, h0, getLsbD_setBit _ _ _ _ h]
      | v m => simp [setFull, fullOf, hn]
  | v n =>
    cases q with
    | g m => by_cases hm : m = 0 <;> simp [setFull, fullOf, hm]
    | v m =>
      simp only [inFile, decide_eq_true_eq] at h
      simp [setFull, fullOf, getLsbD_setBit _ _ _ _ h]

theorem fold_setFull (rs : List RegRef) (t : Strand) :
    (∀ n, readG (rs.foldl (fun u r => setFull u r false) t) n = readG t n) ∧
    (∀ n, readV (rs.foldl (fun u r => setFull u r false) t) n = readV t n) ∧
    (∀ n, readP (rs.foldl (fun u r => setFull u r false) t) n = readP t n) ∧
    (rs.foldl (fun u r => setFull u r false) t).fflags = t.fflags ∧
    (∀ q, tagOf (rs.foldl (fun u r => setFull u r false) t) q = tagOf t q) ∧
    (∀ q, inFile q = true → fullOf (rs.foldl (fun u r => setFull u r false) t) q =
      (q == .g 0 || (fullOf t q && !rs.contains q))) := by
  induction rs generalizing t with
  | nil =>
    refine ⟨fun _ => rfl, fun _ => rfl, fun _ => rfl, rfl, fun _ => rfl, fun q _ => ?_⟩
    by_cases hq : q = .g 0
    · subst hq; rfl
    · simp [hq]
  | cons r rs ih =>
    obtain ⟨a, b, c, d, e, f⟩ := ih (setFull t r false)
    refine ⟨fun n => ?_, fun n => ?_, fun n => ?_, ?_, fun q => ?_, fun q hq => ?_⟩
    · rw [List.foldl_cons, a, readG_setFull]
    · rw [List.foldl_cons, b, readV_setFull]
    · rw [List.foldl_cons, c, readP_setFull]
    · rw [List.foldl_cons, d, fflags_setFull]
    · rw [List.foldl_cons, e, tagOf_setFull]
    · rw [List.foldl_cons, f q hq, fullOf_setFull _ _ _ _ hq]
      by_cases h0 : q = .g 0
      · simp [h0]
      · have h1 : (q == RegRef.g 0) = false := by simp [h0]
        by_cases hr : q = r
        · subst hr; simp [h1]
        · simp [h1, hr]

/-! ## An instruction that only writes registers -/

theorem strandAt_entry (x : Args) (s : State) : strandAt (entry x s) s.cur = cleared x (acting s) := by
  unfold entry clearSync cleared acting
  split
  · rename_i h; rw [List.isEmpty_iff.mp h]; rfl
  · exact strandAt_updStrand_same _ _ _

/-- The slots and the rest after the synchronised reads. -/
theorem entry_only (x : Args) (s : State) : OnlySlot s (entry x s) s.cur ∧
    getSlot (entry x s) s.cur = { getSlot s s.cur with s := cleared x (acting s) } := by
  unfold entry clearSync cleared acting
  split
  · rename_i h; rw [List.isEmpty_iff.mp h]; exact ⟨⟨rfl, fun _ => rfl, fun _ _ => rfl⟩, rfl⟩
  · refine ⟨⟨rfl, fun c => ?_, fun i hi => ?_⟩, ?_⟩
    · simp only [updStrand, updSlot, getCore_setSlot]; split <;> simp_all
    · rw [getSlot_updStrand, if_neg hi]
    · rw [getSlot_updStrand, if_pos rfl]; rfl

theorem OnlySlot.trans {a b c : State} {i : Nat} (h : OnlySlot a b i) (g : OnlySlot b c i) : OnlySlot a c i := by
  refine ⟨?_, fun k => ?_, fun j hj => ?_⟩
  · rw [g.rest, h.rest]
  · rw [g.core k, h.core k]
  · rw [g.slots j hj, h.slots j hj]

theorem onlySlot_updSlot (s : State) (i : Nat) (f : Slot → Slot) : OnlySlot s (updSlot s i f) i := by
  refine ⟨rfl, fun c => ?_, fun j hj => ?_⟩
  · simp only [updSlot, getCore_setSlot]; split <;> simp_all
  · rw [getSlot_updSlot, if_neg hj]

/-- A register-only change of the acting strand, then the end of the instruction. -/
theorem completed_of (x : Args) (s : State) (f : Strand → Strand) (n : Nat)
    (hf : ∀ u, SameCtl (f u) u) :
    Completed s { finishAt (updStrand (entry x s) s.cur f) s.cur with fresh := n } ∧
    strandAt { finishAt (updStrand (entry x s) s.cur f) s.cur with fresh := n } s.cur =
      endWait (endCheck (f (cleared x (acting s)))) := by
  have e := entry_only x s
  have hs : getSlot (finishAt (updStrand (entry x s) s.cur f) s.cur) s.cur =
      { getSlot s s.cur with st := .ready, s := endWait (endCheck (f (cleared x (acting s)))) } := by
    simp only [finishAt, getSlot_updSlot_same, getSlot_updStrand, if_true, e.2]
  have ho : OnlySlot s (finishAt (updStrand (entry x s) s.cur f) s.cur) s.cur :=
    (e.1.trans (onlySlot_updSlot _ _ _)).trans (onlySlot_updSlot _ _ _)
  have ho' : OnlySlot s { finishAt (updStrand (entry x s) s.cur f) s.cur with fresh := n } s.cur :=
    ⟨by conv_lhs => rw [ho.rest], ho.core, ho.slots⟩
  have hst : strandAt { finishAt (updStrand (entry x s) s.cur f) s.cur with fresh := n } s.cur =
      endWait (endCheck (f (cleared x (acting s)))) := by
    show (getSlot (finishAt (updStrand (entry x s) s.cur f) s.cur) s.cur).s = _
    rw [hs]
  refine ⟨⟨ho', ?_, ?_, ?_⟩, hst⟩
  · show (getSlot (finishAt (updStrand (entry x s) s.cur f) s.cur) s.cur).st = _
    rw [hs]
  · show (getSlot (finishAt (updStrand (entry x s) s.cur f) s.cur) s.cur).moved = _
    rw [hs]
  · rw [hst]
    have hc := endCheck_sameCtl _ _ ((hf (cleared x (acting s))).trans (sameCtl_cleared x (acting s)))
    rw [hc]

/-- Reading registers is not changed by the end of the instruction. -/
theorem reads_end (u w : Strand) (h : SameCtl u w) :
    (∀ n, readG (endWait (endCheck u)) n = readG u n) ∧ (∀ n, readV (endWait (endCheck u)) n = readV u n) ∧
    (∀ n, readP (endWait (endCheck u)) n = readP u n) ∧ (endWait (endCheck u)).fflags = u.fflags ∧
    (∀ r, fullOf (endWait (endCheck u)) r = fullOf u r) ∧ (∀ r, tagOf (endWait (endCheck u)) r = tagOf u r) := by
  rw [endCheck_sameCtl u w h]
  refine ⟨fun _ => rfl, fun _ => rfl, fun _ => rfl, rfl, fun r => ?_, fun r => ?_⟩ <;> cases r <;> rfl

theorem result_of (x : Args) (s : State) (f : Strand → Strand) (k : Nat) (hf : ∀ u, SameCtl (f u) u) (w : RegRef → Bool)
    (hF : ∀ r, inFile r = true → ∀ u, fullOf (f u) r = (w r || fullOf u r))
    (hW : ∀ r, inFile r = true → ∀ u, tagOf (f u) r = (tagOf u r && !w r)) :
    Result x s { finishAt (updStrand (entry x s) s.cur f) s.cur with fresh := k }
      (readG (f (cleared x (acting s)))) (readV (f (cleared x (acting s)))) (readP (f (cleared x (acting s))))
      (f (cleared x (acting s))).fflags w := by
  obtain ⟨hc, hs⟩ := completed_of x s f k hf
  obtain ⟨r1, r2, r3, r4, r5, r6⟩ := reads_end _ _ ((hf (cleared x (acting s))).trans (sameCtl_cleared x (acting s)))
  obtain ⟨-, -, -, -, c5, c6⟩ := fold_setFull (syncRegs x) (acting s)
  refine ⟨hc, fun n => by rw [hs, r1], fun n => by rw [hs, r2], fun n => by rw [hs, r3], by rw [hs, r4], ?_, ?_⟩
  · intro r hr
    rw [hs, r5, hF r hr, cleared, c6 r hr]
    cases w r <;> simp
  · intro r hr
    rw [hs, r6, hW r hr, cleared, c5 r]

/-! ### Which registers a write touches -/

theorem fullOf_writeG (t : Strand) (n : Nat) (a : Word) (r : RegRef) (hr : inFile r = true) :
    fullOf (writeG t n a) r = ((r == .g n && n != 0) || fullOf t r) := by
  unfold writeG
  by_cases hn : n = 0
  · subst hn; simp
  · rw [if_neg hn]
    cases r with
    | g m =>
      simp only [inFile, decide_eq_true_eq] at hr
      have e : (RegRef.g m == RegRef.g n) = decide (m = n) := by simp [beq_eq_decide]
      simp only [fullOf, getLsbD_setBit _ _ _ _ hr, e]
      by_cases h : m = n <;> simp [h, hn]
    | v m =>
      have e : (RegRef.v m == RegRef.g n) = false := by simp
      simp [fullOf, e]
theorem tagOf_writeG (t : Strand) (n : Nat) (a : Word) (r : RegRef) (hr : inFile r = true) :
    tagOf (writeG t n a) r = (tagOf t r && !(r == .g n && n != 0)) := by
  unfold writeG
  by_cases hn : n = 0
  · subst hn; simp
  · rw [if_neg hn]
    cases r with
    | g m =>
      simp only [inFile, decide_eq_true_eq] at hr
      have e : (RegRef.g m == RegRef.g n) = decide (m = n) := by simp [beq_eq_decide]
      simp only [tagOf, getLsbD_setBit _ _ _ _ hr, e]
      by_cases h : m = n <;> simp [h, hn]
    | v m =>
      have e : (RegRef.v m == RegRef.g n) = false := by simp
      simp [tagOf, e]
theorem fullOf_writeV (t : Strand) (n : Nat) (a : Vec) (r : RegRef) (hr : inFile r = true) :
    fullOf (writeV t n a) r = ((r == .v n) || fullOf t r) := by
  cases r with
  | g m =>
    have e : (RegRef.g m == RegRef.v n) = false := by simp
    simp [writeV, fullOf, e]
  | v m =>
    simp only [inFile, decide_eq_true_eq] at hr
    have e : (RegRef.v m == RegRef.v n) = decide (m = n) := by simp [beq_eq_decide]
    simp only [writeV, fullOf, getLsbD_setBit _ _ _ _ hr, e]
    by_cases h : m = n <;> simp [h]
theorem tagOf_writeV (t : Strand) (n : Nat) (a : Vec) (r : RegRef) (hr : inFile r = true) :
    tagOf (writeV t n a) r = (tagOf t r && !(r == .v n)) := by
  cases r with
  | g m =>
    have e : (RegRef.g m == RegRef.v n) = false := by simp
    simp [writeV, tagOf, e]
  | v m =>
    simp only [inFile, decide_eq_true_eq] at hr
    have e : (RegRef.v m == RegRef.v n) = decide (m = n) := by simp [beq_eq_decide]
    simp only [writeV, tagOf, getLsbD_setBit _ _ _ _ hr, e]
    by_cases h : m = n <;> simp [h]
theorem fullOf_writeP (t : Strand) (n : Nat) (a : BitVec 16) (r : RegRef) : fullOf (writeP t n a) r = fullOf t r := by
  unfold writeP; split <;> cases r <;> rfl
theorem tagOf_writeP (t : Strand) (n : Nat) (a : BitVec 16) (r : RegRef) : tagOf (writeP t n a) r = tagOf t r := by
  unfold writeP; split <;> cases r <;> rfl
theorem fullOf_raise (t : Strand) (fl : BitVec 5) (r : RegRef) : fullOf (raise t fl) r = fullOf t r := by cases r <;> rfl
theorem tagOf_raise (t : Strand) (fl : BitVec 5) (r : RegRef) : tagOf (raise t fl) r = tagOf t r := by cases r <;> rfl

theorem Result.congr {x : Args} {s t : State} {G G' : Nat → Word} {V V' : Nat → Vec} {P P' : Nat → BitVec 16}
    {fl fl' : BitVec 5} {w : RegRef → Bool} (h : Result x s t G V P fl w) (hG : ∀ n, G n = G' n) (hV : ∀ n, V n = V' n)
    (hP : ∀ n, P n = P' n) (hf : fl = fl') : Result x s t G' V' P' fl' w :=
  ⟨h.done, fun n => (h.g n).trans (hG n), fun n => (h.v n).trans (hV n), fun n => (h.p n).trans (hP n), h.flags.trans hf,
    h.full, h.tags⟩

theorem writesG_of (x : Args) (s : State) (n k : Nat) (a : Word) :
    WritesG x s { finishAt (updStrand (entry x s) s.cur fun t => writeG t n a) s.cur with fresh := k } n a := by
  obtain ⟨c1, c2, c3, c4, -, -⟩ := fold_setFull (syncRegs x) (acting s)
  refine (result_of x s (fun t => writeG t n a) k (fun u => sameCtl_writeG u n a) (fun r => r == .g n && n != 0)
    (fun r hr u => fullOf_writeG u n a r hr) (fun r hr u => tagOf_writeG u n a r hr)).congr ?_ ?_ ?_ ?_
  · intro m; rw [readG_writeG]; unfold cleared; rw [c1]
  · intro m; rw [← c2 m]; unfold writeG cleared; split <;> rfl
  · intro m; rw [← c3 m]; unfold writeG cleared; split <;> rfl
  · rw [← c4]; unfold writeG cleared; split <;> rfl

theorem writesV_of (x : Args) (s : State) (n k : Nat) (a : Vec) (fl : BitVec 5) :
    WritesV x s { finishAt (updStrand (entry x s) s.cur fun t => raise (writeV t n a) fl) s.cur with fresh := k } n a fl := by
  obtain ⟨c1, c2, c3, c4, -, -⟩ := fold_setFull (syncRegs x) (acting s)
  refine (result_of x s (fun t => raise (writeV t n a) fl) k (fun u => rfl) (fun r => r == .v n)
    (fun r hr u => by rw [fullOf_raise, fullOf_writeV u n a r hr])
    (fun r hr u => by rw [tagOf_raise, tagOf_writeV u n a r hr])).congr ?_ ?_ ?_ ?_
  · intro m; exact c1 m
  · intro m; show readV (writeV _ n a) m = _; rw [readV_writeV, cleared, c2]
  · intro m; exact c3 m
  · show (cleared x (acting s)).fflags ||| fl = _; rw [cleared, c4]

theorem writesVV_of (x : Args) (s : State) (n k : Nat) (a b : Vec) (fl : BitVec 5) :
    WritesVV x s { finishAt (updStrand (entry x s) s.cur fun t => raise (writeV (writeV t n a) (n + 1) b) fl) s.cur with
      fresh := k } n a b fl := by
  obtain ⟨c1, c2, c3, c4, -, -⟩ := fold_setFull (syncRegs x) (acting s)
  refine (result_of x s (fun t => raise (writeV (writeV t n a) (n + 1) b) fl) k (fun u => rfl)
    (fun r => r == .v n || r == .v (n + 1))
    (fun r hr u => by
      rw [fullOf_raise, fullOf_writeV _ _ _ r hr, fullOf_writeV _ _ _ r hr]
      cases (r == RegRef.v n) <;> cases (r == RegRef.v (n + 1)) <;> simp)
    (fun r hr u => by
      rw [tagOf_raise, tagOf_writeV _ _ _ r hr, tagOf_writeV _ _ _ r hr]
      cases (r == RegRef.v n) <;> cases (r == RegRef.v (n + 1)) <;> simp)).congr ?_ ?_ ?_ ?_
  · intro m; exact c1 m
  · intro m
    show readV (writeV (writeV _ n a) (n + 1) b) m = _
    rw [readV_writeV, readV_writeV, cleared, c2]
  · intro m; exact c3 m
  · show (cleared x (acting s)).fflags ||| fl = _; rw [cleared, c4]

theorem writesP_of (x : Args) (s : State) (n k : Nat) (a : BitVec 16) (fl : BitVec 5) :
    WritesP x s { finishAt (updStrand (entry x s) s.cur fun t => raise (writeP t n a) fl) s.cur with fresh := k } n a fl := by
  obtain ⟨c1, c2, c3, c4, -, -⟩ := fold_setFull (syncRegs x) (acting s)
  refine (result_of x s (fun t => raise (writeP t n a) fl) k (fun u => (sameCtl_raise _ _).trans (sameCtl_writeP u n a))
    (fun _ => false) (fun r hr u => by rw [fullOf_raise, fullOf_writeP]; simp)
    (fun r hr u => by rw [tagOf_raise, tagOf_writeP]; simp)).congr ?_ ?_ ?_ ?_
  · intro m; rw [← c1 m]; unfold writeP cleared raise; split <;> rfl
  · intro m; rw [← c2 m]; unfold writeP cleared raise; split <;> rfl
  · intro m; show readP (writeP _ n a) m = _; rw [readP_writeP, cleared, c3]
  · rw [← c4]; unfold writeP cleared raise; split <;> rfl

/-! ### What the synchronised reads leave -/

@[simp] theorem cleared_uid (x : Args) (t : Strand) : (cleared x t).uid = t.uid := by rw [sameCtl_cleared x t]
@[simp] theorem cleared_ctx (x : Args) (t : Strand) : (cleared x t).ctx = t.ctx := by rw [sameCtl_cleared x t]
@[simp] theorem cleared_pc (x : Args) (t : Strand) : (cleared x t).pc = t.pc := by rw [sameCtl_cleared x t]
@[simp] theorem cleared_lk (x : Args) (t : Strand) : (cleared x t).lk = t.lk := by rw [sameCtl_cleared x t]
@[simp] theorem cleared_ls0 (x : Args) (t : Strand) : (cleared x t).ls0 = t.ls0 := by rw [sameCtl_cleared x t]
@[simp] theorem cleared_le0 (x : Args) (t : Strand) : (cleared x t).le0 = t.le0 := by rw [sameCtl_cleared x t]
@[simp] theorem cleared_lc0 (x : Args) (t : Strand) : (cleared x t).lc0 = t.lc0 := by rw [sameCtl_cleared x t]
@[simp] theorem cleared_ls1 (x : Args) (t : Strand) : (cleared x t).ls1 = t.ls1 := by rw [sameCtl_cleared x t]
@[simp] theorem cleared_le1 (x : Args) (t : Strand) : (cleared x t).le1 = t.le1 := by rw [sameCtl_cleared x t]
@[simp] theorem cleared_lc1 (x : Args) (t : Strand) : (cleared x t).lc1 = t.lc1 := by rw [sameCtl_cleared x t]
@[simp] theorem cleared_dlValid (x : Args) (t : Strand) : (cleared x t).dlValid = t.dlValid := by rw [sameCtl_cleared x t]
@[simp] theorem cleared_dlArmed (x : Args) (t : Strand) : (cleared x t).dlArmed = t.dlArmed := by rw [sameCtl_cleared x t]
@[simp] theorem cleared_dlRelease (x : Args) (t : Strand) : (cleared x t).dlRelease = t.dlRelease := by rw [sameCtl_cleared x t]
@[simp] theorem cleared_dline (x : Args) (t : Strand) : (cleared x t).dline = t.dline := by rw [sameCtl_cleared x t]
@[simp] theorem cleared_scmiss (x : Args) (t : Strand) : (cleared x t).scmiss = t.scmiss := by rw [sameCtl_cleared x t]
@[simp] theorem cleared_trapinfo (x : Args) (t : Strand) : (cleared x t).trapinfo = t.trapinfo := by rw [sameCtl_cleared x t]
@[simp] theorem cleared_unitid (x : Args) (t : Strand) : (cleared x t).unitid = t.unitid := by rw [sameCtl_cleared x t]
@[simp] theorem cleared_launchid (x : Args) (t : Strand) : (cleared x t).launchid = t.launchid := by rw [sameCtl_cleared x t]
@[simp] theorem cleared_debts (x : Args) (t : Strand) : (cleared x t).debts = t.debts := by rw [sameCtl_cleared x t]
@[simp] theorem cleared_startId (x : Args) (t : Strand) : (cleared x t).startId = t.startId := by rw [sameCtl_cleared x t]
@[simp] theorem cleared_spawns (x : Args) (t : Strand) : (cleared x t).spawns = t.spawns := by rw [sameCtl_cleared x t]
@[simp] theorem cleared_wait (x : Args) (t : Strand) : (cleared x t).wait = t.wait := by rw [sameCtl_cleared x t]
@[simp] theorem cleared_copies (x : Args) (t : Strand) : (cleared x t).copies = t.copies := by rw [sameCtl_cleared x t]
@[simp] theorem cleared_units (x : Args) (t : Strand) : (cleared x t).units = t.units := by rw [sameCtl_cleared x t]
@[simp] theorem cleared_arrived (x : Args) (t : Strand) : (cleared x t).arrived = t.arrived := by rw [sameCtl_cleared x t]
@[simp] theorem cleared_noticed (x : Args) (t : Strand) : (cleared x t).noticed = t.noticed := by rw [sameCtl_cleared x t]
@[simp] theorem cleared_held (x : Args) (t : Strand) : (cleared x t).held = t.held := by rw [sameCtl_cleared x t]
@[simp] theorem cleared_member (x : Args) (t : Strand) : (cleared x t).member = t.member := by rw [sameCtl_cleared x t]
@[simp] theorem cleared_due (x : Args) (t : Strand) : (cleared x t).due = t.due := by rw [sameCtl_cleared x t]
@[simp] theorem cleared_releasing (x : Args) (t : Strand) : (cleared x t).releasing = t.releasing := by rw [sameCtl_cleared x t]
@[simp] theorem readG_cleared (x : Args) (t : Strand) (n : Nat) : readG (cleared x t) n = readG t n :=
  (fold_setFull (syncRegs x) t).1 n
@[simp] theorem readV_cleared (x : Args) (t : Strand) (n : Nat) : readV (cleared x t) n = readV t n :=
  (fold_setFull (syncRegs x) t).2.1 n
@[simp] theorem readP_cleared (x : Args) (t : Strand) (n : Nat) : readP (cleared x t) n = readP t n :=
  (fold_setFull (syncRegs x) t).2.2.1 n
@[simp] theorem fflags_cleared (x : Args) (t : Strand) : (cleared x t).fflags = t.fflags :=
  (fold_setFull (syncRegs x) t).2.2.2.1

@[simp] theorem entry_cycle (x : Args) (s : State) : (entry x s).cycle = s.cycle := by unfold entry clearSync; split <;> rfl
@[simp] theorem entry_dtime (x : Args) (s : State) : (entry x s).dtime = s.dtime := by unfold entry clearSync; split <;> rfl
@[simp] theorem entry_mem (x : Args) (s : State) : (entry x s).mem = s.mem := by unfold entry clearSync; split <;> rfl
@[simp] theorem entry_poison (x : Args) (s : State) : (entry x s).poison = s.poison := by unfold entry clearSync; split <;> rfl
@[simp] theorem entry_hubs (x : Args) (s : State) : (entry x s).hubs = s.hubs := by unfold entry clearSync; split <;> rfl
@[simp] theorem entry_net (x : Args) (s : State) : (entry x s).net = s.net := by unfold entry clearSync; split <;> rfl
@[simp] theorem entry_records (x : Args) (s : State) : (entry x s).records = s.records := by unfold entry clearSync; split <;> rfl
@[simp] theorem entry_ctxs (x : Args) (s : State) : (entry x s).ctxs = s.ctxs := by unfold entry clearSync; split <;> rfl
@[simp] theorem entry_launches (x : Args) (s : State) : (entry x s).launches = s.launches := by unfold entry clearSync; split <;> rfl
@[simp] theorem entry_plaza (x : Args) (s : State) : (entry x s).plaza = s.plaza := by unfold entry clearSync; split <;> rfl
@[simp] theorem entry_mgmt (x : Args) (s : State) : (entry x s).mgmt = s.mgmt := by unfold entry clearSync; split <;> rfl
@[simp] theorem entry_dom (x : Args) (s : State) : (entry x s).dom = s.dom := by unfold entry clearSync; split <;> rfl
@[simp] theorem entry_fresh (x : Args) (s : State) : (entry x s).fresh = s.fresh := by unfold entry clearSync; split <;> rfl
@[simp] theorem entry_nextId (x : Args) (s : State) : (entry x s).nextId = s.nextId := by unfold entry clearSync; split <;> rfl
@[simp] theorem entry_cur (x : Args) (s : State) : (entry x s).cur = s.cur := by unfold entry clearSync; split <;> rfl
@[simp] theorem entry_agenda (x : Args) (s : State) : (entry x s).agenda = s.agenda := by unfold entry clearSync; split <;> rfl
@[simp] theorem entry_misses (x : Args) (s : State) : (entry x s).misses = s.misses := by unfold entry clearSync; split <;> rfl
@[simp] theorem entry_tlb (x : Args) (s : State) : (entry x s).tlb = s.tlb := by unfold entry clearSync; split <;> rfl
@[simp] theorem entry_resv (x : Args) (s : State) : (entry x s).resv = s.resv := by unfold entry clearSync; split <;> rfl
@[simp] theorem entry_skew (x : Args) (s : State) : (entry x s).skew = s.skew := by unfold entry clearSync; split <;> rfl
@[simp] theorem entry_clocks (x : Args) (s : State) : (entry x s).clocks = s.clocks := by unfold entry clearSync; split <;> rfl
@[simp] theorem entry_corners (x : Args) (s : State) : (entry x s).corners = s.corners := by unfold entry clearSync; split <;> rfl
@[simp] theorem entry_trees (x : Args) (s : State) : (entry x s).trees = s.trees := by unfold entry clearSync; split <;> rfl
@[simp] theorem entry_served (x : Args) (s : State) : (entry x s).served = s.served := by unfold entry clearSync; split <;> rfl
@[simp] theorem entry_portTurn (x : Args) (s : State) : (entry x s).portTurn = s.portTurn := by unfold entry clearSync; split <;> rfl
@[simp] theorem entry_relTurn (x : Args) (s : State) : (entry x s).relTurn = s.relTurn := by unfold entry clearSync; split <;> rfl
@[simp] theorem entry_cancels (x : Args) (s : State) : (entry x s).cancels = s.cancels := by unfold entry clearSync; split <;> rfl
@[simp] theorem entry_kvCopies (x : Args) (s : State) : (entry x s).kvCopies = s.kvCopies := by unfold entry clearSync; split <;> rfl
@[simp] theorem entry_retires (x : Args) (s : State) : (entry x s).retires = s.retires := by unfold entry clearSync; split <;> rfl
@[simp] theorem entry_turn (x : Args) (s : State) : (entry x s).turn = s.turn := by unfold entry clearSync; split <;> rfl
@[simp] theorem entry_prompt (x : Args) (s : State) : (entry x s).prompt = s.prompt := by unfold entry clearSync; split <;> rfl

/-- A change of the acting strand's slot that ends the instruction. -/
theorem leaves_of (x : Args) (s : State) (f : Slot → Slot) (u : Strand)
    (hf : f { getSlot s s.cur with s := cleared x (acting s) } = { getSlot s s.cur with st := .ready, s := u }) :
    Leaves s (updSlot (entry x s) s.cur f) u := by
  obtain ⟨e1, e2⟩ := entry_only x s
  refine ⟨e1.trans (onlySlot_updSlot _ _ _), ?_⟩
  rw [getSlot_updSlot_same, e2, hf]

theorem updSlot_updSlot (s : State) (sid : Nat) (f g : Slot → Slot) :
    getSlot (updSlot (updSlot s sid f) sid g) sid = g (f (getSlot s sid)) := by simp

/-- The same after a change of the strand. -/
theorem leaves_of2 (x : Args) (s : State) (k : Strand → Strand) (f : Slot → Slot) (u : Strand)
    (hf : f { getSlot s s.cur with s := k (cleared x (acting s)) } = { getSlot s s.cur with st := .ready, s := u }) :
    Leaves s (updSlot (updStrand (entry x s) s.cur k) s.cur f) u := by
  obtain ⟨e1, e2⟩ := entry_only x s
  refine ⟨(e1.trans (onlySlot_updSlot _ _ _)).trans (onlySlot_updSlot _ _ _), ?_⟩
  rw [getSlot_updSlot_same, getSlot_updStrand, if_pos rfl, e2, hf]

/-! ## The bodies in common -/

theorem destOf_gField (o : Opd) (n : Nat) (h : gField o = some n) : destOf o = some (.g n) := by
  cases o <;> simp_all [gField, destOf]
theorem idxOf_vField (o : Opd) (n : Nat) (h : vField o = some n) : idxOf o = n := by
  cases o <;> simp_all [vField, idxOf]
theorem idxOf_pField (o : Opd) (n : Nat) (h : pField o = some n) : idxOf o = n := by
  cases o <;> simp_all [pField, idxOf]

theorem setG_eq (s : State) (sid : Nat) (o : Opd) (n : Nat) (v : Word) (h : gField o = some n) :
    setG s sid o v = updStrand s sid fun t => writeG t n v := by
  simp [setG, setReg, destOf_gField o n h, writeReg]

theorem fresh_self (s : State) : s = { s with fresh := s.fresh } := rfl

/-- A form whose body only gives field d's general register a value. -/
theorem run_setG (op : Nat) (x : Args) (body : Body1) (s : State) (n : Nat) (a : Word) (h : clear op x s = true)
    (hd : gField x.d = some n) (hb : body (entry x s) s.cur (acting s) (readOpnds (acting s) x (fourOf op)) =
      .done (setG (entry x s) s.cur x.d a)) : ∃ t, run op x body s = .next t ∧ WritesG x s t n a := by
  refine ⟨_, run_clear op x body s h, ?_⟩
  rw [hb, setG_eq _ _ _ n _ hd]
  exact writesG_of x s n _ a

/-- A form that only computes field d. -/
theorem run_compute (op : Nat) (x : Args) (f : Opnds → Word) (s : State) (n : Nat) (h : clear op x s = true)
    (hd : gField x.d = some n) (h4 : fourOf op = false) :
    ∃ t, run op x (compute x f) s = .next t ∧ WritesG x s t n (f (ops x s)) :=
  run_setG op x _ s n _ h hd (by simp [compute, h4, ops])

/-- A form that only computes field d's predicate. -/
theorem run_computeP (op : Nat) (x : Args) (f : Opnds → BitVec 16) (s : State) (n : Nat) (h : clear op x s = true)
    (hd : pField x.d = some n) (h4 : fourOf op = false) :
    ∃ t, run op x (computeP x f) s = .next t ∧ WritesP x s t n (f (ops x s)) 0 := by
  refine ⟨_, run_clear op x _ s h, ?_⟩
  have := writesP_of x s n (finishAt (updStrand (entry x s) s.cur fun t => writeP t n (f (ops x s))) s.cur).fresh (f (ops x s)) 0
  simpa [computeP, settle, h4, ops, raise, idxOf_pField x.d n hd] using this

/-- R173: a form that writes a vector register lane by lane. -/
theorem run_vecBody (op : Nat) (x : Args) (w k : Nat) (f : Strand → Opnds → Nat → FRes) (s : State) (n : Nat)
    (h : clear op x s = true) (hd : vField x.d = some n) (h4 : fourOf op = false) :
    ∃ t, run op x (vecBody x w k f) s = .next t ∧
      WritesV x s t n (lanewise w k (laneMask (acting s) x) (readV (acting s) n) (f (acting s) (ops x s))).1
        (lanewise w k (laneMask (acting s) x) (readV (acting s) n) (f (acting s) (ops x s))).2 := by
  refine ⟨_, run_clear op x _ s h, ?_⟩
  simp only [vecBody, settle, h4, idxOf_vField x.d n hd]
  exact writesV_of x s n _ _ _

end Sys2Proof.Machine
end

