-- ==== Sys2Proof/Laws/Trap.lean ====
section
/-! SUPPORT. What taking a trap does: which parts of the state its steps leave alone, and the slot and record it leaves. -/

namespace Sys2Proof.Machine
open Sys2Proof

/-- A write by the device itself changes memory and the list of errors only. -/
theorem physWrite_eq (s : State) (pa : Nat) (bs : List Byte) :
    physWrite s pa bs = { s with mem := (physWrite s pa bs).mem, poison := (physWrite s pa bs).poison } := by
  unfold physWrite; split <;> rfl
theorem physWrite_memWf (s : State) (pa : Nat) (bs : List Byte) (h : memWf s.mem = true) :
    memWf (physWrite s pa bs).mem = true := by
  unfold physWrite; split
  · exact memWf_writeBytes _ _ _ h
  · exact h

theorem virtWrite_eq (t ctx : Nat) (k : Nat) : ∀ (s : State) (va : Nat) (bs : List Byte) (s' : State),
    virtWrite s t ctx va k bs = some s' →
      s' = { s with mem := s'.mem, poison := s'.poison } ∧ (memWf s.mem = true → memWf s'.mem = true) := by
  induction k with
  | zero => intro s va bs s' h; simp only [virtWrite, Option.some.injEq] at h; subst h; exact ⟨rfl, id⟩
  | succ k ih =>
    intro s va bs s' h
    simp only [virtWrite] at h
    split at h
    · obtain ⟨h1, h2⟩ := ih _ _ _ _ h
      rw [physWrite_eq] at h1
      exact ⟨h1, fun hm => h2 (physWrite_memWf _ _ _ hm)⟩
    · simp at h

theorem virtWrite1_eq (s : State) (t ctx va : Nat) (bs : List Byte) (s' : State) (h : virtWrite1 s t ctx va bs = some s') :
    s' = { s with mem := s'.mem, poison := s'.poison } ∧ (memWf s.mem = true → memWf s'.mem = true) := by
  unfold virtWrite1 at h
  split at h
  · simp only [Option.some.injEq] at h; subst h; exact ⟨physWrite_eq _ _ _, physWrite_memWf _ _ _⟩
  · simp at h

theorem writeImage_eq (s : State) (ctx blk im tl : Nat) (t : Strand) (s' : State)
    (h : writeImage s ctx blk im tl t = some s') :
    s' = { s with mem := s'.mem, poison := s'.poison } ∧ (memWf s.mem = true → memWf s'.mem = true) := by
  unfold writeImage at h
  rw [Option.bind_eq_some_iff] at h
  obtain ⟨s1, h1, h2⟩ := h
  obtain ⟨a1, a2⟩ := virtWrite_eq _ _ _ _ _ _ _ h1
  obtain ⟨b1, b2⟩ := virtWrite_eq _ _ _ _ _ _ _ h2
  rw [a1] at b1
  exact ⟨b1, fun hm => b2 (a2 hm)⟩

/-- Notices change the network and the next number only. -/
theorem sendNotices_eq (core uid sid ctx : Nat) (un : Bool) (hs : List Word) : ∀ s : State,
    sendNotices s core uid sid ctx un hs =
      { s with net := (sendNotices s core uid sid ctx un hs).net
               nextId := (sendNotices s core uid sid ctx un hs).nextId } := by
  induction hs with
  | nil => intro s; rfl
  | cons h hs ih =>
    intro s
    simp only [sendNotices]
    rw [ih]
    rfl

/-- R310: a strand as its halt leaves its registers. -/
abbrev haltedAs (t : Strand) (info : Word) : Strand := { t with trapinfo := info, due := t.due.filter fun d => d.1 != 5 }
/-- R310: what a halt leaves: the slot, the record, and all but memory, the network and what is due next. -/
theorem haltStrand_eq (s : State) (sid cls : Nat) (info : Word) (word : BitVec 96) :
    let z := haltStrand s sid cls info word
    let t := haltedAs (getSlot s sid).s info
    let hs := if (getSlot s sid).st = .member then [] else noticeHandles t
    let s1 := setSlot s sid { getSlot s sid with
      st := .halted, moved := if (getSlot s sid).st = .ready then s.cycle else (getSlot s sid).moved,
      s := { t with noticed := t.noticed ++ hs, wait := none } }
    z = { s1 with mem := z.mem, poison := z.poison, net := z.net, nextId := z.nextId, agenda := z.agenda, records := s.records ++ [({ k := s.nextId, core := some (coreOf sid), ctx := t.ctx, words := trapRecord s1 sid cls info t word, since := s.dtime } : Record)] } ∧
      (memWf s.mem = true → memWf z.mem = true) := by
  intro z t hs s1
  have hz : z = haltStrand s sid cls info word := rfl
  unfold haltStrand at hz
  simp only [beq_iff_eq] at hz
  generalize hq : sendNotices _ _ _ _ _ _ _ = s3 at hz
  have h3 := sendNotices_eq (coreOf sid) t.uid sid t.ctx false hs
    (queueRecord s1 (some (coreOf sid)) t.ctx (trapRecord s1 sid cls info t word))
  have h3' : s3 = sendNotices (queueRecord s1 (some (coreOf sid)) t.ctx
    (trapRecord s1 sid cls info t word)) (coreOf sid) t.uid sid t.ctx false hs := hq.symm
  rw [← h3'] at h3
  have g3 : s3.agenda = s.agenda := by rw [h3]; rfl
  split at hz
  · rename_i s4 h4
    obtain ⟨e1, e2⟩ := writeImage_eq _ _ _ _ _ _ _ h4
    have n1 : s4.net = s3.net := by rw [e1]
    have n2 : s4.nextId = s3.nextId := by rw [e1]
    have n3 : s4.agenda = s.agenda := by rw [e1]; exact g3
    rw [hz]
    constructor
    · rw [n1, n2, n3]
      conv_lhs => rw [e1, h3]
      rfl
    · intro hm
      apply e2
      rw [h3]; exact hm
  · rw [hz]
    constructor
    · conv_lhs => rw [h3]
      show _ = { s1 with mem := s3.mem, poison := s3.poison, net := s3.net, nextId := s3.nextId, agenda := .event (.unrecoverableFault t.ctx) :: s3.agenda, records := _ }
      rw [g3]
      have m1 : s3.mem = s.mem := by rw [h3]; rfl
      have m2 : s3.poison = s.poison := by rw [h3]; rfl
      rw [m1, m2]
      rfl
    · intro hm
      show memWf s3.mem = true
      rw [h3]; exact hm

/-- The slot that a halt leaves. -/
abbrev haltedSlot (s : State) (sid : Nat) (info : Word) : Slot :=
  { getSlot s sid with
    st := .halted, moved := if (getSlot s sid).st = .ready then s.cycle else (getSlot s sid).moved
    s := { haltedAs (getSlot s sid).s info with
      wait := none
      noticed := (getSlot s sid).s.noticed ++
        if (getSlot s sid).st = .member then [] else noticeHandles (haltedAs (getSlot s sid).s info) } }

/-- The slot that a halt leaves, and every other slot. -/
theorem haltStrand_slot (s : State) (sid cls : Nat) (info : Word) (word : BitVec 96) :
    (getSlot (haltStrand s sid cls info word) sid).st = .halted ∧
    strandAt (haltStrand s sid cls info word) sid =
      { strandAt s sid with trapinfo := info, wait := none, noticed := (strandAt (haltStrand s sid cls info word) sid).noticed,
                            due := (strandAt s sid).due.filter fun d => d.1 != 5 } ∧
    (∀ i, i ≠ sid → getSlot (haltStrand s sid cls info word) i = getSlot s i) := by
  obtain ⟨h, -⟩ := haltStrand_eq s sid cls info word
  have hc : ∀ i, getSlot (haltStrand s sid cls info word) i = getSlot (setSlot s sid (haltedSlot s sid info)) i := by
    intro i; rw [h]; rfl
  refine ⟨by rw [hc]; simp, ?_, fun i hi => by rw [hc, getSlot_setSlot, if_neg hi]⟩
  unfold strandAt
  rw [hc]; simp

/-- The record that a halt queues. -/
theorem haltStrand_record (s : State) (sid cls : Nat) (info : Word) (word : BitVec 96) :
    ∃ r, (haltStrand s sid cls info word).records = s.records ++ [r] ∧ r.core = some (coreOf sid) ∧
      r.ctx = (strandAt s sid).ctx ∧ r.words.getD 1 0 = info ∧ r.words.getD 2 0 = (strandAt s sid).pc ∧
      r.words.getD 6 0 = word.setWidth 64 ∧
      ((strandAt s sid).ctx < 64 → s.dom.member < 1024 → sid < 2 ^ 15 → cls < 2 ^ 16 →
        (r.words.getD 0 0).toNat / 2 ^ 48 = cls) := by
  obtain ⟨h, -⟩ := haltStrand_eq s sid cls info word
  refine ⟨_, by rw [h], rfl, rfl, rfl, rfl, rfl, ?_⟩
  intro h1 h2 h3 h4
  show (BitVec.ofNat 64 _).toNat / 2 ^ 48 = cls
  unfold strandAt at h1
  have hd : (setSlot s sid (haltedSlot s sid info)).dom = s.dom := rfl
  rw [BitVec.toNat_ofNat, hd]
  have fit : ∀ a b : Nat, a ≤ 2 ^ 46 → b ≤ 2 ^ 44 →
      (cls * 2 ^ 48 + a + b + (getSlot s sid).s.ctx * 2 ^ 32 + s.dom.member * 2 ^ 22 + sid) % 2 ^ 64 / 2 ^ 48 = cls := by
    intro a b ha hb; omega
  apply fit
  · split <;> omega
  · split <;> omega

/-- What joining the cordon leaves: the slot is a member's, its strand differs in its wait record and its notices, and nothing
differs elsewhere but packets under way. -/
theorem joinCordon_slot (s : State) (sid : Nat) :
    (getSlot (joinCordon s sid) sid).st = .member ∧ (joinCordon s sid).mem = s.mem ∧
    strandAt (joinCordon s sid) sid = { strandAt s sid with
      wait := (strandAt (joinCordon s sid) sid).wait, noticed := (strandAt (joinCordon s sid) sid).noticed } ∧
    (∀ i, i ≠ sid → getSlot (joinCordon s sid) i = getSlot s i) := by
  have h : ∀ i, getSlot (joinCordon s sid) i = getSlot (setSlot s sid { getSlot s sid with
      st := .member
      s := { (getSlot s sid).s with
        noticed := (getSlot s sid).s.noticed ++ noticeHandles (getSlot s sid).s
        wait := (getSlot s sid).s.wait.map fun w => { w with rel := true } } }) i := by
    intro i; unfold joinCordon; dsimp only; rw [sendNotices_eq]; rfl
  refine ⟨by rw [h]; simp, by unfold joinCordon; dsimp only; rw [sendNotices_eq]; rfl, ?_, fun i hi => by rw [h, getSlot_setSlot, if_neg hi]⟩
  unfold strandAt
  rw [h]; simp

/-- R464: what parking leaves: the strand waits; of its strand only the wait record differs, and memory and every other slot are as
they were. -/
theorem parkAt_slot (s : State) (sid op : Nat) (obj arg : Word) (left : Option Nat) (stage : Stage) (o : Option Opnds)
    (rs : List RegRef) (word : BitVec 96) :
    (getSlot (parkAt s sid op obj arg left stage o rs word) sid).st = .parked ∧
    (parkAt s sid op obj arg left stage o rs word).mem = s.mem ∧
    strandAt (parkAt s sid op obj arg left stage o rs word) sid = { strandAt s sid with
      wait := (strandAt (parkAt s sid op obj arg left stage o rs word) sid).wait } ∧
    (∀ i, i ≠ sid → getSlot (parkAt s sid op obj arg left stage o rs word) i = getSlot s i) :=
  ⟨by simp [parkAt], rfl, by simp [strandAt, parkAt], fun i hi => by simp [parkAt, getSlot_setSlot, if_neg hi]⟩

end Sys2Proof.Machine
end

