-- ==== Sys2Proof/Laws/Vec.lean ====
section
/-! SUPPORT. Lanes: which bits a lane's read and write touch. -/

namespace Sys2Proof.Machine
open Sys2Proof

theorem laneGet_testBit (w i : Nat) (v : Vec) (k : Nat) : (laneGet w i v).testBit k = (decide (k < w) && v.getLsbD (w * i + k)) := by
  unfold laneGet
  rw [Nat.testBit_mod_two_pow, Nat.testBit_div_two_pow, BitVec.testBit_toNat, Nat.add_comm]

theorem laneGet_lt (w i : Nat) (v : Vec) : laneGet w i v < 2 ^ w := Nat.mod_lt _ (by positivity)

theorem laneSet_getLsbD (w i : Nat) (v : Vec) (u j : Nat) (hj : j < 128) :
    (laneSet w i v u).getLsbD j = if w * i ≤ j ∧ j < w * i + w then u.testBit (j - w * i) else v.getLsbD j := by
  simp only [laneSet, BitVec.getLsbD_or, BitVec.getLsbD_and, BitVec.getLsbD_not, BitVec.getLsbD_ofNat, hj, decide_true,
    Bool.true_and, Nat.testBit_mul_two_pow, Nat.testBit_mod_two_pow, Nat.testBit_two_pow_sub_one]
  by_cases h1 : w * i ≤ j
  · by_cases h2 : j - w * i < w
    · have : j < w * i + w := by omega
      simp [h1, h2, this]
    · have : ¬ j < w * i + w := by omega
      simp [h1, h2, this]
  · simp [h1]

/-- Two lanes of one width are the same or apart. -/
theorem lane_apart (w i k j : Nat) (h1 : w * i ≤ j) (h2 : j < w * i + w) (h3 : w * k ≤ j) (h4 : j < w * k + w) : i = k := by
  rcases lt_trichotomy i k with h | h | h
  · have : w * (i + 1) ≤ w * k := Nat.mul_le_mul_left w h
    rw [Nat.mul_add] at this; omega
  · exact h
  · have : w * (k + 1) ≤ w * i := Nat.mul_le_mul_left w h
    rw [Nat.mul_add] at this; omega

end Sys2Proof.Machine
end

