-- ==== Sys2Proof/Laws/Access.lean ====
section
/-! SUPPORT. Accesses to the own scratchpad: where they go, what the bytes there are, and what a store leaves. -/

namespace Sys2Proof.Machine
open Sys2Proof

/-- R62, R200: an aligned own-scratchpad access in range, for a form that may reach that space. -/
theorem target_own (s : State) (sid ctx : Nat) (need : Need) (sp : List Nat) (obj : Bool) (ea : Word) (n : Nat)
    (h : ownSpace ea n) (hs : sp.contains 0xF0 = true) :
    target s sid ctx need sp obj ea n = .own (ea.toNat % 2 ^ 56) := by
  obtain ⟨h1, h2, h3⟩ := h
  have e : (ea >>> 56).toNat = 0xF0 := by rw [h1]; rfl
  unfold target
  simp only [e, h3]
  rw [if_neg (by simpa using hs), if_neg (by simp), if_pos (show ((240 : Nat) == 240) = true from rfl), if_pos h2]

theorem effAddr_address (x : Args) (s : State) (n : Nat) : effAddr (ops x s) x n = address x s n := by
  unfold effAddr address
  cases x.b with
  | reg r => rfl
  | _ => simp

@[simp] theorem reserved_entry (x : Args) (s : State) (a n : Nat) : reserved (entry x s) a n = reserved s a n := by
  unfold reserved; rw [entry_resv]
@[simp] theorem owesAck_entry (x : Args) (s : State) (uid sid : Nat) (sc : Scope) : owesAck (entry x s) uid sid sc = owesAck s uid sid sc := by
  unfold owesAck unacked; rw [entry_net]
@[simp] theorem ringHeldBy_entry (x : Args) (s : State) (core uid : Nat) : ringHeldBy (entry x s) core uid = ringHeldBy s core uid := by
  have h : (getCore (entry x s) core).rings = (getCore s core).rings := by
    unfold entry clearSync
    split
    · rfl
    · simp only [updStrand, updSlot, getCore_setSlot]; split <;> rename_i e <;> simp [e]
  unfold ringHeldBy rgHeld ringReg
  simp only [h, reserved_entry]
@[simp] theorem poisoned_entry (x : Args) (s : State) (a n : Nat) : poisoned (entry x s) a n = poisoned s a n := by
  unfold poisoned; rw [entry_poison]

/-- Only what a change makes of the strand that is there matters. -/
theorem updStrand_congr (s : State) (sid : Nat) (f g : Strand → Strand) (h : f (strandAt s sid) = g (strandAt s sid)) :
    updStrand s sid f = updStrand s sid g := by
  unfold strandAt at h
  unfold updStrand updSlot; dsimp only; rw [h]

theorem readLe_lt (m : Map Byte) (a n : Nat) : readLe m a n < 256 ^ n := by
  induction n generalizing a with
  | zero => simp [readLe]
  | succ n ih =>
    have := ih (a + 1)
    have h2 := (readByte m a).isLt
    rw [readLe, Nat.pow_succ]
    omega

/-- The bytes of a little-endian read. -/
theorem readLe_byte (m : Map Byte) (a n i : Nat) (h : i < n) : readLe m a n / 256 ^ i % 256 = (readByte m (a + i)).toNat := by
  induction n generalizing a i with
  | zero => omega
  | succ n ih =>
    have h2 := (readByte m a).isLt
    rw [readLe]
    cases i with
    | zero => simp; omega
    | succ i =>
      rw [Nat.pow_succ, Nat.mul_comm (256 ^ i) 256, ← Nat.div_div_eq_div_mul]
      rw [show ((readByte m a).toNat + 256 * readLe m (a + 1) n) / 256 = readLe m (a + 1) n by omega, ih (a + 1) i (by omega)]
      rw [show a + 1 + i = a + (i + 1) by omega]

/-- The lanes of 16 bytes read whole. -/
theorem laneGet_readLe (m : Map Byte) (a i : Nat) (hi : i < 16) :
    laneGet 8 i (BitVec.ofNat 128 (readLe m a 16)) = (readByte m (a + i)).toNat := by
  have hlt : readLe m a 16 < 2 ^ 128 := by
    have := readLe_lt m a 16
    rwa [show (256 : Nat) ^ 16 = 2 ^ 128 by norm_num] at this
  rw [← readLe_byte m a 16 i hi, laneGet, BitVec.toNat_ofNat, Nat.mod_eq_of_lt hlt, Nat.pow_mul, show (2 : Nat) ^ 8 = 256 from rfl]

/-- Inside a masked write. -/
theorem readByte_writeMasked_in (m : Map Byte) (a mask n v i : Nat) (h : i < n) :
    readByte (writeMasked m a mask n v) (a + i) =
      if mask.testBit i then BitVec.ofNat 8 (v / 256 ^ i) else readByte m (a + i) := by
  induction n generalizing m a mask v i with
  | zero => omega
  | succ n ih =>
    rw [writeMasked]
    cases i with
    | zero =>
      rw [readByte_writeMasked _ _ _ _ _ _ (by omega)]
      by_cases hm : mask % 2 = 1
      · simp [hm, readByte_writeByte, Nat.testBit_zero]
      · simp [hm, Nat.testBit_zero]
    | succ i =>
      rw [show a + (i + 1) = a + 1 + i by omega, ih _ _ _ _ _ (by omega), Nat.testBit_succ]
      rw [Nat.pow_succ, Nat.mul_comm (256 ^ i) 256, ← Nat.div_div_eq_div_mul]
      split
      · rfl
      · split
        · rw [readByte_writeByte, if_neg (by omega)]
        · rfl

theorem width_pow (t : Nat) : 256 ^ (intWidth t / 8) = 2 ^ intWidth t := by
  unfold intWidth; split <;> rfl
theorem width_mul (t : Nat) : 8 * (intWidth t / 8) = intWidth t := by
  unfold intWidth; split <;> rfl

/-- Merging bytes under a mask. -/
theorem mergeBytes_lane (mask : BitVec 16) (old v : Vec) (i : Nat) (hi : i < 16) :
    laneGet 8 i (mergeBytes mask old v) = if mask.getLsbD i then laneGet 8 i v else laneGet 8 i old := by
  have hff : ∀ k j : Nat, j < 128 → ((0xFF#128) <<< (8 * k)).getLsbD j = (decide (8 * k ≤ j) && decide (j < 8 * k + 8)) := by
    intro k j hj
    rw [BitVec.getLsbD_shiftLeft]
    by_cases h : j < 8 * k
    · have : ¬ 8 * k ≤ j := by omega
      simp [h, this]
    · have h8 : (255#128).getLsbD (j - 8 * k) = decide (j - 8 * k < 8) := by
        have : (255 : Nat) = 2 ^ 8 - 1 := rfl
        rw [BitVec.getLsbD_ofNat, this, Nat.testBit_two_pow_sub_one]
        by_cases h9 : j - 8 * k < 8
        · simp [h9]; omega
        · simp [h9]
      rw [h8]
      have h1 : 8 * k ≤ j := by omega
      have h2 : (j - 8 * k < 8) = (j < 8 * k + 8) := by apply propext; omega
      simp [hj, h, h1, h2]
  have key : ∀ n : Nat, ∀ w j : Nat, w < 16 → j < 8 →
      ((List.range n).foldl (fun w i => if mask.getLsbD i then (w &&& ~~~ (0xFF#128 <<< (8 * i))) ||| (v &&& (0xFF#128 <<< (8 * i))) else w) old).getLsbD (8 * w + j) =
        if w < n ∧ mask.getLsbD w then v.getLsbD (8 * w + j) else old.getLsbD (8 * w + j) := by
    intro n
    induction n with
    | zero => intro w j _ _; simp
    | succ n ih =>
      intro w j hw hj
      rw [List.range_succ, List.foldl_append, List.foldl_cons, List.foldl_nil]
      have hb := ih w j hw hj
      have hlt : 8 * w + j < 128 := by omega
      by_cases hm : mask.getLsbD n = true
      · rw [if_pos hm, BitVec.getLsbD_or, BitVec.getLsbD_and, BitVec.getLsbD_and, BitVec.getLsbD_not, hff _ _ hlt, hb]
        by_cases he : w = n
        · subst he
          have h1 : 8 * w ≤ 8 * w + j := by omega
          have h2 : 8 * w + j < 8 * w + 8 := by omega
          rw [decide_eq_true h1, decide_eq_true h2, if_pos (show w < w + 1 ∧ mask.getLsbD w = true from ⟨by omega, hm⟩)]
          simp
        · have h12 : (decide (8 * n ≤ 8 * w + j) && decide (8 * w + j < 8 * n + 8)) = false := by
            rw [← Bool.decide_and, decide_eq_false_iff_not]; omega
          have hl : (w < n + 1 ∧ mask.getLsbD w = true) ↔ (w < n ∧ mask.getLsbD w = true) := by
            constructor <;> rintro ⟨a, b⟩ <;> exact ⟨by omega, b⟩
          rw [h12]
          simp only [hl, hlt, decide_true, Bool.not_false, Bool.and_true, Bool.and_false, Bool.or_false]
      · rw [if_neg hm, hb]
        by_cases he : w = n
        · subst he; simp [hm]
        · have hl : (w < n + 1 ∧ mask.getLsbD w = true) ↔ (w < n ∧ mask.getLsbD w = true) := by
            constructor <;> rintro ⟨a, b⟩ <;> exact ⟨by omega, b⟩
          simp only [hl]
  apply Nat.eq_of_testBit_eq
  intro j
  rw [laneGet_testBit]
  by_cases hj : j < 8
  · unfold mergeBytes
    rw [key 16 i j hi hj]
    split
    · rename_i h; rw [if_pos h.2, laneGet_testBit]
    · rename_i h
      rw [if_neg (fun e => h ⟨hi, e⟩), laneGet_testBit]
  · simp only [hj, decide_false, Bool.false_and]
    split <;> simp [laneGet_testBit, hj]

/-- A change of memory, then the end of the instruction. -/
theorem storesTo_gen (x : Args) (s : State) (a n : Nat) (m : Map Byte) (p : List Nat) (b : Nat → Option Byte)
    (hb : ∀ k, readByte m k = if a ≤ k ∧ k < a + n then (b (k - a)).getD (readByte s.mem k) else readByte s.mem k) :
    StoresTo x s (finishAt { entry x s with mem := m, poison := p } s.cur) a n b := by
  obtain ⟨e1, e2⟩ := entry_only x s
  have hslot : ∀ k, getSlot ({ entry x s with mem := m, poison := p } : State) k = getSlot (entry x s) k := fun k => rfl
  refine ⟨fun k => hb k, ?_, ?_, fun c => ?_, fun i hi => ?_⟩
  · rw [finishAt, getSlot_updSlot_same, hslot, e2]
  · obtain ⟨cs, hE⟩ : ∃ cs, entry x s = { s with cores := cs } := by
      refine ⟨(entry x s).cores, ?_⟩
      have h1 := e1.rest
      rw [entry_fresh] at h1
      exact h1
    rw [hE]; rfl
  · have hA : ∀ k, getCore ({ entry x s with mem := m, poison := p } : State) k = getCore (entry x s) k := fun k => rfl
    rw [finishAt]
    simp only [updSlot, getCore_setSlot, hA]
    have h2 := e1.core c
    generalize getCore (entry x s) c = q at h2 ⊢
    by_cases hc : c = coreOf s.cur
    · rw [if_pos hc, h2]
    · rw [if_neg hc, h2]
  · rw [finishAt, getSlot_updSlot, if_neg hi, hslot, e1.slots i hi]

/-- The bytes of a masked write. -/
theorem readByte_writeMasked_all (m : Map Byte) (a mask n v k : Nat) (b : Nat → Option Byte)
    (hb : ∀ i, i < n → b i = if mask.testBit i then some (BitVec.ofNat 8 (v / 256 ^ i)) else none) :
    readByte (writeMasked m a mask n v) k =
      if a ≤ k ∧ k < a + n then (b (k - a)).getD (readByte m k) else readByte m k := by
  by_cases hk : a ≤ k ∧ k < a + n
  · rw [if_pos hk]
    obtain ⟨j, rfl⟩ := Nat.exists_eq_add_of_le hk.1
    rw [readByte_writeMasked_in _ _ _ _ _ _ (by omega), Nat.add_sub_cancel_left, hb j (by omega)]
    split <;> rfl
  · rw [if_neg hk, readByte_writeMasked _ _ _ _ _ _ (by omega)]

/-- A store into the own scratchpad, then the end of the instruction. -/
theorem storesTo_of (x : Args) (s : State) (ea : Word) (n mask v : Nat) (p : List Nat) (b : Nat → Option Byte)
    (hb : ∀ i, i < n → b i = if mask.testBit i then some (BitVec.ofNat 8 (v / 256 ^ i)) else none) :
    StoresTo x s (finishAt { entry x s with mem := writeMasked s.mem (ownKey s ea) mask n v, poison := p } s.cur)
      (ownKey s ea) n b :=
  storesTo_gen x s _ n _ p b fun k => readByte_writeMasked_all _ _ _ _ _ k b hb

/-- The words of a multiple access that stays in the own scratchpad. -/
theorem ownSpace_word (ea : Word) (i n : Nat) (h : ownSpace ea 8) (hn : ea.toNat % 2 ^ 56 + 8 * n ≤ 2 ^ 18) (hi : i < n) :
    ownSpace (wordAddr ea i) 8 ∧ (wordAddr ea i).toNat % 2 ^ 56 = ea.toNat % 2 ^ 56 + 8 * i := by
  obtain ⟨h1, h2, h3⟩ := h
  have e : ea.toNat / 2 ^ 56 = 0xF0 := by
    have := congrArg BitVec.toNat h1
    rw [BitVec.toNat_ushiftRight, Nat.shiftRight_eq_div_pow] at this
    exact this
  have hw : (wordAddr ea i).toNat = ea.toNat + 8 * i := by
    unfold wordAddr
    rw [BitVec.toNat_add, BitVec.toNat_ofNat]
    omega
  refine ⟨⟨?_, by omega, by omega⟩, by omega⟩
  apply BitVec.eq_of_toNat_eq
  rw [BitVec.toNat_ushiftRight, Nat.shiftRight_eq_div_pow, hw]
  show (ea.toNat + 8 * i) / 2 ^ 56 = 0xF0
  omega

theorem mapPut_put {α : Type} (m : Map α) (i : Nat) (v w : α) : mapPut (mapPut m i v) i w = mapPut m i w := by
  fun_induction mapPut m i v <;> simp_all [mapPut]
  rw [if_neg (by omega), if_neg (by omega)]

/-- Two changes of one strand are one. -/
theorem updStrand_updStrand (s : State) (sid : Nat) (f g : Strand → Strand) :
    updStrand (updStrand s sid f) sid g = updStrand s sid fun t => g (f t) := by
  have h : getSlot (updStrand s sid f) sid = { getSlot s sid with s := f (getSlot s sid).s } := by
    rw [getSlot_updStrand, if_pos rfl]
  unfold updStrand updSlot at h ⊢
  rw [h]
  simp only [setSlot, updCore, setCore, mapPut_put, getCore, mapGet_put, if_true]

end Sys2Proof.Machine
end

