-- ==== Sys2Proof/Laws/PerInstr.lean ====
section
/-! SUPPORT. The family Encoding: the opcode map's row of every instruction rebuilds it from its fields (R117, R131). An
event has no word, and nothing to show. -/

namespace Sys2Proof.Laws.Encoding
open Sys2Proof Sys2Proof.Machine

/-- R117, R131: the row of an instruction's opcode makes the instruction from its fields. -/
def Statement (i : Instr) : Prop := ∀ op x, argsOf i = some (op, x) → ∃ r, rowOf op = some r ∧ r.make x = i ∧ r.op = op

theorem add (x : Args) : Statement (.add x) := by rintro op y ⟨⟩; exact ⟨_, rfl, rfl, rfl⟩
theorem sub (x : Args) : Statement (.sub x) := by rintro op y ⟨⟩; exact ⟨_, rfl, rfl, rfl⟩
theorem mul (x : Args) : Statement (.mul x) := by rintro op y ⟨⟩; exact ⟨_, rfl, rfl, rfl⟩
theorem mulh (x : Args) : Statement (.mulh x) := by rintro op y ⟨⟩; exact ⟨_, rfl, rfl, rfl⟩
theorem div (x : Args) : Statement (.div x) := by rintro op y ⟨⟩; exact ⟨_, rfl, rfl, rfl⟩
theorem rem (x : Args) : Statement (.rem x) := by rintro op y ⟨⟩; exact ⟨_, rfl, rfl, rfl⟩
theorem min (x : Args) : Statement (.min x) := by rintro op y ⟨⟩; exact ⟨_, rfl, rfl, rfl⟩
theorem max (x : Args) : Statement (.max x) := by rintro op y ⟨⟩; exact ⟨_, rfl, rfl, rfl⟩
theorem abs (x : Args) : Statement (.abs x) := by rintro op y ⟨⟩; exact ⟨_, rfl, rfl, rfl⟩
theorem neg (x : Args) : Statement (.neg x) := by rintro op y ⟨⟩; exact ⟨_, rfl, rfl, rfl⟩
theorem and (x : Args) : Statement (.and x) := by rintro op y ⟨⟩; exact ⟨_, rfl, rfl, rfl⟩
theorem or (x : Args) : Statement (.or x) := by rintro op y ⟨⟩; exact ⟨_, rfl, rfl, rfl⟩
theorem xor (x : Args) : Statement (.xor x) := by rintro op y ⟨⟩; exact ⟨_, rfl, rfl, rfl⟩
theorem andn (x : Args) : Statement (.andn x) := by rintro op y ⟨⟩; exact ⟨_, rfl, rfl, rfl⟩
theorem shl (x : Args) : Statement (.shl x) := by rintro op y ⟨⟩; exact ⟨_, rfl, rfl, rfl⟩
theorem shr (x : Args) : Statement (.shr x) := by rintro op y ⟨⟩; exact ⟨_, rfl, rfl, rfl⟩
theorem sar (x : Args) : Statement (.sar x) := by rintro op y ⟨⟩; exact ⟨_, rfl, rfl, rfl⟩
theorem rot (x : Args) : Statement (.rot x) := by rintro op y ⟨⟩; exact ⟨_, rfl, rfl, rfl⟩
theorem clz (x : Args) : Statement (.clz x) := by rintro op y ⟨⟩; exact ⟨_, rfl, rfl, rfl⟩
theorem ctz (x : Args) : Statement (.ctz x) := by rintro op y ⟨⟩; exact ⟨_, rfl, rfl, rfl⟩
theorem popc (x : Args) : Statement (.popc x) := by rintro op y ⟨⟩; exact ⟨_, rfl, rfl, rfl⟩
theorem ext (x : Args) : Statement (.ext x) := by rintro op y ⟨⟩; exact ⟨_, rfl, rfl, rfl⟩
theorem bfx (x : Args) : Statement (.bfx x) := by rintro op y ⟨⟩; exact ⟨_, rfl, rfl, rfl⟩
theorem bfi (x : Args) : Statement (.bfi x) := by rintro op y ⟨⟩; exact ⟨_, rfl, rfl, rfl⟩
theorem sel (x : Args) : Statement (.sel x) := by rintro op y ⟨⟩; exact ⟨_, rfl, rfl, rfl⟩
theorem mov (x : Args) : Statement (.mov x) := by rintro op y ⟨⟩; exact ⟨_, rfl, rfl, rfl⟩
theorem movw (x : Args) : Statement (.movw x) := by rintro op y ⟨⟩; exact ⟨_, rfl, rfl, rfl⟩
theorem lea (x : Args) : Statement (.lea x) := by rintro op y ⟨⟩; exact ⟨_, rfl, rfl, rfl⟩
theorem cmp (c : Cond) (x : Args) : Statement (.cmp c x) := by cases c <;> rintro op y ⟨⟩ <;> exact ⟨_, rfl, rfl, rfl⟩
theorem pand (x : Args) : Statement (.pand x) := by rintro op y ⟨⟩; exact ⟨_, rfl, rfl, rfl⟩
theorem por (x : Args) : Statement (.por x) := by rintro op y ⟨⟩; exact ⟨_, rfl, rfl, rfl⟩
theorem pxor (x : Args) : Statement (.pxor x) := by rintro op y ⟨⟩; exact ⟨_, rfl, rfl, rfl⟩
theorem pnot (x : Args) : Statement (.pnot x) := by rintro op y ⟨⟩; exact ⟨_, rfl, rfl, rfl⟩
theorem br (x : Args) : Statement (.br x) := by rintro op y ⟨⟩; exact ⟨_, rfl, rfl, rfl⟩
theorem bri (x : Args) : Statement (.bri x) := by rintro op y ⟨⟩; exact ⟨_, rfl, rfl, rfl⟩
theorem call (x : Args) : Statement (.call x) := by rintro op y ⟨⟩; exact ⟨_, rfl, rfl, rfl⟩
theorem ret (x : Args) : Statement (.ret x) := by rintro op y ⟨⟩; exact ⟨_, rfl, rfl, rfl⟩
theorem loop (n : LoopSet) (x : Args) : Statement (.loop n x) := by cases n <;> rintro op y ⟨⟩ <;> exact ⟨_, rfl, rfl, rfl⟩
theorem lbrk (n : LoopSet) (x : Args) : Statement (.lbrk n x) := by cases n <;> rintro op y ⟨⟩ <;> exact ⟨_, rfl, rfl, rfl⟩
theorem nop (x : Args) : Statement (.nop x) := by rintro op y ⟨⟩; exact ⟨_, rfl, rfl, rfl⟩
theorem halt (x : Args) : Statement (.halt x) := by rintro op y ⟨⟩; exact ⟨_, rfl, rfl, rfl⟩
theorem trap (x : Args) : Statement (.trap x) := by rintro op y ⟨⟩; exact ⟨_, rfl, rfl, rfl⟩
theorem bkpt (x : Args) : Statement (.bkpt x) := by rintro op y ⟨⟩; exact ⟨_, rfl, rfl, rfl⟩
theorem rls (x : Args) : Statement (.rls x) := by rintro op y ⟨⟩; exact ⟨_, rfl, rfl, rfl⟩
theorem mfs (x : Args) : Statement (.mfs x) := by rintro op y ⟨⟩; exact ⟨_, rfl, rfl, rfl⟩
theorem mts (x : Args) : Statement (.mts x) := by rintro op y ⟨⟩; exact ⟨_, rfl, rfl, rfl⟩
theorem time (x : Args) : Statement (.time x) := by rintro op y ⟨⟩; exact ⟨_, rfl, rfl, rfl⟩
theorem dln (x : Args) : Statement (.dln x) := by rintro op y ⟨⟩; exact ⟨_, rfl, rfl, rfl⟩
theorem dlx (x : Args) : Statement (.dlx x) := by rintro op y ⟨⟩; exact ⟨_, rfl, rfl, rfl⟩
theorem part (x : Args) : Statement (.part x) := by rintro op y ⟨⟩; exact ⟨_, rfl, rfl, rfl⟩
theorem strt (x : Args) : Statement (.strt x) := by rintro op y ⟨⟩; exact ⟨_, rfl, rfl, rfl⟩
theorem reap (x : Args) : Statement (.reap x) := by rintro op y ⟨⟩; exact ⟨_, rfl, rfl, rfl⟩
theorem evict (x : Args) : Statement (.evict x) := by rintro op y ⟨⟩; exact ⟨_, rfl, rfl, rfl⟩
theorem admitStrand (x : Args) : Statement (.admitStrand x) := by rintro op y ⟨⟩; exact ⟨_, rfl, rfl, rfl⟩
theorem yield (x : Args) : Statement (.yield x) := by rintro op y ⟨⟩; exact ⟨_, rfl, rfl, rfl⟩
theorem utake (x : Args) : Statement (.utake x) := by rintro op y ⟨⟩; exact ⟨_, rfl, rfl, rfl⟩
theorem vadd (x : Args) : Statement (.vadd x) := by rintro op y ⟨⟩; exact ⟨_, rfl, rfl, rfl⟩
theorem vsub (x : Args) : Statement (.vsub x) := by rintro op y ⟨⟩; exact ⟨_, rfl, rfl, rfl⟩
theorem vmul (x : Args) : Statement (.vmul x) := by rintro op y ⟨⟩; exact ⟨_, rfl, rfl, rfl⟩
theorem vfma (x : Args) : Statement (.vfma x) := by rintro op y ⟨⟩; exact ⟨_, rfl, rfl, rfl⟩
theorem vmin (x : Args) : Statement (.vmin x) := by rintro op y ⟨⟩; exact ⟨_, rfl, rfl, rfl⟩
theorem vmax (x : Args) : Statement (.vmax x) := by rintro op y ⟨⟩; exact ⟨_, rfl, rfl, rfl⟩
theorem vabs (x : Args) : Statement (.vabs x) := by rintro op y ⟨⟩; exact ⟨_, rfl, rfl, rfl⟩
theorem vneg (x : Args) : Statement (.vneg x) := by rintro op y ⟨⟩; exact ⟨_, rfl, rfl, rfl⟩
theorem vand (x : Args) : Statement (.vand x) := by rintro op y ⟨⟩; exact ⟨_, rfl, rfl, rfl⟩
theorem vor (x : Args) : Statement (.vor x) := by rintro op y ⟨⟩; exact ⟨_, rfl, rfl, rfl⟩
theorem vxor (x : Args) : Statement (.vxor x) := by rintro op y ⟨⟩; exact ⟨_, rfl, rfl, rfl⟩
theorem vshl (x : Args) : Statement (.vshl x) := by rintro op y ⟨⟩; exact ⟨_, rfl, rfl, rfl⟩
theorem vshr (x : Args) : Statement (.vshr x) := by rintro op y ⟨⟩; exact ⟨_, rfl, rfl, rfl⟩
theorem vsar (x : Args) : Statement (.vsar x) := by rintro op y ⟨⟩; exact ⟨_, rfl, rfl, rfl⟩
theorem vcmp (c : Cond) (x : Args) : Statement (.vcmp c x) := by cases c <;> rintro op y ⟨⟩ <;> exact ⟨_, rfl, rfl, rfl⟩
theorem vsel (x : Args) : Statement (.vsel x) := by rintro op y ⟨⟩; exact ⟨_, rfl, rfl, rfl⟩
theorem vdot (x : Args) : Statement (.vdot x) := by rintro op y ⟨⟩; exact ⟨_, rfl, rfl, rfl⟩
theorem vsum (x : Args) : Statement (.vsum x) := by rintro op y ⟨⟩; exact ⟨_, rfl, rfl, rfl⟩
theorem vexp2 (x : Args) : Statement (.vexp2 x) := by rintro op y ⟨⟩; exact ⟨_, rfl, rfl, rfl⟩
theorem vlog2 (x : Args) : Statement (.vlog2 x) := by rintro op y ⟨⟩; exact ⟨_, rfl, rfl, rfl⟩
theorem vrcp (x : Args) : Statement (.vrcp x) := by rintro op y ⟨⟩; exact ⟨_, rfl, rfl, rfl⟩
theorem vrsq (x : Args) : Statement (.vrsq x) := by rintro op y ⟨⟩; exact ⟨_, rfl, rfl, rfl⟩
theorem vtanh (x : Args) : Statement (.vtanh x) := by rintro op y ⟨⟩; exact ⟨_, rfl, rfl, rfl⟩
theorem vexpn (x : Args) : Statement (.vexpn x) := by rintro op y ⟨⟩; exact ⟨_, rfl, rfl, rfl⟩
theorem vmaxe (x : Args) : Statement (.vmaxe x) := by rintro op y ⟨⟩; exact ⟨_, rfl, rfl, rfl⟩
theorem vldexp (x : Args) : Statement (.vldexp x) := by rintro op y ⟨⟩; exact ⟨_, rfl, rfl, rfl⟩
theorem vrmax (x : Args) : Statement (.vrmax x) := by rintro op y ⟨⟩; exact ⟨_, rfl, rfl, rfl⟩
theorem vcvt (x : Args) : Statement (.vcvt x) := by rintro op y ⟨⟩; exact ⟨_, rfl, rfl, rfl⟩
theorem vperm (x : Args) : Statement (.vperm x) := by rintro op y ⟨⟩; exact ⟨_, rfl, rfl, rfl⟩
theorem vsplat (x : Args) : Statement (.vsplat x) := by rintro op y ⟨⟩; exact ⟨_, rfl, rfl, rfl⟩
theorem vins (x : Args) : Statement (.vins x) := by rintro op y ⟨⟩; exact ⟨_, rfl, rfl, rfl⟩
theorem vext (x : Args) : Statement (.vext x) := by rintro op y ⟨⟩; exact ⟨_, rfl, rfl, rfl⟩
theorem ld (x : Args) : Statement (.ld x) := by rintro op y ⟨⟩; exact ⟨_, rfl, rfl, rfl⟩
theorem st (x : Args) : Statement (.st x) := by rintro op y ⟨⟩; exact ⟨_, rfl, rfl, rfl⟩
theorem vld (x : Args) : Statement (.vld x) := by rintro op y ⟨⟩; exact ⟨_, rfl, rfl, rfl⟩
theorem vst (x : Args) : Statement (.vst x) := by rintro op y ⟨⟩; exact ⟨_, rfl, rfl, rfl⟩
theorem ldm (x : Args) : Statement (.ldm x) := by rintro op y ⟨⟩; exact ⟨_, rfl, rfl, rfl⟩
theorem stm (x : Args) : Statement (.stm x) := by rintro op y ⟨⟩; exact ⟨_, rfl, rfl, rfl⟩
theorem acq (c : Scope) (x : Args) : Statement (.acq c x) := by cases c <;> rintro op y ⟨⟩ <;> exact ⟨_, rfl, rfl, rfl⟩
theorem rel (c : Scope) (x : Args) : Statement (.rel c x) := by cases c <;> rintro op y ⟨⟩ <;> exact ⟨_, rfl, rfl, rfl⟩
theorem fnc (c : Scope) (x : Args) : Statement (.fnc c x) := by cases c <;> rintro op y ⟨⟩ <;> exact ⟨_, rfl, rfl, rfl⟩
theorem send (x : Args) : Statement (.send x) := by rintro op y ⟨⟩; exact ⟨_, rfl, rfl, rfl⟩
theorem recv (x : Args) : Statement (.recv x) := by rintro op y ⟨⟩; exact ⟨_, rfl, rfl, rfl⟩
theorem putr (x : Args) : Statement (.putr x) := by rintro op y ⟨⟩; exact ⟨_, rfl, rfl, rfl⟩
theorem fec (x : Args) : Statement (.fec x) := by rintro op y ⟨⟩; exact ⟨_, rfl, rfl, rfl⟩
theorem feq (x : Args) : Statement (.feq x) := by rintro op y ⟨⟩; exact ⟨_, rfl, rfl, rfl⟩
theorem aadd (x : Args) : Statement (.aadd x) := by rintro op y ⟨⟩; exact ⟨_, rfl, rfl, rfl⟩
theorem aand (x : Args) : Statement (.aand x) := by rintro op y ⟨⟩; exact ⟨_, rfl, rfl, rfl⟩
theorem aor (x : Args) : Statement (.aor x) := by rintro op y ⟨⟩; exact ⟨_, rfl, rfl, rfl⟩
theorem axor (x : Args) : Statement (.axor x) := by rintro op y ⟨⟩; exact ⟨_, rfl, rfl, rfl⟩
theorem amin (x : Args) : Statement (.amin x) := by rintro op y ⟨⟩; exact ⟨_, rfl, rfl, rfl⟩
theorem amax (x : Args) : Statement (.amax x) := by rintro op y ⟨⟩; exact ⟨_, rfl, rfl, rfl⟩
theorem axch (x : Args) : Statement (.axch x) := by rintro op y ⟨⟩; exact ⟨_, rfl, rfl, rfl⟩
theorem acas (x : Args) : Statement (.acas x) := by rintro op y ⟨⟩; exact ⟨_, rfl, rfl, rfl⟩
theorem ainc (x : Args) : Statement (.ainc x) := by rintro op y ⟨⟩; exact ⟨_, rfl, rfl, rfl⟩
theorem hbAlloc (x : Args) : Statement (.hbAlloc x) := by rintro op y ⟨⟩; exact ⟨_, rfl, rfl, rfl⟩
theorem hbJoin (x : Args) : Statement (.hbJoin x) := by rintro op y ⟨⟩; exact ⟨_, rfl, rfl, rfl⟩
theorem hbArrive (x : Args) : Statement (.hbArrive x) := by rintro op y ⟨⟩; exact ⟨_, rfl, rfl, rfl⟩
theorem hbWait (x : Args) : Statement (.hbWait x) := by rintro op y ⟨⟩; exact ⟨_, rfl, rfl, rfl⟩
theorem hbLeave (x : Args) : Statement (.hbLeave x) := by rintro op y ⟨⟩; exact ⟨_, rfl, rfl, rfl⟩
theorem hbFree (x : Args) : Statement (.hbFree x) := by rintro op y ⟨⟩; exact ⟨_, rfl, rfl, rfl⟩
theorem mbInit (x : Args) : Statement (.mbInit x) := by rintro op y ⟨⟩; exact ⟨_, rfl, rfl, rfl⟩
theorem mbArrive (x : Args) : Statement (.mbArrive x) := by rintro op y ⟨⟩; exact ⟨_, rfl, rfl, rfl⟩
theorem mbExpect (x : Args) : Statement (.mbExpect x) := by rintro op y ⟨⟩; exact ⟨_, rfl, rfl, rfl⟩
theorem mbWait (x : Args) : Statement (.mbWait x) := by rintro op y ⟨⟩; exact ⟨_, rfl, rfl, rfl⟩
theorem chOpen (x : Args) : Statement (.chOpen x) := by rintro op y ⟨⟩; exact ⟨_, rfl, rfl, rfl⟩
theorem rgProd (x : Args) : Statement (.rgProd x) := by rintro op y ⟨⟩; exact ⟨_, rfl, rfl, rfl⟩
theorem rgPut (x : Args) : Statement (.rgPut x) := by rintro op y ⟨⟩; exact ⟨_, rfl, rfl, rfl⟩
theorem rgGet (x : Args) : Statement (.rgGet x) := by rintro op y ⟨⟩; exact ⟨_, rfl, rfl, rfl⟩
theorem rgEos (x : Args) : Statement (.rgEos x) := by rintro op y ⟨⟩; exact ⟨_, rfl, rfl, rfl⟩
theorem owe (x : Args) : Statement (.owe x) := by rintro op y ⟨⟩; exact ⟨_, rfl, rfl, rfl⟩
theorem unowe (x : Args) : Statement (.unowe x) := by rintro op y ⟨⟩; exact ⟨_, rfl, rfl, rfl⟩
theorem tdset (x : Args) : Statement (.tdset x) := by rintro op y ⟨⟩; exact ⟨_, rfl, rfl, rfl⟩
theorem tdget (x : Args) : Statement (.tdget x) := by rintro op y ⟨⟩; exact ⟨_, rfl, rfl, rfl⟩
theorem mxq (x : Args) : Statement (.mxq x) := by rintro op y ⟨⟩; exact ⟨_, rfl, rfl, rfl⟩
theorem cld (x : Args) : Statement (.cld x) := by rintro op y ⟨⟩; exact ⟨_, rfl, rfl, rfl⟩
theorem cpq (x : Args) : Statement (.cpq x) := by rintro op y ⟨⟩; exact ⟨_, rfl, rfl, rfl⟩
theorem cpr (x : Args) : Statement (.cpr x) := by rintro op y ⟨⟩; exact ⟨_, rfl, rfl, rfl⟩
theorem jwait (x : Args) : Statement (.jwait x) := by rintro op y ⟨⟩; exact ⟨_, rfl, rfl, rfl⟩
theorem jwaitp (x : Args) : Statement (.jwaitp x) := by rintro op y ⟨⟩; exact ⟨_, rfl, rfl, rfl⟩
theorem jstat (x : Args) : Statement (.jstat x) := by rintro op y ⟨⟩; exact ⟨_, rfl, rfl, rfl⟩
theorem jcan (x : Args) : Statement (.jcan x) := by rintro op y ⟨⟩; exact ⟨_, rfl, rfl, rfl⟩
theorem qfence (x : Args) : Statement (.qfence x) := by rintro op y ⟨⟩; exact ⟨_, rfl, rfl, rfl⟩
theorem tcset (x : Args) : Statement (.tcset x) := by rintro op y ⟨⟩; exact ⟨_, rfl, rfl, rfl⟩
theorem tcadd (x : Args) : Statement (.tcadd x) := by rintro op y ⟨⟩; exact ⟨_, rfl, rfl, rfl⟩
theorem tcwait (x : Args) : Statement (.tcwait x) := by rintro op y ⟨⟩; exact ⟨_, rfl, rfl, rfl⟩
theorem trig (x : Args) : Statement (.trig x) := by rintro op y ⟨⟩; exact ⟨_, rfl, rfl, rfl⟩
theorem launch (x : Args) : Statement (.launch x) := by rintro op y ⟨⟩; exact ⟨_, rfl, rfl, rfl⟩
theorem spawn (x : Args) : Statement (.spawn x) := by rintro op y ⟨⟩; exact ⟨_, rfl, rfl, rfl⟩
theorem grpMake (x : Args) : Statement (.grpMake x) := by rintro op y ⟨⟩; exact ⟨_, rfl, rfl, rfl⟩
theorem grpJoin (x : Args) : Statement (.grpJoin x) := by rintro op y ⟨⟩; exact ⟨_, rfl, rfl, rfl⟩
theorem grpInfo (x : Args) : Statement (.grpInfo x) := by rintro op y ⟨⟩; exact ⟨_, rfl, rfl, rfl⟩
theorem cpost (x : Args) : Statement (.cpost x) := by rintro op y ⟨⟩; exact ⟨_, rfl, rfl, rfl⟩
theorem cwait (x : Args) : Statement (.cwait x) := by rintro op y ⟨⟩; exact ⟨_, rfl, rfl, rfl⟩
theorem cstat (x : Args) : Statement (.cstat x) := by rintro op y ⟨⟩; exact ⟨_, rfl, rfl, rfl⟩
theorem tree (x : Args) : Statement (.tree x) := by rintro op y ⟨⟩; exact ⟨_, rfl, rfl, rfl⟩
theorem kvmap (x : Args) : Statement (.kvmap x) := by rintro op y ⟨⟩; exact ⟨_, rfl, rfl, rfl⟩
theorem kvref (x : Args) : Statement (.kvref x) := by rintro op y ⟨⟩; exact ⟨_, rfl, rfl, rfl⟩
theorem kvfork (x : Args) : Statement (.kvfork x) := by rintro op y ⟨⟩; exact ⟨_, rfl, rfl, rfl⟩
theorem kvw (x : Args) : Statement (.kvw x) := by rintro op y ⟨⟩; exact ⟨_, rfl, rfl, rfl⟩
theorem kvdem (x : Args) : Statement (.kvdem x) := by rintro op y ⟨⟩; exact ⟨_, rfl, rfl, rfl⟩
theorem domInfo (x : Args) : Statement (.domInfo x) := by rintro op y ⟨⟩; exact ⟨_, rfl, rfl, rfl⟩
theorem endStrand (uid : Nat) : Statement (.endStrand uid) := by intro op x h; cases h
theorem ibufLineLands (core line : Nat) : Statement (.ibufLineLands core line) := by intro op x h; cases h
theorem requestPerformed (k : Nat) : Statement (.requestPerformed k) := by intro op x h; cases h
theorem loadDataLands (k : Nat) : Statement (.loadDataLands k) := by intro op x h; cases h
theorem accessAcknowledged (k : Nat) : Statement (.accessAcknowledged k) := by intro op x h; cases h
theorem scopeMissReissue (k : Nat) : Statement (.scopeMissReissue k) := by intro op x h; cases h
theorem atomicGrant (k : Nat) : Statement (.atomicGrant k) := by intro op x h; cases h
theorem atomicRelease (k : Nat) : Statement (.atomicRelease k) := by intro op x h; cases h
theorem ringPacketHop (k : Nat) : Statement (.ringPacketHop k) := by intro op x h; cases h
theorem meshFlitHop (k : Nat) : Statement (.meshFlitHop k) := by intro op x h; cases h
theorem inboxPoolGrant (core : Nat) : Statement (.inboxPoolGrant core) := by intro op x h; cases h
theorem inboxMessageArrives (k : Nat) : Statement (.inboxMessageArrives k) := by intro op x h; cases h
theorem channelSlotGrant (k : Nat) : Statement (.channelSlotGrant k) := by intro op x h; cases h
theorem channelMessageLands (k : Nat) : Statement (.channelMessageLands k) := by intro op x h; cases h
theorem ringSlotReserve (k : Nat) : Statement (.ringSlotReserve k) := by intro op x h; cases h
theorem ringDataLands (k : Nat) : Statement (.ringDataLands k) := by intro op x h; cases h
theorem ringTokenArrives (k : Nat) : Statement (.ringTokenArrives k) := by intro op x h; cases h
theorem hbEventPerformed (k : Nat) : Statement (.hbEventPerformed k) := by intro op x h; cases h
theorem mbEventPerformed (k : Nat) : Statement (.mbEventPerformed k) := by intro op x h; cases h
theorem tcEventPerformed (k : Nat) : Statement (.tcEventPerformed k) := by intro op x h; cases h
theorem putrArrives (k : Nat) : Statement (.putrArrives k) := by intro op x h; cases h
theorem cprWordLands (k : Nat) : Statement (.cprWordLands k) := by intro op x h; cases h
theorem waitWake (sid : Nat) : Statement (.waitWake sid) := by intro op x h; cases h
theorem waitTimeout (uid : Nat) : Statement (.waitTimeout uid) := by intro op x h; cases h
theorem deadlineExpiry (uid : Nat) : Statement (.deadlineExpiry uid) := by intro op x h; cases h
theorem promiseMissed (blk q seq : Nat) : Statement (.promiseMissed blk q seq) := by intro op x h; cases h
theorem withholdNoticeArrives (k : Nat) : Statement (.withholdNoticeArrives k) := by intro op x h; cases h
theorem unwithholdNoticeArrives (k : Nat) : Statement (.unwithholdNoticeArrives k) := by intro op x h; cases h
theorem cordonLeave (uid : Nat) : Statement (.cordonLeave uid) := by intro op x h; cases h
theorem rootReady (uid : Nat) : Statement (.rootReady uid) := by intro op x h; cases h
theorem trapRecordDelivery (k : Nat) : Statement (.trapRecordDelivery k) := by intro op x h; cases h
theorem trapqRecordTimeout (k : Nat) : Statement (.trapqRecordTimeout k) := by intro op x h; cases h
theorem evictComplete (uid : Nat) : Statement (.evictComplete uid) := by intro op x h; cases h
theorem admitComplete (uid : Nat) : Statement (.admitComplete uid) := by intro op x h; cases h
theorem autoEvict (core : Nat) : Statement (.autoEvict core) := by intro op x h; cases h
theorem autoAdmit (core : Nat) : Statement (.autoAdmit core) := by intro op x h; cases h
theorem queueEntryGrant (blk q : Nat) : Statement (.queueEntryGrant blk q) := by intro op x h; cases h
theorem jobStart (blk q : Nat) : Statement (.jobStart blk q) := by intro op x h; cases h
theorem jobEnd (blk q : Nat) : Statement (.jobEnd blk q) := by intro op x h; cases h
theorem jobCancelStop (blk q : Nat) : Statement (.jobCancelStop blk q) := by intro op x h; cases h
theorem fenceEnd (blk seq : Nat) : Statement (.fenceEnd blk seq) := by intro op x h; cases h
theorem treeRoundComplete (ctx dist chan : Nat) : Statement (.treeRoundComplete ctx dist chan) := by intro op x h; cases h
theorem hostSubmission (ctx slot : Nat) : Statement (.hostSubmission ctx slot) := by intro op x h; cases h
theorem unitRelease (entry : Nat) : Statement (.unitRelease entry) := by intro op x h; cases h
theorem unitOffer (k : Nat) : Statement (.unitOffer k) := by intro op x h; cases h
theorem cornerQueueReoffer (blk : Nat) : Statement (.cornerQueueReoffer blk) := by intro op x h; cases h
theorem launchEnd (entry : Nat) : Statement (.launchEnd entry) := by intro op x h; cases h
theorem wcancel (ctx : Nat) (v : Word) : Statement (.wcancel ctx v) := by intro op x h; cases h
theorem plazaPostArrival (gid k member : Nat) (sig : PostSig) : Statement (.plazaPostArrival gid k member sig) := by intro op x h; cases h
theorem ticketArrives (gid k : Nat) (rank : Rank) : Statement (.ticketArrives gid k rank) := by intro op x h; cases h
theorem collectiveEnd (post : Nat) : Statement (.collectiveEnd post) := by intro op x h; cases h
theorem pageWalkComplete (k : Nat) : Statement (.pageWalkComplete k) := by intro op x h; cases h
theorem missMergeEntryGrant (dist : Nat) : Statement (.missMergeEntryGrant dist) := by intro op x h; cases h
theorem tlbinvPage (v : Word) : Statement (.tlbinvPage v) := by intro op x h; cases h
theorem tlbinvKey (v : Word) : Statement (.tlbinvKey v) := by intro op x h; cases h
theorem tlbinvContext (v : Word) : Statement (.tlbinvContext v) := by intro op x h; cases h
theorem kvEventPerformed (k : Nat) : Statement (.kvEventPerformed k) := by intro op x h; cases h
theorem kvCopyEnd (k : Nat) : Statement (.kvCopyEnd k) := by intro op x h; cases h
theorem kvFlip (k : Nat) : Statement (.kvFlip k) := by intro op x h; cases h
theorem frameRetire (k : Nat) : Statement (.frameRetire k) := by intro op x h; cases h
theorem scrubEnd (blk : Nat) : Statement (.scrubEnd blk) := by intro op x h; cases h
theorem ctxCreate (ctx : Nat) : Statement (.ctxCreate ctx) := by intro op x h; cases h
theorem ctxAdmit (ctx : Nat) : Statement (.ctxAdmit ctx) := by intro op x h; cases h
theorem ctxStart (ctx : Nat) : Statement (.ctxStart ctx) := by intro op x h; cases h
theorem ctxSwitch (ctx succ : Nat) : Statement (.ctxSwitch ctx succ) := by intro op x h; cases h
theorem ctxStop (ctx : Nat) : Statement (.ctxStop ctx) := by intro op x h; cases h
theorem ctxcmdHold (ctx : Nat) (hold : Bool) : Statement (.ctxcmdHold ctx hold) := by intro op x h; cases h
theorem slotZeroStart (core : Nat) : Statement (.slotZeroStart core) := by intro op x h; cases h
theorem gangSwitch (ctx : Nat) : Statement (.gangSwitch ctx) := by intro op x h; cases h
theorem contextSaveComplete (ctx : Nat) : Statement (.contextSaveComplete ctx) := by intro op x h; cases h
theorem lateDeviceEvent (ctx : Nat) : Statement (.lateDeviceEvent ctx) := by intro op x h; cases h
theorem contextRestore (ctx : Nat) : Statement (.contextRestore ctx) := by intro op x h; cases h
theorem cutClosed (ctx : Nat) : Statement (.cutClosed ctx) := by intro op x h; cases h
theorem unrecoverableFault (ctx : Nat) : Statement (.unrecoverableFault ctx) := by intro op x h; cases h
theorem teardownComplete (ctx : Nat) : Statement (.teardownComplete ctx) := by intro op x h; cases h
theorem deadlockSample (ctx : Nat) : Statement (.deadlockSample ctx) := by intro op x h; cases h
theorem dbgStop (ctx sid : Nat) : Statement (.dbgStop ctx sid) := by intro op x h; cases h
theorem dbgRelease (ctx sid : Nat) : Statement (.dbgRelease ctx sid) := by intro op x h; cases h
theorem dbgHold (ctx sid : Nat) : Statement (.dbgHold ctx sid) := by intro op x h; cases h
theorem pwrlimWrite (v : Word) : Statement (.pwrlimWrite v) := by intro op x h; cases h
theorem rateLimitRelease (k : Nat) : Statement (.rateLimitRelease k) := by intro op x h; cases h
theorem registerWrite (core ctx off : Nat) (v : Word) : Statement (.registerWrite core ctx off v) := by intro op x h; cases h
theorem domForm (m : Nat) : Statement (.domForm m) := by intro op x h; cases h
theorem domJoin (m plaza : Nat) : Statement (.domJoin m plaza) := by intro op x h; cases h
theorem domEvict (m : Nat) : Statement (.domEvict m) := by intro op x h; cases h
theorem tickBoundary : Statement (.tickBoundary) := by intro op x h; cases h
theorem jobFault (blk q cls step : Nat) (info : Word) : Statement (.jobFault blk q cls step info) := by intro op x h; cases h
theorem bareTicketArrives (dom : Nat) : Statement (.bareTicketArrives dom) := by intro op x h; cases h
theorem collectiveStart : Statement (.collectiveStart) := by intro op x h; cases h
theorem contributionMerged (gid k member : Nat) (data : List Nat) : Statement (.contributionMerged gid k member data) := by intro op x h; cases h
theorem collectiveFaultAbort (gid k : Nat) : Statement (.collectiveFaultAbort gid k) := by intro op x h; cases h
theorem errlogCapture (src pa : Nat) : Statement (.errlogCapture src pa) := by intro op x h; cases h
theorem errlogClear : Statement (.errlogClear) := by intro op x h; cases h
theorem powerWindow : Statement (.powerWindow) := by intro op x h; cases h
theorem domLeave : Statement (.domLeave) := by intro op x h; cases h
theorem joinRequest (m : Nat) : Statement (.joinRequest m) := by intro op x h; cases h
theorem getVersion (r : SpdmReq) : Statement (.getVersion r) := by intro op x h; cases h
theorem getCapabilities (r : SpdmReq) : Statement (.getCapabilities r) := by intro op x h; cases h
theorem negotiateAlgorithms (r : SpdmReq) : Statement (.negotiateAlgorithms r) := by intro op x h; cases h
theorem getDigests (r : SpdmReq) : Statement (.getDigests r) := by intro op x h; cases h
theorem getCertificate (r : SpdmReq) : Statement (.getCertificate r) := by intro op x h; cases h
theorem getMeasurements (r : SpdmReq) : Statement (.getMeasurements r) := by intro op x h; cases h
theorem keyExchange (r : SpdmReq) : Statement (.keyExchange r) := by intro op x h; cases h
theorem finish (r : SpdmReq) : Statement (.finish r) := by intro op x h; cases h
theorem ideKm (r : SpdmReq) : Statement (.ideKm r) := by intro op x h; cases h
theorem hostTlpReceive (t : Tlp) : Statement (.hostTlpReceive t) := by intro op x h; cases h
theorem rekeyStart : Statement (.rekeyStart) := by intro op x h; cases h
theorem rekeyArrive (m : Nat) : Statement (.rekeyArrive m) := by intro op x h; cases h
theorem rekeyClose : Statement (.rekeyClose) := by intro op x h; cases h
theorem heartbeat (m : Nat) : Statement (.heartbeat m) := by intro op x h; cases h
theorem memberLost (m : Nat) : Statement (.memberLost m) := by intro op x h; cases h
theorem plazaLost : Statement (.plazaLost) := by intro op x h; cases h
theorem timeExchange (ref : Nat) : Statement (.timeExchange ref) := by intro op x h; cases h
theorem chiplinkFlitReceive (port : Nat) (f : Flit) : Statement (.chiplinkFlitReceive port f) := by intro op x h; cases h
theorem linkAck (port lseq : Nat) : Statement (.linkAck port lseq) := by intro op x h; cases h
theorem linkNak (port lseq : Nat) : Statement (.linkNak port lseq) := by intro op x h; cases h
theorem fabricPacketArrival (p : FabPkt) : Statement (.fabricPacketArrival p) := by intro op x h; cases h
theorem retransmissionRequest (peer seq : Nat) : Statement (.retransmissionRequest peer seq) := by intro op x h; cases h
theorem e2eAck (peer seq grant : Nat) : Statement (.e2eAck peer seq grant) := by intro op x h; cases h
theorem e2eAckTimer (peer : Nat) : Statement (.e2eAckTimer peer) := by intro op x h; cases h
theorem streamResendTimeout (peer : Nat) : Statement (.streamResendTimeout peer) := by intro op x h; cases h
theorem reset : Statement (.reset) := by intro op x h; cases h
theorem functionReady (bit : Nat) : Statement (.functionReady bit) := by intro op x h; cases h
theorem districtFailure (d : Nat) : Statement (.districtFailure d) := by intro op x h; cases h
theorem plazaGroupRequest (m ctx : Nat) (entries : List Nat) : Statement (.plazaGroupRequest m ctx entries) := by intro op x h; cases h
theorem bareTicketRequest (m : Nat) : Statement (.bareTicketRequest m) := by intro op x h; cases h
theorem spdmResponseArrives (code : Nat) (body : List Byte) : Statement (.spdmResponseArrives code body) := by intro op x h; cases h
theorem rekeyMessageArrives (gen : Nat) (members : List Nat) (secret : List Byte) : Statement (.rekeyMessageArrives gen members secret) := by intro op x h; cases h
theorem registerFileError (sid cls idx : Nat) : Statement (.registerFileError sid cls idx) := by intro op x h; cases h
theorem functionFailure (bit : Nat) : Statement (.functionFailure bit) := by intro op x h; cases h

end Sys2Proof.Laws.Encoding

namespace Sys2Proof.Machine
open Sys2Proof

/-- R131: every row makes an instruction of its opcode. -/
theorem rows_make : ∀ r ∈ rows, ∀ x, argsOf (r.make x) = some (r.op, x) := by
  intro r h x
  simp only [rows, List.mem_append] at h
  rcases h with ((((h | h) | h) | h) | h) | h <;>
    simp only [scalarRows, systemRows, vectorRows, memoryRows, syncRows, engineRows, List.mem_cons, List.not_mem_nil,
      or_false] at h <;>
    (repeat' (rcases h with rfl | h)) <;> first | rfl | (subst h; rfl)

/-- A row that is found is a row of the map with that opcode. -/
theorem rowOf_some (op : Nat) (r : Row) (h : rowOf op = some r) : r ∈ rows ∧ r.op = op :=
  ⟨List.mem_of_find?_eq_some h, by simpa using List.find?_some h⟩

/-- R117, R131: the row of any instruction's opcode makes it from its fields. -/
theorem row_of_instr (i : Instr) : Laws.Encoding.Statement i :=
  match i with
  | .add x => Laws.Encoding.add x
  | .sub x => Laws.Encoding.sub x
  | .mul x => Laws.Encoding.mul x
  | .mulh x => Laws.Encoding.mulh x
  | .div x => Laws.Encoding.div x
  | .rem x => Laws.Encoding.rem x
  | .min x => Laws.Encoding.min x
  | .max x => Laws.Encoding.max x
  | .abs x => Laws.Encoding.abs x
  | .neg x => Laws.Encoding.neg x
  | .and x => Laws.Encoding.and x
  | .or x => Laws.Encoding.or x
  | .xor x => Laws.Encoding.xor x
  | .andn x => Laws.Encoding.andn x
  | .shl x => Laws.Encoding.shl x
  | .shr x => Laws.Encoding.shr x
  | .sar x => Laws.Encoding.sar x
  | .rot x => Laws.Encoding.rot x
  | .clz x => Laws.Encoding.clz x
  | .ctz x => Laws.Encoding.ctz x
  | .popc x => Laws.Encoding.popc x
  | .ext x => Laws.Encoding.ext x
  | .bfx x => Laws.Encoding.bfx x
  | .bfi x => Laws.Encoding.bfi x
  | .sel x => Laws.Encoding.sel x
  | .mov x => Laws.Encoding.mov x
  | .movw x => Laws.Encoding.movw x
  | .lea x => Laws.Encoding.lea x
  | .cmp c x => Laws.Encoding.cmp c x
  | .pand x => Laws.Encoding.pand x
  | .por x => Laws.Encoding.por x
  | .pxor x => Laws.Encoding.pxor x
  | .pnot x => Laws.Encoding.pnot x
  | .br x => Laws.Encoding.br x
  | .bri x => Laws.Encoding.bri x
  | .call x => Laws.Encoding.call x
  | .ret x => Laws.Encoding.ret x
  | .loop n x => Laws.Encoding.loop n x
  | .lbrk n x => Laws.Encoding.lbrk n x
  | .nop x => Laws.Encoding.nop x
  | .halt x => Laws.Encoding.halt x
  | .trap x => Laws.Encoding.trap x
  | .bkpt x => Laws.Encoding.bkpt x
  | .rls x => Laws.Encoding.rls x
  | .mfs x => Laws.Encoding.mfs x
  | .mts x => Laws.Encoding.mts x
  | .time x => Laws.Encoding.time x
  | .dln x => Laws.Encoding.dln x
  | .dlx x => Laws.Encoding.dlx x
  | .part x => Laws.Encoding.part x
  | .strt x => Laws.Encoding.strt x
  | .reap x => Laws.Encoding.reap x
  | .evict x => Laws.Encoding.evict x
  | .admitStrand x => Laws.Encoding.admitStrand x
  | .yield x => Laws.Encoding.yield x
  | .utake x => Laws.Encoding.utake x
  | .vadd x => Laws.Encoding.vadd x
  | .vsub x => Laws.Encoding.vsub x
  | .vmul x => Laws.Encoding.vmul x
  | .vfma x => Laws.Encoding.vfma x
  | .vmin x => Laws.Encoding.vmin x
  | .vmax x => Laws.Encoding.vmax x
  | .vabs x => Laws.Encoding.vabs x
  | .vneg x => Laws.Encoding.vneg x
  | .vand x => Laws.Encoding.vand x
  | .vor x => Laws.Encoding.vor x
  | .vxor x => Laws.Encoding.vxor x
  | .vshl x => Laws.Encoding.vshl x
  | .vshr x => Laws.Encoding.vshr x
  | .vsar x => Laws.Encoding.vsar x
  | .vcmp c x => Laws.Encoding.vcmp c x
  | .vsel x => Laws.Encoding.vsel x
  | .vdot x => Laws.Encoding.vdot x
  | .vsum x => Laws.Encoding.vsum x
  | .vexp2 x => Laws.Encoding.vexp2 x
  | .vlog2 x => Laws.Encoding.vlog2 x
  | .vrcp x => Laws.Encoding.vrcp x
  | .vrsq x => Laws.Encoding.vrsq x
  | .vtanh x => Laws.Encoding.vtanh x
  | .vexpn x => Laws.Encoding.vexpn x
  | .vmaxe x => Laws.Encoding.vmaxe x
  | .vldexp x => Laws.Encoding.vldexp x
  | .vrmax x => Laws.Encoding.vrmax x
  | .vcvt x => Laws.Encoding.vcvt x
  | .vperm x => Laws.Encoding.vperm x
  | .vsplat x => Laws.Encoding.vsplat x
  | .vins x => Laws.Encoding.vins x
  | .vext x => Laws.Encoding.vext x
  | .ld x => Laws.Encoding.ld x
  | .st x => Laws.Encoding.st x
  | .vld x => Laws.Encoding.vld x
  | .vst x => Laws.Encoding.vst x
  | .ldm x => Laws.Encoding.ldm x
  | .stm x => Laws.Encoding.stm x
  | .acq c x => Laws.Encoding.acq c x
  | .rel c x => Laws.Encoding.rel c x
  | .fnc c x => Laws.Encoding.fnc c x
  | .send x => Laws.Encoding.send x
  | .recv x => Laws.Encoding.recv x
  | .putr x => Laws.Encoding.putr x
  | .fec x => Laws.Encoding.fec x
  | .feq x => Laws.Encoding.feq x
  | .aadd x => Laws.Encoding.aadd x
  | .aand x => Laws.Encoding.aand x
  | .aor x => Laws.Encoding.aor x
  | .axor x => Laws.Encoding.axor x
  | .amin x => Laws.Encoding.amin x
  | .amax x => Laws.Encoding.amax x
  | .axch x => Laws.Encoding.axch x
  | .acas x => Laws.Encoding.acas x
  | .ainc x => Laws.Encoding.ainc x
  | .hbAlloc x => Laws.Encoding.hbAlloc x
  | .hbJoin x => Laws.Encoding.hbJoin x
  | .hbArrive x => Laws.Encoding.hbArrive x
  | .hbWait x => Laws.Encoding.hbWait x
  | .hbLeave x => Laws.Encoding.hbLeave x
  | .hbFree x => Laws.Encoding.hbFree x
  | .mbInit x => Laws.Encoding.mbInit x
  | .mbArrive x => Laws.Encoding.mbArrive x
  | .mbExpect x => Laws.Encoding.mbExpect x
  | .mbWait x => Laws.Encoding.mbWait x
  | .chOpen x => Laws.Encoding.chOpen x
  | .rgProd x => Laws.Encoding.rgProd x
  | .rgPut x => Laws.Encoding.rgPut x
  | .rgGet x => Laws.Encoding.rgGet x
  | .rgEos x => Laws.Encoding.rgEos x
  | .owe x => Laws.Encoding.owe x
  | .unowe x => Laws.Encoding.unowe x
  | .tdset x => Laws.Encoding.tdset x
  | .tdget x => Laws.Encoding.tdget x
  | .mxq x => Laws.Encoding.mxq x
  | .cld x => Laws.Encoding.cld x
  | .cpq x => Laws.Encoding.cpq x
  | .cpr x => Laws.Encoding.cpr x
  | .jwait x => Laws.Encoding.jwait x
  | .jwaitp x => Laws.Encoding.jwaitp x
  | .jstat x => Laws.Encoding.jstat x
  | .jcan x => Laws.Encoding.jcan x
  | .qfence x => Laws.Encoding.qfence x
  | .tcset x => Laws.Encoding.tcset x
  | .tcadd x => Laws.Encoding.tcadd x
  | .tcwait x => Laws.Encoding.tcwait x
  | .trig x => Laws.Encoding.trig x
  | .launch x => Laws.Encoding.launch x
  | .spawn x => Laws.Encoding.spawn x
  | .grpMake x => Laws.Encoding.grpMake x
  | .grpJoin x => Laws.Encoding.grpJoin x
  | .grpInfo x => Laws.Encoding.grpInfo x
  | .cpost x => Laws.Encoding.cpost x
  | .cwait x => Laws.Encoding.cwait x
  | .cstat x => Laws.Encoding.cstat x
  | .tree x => Laws.Encoding.tree x
  | .kvmap x => Laws.Encoding.kvmap x
  | .kvref x => Laws.Encoding.kvref x
  | .kvfork x => Laws.Encoding.kvfork x
  | .kvw x => Laws.Encoding.kvw x
  | .kvdem x => Laws.Encoding.kvdem x
  | .domInfo x => Laws.Encoding.domInfo x
  | .endStrand uid => Laws.Encoding.endStrand uid
  | .ibufLineLands core line => Laws.Encoding.ibufLineLands core line
  | .requestPerformed k => Laws.Encoding.requestPerformed k
  | .loadDataLands k => Laws.Encoding.loadDataLands k
  | .accessAcknowledged k => Laws.Encoding.accessAcknowledged k
  | .scopeMissReissue k => Laws.Encoding.scopeMissReissue k
  | .atomicGrant k => Laws.Encoding.atomicGrant k
  | .atomicRelease k => Laws.Encoding.atomicRelease k
  | .ringPacketHop k => Laws.Encoding.ringPacketHop k
  | .meshFlitHop k => Laws.Encoding.meshFlitHop k
  | .inboxPoolGrant core => Laws.Encoding.inboxPoolGrant core
  | .inboxMessageArrives k => Laws.Encoding.inboxMessageArrives k
  | .channelSlotGrant k => Laws.Encoding.channelSlotGrant k
  | .channelMessageLands k => Laws.Encoding.channelMessageLands k
  | .ringSlotReserve k => Laws.Encoding.ringSlotReserve k
  | .ringDataLands k => Laws.Encoding.ringDataLands k
  | .ringTokenArrives k => Laws.Encoding.ringTokenArrives k
  | .hbEventPerformed k => Laws.Encoding.hbEventPerformed k
  | .mbEventPerformed k => Laws.Encoding.mbEventPerformed k
  | .tcEventPerformed k => Laws.Encoding.tcEventPerformed k
  | .putrArrives k => Laws.Encoding.putrArrives k
  | .cprWordLands k => Laws.Encoding.cprWordLands k
  | .waitWake sid => Laws.Encoding.waitWake sid
  | .waitTimeout uid => Laws.Encoding.waitTimeout uid
  | .deadlineExpiry uid => Laws.Encoding.deadlineExpiry uid
  | .promiseMissed blk q seq => Laws.Encoding.promiseMissed blk q seq
  | .withholdNoticeArrives k => Laws.Encoding.withholdNoticeArrives k
  | .unwithholdNoticeArrives k => Laws.Encoding.unwithholdNoticeArrives k
  | .cordonLeave uid => Laws.Encoding.cordonLeave uid
  | .rootReady uid => Laws.Encoding.rootReady uid
  | .trapRecordDelivery k => Laws.Encoding.trapRecordDelivery k
  | .trapqRecordTimeout k => Laws.Encoding.trapqRecordTimeout k
  | .evictComplete uid => Laws.Encoding.evictComplete uid
  | .admitComplete uid => Laws.Encoding.admitComplete uid
  | .autoEvict core => Laws.Encoding.autoEvict core
  | .autoAdmit core => Laws.Encoding.autoAdmit core
  | .queueEntryGrant blk q => Laws.Encoding.queueEntryGrant blk q
  | .jobStart blk q => Laws.Encoding.jobStart blk q
  | .jobEnd blk q => Laws.Encoding.jobEnd blk q
  | .jobCancelStop blk q => Laws.Encoding.jobCancelStop blk q
  | .fenceEnd blk seq => Laws.Encoding.fenceEnd blk seq
  | .treeRoundComplete ctx dist chan => Laws.Encoding.treeRoundComplete ctx dist chan
  | .hostSubmission ctx slot => Laws.Encoding.hostSubmission ctx slot
  | .unitRelease entry => Laws.Encoding.unitRelease entry
  | .unitOffer k => Laws.Encoding.unitOffer k
  | .cornerQueueReoffer blk => Laws.Encoding.cornerQueueReoffer blk
  | .launchEnd entry => Laws.Encoding.launchEnd entry
  | .wcancel ctx v => Laws.Encoding.wcancel ctx v
  | .plazaPostArrival gid k member sig => Laws.Encoding.plazaPostArrival gid k member sig
  | .ticketArrives gid k rank => Laws.Encoding.ticketArrives gid k rank
  | .collectiveEnd post => Laws.Encoding.collectiveEnd post
  | .pageWalkComplete k => Laws.Encoding.pageWalkComplete k
  | .missMergeEntryGrant dist => Laws.Encoding.missMergeEntryGrant dist
  | .tlbinvPage v => Laws.Encoding.tlbinvPage v
  | .tlbinvKey v => Laws.Encoding.tlbinvKey v
  | .tlbinvContext v => Laws.Encoding.tlbinvContext v
  | .kvEventPerformed k => Laws.Encoding.kvEventPerformed k
  | .kvCopyEnd k => Laws.Encoding.kvCopyEnd k
  | .kvFlip k => Laws.Encoding.kvFlip k
  | .frameRetire k => Laws.Encoding.frameRetire k
  | .scrubEnd blk => Laws.Encoding.scrubEnd blk
  | .ctxCreate ctx => Laws.Encoding.ctxCreate ctx
  | .ctxAdmit ctx => Laws.Encoding.ctxAdmit ctx
  | .ctxStart ctx => Laws.Encoding.ctxStart ctx
  | .ctxSwitch ctx succ => Laws.Encoding.ctxSwitch ctx succ
  | .ctxStop ctx => Laws.Encoding.ctxStop ctx
  | .ctxcmdHold ctx hold => Laws.Encoding.ctxcmdHold ctx hold
  | .slotZeroStart core => Laws.Encoding.slotZeroStart core
  | .gangSwitch ctx => Laws.Encoding.gangSwitch ctx
  | .contextSaveComplete ctx => Laws.Encoding.contextSaveComplete ctx
  | .lateDeviceEvent ctx => Laws.Encoding.lateDeviceEvent ctx
  | .contextRestore ctx => Laws.Encoding.contextRestore ctx
  | .cutClosed ctx => Laws.Encoding.cutClosed ctx
  | .unrecoverableFault ctx => Laws.Encoding.unrecoverableFault ctx
  | .teardownComplete ctx => Laws.Encoding.teardownComplete ctx
  | .deadlockSample ctx => Laws.Encoding.deadlockSample ctx
  | .dbgStop ctx sid => Laws.Encoding.dbgStop ctx sid
  | .dbgRelease ctx sid => Laws.Encoding.dbgRelease ctx sid
  | .dbgHold ctx sid => Laws.Encoding.dbgHold ctx sid
  | .pwrlimWrite v => Laws.Encoding.pwrlimWrite v
  | .rateLimitRelease k => Laws.Encoding.rateLimitRelease k
  | .registerWrite core ctx off v => Laws.Encoding.registerWrite core ctx off v
  | .domForm m => Laws.Encoding.domForm m
  | .domJoin m plaza => Laws.Encoding.domJoin m plaza
  | .domEvict m => Laws.Encoding.domEvict m
  | .tickBoundary => Laws.Encoding.tickBoundary
  | .jobFault blk q cls step info => Laws.Encoding.jobFault blk q cls step info
  | .bareTicketArrives dom => Laws.Encoding.bareTicketArrives dom
  | .collectiveStart => Laws.Encoding.collectiveStart
  | .contributionMerged gid k member data => Laws.Encoding.contributionMerged gid k member data
  | .collectiveFaultAbort gid k => Laws.Encoding.collectiveFaultAbort gid k
  | .errlogCapture src pa => Laws.Encoding.errlogCapture src pa
  | .errlogClear => Laws.Encoding.errlogClear
  | .powerWindow => Laws.Encoding.powerWindow
  | .domLeave => Laws.Encoding.domLeave
  | .joinRequest m => Laws.Encoding.joinRequest m
  | .getVersion r => Laws.Encoding.getVersion r
  | .getCapabilities r => Laws.Encoding.getCapabilities r
  | .negotiateAlgorithms r => Laws.Encoding.negotiateAlgorithms r
  | .getDigests r => Laws.Encoding.getDigests r
  | .getCertificate r => Laws.Encoding.getCertificate r
  | .getMeasurements r => Laws.Encoding.getMeasurements r
  | .keyExchange r => Laws.Encoding.keyExchange r
  | .finish r => Laws.Encoding.finish r
  | .ideKm r => Laws.Encoding.ideKm r
  | .hostTlpReceive t => Laws.Encoding.hostTlpReceive t
  | .rekeyStart => Laws.Encoding.rekeyStart
  | .rekeyArrive m => Laws.Encoding.rekeyArrive m
  | .rekeyClose => Laws.Encoding.rekeyClose
  | .heartbeat m => Laws.Encoding.heartbeat m
  | .memberLost m => Laws.Encoding.memberLost m
  | .plazaLost => Laws.Encoding.plazaLost
  | .timeExchange ref => Laws.Encoding.timeExchange ref
  | .chiplinkFlitReceive port f => Laws.Encoding.chiplinkFlitReceive port f
  | .linkAck port lseq => Laws.Encoding.linkAck port lseq
  | .linkNak port lseq => Laws.Encoding.linkNak port lseq
  | .fabricPacketArrival p => Laws.Encoding.fabricPacketArrival p
  | .retransmissionRequest peer seq => Laws.Encoding.retransmissionRequest peer seq
  | .e2eAck peer seq grant => Laws.Encoding.e2eAck peer seq grant
  | .e2eAckTimer peer => Laws.Encoding.e2eAckTimer peer
  | .streamResendTimeout peer => Laws.Encoding.streamResendTimeout peer
  | .reset => Laws.Encoding.reset
  | .functionReady bit => Laws.Encoding.functionReady bit
  | .districtFailure d => Laws.Encoding.districtFailure d
  | .plazaGroupRequest m ctx entries => Laws.Encoding.plazaGroupRequest m ctx entries
  | .bareTicketRequest m => Laws.Encoding.bareTicketRequest m
  | .spdmResponseArrives code body => Laws.Encoding.spdmResponseArrives code body
  | .rekeyMessageArrives gen members secret => Laws.Encoding.rekeyMessageArrives gen members secret
  | .registerFileError sid cls idx => Laws.Encoding.registerFileError sid cls idx
  | .functionFailure bit => Laws.Encoding.functionFailure bit

/-- R115: opcodes have ten bits. -/
theorem rows_op_lt (r : Row) (h : r ∈ rows) : r.op < 1024 := by
  simp only [rows, List.mem_append] at h
  rcases h with ((((h | h) | h) | h) | h) | h <;>
    simp only [scalarRows, systemRows, vectorRows, memoryRows, syncRows, engineRows, List.mem_cons, List.not_mem_nil,
      or_false] at h <;>
    (repeat' (rcases h with rfl | h)) <;> first | decide | (subst h; decide)

end Sys2Proof.Machine
end

