-- ==== Sys2Proof/Laws/Codec.lean ====
section
/-! SUPPORT. The fields of a word, parsed and packed again. -/

namespace Sys2Proof.Machine
open Sys2Proof

/-- the fields of a packed word -/
theorem pack_fields (op : Nat) (x : Args) (h : op < 1024) :
    ((packWord op x).extractLsb' 86 10).toNat = op ∧ (packWord op x).getLsbD 85 = x.inv ∧
    (packWord op x).extractLsb' 82 3 = x.pred ∧ (packWord op x).extractLsb' 78 4 = x.hint ∧
    (packWord op x).extractLsb' 52 26 = packOpd x.d ∧ (packWord op x).extractLsb' 26 26 = packOpd x.a ∧
    (packWord op x).extractLsb' 0 26 = packOpd x.b := by
  have hb : ∀ (a : BitVec 10) (i : Bool) (p : BitVec 3) (h : BitVec 4) (d e f : BitVec 26),
      let w : BitVec 96 := (a ++ BitVec.ofBool i ++ p ++ h ++ d ++ e ++ f).cast (by decide)
      w.extractLsb' 86 10 = a ∧ w.getLsbD 85 = i ∧ w.extractLsb' 82 3 = p ∧ w.extractLsb' 78 4 = h ∧ w.extractLsb' 52 26 = d ∧ w.extractLsb' 26 26 = e ∧ w.extractLsb' 0 26 = f := by
    intro a i p h d e f w
    refine ⟨?_, ?_, ?_, ?_, ?_, ?_, ?_⟩
    all_goals first
      | (apply BitVec.eq_of_getLsbD_eq; intro j hj
         simp only [w, BitVec.getLsbD_extractLsb', BitVec.getLsbD_cast, BitVec.getLsbD_append, hj, decide_true, Bool.true_and]
         repeat' split
         all_goals first | omega | (congr 1; omega) | rfl)
      | (simp only [w, BitVec.getLsbD_cast, BitVec.getLsbD_append]; simp)
  obtain ⟨h1, h2, h3, h4, h5, h6, h7⟩ := hb (BitVec.ofNat 10 op) x.inv x.pred x.hint (packOpd x.d) (packOpd x.a) (packOpd x.b)
  refine ⟨?_, h2, h3, h4, h5, h6, h7⟩
  unfold packWord; rw [h1]; simp [Nat.mod_eq_of_lt h]

theorem regFields (c2 : BitVec 2) (s n : Bool) (k : BitVec 4) (i : BitVec 6) :
    let w : BitVec 26 := (0#2 ++ c2 ++ BitVec.ofBool s ++ BitVec.ofBool n ++ k ++ 0#10 ++ i).cast (by decide)
    w.extractLsb' 24 2 = 0 ∧ w.extractLsb' 22 2 = c2 ∧ w.getLsbD 21 = s ∧ w.getLsbD 20 = n ∧ w.extractLsb' 16 4 = k ∧ w.extractLsb' 6 10 = 0 ∧ w.extractLsb' 0 6 = i := by
  intro w
  refine ⟨?_, ?_, ?_, ?_, ?_, ?_, ?_⟩
  all_goals first
    | (apply BitVec.eq_of_getLsbD_eq; intro j hj
       simp only [w, BitVec.getLsbD_extractLsb', BitVec.getLsbD_cast, BitVec.getLsbD_append, hj, decide_true, Bool.true_and]
       repeat' split
       all_goals first | omega | (congr 1; omega) | (simp; done))
    | (simp only [w, BitVec.getLsbD_cast, BitVec.getLsbD_append]; simp)

theorem kindFields (c2 : BitVec 2) (i : BitVec 24) : (c2 ++ i).extractLsb' 24 2 = c2 ∧ (c2 ++ i).extractLsb' 0 24 = i := by
  constructor
  all_goals
    apply BitVec.eq_of_getLsbD_eq; intro j hj
    simp only [BitVec.getLsbD_extractLsb', BitVec.getLsbD_append, hj, decide_true, Bool.true_and]
    split <;> first | omega | (congr 1; omega)

theorem parse_reg (c : Cls) (s n : Bool) (k : BitVec 4) (i : BitVec 6) : parseOpd (packReg ⟨c, s, n, k, i⟩) = .reg ⟨c, s, n, k, i⟩ ∧ reservedSet (packReg ⟨c, s, n, k, i⟩) = false := by
  have key : ∀ c2 : BitVec 2, packReg ⟨c, s, n, k, i⟩ = (0#2 ++ c2 ++ BitVec.ofBool s ++ BitVec.ofBool n ++ k ++ 0#10 ++ i).cast (by decide) → (match c2.toNat with | 0 => Cls.g | 1 => .v | 2 => .p | _ => .s) = c → parseOpd (packReg ⟨c, s, n, k, i⟩) = .reg ⟨c, s, n, k, i⟩ ∧ reservedSet (packReg ⟨c, s, n, k, i⟩) = false := by
    intro c2 he hc
    rw [he]
    obtain ⟨h1, h2, h3, h4, h5, h6, h7⟩ := regFields c2 s n k i
    constructor
    · unfold parseOpd; rw [h1, h2, h3, h4, h5, h7]; show Opd.reg _ = _; congr 2
    · unfold reservedSet; rw [h1, h6]; rfl
  cases c
  · exact key 0 rfl rfl
  · exact key 1 rfl rfl
  · exact key 2 rfl rfl
  · exact key 3 rfl rfl

theorem parse_pack (o : Opd) (h : ∀ k, o ≠ .hi k) : parseOpd (packOpd o) = o ∧ reservedSet (packOpd o) = false := by
  cases o with
  | reg r => exact parse_reg _ _ _ _ _
  | imm i => obtain ⟨a, b⟩ := kindFields 1#2 i; unfold parseOpd reservedSet packOpd; dsimp only; rw [a, b]; exact ⟨rfl, rfl⟩
  | wide lo => obtain ⟨a, b⟩ := kindFields 2#2 lo; unfold parseOpd reservedSet packOpd; dsimp only; rw [a, b]; exact ⟨rfl, rfl⟩
  | hi k => exact absurd rfl (h k)
  | none => obtain ⟨a, b⟩ := kindFields 3#2 0#24; unfold parseOpd reservedSet packOpd; dsimp only; rw [a, b]; exact ⟨rfl, rfl⟩

theorem pack_parse (f : BitVec 26) (hr : reservedSet f = false) (hw : ∀ k, parseOpd f ≠ .hi k) : packOpd (parseOpd f) = f := by
  have split24 : ∀ k : BitVec 2, f.extractLsb' 24 2 = k → f = k ++ f.extractLsb' 0 24 := by
    intro k hk
    apply BitVec.eq_of_getLsbD_eq; intro j hj
    rw [BitVec.getLsbD_append]
    split
    · rw [BitVec.getLsbD_extractLsb']; simp [*]
    · rw [← hk, BitVec.getLsbD_extractLsb']
      have : j - 24 < 2 := by omega
      simp only [this, decide_true, Bool.true_and]; congr 1; omega
  have hk : f.extractLsb' 24 2 = 0#2 ∨ f.extractLsb' 24 2 = 1#2 ∨ f.extractLsb' 24 2 = 2#2 ∨ f.extractLsb' 24 2 = 3#2 := by
    generalize f.extractLsb' 24 2 = k; revert k; decide
  rcases hk with hk | hk | hk | hk
  · unfold reservedSet at hr; rw [hk] at hr
    have hr : f.extractLsb' 6 10 = 0#10 := by simpa using hr
    unfold parseOpd; rw [hk]
    show packReg ⟨(match (f.extractLsb' 22 2).toNat with | 0 => Cls.g | 1 => .v | 2 => .p | _ => .s), _, _, _, _⟩ = f
    have e : packReg ⟨(match (f.extractLsb' 22 2).toNat with | 0 => Cls.g | 1 => .v | 2 => .p | _ => .s), f.getLsbD 21, f.getLsbD 20, f.extractLsb' 16 4, f.extractLsb' 0 6⟩ = (0#2 ++ f.extractLsb' 22 2 ++ BitVec.ofBool (f.getLsbD 21) ++ BitVec.ofBool (f.getLsbD 20) ++ f.extractLsb' 16 4 ++ 0#10 ++ f.extractLsb' 0 6).cast (by decide) := by
      unfold packReg; dsimp only; congr 6
      generalize f.extractLsb' 22 2 = c; revert c; decide
    rw [e]
    apply BitVec.eq_of_getLsbD_eq; intro j hj
    have hz : ∀ m, m < 10 → f.getLsbD (6 + m) = false := by
      intro m hm
      have := congrArg (fun b : BitVec 10 => b.getLsbD m) hr
      simpa [BitVec.getLsbD_extractLsb', hm] using this
    have hz2 : ∀ m, m < 2 → f.getLsbD (24 + m) = false := by
      intro m hm
      have := congrArg (fun b : BitVec 2 => b.getLsbD m) hk
      simpa [BitVec.getLsbD_extractLsb', hm] using this
    simp only [BitVec.getLsbD_cast, BitVec.getLsbD_append]
    repeat' split
    · simp only [BitVec.getLsbD_extractLsb', Nat.zero_add]; simp; omega
    · have := hz (j - 6) (by omega); rw [show 6 + (j - 6) = j by omega] at this; simp [this]
    · simp only [BitVec.getLsbD_extractLsb']; rw [show 16 + (j - 6 - 10) = j by omega]; simp; omega
    · have : j = 20 := by omega
      subst this; simp
    · have : j = 21 := by omega
      subst this; simp
    · simp only [BitVec.getLsbD_extractLsb']; rw [show 22 + (j - 6 - 10 - 4 - 1 - 1) = j by omega]; simp; omega
    · have := hz2 (j - 24) (by omega); rw [show 24 + (j - 24) = j by omega] at this; simp [this]
  · have e := split24 _ hk
    unfold parseOpd; rw [hk]; exact e.symm
  · have e := split24 _ hk
    unfold parseOpd; rw [hk]; exact e.symm
  · have e := split24 _ hk
    unfold reservedSet at hr; rw [hk] at hr
    have hr : f.extractLsb' 0 24 = 0#24 := by simpa using hr
    unfold parseOpd; rw [hk]; rw [hr] at e; exact e.symm

theorem parse_nohi (f : BitVec 26) (k : BitVec 26) : parseOpd f ≠ .hi k := by
  unfold parseOpd; split <;> simp

theorem fieldErr_rsvd (r : Row) (p : Part) (t : Nat) (w : Bool) (f : BitVec 26) (h : fieldErr r p t w (reservedSet f) (parseOpd f) = none) :
    reservedSet f = false ∧ fieldErr r p t w false (parseOpd f) = none := by
  by_cases hr : reservedSet f = false
  · rw [hr] at h; exact ⟨hr, h⟩
  · rw [Bool.not_eq_false] at hr
    rw [hr] at h
    exfalso
    have hk : f.extractLsb' 24 2 = 0#2 ∨ f.extractLsb' 24 2 = 1#2 ∨ f.extractLsb' 24 2 = 2#2 ∨ f.extractLsb' 24 2 = 3#2 := by
      generalize f.extractLsb' 24 2 = k; revert k; decide
    unfold reservedSet at hr
    unfold parseOpd at h
    rcases hk with hk | hk | hk | hk
    · rw [hk] at h
      simp only [fieldErr] at h
      simp at h
      repeat' split at h
      all_goals simp at h
    · rw [hk] at hr; simp at hr
    · rw [hk] at hr; simp at hr
    · rw [hk] at h
      simp only [fieldErr] at h
      simp at h
      repeat' split at h
      all_goals simp at h

theorem word_fields (w : BitVec 96) : w = ((w.extractLsb' 86 10) ++ BitVec.ofBool (w.getLsbD 85) ++ w.extractLsb' 82 3 ++ w.extractLsb' 78 4 ++ w.extractLsb' 52 26 ++ w.extractLsb' 26 26 ++ w.extractLsb' 0 26 : BitVec _).cast (by decide : 10 + 1 + 3 + 4 + 26 + 26 + 26 = 96) := by
  apply BitVec.eq_of_getLsbD_eq; intro j hj
  simp only [BitVec.getLsbD_cast, BitVec.getLsbD_append]
  repeat' split
  · simp [*]
  · simp only [BitVec.getLsbD_extractLsb']; rw [show 26 + (j - 26) = j by omega]; simp; omega
  · simp only [BitVec.getLsbD_extractLsb']; rw [show 52 + (j - 26 - 26) = j by omega]; simp; omega
  · simp only [BitVec.getLsbD_extractLsb']; rw [show 78 + (j - 26 - 26 - 26) = j by omega]; simp; omega
  · simp only [BitVec.getLsbD_extractLsb']; rw [show 82 + (j - 26 - 26 - 26 - 4) = j by omega]; simp; omega
  · have : j = 85 := by omega
    subst this; simp
  · simp only [BitVec.getLsbD_extractLsb']; rw [show 86 + (j - 26 - 26 - 26 - 4 - 3 - 1) = j by omega]; simp; omega

theorem formErr_none (r : Row) (x : Args) (rd ra rb : Bool) : formErr r x rd ra rb = none ↔
    hintOk r x = true ∧ fieldErr r .d (codeOf x.d) false rd x.d = none ∧ fieldErr r .a (codeOf x.d) false ra x.a = none ∧
    fieldErr r .b (codeOf x.d) (isWide x.a && bitOf r.ak 5) rb x.b = none ∧ crossOk r x = true := by
  unfold formErr
  dsimp only
  cases hintOk r x <;> simp
  cases fieldErr r .d (codeOf x.d) false rd x.d <;> simp
  cases fieldErr r .a (codeOf x.d) false ra x.a <;> simp
  cases fieldErr r .b (codeOf x.d) (isWide x.a && bitOf r.ak 5) rb x.b <;> simp

end Sys2Proof.Machine
end

