-- ==== Sys2Proof/Laws/Strand.lean ====
section
/-! SUPPORT. What the end check, traps and leaving an instruction do to a strand. -/

namespace Sys2Proof.Machine
open Sys2Proof

theorem bitLen_spec (a w : Nat) (h : a < 2 ^ w) : bitLen a ≤ w ∧ a < 2 ^ bitLen a ∧ (0 < bitLen a → 2 ^ (bitLen a - 1) ≤ a) := by
  unfold bitLen
  split
  · subst_vars; simp
  · rename_i h0
    refine ⟨(Nat.log2_lt h0).mpr h, Nat.lt_log2_self, fun _ => ?_⟩
    simpa using Nat.log2_self_le h0

theorem intWidth_le (t : Nat) : intWidth t ≤ 64 := by
  unfold intWidth; split <;> omega

/-- a trap of a body that changed nothing -/
theorem trap_obs (op : Nat) (x : Args) (s : State) (o : Opnds) (cls : Nat) (info : Word) :
    let z := settle op x s.cur o (.trap (entry x s) cls info)
    (getSlot z s.cur).st = .halted ∧ (strandAt z s.cur).trapinfo = info ∧
          (strandAt z s.cur).pc = (acting s).pc ∧ (strandAt z s.cur).lk = (acting s).lk ∧
          ∃ r, z.records = s.records ++ [r] ∧ r.words.getD 1 0 = info ∧ r.words.getD 2 0 = (acting s).pc ∧
            ((acting s).ctx < 64 → s.dom.member < 1024 → s.cur < 2 ^ 15 → cls < 2 ^ 16 → (r.words.getD 0 0).toNat / 2 ^ 48 = cls) := by
  intro z
  have hz : z = haltStrand (restoreSync (entry x s) s.cur (syncRegs x)) s.cur cls info (packWord op x) := rfl
  obtain ⟨h1, h2, -⟩ := haltStrand_slot (restoreSync (entry x s) s.cur (syncRegs x)) s.cur cls info (packWord op x)
  obtain ⟨r, r1, r2, r3, r4, r5, r6, r7⟩ := haltStrand_record (restoreSync (entry x s) s.cur (syncRegs x)) s.cur cls info (packWord op x)
  rw [← hz] at h1 h2 r1
  have hs : strandAt (restoreSync (entry x s) s.cur (syncRegs x)) s.cur = { (syncRegs x).foldl (fun u r => setFull u r true) (cleared x (acting s)) with wait := none } := by
    simp [restoreSync, strandAt_entry]
  have hc := sameCtl_foldl (syncRegs x) (cleared x (acting s)) true
  have hpc : (strandAt (restoreSync (entry x s) s.cur (syncRegs x)) s.cur).pc = (acting s).pc := by
    rw [hs]; show ((syncRegs x).foldl (fun u r => setFull u r true) (cleared x (acting s))).pc = _; rw [hc]; simp
  have hlk : (strandAt (restoreSync (entry x s) s.cur (syncRegs x)) s.cur).lk = (acting s).lk := by
    rw [hs]; show ((syncRegs x).foldl (fun u r => setFull u r true) (cleared x (acting s))).lk = _; rw [hc]; simp
  have hctx : (strandAt (restoreSync (entry x s) s.cur (syncRegs x)) s.cur).ctx = (acting s).ctx := by
    rw [hs]; show ((syncRegs x).foldl (fun u r => setFull u r true) (cleared x (acting s))).ctx = _; rw [hc]; simp
  refine ⟨h1, by rw [h2], by rw [h2]; exact hpc, by rw [h2]; exact hlk, r, ?_, r4, by rw [r5, hpc], ?_⟩
  · rw [r1]; simp [restoreSync]
  · intro g1 g2 g3 g4; exact r7 (by rw [hctx]; exact g1) (by simpa [restoreSync] using g2) g3 g4

theorem transfer_trap (x : Args) (s : State) (dest : Word) (l : Bool)
    (hd : dest &&& 15 ≠ 0 ∨ 2 ≤ (dest >>> 56).toNat) :
    transfer (entry x s) s.cur (acting s) dest l = .trap (entry x s) (if dest &&& 15 = 0 then 4 else 2) dest := by
  unfold transfer
  by_cases h : dest &&& 15 = 0
  · have h2 := hd.resolve_left (fun hh => hh h)
    have e : (dest &&& 15 != 0) = false := bne_eq_false_iff_eq.mpr h
    rw [e, if_neg (by simp), if_pos h2, if_pos h]
  · rw [if_pos (by simpa using h), if_neg h]

theorem finish_leaves (s : State) : Leaves s (finishAt s s.cur) (endWait (endCheck (acting s))) := by
  refine ⟨onlySlot_updSlot _ _ _, ?_⟩
  simp [finishAt, acting, strandAt]

theorem readG_fold_full (rs : List RegRef) : ∀ t n, readG (rs.foldl (fun u r => setFull u r true) t) n = readG t n := by
  induction rs with
  | nil => intro t n; rfl
  | cons r rs ih => intro t n; exact (ih (setFull t r true) n).trans (readG_setFull _ _ _ _)

theorem abandon_ctl (t : Strand) : (abandon t).pc = t.pc ∧ (∀ n, readG (abandon t) n = readG t n) := by
  unfold abandon
  split
  · exact ⟨rfl, fun _ => rfl⟩
  · split
    · constructor
      · rw [sameCtl_foldl]
      · intro n
        exact readG_fold_full _ t n
    · exact ⟨rfl, fun _ => rfl⟩

theorem endCheck_reads (t : Strand) (n : Nat) : readG (endWait (endCheck t)) n = readG t n := by
  unfold endWait endCheck; dsimp only; split <;> rfl

theorem endCheck_cleared (x : Args) (t : Strand) : (endCheck (cleared x t)).pc = (endCheck t).pc ∧ (endCheck (cleared x t)).lc0 = (endCheck t).lc0 ∧ (endCheck (cleared x t)).lc1 = (endCheck t).lc1 := by
  have h := endCheck_sameCtl _ _ (sameCtl_cleared x t)
  have h1 : (endCheck (cleared x t)).pc = (endWait (endCheck (cleared x t))).pc := rfl
  have h2 : (endCheck (cleared x t)).lc0 = (endWait (endCheck (cleared x t))).lc0 := rfl
  have h3 : (endCheck (cleared x t)).lc1 = (endWait (endCheck (cleared x t))).lc1 := rfl
  rw [h1, h2, h3, h]; exact ⟨rfl, rfl, rfl⟩

theorem writeG_rest (t : Strand) (n : Nat) (v : Word) : writeG t n v = { t with g := (writeG t n v).g, gF := (writeG t n v).gF, gW := (writeG t n v).gW } := by
  unfold writeG; split <;> rfl

end Sys2Proof.Machine
end

