-- ==== Sys2Proof/Laws/Lane.lean ====
section
/-! SUPPORT. Lanes: the vector body, bytes and comparisons lane by lane. -/

namespace Sys2Proof.Machine
open Sys2Proof

theorem lanewise_congr (w n : Nat) (m : BitVec 16) (old : Vec) (f g : Nat → FRes) (h : ∀ i, f i = g i) : lanewise w n m old f = lanewise w n m old g := by
  rw [funext h]

theorem elemBits_int (t : Nat) (h : isFloat t = false) : elemBits t = intWidth t := by
  unfold elemBits
  split <;> simp_all [isFloat]

theorem vecBody_writes (op : Nat) (x : Args) (w k : Nat) (f : Strand → Opnds → Nat → FRes) (s : State) (n : Nat) (i : Instr) (e : Nat → FRes)
    (hd : vField x.d = some n) (h4 : fourOf op = false) (hi : exec i s = run op x (vecBody x w k f) s)
    (he : ∀ j, f (acting s) (ops x s) j = e j) (h : clear op x s = true) :
    ∃ z, exec i s = .next z ∧ let q := lanewise w k (laneMask (acting s) x) (readV (acting s) n) e; WritesV x s z n q.1 q.2 := by
  rw [hi, ← funext he]
  exact run_vecBody op x w k f s n h hd h4

theorem signLane_eq (f : Fmt) (flip : Bool) (a : Nat) : signLane f flip a = if isNan (fpValue f a) then ⟨qnan f, if sigOf (fpValue f a) then flInvalid else 0⟩ else ⟨if flip then a ^^^ 2 ^ (f.eb + f.fb) else a % 2 ^ (f.eb + f.fb), 0⟩ := by
  unfold signLane; cases fpValue f a <;> simp [isNan, sigOf, nanRes, noFlag]; rfl

theorem byte_and (k : Nat) (a b : Vec) : laneGet 8 k (a &&& b) = laneGet 8 k a &&& laneGet 8 k b := by
  apply Nat.eq_of_testBit_eq; intro i; simp [laneGet_testBit, BitVec.getLsbD_and]; grind

theorem byte_or (k : Nat) (a b : Vec) : laneGet 8 k (a ||| b) = laneGet 8 k a ||| laneGet 8 k b := by
  apply Nat.eq_of_testBit_eq; intro i; simp [laneGet_testBit, BitVec.getLsbD_or]; grind

theorem byte_xor (k : Nat) (a b : Vec) : laneGet 8 k (a ^^^ b) = laneGet 8 k a ^^^ laneGet 8 k b := by
  apply Nat.eq_of_testBit_eq; intro i; simp [laneGet_testBit, BitVec.getLsbD_xor, Nat.testBit_xor]; cases decide (i < 8) <;> simp

theorem testBit_seven (u : Nat) (h : u < 256) : u.testBit 7 = decide (128 ≤ u) := by
  rw [Nat.testBit_eq_decide_div_mod_eq]; congr 1; apply propext; omega

theorem all_eq_getD (o : Option Nat) (d : Nat) : o.all (fun u => decide (o.getD d = u)) = true := by cases o <;> simp

theorem cmpBits_get (w i j : Nat) (hj : j < 16) : (cmpBits w i).getLsbD j = decide (w / 8 * i ≤ j ∧ j < w / 8 * i + w / 8) := by
  simp only [cmpBits, BitVec.getLsbD_ofNat, hj, decide_true, Bool.true_and, Nat.testBit_mul_two_pow, Nat.testBit_two_pow_sub_one]
  rw [Bool.eq_iff_iff]; simp; omega

theorem vcmp_fold (w N : Nat) (m old : BitVec 16) (c : Nat → Bool × BitVec 5) (hw : 0 < w / 8) (h8 : w % 8 = 0) :
    let r := (List.range N).foldl (fun (p, fl) i =>
      if laneOn m w i then (if (c i).1 then p ||| cmpBits w i else p &&& ~~~ cmpBits w i, fl ||| (c i).2) else (p, fl)) (old, (0 : BitVec 5))
    (∀ j, j < 16 → r.1.getLsbD j = if 8 * j / w < N ∧ laneOn m w (8 * j / w) then (c (8 * j / w)).1 else old.getLsbD j) ∧
    ((∀ i, (c i).2 = 0) → r.2 = 0) := by
  induction N with
  | zero => simp
  | succ N ih =>
    intro r
    obtain ⟨i1, i2⟩ := ih
    simp only [r, List.range_succ, List.foldl_append, List.foldl_cons, List.foldl_nil]
    generalize (List.range N).foldl (fun (p, fl) i =>
      if laneOn m w i then (if (c i).1 then p ||| cmpBits w i else p &&& ~~~ cmpBits w i, fl ||| (c i).2) else (p, fl)) (old, (0 : BitVec 5)) = q at i1 i2
    obtain ⟨p, fl⟩ := q
    have hdiv : ∀ j, 8 * j / w = N ↔ w / 8 * N ≤ j ∧ j < w / 8 * N + w / 8 := by
      intro j
      have e : w = 8 * (w / 8) := by omega
      generalize w / 8 = u at *
      subst e
      rw [Nat.mul_div_mul_left _ _ (by norm_num), Nat.div_eq_iff hw]
      rw [Nat.mul_comm N u]; omega
    constructor
    · intro j hj
      have hjj := i1 j hj
      by_cases hon : laneOn m w N = true
      · simp only [hon, if_true]
        by_cases he : 8 * j / w = N
        · have hb : (cmpBits w N).getLsbD j = true := by rw [cmpBits_get _ _ _ hj]; exact decide_eq_true ((hdiv j).mp he)
          have hl : N < N + 1 := by omega
          cases hc : (c N).1 <;> simp [BitVec.getLsbD_or, BitVec.getLsbD_and, hb, he, hon, hc]
        · have hb : (cmpBits w N).getLsbD j = false := by
            rw [cmpBits_get _ _ _ hj]; exact decide_eq_false (fun hh => he ((hdiv j).mpr hh))
          have : (8 * j / w < N + 1 ↔ 8 * j / w < N) := by omega
          simp only [this]
          rw [← hjj]
          have hb' : (cmpBits w N)[j] = false := hb
          cases hc : (c N).1 <;> simp [hb', hj]
      · simp only [hon, if_false, Bool.false_eq_true]
        rw [hjj]
        by_cases he : 8 * j / w = N
        · rw [he]; simp [hon]
        · have : (8 * j / w < N + 1 ↔ 8 * j / w < N) := by omega
          simp only [this]
    · intro hz
      have := i2 hz
      split
      · show fl ||| (c N).2 = 0
        rw [hz]; simp only at this; rw [this]; rfl
      · exact this

end Sys2Proof.Machine
end

