-- ==== Sys2Proof/Laws/Sent.lean ====
section
/-! SUPPORT. What sending a packet does: with nothing else under way its home takes it in the same step, and of the state only tallies
change. -/

namespace Sys2Proof.Machine
open Sys2Proof

/-- `z` is `s` but for packets, their numbers, the ports that have taken their access of the cycle, and tallies of packets. -/
structure Tallied (s z : State) : Prop where
  rest : z = { s with cores := z.cores, ctxs := z.ctxs, net := z.net, nextId := z.nextId, served := z.served }
  slots : ∀ i, getSlot z i = getSlot s i
  cores : ∀ i, ∃ a b t, getCore z i = { getCore s i with sent := a, recv := b, bankTurn := t }
  ctxs : ∀ c, ∃ a b v, getCtx z c = { getCtx s c with sent := a, recv := b, saved := v }

theorem Tallied.refl (s : State) : Tallied s s := ⟨rfl, fun _ => rfl, fun _ => ⟨_, _, _, rfl⟩, fun _ => ⟨_, _, _, rfl⟩⟩

theorem Tallied.trans {a b c : State} (h : Tallied a b) (g : Tallied b c) : Tallied a c := by
  refine ⟨?_, fun i => (g.slots i).trans (h.slots i), fun i => ?_, fun i => ?_⟩
  · have := g.rest; rw [h.rest] at this; exact this
  · obtain ⟨x, y, t, e⟩ := h.cores i
    obtain ⟨x', y', t', e'⟩ := g.cores i
    exact ⟨x', y', t', by rw [e', e]⟩
  · obtain ⟨x, y, v, e⟩ := h.ctxs i
    obtain ⟨x', y', v', e'⟩ := g.ctxs i
    exact ⟨x', y', v', by rw [e', e]⟩

/-- Packets come and go. -/
theorem tallied_net (s : State) (l : List Pkt) (n : Nat) (p : List (Served × Nat)) :
    Tallied s { s with net := l, nextId := n, served := p } :=
  ⟨rfl, fun _ => rfl, fun _ => ⟨_, _, _, rfl⟩, fun _ => ⟨_, _, _, rfl⟩⟩

theorem tallied_core (s : State) (c : Nat) (f : Core → Core)
    (h : ∀ x, ∃ a b t, f x = { x with sent := a, recv := b, bankTurn := t }) : Tallied s (updCore s c f) := by
  refine ⟨rfl, fun i => getSlot_updCore _ _ _ _ fun x => ?_, fun i => ?_, fun _ => ⟨_, _, _, rfl⟩⟩
  · obtain ⟨a, b, t, e⟩ := h x; rw [e]
  · rw [getCore_updCore]; split
    · rename_i e; subst e; exact h _
    · exact ⟨_, _, _, rfl⟩

theorem tallied_ctx (s : State) (c : Nat) (f : Ctx → Ctx)
    (h : ∀ x, ∃ a b v, f x = { x with sent := a, recv := b, saved := v }) : Tallied s (updCtx s c f) := by
  refine ⟨rfl, fun i => rfl, fun i => ⟨_, _, _, rfl⟩, fun i => ?_⟩
  rw [show updCtx s c f = setCtx s c (f (getCtx s c)) from rfl, getCtx_setCtx]; split
  · rename_i e; subst e; exact h _
  · exact ⟨_, _, _, rfl⟩

theorem tallied_countSent (s : State) (src : Src) (ctx : Nat) (b : Body) (c : Bool) : Tallied s (countSent s src ctx b c) := by
  unfold countSent
  split
  · exact tallied_ctx _ _ _ fun x => ⟨_, _, _, rfl⟩
  · split
    · split
      · exact .refl _
      · exact tallied_core _ _ _ fun x => ⟨_, _, _, rfl⟩
    · exact .refl _

theorem tallied_countRecv (s : State) (p : Pkt) : Tallied s (countRecv s p) := by
  unfold countRecv
  split
  · exact .refl _
  · split
    · dsimp only; split
      · exact tallied_ctx _ _ _ fun x => ⟨_, _, _, rfl⟩
      · exact tallied_core _ _ _ fun x => ⟨_, _, _, rfl⟩
    · exact tallied_ctx _ _ _ fun x => ⟨_, _, _, rfl⟩

theorem tallied_useBanks (s : State) (c cls : Nat) (bs : List Nat) : Tallied s (useBanks s c cls bs) := by
  unfold useBanks
  split
  · exact .refl _
  · exact (tallied_net s s.net s.nextId _).trans (tallied_core _ _ _ fun x => ⟨_, _, _, rfl⟩)

theorem tallied_takePort (s : State) (p : Pkt) : Tallied s (takePort s p) := by
  unfold takePort
  split
  · exact tallied_useBanks _ _ _ _
  · exact tallied_net s s.net s.nextId _
  · exact .refl _

/-- R15, R276: ports that serve an access leave tallies only. -/
theorem tallied_takePorts (cls : Nat) : ∀ (xs : List Served) (s : State), Tallied s (takePorts s cls xs)
  | [], s => .refl s
  | x :: xs, s => by
    have h : Tallied s (takePorts s cls [x]) := by
      cases x
      case bank c b => exact tallied_useBanks s c cls [b]
      all_goals exact tallied_net s s.net s.nextId _
    exact h.trans (tallied_takePorts cls xs (takePorts s cls [x]))

theorem countSent_net (s : State) (src : Src) (ctx : Nat) (b : Body) (c : Bool) : (countSent s src ctx b c).net = s.net := by
  unfold countSent; split
  · rfl
  · split
    · split <;> rfl
    · rfl
theorem countRecv_net (s : State) (p : Pkt) : (countRecv s p).net = s.net := by
  unfold countRecv; split
  · rfl
  · split
    · dsimp only; split <;> rfl
    · rfl
theorem useBanks_net (s : State) (c cls : Nat) (bs : List Nat) : (useBanks s c cls bs).net = s.net := by
  unfold useBanks; split <;> rfl
theorem takePort_net (s : State) (p : Pkt) : (takePort s p).net = s.net := by
  unfold takePort; split
  · exact useBanks_net _ _ _ _
  · rfl
  · rfl

/-- R15: a class that is alone at a bank is the next there. -/
theorem nextClass_alone (last c : Nat) (h : c < 5) : nextClass last [c] = some c := by
  unfold nextClass
  have e : ∀ i, (last + 1 + i) % 5 = ((last + 1) % 5 + i) % 5 := by intro i; omega
  simp only [e]
  have hx : (last + 1) % 5 < 5 := Nat.mod_lt _ (by norm_num)
  generalize (last + 1) % 5 = x at hx
  interval_cases x <;> interval_cases c <;> rfl

theorem portClass_lt (p : Pkt) : portClass p < 5 := by
  unfold portClass
  split
  · norm_num
  · norm_num
  · norm_num
  · norm_num
  · split
    · split
      · norm_num
      · split <;> norm_num
    · split <;> norm_num
    · norm_num

/-- A packet that no other stands beside, at a home that has served nothing in this cycle, has its turn there. -/
theorem homeTurn_alone (s : State) (p q : Pkt) (hn : s.net = [q]) (hs : pending s q = false) (hv : s.served = [])
    (hk : p.k = q.k) (hh : p.home = q.home) (hb : p.body = q.body) (hc : p.src = q.src) (hgot : p.got = q.got) : homeTurn s p = true := by
  have hu : ∀ x, inUse s x = false := by intro x; unfold inUse; rw [hv]; rfl
  have hcl : portClass q = portClass p := by unfold portClass; rw [hb, hh, hc]
  have hbk : pktBanks s q = pktBanks s p := by unfold pktBanks; rw [hb, hh, hc]
  unfold homeTurn
  split
  · rename_i c hm
    unfold bankGrants
    rw [List.all_eq_true]
    intro b hb'
    cases hg : p.got.contains b with
    | true => rfl
    | false =>
      have ht : atBank s p c b = [q] := by
        unfold atBank
        rw [hn]
        have : (pktBanks s q).contains b = true := by rw [hbk]; exact List.contains_iff_mem.mpr hb'
        simp only [List.filter_cons, List.filter_nil, hs, ← hh, hm, this, hk, beq_self_eq_true, Bool.false_or, Bool.and_self, if_true]
      have hf1 : bankFirst [q] b p = true := by unfold bankFirst; simp [hk]; simpa using hg
      have hp := portClass_lt p
      rw [Bool.false_or]
      unfold bankServes
      dsimp only
      rw [ht, hu, hf1]
      have hq : bankFirst [q] b q = true := by unfold bankFirst; rw [← hgot]; simp; simpa using hg
      simp [hq, hcl, nextClass_alone _ _ hp]
  · rw [hn, hu]; simp [hs]
  · rw [hn]; simp [hs]

theorem objClear_free (s : State) (b : Body) (h : s.resv = []) : objClear s b = true := by
  have hr : ∀ a n, reserved s a n = false := by intro a n; unfold reserved; rw [h]; rfl
  unfold objClear
  simp [hr]

/-- The packet that sending makes. -/
def sentPkt (s : State) (src : Src) (h : Home) (uid sid ctx : Nat) (body : Body) (scope : Option Scope)
    (ring : Option RingPos) (ea : Word) : Pkt :=
  { k := s.nextId, ord := s.nextId, node := srcNode src, via := localIn, seat := s.nextId, since := none, again := false
    src := src, home := h, uid := uid, sid := sid, ctx := ctx, body := body
    route := if ring.isSome then [] else routeOf src h, ring := ring, scope := scope
    st := if scope == some .core && !inScope sid .core h then .turned else .flying
    ans := 0, bad := none, limited := rateLimited s ctx h body scope
    colour := match srcCore src with | some c => (getCore s c).colour | none => (getCtx s ctx).colour
    ea := ea, reply := none, got := [] }

/-- What sending a packet does. -/
theorem sendPkt_sent (s : State) (src : Src) (h : Home) (uid sid ctx : Nat) (body : Body) (scope : Option Scope)
    (ring : Option RingPos) (ea : Word) :
    ∃ z, sendPkt s src h uid sid ctx body scope ring ea = (s.nextId, z) ∧ Tallied s z ∧
      z.net = s.net ++ [sentPkt s src h uid sid ctx body scope ring ea] ∧ z.served = s.served := by
  unfold sendPkt
  dsimp only
  refine ⟨_, rfl, (tallied_net s _ (s.nextId + 1) s.served).trans (tallied_countSent _ _ _ _ _), ?_, ?_⟩
  · rw [countSent_net]; unfold sentPkt; cases srcCore src <;> rfl
  · unfold countSent; split
    · rfl
    · split
      · split <;> rfl
      · rfl

theorem findPkt_last (z : State) (l : List Pkt) (p : Pkt) (hz : z.net = l ++ [p]) (hl : ∀ q ∈ l, q.k ≠ p.k) :
    findPkt z p.k = some p := by
  unfold findPkt
  rw [hz, List.find?_append, List.find?_eq_none.mpr fun q hq => by simpa using hl q hq]
  simp

/-- With nothing else under way, no word reserved and no port taken, a packet that may be performed as it is sent is so: its home
takes it at once. -/
theorem issuePkt_now (s : State) (src : Src) (h : Home) (uid sid ctx : Nat) (body : Body) (scope : Option Scope) (ea : Word)
    (hn : s.net = []) (hr : s.resv = []) (hv : s.served = []) (hp : s.prompt = true)
    (hl : rateLimited s ctx h body scope = false) (hs : ∀ c, scope = some c → inScope sid c h = true)
    (ho : match h with | .core c => c < s.turn ∨ src = .own c | _ => True) :
    ∃ p z, Tallied s z ∧ z.net = [p] ∧
      p = { sentPkt s src h uid sid ctx body scope none ea with route := [], since := some s.cycle } ∧ p.st = .flying ∧
      issuePkt s src h uid sid ctx body scope none ea = (match body with
        | .atomic a n o =>
          let s3 := arrive true z p
          if grantable s3 p.k && !poisoned s3 a n then
            let old := readLe s3.mem a n
            (p.k, performed (writeAtomic (grantAtomic s3 p a n o) p a n) { p with st := .waiting }
              (BitVec.ofNat 512 (old + (atomicNew o old).2.toNat * 2 ^ 64)))
          else (p.k, s3)
        | _ => (p.k, arrive true z p)) := by
  obtain ⟨z, h1, h2, h3, h4⟩ := sendPkt_sent s src h uid sid ctx body scope none ea
  rw [hn, List.nil_append] at h3
  rw [hv] at h4
  have hfly : (if scope == some .core && !inScope sid .core h then PktSt.turned else .flying) = .flying := by
    split
    · rename_i hc
      simp only [Bool.and_eq_true, beq_iff_eq, Bool.not_eq_true'] at hc
      rw [hs _ hc.1] at hc; simp at hc
    · rfl
  have hsc : (scope.map fun c => inScope sid c h).getD true = true := by
    cases hc : scope with
    | none => rfl
    | some c => exact hs c hc
  generalize hp0 : sentPkt s src h uid sid ctx body scope none ea = p0 at h3
  have e1 : p0.k = s.nextId := by rw [← hp0]; rfl
  have e2 : p0.st = .flying := by rw [← hp0]; exact hfly
  have e3 : p0.limited = false := by rw [← hp0]; exact hl
  have e4 : p0.ring = none := by rw [← hp0]; rfl
  have e5 : p0.home = h := by rw [← hp0]; rfl
  have e6 : p0.src = src := by rw [← hp0]; rfl
  have e7 : p0.since = none := by rw [← hp0]; rfl
  have hf : findPkt z s.nextId = some p0 := by rw [← e1]; exact findPkt_last z [] p0 h3 (by simp)
  refine ⟨{ p0 with route := [], since := some s.cycle }, takePort (updPkt z s.nextId fun _ => { p0 with route := [], since := some s.cycle }) { p0 with route := [], since := some s.cycle }, ?_, ?_, rfl, e2, ?_⟩
  · exact h2.trans ((tallied_net z _ z.nextId z.served).trans (tallied_takePort _ _))
  · rw [takePort_net]; unfold updPkt; rw [h3]; simp [updFirst, e1]
  · unfold issuePkt
    rw [h1]
    dsimp only
    rw [hf]
    dsimp only
    have hb : behind z { p0 with route := [], since := some s.cycle } = false := by
      unfold behind heldPkt; rw [h3]; simp
    have hpz : pending z p0 = false := by unfold pending; rw [e7]; simp
    have ht : homeTurn z { p0 with route := [], since := some s.cycle } = true :=
      homeTurn_alone z _ p0 h3 hpz h4 rfl rfl rfl rfl rfl
    have hpo : portOpen z { p0 with route := [], since := some s.cycle } = true := by
      unfold portOpen
      dsimp only
      rw [e5, e6]
      have htn : z.turn = s.turn := by rw [h2.rest]
      rw [htn]
      cases h with
      | core c => simpa using ho
      | _ => rfl
    have hoc : objClear z body = true := objClear_free z body (by rw [h2.rest]; exact hr)
    have hpm : z.prompt = true := by rw [h2.rest]; exact hp
    rw [if_pos (by rw [hb, ht, hpo, hoc, hsc, hpm, e2, e3, e4]; rfl), e1]
    cases body <;> rfl

/-- What a packet that has just been performed leaves for the strand that is issuing. -/
theorem performed_now (s : State) (p : Pkt) (v : BitVec 512) (hn : s.net = [p]) :
    ∃ z, takeDone (performed s p v) p.k = (some { toSource p with ans := v }, z) ∧ Tallied s z ∧ z.net = [] := by
  have hu : (performed s p v).net = [{ toSource p with ans := v }] := by
    unfold performed; rw [countRecv_net]; unfold updPkt; rw [hn]; simp [updFirst]
  have hk : (toSource p).k = p.k := rfl
  have ht : Tallied s (performed s p v) := (tallied_net s _ s.nextId s.served).trans (tallied_countRecv _ _)
  refine ⟨delPkt (performed s p v) p.k, ?_, ht.trans (tallied_net _ _ _ _), ?_⟩
  · unfold takeDone findPkt; rw [hu]; simp [hk, show (toSource p).st = .performed from rfl]
  · unfold delPkt; rw [hu]; simp [delFirst, hk]

theorem takeDone_flying (s : State) (k : Nat) (p : Pkt) (h : findPkt s k = some p) (h2 : p.st ≠ .performed) : takeDone s k = (none, s) := by
  unfold takeDone; rw [h]; simp [h2]

end Sys2Proof.Machine
end

