-- ==== Sys2Proof/Laws/Local.lean ====
section
/-! SUPPORT. Accesses to the own scratchpad, multiple-word transfers, and packets performed where they are sent. -/

namespace Sys2Proof.Machine
open Sys2Proof

/-- A load that issues unhindered finds no copy outstanding into its register, and holds nothing that it read before. -/
theorem clear_land (op : Nat) (x : Args) (s : State) (h : clear op x s = true) :
    (∀ r ∈ landRegs op x, copying (acting s) r = false) ∧ ∀ r, heldLoad (acting s) r = none := by
  simp only [clear, Bool.and_eq_true, passes_iff, Option.isNone_iff_eq_none] at h
  obtain ⟨⟨⟨-, -, -, -, h5⟩, h6⟩, -⟩ := h
  have h5 := (find_append_none _ _ _ h5).2
  rw [List.find?_eq_none] at h5
  refine ⟨fun r hr => by simpa [acting] using h5 r hr, fun r => ?_⟩
  unfold heldLoad
  cases r with
  | v n => cases (acting s).wait <;> rfl
  | g n =>
    cases hw : (acting s).wait with
    | none => rfl
    | some w =>
      have : w.opnds = none := by rw [hw] at h6; simpa using h6
      dsimp only
      rw [this]
      cases w.stage <;> rfl

theorem load_own (op : Nat) (x : Args) (s : State) (n k ty : Nat) (i : Instr) (h4 : fourOf op = false) (hd : gField x.d = some n) (h : clear op x s = true) (hk : k = intWidth ty / 8)
    (hi : exec i s = run op x (ldBody x) s) (hl : landRegs op x = [.g (idxOf x.d)]) (hty : ty = codeOf x.d)
    (hf : ownSpace (address x s k) k ∧ reserved s (ownKey s (address x s k)) k = false ∧ poisoned s (ownKey s (address x s k)) k = false) :
    ∃ z, exec i s = .next z ∧ WritesG x s z n (intExtend ty (readLe s.mem (ownKey s (address x s k)) k)) := by
  obtain ⟨f1, f2, f3⟩ := hf
  rw [hi]
  refine run_setG op x _ s n _ h hd ?_
  rw [h4]
  simp only [ldBody]
  rw [show effAddr (readOpnds (acting s) x false) x (intWidth (codeOf x.d) / 8) = address x s k from by rw [← effAddr_address, hk, hty]; rfl]
  rw [← hty, ← hk]
  unfold loadAt
  obtain ⟨l1, l2⟩ := clear_land op x s h
  rw [l2]
  dsimp only
  rw [target_own _ _ _ _ _ _ _ _ f1 rfl, l1 _ (by rw [hl]; simp)]
  unfold ownKey at f2 f3
  simp only [reserved_entry, poisoned_entry, f2, f3, Bool.false_eq_true, if_false, entry_mem]
  rw [setG_eq _ _ _ n _ hd]
  congr 2
  funext t
  have hn : idxOf x.d = n := by
    cases hx : x.d <;> simp_all [gField, idxOf]
  simp only [landIn, loadedVec, hn]
  congr 1
  have : readLe s.mem (spadKey (coreOf s.cur) ((address x s k).toNat % 2 ^ 56)) k % 2 ^ (8 * k) = readLe s.mem (ownKey s (address x s k)) k := by
    apply Nat.mod_eq_of_lt
    have := readLe_lt s.mem (ownKey s (address x s k)) k
    rw [hk] at this ⊢; rw [width_pow] at this; rw [width_mul]; exact this
  rw [this]
  simp

theorem storeRes_own (x : Args) (s : State) (op : Nat) (t : Strand) (sp : List Nat) (ea : Word) (n : Nat) (mask : BitVec 16) (v : Vec) (sc : Option Scope) (o : Opnds) (b : Nat → Option Byte)
    (h1 : ownSpace ea n) (h2 : reserved s (ownKey s ea) n = false) (hs : sp.contains 0xF0 = true)
    (hb : ∀ i, i < n → b i = if mask.toNat.testBit i then some (BitVec.ofNat 8 (v.toNat / 256 ^ i)) else none) :
    StoresTo x s (settle op x s.cur o (storeRes (entry x s) s.cur t ea 0 (storeAt (entry x s) s.cur t sp ea n mask v sc))) (ownKey s ea) n b := by
  unfold ownKey at h2
  unfold storeAt
  rw [target_own _ _ _ _ _ _ _ _ h1 hs]
  simp only [reserved_entry, h2, Bool.false_eq_true, if_false, storeRes, settle, entry_mem]
  exact storesTo_of x s ea n mask.toNat v.toNat _ b hb

theorem allOnes_bit (i : Nat) (h : i < 16) : (0xFFFF : BitVec 16).toNat.testBit i = true := by
  have : ∀ i : Fin 16, (0xFFFF : BitVec 16).toNat.testBit i = true := by decide
  exact this ⟨i, h⟩

theorem intWidth_div (t : Nat) : intWidth t / 8 ≤ 8 := by
  unfold intWidth; split <;> decide

/-- a run of register writes -/
def putRun (d : Nat) (val : Nat → Word) (m : Nat) (u : Strand) : Strand := (List.range m).foldl (fun y j => writeG y (d + j) (val j)) u

theorem putRun_succ (d : Nat) (val : Nat → Word) (m : Nat) (u : Strand) : putRun d val (m + 1) u = writeG (putRun d val m u) (d + m) (val m) := by
  unfold putRun; rw [List.range_succ, List.foldl_append]; rfl

theorem putRun_ctl (d : Nat) (val : Nat → Word) (m : Nat) (u : Strand) : SameCtl (putRun d val m u) u := by
  induction m with
  | zero => rfl
  | succ m ih => rw [putRun_succ]; exact (sameCtl_writeG _ _ _).trans ih

theorem putRun_reads (d : Nat) (val : Nat → Word) (m : Nat) (u : Strand) :
    (∀ k, readG (putRun d val m u) k = if d ≤ k ∧ k < d + m ∧ k ≠ 0 then val (k - d) else readG u k) ∧
    (∀ k, readV (putRun d val m u) k = readV u k) ∧ (∀ k, readP (putRun d val m u) k = readP u k) ∧ (putRun d val m u).fflags = u.fflags ∧
    (∀ r, inFile r = true → fullOf (putRun d val m u) r = ((match r with | .g m' => decide (d ≤ m' ∧ m' < d + m ∧ m' ≠ 0) | .v _ => false) || fullOf u r)) ∧
    (∀ r, inFile r = true → tagOf (putRun d val m u) r = (tagOf u r && !(match r with | .g m' => decide (d ≤ m' ∧ m' < d + m ∧ m' ≠ 0) | .v _ => false))) := by
  induction m with
  | zero =>
    refine ⟨fun k => ?_, fun k => rfl, fun k => rfl, rfl, fun r _ => ?_, fun r _ => ?_⟩
    · rw [if_neg (by omega)]; rfl
    · cases r with
      | g k => show fullOf u (.g k) = (decide (d ≤ k ∧ k < d + 0 ∧ k ≠ 0) || fullOf u (.g k)); rw [decide_eq_false (by omega)]; rfl
      | v k => rfl
    · cases r with
      | g k => show tagOf u (.g k) = (tagOf u (.g k) && !decide (d ≤ k ∧ k < d + 0 ∧ k ≠ 0)); rw [decide_eq_false (by omega)]; simp
      | v k => simp [putRun]
  | succ m ih =>
    obtain ⟨i1, i2, i3, i4, i5, i6⟩ := ih
    refine ⟨fun k => ?_, fun k => ?_, fun k => ?_, ?_, fun r hr => ?_, fun r hr => ?_⟩
    · rw [putRun_succ, readG_writeG, i1]
      by_cases h : k = d + m ∧ d + m ≠ 0
      · rw [if_pos h, if_pos (by omega), h.1]; congr 1; omega
      · rw [if_neg h]
        by_cases h2 : d ≤ k ∧ k < d + m ∧ k ≠ 0
        · rw [if_pos h2, if_pos (by omega)]
        · rw [if_neg h2, if_neg (by omega)]
    · rw [putRun_succ, ← i2]; unfold writeG; split <;> rfl
    · rw [putRun_succ, ← i3]; unfold writeG; split <;> rfl
    · rw [putRun_succ, ← i4]; unfold writeG; split <;> rfl
    · rw [putRun_succ, fullOf_writeG _ _ _ _ hr, i5 r hr]
      cases r with
      | g k =>
        have e : (RegRef.g k == RegRef.g (d + m)) = decide (k = d + m) := by simp [beq_eq_decide]
        rw [e, ← Bool.or_assoc]; congr 1
        rw [Bool.eq_iff_iff]; simp; omega
      | v k => simp
    · rw [putRun_succ, tagOf_writeG _ _ _ _ hr, i6 r hr]
      cases r with
      | g k =>
        have e : (RegRef.g k == RegRef.g (d + m)) = decide (k = d + m) := by simp [beq_eq_decide]
        rw [e, Bool.and_assoc]; congr 1
        rw [Bool.eq_iff_iff]; simp; omega
      | v k => simp

theorem multiCheck_own (s : State) (sid : Nat) (t : Strand) (need : Need) (sp : List Nat) (ea : Word) (n : Nat) (h : ownSpace ea 8) (hn : ea.toNat % 2 ^ 56 + 8 * n ≤ 2 ^ 18) (hs : sp.contains 0xF0 = true) :
    ∀ m i, i + m ≤ n → multiCheck s sid t need sp ea m i = none := by
  intro m
  induction m with
  | zero => intro i _; rfl
  | succ m ih =>
    intro i hi
    rw [multiCheck]
    rw [target_own _ _ _ _ _ _ _ _ (ownSpace_word ea i n h hn (by omega)).1 hs]
    exact ih (i + 1) (by omega)

theorem spadKey_word (c ea i : Nat) : spadKey c (ea + 8 * i) = spadKey c ea + 8 * i := by unfold spadKey; omega

theorem setWidth_of_ofNat128 (v : Nat) : BitVec.setWidth 64 (BitVec.ofNat 128 v) = BitVec.ofNat 64 v := by
  apply BitVec.eq_of_toNat_eq; simp

theorem landWords_run (d : Nat) (f : Nat → Nat) (n : Nat) (u : Strand) :
    landWords d ((List.range n).map f) u = putRun d (fun j => BitVec.ofNat 64 (f j)) n u := by
  induction n with
  | zero => rfl
  | succ n ih =>
    rw [putRun_succ, ← ih]
    unfold landWords
    rw [List.range_succ, List.map_append, List.zipIdx_append, List.foldl_append]
    simp only [List.map_cons, List.map_nil, List.zipIdx_cons, List.zipIdx_nil, List.foldl_cons, List.foldl_nil,
      List.length_map, List.length_range, Nat.zero_add]
    show writeG _ _ (BitVec.setWidth 64 (BitVec.ofNat 128 (f n))) = _
    rw [setWidth_of_ofNat128]

/-- R204: a multiple load whose words all stand in the own scratchpad. -/
theorem loadWords_own (s : State) (d : Nat) (ea : Word) (n : Nat) (h : ownSpace ea 8) (hn : ea.toNat % 2 ^ 56 + 8 * n ≤ 2 ^ 18) (t : Strand) (z : State)
    (hm : z.mem = s.mem) (hz : ∀ a k, reserved z a k = reserved s a k) (hpz : ∀ a k, poisoned z a k = poisoned s a k)
    (hr : ∀ i, i < n → reserved s (ownKey s ea + 8 * i) 8 = false)
    (hp : ∀ i, i < n → poisoned s (ownKey s ea + 8 * i) 8 = false) : ∀ m got, m + got.length = n →
    got.map (·.2) = (List.range got.length).map (fun j => readLe s.mem (ownKey s ea + 8 * j) 8) →
    loadWords z s.cur t ea d m got =
      .done (updStrand z s.cur (landWords d ((List.range n).map fun j => readLe s.mem (ownKey s ea + 8 * j) 8))) := by
  intro m
  induction m with
  | zero => intro got hg he; rw [loadWords, he, show got.length = n by omega]
  | succ m ih =>
    intro got hg he
    obtain ⟨w1, w2⟩ := ownSpace_word ea got.length n h hn (by omega)
    have hl : loadWord z s.cur t ea d got.length = (z, .value (readLe s.mem (ownKey s ea + 8 * got.length) 8)) := by
      unfold loadWord
      dsimp only
      rw [target_own _ _ _ _ _ _ _ _ w1 rfl]
      dsimp only
      rw [w2, spadKey_word, hz, hpz]
      have a := hr got.length (by omega)
      have b := hp got.length (by omega)
      unfold ownKey at a b ⊢
      rw [a, b, hm]
      simp
    rw [loadWords, hl]
    dsimp only
    refine ih _ (by simp; omega) ?_
    rw [List.map_append, he]
    simp [List.range_succ]

theorem postedWords_none (t : Strand) (h : t.wait = none) : postedWords t = 0 := by unfold postedWords; rw [h]; rfl

theorem storeWords_own (x : Args) (s : State) (d : Nat) (ea : Word) (n : Nat) (h : ownSpace ea 8) (hn : ea.toNat % 2 ^ 56 + 8 * n ≤ 2 ^ 18) (t : Strand)
    (hp : ∀ i, i < n → reserved s (ownKey s ea + 8 * i) 8 = false) : ∀ m i mem p, i + m = n →
    (∀ k, readByte mem k = if ownKey s ea ≤ k ∧ k < ownKey s ea + 8 * i then BitVec.ofNat 8 ((readG t (d + (k - ownKey s ea) / 8)).toNat / 256 ^ ((k - ownKey s ea) % 8)) else readByte s.mem k) →
    ∃ mem' p', storeWords { entry x s with mem := mem, poison := p } s.cur t ea d m i = .done { entry x s with mem := mem', poison := p' } ∧
    (∀ k, readByte mem' k = if ownKey s ea ≤ k ∧ k < ownKey s ea + 8 * n then BitVec.ofNat 8 ((readG t (d + (k - ownKey s ea) / 8)).toNat / 256 ^ ((k - ownKey s ea) % 8)) else readByte s.mem k) := by
  intro m
  induction m with
  | zero => intro i mem p hi hm; refine ⟨mem, p, by rw [storeWords], ?_⟩; rw [← hi]; exact hm
  | succ m ih =>
    intro i mem p hi hm
    obtain ⟨w1, w2⟩ := ownSpace_word ea i n h hn (by omega)
    have hst : ∃ q, storeAt { entry x s with mem := mem, poison := p } s.cur t (multiSpaces true) (wordAddr ea i) 8 0xFFFF ((readG t (d + i)).setWidth 128) none =
        .done { entry x s with mem := writeMasked mem (ownKey s ea + 8 * i) 0xFFFF 8 ((readG t (d + i)).setWidth 128 : Vec).toNat, poison := q } := by
      unfold storeAt
      rw [target_own _ _ _ _ _ _ _ _ w1 rfl]
      dsimp only
      rw [w2, spadKey_word]
      have hpo : reserved ({ entry x s with mem := mem, poison := p } : State) (spadKey (coreOf s.cur) (ea.toNat % 2 ^ 56) + 8 * i) 8 = false := by
        show reserved (entry x s) _ _ = false
        rw [reserved_entry]; exact hp i (by omega)
      rw [if_neg (by rw [hpo]; simp)]
      exact ⟨_, rfl⟩
    have h64 : (BitVec.setWidth 128 (readG t (d + i))).toNat = (readG t (d + i)).toNat := by
      rw [BitVec.toNat_setWidth, Nat.mod_eq_of_lt]
      exact lt_trans (readG t (d + i)).isLt (by norm_num)
    obtain ⟨q, hq⟩ := hst
    rw [h64] at hq
    rw [storeWords, hq]
    refine ih (i + 1) _ q (by omega) ?_
    intro k
    rw [readByte_writeMasked_all _ _ _ _ _ _ (fun j => some (BitVec.ofNat 8 ((readG t (d + i)).toNat / 256 ^ j))) (fun j hj => by
      have : (0xFFFF : Nat).testBit j = true := allOnes_bit j (by omega)
      rw [this]; rfl), hm]
    by_cases h1 : ownKey s ea + 8 * i ≤ k ∧ k < ownKey s ea + 8 * i + 8
    · rw [if_pos h1]
      simp only [Option.getD_some]
      rw [if_pos (by omega)]
      have e1 : (k - ownKey s ea) / 8 = i := by omega
      have e2 : (k - ownKey s ea) % 8 = k - (ownKey s ea + 8 * i) := by omega
      rw [e1, e2]
    · rw [if_neg h1]
      by_cases h2 : ownKey s ea ≤ k ∧ k < ownKey s ea + 8 * i
      · rw [if_pos h2, if_pos (by omega)]
      · rw [if_neg h2, if_neg (by omega)]

theorem trap_any (op : Nat) (x : Args) (s : State) (o : Opnds) (z0 : State) (cls : Nat) (info : Word) (hz : z0 = { entry x s with fresh := z0.fresh }) (hc : cls < 2 ^ 16) :
    let z := settle op x s.cur o (.trap z0 cls info)
    (getSlot z s.cur).st = .halted ∧ (strandAt z s.cur).pc = (acting s).pc ∧ (∀ m, readG (strandAt z s.cur) m = readG (acting s) m) ∧ (strandAt z s.cur).trapinfo = info ∧
          ∃ r, z.records = s.records ++ [r] ∧ ((acting s).ctx < 64 → s.dom.member < 1024 → s.cur < 2 ^ 15 → (r.words.getD 0 0).toNat / 2 ^ 48 = cls) := by
  intro z
  have hz' : z = haltStrand (restoreSync z0 s.cur (syncRegs x)) s.cur cls info (packWord op x) := rfl
  obtain ⟨h1, h2, -⟩ := haltStrand_slot (restoreSync z0 s.cur (syncRegs x)) s.cur cls info (packWord op x)
  obtain ⟨r, r1, r2, r3, r4, r5, r6, r7⟩ := haltStrand_record (restoreSync z0 s.cur (syncRegs x)) s.cur cls info (packWord op x)
  rw [← hz'] at h1 h2 r1
  have hg : getSlot z0 s.cur = getSlot (entry x s) s.cur := by rw [hz]; rfl
  have hs : strandAt (restoreSync z0 s.cur (syncRegs x)) s.cur = { (syncRegs x).foldl (fun u r => setFull u r true) (cleared x (acting s)) with wait := none } := by
    simp only [restoreSync, strandAt_updStrand_same]
    have : strandAt z0 s.cur = cleared x (acting s) := by rw [← strandAt_entry]; unfold strandAt; rw [hg]
    rw [this]
  have hctl := sameCtl_foldl (syncRegs x) (cleared x (acting s)) true
  have hpc : (strandAt (restoreSync z0 s.cur (syncRegs x)) s.cur).pc = (acting s).pc := by
    rw [hs]; show ((syncRegs x).foldl (fun u r => setFull u r true) (cleared x (acting s))).pc = _; rw [hctl]; simp
  have hctx : (strandAt (restoreSync z0 s.cur (syncRegs x)) s.cur).ctx = (acting s).ctx := by
    rw [hs]; show ((syncRegs x).foldl (fun u r => setFull u r true) (cleared x (acting s))).ctx = _; rw [hctl]; simp
  refine ⟨h1, by rw [h2]; exact hpc, ?_, by rw [h2], r, ?_, ?_⟩
  · intro m
    rw [h2, hs]
    show readG ((syncRegs x).foldl (fun u r => setFull u r true) (cleared x (acting s))) m = _
    rw [readG_fold_full, readG_cleared]
  · rw [r1]; show (restoreSync z0 s.cur (syncRegs x)).records ++ _ = _
    rw [show (restoreSync z0 s.cur (syncRegs x)).records = z0.records from rfl, hz]; simp
  · intro a b c
    refine r7 (by rw [hctx]; exact a) ?_ c hc
    rw [show (restoreSync z0 s.cur (syncRegs x)).dom = z0.dom from rfl, hz]; simpa using b

theorem target_bad (s : State) (sid ctx : Nat) (need : Need) (sp : List Nat) (obj : Bool) (ea : Word) (n : Nat) :
    let sel := if (ea >>> 56).toNat = 1 then 0 else (ea >>> 56).toNat
    (sel ∉ sp → target s sid ctx need sp obj ea n = .bad 4 ea) ∧ (sel ∈ sp → ea.toNat % n ≠ 0 → target s sid ctx need sp obj ea n = .mis) := by
  intro sel
  have e : (if (ea >>> 56).toNat == 1 then 0 else (ea >>> 56).toNat) = sel := by simp [sel]
  unfold target
  dsimp only
  rw [e]
  constructor
  · intro h; rw [if_pos (by simpa using h)]
  · intro h h2; rw [if_neg (by simpa using h), if_pos (by simpa using h2)]

theorem target_gone (s : State) (sid ctx : Nat) (need : Need) (sp : List Nat) (ea : Word) (n : Nat)
    (h : ea >>> 56 = 0xF0) (hr : 2 ^ 18 ≤ ea.toNat % 2 ^ 56) (hm : ea.toNat % n = 0) (hs : sp.contains 0xF0 = true) :
    target s sid ctx need sp false ea n = .gone := by
  have e : (ea >>> 56).toNat = 0xF0 := by rw [h]; rfl
  unfold target
  simp only [e, hm]
  rw [if_neg (by simpa using hs), if_neg (by simp), if_pos (show ((240 : Nat) == 240) = true from rfl), if_neg (by omega)]; rfl

theorem or_count (a : Nat) (h : a < 2 ^ 48) : BitVec.ofNat 64 (2 ^ 48) ||| BitVec.ofNat 64 a = BitVec.ofNat 64 (2 ^ 48 + a) := by
  apply BitVec.eq_of_toNat_eq
  rw [BitVec.toNat_or, BitVec.toNat_ofNat, BitVec.toNat_ofNat, BitVec.toNat_ofNat, Nat.mod_eq_of_lt (show a < 2 ^ 64 by omega),
    Nat.mod_eq_of_lt (show 2 ^ 48 + a < 2 ^ 64 by omega), Nat.mod_eq_of_lt (show 2 ^ 48 < 2 ^ 64 by norm_num)]
  have := Nat.two_pow_add_eq_or_of_lt h 1
  simpa using this.symm

/-- R69: the first offence after `valid` was clear is captured; a later one leaves `spaddr`, but for the lowest strand id of the
cycle of the capture. -/
theorem capture_spec (s : State) (ctx sid : Nat) (w : Bool) (ea : Word) (h : ea >>> 56 = 0xF0) :
    let c := getCtx s ctx
    let z := getCtx (capture s ctx sid 0 w ea) ctx
    z.spValid = true ∧
    (c.spValid = false → z.spaddr = ea ∧
      z.spflag = BitVec.ofNat 64 (2 ^ 48 + sid % 2 ^ 15 * 2 ^ 16 + (if w then 2 ^ 9 else 0) + 2 ^ 8 + 0xF0)) ∧
    (c.spValid = true → (∀ o, c.spNow = some o → o.cycle ≠ s.cycle) → z.spaddr = c.spaddr) ∧
    (c.spValid = true → c.spMine = false → z.spaddr = c.spaddr) ∧
    (∀ o, c.spValid = true → c.spMine = true → c.spNow = some o → o.cycle = s.cycle →
      z.spaddr = if sid < o.sid then ea else o.ea) := by
  have e : ea.toNat / 2 ^ 56 = 0xF0 := by
    have : (ea >>> 56).toNat = 0xF0 := by rw [h]; rfl
    rw [BitVec.toNat_ushiftRight, Nat.shiftRight_eq_div_pow] at this; exact this
  intro c z
  have hz : z = takeOffence c { cycle := s.cycle, sid := sid, n := 1, ea := ea, word := BitVec.ofNat 64 (sid % 2 ^ 15 * 2 ^ 16 + 0 * 2 ^ 12 + (if w then 2 ^ 9 else 0) + 2 ^ 8 + ea.toNat / 2 ^ 56) } := by
    simp only [z, capture, captureMany, getCtx_updCtx_same, c]
  clear_value z c
  rw [hz, e]
  refine ⟨?_, ?_, ?_, ?_, ?_⟩
  · unfold takeOffence; dsimp only; split
    · rfl
    · rename_i hc; cases hv : c.spValid <;> simp_all
  · intro hv
    unfold takeOffence; dsimp only
    rw [if_pos (by simp [hv])]
    have hm : ∀ o, mergeOffence c o = o := by intro o; unfold mergeOffence; cases c.spNow <;> simp [hv]
    rw [hm]
    refine ⟨rfl, ?_⟩
    unfold showOffence; dsimp only
    have hw : (if w = true then 2 ^ 9 else 0) ≤ 2 ^ 9 := by split <;> simp
    generalize (if w = true then 2 ^ 9 else 0) = f at hw
    have hb : sid % 2 ^ 15 < 2 ^ 15 := Nat.mod_lt _ (by norm_num)
    generalize sid % 2 ^ 15 = y at hb
    rw [show (min 0xFFFF 1 * 2 ^ 48 : Nat) = 2 ^ 48 from rfl, or_count _ (by omega)]
    have : 2 ^ 48 + (y * 2 ^ 16 + 0 * 2 ^ 12 + f + 2 ^ 8 + 0xF0) = 2 ^ 48 + y * 2 ^ 16 + f + 2 ^ 8 + 0xF0 := by omega
    rw [this]
  · intro hv hc
    unfold takeOffence; dsimp only
    rw [if_neg]
    cases hn : c.spNow with
    | none => simp [hv]
    | some o => simp [hv, hc o hn]
  · intro hv hc
    unfold takeOffence; dsimp only
    rw [if_neg (by simp [hv, hc])]
  · intro o hv h1 h2 h3
    unfold takeOffence; dsimp only
    rw [if_pos (by simp [h1, h2, h3])]
    unfold showOffence mergeOffence; dsimp only
    rw [h2]; dsimp only
    rw [if_pos (by simp [hv, h3])]
    split <;> rfl

/-- R223, R283, R291: an atomic on the own scratchpad, with nothing else under way, is granted and performed as it is issued. -/
theorem issue_own (s : State) (c uid sid ctx a n : Nat) (o : AtomOp) (ea : Word) (hn : s.net = []) (hr : s.resv = []) (hv : s.served = []) (hp : s.prompt = true) (hpo : poisoned s a n = false) :
    ∃ p z, takeDone (issuePkt s (.own c) (.core c) uid sid ctx (.atomic a n o) none none ea).2 (issuePkt s (.own c) (.core c) uid sid ctx (.atomic a n o) none none ea).1 = (some p, z) ∧ p.bad = none ∧
      p.ans = BitVec.ofNat 512 (readLe s.mem a n + (atomicNew o (readLe s.mem a n)).2.toNat * 2 ^ 64) ∧
      z.mem = writeLe s.mem a n (BitVec.ofNat 64 (atomicNew o (readLe s.mem a n)).1).toNat ∧ z.net = [] ∧ z.resv = [] ∧ ∀ i, getSlot z i = getSlot s i := by
  obtain ⟨p, z, h1, h2, h3, h4, h5⟩ := issuePkt_now s (.own c) (.core c) uid sid ctx (.atomic a n o) none ea hn hr hv hp
    (by unfold rateLimited; simp) (by simp) (.inr rfl)
  have hh : p.home = .core c := by rw [h3]; rfl
  have hb : p.body = .atomic a n o := by rw [h3]; rfl
  have hbad : p.bad = none := by rw [h3]; rfl
  have zr : z.resv = [] := by rw [h1.rest]; exact hr
  have zm : z.mem = s.mem := by rw [h1.rest]
  have zp : z.poison = s.poison := by rw [h1.rest]
  have ha : arrive true z p = queuePkt { z with resv := z.resv ++ [{ k := p.k, addr := a, n := n, granted := false, old := 0, new := 0 }] } p := by
    unfold arrive; simp only [hh, hb]
  generalize hs3 : arrive true z p = s3 at ha h5
  have ht3 : Tallied { z with resv := [{ k := p.k, addr := a, n := n, granted := false, old := 0, new := 0 }] } s3 := by
    rw [ha]; unfold queuePkt; simp only [hh]
    rw [zr]
    exact (tallied_countRecv _ _).trans (tallied_net _ _ _ _)
  have n3 : s3.net = [{ p with st := .waiting }] := by
    rw [ha]; unfold queuePkt; simp only [hh]; rw [countRecv_net]; show z.net.filter _ ++ _ = _; rw [h2]; simp
  have r3 : s3.resv = [{ k := p.k, addr := a, n := n, granted := false, old := 0, new := 0 }] := by rw [ht3.rest]
  have m3 : s3.mem = s.mem := by rw [ht3.rest]; exact zm
  have p3 : poisoned s3 a n = false := by unfold poisoned at hpo ⊢; rw [ht3.rest]; show (z.poison.any _) = _; rw [zp]; exact hpo
  have hg : grantable s3 p.k = true := by
    unfold grantable findPkt earlierWaits
    rw [r3, n3]
    simp
  rw [h5]
  dsimp only
  rw [if_pos (by rw [hg, p3]; rfl)]
  dsimp only
  rw [m3]
  have hw : (writeAtomic (grantAtomic s3 p a n o) p a n).net = s3.net ∧ (writeAtomic (grantAtomic s3 p a n o) p a n).resv = [] ∧
      (writeAtomic (grantAtomic s3 p a n o) p a n).mem = writeLe s.mem a n (BitVec.ofNat 64 (atomicNew o (readLe s.mem a n)).1).toNat ∧
      ∀ i, getSlot (writeAtomic (grantAtomic s3 p a n o) p a n) i = getSlot s3 i := by
    unfold writeAtomic grantAtomic
    dsimp only
    rw [r3, m3]
    simp only [List.map_cons, List.map_nil, beq_self_eq_true, if_true, List.find?_cons_of_pos]
    refine ⟨rfl, by simp [heal], rfl, fun i => rfl⟩
  obtain ⟨d1, d2, d3, d4⟩ := hw
  generalize writeAtomic (grantAtomic s3 p a n o) p a n = w at d1 d2 d3 d4
  obtain ⟨Z, e1, e2, e3⟩ := performed_now w { p with st := .waiting } (BitVec.ofNat 512 (readLe s.mem a n + (atomicNew o (readLe s.mem a n)).2.toNat * 2 ^ 64)) (by rw [d1, n3])
  refine ⟨_, Z, e1, hbad, rfl, by rw [e2.rest]; exact d3, e3, by rw [e2.rest]; exact d2, fun i => ?_⟩
  rw [e2.slots, d4, ht3.slots]
  exact h1.slots i

theorem setG_raise (x : Args) (s : State) (n : Nat) (v : Word) (fl : BitVec 5) (hd : gField x.d = some n) (z : State) (hz : ∀ i, getSlot z i = getSlot (entry x s) i) :
    let r := finishAt (setG (updStrand z s.cur fun t => raise t fl) s.cur x.d v) s.cur
    (getSlot r s.cur).st = .ready ∧ (strandAt r s.cur).pc = (endCheck (acting s)).pc ∧ (strandAt r s.cur).fflags = (acting s).fflags ||| fl ∧
    (∀ m, readG (strandAt r s.cur) m = if m = n ∧ n ≠ 0 then v else readG (acting s) m) ∧ (∀ k, k ≠ s.cur → getSlot r k = getSlot s k) := by
  intro r
  have e := entry_only x s
  have hr : getSlot r s.cur = { getSlot s s.cur with st := .ready, s := endWait (endCheck (writeG (raise (cleared x (acting s)) fl) n v)) } := by
    simp only [r, finishAt, getSlot_updSlot_same]
    rw [setG_eq _ _ _ n _ hd]
    simp only [getSlot_updStrand, if_true, hz, e.2]
  refine ⟨by rw [hr], ?_, ?_, ?_, ?_⟩
  · unfold strandAt; rw [hr]
    show (endCheck _).pc = _
    have h := endCheck_sameCtl (writeG (raise (cleared x (acting s)) fl) n v) (acting s) ((sameCtl_writeG _ _ _).trans ((sameCtl_raise _ _).trans (sameCtl_cleared _ _)))
    have := congrArg Strand.pc h
    exact this
  · unfold strandAt; rw [hr]
    show (endCheck _).fflags = _
    have : ∀ t, (endCheck t).fflags = t.fflags := by intro t; unfold endCheck; dsimp only; split <;> rfl
    rw [this]
    have : ∀ t, (writeG t n v).fflags = t.fflags := by intro t; unfold writeG; split <;> rfl
    rw [this]; simp [raise]
  · intro m
    unfold strandAt; rw [hr]
    show readG (endWait (endCheck _)) m = _
    rw [endCheck_reads, readG_writeG]
    show (if _ then v else readG (cleared x (acting s)) m) = _
    rw [readG_cleared]
  · intro k hk
    simp only [r, finishAt, getSlot_updSlot, if_neg hk]
    rw [setG_eq _ _ _ n _ hd]
    simp only [getSlot_updStrand, if_neg hk, hz, e.1.slots k hk]

end Sys2Proof.Machine
end

