-- ==== Sys2Proof/Laws/Message.lean ====
section
/-! SUPPORT. Messages, inbox entries, register flags and channels. -/

namespace Sys2Proof.Machine
open Sys2Proof

/-- A packet that stays on its way. -/
theorem postPkt_flying (s : State) (src : Src) (h : Home) (uid sid ctx : Nat) (body : Body) (scope : Option Scope) (ring : Option RingPos) (ea : Word) (hfresh : ∀ q ∈ s.net, q.k ≠ s.nextId)
    (hp : ring.isSome ∨ s.prompt = false) :
    ∃ z, postPkt s src h uid sid ctx body scope ring ea = z ∧ Tallied s z ∧
      z.net = s.net ++ [sentPkt s src h uid sid ctx body scope ring ea] := by
  obtain ⟨z, h1, h2, h3, -⟩ := sendPkt_sent s src h uid sid ctx body scope ring ea
  have hf : findPkt z s.nextId = some (sentPkt s src h uid sid ctx body scope ring ea) := findPkt_last z s.net _ h3 hfresh
  refine ⟨z, ?_, h2, h3⟩
  unfold postPkt issuePkt
  rw [h1]; dsimp only; rw [hf]; dsimp only
  rw [if_neg]
  · dsimp only
    rw [takeDone_flying z _ _ hf (by unfold sentPkt; dsimp only; split <;> simp)]
  · rcases hp with hp | hp
    · have : (sentPkt s src h uid sid ctx body scope ring ea).ring = ring := rfl
      rw [this]; cases ring <;> simp_all
    · rw [show z.prompt = s.prompt by rw [h2.rest], hp]; simp

theorem bytesNat_natBytes (n v : Nat) : bytesNat (natBytes n v) = v % 256 ^ n := by
  induction n generalizing v with
  | zero => simp [natBytes, bytesNat, Nat.mod_one]
  | succ n ih =>
    rw [natBytes, bytesNat, ih]
    rw [Nat.pow_succ, Nat.mul_comm (256 ^ n) 256, Nat.mod_mul]
    simp

theorem natBytes_length (n v : Nat) : (natBytes n v).length = n := by
  induction n generalizing v with
  | zero => rfl
  | succ n ih => simp [natBytes, ih]

theorem target_mesh (s : State) (sid ctx : Nat) (need : Need) (d : Word) (dest : Nat) (hdest : dest < 2 ^ 11) (h1 : d >>> 56 = 0xF1) (h2 : d.toNat % 2 ^ 56 = dest * 2 ^ 19) (ho : reachesBlk s ctx (blkOfCore dest) = true) (hr : distReady s (dest / 512) = true) :
    target s sid ctx need [0xF1] true d 1 = .cell (.core dest) (spadKey dest 0) := by
  have e : (d >>> 56).toNat = 0xF1 := by rw [h1]; rfl
  unfold target
  dsimp only
  have e1 : d.toNat % 72057594037927936 / 524288 % 2048 = dest := by omega
  have e2 : d.toNat % 72057594037927936 / 1073741824 = 0 := by omega
  have e3 : (d.toNat % 72057594037927936).testBit 18 = false := by
    rw [show (72057594037927936:Nat) = 2 ^ 56 from rfl, Nat.testBit_eq_decide_div_mod_eq]; simp; omega
  have e4 : d.toNat % 72057594037927936 % 262144 = 0 := by omega
  simp [e, e1, e2, e3, e4, ho, hr, Nat.mod_one]

theorem header_parts (A B C D E F P : List Byte) (hA : A.length = 2) (hB : B.length = 1) (hC : C.length = 1) (hD : D.length = 2) (hE : E.length = 2) (hF : F.length = 8) :
    (A ++ B ++ C ++ D ++ E ++ F ++ P).take 2 = A ∧ (A ++ B ++ C ++ D ++ E ++ F ++ P).getD 2 0 = B.getD 0 0 ∧ (A ++ B ++ C ++ D ++ E ++ F ++ P).getD 3 0 = C.getD 0 0 ∧
    ((A ++ B ++ C ++ D ++ E ++ F ++ P).drop 4).take 2 = D ∧ ((A ++ B ++ C ++ D ++ E ++ F ++ P).drop 8).take 8 = F ∧ ∀ i, (A ++ B ++ C ++ D ++ E ++ F ++ P).getD (16 + i) 0 = P.getD i 0 := by
  obtain ⟨a1, a2, rfl⟩ := List.length_eq_two.mp hA
  obtain ⟨b1, rfl⟩ := List.length_eq_one_iff.mp hB
  obtain ⟨c1, rfl⟩ := List.length_eq_one_iff.mp hC
  obtain ⟨d1, d2, rfl⟩ := List.length_eq_two.mp hD
  obtain ⟨e1, e2, rfl⟩ := List.length_eq_two.mp hE
  match F, hF with
  | [f1, f2, f3, f4, f5, f6, f7, f8], _ =>
    refine ⟨rfl, rfl, rfl, rfl, rfl, fun i => ?_⟩
    rw [Nat.add_comm]
    rfl

theorem and_mask_zero (a : Word) (k : Nat) (hk : k < 64) (m : Word) (hm : m.toNat = 2 ^ k - 1) (h : a.toNat % 2 ^ k = 0) : a &&& m = 0 := by
  apply BitVec.eq_of_toNat_eq
  rw [BitVec.toNat_and, hm, Nat.and_two_pow_sub_one_eq_mod]; exact h

theorem byte_after (K i k : Nat) (R b : Byte) (bs : List Byte) :
    (if K + (i + 1) ≤ k ∧ k < K + (i + 1) + bs.length then bs.getD (k - (K + (i + 1))) 0 else if k = K + i then b else R) =
      if K + i ≤ k ∧ k < K + i + (bs.length + 1) then (b :: bs).getD (k - (K + i)) 0 else R := by
  by_cases h1 : k = K + i
  · subst h1; rw [if_neg (by omega), if_pos rfl, if_pos (by omega)]; simp
  · by_cases h2 : K + i ≤ k ∧ k < K + i + (bs.length + 1)
    · rw [if_pos (by omega), if_pos (by omega), show k - (K + i) = (k - (K + (i + 1))) + 1 by omega]
      simp
    · rw [if_neg (by omega), if_neg h1, if_neg (by omega)]

theorem writeOwn_eq (c : Nat) (a : Word) (h18 : a.toNat % 2 ^ 56 < 2 ^ 18) : ∀ (bs : List Byte) (i : Nat) (s : State), a.toNat % 2 ^ 56 + i + bs.length ≤ 2 ^ 18 →
    (∀ j, getSlot (writeOwn s c a i bs) j = getSlot s j) ∧ (∀ j, getCore (writeOwn s c a i bs) j = getCore s j) ∧
    ∀ k, readByte (writeOwn s c a i bs).mem k = if spadKey c (a.toNat % 2 ^ 56) + i ≤ k ∧ k < spadKey c (a.toNat % 2 ^ 56) + i + bs.length then bs.getD (k - (spadKey c (a.toNat % 2 ^ 56) + i)) 0 else readByte s.mem k := by
  intro bs
  induction bs with
  | nil => intro i s _; refine ⟨fun _ => rfl, fun _ => rfl, fun k => ?_⟩; rw [writeOwn, if_neg]; simp
  | cons b bs ih =>
    intro i s hl
    simp only [List.length_cons] at hl ⊢
    have e : (a.toNat + i) % 2 ^ 56 = a.toNat % 2 ^ 56 + i := by omega
    rw [writeOwn]
    rw [e, if_pos (by omega)]
    obtain ⟨i1, i2, i3⟩ := ih (i + 1) (heal { s with mem := writeByte s.mem (spadKey c (a.toNat % 2 ^ 56 + i)) b } (spadKey c (a.toNat % 2 ^ 56 + i)) 1) (by omega)
    refine ⟨fun j => (i1 j).trans rfl, fun j => (i2 j).trans rfl, fun k => ?_⟩
    rw [i3 k]
    have ek : spadKey c (a.toNat % 2 ^ 56 + i) = spadKey c (a.toNat % 2 ^ 56) + i := by unfold spadKey; omega
    show (if _ then _ else readByte (writeByte s.mem _ b) k) = _
    rw [readByte_writeByte, ek]
    exact byte_after _ i k _ b bs

theorem freeEntry_inbox (s : State) (c n : Nat) : (getCore (freeEntry s c n) c).inbox = mapPut (getCore s c).inbox n (emptied (mapGet InEntry.init (getCore s c).inbox n)) := by
  have h1 : (getCore (updCore s c fun q => { q with inbox := mapPut q.inbox n (emptied (mapGet InEntry.init q.inbox n)) }) c).inbox = mapPut (getCore s c).inbox n (emptied (mapGet InEntry.init (getCore s c).inbox n)) := by
    rw [getCore_updCore, if_pos rfl]
  unfold freeEntry
  dsimp only
  split
  · rw [getCore_updCore]; split
    · rename_i h; show (getCore (updCore s c fun q => { q with inbox := mapPut q.inbox n (emptied (mapGet InEntry.init q.inbox n)) }) (c / 8 * 8 + n / 2)).inbox = _; rw [← h]; exact h1
    · exact h1
  · exact h1

theorem freeEntry_slot (s : State) (c n i : Nat) : getSlot (freeEntry s c n) i = getSlot s i := by
  unfold freeEntry
  dsimp only
  split
  · exact (getSlot_updCore _ _ _ (fun q : Core => { q with credits := mapPut q.credits (c % 8) (mapGet 2 q.credits (c % 8) + 1) }) (fun _ => rfl)).trans (getSlot_updCore _ _ _ (fun q : Core => { q with inbox := mapPut q.inbox n (emptied (mapGet InEntry.init q.inbox n)) }) (fun _ => rfl))
  · exact (getSlot_updCore _ _ _ (fun q : Core => { q with inbox := mapPut q.inbox n (emptied (mapGet InEntry.init q.inbox n)) }) (fun _ => rfl))

theorem endCheck_flags (t : Strand) (r : RegRef) : fullOf (endWait (endCheck t)) r = fullOf t r ∧ tagOf (endWait (endCheck t)) r = tagOf t r ∧ (∀ m, readV (endWait (endCheck t)) m = readV t m) := by
  unfold endCheck; dsimp only; split <;> exact ⟨by cases r <;> rfl, by cases r <;> rfl, fun _ => rfl⟩

theorem tagOf_setTag (u : Strand) (q r : RegRef) (hr : inFile r = true) : tagOf (setTag u q false) r = (tagOf u r && (r == .g 0 || r != q)) := by
  cases q with
  | g n =>
    by_cases hn : n = 0
    · subst hn
      cases r with
      | g m => by_cases hm : m = 0 <;> simp [setTag, tagOf, hm]
      | v m => simp [setTag, tagOf]
    · cases r with
      | g m =>
        simp only [inFile, decide_eq_true_eq] at hr
        by_cases hm : m = n
        · subst hm; simp [setTag, tagOf, hn, getLsbD_setBit _ _ _ _ hr]
        · simp [setTag, tagOf, hn, getLsbD_setBit _ _ _ _ hr, hm]
      | v m => simp [setTag, tagOf, hn]
  | v n =>
    cases r with
    | g m => simp [setTag, tagOf]
    | v m =>
      simp only [inFile, decide_eq_true_eq] at hr
      by_cases hm : m = n
      · subst hm; simp [setTag, tagOf, getLsbD_setBit _ _ _ _ hr]
      · simp [setTag, tagOf, getLsbD_setBit _ _ _ _ hr, hm]

theorem setTag_rest (u : Strand) (q : RegRef) (b : Bool) : (∀ r, fullOf (setTag u q b) r = fullOf u r) ∧ (∀ m, readG (setTag u q b) m = readG u m) ∧ (∀ m, readV (setTag u q b) m = readV u m) := by
  cases q with
  | g n => unfold setTag; dsimp only; split <;> exact ⟨fun r => by cases r <;> rfl, fun _ => rfl, fun _ => rfl⟩
  | v n => exact ⟨fun r => by cases r <;> rfl, fun _ => rfl, fun _ => rfl⟩

theorem fullOf_cleared (x : Args) (t : Strand) (q : RegRef) (h : inFile q = true) : fullOf (cleared x t) q = (q == .g 0 || (fullOf t q && !(syncRegs x).contains q)) := (fold_setFull _ _).2.2.2.2.2 q h

theorem tagOf_cleared (x : Args) (t : Strand) (q : RegRef) : tagOf (cleared x t) q = tagOf t q := (fold_setFull _ _).2.2.2.2.1 q

theorem readLe_writeLe_other (m : Map Byte) (a n v b k : Nat) (h : b + k ≤ a ∨ a + n ≤ b) : readLe (writeLe m a n v) b k = readLe m b k :=
  readLe_congr _ _ _ _ fun i h1 h2 => readByte_writeLe _ _ _ _ _ (by omega)

theorem readLe_writeLe_in (m : Map Byte) (a n v b k : Nat) (h1 : a ≤ b) (h2 : b + k ≤ a + n) : readLe (writeLe m a n v) b k = v / 256 ^ (b - a) % 256 ^ k := by
  induction n generalizing m a v with
  | zero => have : k = 0 := by omega
            subst this; simp [readLe, Nat.mod_one]
  | succ n ih =>
    rw [writeLe]
    by_cases hb : b = a
    · subst hb
      rw [Nat.sub_self, Nat.pow_zero, Nat.div_one]
      clear ih h1
      have : ∀ k n m a v, k ≤ n → readLe (writeLe m a n v) a k = v % 256 ^ k := by
        intro k
        induction k with
        | zero => intro n m a v _; simp [readLe, Nat.mod_one]
        | succ k ih =>
          intro n m a v hk
          match n, hk with
          | n + 1, hk =>
            rw [readLe, writeLe, readByte_writeLe _ _ _ _ _ (by omega), readByte_writeByte, if_pos rfl, ih n _ _ _ (by omega)]
            rw [BitVec.toNat_ofNat, show 256 ^ (k + 1) = 256 * 256 ^ k by ring, Nat.mod_mul]
      rw [← writeLe]
      exact this k (n + 1) m b v (by omega)
    · rw [ih _ _ _ (by omega) (by omega)]
      rw [Nat.div_div_eq_div_mul, show 256 * 256 ^ (b - (a + 1)) = 256 ^ (b - a) by rw [← Nat.pow_succ']; congr 1; omega]

theorem spadRead_write_other (s : State) (c o n v o' k : Nat) (h : o' + k ≤ o ∨ o + n ≤ o') : spadRead (spadWrite s c o n v) c o' k = spadRead s c o' k := by
  unfold spadRead; rw [spadWrite_mem]; exact readLe_writeLe_other _ _ _ _ _ _ (by unfold spadKey; omega)

theorem spadRead_write_in (s : State) (c o n v o' k : Nat) (h1 : o ≤ o') (h2 : o' + k ≤ o + n) : spadRead (spadWrite s c o n v) c o' k = v / 256 ^ (o' - o) % 256 ^ k := by
  unfold spadRead; rw [spadWrite_mem, readLe_writeLe_in _ _ _ _ _ _ (by unfold spadKey; omega) (by unfold spadKey; omega)]
  congr 3; unfold spadKey; omega

theorem readByte_spadWrite_other (s : State) (c o n v k : Nat) (h : k < spadKey c o ∨ spadKey c o + n ≤ k) : readByte (spadWrite s c o n v).mem k = readByte s.mem k := by
  rw [spadWrite_mem]; exact readByte_writeLe _ _ _ _ _ h

/-- A request through the own scratchpad with nothing else under way: its packet reaches its home at once. -/
theorem askObj_own (s : State) (sid : Nat) (t : Strand) (c : Nat) (body : Body) (sc : Option Scope) (ea : Word) (hn : s.net = []) :
    ∃ p z, askObj s sid t c true body sc ea = (s.nextId, arrive true z p) ∧ Tallied s z ∧ z.net = [p] ∧ p.k = s.nextId ∧ p.home = .core c ∧
      p.uid = t.uid ∧ p.sid = sid ∧ p.ctx = t.ctx ∧ p.body = body ∧ p.st = .flying ∧ p.bad = none := by
  obtain ⟨z, h1, h2, h3, -⟩ := sendPkt_sent s (.own c) (.core c) t.uid sid t.ctx body none none ea
  rw [hn, List.nil_append] at h3
  refine ⟨sentPkt s (.own c) (.core c) t.uid sid t.ctx body none none ea, z, ?_, h2, h3, rfl, rfl, rfl, rfl, rfl, rfl, rfl, rfl⟩
  unfold askObj
  rw [if_pos rfl, h1]
  dsimp only
  rw [show findPkt z s.nextId = some (sentPkt s (.own c) (.core c) t.uid sid t.ctx body none none ea) from findPkt_last z [] _ h3 (by simp)]

/-- What a packet that has just been performed leaves for the strand that is issuing. -/
theorem performed_done (s : State) (p : Pkt) (v : BitVec 512) (hn : s.net = [p]) (hbad : p.bad = none) :
    ∃ q z, takeDone (performed s p v) p.k = (some q, z) ∧ q.bad = none ∧ q.ans = v ∧ z.net = [] ∧ Tallied s z := by
  obtain ⟨z, h1, h2, h3⟩ := performed_now s p v hn
  exact ⟨_, z, h1, hbad, rfl, h3, h2⟩

theorem objTarget_own (s : State) (sid ctx : Nat) (a : Word) (n : Nat) (h : ownSpace a n) : objTarget s sid ctx a n = .at (coreOf sid) (a.toNat % 2 ^ 56) true := by
  unfold objTarget; rw [target_own _ _ _ _ _ _ _ _ h rfl]

theorem spadRead_mem (s z : State) (h : z.mem = s.mem) (c o n : Nat) : spadRead z c o n = spadRead s c o n := by unfold spadRead; rw [h]

theorem chOpen_net (s : State) (c o sid : Nat) : (chOpen s c o sid).net = s.net := by unfold chOpen; dsimp only; rw [updCore_net, spadWrite_net, spadWrite_net, spadWrite_net]

theorem spadWrite_slot (s : State) (c o n v i : Nat) : getSlot (spadWrite s c o n v) i = getSlot s i := by
  unfold getSlot getCore; rw [spadWrite_cores]

theorem chOpen_slot (s : State) (c o sid i : Nat) : getSlot (chOpen s c o sid) i = getSlot s i := by
  unfold chOpen; dsimp only
  rw [getSlot_updCore _ _ _ (fun k : Core => { k with chans := k.chans ++ [{ off := o, cordon := 0, held := none, landed := [] }], prods := k.prods.filter fun e => e.1 != o }) (fun _ => rfl), spadWrite_slot, spadWrite_slot, spadWrite_slot]

theorem spadWrite_core (s : State) (c o n v i : Nat) : getCore (spadWrite s c o n v) i = getCore s i := by unfold getCore; rw [spadWrite_cores]

theorem chOpen_mem (s : State) (c o sid : Nat) : (chOpen s c o sid).mem = (spadWrite (spadWrite (spadWrite s c (o + 4) 4 (sid % 2 ^ 15 * 2 ^ 16 + 2 ^ 31)) c (o + 8) 12 0) c (o + 24) 16 0).mem := by unfold chOpen; dsimp only; rw [updCore_mem]

theorem chRegister_net (s : State) (c o sid : Nat) : (chRegister s c o sid).net = s.net := by 
  unfold chRegister
  cases lowestClear (chRegMap s c o) 64 with
  | none => rfl
  | some i => dsimp only; rw [updCore_net, spadWrite_net, spadWrite_net]

end Sys2Proof.Machine
end

