-- ==== Sys2Proof/Laws/Object.lean ====
section
/-! SUPPORT. Barriers, barrier words and rings. -/

namespace Sys2Proof.Machine
open Sys2Proof

theorem getSlot_spill (s : State) (c p : Nat) (f : Spill → Spill) (i : Nat) : getSlot (updCore s c fun x => updSpillIn x p f) i = getSlot s i :=
  getSlot_updCore _ _ _ (fun x => updSpillIn x p f) (fun _ => rfl)

theorem updUid_rest (s : State) (u : Nat) (f : Wait → Wait) : (updUid s u fun t => { t with wait := t.wait.map f }).mem = s.mem ∧ (updUid s u fun t => { t with wait := t.wait.map f }).hubs = s.hubs ∧ (updUid s u fun t => { t with wait := t.wait.map f }).net = s.net ∧
    ∀ i, strandAt (updUid s u fun t => { t with wait := t.wait.map f }) i = { strandAt s i with wait := (strandAt (updUid s u fun t => { t with wait := t.wait.map f }) i).wait } := by
  unfold updUid
  split
  · refine ⟨rfl, rfl, rfl, fun i => ?_⟩
    rename_i sid _
    unfold strandAt; rw [getSlot_updStrand]
    by_cases h : i = sid
    · subst h; rw [if_pos rfl]
    · rw [if_neg h]
  · refine ⟨rfl, rfl, rfl, fun i => ?_⟩
    unfold strandAt; rw [getSlot_spill]
  · exact ⟨rfl, rfl, rfl, fun i => rfl⟩
  · exact ⟨rfl, rfl, rfl, fun i => rfl⟩
  · exact ⟨rfl, rfl, rfl, fun i => rfl⟩

theorem wake_rest (s : State) (u : Nat) : (wake s u).mem = s.mem ∧ (wake s u).hubs = s.hubs ∧ (wake s u).net = s.net ∧ ∀ i, strandAt (wake s u) i = strandAt s i := by
  unfold wake
  split
  · rename_i sid _
    split
    · refine ⟨rfl, rfl, rfl, fun i => ?_⟩
      unfold strandAt; rw [getSlot_updCore _ _ _ (fun c => { c with moved := true }) (fun _ => rfl), getSlot_updSlot]; split
      · rename_i h; rw [h]
      · rfl
    · exact ⟨rfl, rfl, rfl, fun i => rfl⟩
  · rename_i c p _
    refine ⟨rfl, rfl, rfl, fun i => ?_⟩
    unfold strandAt; rw [getSlot_updCore _ _ _ (fun x : Core => { updSpillIn x p fun e => if e.ready then e else { e with ready := true, since := s.cycle } with moved := true }) (fun _ => rfl)]
  · exact ⟨rfl, rfl, rfl, fun i => rfl⟩
  · exact ⟨rfl, rfl, rfl, fun i => rfl⟩
  · exact ⟨rfl, rfl, rfl, fun i => rfl⟩

theorem wakeFold_rest (f : Wait → Wait) : ∀ (us : List Nat) (s : State), 
    (us.foldl (fun z u => wake (updUid z u fun t => { t with wait := t.wait.map f }) u) s).mem = s.mem ∧ (us.foldl (fun z u => wake (updUid z u fun t => { t with wait := t.wait.map f }) u) s).hubs = s.hubs ∧
    (us.foldl (fun z u => wake (updUid z u fun t => { t with wait := t.wait.map f }) u) s).net = s.net ∧
    ∀ i, strandAt (us.foldl (fun z u => wake (updUid z u fun t => { t with wait := t.wait.map f }) u) s) i = { strandAt s i with wait := (strandAt (us.foldl (fun z u => wake (updUid z u fun t => { t with wait := t.wait.map f }) u) s) i).wait } := by
  intro us
  induction us with
  | nil => intro s; exact ⟨rfl, rfl, rfl, fun _ => rfl⟩
  | cons u us ih =>
    intro s
    rw [List.foldl_cons]
    obtain ⟨i1, i2, i3, i4⟩ := ih (wake (updUid s u fun t => { t with wait := t.wait.map f }) u)
    obtain ⟨w1, w2, w3, w4⟩ := wake_rest (updUid s u fun t => { t with wait := t.wait.map f }) u
    obtain ⟨v1, v2, v3, v4⟩ := updUid_rest s u f
    refine ⟨by rw [i1, w1, v1], by rw [i2, w2, v2], by rw [i3, w3, v3], fun i => ?_⟩
    rw [i4, w4]
    conv_lhs => rw [v4 i]

theorem wakeWhere_rest (s : State) (p : Strand → Bool) (f : Wait → Wait) : (wakeWhere s p f).mem = s.mem ∧ (wakeWhere s p f).hubs = s.hubs ∧ (wakeWhere s p f).net = s.net ∧
    ∀ i, strandAt (wakeWhere s p f) i = { strandAt s i with wait := (strandAt (wakeWhere s p f) i).wait } := wakeFold_rest f _ s

theorem getHb_setHb (s : State) (b i j : Nat) (w : HBar) : getHb (setHb s b i w) b j = if j = i then w else getHb s b j := by
  unfold getHb setHb updHub getHub setHub; simp only [mapGet_put, if_true]

/-- R392: what a barrier event leaves: the barrier alone. -/
theorem barrierEvent_rest (s : State) (b i op uid : Nat) (v : Option (BitVec 32)) :
    (barrierEvent s b i op uid v).mem = s.mem ∧ (barrierEvent s b i op uid v).net = s.net ∧
    getHb (barrierEvent s b i op uid v) b i = (match op with | 0 => hbArrive (getHb s b i) uid v | 1 => hbLeave (getHb s b i) uid | _ => hbJoin (getHb s b i) uid) ∧
    (∀ j, j ≠ i → getHb (barrierEvent s b i op uid v) b j = getHb s b j) ∧
    ∀ k, getSlot (barrierEvent s b i op uid v) k = getSlot s k := by
  refine ⟨rfl, rfl, ?_, fun j hj => ?_, fun _ => rfl⟩
  · exact (getHb_setHb s b i i _).trans (if_pos rfl)
  · exact (getHb_setHb s b i j _).trans (if_neg hj)

/-- R392: what the test of a barrier leaves: the barrier tested, and the waiters of a phase that is complete. -/
theorem settleBarrier_rest (s : State) (b i : Nat) :
    (settleBarrier s b i).mem = s.mem ∧ (settleBarrier s b i).net = s.net ∧ getHb (settleBarrier s b i) b i = hbTest (getHb s b i) ∧
    (∀ j, j ≠ i → getHb (settleBarrier s b i) b j = getHb s b j) ∧
    ∀ k, strandAt (settleBarrier s b i) k = { strandAt s k with wait := (strandAt (settleBarrier s b i) k).wait } := by
  have hc : ∀ z : State, z.hubs = (setHb s b i (hbTest (getHb s b i))).hubs → ∀ j, getHb z b j = if j = i then hbTest (getHb s b i) else getHb s b j := by
    intro z hz j
    have e : getHub z b = getHub (setHb s b i (hbTest (getHb s b i))) b := by unfold getHub; rw [hz]
    rw [← getHb_setHb s b i j (hbTest (getHb s b i))]
    show mapGet HBar.init (getHub z b).hb j = _
    rw [e]; rfl
  unfold settleBarrier
  dsimp only
  split
  · exact ⟨rfl, rfl, by rw [hc _ rfl, if_pos rfl], fun j hj => by rw [hc _ rfl, if_neg hj], fun k => rfl⟩
  · generalize hq : wakeWhere _ _ _ = E
    obtain ⟨w1, w2, w3, w4⟩ := wakeWhere_rest (setHb s b i (hbTest (getHb s b i))) (fun t => waitsOn t 0x2C3 (hbHandle b i) && (t.wait.map fun w => w.arg == (getHb s b i).phase.setWidth 64).getD false) (fun w => { w with stage := .granted (hbTest (getHb s b i)).result.toNat })
    rw [hq] at w1 w2 w3 w4
    exact ⟨w1, w3, by rw [hc _ w2, if_pos rfl], fun j hj => by rw [hc _ w2, if_neg hj], fun k => w4 k⟩

/-- A request to the own hub with nothing else under way is performed at once. -/
theorem postHub_now (s : State) (sid : Nat) (t : Strand) (b i op : Nat) (v : Option (BitVec 32)) (sc : Option Scope) (hn : s.net = []) (hr : s.resv = [])
    (hv : s.served = []) (hp : s.prompt = true) (hs : ∀ c, sc = some c → inScope sid c (.hub (blkOf sid)) = true) :
    (postHub s sid t (.hb b i op v) sc).mem = s.mem ∧
    getHb (postHub s sid t (.hb b i op v) sc) b i = (match op with | 0 => hbArrive (getHb s b i) t.uid v | 1 => hbLeave (getHb s b i) t.uid | _ => hbJoin (getHb s b i) t.uid) ∧
    (∀ j, j ≠ i → getHb (postHub s sid t (.hb b i op v) sc) b j = getHb s b j) ∧
    ∀ k, getSlot (postHub s sid t (.hb b i op v) sc) k = getSlot s k := by
  obtain ⟨p, z, h1, h2, h3, h4, h5⟩ := issuePkt_now s (.core (coreOf sid)) (.hub (blkOf sid)) t.uid sid t.ctx (.hb b i op v) sc 0 hn hr hv hp
    (by unfold rateLimited; simp) hs trivial
  have harr : arrive true z p = performed (barrierEvent z b i op p.uid v) p 0 := by
    have e1 : p.home = .hub (blkOf sid) := by rw [h3]; rfl
    have e2 : p.body = .hb b i op v := by rw [h3]; rfl
    unfold arrive; simp only [e1, e2]
  have hu : p.uid = t.uid := by rw [h3]; rfl
  have hbad : p.bad = none := by rw [h3]; rfl
  obtain ⟨r1, r2, r3, r4, r5⟩ := barrierEvent_rest z b i op p.uid v
  obtain ⟨q, Z, b1, -, -, -, b5⟩ := performed_done (barrierEvent z b i op p.uid v) p 0 (by rw [r2, h2]) hbad
  have hZ : postHub s sid t (.hb b i op v) sc = Z := by
    unfold postHub postPkt
    rw [h5]; dsimp only; rw [harr, b1]
  have hH : ∀ j, getHb Z b j = getHb (barrierEvent z b i op p.uid v) b j := by
    intro j; unfold getHb getHub; rw [b5.rest]
  have hz : ∀ j, getHb z b j = getHb s b j := by intro j; unfold getHb getHub; rw [h1.rest]
  rw [hZ]
  refine ⟨?_, ?_, ?_, ?_⟩
  · rw [b5.rest]; show (barrierEvent z b i op p.uid v).mem = _; rw [r1, h1.rest]
  · rw [hH, r3, hz, hu]
  · intro j hj; rw [hH, r4 j hj, hz]
  · intro k; rw [b5.slots, r5, h1.slots]

theorem find_range_first (p : Nat → Bool) (n k : Nat) (hk : k < n) (h1 : p k = true) (h2 : ∀ j, j < k → p j = false) : (List.range n).find? p = some k := by
  rw [List.find?_range_eq_some]; exact ⟨h1, by simpa using hk, fun j hj => by simp [h2 j hj]⟩

theorem debts_of_wait_change (u v : Strand) (h : u = { v with wait := u.wait }) : u.debts = v.debts ∧ u.arrived = v.arrived := by
  constructor <;> rw [h]

/-- A posted request through the own scratchpad, performed by `f`. -/
theorem postObj_own (s : State) (sid : Nat) (t : Strand) (c : Nat) (body : Body) (sc : Option Scope) (ea : Word) (hn : s.net = []) (f : State → Nat → State)
    (hf : ∀ z : State, ∀ p : Pkt, p.home = .core c → p.body = body → arrive true z p = performed (f z p.uid) p 0) (hfn : ∀ z u, (f z u).net = z.net) :
    ∃ z Z, postObj s sid t c true body sc ea = Z ∧ Tallied s z ∧ Tallied (f z t.uid) Z ∧ Z.net = [] := by
  obtain ⟨p, z, a1, a2, a3, a4, a5, a6, a7, a8, a9, a10, a11⟩ := askObj_own s sid t c body sc ea hn
  rw [hf z p a5 a9, a6] at a1
  obtain ⟨q, Z, b1, b2, b3, b4, b5⟩ := performed_done (f z t.uid) p 0 (by rw [hfn]; exact a3) a11
  refine ⟨z, Z, ?_, a2, b5, b4⟩
  unfold postObj
  rw [a1]; dsimp only; rw [← a4, b1]

theorem mbCheck_mem (s : State) (c o : Nat) : (mbCheck s c o).net = s.net ∧ (∀ k, k < spadKey c o ∨ spadKey c o + 16 ≤ k → readByte (mbCheck s c o).mem k = readByte s.mem k) ∧
    mbExpected (mbCheck s c o) c o = mbExpected s c o ∧
    (if mbPending s c o = 0 ∧ mbBytes s c o = 0 then mbPending (mbCheck s c o) c o = mbExpected s c o ∧ mbBytes (mbCheck s c o) c o = 0 ∧ mbPhase (mbCheck s c o) c o = 1 - mbPhase s c o
     else mbPending (mbCheck s c o) c o = mbPending s c o ∧ mbBytes (mbCheck s c o) c o = mbBytes s c o ∧ mbPhase (mbCheck s c o) c o = mbPhase s c o) := by
  unfold mbCheck
  have ek : ∀ j, spadKey c (o + j) = spadKey c o + j := by intro j; unfold spadKey; omega
  by_cases h : mbPending s c o = 0 ∧ mbBytes s c o = 0
  · have hb : (decide (mbPending s c o = 0) && decide (mbBytes s c o = 0)) = true := by simp [h.1, h.2]
    rw [hb, if_pos h]
    simp only [if_true]
    refine ⟨by rw [spadWrite_net, spadWrite_net], ?_, ?_, ?_, ?_, ?_⟩
    · intro k hk
      rw [readByte_spadWrite_other _ _ _ _ _ _ (by omega), readByte_spadWrite_other _ _ _ _ _ _ (by rw [ek]; omega)]
    · unfold mbExpected; rw [spadRead_write_other _ _ _ _ _ _ _ (by omega), spadRead_write_other _ _ _ _ _ _ _ (by omega)]
    · unfold mbPending
      rw [spadRead_write_in _ _ _ _ _ _ _ (by omega) (by omega)]
      have : mbExpected s c o < 256 ^ 4 := by unfold mbExpected spadRead; exact readLe_lt _ _ _
      simp only [Nat.sub_self, Nat.pow_zero, Nat.div_one]; exact Nat.mod_eq_of_lt this
    · unfold mbBytes; rw [spadRead_write_other _ _ _ _ _ _ _ (by omega), spadRead_write_other _ _ _ _ _ _ _ (by omega)]; exact h.2
    · unfold mbPhase
      rw [spadRead_write_other _ _ _ _ _ _ _ (by omega), spadRead_write_in _ _ _ _ _ _ _ (by omega) (by omega)]
      have hb : spadRead s c (o + 15) 1 < 256 := by unfold spadRead; exact readLe_lt _ _ 1
      generalize spadRead s c (o + 15) 1 = v at hb
      simp only [Nat.sub_self, Nat.pow_zero, Nat.div_one, Nat.pow_one]
      rw [show (256:Nat) = 2 ^ 8 from rfl, Nat.mod_eq_of_lt (Nat.xor_lt_two_pow hb (by norm_num))]
      have e1 : (v ^^^ 128) / 128 = v / 128 ^^^ 1 := by
        have := Nat.shiftRight_xor_distrib (a := v) (b := 128) (i := 7)
        rw [Nat.shiftRight_eq_div_pow, Nat.shiftRight_eq_div_pow, Nat.shiftRight_eq_div_pow] at this
        exact this
      rw [e1]
      have : v / 128 = 0 ∨ v / 128 = 1 := by omega
      rcases this with h | h <;> rw [h] <;> rfl
  · have hb : ¬ (decide (mbPending s c o = 0) && decide (mbBytes s c o = 0)) = true := by simpa using h
    rw [if_neg hb, if_neg h]; exact ⟨rfl, fun _ _ => rfl, rfl, rfl, rfl, rfl⟩

theorem high_half_of_word_pair (m : Nat) (h : m < 2 ^ 32) : (m + m * 2 ^ 32) / 256 ^ 4 % 256 ^ 4 = m := by
  rw [show (256:Nat) ^ 4 = 2 ^ 32 by norm_num, Nat.add_mul_div_right _ _ (by norm_num), Nat.div_eq_of_lt h, Nat.zero_add, Nat.mod_eq_of_lt h]

theorem low_half_of_word_pair (m : Nat) (h : m < 2 ^ 32) : (m + m * 2 ^ 32) / 256 ^ 0 % 256 ^ 4 = m := by
  rw [show (256:Nat) ^ 4 = 2 ^ 32 by norm_num, Nat.pow_zero, Nat.div_one, Nat.add_mul_mod_self_right, Nat.mod_eq_of_lt h]

theorem mbInit_rest (s : State) (c o n : Nat) : (mbInit s c o n).net = s.net := by
  unfold mbInit; dsimp only; rw [spadWrite_net, spadWrite_net, (wakeWhere_rest _ _ _).2.2.1]

theorem find_updFirst {α : Type} (p : α → Bool) (f : α → α) (h : ∀ y, p y = true → p (f y) = true) (l : List α) : (updFirst p f l).find? p = (l.find? p).map f := by
  induction l with
  | nil => rfl
  | cons a l ih =>
    rw [updFirst]
    by_cases ha : p a = true
    · rw [if_pos ha, List.find?_cons_of_pos (h a ha), List.find?_cons_of_pos ha]; rfl
    · rw [if_neg ha, List.find?_cons_of_neg ha, List.find?_cons_of_neg ha, ih]

theorem rgRegister_net (s : State) (c o u : Nat) : (rgRegister s c o u).net = s.net := by
  unfold rgRegister
  cases lowestClear (rgRegMap s c o) 64 with
  | none => rfl
  | some i => dsimp only; rw [updCore_net, spadWrite_net, spadWrite_net]

theorem rgToken_net (s : State) (c o u : Nat) : (rgToken s c o u).net = s.net := by
  unfold rgToken
  split
  · rfl
  · split
    · rfl
    · unfold rgDrop; dsimp only; split
      · rw [updCore_net, spadWrite_net, spadWrite_net]
      · rw [spadWrite_net, spadWrite_net]

theorem grant_now_performs (s : State) (p : Pkt) (n : Nat) : grant s p true n = performed s p (BitVec.ofNat 512 n) := rfl

theorem rgReserve_eq (s : State) (c o : Nat) : (rgReserve s c o).2 = { s with mem := (rgReserve s c o).2.mem } := rfl

theorem rgLand_eq (s : State) (c o i at_ : Nat) (bs : List Byte) (last : Bool) : rgLand s c o i at_ bs last = { s with mem := (rgLand s c o i at_ bs last).mem } := by
  unfold rgLand; split <;> rfl

theorem rgReserve_memOf (s z : State) (c o : Nat) (h : z.mem = s.mem) : (rgReserve z c o).2.mem = (rgReserve s c o).2.mem ∧ (rgReserve z c o).1 = (rgReserve s c o).1 := by
  unfold rgReserve rgIdx rgTail rgSlots spadWrite spadRead; rw [h]; exact ⟨rfl, rfl⟩

theorem rgLand_memOf (s z : State) (c o i at_ : Nat) (bs : List Byte) (last : Bool) (h : z.mem = s.mem) : (rgLand z c o i at_ bs last).mem = (rgLand s c o i at_ bs last).mem := by
  unfold rgLand rgSetFull spadWrite spadRead rgSlotOff rgBytes spadRead; rw [h]; cases last <;> rfl

end Sys2Proof.Machine
end

