-- ==== Sys2Proof/Laws/Engine.lean ====
section
/-! SUPPORT. Tables, queues, buffers and register copies. -/

namespace Sys2Proof.Machine
open Sys2Proof

theorem readBytes_length (m : Map Byte) : ∀ (n a : Nat), (readBytes m a n).length = n
  | 0, _ => rfl
  | n + 1, a => by rw [readBytes, List.length_cons, readBytes_length m n]

theorem readBytes_get (m : Map Byte) : ∀ (n a i : Nat), i < n → (readBytes m a n).getD i 0 = readByte m (a + i)
  | n + 1, a, 0, _ => rfl
  | n + 1, a, i + 1, h => by
    rw [readBytes, List.getD_cons_succ, readBytes_get m n (a + 1) i (by omega), show a + 1 + i = a + (i + 1) by omega]

theorem readByte_writeBytes_in : ∀ (bs : List Byte) (m : Map Byte) (a k : Nat), a ≤ k → k < a + bs.length →
    readByte (writeBytes m a bs) k = bs.getD (k - a) 0
  | [], m, a, k, h1, h2 => by simp at h2; omega
  | b :: bs, m, a, k, h1, h2 => by
    rw [writeBytes]
    by_cases hk : k = a
    · subst hk
      rw [readByte_writeBytes _ _ _ _ (by left; omega), readByte_writeByte]; simp
    · rw [readByte_writeBytes_in bs _ (a + 1) k (by omega) (by simp at h2; omega)]
      rw [show k - a = (k - (a + 1)) + 1 by omega, List.getD_cons_succ]

theorem readBlock_own (s : State) (sid : Nat) (t : Strand) (sp : List Nat) (ea : Word) (n : Nat) (h : ownSpace ea n) (hn : n % 16 = 0) (h0 : 0 < n)
    (hs : sp.contains 0xF0 = true) (hr : reserved s (spadKey (coreOf sid) (ea.toNat % 2 ^ 56)) n = false) (hp : poisoned s (spadKey (coreOf sid) (ea.toNat % 2 ^ 56)) n = false) :
    readBlock s sid t sp ea n = .ok s (readBytes s.mem (spadKey (coreOf sid) (ea.toNat % 2 ^ 56)) n) := by
  have : ownSpace ea (min n 16) := ⟨h.1, h.2.1, by have := h.2.2; rw [show min n 16 = 16 by omega]; exact Nat.mod_eq_zero_of_dvd ((Nat.dvd_of_mod_eq_zero hn).trans (Nat.dvd_of_mod_eq_zero this))⟩
  unfold readBlock readNow; rw [target_own s sid t.ctx .read sp false ea _ this hs]; dsimp only; rw [hr, hp]; simp

theorem writeBlock_own (s : State) (sid : Nat) (t : Strand) (sp : List Nat) (ea : Word) (bs : List Byte) (h : ownSpace ea bs.length) (hn : bs.length % 16 = 0) (h0 : 0 < bs.length)
    (hs : sp.contains 0xF0 = true) (hr : reserved s (spadKey (coreOf sid) (ea.toNat % 2 ^ 56)) bs.length = false)  :
    writeBlock s sid t sp ea bs = .ok (heal { s with mem := writeBytes s.mem (spadKey (coreOf sid) (ea.toNat % 2 ^ 56)) bs } (spadKey (coreOf sid) (ea.toNat % 2 ^ 56)) bs.length) [] := by
  have : ownSpace ea (min bs.length 16) := ⟨h.1, h.2.1, by have := h.2.2; rw [show min bs.length 16 = 16 by omega]; exact Nat.mod_eq_zero_of_dvd ((Nat.dvd_of_mod_eq_zero hn).trans (Nat.dvd_of_mod_eq_zero this))⟩
  unfold writeBlock; dsimp only; rw [target_own s sid t.ctx .write sp false ea _ this hs]; dsimp only; rw [hr]; simp

/-- A block read of device memory whose port is free gives its bytes and keeps them with the instruction. -/
theorem readBlock_cell (s : State) (sid : Nat) (t : Strand) (sp : List Nat) (ea : Word) (n k d q : Nat)
    (ht : target s sid t.ctx .read sp false ea (min n 16) = .cell (.quay d q) k) (hg : gotIn (strandAt s sid) = [])
    (hc : portClear s (coreOf sid) t.uid (.quay d q) = true) (hf : portsFree s 0 (keyPorts s k n) = true)
    (hr : reserved s k n = false) (hp : poisoned s k n = false) :
    readBlock s sid t sp ea n = .ok (setGot (takePorts s 0 (keyPorts s k n)) sid [(ea.toNat, bytesNat (readBytes s.mem k n))])
      (readBytes s.mem k n) := by
  have hT := tallied_takePorts 0 (keyPorts s k n) s
  have e4 : gotIn (strandAt (takePorts s 0 (keyPorts s k n)) sid) = [] := by unfold strandAt; rw [hT.slots]; exact hg
  unfold readBlock; rw [ht]; dsimp only; unfold readQuay
  rw [hg]; simp only [List.find?_nil, Option.map_none]
  unfold atQuay readNow; dsimp only
  rw [hc, hf, hr, hp, e4]; simp

theorem writeBlock_cell (s : State) (sid : Nat) (t : Strand) (sp : List Nat) (ea : Word) (bs : List Byte) (k d q : Nat)
    (ht : target s sid t.ctx .write sp false ea (min bs.length 16) = .cell (.quay d q) k)
    (hc : portClear s (coreOf sid) t.uid (.quay d q) = true) (hf : portsFree s 0 (keyPorts s k bs.length) = true)
    (hr : reserved s k bs.length = false) :
    writeBlock s sid t sp ea bs = .ok (heal { takePorts s 0 (keyPorts s k bs.length) with mem := writeBytes s.mem k bs } k bs.length) [] := by
  unfold writeBlock; dsimp only; rw [ht]; dsimp only; unfold atQuay; dsimp only; rw [hc, hf, hr]; simp

theorem queueOf_hubs (s z : State) (h : z.hubs = s.hubs) (b q : Nat) : queueOf z b q = queueOf s b q := by
  unfold queueOf getHub; rw [h]

theorem queueOf_updQ (s : State) (b p : Nat) (f : Queue → Queue) (q : Nat) (hp : p < 3) (hq : q < 3) :
    queueOf (updQ s b p f) b q = if q = p then f (queueOf s b p) else queueOf s b q := by
  unfold queueOf updQ updHub getHub setHub; simp only [mapGet_put, if_true]
  rcases (by omega : p = 0 ∨ p = 1 ∨ p = 2) with rfl | rfl | rfl <;> rcases (by omega : q = 0 ∨ q = 1 ∨ q = 2) with rfl | rfl | rfl <;> rfl

theorem queueOf_tcRegister (s : State) (b : Nat) (c : BitVec 512) (q : Nat) : queueOf (tcRegister s b c) b q = queueOf s b q := by
  unfold tcRegister; split
  · unfold queueOf updTc updHub getHub setHub; simp only [mapGet_put, if_true]; rfl
  · rfl

theorem tcRegister_rest (s : State) (b : Nat) (c : BitVec 512) : (tcRegister s b c).mem = s.mem ∧ (tcRegister s b c).net = s.net ∧ ∀ k, getSlot (tcRegister s b c) k = getSlot s k := by
  unfold tcRegister; split <;> exact ⟨rfl, rfl, fun _ => rfl⟩

theorem queueRoom_hubs (s z : State) (h : z.hubs = s.hubs) (b q : Nat) : queueRoom z b q = queueRoom s b q := by
  unfold queueRoom; rw [queueOf_hubs s z h]

theorem copyQueue_or (c : BitVec 512) : copyQueue c = 1 ∨ copyQueue c = 2 := by unfold copyQueue fld; omega

theorem fence_fold (b mask sid ctx : Nat) (parts : List (Nat × Nat)) : ∀ (qs : List Nat) (z : State), qs.Nodup → (∀ q ∈ qs, q < 3) →
    let w := qs.foldl (fun z q =>
    updQ z b q fun x => { x with
      next := x.next + 1,
      jobs := x.jobs ++ [{ seq := x.next % 2 ^ 28, kind := .fence, cmd := 0, descs := [], state := 0, status := 0, detail := 0, trig := none, promise := none, missed := false, sid := sid, ctx := ctx, halted := false, progress := 0, stopping := false, mask := mask, parts := parts, goal := 0, redo := [], lapsed := false }] }) z
    w.mem = z.mem ∧ w.net = z.net ∧ (∀ k, getSlot w k = getSlot z k) ∧ ∀ q, q < 3 → queueOf w b q = if q ∈ qs then 
      { queueOf z b q with
        next := (queueOf z b q).next + 1,
        jobs := (queueOf z b q).jobs ++ [{ seq := (queueOf z b q).next % 2 ^ 28, kind := .fence, cmd := 0, descs := [], state := 0, status := 0, detail := 0, trig := none, promise := none, missed := false, sid := sid, ctx := ctx, halted := false, progress := 0, stopping := false, mask := mask, parts := parts, goal := 0, redo := [], lapsed := false }] } else queueOf z b q
  | [], z, _, _ => ⟨rfl, rfl, fun _ => rfl, fun q _ => by simp⟩
  | p :: qs, z, hd, hlt => by
    have hp : p < 3 := hlt p (by simp)
    rw [List.nodup_cons] at hd
    obtain ⟨i1, i2, i3, i4⟩ := fence_fold b mask sid ctx parts qs (updQ z b p fun x => { x with
      next := x.next + 1,
      jobs := x.jobs ++ [{ seq := x.next % 2 ^ 28, kind := .fence, cmd := 0, descs := [], state := 0, status := 0, detail := 0, trig := none, promise := none, missed := false, sid := sid, ctx := ctx, halted := false, progress := 0, stopping := false, mask := mask, parts := parts, goal := 0, redo := [], lapsed := false }] }) hd.2 (fun q hq => hlt q (by simp [hq]))
    refine ⟨i1, i2, i3, fun q hq => ?_⟩
    rw [List.foldl_cons]; refine (i4 q hq).trans ?_
    rw [queueOf_updQ _ _ _ _ _ hp hq]
    by_cases hqp : q = p
    · subst hqp; rw [if_neg hd.1]; simp
    · simp [hqp]

theorem namedQueues_mem (mask q : Nat) : q ∈ namedQueues mask ↔ q < 3 ∧ mask.testBit q = true := by
  unfold namedQueues; simp

theorem namedQueues_head (mask : Nat) (h1 : 1 ≤ mask) (h2 : mask ≤ 7) : (namedQueues mask).head? = some (lowQueue mask) := by
  rcases (by omega : mask = 1 ∨ mask = 2 ∨ mask = 3 ∨ mask = 4 ∨ mask = 5 ∨ mask = 6 ∨ mask = 7) with rfl|rfl|rfl|rfl|rfl|rfl|rfl <;> decide

theorem mergeBytes_all (old v : Vec) : mergeBytes 0xFFFF old v = v := by
  have h : ∀ i, i < 16 → laneGet 8 i (mergeBytes 0xFFFF old v) = laneGet 8 i v := by
    intro i hi; rw [mergeBytes_lane _ _ _ _ hi, if_pos]
    interval_cases i <;> decide
  apply BitVec.eq_of_getLsbD_eq
  intro k hk
  have := congrArg (fun n : Nat => n.testBit (k % 8)) (h (k / 8) (by omega))
  unfold laneGet at this
  simp only [Nat.testBit_mod_two_pow, Nat.testBit_div_two_pow] at this
  rw [show k % 8 + 8 * (k / 8) = k by omega] at this
  have h8 : k % 8 < 8 := by omega
  simpa [h8, BitVec.getLsbD] using this

theorem lanes_fold_sum (w : Nat) (f : Nat → FRes) : ∀ n, ((((List.range n).map f).zipIdx).foldl (fun v (r, i) => v + r.bits * 2 ^ (w * i)) 0) = ((List.range n).map fun i => (f i).bits * 2 ^ (w * i)).sum := by
  intro n
  induction n with
  | zero => rfl
  | succ n ih =>
    rw [List.range_succ, List.map_append, List.zipIdx_append, List.foldl_append, ih]
    simp

theorem flags_fold_map (f : Nat → FRes) (n : Nat) : ((List.range n).map f).foldl (fun g r => g ||| r.fl) (0 : BitVec 5) = (List.range n).foldl (fun g i => g ||| (f i).fl) 0 := by
  rw [List.foldl_map]

theorem accValue_mem (s z : State) (h : z.mem = s.mem) (b q : Nat) : accValue z b q = accValue s b q := by unfold accValue; rw [h]

theorem lanes_pos (ty : Nat) (h : ty ∈ [5, 6, 7]) : 1 ≤ lanesOfFmt ty := by
  simp at h; rcases h with rfl | rfl | rfl <;> decide

theorem cld_done (x : Args) (s : State) (n : Nat) (hd : vField x.d = some n) (hc : clear 0x303 x s = true) (hb : (ops x s).bw.toNat / 8 = 0) (v : Vec) (fl : BitVec 5)
    (h : cldBody x (entry x s) s.cur (acting s) (ops x s) = .done (updStrand (entry x s) s.cur fun y => raise (writeV y n v) fl)) :
    ∃ z, exec (.cld x) s = .next z ∧ WritesV x s z n v fl := by
  refine ⟨_, ?_, writesV_of x s n (entry x s).fresh v fl⟩
  rw [show exec (.cld x) s = run 0x303 x (cldBody x) s from rfl, run_ops _ x _ s hc rfl, h]
  rfl

theorem ownSpace_step (ea : Word) (sz i n : Nat) (h : ownSpace ea sz) (hs : sz = 8 ∨ sz = 16) (hn : ea.toNat % 2 ^ 56 + sz * n ≤ 2 ^ 18) (hi : i < n) :
    ownSpace (ea + BitVec.ofNat 64 (sz * i)) sz ∧ (ea + BitVec.ofNat 64 (sz * i)).toNat % 2 ^ 56 = ea.toNat % 2 ^ 56 + sz * i := by
  obtain ⟨h1, h2, h3⟩ := h
  have e : ea.toNat / 2 ^ 56 = 0xF0 := by
    have := congrArg BitVec.toNat h1
    rw [BitVec.toNat_ushiftRight, Nat.shiftRight_eq_div_pow] at this
    exact this
  have hb : sz * i + sz ≤ sz * n := by rw [← Nat.mul_succ]; exact Nat.mul_le_mul_left _ hi
  have hw : (ea + BitVec.ofNat 64 (sz * i)).toNat = ea.toNat + sz * i := by
    rw [BitVec.toNat_add, BitVec.toNat_ofNat]
    rcases hs with rfl | rfl <;> omega
  refine ⟨⟨?_, by rw [hw]; rcases hs with rfl | rfl <;> omega, by rw [hw]; rcases hs with rfl | rfl <;> omega⟩, by rw [hw]; rcases hs with rfl | rfl <;> omega⟩
  apply BitVec.eq_of_toNat_eq
  rw [BitVec.toNat_ushiftRight, Nat.shiftRight_eq_div_pow, hw]
  show (ea.toNat + sz * i) / 2 ^ 56 = 0xF0
  rcases hs with rfl | rfl <;> omega

theorem reserved_sub (s : State) (a n b m : Nat) (h : reserved s a n = false) (h1 : a ≤ b) (h2 : b + m ≤ a + n) : reserved s b m = false := by
  unfold reserved at *; rw [List.any_eq_false] at *
  intro r hr; have := h r hr; simp at this ⊢; intro g; have := this (by omega); omega

theorem poisoned_sub (s : State) (a n b m : Nat) (h : poisoned s a n = false) (h1 : a ≤ b) (h2 : b + m ≤ a + n) : poisoned s b m = false := by
  unfold poisoned at *; rw [List.any_eq_false] at *
  intro r hr; have := h r hr; simp at this ⊢; omega

theorem cprCheck_own (s : State) (sid : Nat) (t : Strand) (ea : Word) (sz n : Nat) (h : ownSpace ea sz) (hs : sz = 8 ∨ sz = 16) (hn : ea.toNat % 2 ^ 56 + sz * n ≤ 2 ^ 18)
    (hr : reserved s (spadKey (coreOf sid) (ea.toNat % 2 ^ 56)) (sz * n) = false) (hp : poisoned s (spadKey (coreOf sid) (ea.toNat % 2 ^ 56)) (sz * n) = false) :
    ∀ k i, i + k ≤ n → cprCheck s sid t ea sz k i = none := by
  intro k
  induction k with
  | zero => intro i _; rfl
  | succ k ih =>
    intro i hi
    obtain ⟨w1, w2⟩ := ownSpace_step ea sz i n h hs hn (by omega)
    have hb : sz * i + sz ≤ sz * n := by rw [← Nat.mul_succ]; exact Nat.mul_le_mul_left _ (by omega)
    have e : spadKey (coreOf sid) (ea.toNat % 2 ^ 56 + sz * i) = spadKey (coreOf sid) (ea.toNat % 2 ^ 56) + sz * i := by unfold spadKey; omega
    unfold cprCheck; dsimp only
    rw [target_own s sid t.ctx .read loadSpaces false _ sz w1 (by decide), w2]
    dsimp only
    rw [e, reserved_sub s _ _ _ _ hr (by omega) (by omega), poisoned_sub s _ _ _ _ hp (by omega) (by omega)]
    simp only [Bool.false_eq_true, if_false]
    exact ih (i + 1) (by omega)

def landAll (val : Nat → Nat) : List RegRef → Nat → Strand → Strand
  | [], _, u => u
  | r :: rs, i, u => landAll val rs (i + 1) (landIn r 0xFFFF (BitVec.ofNat 128 (val i)) u)

theorem cprSend_own (sid : Nat) (t : Strand) (ea : Word) (sz n : Nat) (h : ownSpace ea sz) (hs : sz = 8 ∨ sz = 16) (hn : ea.toNat % 2 ^ 56 + sz * n ≤ 2 ^ 18) (hd : Word) (m : Map Byte) :
    ∀ (rs : List RegRef) (i : Nat) (s : State) , s.mem = m → i + rs.length ≤ n → ∀ f, (∀ z, f z = z) → 
      cprSend (updStrand s sid f) sid t ea sz hd rs i = updStrand s sid (landAll (fun j => readLe m (spadKey (coreOf sid) (ea.toNat % 2 ^ 56) + sz * j) sz) rs i) := by
  intro rs
  have hu : ∀ (s : State) (f : Strand → Strand), (∀ z, f z = z) → updStrand s sid f = updStrand s sid id := fun s f hf => updStrand_congr _ _ _ _ (by rw [hf]; rfl)
  induction rs with
  | nil => intro i s hm _ f hf; exact hu s f hf
  | cons r rs ih =>
    intro i s hm hi f hf
    simp at hi
    obtain ⟨w1, w2⟩ := ownSpace_step ea sz i n h hs hn (by omega)
    have e : spadKey (coreOf sid) (ea.toNat % 2 ^ 56 + sz * i) = spadKey (coreOf sid) (ea.toNat % 2 ^ 56) + sz * i := by unfold spadKey; omega
    unfold cprSend
    have : cprWord (updStrand s sid f) sid t (ea + BitVec.ofNat 64 (sz * i)) sz r hd = updStrand (updStrand s sid f) sid (landIn r 0xFFFF (BitVec.ofNat 128 (readLe m (spadKey (coreOf sid) (ea.toNat % 2 ^ 56) + sz * i) sz))) := by
      unfold cprWord; dsimp only
      rw [target_own _ sid t.ctx .read loadSpaces false _ sz w1 (by decide), w2]
      dsimp only
      rw [e, show (updStrand s sid f).mem = m from hm]
    rw [this]
    have hid : updStrand (updStrand s sid f) sid (landIn r 0xFFFF (BitVec.ofNat 128 (readLe m (spadKey (coreOf sid) (ea.toNat % 2 ^ 56) + sz * i) sz))) = updStrand (updStrand s sid (landIn r 0xFFFF (BitVec.ofNat 128 (readLe m (spadKey (coreOf sid) (ea.toNat % 2 ^ 56) + sz * i) sz)))) sid id := by
      rw [updStrand_updStrand, updStrand_updStrand]; exact updStrand_congr _ _ _ _ (by rw [hf]; rfl)
    rw [hid, ih (i + 1) (updStrand s sid (landIn r 0xFFFF (BitVec.ofNat 128 (readLe m (spadKey (coreOf sid) (ea.toNat % 2 ^ 56) + sz * i) sz)))) hm (by omega) id (fun _ => rfl), updStrand_updStrand]
    rfl

theorem landAll_g (val : Nat → Nat) (n : Nat) : ∀ (m k : Nat) (u : Strand), landAll val ((List.range' k m).map fun i => .g (n + i)) k u = 
    (List.range' k m).foldl (fun y j => writeG y (n + j) (BitVec.ofNat 64 (val j))) u
  | 0, k, u => rfl
  | m + 1, k, u => by
    rw [List.range'_succ]; simp only [List.map_cons, List.foldl_cons, landAll]
    rw [landAll_g val n m (k + 1)]; unfold landIn; dsimp only; rw [setWidth_of_ofNat128]

theorem landAll_v (val : Nat → Nat) (n : Nat) : ∀ (m k : Nat) (u : Strand), landAll val ((List.range' k m).map fun i => .v (n + i)) k u = 
    (List.range' k m).foldl (fun y j => writeV y (n + j) (BitVec.ofNat 128 (val j))) u
  | 0, k, u => rfl
  | m + 1, k, u => by
    rw [List.range'_succ]; simp only [List.map_cons, List.foldl_cons, landAll]
    rw [landAll_v val n m (k + 1)]; unfold landIn; dsimp only; rw [mergeBytes_all]

def putRunV (d : Nat) (val : Nat → Vec) (m : Nat) (u : Strand) : Strand := (List.range m).foldl (fun y j => writeV y (d + j) (val j)) u

theorem putRunV_succ (d : Nat) (val : Nat → Vec) (m : Nat) (u : Strand) : putRunV d val (m + 1) u = writeV (putRunV d val m u) (d + m) (val m) := by
  unfold putRunV; rw [List.range_succ, List.foldl_append]; rfl

theorem putRunV_ctl (d : Nat) (val : Nat → Vec) (m : Nat) (u : Strand) : SameCtl (putRunV d val m u) u := by
  induction m with
  | zero => rfl
  | succ m ih => rw [putRunV_succ]; exact (sameCtl_writeV _ _ _).trans ih

theorem putRunV_reads (d : Nat) (val : Nat → Vec) (m : Nat) (u : Strand) :
    (∀ k, readV (putRunV d val m u) k = if d ≤ k ∧ k < d + m then val (k - d) else readV u k) ∧
    (∀ k, readG (putRunV d val m u) k = readG u k) ∧ 
    (∀ r, inFile r = true → fullOf (putRunV d val m u) r = ((match r with | .v m' => decide (d ≤ m' ∧ m' < d + m) | .g _ => false) || fullOf u r)) ∧
    (∀ r, inFile r = true → tagOf (putRunV d val m u) r = (tagOf u r && !(match r with | .v m' => decide (d ≤ m' ∧ m' < d + m) | .g _ => false))) := by
  induction m with
  | zero =>
    refine ⟨fun k => ?_, fun k => rfl, fun r _ => ?_, fun r _ => ?_⟩
    · rw [if_neg (by omega)]; rfl
    · cases r with
      | v k => show fullOf u (.v k) = (decide (d ≤ k ∧ k < d + 0) || fullOf u (.v k)); rw [decide_eq_false (by omega)]; rfl
      | g k => simp [putRunV]
    · cases r with
      | v k => show tagOf u (.v k) = (tagOf u (.v k) && !decide (d ≤ k ∧ k < d + 0)); rw [decide_eq_false (by omega)]; simp
      | g k => simp [putRunV]
  | succ m ih =>
    obtain ⟨i1, i2, i5, i6⟩ := ih
    refine ⟨fun k => ?_, fun k => ?_, fun r hr => ?_, fun r hr => ?_⟩
    · rw [putRunV_succ, readV_writeV, i1]
      by_cases h : k = d + m
      · rw [if_pos h, if_pos (by omega), h]; congr 1; omega
      · rw [if_neg h]
        by_cases h2 : d ≤ k ∧ k < d + m
        · rw [if_pos h2, if_pos (by omega)]
        · rw [if_neg h2, if_neg (by omega)]
    · rw [putRunV_succ, ← i2]; rfl
    · rw [putRunV_succ, fullOf_writeV _ _ _ _ hr, i5 r hr]
      cases r with
      | v k =>
        have e : (RegRef.v k == RegRef.v (d + m)) = decide (k = d + m) := by simp [beq_eq_decide]
        rw [e, ← Bool.or_assoc]; congr 1
        rw [Bool.eq_iff_iff]; simp; omega
      | g k => simp
    · rw [putRunV_succ, tagOf_writeV _ _ _ _ hr, i6 r hr]
      cases r with
      | v k =>
        have e : (RegRef.v k == RegRef.v (d + m)) = decide (k = d + m) := by simp [beq_eq_decide]
        rw [e, Bool.and_assoc]; congr 1
        rw [Bool.eq_iff_iff]; simp; omega
      | g k => simp

theorem cpr_strand (x : Args) (s : State) (h : Word) (W : Strand → Strand) (hW : ∀ u, SameCtl (W u) u) (hcp : (acting s).copies = []) (ho : owes (acting s) h = false) :
    let z := updStrand (entry x s) s.cur fun y => (fun y => if (y.copies.any fun c => c.handle == h) || owes (acting s) h then y else dropDebt y h) (W (addDebt y h true))
    (finishAt z s.cur).mem = s.mem ∧ (finishAt z s.cur).net = s.net ∧ (∀ i, i ≠ s.cur → getSlot (finishAt z s.cur) i = getSlot s i) ∧ (getSlot (finishAt z s.cur) s.cur).st = .ready ∧
    strandAt (finishAt z s.cur) s.cur = endWait (endCheck (dropDebt (W (addDebt (cleared x (acting s)) h true)) h)) ∧
    (strandAt (finishAt z s.cur) s.cur).debts = (acting s).debts := by
  intro z
  have e := entry_only x s
  have c := sameCtl_cleared x (acting s)
  have hd : (cleared x (acting s)).debts = (acting s).debts := by rw [c]
  have hc2 : (cleared x (acting s)).copies = [] := by rw [c]; exact hcp
  have ho2 : owes (cleared x (acting s)) h = false := by unfold owes; rw [hd]; exact ho
  have ha : (addDebt (cleared x (acting s)) h true).debts = (acting s).debts ++ [{ handle := h, implicit := true }] ∧ (addDebt (cleared x (acting s)) h true).copies = [] := by
    unfold owes at ho2; unfold addDebt; rw [ho2, if_neg (by simp)]; exact ⟨by rw [← hd], hc2⟩
  have hw := hW (addDebt (cleared x (acting s)) h true)
  have hst : strandAt z s.cur = dropDebt (W (addDebt (cleared x (acting s)) h true)) h := by
    show strandAt (updStrand _ _ _) _ = _
    rw [strandAt_updStrand_same, strandAt_entry]
    dsimp only
    rw [show (W (addDebt (cleared x (acting s)) h true)).copies = [] by rw [hw]; exact ha.2, ho]; simp
  have hf : strandAt (finishAt z s.cur) s.cur = endWait (endCheck (dropDebt (W (addDebt (cleared x (acting s)) h true)) h)) := by
    unfold finishAt strandAt; rw [getSlot_updSlot_same]; dsimp only; rw [show (getSlot z s.cur).s = _ from hst]
  refine ⟨by show (entry x s).mem = _; simp, by show (entry x s).net = _; simp, fun i hi => by show getSlot (updSlot (updStrand _ _ _) _ _) i = _; rw [getSlot_updSlot, if_neg hi, getSlot_updStrand, if_neg hi]; exact e.1.slots i hi, by unfold finishAt; rw [getSlot_updSlot_same], hf, ?_⟩
  rw [hf]
  have hE : ∀ u : Strand, (endWait (endCheck u)).debts = u.debts := by
    intro u; unfold endWait endCheck; dsimp only; cases (loopEnd u.pc u.le1 u.lc1 u.ls1).2 <;> rfl
  rw [hE]
  unfold dropDebt; dsimp only
  rw [show (W (addDebt (cleared x (acting s)) h true)).debts = (acting s).debts ++ [{ handle := h, implicit := true }] by rw [hw]; exact ha.1]
  rw [List.filter_append, List.filter_eq_self.mpr]
  · simp
  · intro d hdm; unfold owes at ho; rw [List.any_eq_false] at ho; simpa using ho d hdm

theorem addDebt_reads (t : Strand) (h : Word) : (∀ n, readG (addDebt t h true) n = readG t n) ∧ (∀ n, readV (addDebt t h true) n = readV t n) ∧ (∀ r, fullOf (addDebt t h true) r = fullOf t r) ∧ (∀ r, tagOf (addDebt t h true) r = tagOf t r) := by
  unfold addDebt; split
  · exact ⟨fun _ => rfl, fun _ => rfl, fun _ => rfl, fun _ => rfl⟩
  · exact ⟨fun _ => rfl, fun _ => rfl, fun r => by cases r <;> rfl, fun r => by cases r <;> rfl⟩

theorem dropDebt_reads (t : Strand) (h : Word) : (∀ n, readG (dropDebt t h) n = readG t n) ∧ (∀ n, readV (dropDebt t h) n = readV t n) ∧ (∀ r, fullOf (dropDebt t h) r = fullOf t r) ∧ (∀ r, tagOf (dropDebt t h) r = tagOf t r) :=
  ⟨fun _ => rfl, fun _ => rfl, fun r => by cases r <;> rfl, fun r => by cases r <;> rfl⟩

theorem jobStatus_hubs (s z : State) (h : z.hubs = s.hubs) (a : Word) : jobStatus z a = jobStatus s a := by
  unfold jobStatus findJob; rw [queueOf_hubs s z h]

theorem jobState_hubs (s z : State) (h : z.hubs = s.hubs) (a : Word) : jobState z a = jobState s a := by
  unfold jobState findJob; rw [queueOf_hubs s z h]

theorem jhOk_eq (s z : State) (h : z.hubs = s.hubs) (c : Nat) (a : Word) : jhOk z c a = jhOk s c a := by
  unfold jhOk ownsBlk getHub; rw [queueOf_hubs s z h, h]

end Sys2Proof.Machine
end

