-- ==== Sys2Proof/Laws/Counter.lean ====
section
/-! SUPPORT. Trigger counters and debts. -/

namespace Sys2Proof.Machine
open Sys2Proof

theorem foldl_keeps {α : Type} (P : State → Prop) (f : State → α → State) (h : ∀ z a, P z → P (f z a)) : ∀ (l : List α) (z : State), P z → P (l.foldl f z)
  | [], _, hz => hz
  | a :: l, z, hz => foldl_keeps P f h l (f z a) (h z a hz)

/-- What evaluating a counter leaves alone. -/
def TcKeep (b : Nat) (s z : State) : Prop := z.mem = s.mem ∧ z.net = s.net ∧ (∀ j, (getTc z b j).count = (getTc s b j).count) ∧ (∀ j, (getTc z b j).strands = (getTc s b j).strands) ∧
  ∀ k, strandAt z k = { strandAt s k with wait := (strandAt z k).wait }

theorem TcKeep.refl (b : Nat) (s : State) : TcKeep b s s := ⟨rfl, rfl, fun _ => rfl, fun _ => rfl, fun _ => rfl⟩

theorem TcKeep.trans {b : Nat} {s y z : State} (h : TcKeep b s y) (g : TcKeep b y z) : TcKeep b s z := by
  obtain ⟨a1, a2, a3, a4, a5⟩ := h
  obtain ⟨b1, b2, b3, b4, b5⟩ := g
  refine ⟨b1.trans a1, b2.trans a2, fun j => (b3 j).trans (a3 j), fun j => (b4 j).trans (a4 j), fun k => ?_⟩
  have := a5 k
  rw [b5 k]; conv_lhs => rw [this]

theorem getTc_updTc (s : State) (b i j : Nat) (f : TCtr → TCtr) : getTc (updTc s b i f) b j = if j = i then f (getTc s b i) else getTc s b j := by
  unfold getTc updTc updHub getHub setHub; simp only [mapGet_put, if_true]

theorem updQ_keep (s : State) (b q : Nat) (f : Queue → Queue) : TcKeep b s (updQ s b q f) := by
  have h : ∀ j, getTc (updQ s b q f) b j = getTc s b j := by
    intro j; unfold getTc updQ updHub getHub setHub; simp only [mapGet_put, if_true]
    unfold setQ; split
    · rfl
    · split <;> rfl
  exact ⟨rfl, rfl, fun j => by rw [h], fun j => by rw [h], fun _ => rfl⟩

theorem getTc_updTc_any (s : State) (b b' i j : Nat) (f : TCtr → TCtr) :
    getTc (updTc s b' i f) b j = if b = b' ∧ j = i then f (getTc s b i) else getTc s b j := by
  by_cases hb : b = b'
  · subst hb; rw [getTc_updTc]; simp
  · rw [if_neg (fun h => hb h.1)]; unfold getTc updTc updHub getHub setHub; simp only [mapGet_put, if_neg hb]

theorem tcRegister_keep (s : State) (b b' : Nat) (c : BitVec 512) : TcKeep b s (tcRegister s b' c) := by
  unfold tcRegister; split
  · refine ⟨rfl, rfl, fun j => ?_, fun j => ?_, fun _ => rfl⟩
    · rw [getTc_updTc_any]; split
      · rename_i h; rw [h.2]
      · rfl
    · rw [getTc_updTc_any]; split
      · rename_i h; rw [h.2]
      · rfl
  · exact TcKeep.refl b s

theorem fireQueue_keep (s : State) (b i q : Nat) : TcKeep b s (fireQueue s b i q) := by
  unfold fireQueue; dsimp only
  refine foldl_keeps (fun z => TcKeep b s z) _ (fun z j hz => hz.trans ?_) _ _ (TcKeep.refl b s)
  unfold fireJob; dsimp only
  exact TcKeep.trans (updQ_keep z b q _) (tcRegister_keep _ b b _)

theorem wakeWhere_keep (b : Nat) (z : State) (p : Strand → Bool) (f : Wait → Wait) : TcKeep b z (wakeWhere z p f) := by
  obtain ⟨w1, w2, w3, w4⟩ := wakeWhere_rest z p f
  exact ⟨w1, w3, fun j => by unfold getTc getHub; rw [w2], fun j => by unfold getTc getHub; rw [w2], fun k => w4 k⟩

theorem registerPosts_keep (b : Nat) (l : List Post) (z : State) : TcKeep b z (l.foldl (fun z p => tcRegister z p.blk p.cmd) z) :=
  foldl_keeps (fun y => TcKeep b z y) _ (fun y p hy => hy.trans (tcRegister_keep y b p.blk p.cmd)) _ _ (TcKeep.refl b z)

/-- R356: what evaluating a counter leaves alone. -/
theorem tcEval_keep (s : State) (b i : Nat) : TcKeep b s (tcEval s b i) := by
  have h0 : TcKeep b s (fireQueue (fireQueue (fireQueue s b i 0) b i 1) b i 2) := ((fireQueue_keep s b i 0).trans (fireQueue_keep _ b i 1)).trans (fireQueue_keep _ b i 2)
  obtain ⟨p, f, g, l, e⟩ : ∃ p f g l, tcEval s b i =
      List.foldl (fun z (p : Post) => tcRegister z p.blk p.cmd)
          (updPlaza (wakeWhere (fireQueue (fireQueue (fireQueue s b i 0) b i 1) b i 2) p f) g) l := ⟨_, _, _, _, rfl⟩
  rw [e]
  generalize fireQueue (fireQueue (fireQueue s b i 0) b i 1) b i 2 = Z at h0 ⊢
  have h1 := wakeWhere_keep b Z p f
  generalize wakeWhere Z p f = Y at h1 ⊢
  have h2 : TcKeep b Y (updPlaza Y g) := ⟨rfl, rfl, fun _ => rfl, fun _ => rfl, fun _ => rfl⟩
  generalize updPlaza Y g = X at h2 ⊢
  exact ((h0.trans h1).trans h2).trans (registerPosts_keep b l X)

/-- R354: what a counter event leaves: the counter alone. -/
theorem counterEvent_keep (s : State) (b i : Nat) (add last : Bool) (v : BitVec 48) (k : Nat) : (counterEvent s b i add last v k).mem = s.mem ∧ (counterEvent s b i add last v k).net = s.net ∧
    (getTc (counterEvent s b i add last v k) b i).count = (if add then (getTc s b i).count + v else v) ∧ ∀ j, getSlot (counterEvent s b i add last v k) j = getSlot s j := by
  refine ⟨rfl, rfl, ?_, fun _ => rfl⟩
  unfold counterEvent; rw [getTc_updTc, if_pos rfl]

/-- A counter event of the own hub, with nothing else under way, is performed at once. -/
theorem postTc_now (s : State) (sid : Nat) (t : Strand) (b i : Nat) (add last : Bool) (v : BitVec 48) (sc : Option Scope) (hn : s.net = []) (hr : s.resv = []) (hv : s.served = []) (hp : s.prompt = true)
    (hs : ∀ c, sc = some c → inScope sid c (.hub (blkOf sid)) = true) :
    (postHub s sid t (.tc b i add last v) sc).mem = s.mem ∧
    (getTc (postHub s sid t (.tc b i add last v) sc) b i).count = (if add then (getTc s b i).count + v else v) ∧
    ∀ k, getSlot (postHub s sid t (.tc b i add last v) sc) k = getSlot s k := by
  obtain ⟨p, z, h1, h2, h3, h4, h5⟩ := issuePkt_now s (.core (coreOf sid)) (.hub (blkOf sid)) t.uid sid t.ctx (.tc b i add last v) sc 0 hn hr hv hp
    (by unfold rateLimited; simp) hs trivial
  obtain ⟨st, harr⟩ : ∃ st, arrive true z p = performed (counterEvent z b i add last v st) p 0 := by
    have e1 : p.home = .hub (blkOf sid) := by rw [h3]; rfl
    have e2 : p.body = .tc b i add last v := by rw [h3]; rfl
    exact ⟨((strandOf z p.uid).map (·.startId)).getD p.sid, by unfold arrive; simp only [e1, e2]⟩
  have hbad : p.bad = none := by rw [h3]; rfl
  obtain ⟨r1, r2, r3, r4⟩ := counterEvent_keep z b i add last v st
  obtain ⟨q, Z, b1, -, -, -, b5⟩ := performed_done (counterEvent z b i add last v st) p 0 (by rw [r2, h2]) hbad
  have hZ : postHub s sid t (.tc b i add last v) sc = Z := by
    unfold postHub postPkt
    rw [h5]; dsimp only; rw [harr, b1]
  have hz : getTc z b i = getTc s b i := by unfold getTc getHub; rw [h1.rest]
  have hH : getTc Z b i = getTc (counterEvent z b i add last v st) b i := by unfold getTc getHub; rw [b5.rest]
  rw [hZ]
  refine ⟨?_, by rw [hH, r3, hz], fun k => by rw [b5.slots, r4, h1.slots]⟩
  rw [b5.rest]; show (counterEvent z b i add last v st).mem = _; rw [r1, h1.rest]

theorem owes_addDebt (u : Strand) (h : Word) : owes (addDebt u h true) h = true := by
  unfold owes addDebt; split
  · assumption
  · simp

theorem owes_dropDebt (u : Strand) (h : Word) : owes (dropDebt u h) h = false := by
  unfold owes dropDebt; simp

theorem fireQueue_none (s : State) (b i q : Nat) (h : ∀ j ∈ (queueOf s b q).jobs, j.trig = none ∨ ∃ k t, j.trig = some (k, t) ∧ tcReached (getTc s b k).count t = false) : fireQueue s b i q = s := by
  unfold fireQueue; dsimp only
  refine (congrArg (List.foldl _ s) (List.filter_eq_nil_iff.mpr ?_)).trans rfl
  intro j hj
  rcases h j hj with h | ⟨k, t, h1, h2⟩
  · simp [h]
  · rw [h1]; simp; intro hk; subst hk; rw [h2]; simp

end Sys2Proof.Machine
end

