-- ==== Sys2Proof/Laws/Group.lean ====
section
/-! SUPPORT. Groups and lists in memory. -/

namespace Sys2Proof.Machine
open Sys2Proof

theorem entry_cores (x : Args) (s : State) : ∃ cs, entry x s = { s with cores := cs } := by
  unfold entry clearSync; split
  · exact ⟨s.cores, rfl⟩
  · exact ⟨_, rfl⟩

theorem bytesNat_readBytes (m : Map Byte) : ∀ (n a : Nat), bytesNat (readBytes m a n) = readLe m a n
  | 0, _ => rfl
  | n + 1, a => by rw [readBytes, bytesNat, readLe, bytesNat_readBytes m n]

theorem readBlock_own_min (s : State) (sid : Nat) (t : Strand) (sp : List Nat) (ea : Word) (n : Nat) (h : ownSpace ea (min n 16)) 
    (hs : sp.contains 0xF0 = true) (hr : reserved s (spadKey (coreOf sid) (ea.toNat % 2 ^ 56)) n = false) (hp : poisoned s (spadKey (coreOf sid) (ea.toNat % 2 ^ 56)) n = false) :
    readBlock s sid t sp ea n = .ok s (readBytes s.mem (spadKey (coreOf sid) (ea.toNat % 2 ^ 56)) n) := by
  unfold readBlock readNow; rw [target_own s sid t.ctx .read sp false ea _ h hs]; dsimp only; rw [hr, hp]; simp

theorem ownSpace_step4 (ea : Word) (i n : Nat) (h : ownSpace ea 4) (hn : ea.toNat % 2 ^ 56 + 4 * n ≤ 2 ^ 18) (hi : i < n) :
    ownSpace (ea + BitVec.ofNat 64 (4 * i)) 4 ∧ (ea + BitVec.ofNat 64 (4 * i)).toNat % 2 ^ 56 = ea.toNat % 2 ^ 56 + 4 * i := by
  obtain ⟨h1, h2, h3⟩ := h
  have e : ea.toNat / 2 ^ 56 = 0xF0 := by
    have := congrArg BitVec.toNat h1
    rw [BitVec.toNat_ushiftRight, Nat.shiftRight_eq_div_pow] at this
    exact this
  have hw : (ea + BitVec.ofNat 64 (4 * i)).toNat = ea.toNat + 4 * i := by
    rw [BitVec.toNat_add, BitVec.toNat_ofNat]; omega
  refine ⟨⟨?_, by rw [hw]; omega, by rw [hw]; omega⟩, by rw [hw]; omega⟩
  apply BitVec.eq_of_toNat_eq
  rw [BitVec.toNat_ushiftRight, Nat.shiftRight_eq_div_pow, hw]
  show (ea.toNat + 4 * i) / 2 ^ 56 = 0xF0
  omega

theorem readList_own (s : State) (sid : Nat) (t : Strand) (ea : Word) (n : Nat) (h : ownSpace ea 4) (hn : ea.toNat % 2 ^ 56 + 4 * n ≤ 2 ^ 18)
    (hr : reserved s (spadKey (coreOf sid) (ea.toNat % 2 ^ 56)) (4 * n) = false) (hp : poisoned s (spadKey (coreOf sid) (ea.toNat % 2 ^ 56)) (4 * n) = false) (f : State → List Nat → Res) :
    ∀ k i acc, i + k = n → readList s sid t (ea + BitVec.ofNat 64 (4 * i)) k acc f = f s (acc ++ (List.range' i k).map fun j => readLe s.mem (spadKey (coreOf sid) (ea.toNat % 2 ^ 56) + 4 * j) 4) := by
  intro k
  induction k with
  | zero => intro i acc _; unfold readList; simp
  | succ k ih =>
    intro i acc hi
    obtain ⟨w1, w2⟩ := ownSpace_step4 ea i n h hn (by omega)
    have e : spadKey (coreOf sid) (ea.toNat % 2 ^ 56 + 4 * i) = spadKey (coreOf sid) (ea.toNat % 2 ^ 56) + 4 * i := by unfold spadKey; omega
    unfold readList
    rw [readBlock_own_min s sid t recordSpaces _ 4 w1 (by decide) (by rw [w2, e]; exact reserved_sub s _ _ _ _ hr (by omega) (by omega)) (by rw [w2, e]; exact poisoned_sub s _ _ _ _ hp (by omega) (by omega))]
    unfold withBlock; dsimp only
    rw [w2, e, bytesNat_readBytes]
    rw [show ea + BitVec.ofNat 64 (4 * i) + 4 = ea + BitVec.ofNat 64 (4 * (i + 1)) by
      rw [BitVec.add_assoc]; congr 1; apply BitVec.eq_of_toNat_eq; rw [BitVec.toNat_add, BitVec.toNat_ofNat, BitVec.toNat_ofNat, show (4 : Word).toNat = 4 from rfl]; omega]
    rw [ih (i + 1) _ (by omega), List.range'_succ]
    simp

theorem findGroup_known (s : State) (ctx gid : Nat) (g : Group) (h : (s.plaza.groups.find? fun g => g.gid == gid) = some g) (hc : g.ctx = ctx) : findGroup s ctx gid = some g := by
  unfold findGroup
  rw [List.find?_eq_some_iff_append] at h ⊢
  obtain ⟨h1, as, bs, h2, h3⟩ := h
  refine ⟨by simp at h1 ⊢; exact ⟨h1, hc⟩, as, bs, h2, fun a ha => ?_⟩
  have := h3 a ha
  simp at this ⊢; exact .inl this

theorem find_updFirst_same {α : Type} (p : α → Bool) (f : α → α) (l : List α) (a : α) (h : l.find? p = some a) (hp : p (f a) = true) : (updFirst p f l).find? p = some (f a) := by
  induction l with
  | nil => simp at h
  | cons y l ih =>
    unfold updFirst
    by_cases hy : p y = true
    · rw [List.find?_cons_of_pos hy] at h
      cases h
      rw [if_pos hy, List.find?_cons_of_pos hp]
    · rw [List.find?_cons_of_neg hy] at h
      rw [if_neg hy, List.find?_cons_of_neg hy]; exact ih h

theorem known_updGroup (s : State) (gid : Nat) (f : Group → Group) (g : Group) (h : (s.plaza.groups.find? fun g => g.gid == gid) = some g) (hf : (f g).gid = g.gid) :
    ((updGroup s gid f).plaza.groups.find? fun g => g.gid == gid) = some (f g) := by
  have hg : g.gid = gid := by simpa using List.find?_some h
  exact find_updFirst_same _ f _ g h (by simp [hf, hg])

theorem find_filter_keep {α : Type} (p q : α → Bool) (l : List α) (a : α) (h : l.find? p = some a) (hq : q a = true) : (l.filter q).find? p = some a := by
  induction l with
  | nil => simp at h
  | cons y l ih =>
    by_cases hy : p y = true
    · rw [List.find?_cons_of_pos hy] at h; cases h
      rw [List.filter_cons_of_pos hq, List.find?_cons_of_pos hy]
    · rw [List.find?_cons_of_neg hy] at h
      by_cases hqy : q y = true
      · rw [List.filter_cons_of_pos hqy, List.find?_cons_of_neg hy]; exact ih h
      · rw [List.filter_cons_of_neg hqy]; exact ih h

theorem run_done (op : Nat) (x : Args) (body : Body1) (s : State) (z : State) (h : clear op x s = true) (hb : body (entry x s) s.cur (acting s) (readOpnds (acting s) x (fourOf op)) = .done z) :
    run op x body s = .next (finishAt z s.cur) := by
  rw [run_clear op x body s h, hb]; rfl

theorem parkAt_asked (s : State) (sid op : Nat) (k : Nat) (o : Option Opnds) (rs : List RegRef) (w : BitVec 96) : (parkAt s sid op 0 0 none (.asked k) o rs w).trees = s.trees := rfl

theorem setG_mem (s : State) (sid : Nat) (o : Opd) (v : Word) : (setG s sid o v).mem = s.mem ∧ (setG s sid o v).plaza = s.plaza ∧ (setG s sid o v).agenda = s.agenda := by
  unfold setG setReg; split <;> exact ⟨rfl, rfl, rfl⟩

end Sys2Proof.Machine
end

