-- ==== Sys2Proof/Laws/Kv.lean ====
section
/-! SUPPORT. What a KV event leaves alone. -/

namespace Sys2Proof.Machine
open Sys2Proof

/-- What a KV event leaves alone. -/
def KvKeep (s z : State) : Prop := z.net = s.net ∧ z.cores = s.cores

theorem KvKeep.trans {a b c : State} (h : KvKeep a b) (g : KvKeep b c) : KvKeep a c := ⟨g.1.trans h.1, g.2.trans h.2⟩

theorem KvKeep.refl (a : State) : KvKeep a a := ⟨rfl, rfl⟩

theorem kvKeep_listReturn (s : State) (c j v : Nat) : KvKeep s (listReturn s c j v) := by
  unfold listReturn; dsimp only; split <;> exact ⟨rfl, rfl⟩

theorem kvKeep_listTake (s : State) (c j : Nat) : KvKeep s (listTake s c j).2 := by
  unfold listTake; split <;> exact ⟨rfl, rfl⟩

theorem kvKeep_setKey (s : State) (c k : Nat) (d : Option Nat) : KvKeep s (setKey s c k d) := by
  unfold setKey; split <;> exact ⟨rfl, rfl⟩

theorem kvKeep_updDesc (s : State) (c i : Nat) (f g h j k : Nat → Nat) : KvKeep s (updDesc s c i f g h j k) := by unfold updDesc setDesc; exact ⟨rfl, rfl⟩

theorem kvKeep_copies (s : State) (l : List KvCopy) : KvKeep s { s with kvCopies := l } := ⟨rfl, rfl⟩

theorem kvKeep_copies2 (s : State) (l : List KvCopy) (n : Nat) : KvKeep s { s with kvCopies := l, nextId := n } := ⟨rfl, rfl⟩

theorem kvKeep_retire (s : State) (c d tier f : Nat) (b : Bool) : KvKeep s (retireFrame s c d tier f b) := by unfold retireFrame dropFrame; exact ⟨rfl, rfl⟩

theorem kvKeep_dropKey (s : State) (c k : Nat) : KvKeep s (dropKey s c k) := ⟨rfl, rfl⟩

theorem kvKeep_setDesc (s : State) (c i v : Nat) : KvKeep s (setDesc s c i v) := by unfold setDesc; exact ⟨rfl, rfl⟩

theorem kvKeep_setTarget (s : State) (c i v : Nat) : KvKeep s (setTarget s c i v) := by unfold setTarget; exact ⟨rfl, rfl⟩

theorem kvKeep_heal (s : State) (m : Map Byte) (a n : Nat) : KvKeep s (heal { s with mem := m } a n) := ⟨rfl, rfl⟩

theorem kvKeep_abandon (s : State) (c i : Nat) : KvKeep s (abandonMove s c i) := by
  unfold abandonMove; dsimp only; split
  · exact ((kvKeep_copies s _).trans (kvKeep_updDesc _ _ _ _ _ _ _ _)).trans (kvKeep_listReturn _ _ _ _)
  · split
    · exact ((kvKeep_copies s _).trans (kvKeep_updDesc _ _ _ _ _ _ _ _)).trans (kvKeep_listReturn _ _ _ _)
    · exact kvKeep_copies s _

theorem kvKeep_dropCount (s : State) (c i : Nat) : KvKeep s (dropCount s c i) := by
  unfold dropCount; dsimp only; split
  · exact ((kvKeep_updDesc s _ _ _ _ _ _ _).trans (kvKeep_abandon _ _ _)).trans (kvKeep_retire _ _ _ _ _ _)
  · exact kvKeep_updDesc s _ _ _ _ _ _ _

theorem kvKeep_takePair (s : State) (c : Nat) : KvKeep s (takePair s c).2 := by
  unfold takePair; split
  · exact KvKeep.refl s
  · have h1 := kvKeep_listTake s c 0
    rcases h : listTake s c 0 with ⟨f, s1⟩
    rw [h] at h1; dsimp only at h1
    cases f with
    | none => exact h1
    | some f =>
      dsimp only
      have h2 := kvKeep_listTake s1 c 2
      rcases h' : listTake s1 c 2 with ⟨n, s2⟩
      rw [h'] at h2; dsimp only at h2
      cases n with
      | none => exact (h1.trans h2).trans (kvKeep_listReturn _ _ _ _)
      | some n => exact h1.trans h2

theorem kvKeep_event (s : State) (ctx op : Nat) (a b : Word) (k : Nat) (w : Word) (z : State) (h : kvEvent s ctx op a b k = .status w z) : KvKeep s z := by
  have cow : ∀ c key i k zr w z, startCow s c key i k zr = .status w z → KvKeep s z := by
    intro c key i k zr w z h
    unfold startCow at h
    have h1 := kvKeep_takePair s c
    rcases ht : takePair s c with ⟨_ | ⟨f, n⟩, s1⟩
    · rw [ht] at h h1; dsimp only at h h1; cases h; exact h1
    · rw [ht] at h; cases h
  unfold kvEvent at h; dsimp only at h
  split at h
  · cases h
  · split at h
    · unfold kvMapEvent at h
      split at h
      · split at h
        · cases h; exact KvKeep.refl s
        · have h1 := kvKeep_takePair s (kvCtx 0 ctx a)
          rcases ht : takePair s (kvCtx 0 ctx a) with ⟨_ | ⟨f, n⟩, s1⟩
          · rw [ht] at h h1; dsimp only at h h1; cases h; exact h1
          · rw [ht] at h h1; dsimp only at h h1; cases h
            exact (((h1.trans (kvKeep_heal s1 _ _ _)).trans (kvKeep_setDesc _ _ _ _)).trans (kvKeep_setTarget _ _ _ _)).trans (kvKeep_setKey _ _ _ _)
      · split at h
        · cases h; exact KvKeep.refl s
        · cases h
          exact ((kvKeep_setKey s _ _ none).trans (kvKeep_dropKey _ _ _)).trans (kvKeep_dropCount _ _ _)
      · cases h; exact KvKeep.refl s
    · unfold kvRefEvent at h
      split at h
      · cases h; exact KvKeep.refl s
      · dsimp only at h; split at h
        · cases h; exact KvKeep.refl s
        · cases h; exact kvKeep_updDesc _ _ _ _ _ _ _ _
    · unfold kvForkEvent at h
      split at h
      · cases h; exact KvKeep.refl s
      · dsimp only at h; split at h
        · cases h; exact KvKeep.refl s
        · cases h; exact (kvKeep_updDesc _ _ _ _ _ _ _ _).trans (kvKeep_setKey _ _ _ _)
    · unfold kvwEvent at h
      split at h
      · cases h; exact KvKeep.refl s
      · dsimp only at h; split at h
        · split at h
          · cases h; exact KvKeep.refl s
          · exact cow _ _ _ _ _ _ _ h
        · split at h
          · cases h; exact kvKeep_abandon _ _ _
          · exact cow _ _ _ _ _ _ _ h
        · exact cow _ _ _ _ _ _ _ h
        · split at h
          · cases h
          · exact cow _ _ _ _ _ _ _ h
    · unfold kvdemEvent at h
      split at h
      · cases h; exact KvKeep.refl s
      · dsimp only at h
        rcases hb : a.getLsbD 46
        · rw [hb] at h
          simp only [Bool.false_eq_true, if_false] at h
          split at h
          · cases h; exact KvKeep.refl s
          · have h1 := kvKeep_listTake s (kvCtx op ctx a) 1
            rcases hl : listTake s (kvCtx op ctx a) 1 with ⟨_ | fr, s1⟩
            · rw [hl] at h h1; dsimp only at h h1; cases h; exact h1
            · rw [hl] at h h1; dsimp only at h h1; cases h
              exact ((h1.trans (kvKeep_updDesc _ _ _ _ _ _ _ _)).trans (kvKeep_setTarget _ _ _ _)).trans (kvKeep_copies2 _ _ _)
        · rw [hb] at h
          simp only [if_true] at h
          split at h
          · cases h; exact KvKeep.refl s
          · have h1 := kvKeep_listTake s (kvCtx op ctx a) 0
            rcases hl : listTake s (kvCtx op ctx a) 0 with ⟨_ | fr, s1⟩
            · rw [hl] at h h1; dsimp only at h h1; cases h; exact h1
            · rw [hl] at h h1; dsimp only at h h1; cases h
              exact ((h1.trans (kvKeep_updDesc _ _ _ _ _ _ _ _)).trans (kvKeep_setTarget _ _ _ _)).trans (kvKeep_copies2 _ _ _)

theorem landDone_reads (s : State) (x : Args) (Z : State) (h : ∀ k, getSlot Z k = getSlot (entry x s) k) (n : Nat) (w : Word) :
    readG (strandAt (finishAt (updStrand Z s.cur (landIn (.g n) 0xFFFF (w.setWidth 128))) s.cur) s.cur) n = (if n = 0 then 0 else w) ∧
    (strandAt (finishAt (updStrand Z s.cur (landIn (.g n) 0xFFFF (w.setWidth 128))) s.cur) s.cur).pc = (endCheck (acting s)).pc := by
  have hz : strandAt Z s.cur = cleared x (acting s) := by rw [← strandAt_entry]; unfold strandAt; rw [h]
  have : strandAt (finishAt (updStrand Z s.cur (landIn (.g n) 0xFFFF (w.setWidth 128))) s.cur) s.cur = endWait (endCheck (writeG (cleared x (acting s)) n w)) := by
    unfold finishAt; rw [← hz]; unfold strandAt; rw [getSlot_updSlot_same, getSlot_updStrand, if_pos rfl]
    dsimp only [landIn]
    rw [show ((w.setWidth 128 : Vec).setWidth 64) = w by simp]
  rw [this]
  constructor
  · rw [endCheck_reads, readG_writeG]
    by_cases h0 : n = 0
    · subst h0; rw [if_neg (by simp), if_pos rfl]; rfl
    · rw [if_pos ⟨rfl, h0⟩, if_neg h0]
  · rw [endCheck_sameCtl _ _ ((sameCtl_writeG (cleared x (acting s)) n w).trans (sameCtl_cleared x (acting s)))]

end Sys2Proof.Machine
end

