-- ==== Sys2Proof/Tests/Slice0.lean ====
section
/-! SUPPORT. Tests: words decoded, ill-formed terms refused, one step of each family, and for each statement states and
operands that meet its hypotheses. Expected results are calculated by hand from the rules of spec/ that each test names. -/

namespace Sys2Proof.Tests
set_option Elab.async false
open Sys2Proof Sys2Proof.Machine

/-! ## Operands and small states -/

def g (c : BitVec 4) (n : BitVec 6) : Opd := .reg ⟨.g, false, false, c, n⟩
def v (c : BitVec 4) (n : BitVec 6) : Opd := .reg ⟨.v, false, false, c, n⟩
def p (c : BitVec 4) (n : BitVec 6) : Opd := .reg ⟨.p, false, false, c, n⟩
def dab (d a b : Opd) : Args := ⟨false, 0, 0, d, a, b⟩
/-- Strand 9 of context 1, with some registers. -/
def strand : Strand := { Strand.init with uid := 9, ctx := 1, pc := 0x100 }
def withG (l : List (Nat × Word)) : Strand := l.foldl (fun t e => writeG t e.1 e.2) strand
/-- Context 1 runs and holds block 0; the strand is in slot n of core 0, and it is its turn. -/
def at_ (n : Nat) (t : Strand) : State :=
  { State.reset with
    agenda := [], cur := n, nextId := 10, cycle := 5000, dtime := 5000,
    cores := [(0, { Core.init with slots := [(n, { Slot.init with st := .ready, s := t })] })],
    hubs := [(0, { Hub.init with owner := some 1, initDone := true })],
    ctxs := [(1, { Ctx.init with st := .running })] }
def at1 (t : Strand) : State := at_ 1 t

/-! ## Hypotheses met: scalar forms, control and system -/

theorem witness_scalar : gField (g 4 2) = some 2 ∧ gField (g 4 0) = some 0 ∧
    (((List.range 0x1C).map (· + 1)).all fun op => clear op (dab (g 4 2) (g 0 3) (.imm 5)) (at1 (withG [(3, 7)]))) = true := by decide
theorem witness_predicate : pField (p 4 2) = some 2 ∧
    ((List.range 10).all fun i => clear (0x1D + i) (dab (p 4 2) (g 0 3) (g 0 4)) (at1 strand)) = true := by decide
theorem witness_transfer : let x := dab .none .none (.imm 2)
    let y := dab .none (g 0 3) .none
    clear 0x80 (dab .none (.imm 2) .none) (at1 strand) = true ∧ clear 0x82 (dab .none (.imm 2) .none) (at1 strand) = true ∧
    ((at1 strand).cur = 1 ∧ (strand.pc + 16 * (ops (dab .none (.imm 2) .none) (at1 strand)).aw) &&& 15 = 0) ∧
    clear 0x81 y (at1 (withG [(3, 0x200)])) = true ∧ (ops y (at1 (withG [(3, 0x200)]))).aw ≠ exitLink ∧
    clear 0x83 x (at1 { strand with lk := 0x300 }) = true := by decide
theorem witness_transfer_traps : let y := dab .none (g 0 3) .none
    clear 0x81 y (at1 (withG [(3, 0x201)])) = true ∧ (ops y (at1 (withG [(3, 0x201)]))).aw &&& 15 ≠ 0 ∧
    2 ≤ ((ops y (at1 (withG [(3, 0x0200000000000000)]))).aw >>> 56).toNat ∧
    clear 0x80 (dab .none (.imm 0x7FFFFF) .none) (at1 { strand with pc := 0x01FFFFFFFFFFFFF0 }) = true ∧
    2 ≤ (((0x01FFFFFFFFFFFFF0 : Word) + 16 * 0x7FFFFF) >>> 56).toNat ∧ (strand.pc &&& 15 = 0) ∧
    strand.ctx < 64 ∧ (at1 strand).dom.member < 1024 ∧ (at1 strand).cur < 2 ^ 15 := by decide
theorem witness_exit : let y := dab .none (g 0 3) .none
    let z := dab .none (.reg ⟨.g, true, false, 0, 3⟩) .none
    let s := at1 (withG [(3, exitLink)])
    clear 0x81 y s = true ∧ clear 0x81 z s = true ∧ syncRegs z = [.g 3] ∧ (ops y s).aw = exitLink ∧ owesAck s 9 1 .dom = false ∧
    ringHeldBy s 0 9 = none ∧ strand.copies = [] ∧ strand.debts = [] ∧ (addDebt strand 5 false).debts ≠ [] ∧
    clear 0x81 y (at1 (addDebt (withG [(3, exitLink)]) 5 false)) = true ∧
    clear 0x83 y (at_ 0 strand) = true ∧ (acting (at_ 0 strand)).lk = exitLink := by decide
theorem witness_loop : let x := dab .none (g 0 3) (.imm 4)
    let t := { withG [(3, 2)] with lc0 := 3, ls0 := 0x110, le0 := 0x120 }
    clear 0x84 x (at1 strand) = true ∧ clear 0x85 x (at1 strand) = true ∧ clear 0x85 x (at1 t) = true ∧
    ¬(t.ls0 ≤ t.pc + 16 ∧ t.pc + 16 * (ops x (at1 t)).bw ≤ t.le0) ∧ clear 0x86 x (at1 t) = true ∧ clear 0x87 x (at1 { t with lc1 := 1 }) = true ∧
    clear 0x86 x (at1 strand) = true ∧ clear 0x87 x (at1 strand) = true ∧ clear 0x88 (dab .none .none .none) (at1 { t with le0 := 0x100 }) = true := by decide
theorem witness_guard_off : let x : Args := { dab (g 4 2) (g 0 3) (.imm 5) with inv := true }
    argsOf (.add x) = some (1, x) ∧ laneMasked 1 = false ∧ (getSlot (at1 strand) 1).st = .ready ∧ guardOn strand x = false := by decide
theorem witness_privilege : let x := dab .none (g 0 3) .none
    argsOf (.rls x) = some (0xC3, x) ∧ guardOn strand x = true ∧ privBad 0xC3 (at1 strand).cur strand x = true := by decide
theorem witness_halt : [0xC0, 0xC1, 0xC2].all (fun op => clear op (dab .none (.imm 77) .none) (at1 strand)) = true := by decide
theorem witness_special : clear 0xC4 (dab (g 0 2) (p 0 1) .none) (at1 strand) = true ∧ clear 0xC9 (dab (g 0 2) (.imm 3) .none) (at1 strand) = true ∧
    clear 0xC5 (dab (.reg ⟨.s, false, false, 0, 5⟩) (g 0 3) .none) (at1 strand) = true := by decide
/-- `MTS spflag` in a cycle with an offence of its own and in one without, `MTS tdbase` in both kinds of context. -/
theorem witness_special_cases : let x := fun n => dab (.reg ⟨.s, false, false, 0, n⟩) (g 0 3) .none
    let o : Offence := { cycle := 5000, word := 0x10100, ea := 8, sid := 1, n := 1 }
    let s := fun c => { at1 (withG [(3, 0x100)]) with ctxs := [(1, { Ctx.init with st := .running, spNow := some { o with cycle := c }, spValid := true })] }
    (getSlot (at1 strand) 1).st = .ready ∧ guardOn strand (x 10) = true ∧ idxOf (x 10).d = 10 ∧ strand.ctx ≠ 0 ∧
    clear 0xC5 (x 10) (at1 { strand with ctx := 0 }) = true ∧ clear 0xC5 (x 6) (s 5000) = true ∧ idxOf (x 6).d = 6 ∧
    (ops (x 6) (s 5000)).aw.getLsbD 8 = true ∧ (getCtx (s 5000) 1).spNow = some o ∧ o.cycle = (s 5000).cycle ∧ clear 0xC5 (x 6) (s 4000) = true := by decide
theorem witness_time : let x := dab (g 0 2) (g 0 3) .none
    clear 0xC6 x (at1 strand) = true ∧ owesAck (entry x (at1 strand)) 9 1 .dom = false ∧ clear 0xC7 x (at1 (withG [(3, 6000)])) = true ∧
    (at1 strand).dtime < (ops x (at1 (withG [(3, 6000)]))).aw.toNat ∧ (ops x (at1 strand)).aw.toNat ≤ (at1 strand).dtime ∧
    clear 0xC8 x (at1 strand) = true := by decide
/-- The record of a wait in a form, on an object. -/
def waitFor (form : Nat) (obj : Word) : Wait :=
  { form := form, obj := obj, left := none, arg := 0, since := 1, stage := .test, rel := false, opnds := none, syncs := [], word := 0, got := [] }
def spilled : Spill :=
  { place := 15, slot := 4, strand := { strand with uid := 4 }, since := 1, written := true, ready := true, target := none }
def unitIn : UnitEntry := { unit := { id := 5, launch := 2048, words := [1, 0x400, 0x500] }, taken := false, order := 1 }
def full (st : SlotState) (t : Strand) : Slot := { Slot.init with st := st, s := t }
/-- Slot zero's strand, with an ended strand in slot 2, a parked one in slot 3, an evicted one and a unit. -/
def many (t : Strand) : State :=
  { at_ 0 t with cores := [(0, { Core.init with
      slots := [(0, full .ready t), (2, full .ended { strand with uid := 2 }),
                (3, full .parked { strand with uid := 3, wait := some (waitFor 0x216 0) })],
      spill := [spilled], unitInbox := [(0, unitIn)] })] }
theorem witness_slots : let x := dab (g 0 2) (g 0 3) (g 0 4)
    let s := many (withG [(3, 0)])
    let e := entry x s
    clear 0xC3 x s = true ∧ (getSlot e ((ops x s).aw.toNat % 2 ^ 15)).st ≠ .halted ∧ owesAck e 9 0 .dev = false ∧
    clear 0xCA x s = true ∧ (ops x s).bw.getLsbD 63 = false ∧ emptySlot (getCore e 0) 1 = some 1 ∧
    clear 0xCB (dab (g 0 2) (.imm 2) .none) s = true ∧ (getSlot s 2).st = .ended ∧
    clear 0xCC (dab (g 0 2) (.imm 3) .none) s = true ∧ evictReason s 3 = 0 ∧ (spillPlace (getCore e 0)).isSome = true ∧
    clear 0xCD x s = true ∧ ((oldestSpill (getCore e 0)).bind fun y => spillSlot e 0 y).isSome = true ∧
    clear 0xCD x (at1 strand) = false ∧ clear 0xCD x (at_ 0 strand) = true ∧ oldestSpill (getCore (at_ 0 strand) 0) = none ∧
    clear 0xCE x s = true ∧ clear 0xCE x (at1 strand) = true ∧ strand.copies = [] ∧ (spillPlace (getCore (at1 strand) 0)).isSome = true ∧
    clear 0xCF x s = true ∧ (unitOldest (getCore e 0)).isSome = true := by decide

/-! ## Hypotheses met: vector forms -/

theorem witness_masked : 0 < 32 ∧ 32 * 4 ≤ 128 := by decide
theorem witness_vector : let x := dab (v 3 1) (v 0 2) (v 0 3)
    vField x.d = some 1 ∧ isFloat (codeOf x.d) = false ∧ isFloat (codeOf (v 5 1)) = true ∧
    ([0x100, 0x101, 0x102, 0x103, 0x104, 0x105, 0x106, 0x107, 0x108, 0x109, 0x10A, 0x10B, 0x10C, 0x10D, 0x114, 0x115, 0x116, 0x180, 0x181,
      0x182, 0x183, 0x184, 0x185, 0x186, 0x187, 0x188, 0x1C0, 0x1C1, 0x1C2, 0x1C3].all fun op =>
      clear op x (at1 strand) && clear op (dab (v 5 30) (v 0 2) (v 0 3)) (at1 strand)) = true := by decide
theorem witness_compare : elemBits 5 ∈ [8, 16, 32, 64] ∧ lanesOf 5 = 128 / elemBits 5 ∧ pField (p 5 3) = some 3 ∧
    ([Cond.eq, .ne, .lt, .le, .gt, .ge].all fun c => clear (0x10E + condNum c) (dab (p 5 3) (v 0 2) (v 0 3)) (at1 strand)) = true ∧
    clear 0x1C4 (dab (g 5 2) (v 0 2) (.imm 3)) (at1 strand) = true := by decide
/-- NaNs of the lane formats, one of them signalling. -/
theorem witness_nan_lanes : fpValue fp32 0x7FC00000 = .nan false ∧ fpValue fp32 0x7F800001 = .nan true ∧ isNan (fpValue fp32 0x3F800000) = false ∧
    [FVal.nan true, .inf false].any isNan = true := by decide +kernel
theorem witness_rounding : (0 : Int) ≤ 1 ∧ (0 : Int) < 1 := by decide
theorem witness_nan : isNan (.nan true) = true ∧ fpExp2 ∈ [fpExp2, fpLog2, fpRcp, fpRsq, fpTanh] := ⟨rfl, List.mem_cons_self⟩

/-! ## Hypotheses met: encoding, fetch and waits -/

def addWord : BitVec 96 := 0x00403400020000004C000005#96
theorem witness_words : wellFormed (.add (dab (g 3 2) (g 0 3) (.imm 5))) = true ∧ (encode (.add (dab (g 3 2) (g 0 3) (.imm 5)))).isSome = true := by decide
theorem witness_sync : let x := dab (g 4 2) (.reg ⟨.g, true, false, 0, 3⟩) (.imm 5)
    let s := at1 { strand with gF := 0 }
    argsOf (.add x) = some (1, x) ∧ passes 1 x s = true ∧ (acting s).wait = none ∧ (syncRegs x).all (fullOf (acting s)) = false := by decide
theorem witness_issue : let s := State.reset.withFetchWord 96 (0x1A * 2 ^ 86 + 2 * 2 ^ 52 + (2 ^ 24 + 5) * 2 ^ 26 + 3 * 2 ^ 24)
    let s1 := (nextAct s).2
    (nextAct s).1 = .issue 0 ∧ (getSlot s1 0).st = .ready ∧ ctxRuns s1 (strandAt s1 0).ctx = true ∧ dueNow (strandAt s1 0) = none ∧
    waitWord (strandAt s1 0) = none ∧ ((strandAt s1 0).pc >>> 56).toNat < 2 ∧ (strandAt s1 0).pc.toNat % 16 = 0 ∧
    (ibufWord s1 0 (strandAt s1 0).pc).isSome = true := by decide +kernel
theorem witness_memory_form : memWf ([(5, 1), (9, 200)] : Map Byte) = true := by decide

/-! ## Hypotheses met: memory forms -/

theorem own_space : ownSpace 0xF000000000000040 8 ∧ ownSpace 0xF000000000000040 16 ∧ ownSpace 0xF000000000000040 64 ∧
    ownSpace 0xF000000000000040 4 := ⟨⟨by decide, by decide, by decide⟩, ⟨by decide, by decide, by decide⟩, ⟨by decide, by decide, by decide⟩,
    ⟨by decide, by decide, by decide⟩⟩
/-- g3 holds an address of the own scratchpad, g4 a number. -/
def inOwn : State := at1 (withG [(3, 0xF000000000000040), (4, 3)])
theorem witness_own : let x := dab (g 4 2) (g 0 3) (.imm 0)
    let y := dab (v 0 2) (g 0 3) (.imm 0)
    [0x200, 0x201, 0x204, 0x205, 0x206, 0x207, 0x208, 0x209, 0x20A, 0x20B, 0x20C, 0x20D, 0x20E, 0x20F].all (fun op => clear op x inOwn) = true ∧
    clear 0x202 y inOwn = true ∧ clear 0x203 y inOwn = true ∧ address x inOwn 8 = 0xF000000000000040 ∧ address y inOwn 16 = 0xF000000000000040 ∧
    reserved inOwn (ownKey inOwn 0xF000000000000040) 128 = false ∧ poisoned inOwn (ownKey inOwn 0xF000000000000040) 128 = false ∧
    owesAck inOwn 9 1 .dom = false ∧ (0xF000000000000040 : Word).toNat % 2 ^ 56 + 8 * 5 ≤ 2 ^ 18 := by decide
theorem witness_access_traps : let x := dab (g 4 2) (g 0 3) (.imm 0)
    clear 0x200 x (at1 (withG [(3, 0xF400000000000000)])) = true ∧
    (address x (at1 (withG [(3, 0xF400000000000000)])) 8 >>> 56).toNat ∉ [0xF0, 0xF1, 0, 0xFE] ∧
    (address x (at1 (withG [(3, 0xF000000000000041)])) 8).toNat % 8 ≠ 0 ∧ laneMask strand x ≠ 0 := by decide
theorem witness_out_of_range : let x := dab (g 4 2) (g 0 3) (.imm 0)
    let s := at1 (withG [(3, 0xF000000000040000)])
    address x s 8 >>> 56 = 0xF0 ∧ 2 ^ 18 ≤ (address x s 8).toNat % 2 ^ 56 ∧ (address x s 8).toNat % 8 = 0 ∧
    clear 0x200 x s = true ∧ clear 0x201 x s = true := by decide
/-- An offence of strand 4 came first in this cycle. -/
theorem witness_offences : let x := dab (g 4 2) (g 0 3) (.imm 0)
    let o : Offence := { cycle := 5000, sid := 4, n := 1, ea := 8, word := 0 }
    let s := { at1 (withG [(3, 0xF000000000040000)]) with
      ctxs := [(1, { Ctx.init with st := .running, spValid := true, spMine := true, spNow := some o })] }
    clear 0x200 x s = true ∧ clear 0x201 x s = true ∧ (getCtx s 1).spValid = true ∧ (getCtx s 1).spMine = true ∧
    (getCtx s 1).spNow = some o ∧ o.cycle = s.cycle ∧ s.cur < o.sid := by decide
/-- A packet to a quay, from the strand. -/
def pkt (b : Body) (st : PktSt) : Pkt :=
  { k := 5, ord := 5, node := 0, via := localIn, seat := 5, since := some 0, again := false, src := .core 0, home := .quay 0 0, uid := 9, sid := 1, ctx := 1, body := b, route := [], ring := none, scope := none,
    st := st, ans := 0, bad := none, limited := false, colour := false, ea := 0, reply := none, got := [] }
def sent (b : Body) (st : PktSt) : State := { at1 strand with net := [pkt b st] }
theorem witness_fence : let x := dab .none .none .none
    ([Scope.core, .blk, .dst, .dev, .dom].all fun c => clear (0x210 + scopeNum c) x (at1 strand)) = true ∧ owesAck (at1 strand) 9 1 .dom = false ∧
    owesAck (sent (.store 0 8 0xFF 0) .flying) 9 1 .dom = true := by decide
/-- An exit and a REL that wait for an access of the strand. -/
theorem witness_drain : let busy := fun (s : State) => { s with net := [pkt (.store 0 8 0xFF 0) .flying] }
    let s := busy (at1 (withG [(3, exitLink)]))
    let x := dab (g 4 2) (g 0 3) (.imm 0)
    clear 0x81 (dab .none (g 0 3) .none) s = true ∧ owesAck s 9 1 .dom = true ∧ owesAck (busy inOwn) 9 1 .blk = false ∧
    clear (0x20B + scopeNum .dom) x (busy inOwn) = true ∧ owesAck (busy inOwn) 9 1 .dom = true ∧
    reserved (busy inOwn) (ownKey inOwn 0xF000000000000040) 8 = false := by decide
theorem witness_atomic : let x := dab (g 4 2) (g 0 3) (g 0 4)
    ((List.range 9).all fun i => clear (0x280 + i) x inOwn) = true ∧ codeOf x.d ∈ [3, 4, 11, 12] ∧ (ops x inOwn).aw = 0xF000000000000040 ∧
    inOwn.net = [] ∧ inOwn.resv = [] ∧ inOwn.served = [] ∧ inOwn.prompt = true ∧ poisoned inOwn (ownKey inOwn 0xF000000000000040) 8 = false ∧ codeOf (g 5 2) = 5 := by decide

/-! ## Hypotheses met: messages, flags and objects -/

/-- Context 1 holds block 0, whose District is ready. -/
def ready (s : State) : State := { s with mgmt := { Mgmt.init with ready := 0xFFFFFFFFFFFFFFFF } }
theorem witness_send : let x := dab (g 0 2) (g 0 3) (.imm 0x50008)
    let s := ready (at1 (withG [(2, 0xF100000000080000), (3, 0xF000000000000040)]))
    let d := (ops x s).dw
    clear 0x215 x s = true ∧ d >>> 56 = 0xF1 ∧ d.toNat % 2 ^ 56 = handleCore d * 2 ^ 19 ∧ handleCore d ≠ 0 ∧ blkOfCore (handleCore d) = 0 ∧
    strand.wait = none ∧ reachesBlk s 1 0 = true ∧ reserved s (spadKey 0 0x40) 8 = false ∧ poisoned s (spadKey 0 0x40) 8 = false ∧ distReady s (handleCore d / 512) = true ∧ (ops x s).bw.toNat % 256 = 8 ∧
    (ops x s).bw.toNat = (ops x s).bw.toNat / 2 ^ 16 % 2 ^ 16 * 2 ^ 16 + 8 ∧ mapGet 2 (getCore s 0).credits 1 ≠ 0 := by decide
def message : InEntry := { InEntry.init with full := true, reserved := true, order := 1, bytes := List.replicate 24 7 }
theorem witness_receive : let x := dab (g 0 2) (g 0 3) .none
    let y := dab (g 0 2) (g 0 3) (.imm 0)
    let s := { inOwn with cores := [(0, { getCore inOwn 0 with inbox := [(3, message)] })] }
    gField x.d = some 2 ∧ clear 0x216 x s = true ∧ isChannel s 0 0x40 = false ∧ inboxOldest (getCore s 0) = some (3, message) ∧
    inboxOldest (getCore inOwn 0) = none ∧ timeOut y (ops y inOwn) = some 0 ∧ timeOut x (ops x inOwn) = none ∧ clear 0x216 y inOwn = true := by decide
/-- A channel header at 0x40 of core 0: depth 4, 32 bytes, one producer, open. -/
def chanMem (open_ : Nat) : Map Byte := writeBytes [] (spadKey 0 0x40) [4, 0, 32, 1, 0, 0, 0, BitVec.ofNat 8 (128 * open_)]
theorem witness_channel : let x := dab .none (g 0 3) (.imm 0)
    let y := dab .none (g 0 3) (.imm 1)
    let s := { inOwn with mem := chanMem 1 }
    clear 0x2CA x inOwn = true ∧ (ops x inOwn).bw = 0 ∧ chOpenBit inOwn 0 0x40 = false ∧ (getCore inOwn 0).chans.length < 8 ∧
    clear 0x2CA y s = true ∧ (ops y s).bw = 1 ∧ chOpenBit s 0 0x40 = true ∧ prodBit (getCore s 0) 0x40 9 = none ∧
    chRegistered s 0 0x40 < chProducers s 0 0x40 ∧ debtFull strand (spadHandle 3 0 0x40) = false ∧
    lowestClear (chRegMap s 0 0x40) 64 = some 0 := by decide
theorem witness_channel_again : let y := dab .none (g 0 3) (.imm 1)
    let s := { inOwn with mem := chanMem 1, cores := [(0, { getCore inOwn 0 with prods := [(0x40, 0, 9)] })] }
    clear 0x2CA y s = true ∧ (ops y s).bw = 1 ∧ chOpenBit s 0 0x40 = true ∧ (prodBit (getCore s 0) 0x40 9).isSome = true ∧
    s.net = [] ∧ s.resv = [] ∧ debtFull (acting s) (spadHandle 3 0 0x40) = false := by decide
theorem witness_flags : let x := dab (g 0 2) (g 0 3) (g 0 4)
    let s := { at1 (withG [(3, 5), (4, 20)]) with prompt := false }
    clear 0x217 x s = true ∧ s.net = [] ∧ 0 < (ops x s).bw.toNat ∧ (ops x s).bw.toNat < 64 ∧ putForeign s 1 5 = false ∧
    clear 0x218 (dab (g 0 2) .none .none) s = true ∧ copying strand (flagReg (g 0 2)) = false ∧ inFile (flagReg (g 0 2)) = true ∧
    clear 0x219 (dab (g 0 2) (g 0 5) .none) s = true ∧
    handleBad (regHandle 5 (.g 20)) = false ∧ clear 0x2CF x s = true ∧ debtFull strand (regHandle 5 (.g 20)) = false ∧ clear 0x2D0 x s = true := by decide
/-- Hardware barrier 3 of block 0, with the strand as member 0. -/
def bar : HBar := { HBar.init with alloc := true, ctx := 1, mem := 1, who := [(0, 9)] }
def withBar (h : HBar) (t : Strand) : State := { at1 t with hubs := [(0, { Hub.init with owner := some 1, hb := [(3, h)] })] }
theorem witness_barrier : let x := dab (g 0 2) (.imm 3) .none
    let s := withBar bar strand
    let t := { strand with arrived := [(hbKey 0 3, 0)] }
    clear 0x2C0 x s = true ∧ (getHb s 0 0).alloc = false ∧
    (∀ j, j < 32 → (getHb { s with hubs := [(0, { Hub.init with owner := some 1, hb := (List.range 32).map fun i => (i, bar) })] } 0 j).alloc = true) ∧
    clear 0x2C1 x (withBar { bar with who := [], mem := 0 } strand) = true ∧ hbEntry { bar with who := [], mem := 0 } 9 = none ∧
    lowestClear (hbUsed { bar with who := [], mem := 0 }) 128 = some 0 ∧ bitCount (hbUsed bar) 128 < 128 ∧ debtFull strand (hbHandle 0 3) = false ∧
    clear 0x2C2 x s = true ∧ hbEntry bar 9 = some 0 ∧ hbArrivedIn strand 0 3 ≠ some bar.phase ∧
    clear 0x2C3 x (withBar { bar with phase := 1 } t) = true ∧ hbArrivedIn t 0 3 = some 0 ∧ hbEntry { bar with phase := 1 } 9 = some 0 ∧
    clear 0x2C4 x s = true ∧ setBit bar.mem 0 false &&& ~~~ ({ bar with mem := 3 }).arr = 0 ∧
    setBit ({ bar with mem := 3 }).mem 0 false &&& ~~~ bar.arr ≠ 0 ∧ clear 0x2C5 x (withBar { bar with mem := 0, who := [] } strand) = true ∧
    hbWaiters (entry x s) 0 3 = 0 ∧ s.served = [] ∧ s.resv = [] ∧ s.prompt = true ∧ strand.wait = none ∧ bar.alloc = true ∧ bar.ctx = 1 := by decide
/-- The events of a cycle have completed a phase of one barrier, and not of another. -/
theorem witness_barrier_test : let full := { bar with arr := 1, moved := true }
    let short := { bar with mem := 3, arr := 1, moved := true }
    (full.moved = true ∧ full.mem &&& ~~~ full.arr = 0) ∧ ¬ (short.mem &&& ~~~ short.arr = 0) := by decide
/-- Header bytes at 0x40 of core 0, in strand 9's scratchpad: a ring of 2 slots of 16 bytes and 1 producer. -/
def ring (reg token tail full : BitVec 8) : List Byte :=
  [2, 0, 16, 0, token, reg, 1, 0] ++ [reg, 0, 0, 0, 0, 0, 0, 0] ++ [token, 0, 0, 0, 0, 0, 0, 0] ++ [0, 0, tail, 0, 0, 0, 0, 0] ++ [full]
def withRing (bs : List Byte) (prods : List (Nat × Nat × Nat)) (t : Strand) : State :=
  { at1 t with
    mem := writeBytes [] (spadKey 0 0x40) bs
    cores := [(0, { Core.init with slots := [(1, full .ready t)], rings := [{ off := 0x40, holders := [] }], prods := prods })] }
theorem witness_message_barrier : let x := dab (g 0 2) (g 0 3) (.imm 3)
    let y := dab (g 0 2) (g 0 3) (.imm 0)
    let s := inOwn
    let odd := at1 (withG [(3, 0xF000000000000041)])
    gField y.d = some 2 ∧ s.net = [] ∧ (ops x s).aw = 0xF000000000000040 ∧ (ops x s).bw.toNat % 2 ^ 32 ≠ 0 ∧
    ([0x2C6, 0x2C7, 0x2C8].all fun op => clear op x s) = true ∧ clear 0x2C9 y s = true ∧ clear 0x2C9 y odd = true ∧
    (ops y s).aw &&& 14 = 0 ∧ (ops y odd).aw &&& 14 = 0 ∧ (ops y odd).aw &&& ~~~ 15 = 0xF000000000000040 ∧
    mbPhase odd 0 0x40 ≠ ((ops y odd).aw &&& 1).toNat ∧ mbPhase s 0 0x40 = ((ops y s).aw &&& 1).toNat ∧ timeOut y (ops y s) = some 0 ∧
    portClear (entry y s) 0 9 (.core 0) = true ∧ clear 0x2C9 y { s with net := [{ pkt (.mb 0 0x40 1 1) .flying with home := .core 0 }] } = true ∧
    portClear (entry y { s with net := [{ pkt (.mb 0 0x40 1 1) .flying with home := .core 0 }] }) 0 9 (.core 0) = false := by decide
theorem witness_ring : let x := dab (g 0 2) (g 0 3) (g 0 5)
    let t := withG [(3, 0xF000000000000040), (5, 0xF000000000000100)]
    let fresh := withRing (ring 0 0 0 0) [] t
    let debt : Strand := addDebt t (spadHandle 4 0 0x40) false
    let owing := withRing (ring 1 0 0 0) [(0x40, 0, 9)] debt
    let filled := withRing (ring 1 0 1 1) [(0x40, 0, 9)] t
    clear 0x2CB x fresh = true ∧ (ops x fresh).aw = 0xF000000000000040 ∧ prodBit (getCore fresh 0) 0x40 9 = none ∧
    rgRegistered fresh 0 0x40 < rgProducers fresh 0 0x40 ∧ debtFull t (spadHandle 4 0 0x40) = false ∧ lowestClear (rgRegMap fresh 0 0x40) 64 = some 0 ∧
    clear 0x2CC x owing = true ∧ owes debt (spadHandle 4 0 0x40) = true ∧ rgProduces owing 0 0x40 9 = true ∧ rgRoom owing 0 0x40 = true ∧ (ops x owing).bw = 0xF000000000000100 ∧
    (0x100 : Nat) + rgBytes owing 0 0x40 ≤ 2 ^ 18 ∧ reserved owing (ownKey owing 0xF000000000000100) 16 = false ∧
    poisoned owing (ownKey owing 0xF000000000000100) 16 = false ∧ rgBytes owing 0 0x40 = 16 ∧
    clear 0x2CD x filled = true ∧ rgHeld filled 0 0x40 9 = none ∧ (ringReg (getCore filled 0) 0x40).isSome = true ∧ rgPresent filled 0 0x40 = true ∧
    clear 0x2CE x owing = true ∧ prodBit (getCore owing 0) 0x40 9 = some 0 ∧ (rgTokMap owing 0 0x40).getLsbD 0 = false := by decide

/-! ## Hypotheses met: engines and counters -/

/-- Virtual address 0 on is mapped to District 0's memory in block 0's TLB; the descriptor table lies at 0. -/
def page : TlbEntry :=
  { tlb := 0, ctx := 1, va := 0, size := 0x200000, pa := 0x200000, r := true, w := true, x := false, key := none }
def mapped (s : State) : State := { ready s with tlb := [page] }
/-- The state after a block that was read, and the state after a form's two descriptors. -/
def okOf (b : Block) : State := match b with | .ok s _ => s | _ => State.reset
def tableRead (x : Args) (s z : State) (lo : Nat) : Block :=
  readBlock z 1 (acting s) tableSpaces (tdAddr z 1 (fld (ops4 x s).a 0 lo 8)) 64
def bothRead (x : Args) (s : State) : State := okOf (tableRead x s (okOf (tableRead x s (entry x s) 48)) 40)
/-- Both descriptors of a command are read: descriptor 0 twice, then descriptors 0 and 1, which lie in banks of their own. -/
theorem witness_submission : let x := dab (g 0 2) (v 0 8) (g 0 16)
    let s := mapped (at1 strand)
    let z := List.replicate 64 (0 : Byte)
    let E1 := okOf (tableRead x s (entry x s) 48)
    tableRead x s (entry x s) 48 = .ok E1 z ∧ tableRead x s E1 40 = .ok (bothRead x s) z := by decide +kernel
theorem witness_descriptor : let s := mapped (at1 strand)
    s.resv = [] ∧ gotIn (strandAt s s.cur) = [] ∧ target s 1 1 .read tableSpaces false 64 16 = .cell (.quay 0 2) 0x200040 ∧
    portClear s 0 9 (.quay 0 2) = true ∧ portsFree s 0 (keyPorts s 0x200040 64) = true ∧ poisoned s 0x200040 64 = false := by decide +kernel
theorem witness_queues : let x := dab (g 0 2) (v 0 8) (g 0 16)
    let y := dab (g 0 2) (.imm 5) .none
    let s := mapped (at1 strand)
    s.net = [] ∧ clear 0x302 x s = true ∧ mxReserved (ops4 x s).a = false ∧ clear 0x304 x s = true ∧ cpReserved (ops4 x s).a = false ∧
    ([0, 1, 2].all fun q => queueRoom s 0 q && queueRoom (bothRead x s) 0 q) = true ∧ copyQueue (ops4 x s).a = 1 ∧
    clear 0x30A y s = true ∧ (ops y s).aw.toNat = 5 := by decide +kernel
theorem witness_table : let x := dab .none (.imm 1) (g 0 3)
    let s := mapped inOwn
    let e := entry x s
    clear 0x300 x s = true ∧ clear 0x301 x s = true ∧ (ops x s).aw.toNat = 1 ∧ (ops x s).bw = 0xF000000000000040 ∧
    target e 1 1 .write tableSpaces false (tdAddr e 1 1) 16 = .cell (.quay 0 2) 0x200040 ∧
    target e 1 1 .read tableSpaces false (tdAddr e 1 1) 16 = .cell (.quay 0 2) 0x200040 ∧ portClear e 0 9 (.quay 0 2) = true ∧ portsFree e 0 (keyPorts e 0x200040 64) = true ∧ gotIn (acting s) = [] ∧
    reserved s (ownKey s 0xF000000000000040) 64 = false ∧ reserved s 0x200040 64 = false ∧ poisoned s (ownKey s 0xF000000000000040) 64 = false ∧
    poisoned s 0x200040 64 = false := by decide
theorem witness_buffer : let x := fun c => dab (v c 4) (.imm 16) (.imm 1)
    let y := dab (g 1 2) (g 0 3) (.imm 8)
    let z := dab (v 1 2) (g 0 3) (.imm 16)
    let s := at1 (withG [(3, 0xF000000000000040)])
    ([0, 5, 6, 7, 9].all fun c => clear 0x303 (x c) s) = true ∧ (ops (x 0) s).bw.toNat / 8 = 0 ∧ (ops (x 0) s).aw.toNat = 16 ∧
    poisoned s (bufKey 0xF6 0 16) 16 = false ∧ poisoned s (accKey 0 16) 160 = false ∧ lanesOfFmt 6 = 8 ∧
    clear 0x305 y s = true ∧ clear 0x305 z s = true ∧ (ops y s).aw + (ops y s).bw = 0xF000000000000048 ∧ cprSize y = 8 ∧ cprSize z = 16 ∧
    reserved s (ownKey s 0xF000000000000048) 32 = false ∧ poisoned s (ownKey s 0xF000000000000048) 32 = false ∧
    (cprRegs y).find? (copying strand) = none ∧ (cprRegs z).find? (copying strand) = none ∧ strand.copies = [] ∧
    owes strand (regHandle 1 (.g 2)) = false ∧ debtFull strand (regHandle 1 (.g 2)) = false ∧ debtFull strand (regHandle 1 (.v 2)) = false := by decide
/-- A job of sequence 0, in a state. -/
def job (st : Nat) : Job :=
  { seq := 0, kind := .matrix, cmd := 0, descs := [0, 0], state := st, status := 0, detail := 0, trig := none, promise := none, missed := false,
    sid := 1, ctx := 1, halted := false, progress := 0, stopping := false, mask := 0, parts := [], goal := 0, redo := [], lapsed := false }
def withJob (n : Nat) (js : List Job) (t : Strand) : State :=
  { at_ n t with hubs := [(0, { Hub.init with owner := some 1, mq := { Queue.init with jobs := js, next := 1 } })] }
theorem witness_job : let x := dab (g 0 2) (g 0 3) .none
    let s := withJob 1 [job 0] strand
    let r := withJob 0 [job 3] (withG [(3, 0x8000000000000000)])
    gField x.d = some 2 ∧ jhOk s 1 0 = true ∧ clear 0x308 x s = true ∧ jobState s 0 = 0 ∧ jobState (withJob 1 [] strand) 0 = 4 ∧
    jhOk (withJob 1 [] strand) 1 0 = true ∧ ([0x306, 0x307].all fun op => clear op x (withJob 1 [] strand)) = true ∧ clear 0x306 x s = true ∧
    clear 0x309 x s = true ∧ jcanHandle (ops x s).aw = 0 ∧ jobState (cancelJob (entry x s) 0) 0 = 4 ∧ findJob s 0 = some (job 0) ∧
    clear 0x309 x r = true ∧ (ops x r).aw.getLsbD 63 = true ∧ jhOk r 1 (jcanHandle (ops x r).aw) = true ∧ slotOf r.cur = 0 ∧
    ownsBlk (entry x r) 1 (jhBlk (jcanHandle (ops x r).aw)) = true ∧
    (let y := withJob 1 [job 3] (withG [(3, 0x8000000000000000)])
     clear 0x309 x y = true ∧ jhOk y 1 (jcanHandle (ops x y).aw) = true ∧ slotOf y.cur ≠ 0) := by decide +kernel
theorem witness_counter : let x := dab (g 0 2) (.imm 3) (g 0 4)
    let s := at1 (withG [(4, 0x8000000000000005)])
    let y := at1 (withG [(4, 5)])
    gField x.d = some 2 ∧ s.net = [] ∧ s.prompt = true ∧ (ops x s).aw.toNat < 64 ∧ (ops x s).bw.toNat / 2 ^ 48 % 2 ^ 15 = 0 ∧
    clear 0x30B x s = true ∧ clear 0x30C x s = true ∧ (ops x s).bw.getLsbD 63 = true ∧ tcRegistered s 0 3 strand.startId < 32 ∧ s.served = [] ∧ s.resv = [] ∧ debtFull strand (tcHandle 0 3) = false ∧
    clear 0x30D x y = true ∧ (ops x y).bw.toNat / 2 ^ 48 = 0 ∧ tcReached (getTc y 0 3).count 5 = false ∧ tcReached (getTc y 0 3).count 0 = true ∧
    clear 0x30D x (at1 strand) = true ∧ (ops x (at1 strand)).bw = 0 ∧ portClear (entry x (at1 strand)) 0 9 (.hub 0) = true ∧
    (getTc (at1 strand) 0 3).moved = false := by decide
theorem witness_trigger : let x := dab (g 0 2) (v 0 8) (g 0 16)
    let s := mapped (at1 (withG [(16, 0x0003000000000005)]))
    let w := (ops4 x s).bw.toNat
    clear 0x30E x s = true ∧ s.net = [] ∧ w / 2 ^ 48 % 64 = 3 ∧ w / 2 ^ 54 % 256 = 0 ∧ w / 2 ^ 62 < 2 ∧ mxReserved (ops4 x s).a = false ∧
    queueRoom s 0 0 = true ∧ (queueOf s 0 0).jobs = [] ∧ tcReached (getTc s 0 3).count (BitVec.ofNat 48 w) = false := by decide +kernel
theorem witness_trigger_read : let x := dab (g 0 2) (v 0 8) (g 0 16)
    let s := mapped (at1 (withG [(16, 0x0003000000000005)]))
    tableRead x s (entry x s) 48 = .ok (okOf (tableRead x s (entry x s) 48)) (List.replicate 64 0) ∧
    tableRead x s (okOf (tableRead x s (entry x s) 48)) 40 = .ok (bothRead x s) (List.replicate 64 0) ∧
    queueRoom (bothRead x s) 0 0 = true := by decide +kernel

/-! ## Hypotheses met: groups, launches and the block table -/

/-- Group 0x8000 of context 1, with blocks 0 and 1 of this device. -/
def group (st : Nat) (owners : List (Nat × Nat)) : Group :=
  { gid := 0x8000, ctx := 1, entries := [0, 1], state := st, lost := 4, owners := owners, marked := [], posts := [(0, 1)], tickets := 0,
    plaza := 0, clear := [], trapped := false }
def withGroup (gr : Group) (ps : List Post) (es : List EndedPost) (s : State) : State :=
  { s with plaza := { Plaza.init with groups := [gr], posts := ps, ended := es } }
def post : Post :=
  { key := 4, gid := 0x8000, k := 0, member := 0, ctx := 1, uid := 9, sid := 1, blk := 0, cmd := 0, descs := [], trig := none, offered := true,
    state := 1, status := 0, rank := none, withheld := false, startId := 0, written := false, sent := [], failed := false, paid := 0 }
theorem witness_make : let x := dab (g 0 2) (g 0 3) (.imm 2)
    let s := { inOwn with mem := writeBytes [] (spadKey 0 0x40) [0, 0, 0, 0, 1, 0, 0, 0] }
    let bad := inOwn
    let es := (List.range 2).map fun i => readLe s.mem (ownKey s (ops x s).aw + 4 * i) 4
    gField x.d = some 2 ∧ clear 0x382 x s = true ∧ (ops x s).aw = 0xF000000000000040 ∧ (ops x s).bw.toNat = 2 ∧ reserved s (ownKey s (ops x s).aw) 8 = false ∧
    poisoned s (ownKey s (ops x s).aw) 8 = false ∧ listOk s es = true ∧ localList s es = true ∧
    listReady (ready s) es = true ∧ listReady s es = false ∧ clear 0x382 x (ready s) = true ∧
    listOk bad [0, 0] = false ∧ clear 0x382 x bad = true ∧ clear 0x382 (dab (g 0 2) (g 0 3) (.imm 0)) s = true := by decide
theorem witness_free_id : freeIds (at1 strand) 0x8000 1024 ≠ [] :=
  List.ne_nil_of_mem (a := 0x8000) (by
    simp only [freeIds, List.mem_filter, List.mem_map, List.mem_range]
    exact ⟨⟨0, by omega, by omega⟩, by decide⟩)
/-- Every id of the table of local groups is taken. -/
theorem witness_no_id : freeIds { at1 strand with plaza := { Plaza.init with
    groups := (List.range 1024).map fun i => { group 0 [] with gid := i + 0x8000 } } } 0x8000 1024 = [] := by
  simp only [freeIds, List.filter_eq_nil_iff, List.mem_map, List.mem_range]
  rintro _ ⟨i, hi, rfl⟩
  simp only [List.any_map, Bool.not_eq_true', Bool.not_eq_false, List.any_eq_true, List.mem_range]
  exact ⟨i, hi, by simp⟩
theorem witness_join : let x := fun (b : BitVec 24) => dab (g 0 2) (.imm b) .none
    let s := withGroup (group 0 []) [] [] (at1 strand)
    let mine := withGroup (group 0 [(0, 9)]) [] [] (at1 strand)
    let taken := withGroup (group 0 [(0, 10)]) [] [] { at1 strand with cores := [(0, { Core.init with
      slots := [(1, full .ready strand), (2, full .ready { strand with uid := 10 })] })] }
    clear 0x383 (x 0x8000) s = true ∧ (ops (x 0x8000) s).aw.toNat = 0x8000 ∧ (ops (x 0x18000) s).aw.toNat = 0x18000 ∧
    findGroup s 1 0x8001 = none ∧ findGroup s 1 0x8000 = some (group 0 []) ∧ blockEntry s 1 = 0 ∧ indexOf (group 0 []) 0 = some 0 ∧
    deviceEntry s = 2 ^ 31 ∧ indexOf (group 0 []) (2 ^ 31) = none ∧ debtFull strand (groupHandle 0x8000) = false ∧
    clear 0x383 (x 0x8000) taken = true ∧ lives (entry (x 0x8000) taken) 10 = true ∧
    clear 0x383 (x 0x18000) mine = true ∧ mine.plaza.posts = [] ∧ clear 0x383 (x 0x18000) s = true ∧
    (group 0 [(0, 9)]).owners.all (fun p => p.1 == 0 || p.2 != 9) = true ∧ strand.wait = none := by decide
/-- A leave that a post of the member hinders. -/
theorem witness_leave_busy : let x := dab (g 0 2) (.imm 0x18000) .none
    let s := withGroup (group 0 [(0, 9)]) [post] [] (at1 strand)
    clear 0x383 x s = true ∧ (∃ p ∈ s.plaza.posts, p.gid = 0x8000 ∧ p.member = 0) ∧ strand.wait = none :=
  ⟨by decide, ⟨post, List.mem_cons_self, rfl, rfl⟩, rfl⟩
/-- A leave that was decided at the end of a cycle, and one that waits for it. -/
theorem witness_leave_decided : let x := dab (g 0 2) (.imm 0x18000) .none
    let w := { waitFor 0x383 0 with arg := 0x18000 }
    let o := ops x (at1 strand)
    let t := { strand with wait := some { w with stage := .granted 6, opnds := some o } }
    let z := { withGroup (group 0 [(0, 9)]) [post] [] (at1 strand) with
      cores := [(0, { Core.init with slots := [(1, full .parked { strand with wait := some w })] })] }
    resumed 0x383 x (at1 t) o = true ∧ grantedOf t = some 6 ∧ o.aw.toNat < 2 ^ 18 ∧
    (getSlot z 1).st = .parked ∧ (strandAt z 1).wait = some w ∧ w.form = 0x383 ∧ w.stage = .test ∧
    leaveHeld z 1 (strandAt z 1) w.arg.toNat = true := by decide +kernel
theorem witness_group_facts : let x := dab (g 0 2) (.imm 0x8000) (.imm 1)
    clear 0x384 x (withGroup (group 0 []) [] [] (at1 strand)) = true ∧ clear 0x38E x (at1 strand) = true := by decide
theorem witness_post : let x := dab (g 0 2) (v 0 8) (g 0 16)
    let s := withGroup (group 0 [(0, 9)]) [] [] (mapped (at1 (writeV strand 8 (0x8000 <<< 64))))
    clear 0x385 x s = true ∧ s.net = [] ∧ fld (ops4 x s).a 1 0 16 = 0x8000 ∧ findGroup s 1 0x8000 = some (group 0 [(0, 9)]) ∧
    ownedBy (group 0 [(0, 9)]) 9 = some 0 ∧ s.plaza.posts.length < 512 ∧ (group 0 [(0, 9)]).state ≠ 2 ∧ 512 ≤ (List.replicate 512 post).length := by
  decide +kernel
theorem witness_post_read : let x := dab (g 0 2) (v 0 8) (g 0 16)
    let s := withGroup (group 0 [(0, 9)]) [] [] (mapped (at1 (writeV strand 8 (0x8000 <<< 64))))
    tableRead x s (entry x s) 48 = .ok (okOf (tableRead x s (entry x s) 48)) (List.replicate 64 0) ∧
    tableRead x s (okOf (tableRead x s (entry x s) 48)) 40 = .ok (bothRead x s) (List.replicate 64 0) ∧
    (bothRead x s).plaza.posts.length < 512 := by decide +kernel
theorem witness_collective : let x := dab (g 0 2) (g 0 3) .none
    let y := dab (g 0 2) (g 0 3) (.imm 0)
    let t := withG [(3, 0x800000000000)]
    let live := withGroup (group 0 [(0, 9)]) [post] [] (at1 t)
    let done := withGroup (group 0 [(0, 9)]) [] [{ gid := 0x8000, k := 0, member := 0, status := 4, rank := 7 }] (at1 t)
    gField x.d = some 2 ∧ clear 0x386 x live = true ∧ clear 0x386 y live = true ∧ clear 0x386 x done = true ∧ clear 0x387 x live = true ∧
    clear 0x387 x done = true ∧ (ops x live).aw = 0x800000000000 ∧ timeOut x (ops x live) = none ∧ timeOut y (ops y live) = some 0 ∧
    (findColl live 1 t 0x800000000000 = .live post ∧ findColl done 1 t 0x800000000000 = .over 0x8000 0 0) ∧
    (findEnded done 0x8000 0 0).isSome = true := by
  refine ⟨?_, ?_, ?_, ?_, ?_, ?_, ?_, ?_, ?_, ⟨rfl, rfl⟩, ?_⟩ <;> decide
theorem witness_tree : let x := dab (g 5 2) (g 0 3) (.imm 0x100)
    gField x.d = some 2 ∧ clear 0x388 x (at1 strand) = true ∧ (at1 strand).net = [] ∧
    (mapGet TreeRound.init (at1 strand).trees (treeKey 1 0 (treeChan (ops x (at1 strand))))).parts = [] := by decide
/-- A launch record of one unit, whose code and record lie at 0 of the own scratchpad. -/
def launchWords : List Word := [0, 0, 1] ++ List.replicate 29 0
def launched (st : Nat) : Launch := { Launch.init with gen := 1, live := true, ctx := 1, words := launchWords, state := st, expected := 1 }
theorem witness_launch : let x := dab (g 0 2) (g 0 3) .none
    let s := mapped (at1 (withG [(3, 0x100)]))
    clear 0x380 x s = true ∧ s.net = [] ∧ (ops x s).aw = 0x100 ∧ lrMalformed launchWords false = false ∧ lrDeps launchWords = [] ∧
    levelBad (getCtx s 1) launchWords = false ∧ lrMalformed (launchWords.set 14 1) false = true ∧ (0x100 : Nat) % 256 = 0 ∧
    (lrDeps launchWords).any (depAborted (entry x s)) = false := by decide +kernel
theorem find_first (n : Nat) (f : Nat → Bool) (h : f 0 = true) : (List.range (n + 1)).find? f = some 0 := by
  rw [List.range_succ_eq_map, List.find?_cons_of_pos h]
theorem witness_launch_entry : launchEntry (mapped (at1 (withG [(3, 0x100)]))) = some 0 := by
  unfold launchEntry
  rw [find_first 2047 _ rfl]
theorem witness_launch_read : let x := dab (g 0 2) (g 0 3) .none
    let s := mapped { at1 (withG [(3, 0x100)]) with mem := [(0x200110, 1)] }
    let b := readBlock (entry x s) 1 (acting s) recordSpaces 0x100 256
    b = .ok (okOf b) (List.replicate 16 0 ++ [1] ++ List.replicate 239 0) ∧ levelBad (getCtx (okOf b) 1) launchWords = false ∧
    bytesWords (List.replicate 16 0 ++ [1] ++ List.replicate 239 0) = launchWords := by decide +kernel
theorem witness_spawn : let x := dab (g 0 2) (g 0 3) (.imm 0x80)
    let t := { withG [(3, 0xF000000000000040)] with launchid := 2048 }
    let s := fun st => { at1 t with launches := [(0, launched st)] }
    clear 0x381 x (s 2) = true ∧ clear 0x381 x (s 4) = true ∧ spawnHome (entry x (s 2)) 1 t 0xF000000000000040 = .home 0 (some 0) ∧
    recordAddr x (ops x (s 2)) = 0xF000000000000080 ∧ reserved (s 2) (ownKey (s 2) 0xF000000000000080) 64 = false ∧
    poisoned (s 2) (ownKey (s 2) 0xF000000000000080) 64 = false ∧ launchId (launched 2) 0 = 2048 ∧ (launched 2).expected < 0xFFFFFF := by decide
/-- A table of one sequence and 4 blocks at 0x10000, descriptors at 0x20000, lists of 16 entries; key 0 maps descriptor 0. -/
def tabled (mem : Map Byte) : State :=
  let s := ready (at1 (withG [(3, 0)]))
  { s with mem := mem, ctxs := [(1, { Ctx.init with st := .running, regs := [(0x430, 0x8000000000000002), (0x438, 0x10000), (0x440, 0x20000)] })] }
theorem witness_block_table : let x := dab (g 0 2) (g 0 3) (.imm 0)
    let s := tabled []
    gField x.d = some 2 ∧ s.net = [] ∧ s.prompt = true ∧ ([0x389, 0x38A, 0x38B, 0x38C].all fun op => clear op x s) = true ∧ (ops x s).aw = 0 ∧
    (ops x s).bw = 0 ∧ kvKeyBad s 1 0 = none ∧ kvHeld s 1 0 = false ∧ kvMapped s 1 0 = none := by decide
theorem witness_demote : let x := dab (g 0 2) (g 0 3) .none
    let s := { tabled [] with
      cores := [(0, { Core.init with slots := [(0, full .ready { withG [(3, 0x10000000000)] with ctx := 0 })] })], cur := 0 }
    clear 0x38D x s = true ∧ (ops x s).aw.toNat / 2 ^ 40 % 64 = 1 ∧ kvKeyBad s (kvCtx 4 0 (ops x s).aw) (ops x s).aw = none ∧
    kvHeld s (kvCtx 4 0 (ops x s).aw) (kvKey (ops x s).aw) = false ∧ kvMapped s (kvCtx 4 0 (ops x s).aw) (kvKey (ops x s).aw) = none := by decide
/-- Key 0 mapped to descriptor 0, held once. -/
def keyed0 : State := tabled [(0x10007, 128), (0x20006, 1)]
theorem witness_mapped_key : let s := keyed0
    kvMapped s 1 0 = some 0 ∧ kvHeld s 1 0 = false ∧ kvHeld s 1 1 = false ∧ (kvMapped s 1 1).isSome = false ∧ descCount (kvDesc s 1 0) = 1 ∧
    descState (kvDesc s 1 0) = 0 ∧ (1 : Int) ≤ descCount (kvDesc s 1 0) + 0 ∧ kvKeyBad s 1 0 = none ∧ kvKeyBad s 1 1 = none ∧
    s.served = [] ∧ s.resv = [] := by decide
/-- The five forms on a mapped and on an unmapped key, each with good operands. -/
theorem witness_block_forms : let x := fun (b : BitVec 24) => dab (g 0 2) (g 0 3) (.imm b)
    let m := keyed0
    let u := tabled []
    ([0x389, 0x38A, 0x38B, 0x38C].all fun op => clear op (x 0) m && clear op (x 0) u && clear op (x 1) m && clear op (x 1) u) = true ∧
    clear 0x389 (x 2) u = true ∧ (ops (x 2) u).bw.toNat ≤ 2 ∧ (ops (x 1) m).aw.toNat < 2 ^ 32 ∧ (ops (x 1) m).bw.toInt ≤ 65535 ∧
    (-65535 : Int) ≤ (ops (x 0) m).bw.toInt ∧ (ops (x 1) m).bw.toNat < 2 ^ 32 ∧ (ops (x 1) m).bw.toNat < 2 ∧ kvKeyBad m 1 (ops (x 1) m).bw = none := by decide +kernel
/-- KVDEM of key 0 of context 1, from context 0: into LPDDR, and back from it, where the frame is not. -/
theorem witness_demote_forms : let x := dab (g 0 2) (g 0 3) .none
    let s := fun (m : Map Byte) (a : Word) => { tabled m with
      cores := [(0, { Core.init with slots := [(0, full .ready { withG [(3, a)] with ctx := 0 })] })], cur := 0 }
    let back := s [(0x10007, 128), (0x20006, 1)] 0x410000000000
    clear 0x38D x (s [] 0x10000000000) = true ∧ clear 0x38D x back = true ∧ (ops x back).aw.toNat < 2 ^ 47 ∧ (ops x back).aw.toNat / 2 ^ 32 % 256 = 0 ∧
    kvCtx 4 0 (ops x back).aw = 1 ∧ kvKeyBad back 1 (ops x back).aw = none ∧ kvHeld back 1 0 = false ∧ kvMapped back 1 0 = some 0 ∧
    (ops x back).aw.getLsbD 46 = true ∧ descState (kvDesc back 1 0) ≠ 2 := by decide

/-! ## Hypotheses met: strands and the network -/

/-- The network holds these packets, behind the strand of slot 1. -/
def carrying (ps : List Pkt) (t : Strand) : State := ready { at1 t with net := ps }
def flying (h : Home) (b : Body) : Pkt := { pkt b .flying with home := h }
def asking (k : Nat) : Strand := { strand with wait := some { waitFor 0x2CC 0 with stage := .asked k } }
/-- Slot 1's strand in a slot state, with the core's other fields. -/
def slotted (st : SlotState) (t : Strand) (c : Core) : State :=
  { at1 t with cores := [(0, { c with slots := [(1, full st t)] })] }
theorem witness_end_strand : let t := { strand with wait := some { waitFor 0x81 0 with stage := .drain 5 } }
    let s := slotted .parked t Core.init
    slotOfStrand s 9 = some 1 ∧ (getSlot s 1).st = .parked ∧ (getSlot s 1).s.copies = [] ∧ owesAck s 9 1 .dom = false ∧
    ringHeldBy s 0 9 = none := by decide +kernel
/-- A line of the device, one that is poisoned, and one of another member, which is asked for. -/
theorem witness_fetched_line : let t := { strand with wait := some { waitFor 0 0 with stage := .fetch } }
    let s := { slotted .parked t Core.init with mgmt := (ready State.reset).mgmt, tlb := [{ page with x := true }] }
    let far := { s with tlb := [{ page with x := true, pa := 2 ^ 54 + 4 * 2 ^ 42 }], dom := { Dom.init with state := 2, member := 2, members := [2, 4] } }
    lineWaiters s 0 1 = [t] ∧ translate s 0 1 .fetch 0x100 = .ok 0x200100 ∧
    deviceRead s (lineReader 0 1) 0x200100 4 = .ok (List.replicate 256 0) ∧
    deviceRead { s with poison := [0x200104] } (lineReader 0 1) 0x200100 4 = .error (.trap 5 0) ∧
    lineWaiters far 0 1 = [t] ∧ translate far 0 1 .fetch 0x100 = .ok (2 ^ 54 + 4 * 2 ^ 42 + 0x100) ∧
    deviceRead far (lineReader 0 1) (2 ^ 54 + 4 * 2 ^ 42 + 0x100) 4 = .error (.ask (.member 4) (4 * 2 ^ 42 + 0x100) 64 0x100000000100) := by decide +kernel
theorem witness_performed : ([flying (.quay 0 2) (.load 0x200200 8 3 0xFFFF (.g 2)), flying (.quay 0 2) (.store 0x200200 8 0xFFFF 0),
      flying (.core 3) (.message 3 5 [1]), flying (.core 3) (.chanMsg 3 64 0 [1] true), flying (.core 3) (.ringData 3 64 0 0 [1] true),
      flying (.core 3) (.ringToken 3 64), flying (.hub 0) (.hb 0 3 2 none), flying (.core 3) (.mb 3 64 1 1), flying (.hub 0) (.tc 0 3 true false 1),
      flying (.core 0) (.putr 1 5 7 8), flying .kvUnit (.kv 0 0 2 (.g 2)), flying (.hub 0) (.notice (hbHandle 0 3) false),
      flying (.hub 0) (.notice (hbHandle 0 3) true), flying (.member 4) (.load 0x200200 8 3 0xFFFF (.g 2))].all fun p =>
        let s := carrying [p] strand
        findPkt s 5 == some p && mayPerform s p && dataClear s p 0x200200 8 && noticeFree s p) = true := by decide +kernel
/-- A load from two banks of a core, one of which another access came to first: the other bank serves it (R15). -/
theorem witness_not_yet : let p := flying (.core 3) (.load 0x40 16 3 0xFFFF (.v 2))
    let q := { flying (.core 3) (.load 0x40 8 3 0xFFFF (.g 2)) with k := 4, ord := 4, seat := 4 }
    let s := carrying [q, p] strand
    findPkt s 5 = some p ∧ kindOf p.body = .access ∧ mayPerform s p = false ∧ mayPerform s q = true ∧
    (pktBanks s p).filter (bankServes s p 3) = [9] := by decide +kernel
theorem witness_ring_request : let p := { flying (.core 3) (.ringAsk 3 64) with sid := 1 }
    let s := { carrying [p] (asking 5) with
      mem := writeBytes [] (spadKey 3 64) (ring 1 0 0 0), cores := (at1 (asking 5)).cores ++ [(3, { Core.init with prods := [(64, 0, 9)] })] }
    findPkt s 5 = some p ∧ rgProduces s 3 64 9 = true ∧ mayPerform s p = true ∧ rgRoom s 3 64 = true ∧ stillAsks s p = true ∧
    (oldestWaiting s fun q => q.body == .ringAsk 3 64) = none := by decide +kernel
theorem witness_register_put : let s := carrying [flying (.core 0) (.putr 1 5 7 8)] strand
    kvBehind (carrying [flying .kvUnit (.kv 0 0 2 (.g 2))] strand) (flying .kvUnit (.kv 0 0 2 (.g 2))) = false ∧ putTarget s 1 = some 9 ∧ ((strandOf s 9).map fun t => copying t (.g 5)).getD false = false ∧
    kvEvent (carrying [flying .kvUnit (.kv 0 0 2 (.g 2))] strand) 1 0 0 2 5 =
      .status (kvStatus (carrying [flying .kvUnit (.kv 0 0 2 (.g 2))] strand) 1 0 0) (carrying [flying .kvUnit (.kv 0 0 2 (.g 2))] strand) :=
  ⟨by decide +kernel, by decide +kernel, by decide +kernel, rfl⟩
theorem witness_answers : let a := { pkt (.load 0x200200 8 3 0xFFFF (.g 2)) .performed with home := .quay 0 2 }
    let c := pkt (.copyWord 0x200200 8 (.g 2) 0) .performed
    let m := pkt (.message 3 5 [1]) .performed
    findPkt (carrying [a] strand) 5 = some a ∧ (landing a).isSome = true ∧ isCopyWord c.body = true ∧ (landing m).isNone = true ∧
    isCopyWord m.body = false ∧ a.reply = none ∧ fromEngine a = false ∧ copyFirst (carrying [a] strand) a = false ∧ ackClear (carrying [m] strand) m = true ∧
    ({ a with reply := some (4, 7) } : Pkt).reply = some (4, 7) := by decide +kernel
theorem witness_turned : let p := { pkt (.store 0x200200 8 0xFFFF 0) .turned with home := .quay 0 2 }
    findPkt (carrying [p] strand) 5 = some p ∧ 
    (∀ q ∈ (carrying [p] strand).net, q.uid = p.uid → q.ord < p.ord → isNotice q.body = false →
      inScope p.sid (widerScope p.sid p.home) q.home = false) := by decide +kernel
theorem witness_reserved : let p := { pkt (.atomic 0x200200 8 ⟨0x280, 3, 1, 0, 2⟩) .waiting with home := .quay 0 2 }
    let r : Resv := { k := 5, addr := 0x200200, n := 8, granted := false, old := 0, new := 0 }
    let s := { carrying [p] strand with resv := [r] }
    let z := { carrying [p] strand with resv := [{ r with granted := true }] }
    findPkt s 5 = some p ∧ p.st = .waiting ∧ grantable s 5 = true ∧ poisoned s 0x200200 8 = false ∧
    poisoned { s with poison := [0x200204] } 0x200200 8 = true ∧ grantable { s with poison := [0x200204] } 5 = true ∧
    (z.resv.find? fun r => r.k == 5) = some { r with granted := true } ∧ p.reply = none := by decide +kernel
/-- A packet on a ring; one on the mesh before its last link, one at the end of its path, and a release that must turn back. -/
def onRing : Pkt := { flying (.core 3) (.message 3 5 [1]) with
  since := none, ring := some { blk := 0, stop := 0, cw := true, chan := 0, part := 3, flits := 2, dest := 3, hold := 0 } }
def meshPkt (route : List Nat) : Pkt := { flying (.quay 0 2) (.store 0x200200 8 0xFFFF 0) with since := none, route := route }
def outOfScope : Pkt := { meshPkt [64] with home := .quay 1 2, scope := some .dst }
theorem witness_hops : let s := carrying [onRing] strand
    findPkt s 5 = some onRing ∧ heldPkt s onRing = false ∧ (onRing.ring.all fun r => canLeave s onRing r && linkFree s onRing r) = true ∧
    ([meshPkt [1], meshPkt [], outOfScope].all fun m => findPkt (carrying [m] strand) 5 == some m && !heldPkt (carrying [m] strand) m &&
      noticeFree (carrying [m] strand) m && onMesh m && !m.limited) = true ∧
    turnsBack (meshPkt [1]) (some 1) = false ∧ turnsBack (meshPkt []) none = false ∧ behind (carrying [meshPkt []] strand) (meshPkt []) = false ∧
    turnsBack outOfScope (some 64) = true := by decide +kernel
theorem mesh_link (p : Pkt) (n : Nat) (h : (let s := carrying [p] strand
    (s.net.filter fun q => onMesh q && q.via == p.node && q.node == n && linkClass s q == linkClass s p) = [] ∧
    heldFlits s p.node n (linkClass s p) = 0 ∧ inUse s (.link p.node n) = false ∧ meshFlits p ≤ 17 ∧
    nextInput (mapGet 0 s.portTurn (turnKey p.node n (linkClass s p)))
      ((s.net.filter fun q => waitsAt s q p.node n (linkClass s p)).map (·.via)) = some p.via ∧
    ((s.net.filter fun q => waitsAt s q p.node n (linkClass s p)).any fun q => q.via == p.via && q.seat < p.seat) = false)) :
    linkOpen (carrying [p] strand) p n = true := by
  obtain ⟨h1, h2, h3, h4, h5, h6⟩ := h
  simp only [linkOpen, linkAllowance, h1, h2, h3, h5, h6]
  have : meshFlits p ≤ Config.linkDepth p.node n (linkClass (carrying [p] strand) p) + 17 := by omega
  simp [this]
/-- A link to the next node, and the port to a quay at the end of the path. -/
theorem witness_mesh_link : linkOpen (carrying [meshPkt [1]] strand) (meshPkt [1]) 1 = true ∧
    exitPort (meshPkt []) = some 513 ∧ linkOpen (carrying [meshPkt []] strand) (meshPkt []) 513 = true ∧
    exitPort { meshPkt [] with home := .member 4 } = none :=
  ⟨mesh_link _ _ (by decide), rfl, mesh_link _ _ (by decide), rfl⟩
theorem witness_grants : let p := { pkt (.chanAsk 3 (2 ^ 18)) .waiting with home := .core 3 }
    let c := { pkt (.chanAsk 3 64) .waiting with home := .core 3 }
    let s := { carrying [p] (asking 5) with cores := (at1 (asking 5)).cores ++ [(3, { Core.init with poolWait := [9] })] }
    let z := { carrying [c] (asking 5) with mem := writeBytes [] (spadKey 3 64) [4, 0, 32, 1, 0, 0, 0, 128] }
    (getCore s 3).poolWait = [9] ∧ poolPkt s 3 = some p ∧ poolEntry (getCore s 3) = some 16 ∧ stillAsks s p = true ∧
    findPkt z 5 = some c ∧ objClear z c.body = true ∧ c.st = .waiting ∧ chRoom z 3 64 = true ∧ (chanWaiter z 3 64).map (·.k) = some 5 ∧ stillAsks z c = true := by decide +kernel
theorem witness_waits : let t := { strand with wait := some { waitFor 0x2C9 0 with stage := .granted 0 } }
    let l := { strand with wait := some { waitFor 0x216 0 with left := some 0 } }
    let s := slotted .parked t Core.init
    waitReady s 1 t { waitFor 0x2C9 0 with stage := .granted 0 } = true ∧ (getCore s 0).spill = [] ∧ 9 ∈ lateUids (slotted .parked l Core.init) := by decide +kernel
theorem witness_deadline : let t := { strand with dlArmed := true, dline := 4000 }
    strandOf (at1 t) 9 = some t ∧ locate (at1 t) 9 = .slot 1 ∧ t.dline.toNat ≤ (at1 t).dtime ∧ (getSlot (at1 t) 1).st = .ready := by decide +kernel
theorem witness_promise : let j := { job 2 with promise := some 4000 }
    let s := { slotted .parked { strand with wait := some (waitFor 0x307 0) } Core.init with hubs := (withJob 1 [j] strand).hubs }
    findJob s (jobHandle 0 0 0 0) = some j ∧ j.lapsed = false ∧ j.missed = false ∧ j.state ≠ 3 ∧ (4000 < s.cycle) ∧ promiseWaiters s (jobHandle 0 0 0 0) ≠ [] := by decide +kernel
theorem witness_root : let s := slotted .halted { strand with releasing := true } Core.init
    slotOfStrand s 9 = some 1 ∧ (getSlot s 1).st = .halted ∧ (getSlot s 1).s.dlPending = false ∧ (getSlot s 1).s.releasing = true ∧ s.net = [] := by decide +kernel
theorem witness_records : let r : Record := { k := 7, core := some 0, ctx := 1, words := [], since := 0 }
    let s := { at1 strand with records := [r], dtime := 20000000 }
    (s.records.find? fun r => r.k == 7) = some r ∧ recordBehind s r = false ∧ ringHolds s r = false ∧ 10000000 < s.dtime - r.since := by decide +kernel
theorem witness_spill_moves : let e := { spilled with written := false }
    let a := { spilled with target := some 2 }
    let s := fun e => slotted .ready strand { Core.init with spill := [e] }
    spillOfUid (s e).cores 4 = some (0, 15) ∧ ((getCore (s e) 0).spill.find? fun e => e.place == 15) = some e ∧
    evictedNow (s e) 0 e = false ∧ nameHeld (s a) 0 (a.slot % 16) = false ∧
    spillOfUid (s a).cores 4 = some (0, 15) ∧ a.target = some 2 ∧
    oldestSpill (getCore (s spilled) 0) = some spilled ∧ 4096 ≤ (s spilled).cycle - 1 ∧ spillSlot (s spilled) 0 spilled = some 2 := by decide +kernel
theorem witness_stalled : let s := { at1 strand with cores := [(0, { Core.init with spill := [spilled], slots := (List.range 15).map fun n =>
      (n + 1, full .parked { strand with uid := n + 20, wait := some (waitFor 0x216 0) }) })] }
    stalled s 0 = true ∧ (evictChoice s 0).isSome = true ∧ (spillPlace (getCore s 0)).isSome = true := by decide +kernel
theorem witness_tick : (State.reset.cycle % 256 = 0) ∧ (getSlot (at1 strand) 1).st = .ready := by decide +kernel

/-! ## Hypotheses met: engines, launches, the Plaza, pages and contexts -/

def copyJob (st : Nat) : Job := { job st with kind := .copy }
def fence : Job := { job 0 with kind := .fence, mask := 3, parts := [(0, 0), (1, 0)], descs := [] }
theorem witness_queue_grant : let w : Submit :=
      { uid := 9, k := 5, kind := .copy, cmd := 0, descs := [], bad := false, trig := none, sid := 1, ctx := 1, mask := 0 }
    let s := { at1 (asking 5) with hubs := [(0, { Hub.init with owner := some 1, cq0 := { Queue.init with waiting := [w] } })] }
    (queueOf s 0 1).waiting.head? = some w ∧ ((strandOf s w.uid).map fun t => asksFor t w.k).getD false = true ∧
    w.kind ≠ .fence ∧ (queueOf s 0 1).jobs.length < depthOf 1 := by decide +kernel
theorem witness_head_job : let s := fun j => withJob 1 [j] strand
    ([copyJob 0, copyJob 2, job 2, { copyJob 0 with descs := [1, 0] }, { copyJob 2 with stopping := true }].all fun j =>
      headJob (s j) 0 0 == some j && ctxRuns (s j) 1) = true ∧
    startReason (copyJob 0) = 0 ∧ startReason { copyJob 0 with descs := [1, 0] } ≠ 0 ∧ workOver (s (copyJob 2)) 0 0 (copyJob 2) = true ∧
    workOver (s (job 2)) 0 0 { job 2 with progress := 10000000 } = true ∧ hubQuiet (s (job 2)) 0 = true ∧ wordFree (s (job 2)) (job 2) = true ∧
    pieceDone (copyJob 2) = true ∧ engIdle (s (copyJob 2)) 0 0 = true := by decide +kernel

/-- R240: FP8 has 512 elements in a K step, so 640 elements of K are four groups and one. -/
theorem test_k_steps :
    let j := { job 2 with cmd := BitVec.ofNat 512 (640 * 2 ^ 152), descs := [BitVec.ofNat 512 (7 * 2 ^ 304)] }
    (mxSteps j, stepGroups j 0, stepGroups j 1) = (2, [0, 1, 2, 3], [4]) := by decide +kernel
theorem witness_fence_end :
    let h := { Hub.init with mq := { Queue.init with jobs := [fence] }, cq0 := { Queue.init with jobs := [fence] } }
    let s := { at1 strand with hubs := [(0, h)] }
    readyFence s 0 0 = some fence ∧ ctxRuns s 1 = true := by decide +kernel
theorem witness_tree_round : let r : TreeRound := { parts := [(0, 9, 5)], op := 0, ty := 2, mixed := false }
    let s := { at1 strand with trees := [(treeKey 1 0 3, r)] }
    (mapGet TreeRound.init s.trees (treeKey 1 0 3)).parts ≠ [] ∧ (∀ b ∈ treeBlocks s 1 0, ∃ p ∈ r.parts, p.1 = b) := by decide +kernel
theorem witness_host_submission : let s := { at1 strand with mgmt := { Mgmt.init with window := [(1, [(15 * 256 + 255, 128)])] } }
    ((slotWords s 1 15).getD 31 0).getLsbD 63 = true ∧ (slotWords s 1 15).getD 7 0 = 0 ∧ (getCtx s 1).st = .running := by decide +kernel
def launching (l : Launch) : State := { at1 strand with launches := [(0, l)] }
def flight (q : Bool) : UnitFlight :=
  { k := 5, unit := { id := 0, launch := 2048, words := [] }, route := [0], hint := 0, radius := 0, core := none, queued := q, offered := false }
theorem witness_launch_events : let l := launched 1
    let s := ready (launching l)
    let z := { launching { launched 2 with sentUnits := 1 } with corners := [flight true] }
    let d := { launched 2 with sentUnits := 1, retired := 1 }
    nextRelease s = some 0 ∧ unitWords s l l.sentUnits = .ok (0 :: List.replicate 7 0) ∧ l.dropped.contains l.sentUnits = false ∧
    ((flight false).queued = false) ∧ ((cornerQueue z 0).find? fun f => !behindProducer z 0 f) = some (flight true) ∧
    (((sortBy (fun x y => hops x 0 < hops y 0 || (hops x 0 == hops y 0 && x ≤ y))
      ((blocksOf z (unitCtx z (flight true).unit)).filter fun x => x / 64 == 0 / 64 && hops x 0 ≤ 0)).findSome? fun x =>
        takerOf z x (flight true)).isSome = true) ∧
    d.live = true ∧ d.retired = d.expected ∧ d.sentUnits = lrCount d.words ∧ d.words.getD 6 0 = 0 ∧ lw d.words 5 30 1 = 0 := by decide +kernel
theorem witness_cancel : let v : Word := 0x8000000000000001
    let u : Word := 5
    v.toNat / 2 ^ 48 % 2 ^ 13 = 0 ∧ 1 ≤ v.toNat / 2 ^ 61 ∧ v.toNat / 2 ^ 61 < 5 ∧ u.toNat / 2 ^ 61 = 0 := by decide
theorem witness_plaza : let s := withGroup (group 0 [(0, 9)]) [] [] (at1 strand)
    let far := withGroup { group 0 [] with plaza := 4 } [] [] (at1 strand)
    (s.plaza.groups.find? fun g => g.gid == 0x8000) = some (group 0 [(0, 9)]) ∧ (group 0 [(0, 9)]).plaza = s.dom.member ∧
    (group 0 [(0, 9)]).entries.length ≠ 1 ∧ (s.plaza.pending.find? fun p => p.gid == 0x8000 && p.k == 0) = none ∧
    storeFull s (group 0 [(0, 9)]) = false ∧ (far.plaza.groups.map (·.plaza)) = [4] ∧ activeHere s = true ∧ (4 : Nat) ≠ s.dom.member ∧
    { s.plaza with bare := true }.localWait = [] := by decide +kernel
theorem witness_collective_start : let p := { post with state := 1, descs := [5 * 2 ^ 304, 5 * 2 ^ 304], rank := some ⟨0, 1⟩ }
    let s0 := withGroup (group 0 [(0, 9)]) [p] [] (at1 strand)
    let s := { s0 with plaza := { s0.plaza with kq := [(0x8000, 0, ⟨0, 1⟩)] } }
    (⟨0, 1⟩ : Rank).dom ≤ s.plaza.topDom ∧ (getCtx s 1).st = .running ∧ toResume s = none ∧
    (s.plaza.kq.find? fun e => !started s e.1 e.2.1) = some (0x8000, 0, ⟨0, 1⟩) ∧
    (s.plaza.posts.filter fun p => p.gid == 0x8000 && p.k == 0) = [p] ∧ [p].all (postDescOk (group 0 [(0, 9)])) = true ∧
    (reserveAll s 0x8000 0 (collNeed s (group 0 [(0, 9)]) (collSig p.cmd) [p])).isSome = true := by decide +kernel
theorem witness_collective_end : let p := { post with state := 2 }
    let q : Partial := { gid := 0x8000, k := 0, lanes := [], parts := [(0, []), (1, [])], begun := [], wrote := [], held := some { chunks := 0, corners := [], cls := 0, links := [], ports := [] } }
    let gr := { group 0 [(0, 9)] with entries := [0, 0x10001] }
    let s0 := withGroup gr [p] [] (at1 strand)
    let s := { s0 with plaza := { s0.plaza with partials := [q] } }
    (s.plaza.posts.find? fun p => p.key == 4) = some p ∧ (s.plaza.groups.find? fun g => g.gid == p.gid) = some gr ∧
    findPartial s p.gid p.k = some q ∧ q.held ≠ none ∧ hubQuiet s p.blk = true ∧ mbFree s p.cmd = true ∧ (∀ m < gr.entries.length, contributes p.cmd m = true → ∃ e ∈ q.parts, e.1 = m) ∧
    entMember (gr.entries.getD 1 0) ≠ s.dom.member ∧ entMember (gr.entries.getD 0 0) = s.dom.member ∧ findPost s 0x8000 0 0 = some p := by
  decide +kernel
/-- Root table at 0x200000, whose only entry of each level leads down to a page at 0. -/
def tables : Map Byte := writeBytes (writeBytes (writeBytes (writeBytes (writeBytes [] 0x200000 [1, 0x10, 0x20]) 0x201000 [1, 0x20, 0x20])
  0x202000 [1, 0x30, 0x20]) 0x203000 [1, 0x40, 0x20]) 0x204000 [0x0D, 0x50, 0x20]
def walking (m : Map Byte) : State :=
  { ready (at1 strand) with
    mem := m
    ctxs := [(1, { Ctx.init with st := .running, regs := [(0x420, 0x200000), (0x428, 0x1000000000000)] })]
    misses := [{ k := 5, dist := 0, blks := [0], ctx := 1, va := 0x100, waiting := false }] }
theorem witness_walk : let m : Miss := { k := 5, dist := 0, blks := [0], ctx := 1, va := 0x100, waiting := false }
    ((walking tables).misses.find? fun m => m.k == 5) = some m ∧ beingWalked (walking tables) m = true ∧
    walk (walking tables) 1 0x100 = .page { va := 0, size := 0x1000, pa := 0x205000, r := true, w := true, x := false, key := none } ∧
    walk (walking []) 1 0x100 = .fault 4 0 ∧
    walk { walking [] with ctxs := [(1, { Ctx.init with st := .running, regs := [] })] } 1 0x100 = .deny ∧ missRoom (walking []) 0 = true ∧ tlbCtx 0x0100000000000000 ≠ 0 := by decide +kernel
def kvCopy (kind : Nat) : KvCopy :=
  { k := 5, kind := kind, ctx := 1, key := 0, desc := 0, new := 1, frame := 2, zero := false, pkt := 0 }
def retire : Retire := { k := 5, ctx := 1, desc := 0, tier := 0, frame := 0, drops := true }
theorem witness_kv_units : let s := { at1 strand with kvCopies := [kvCopy 0], retires := [retire] }
    (s.kvCopies.find? fun c => c.k == 5 && c.kind == 0) = some (kvCopy 0) ∧
    (({ s with kvCopies := [kvCopy 1] } : State).kvCopies.find? fun c => c.k == 5 && c.kind != 0) = some (kvCopy 1) ∧
    descHeld { s with kvCopies := [kvCopy 1] } 1 0 = false ∧
    (s.retires.find? fun r => r.k == 5) = some retire ∧ frameBusy s 0 0 = false := by decide
def inCtx (x : Ctx) : State := { ready (at1 strand) with ctxs := [(1, x)] }
def saved : Saved := { cycle := 0, cores := [], hubs := [], cells := [], drained := [], rounds := [] }
theorem witness_contexts : let s := fun st => inCtx { Ctx.init with st := st }
    let c := { inCtx { Ctx.init with st := .created, written := [0x400, 0x408, 0x410, 0x418, 0x420], regs := [(0x480, 2)] } with hubs := [] }
    let w := inCtx { Ctx.init with st := .running, switchTo := some (4000, 2), regs := [(0x4A0, 100000)] }
    let v := inCtx { Ctx.init with st := .switchedOut, saving := true, saved := some saved, switchTo := some (4000, 2) }
    let r := { inCtx { Ctx.init with st := .switchedOut, saved := some saved } with
      ctxs := [(1, { Ctx.init with st := .switchedOut, saved := some saved }), (2, { Ctx.init with st := .switchedOut, switchTo := some (0, 1) })] }
    (getCtx (s .none) 1).st = .none ∧ ctxRoom (s .none) = true ∧ mayAdmit c 1 = true ∧ (readContents (s .admitted) 1).isSome = true ∧
    w.dtime + 50000 ≤ (ctxReg w 1 0x4A0).toNat ∧ (getCtx w 1).switchTo = some (4000, 2) ∧ 4000 ≤ w.dtime ∧
    (getCtx v 1).saved = some saved ∧ (getCtx v 1).saving = true ∧ predecessor r 1 = some 2 ∧ mayRestore r 1 saved = true ∧
    4000 + ({ Mgmt.init with late := 1000 }).late.toNat ≤ v.dtime ∧ (domSums (s .stopping) 1).1 = (domSums (s .stopping) 1).2 ∧
    (∀ m ∈ cutMembers (s .stopping), ∃ e ∈ (getCtx (s .stopping) 1).cut, e.1 = m) ∧
    (∀ b ∈ blocksOf (s .tornDown) 1, (getHub (s .tornDown) b).scrub = false) ∧ (1024 * 4 : Nat) % 1024 = 0 ∧
    (getHub (updHub (s .running) 0 fun h => { h with scrub := true }) 0).scrub = true := by decide +kernel
theorem witness_slot_zero : let s := inCtx { Ctx.init with st := .running }
    (getHub s (blkOfCore 7)).owner = some 1 ∧ (getHub s (blkOfCore 7)).initDone = true ∧ (getHub s (blkOfCore 7)).scrub = false ∧
    (getSlot s (7 * 16)).st = .empty ∧ (getCtx s 1).st = .running := by decide

/-! ## Hypotheses met: the management agent, links and the domain -/

theorem witness_debugger : (getSlot (at1 strand) 1).st ≠ .empty ∧ (getSlot (at1 strand) 1).s.ctx = 1 ∧ (getSlot (at1 strand) 1).st = .ready ∧
    (getSlot (slotted .halted strand Core.init) 1).st = .halted ∧ (getSlot (at1 strand) 2).st = .empty ∧
    getSlot (at1 strand) 1 ≠ movingSlot 1 (getSlot (at1 strand) 1).moved := by decide
theorem witness_management : let v : Word := 1500
    1500 ≤ v.toNat % 4096 ∧ v.toNat % 4096 ≤ 3000 ∧ Mgmt.init.clockWindow + 1000000 ≤ { at1 strand with dtime := 1000000 }.dtime ∧
    Mgmt.init.errlog.getLsbD 63 = false ∧ ({ Mgmt.init with errlog := 0x8000000000000000 }).errlog.getLsbD 63 = true ∧
    regMapped 0x420 = true ∧ regMapped 0x100 = true ∧ regPriv 0x100 = false := by decide
theorem witness_error_log : (∃ t, exec (.errlogCapture 1 8) (at1 strand) = .next t) ∧ (at1 strand).mgmt.errNow = none := ⟨⟨_, rfl⟩, rfl⟩
theorem witness_rate : let p := { flying (.quay 0 2) (.store 0x200200 8 0xFFFF 0) with limited := true }
    let s := { carrying [p] strand with ctxs := [(1, { Ctx.init with st := .running, bucket := 100 })] }
    findPkt s 5 = some p ∧ payloadBytes p.body ≤ (getCtx s 1).bucket ∧ p.st = .flying ∧
    (∀ q ∈ s.net, q.ord < p.ord → q.ctx = p.ctx → q.limited = true → q.st ≠ .flying) := by decide +kernel
theorem witness_host_port : let s := { ready (at1 strand) with mgmt := { Mgmt.init with ready := 0x2000000, plainHost := true } }
    let w : Tlp := { kind := 0, bar := 0, ide := false, offset := 0x7FFF8, tag := 3, len := 8, data := some (List.replicate 8 1) }
    let r : Tlp := { w with bar := 2, offset := 0x420 }
    let c : Tlp := { w with kind := 1, offset := 0x110, len := 4 }
    tlpAccepted s w = true ∧ tlpShape w = true ∧ w.offset < 0x80000 ∧ tlpAccepted s r = true ∧ tlpShape r = true ∧ tlpRegister r = true ∧
    tlpAccepted (at1 strand) { r with data := none } = false ∧ tlpAccepted s { r with data := none } = true ∧
    tlpShape { r with data := none } = true ∧ tlpShape { w with data := none } = true ∧ tlpShape { w with len := 0 } = false ∧
    c.kind = 1 ∧ c.len = 4 ∧ c.offset % 4 = 0 ∧ c.offset < 4096 := by decide
def request (session : Nat) (body : List Byte) : SpdmReq :=
  { session := session, asym := 1, hash := 1, dhe := 1, aead := 1, sched := 1, body := body }
def session (n phase : Nat) : Session := { id := n, phase := phase, secret := [], reply := [], drawn := [], peer := [] }
theorem witness_responder : let s := { at1 strand with mgmt := { Mgmt.init with seed := some [1] }, dom := { Dom.init with sessions := [session 0 5] } }
    s.mgmt.seed = some [1] ∧ 5 ≤ (sessionOf s 0).phase ∧ (sessionOf s 0).phase < 10 ∧ offersAll (request 0 [0]) = true ∧ ((request 0 [0]).body.getD 0 0).toNat % 16 = 0 ∧
    (request 0 [0]).session = 0 ∧ (at1 strand).mgmt.seed = none ∧ ((request 0 [2]).body.getD 0 0).toNat = 2 ∧
    ((request 0 [4]).body.getD 0 0).toNat = 4 ∧ ((request 0 [5]).body.getD 0 0).toNat = 5 ∧ (sessionOf s 0).phase = 5 := by decide +kernel
/-- A member (2) of a domain with members 1, 2 and 7; the Plaza is p. -/
def member (p : Nat) (d : Dom) : State :=
  { at1 strand with
    dom := { d with member := 2, state := 2, gen := 1, members := [1, 2, 7], next := [1, 2, 7], plaza := p }
    mgmt := { Mgmt.init with seed := some [1] } }
theorem witness_alone : let s := { at1 strand with mgmt := { Mgmt.init with seed := some [1], routes := [(3, 0x84)] } }
    s.dom.state = 0 ∧ s.dom.joining = none ∧ s.mgmt.seed ≠ none ∧ 128 ≤ (readByte s.mgmt.routes 3).toNat ∧
    (portOf { s with dom := { Dom.init with ports := [(4, { Port.init with up := true })] } } 3).isSome = true := by decide
theorem witness_member : let s := member 1 Dom.init
    2 ≤ s.dom.state ∧ s.dom.gen ≠ 0 ∧ isPlaza s = false ∧ 7 ∈ s.dom.members ∧ (7 : Nat) ≠ me s ∧ 2 ≤ s.dom.members.length ∧
    heardAt { s with dtime := 20000 } 1 + 20000 ≤ 20000 ∧ heir s.dom = s.dom.member ∧ heir (member 7 Dom.init).dom ≠ (member 7 Dom.init).dom.member ∧
    isPlaza (member 7 Dom.init) = false ∧ s.dom.aligned = false ∧ s.dom.timed = 0 ∧ s.dtime < 6000 ∧
    (member 1 { Dom.init with aligned := true }).dom.aligned = true ∧ ({ s.dom with gen := 0 }).gen = 0 := by decide
theorem witness_plaza_member : let s := member 2 { Dom.init with sessions := [session 10 5], barrier := [1, 2, 7], arrived := [1, 2, 7], secrets := [(2, [5])] }
    isPlaza s = true ∧ 9 ∉ s.dom.members ∧ 9 ∉ s.dom.next ∧ 9 ∉ s.dom.barrier ∧ (sessionOf s (9 + 1)).phase = 5 ∧ 7 ∈ s.dom.barrier ∧ barrierFull s = true ∧
    newGen (member 2 Dom.init).dom ≤ (member 2 Dom.init).dom.gen ∧ heardAt { s with dtime := 20000 } 7 + 20000 ≤ 20000 := by decide
/-- A joiner (2) whose request to member 3 was answered: in the first phase, and in the last with a good answer and with a bad one. -/
theorem witness_join_answer : let s := fun (n : Nat) => { at1 strand with dom := { Dom.init with joining := some (3, 2), sessions := [session 4 n] } }
    (s 10).dom.joining = some (3, 2) ∧ (sessionOf (s 10) (3 + 1)).phase = 10 ∧ (joinStep (s 10) 3 2 (sessionOf (s 10) 4) 0x04 []).isSome = true ∧
    (sessionOf (s 4) 4).phase = 4 ∧ (joinStep (s 4) 3 2 (sessionOf (s 4) 4) 0x65 []).isSome = true ∧
    joinStep (s 4) 3 2 (sessionOf (s 4) 4) 0x04 [] = none := by decide +kernel
theorem witness_rekey : let s := member 1 { Dom.init with secrets := [(2, [5])], arrived := [2] }
    newGen (member 1 Dom.init).dom < 2 ∧ me s ∈ [1, 2, 7] ∧ s.dom.gen < newGen s.dom ∧ me s ∈ s.dom.arrived ∧ s.dom.state ≠ 0 := by decide
def flit (n : Nat) : Flit := { lseq := n, cls := 0, kind := 0, start := 0x1FF, data := [], crc := flitCrc ⟨n, 0, 0, 0x1FF, [], 0⟩ }
theorem witness_flit : flitCrc (flit 1023) = (flit 1023).crc ∧ (flit 1023).kind = 0 ∧ (flit 1023).cls < 6 ∧
    (getPort { at1 strand with dom := { Dom.init with ports := [(15, { Port.init with up := true, expect := 1023 })] } } 15).up = true ∧
    mapGet [] Port.init.inb 0 = [] ∧ Port.init.naked = false := ⟨rfl, rfl, by decide, by decide, rfl, rfl⟩
theorem witness_replay : let f : Flit := ⟨4, 0, 0, 0, [], 0⟩
    let s := { at1 strand with dom := { Dom.init with ports := [(3, { Port.init with up := true, replay := [f, { f with lseq := 5 }] })] } }
    (getPort s 3).up = true ∧ (∃ f ∈ (getPort s 3).replay, f.lseq = 5) ∧ (getPort s 3).replay.head? = some f ∧ f.lseq ≠ 5 := by decide
def fab (dst hops seq : Nat) : FabPkt :=
  { dst := dst, src := 1, gen := 1, cls := 0, kind := 0, seq := seq, ctx := 1, colour := false, hops := hops, rsvd := 0, payload := [] }
/-- A packet sent on, one dropped at its last hop, ones discarded (a reserved bit, no tag), and one of a member that is not keyed. -/
theorem witness_fabric : let s := member 1 { Dom.init with streams := [(1, { Stream.init with rgen := 1, expect := 5, unacked := 1, shadow := [fab 1 3 4] })] }
    ownId s = 2 ∧ (fab 7 2 0).dst ≠ ownId s ∧ 1 < (fab 7 2 0).hops ∧ (fab 7 1 0).hops ≤ 1 ∧ (fab 2 1 4).dst = ownId s ∧
    ({ fab 2 1 4 with rsvd := 1 }).rsvd ≠ 0 ∧ openStart s (fab 2 1 4) = none ∧ openPkt s (fab 2 1 4) = none ∧
    keyed s (fab 2 1 4) = true ∧ keyed s { fab 2 1 4 with gen := 3 } = false ∧ (fab 2 1 4).cls ≠ 5 ∧
    (fab 2 1 4).gen = (getStream s 1).rgen ∧ (fab 2 1 4).seq < (getStream s 1).expect ∧ (fab 2 1 5).seq = (getStream s 1).expect ∧
    (getStream s 1).asked ≠ some 5 ∧ 0 < (getStream s 1).unacked ∧
    (getStream s 1).oldest + 1000 ≤ s.dtime ∧ (getStream s 1).shadow ≠ [] ∧ (getStream s 1).since + 20000 ≤ { s with dtime := 20000 }.dtime := by decide
/-- A packet whose tag the cipher accepts (a free value, log 12) is opened. -/
theorem witness_opened (bs : List Byte) : let p := { fab 2 1 5 with payload := List.replicate 24 0 }
    let s := member 1 Dom.init
    Config.opened (packetKey s p) (sealedWith p 8) p.payload = some bs → openPkt s p = some { p with payload := fixLen 8 bs } := by
  intro p s h
  have : p.payload.length = 24 := rfl
  simp [openPkt, this, h]
theorem witness_functions : let s := { at1 strand with mgmt := { Mgmt.init with ready := 0x1C00000000000, enable := 1 } }
    mayBeReady s 42 = true ∧ readyBit s 42 = false ∧ mayBeReady s 26 = true ∧ readyBit (ready s) (42 + 3) = true := by decide

/-! ## Decoding: one word of every opcode

Each word is put together from R115 (the fields), R116 and R118 (operand kinds), R122 (the type code of field d) and the opcode
that R131 gives the form, with the pred, inv and hint fields zero. -/

def sreg (n : BitVec 6) : Opd := .reg ⟨.s, false, false, 0, n⟩
def decodesTo (l : List (Nat × Instr)) : Bool := l.all fun e => decodeWord (BitVec.ofNat 96 e.1) == .ok e.2
theorem test_decode_scalar : decodesTo [
    (0x0040001000A0000054000021, .add (dab (g 1 10) (g 0 21) (g 0 33))),
    (0x0080001000A0000054000021, .sub (dab (g 1 10) (g 0 21) (g 0 33))),
    (0x00C0001000A0000054000021, .mul (dab (g 1 10) (g 0 21) (g 0 33))),
    (0x0100001000A0000054000021, .mulh (dab (g 1 10) (g 0 21) (g 0 33))),
    (0x0140001000A0000054000021, .div (dab (g 1 10) (g 0 21) (g 0 33))),
    (0x0180001000A0000054000021, .rem (dab (g 1 10) (g 0 21) (g 0 33))),
    (0x01C0001000A0000054000021, .min (dab (g 1 10) (g 0 21) (g 0 33))),
    (0x0200001000A0000054000021, .max (dab (g 1 10) (g 0 21) (g 0 33))),
    (0x0240001000A0000057000000, .abs (dab (g 1 10) (g 0 21) .none)),
    (0x0280001000A0000057000000, .neg (dab (g 1 10) (g 0 21) .none)),
    (0x02C0001000A0000054000021, .and (dab (g 1 10) (g 0 21) (g 0 33))),
    (0x0300001000A0000054000021, .or (dab (g 1 10) (g 0 21) (g 0 33))),
    (0x0340001000A0000054000021, .xor (dab (g 1 10) (g 0 21) (g 0 33))),
    (0x0380001000A0000054000021, .andn (dab (g 1 10) (g 0 21) (g 0 33))),
    (0x03C0001000A0000054000021, .shl (dab (g 1 10) (g 0 21) (g 0 33))),
    (0x0400001000A0000054000021, .shr (dab (g 1 10) (g 0 21) (g 0 33))),
    (0x0440001000A0000054000021, .sar (dab (g 1 10) (g 0 21) (g 0 33))),
    (0x0480001000A0000054000021, .rot (dab (g 1 10) (g 0 21) (g 0 33))),
    (0x04C0001000A0000057000000, .clz (dab (g 1 10) (g 0 21) .none)),
    (0x0500001000A0000057000000, .ctz (dab (g 1 10) (g 0 21) .none)),
    (0x0540001000A0000057000000, .popc (dab (g 1 10) (g 0 21) .none)),
    (0x0580001000A0000057000000, .ext (dab (g 1 10) (g 0 21) .none)),
    (0x05C0001000A0000054000021, .bfx (dab (g 1 10) (g 0 21) (g 0 33))),
    (0x0600001000A0000054000021, .bfi (dab (g 1 10) (g 0 21) (g 0 33))),
    (0x0640001000A0000054000021, .sel (dab (g 1 10) (g 0 21) (g 0 33))),
    (0x0680000000A0000057000000, .mov (dab (g 0 10) (g 0 21) .none)),
    (0x06C0000000A848D15AABCDEF, .movw (dab (g 0 10) (.wide 0x123456) (.hi 0x2ABCDEF))),
    (0x0700000000A0000054000021, .lea (dab (g 0 10) (g 0 21) (g 0 33))),
    (0x074008100020000054000021, .cmp .eq (dab (p 1 2) (g 0 21) (g 0 33))),
    (0x078008100020000054000021, .cmp .ne (dab (p 1 2) (g 0 21) (g 0 33))),
    (0x07C008100020000054000021, .cmp .lt (dab (p 1 2) (g 0 21) (g 0 33))),
    (0x080008100020000054000021, .cmp .le (dab (p 1 2) (g 0 21) (g 0 33))),
    (0x084008100020000054000021, .cmp .gt (dab (p 1 2) (g 0 21) (g 0 33))),
    (0x088008100020000054000021, .cmp .ge (dab (p 1 2) (g 0 21) (g 0 33))),
    (0x08C008000022000014800001, .pand (dab (p 0 2) (p 0 5) (p 0 1))),
    (0x090008000022000014800001, .por (dab (p 0 2) (p 0 5) (p 0 1))),
    (0x094008000022000014800001, .pxor (dab (p 0 2) (p 0 5) (p 0 1))),
    (0x098008000022000017000000, .pnot (dab (p 0 2) (p 0 5) .none))] = true := by decide +kernel
theorem test_decode_control : decodesTo [
    (0x20003000000848D15AABCDEF, .br (dab .none (.wide 0x123456) (.hi 0x2ABCDEF))),
    (0x204030000000000057000000, .bri (dab .none (g 0 21) .none)),
    (0x20803000000848D15AABCDEF, .call (dab .none (.wide 0x123456) (.hi 0x2ABCDEF))),
    (0x20C03000000C000003000000, .ret (dab .none .none .none)),
    (0x210030000000000055000003, .loop .l0 (dab .none (g 0 21) (.imm 3))),
    (0x214030000000000055000003, .loop .l1 (dab .none (g 0 21) (.imm 3))),
    (0x21803000000C000003000000, .lbrk .l0 (dab .none .none .none)),
    (0x21C03000000C000003000000, .lbrk .l1 (dab .none .none .none)),
    (0x22003000000C000003000000, .nop (dab .none .none .none)),
    (0x30003000000C000003000000, .halt (dab .none .none .none)),
    (0x30403000000400001B000000, .trap (dab .none (.imm 6) .none)),
    (0x30803000000400001B000000, .bkpt (dab .none (.imm 6) .none)),
    (0x30C030000000000057000000, .rls (dab .none (g 0 21) .none)),
    (0x3100000000A3000017000000, .mfs (dab (g 0 10) (sreg 5) .none)),
    (0x31400C000050000057000000, .mts (dab (sreg 5) (g 0 21) .none)),
    (0x3180000000AC000003000000, .time (dab (g 0 10) .none .none)),
    (0x31C030000000000057000000, .dln (dab .none (g 0 21) .none)),
    (0x32003000000C000003000000, .dlx (dab .none .none .none)),
    (0x3240000000A400001B000000, .part (dab (g 0 10) (.imm 6) .none)),
    (0x3280000000A0000054000021, .strt (dab (g 0 10) (g 0 21) (g 0 33))),
    (0x32C0000000A0000057000000, .reap (dab (g 0 10) (g 0 21) .none)),
    (0x3300000000A0000057000000, .evict (dab (g 0 10) (g 0 21) .none)),
    (0x3340000000AC000003000000, .admitStrand (dab (g 0 10) .none .none)),
    (0x33803000000C000003000000, .yield (dab .none .none .none)),
    (0x33C0000000AC000003000000, .utake (dab (g 0 10) .none .none))] = true := by decide +kernel
theorem test_decode_vector : decodesTo [
    (0x400004100081000050400000, .vadd (dab (v 1 8) (v 0 20) (v 0 0))),
    (0x404004100081000050400000, .vsub (dab (v 1 8) (v 0 20) (v 0 0))),
    (0x408004100081000050400000, .vmul (dab (v 1 8) (v 0 20) (v 0 0))),
    (0x40C004600081000050400000, .vfma (dab (v 6 8) (v 0 20) (v 0 0))),
    (0x410004100081000050400000, .vmin (dab (v 1 8) (v 0 20) (v 0 0))),
    (0x414004100081000050400000, .vmax (dab (v 1 8) (v 0 20) (v 0 0))),
    (0x418004100081000053000000, .vabs (dab (v 1 8) (v 0 20) .none)),
    (0x41C004100081000053000000, .vneg (dab (v 1 8) (v 0 20) .none)),
    (0x420004000081000050400000, .vand (dab (v 0 8) (v 0 20) (v 0 0))),
    (0x424004000081000050400000, .vor (dab (v 0 8) (v 0 20) (v 0 0))),
    (0x428004000081000050400000, .vxor (dab (v 0 8) (v 0 20) (v 0 0))),
    (0x42C004100081000050400000, .vshl (dab (v 1 8) (v 0 20) (v 0 0))),
    (0x430004100081000050400000, .vshr (dab (v 1 8) (v 0 20) (v 0 0))),
    (0x434004100081000050400000, .vsar (dab (v 1 8) (v 0 20) (v 0 0))),
    (0x438008100021000050400000, .vcmp .eq (dab (p 1 2) (v 0 20) (v 0 0))),
    (0x43C008100021000050400000, .vcmp .ne (dab (p 1 2) (v 0 20) (v 0 0))),
    (0x440008100021000050400000, .vcmp .lt (dab (p 1 2) (v 0 20) (v 0 0))),
    (0x444008100021000050400000, .vcmp .le (dab (p 1 2) (v 0 20) (v 0 0))),
    (0x448008100021000050400000, .vcmp .gt (dab (p 1 2) (v 0 20) (v 0 0))),
    (0x44C008100021000050400000, .vcmp .ge (dab (p 1 2) (v 0 20) (v 0 0))),
    (0x450004000081000050400000, .vsel (dab (v 0 8) (v 0 20) (v 0 0))),
    (0x454004100081000050400000, .vdot (dab (v 1 8) (v 0 20) (v 0 0))),
    (0x458004100081000053000000, .vsum (dab (v 1 8) (v 0 20) .none))] = true := by decide +kernel
theorem test_decode_function : decodesTo [
    (0x600004600081000053000000, .vexp2 (dab (v 6 8) (v 0 20) .none)),
    (0x604004600081000053000000, .vlog2 (dab (v 6 8) (v 0 20) .none)),
    (0x608004600081000053000000, .vrcp (dab (v 6 8) (v 0 20) .none)),
    (0x60C004600081000053000000, .vrsq (dab (v 6 8) (v 0 20) .none)),
    (0x610004600081000053000000, .vtanh (dab (v 6 8) (v 0 20) .none)),
    (0x614004600081000053000000, .vexpn (dab (v 6 8) (v 0 20) .none)),
    (0x618004300081000050400000, .vmaxe (dab (v 3 8) (v 0 20) (v 0 0))),
    (0x61C004600081000050400000, .vldexp (dab (v 6 8) (v 0 20) (v 0 0))),
    (0x620004300081000053000000, .vrmax (dab (v 3 8) (v 0 20) .none)),
    (0x700004100081000051000003, .vcvt (dab (v 1 8) (v 0 20) (.imm 3))),
    (0x704004000081000050400000, .vperm (dab (v 0 8) (v 0 20) (v 0 0))),
    (0x708004100080000057000000, .vsplat (dab (v 1 8) (g 0 21) .none)),
    (0x70C004100080000055000003, .vins (dab (v 1 8) (g 0 21) (.imm 3))),
    (0x7100001000A1000051000003, .vext (dab (g 1 10) (v 0 20) (.imm 3)))] = true := by decide +kernel
theorem test_decode_memory : decodesTo [
    (0x8000001000A0000054000021, .ld (dab (g 1 10) (g 0 21) (g 0 33))),
    (0x8040001000A0000054000021, .st (dab (g 1 10) (g 0 21) (g 0 33))),
    (0x808004000080000054000021, .vld (dab (v 0 8) (g 0 21) (g 0 33))),
    (0x80C004000080000054000021, .vst (dab (v 0 8) (g 0 21) (g 0 33))),
    (0x8100002000A0000055000003, .ldm (dab (g 2 10) (g 0 21) (.imm 3))),
    (0x8140002000A0000055000003, .stm (dab (g 2 10) (g 0 21) (.imm 3))),
    (0x8180001000A0000055000003, .acq .core (dab (g 1 10) (g 0 21) (.imm 3))),
    (0x81C0001000A0000055000003, .acq .blk (dab (g 1 10) (g 0 21) (.imm 3))),
    (0x8200001000A0000055000003, .acq .dst (dab (g 1 10) (g 0 21) (.imm 3))),
    (0x8240001000A0000055000003, .acq .dev (dab (g 1 10) (g 0 21) (.imm 3))),
    (0x8280001000A0000055000003, .acq .dom (dab (g 1 10) (g 0 21) (.imm 3))),
    (0x82C0001000A0000055000003, .rel .core (dab (g 1 10) (g 0 21) (.imm 3))),
    (0x8300001000A0000055000003, .rel .blk (dab (g 1 10) (g 0 21) (.imm 3))),
    (0x8340001000A0000055000003, .rel .dst (dab (g 1 10) (g 0 21) (.imm 3))),
    (0x8380001000A0000055000003, .rel .dev (dab (g 1 10) (g 0 21) (.imm 3))),
    (0x83C0001000A0000055000003, .rel .dom (dab (g 1 10) (g 0 21) (.imm 3))),
    (0x84003000000C000003000000, .fnc .core (dab .none .none .none)),
    (0x84403000000C000003000000, .fnc .blk (dab .none .none .none)),
    (0x84803000000C000003000000, .fnc .dst (dab .none .none .none)),
    (0x84C03000000C000003000000, .fnc .dev (dab .none .none .none)),
    (0x85003000000C000003000000, .fnc .dom (dab .none .none .none)),
    (0x8540000000A0000054000021, .send (dab (g 0 10) (g 0 21) (g 0 33))),
    (0x8580000000A0000054000021, .recv (dab (g 0 10) (g 0 21) (g 0 33))),
    (0x85C0000000A0000054000021, .putr (dab (g 0 10) (g 0 21) (g 0 33))),
    (0x8600000000AC000003000000, .fec (dab (g 0 10) .none .none)),
    (0x8640000000A0000057000000, .feq (dab (g 0 10) (g 0 21) .none))] = true := by decide +kernel
theorem test_decode_atomic : decodesTo [
    (0xA000004000A0000054000021, .aadd (dab (g 4 10) (g 0 21) (g 0 33))),
    (0xA040004000A0000054000021, .aand (dab (g 4 10) (g 0 21) (g 0 33))),
    (0xA080004000A0000054000021, .aor (dab (g 4 10) (g 0 21) (g 0 33))),
    (0xA0C0004000A0000054000021, .axor (dab (g 4 10) (g 0 21) (g 0 33))),
    (0xA100004000A0000054000021, .amin (dab (g 4 10) (g 0 21) (g 0 33))),
    (0xA140004000A0000054000021, .amax (dab (g 4 10) (g 0 21) (g 0 33))),
    (0xA180004000A0000054000021, .axch (dab (g 4 10) (g 0 21) (g 0 33))),
    (0xA1C0004000A0000054000021, .acas (dab (g 4 10) (g 0 21) (g 0 33))),
    (0xA200004000A0000054000021, .ainc (dab (g 4 10) (g 0 21) (g 0 33))),
    (0xB000000000A400001B000000, .hbAlloc (dab (g 0 10) (.imm 6) .none)),
    (0xB04030000000000057000000, .hbJoin (dab .none (g 0 21) .none)),
    (0xB08030000000000054000021, .hbArrive (dab .none (g 0 21) (g 0 33))),
    (0xB0C0000000A0000054000021, .hbWait (dab (g 0 10) (g 0 21) (g 0 33))),
    (0xB10030000000000057000000, .hbLeave (dab .none (g 0 21) .none)),
    (0xB14030000000000057000000, .hbFree (dab .none (g 0 21) .none)),
    (0xB18030000000000054000021, .mbInit (dab .none (g 0 21) (g 0 33))),
    (0xB1C030000000000054000021, .mbArrive (dab .none (g 0 21) (g 0 33))),
    (0xB20030000000000054000021, .mbExpect (dab .none (g 0 21) (g 0 33))),
    (0xB240000000A0000054000021, .mbWait (dab (g 0 10) (g 0 21) (g 0 33))),
    (0xB28030000000000054000021, .chOpen (dab .none (g 0 21) (g 0 33))),
    (0xB2C030000000000057000000, .rgProd (dab .none (g 0 21) .none)),
    (0xB30030000000000054000021, .rgPut (dab .none (g 0 21) (g 0 33))),
    (0xB340000000A0000054000021, .rgGet (dab (g 0 10) (g 0 21) (g 0 33))),
    (0xB38030000000000057000000, .rgEos (dab .none (g 0 21) .none)),
    (0xB3C030000000000057000000, .owe (dab .none (g 0 21) .none)),
    (0xB40030000000000057000000, .unowe (dab .none (g 0 21) .none))] = true := by decide +kernel
theorem test_decode_engine : decodesTo [
    (0xC00030000004000018000021, .tdset (dab .none (.imm 6) (g 0 33))),
    (0xC04030000004000018000021, .tdget (dab .none (.imm 6) (g 0 33))),
    (0xC080000000A1000053000000, .mxq (dab (g 0 10) (v 0 20) .none)),
    (0xC0C004500080000054000021, .cld (dab (v 5 8) (g 0 21) (g 0 33))),
    (0xC100000000A1000053000000, .cpq (dab (g 0 10) (v 0 20) .none)),
    (0xC140002000A0000055000003, .cpr (dab (g 2 10) (g 0 21) (.imm 3))),
    (0xC180000000A0000057000000, .jwait (dab (g 0 10) (g 0 21) .none)),
    (0xC1C0000000A0000057000000, .jwaitp (dab (g 0 10) (g 0 21) .none)),
    (0xC200000000A0000057000000, .jstat (dab (g 0 10) (g 0 21) .none)),
    (0xC240000000A0000057000000, .jcan (dab (g 0 10) (g 0 21) .none)),
    (0xC280000000A400001B000000, .qfence (dab (g 0 10) (.imm 6) .none)),
    (0xC2C030000004000018000021, .tcset (dab .none (.imm 6) (g 0 33))),
    (0xC30030000004000018000021, .tcadd (dab .none (.imm 6) (g 0 33))),
    (0xC340000000A4000018000021, .tcwait (dab (g 0 10) (.imm 6) (g 0 33))),
    (0xC380000000A1000050000021, .trig (dab (g 0 10) (v 0 20) (g 0 33)))] = true := by decide +kernel
theorem test_decode_group : decodesTo [
    (0xE000000000A0000057000000, .launch (dab (g 0 10) (g 0 21) .none)),
    (0xE040000000A0000054000021, .spawn (dab (g 0 10) (g 0 21) (g 0 33))),
    (0xE080000000A0000054000021, .grpMake (dab (g 0 10) (g 0 21) (g 0 33))),
    (0xE0C0000000A0000057000000, .grpJoin (dab (g 0 10) (g 0 21) .none)),
    (0xE100000000A0000055000003, .grpInfo (dab (g 0 10) (g 0 21) (.imm 3))),
    (0xE140000000A1000053000000, .cpost (dab (g 0 10) (v 0 20) .none)),
    (0xE180000000A0000054000021, .cwait (dab (g 0 10) (g 0 21) (g 0 33))),
    (0xE1C0000000A0000057000000, .cstat (dab (g 0 10) (g 0 21) .none)),
    (0xE200000000A0000055000334, .tree (dab (g 0 10) (g 0 21) (.imm 820))),
    (0xE240000000A0000054000021, .kvmap (dab (g 0 10) (g 0 21) (g 0 33))),
    (0xE280000000A0000054000021, .kvref (dab (g 0 10) (g 0 21) (g 0 33))),
    (0xE2C0000000A0000054000021, .kvfork (dab (g 0 10) (g 0 21) (g 0 33))),
    (0xE300000000A0000054000021, .kvw (dab (g 0 10) (g 0 21) (g 0 33))),
    (0xE340000000A0000057000000, .kvdem (dab (g 0 10) (g 0 21) .none)),
    (0xE380000000A400001B000000, .domInfo (dab (g 0 10) (.imm 6) .none))] = true := by decide +kernel

def guarded (i : Bool) (q : BitVec 3) (h : BitVec 4) (x : Args) : Args := { x with inv := i, pred := q, hint := h }
def sync (o : Opd) : Opd := match o with | .reg r => .reg { r with sync := true } | y => y
def neg (o : Opd) : Opd := match o with | .reg r => .reg { r with neg := true } | y => y

/-- R135, worked encoding: `[!p3] ADD.i32 g7, ~g5, -12 :sat`, byte by byte. -/
theorem test_decode_worked : decodeBytes ([0xF4, 0xFF, 0xFF, 0x15, 0x00, 0x80, 0x70, 0x00, 0x30, 0x40, 0x6C, 0x00].map (BitVec.ofNat 8)) =
    .ok (.add (guarded true 3 1 (dab (g 3 7) (sync (g 0 5)) (.imm (-12))))) := by decide +kernel
/-- R115, R125, R133: neg in field a, a rounding code, and a reserved bit of a register field. -/
theorem test_decode_prefix :
    decodeWord (BitVec.ofNat 96 (0x100 * 2 ^ 86 + (0x50001 * 2 ^ 52) + (0x130002 * 2 ^ 26) + 0x3 + 0x400000 * (2 ^ 52 + 2 ^ 26 + 1))) =
      .ok (.vadd (dab (v 5 1) (neg (v 3 2)) (v 0 3))) ∧
    decodeWord (BitVec.ofNat 96 (0x1 * 2 ^ 86 + (0x10041 * 2 ^ 52) + (0x2 * 2 ^ 26) + 0x3)) = .illegal 2 2 := by decide +kernel

/-! ## Ill-formed terms, each refused by its check (R133, R135) -/

/-- The part and reason of the first failed check of an instruction. -/
def errOf (i : Instr) : Option (Nat × Nat) := (argsOf i).bind fun e => (rowOf e.1).bind fun r => formErr r e.2 false false false
theorem test_ill_formed : [
    (.and (guarded false 0 1 (dab (g 3 2) (g 0 3) (g 0 4))), 1, 7), (.vadd (guarded false 0 1 (dab (v 5 1) (v 0 2) (v 0 3))), 1, 7),
    (.add (dab .none (g 0 3) (g 0 4)), 2, 1), (.add (dab (v 3 2) (g 0 3) (g 0 4)), 2, 3), (.add (dab (g 5 2) (g 0 3) (g 0 4)), 2, 4),
    (.add (dab (sync (g 3 2)) (g 0 3) (g 0 4)), 2, 5), (.vadd (dab (v 5 32) (v 0 2) (v 0 3)), 2, 3), (.pand (dab (p 0 8) (p 0 2) (p 0 3)), 2, 3),
    (.add (dab (g 3 2) (v 0 3) (g 0 4)), 3, 3), (.add (dab (g 3 2) (sync (g 0 0)) (g 0 4)), 3, 5), (.vadd (dab (v 5 1) (v 4 2) (v 0 3)), 3, 4),
    (.vand (dab (v 0 1) (neg (v 0 2)) (v 0 3)), 3, 5), (.mfs (dab (g 0 2) (.reg ⟨.s, false, false, 0, 22⟩) .none), 3, 3),
    (.add (dab (g 3 2) (.wide 5) (.hi 0)), 3, 6), (.movw (dab (g 0 2) (.wide 5) (.imm 1)), 4, 6), (.mov (dab (g 0 2) (g 0 3) (g 0 4)), 4, 1),
    (.vcvt (dab (v 5 1) (v 0 2) (.imm 13)), 4, 4), (.add (dab (g 3 2) (g 0 3) (.hi 1)), 4, 6), (.ld (dab (g 4 2) (g 0 3) (g 2 4)), 4, 4),
    (.ldm (dab (g 7 58) (g 0 3) (.imm 0)), 5, 8), (.mxq (dab (g 0 2) (v 0 29) .none), 5, 8), (.cpq (dab (g 0 3) (v 0 4) .none), 5, 8),
    (.vexpn (dab (v 5 3) (v 0 2) .none), 5, 8), (.loop .l0 (dab .none (g 0 3) (.imm 0)), 5, 8), (.vext (dab (g 5 2) (v 0 3) (.imm 4)), 5, 8),
    (.hbAlloc (dab (g 0 2) (.imm 9) .none), 3, 4), (.tdset (dab .none (.imm 256) (g 0 3)), 5, 8), (.tcset (dab .none (.imm 64) (g 0 3)), 5, 8),
    (.domInfo (dab (g 0 2) (.imm 8) .none), 5, 8), (.grpInfo (dab (g 0 2) (g 0 3) (.imm (-1))), 5, 8), (.qfence (dab (g 0 2) (.imm 0) .none), 5, 8),
    (.tree (dab (g 0 2) (g 0 3) (.imm 0x51)), 5, 8)].all (fun (e : Instr × Nat × Nat) => errOf e.1 == some e.2 && !wellFormed e.1) = true := by
  decide +kernel

/-! ## One step of an instruction

Each result is worked out by hand from the rule named. -/

def after (i : Instr) (s : State) : State := match exec i s with | .next t => t | _ => State.reset
/-- g n after one instruction of strand 9 whose g3 and g4 hold a and b. -/
def gives (i : Instr) (a b : Word) (n : Nat) : Word := readG (acting (after i (at1 (withG [(3, a), (4, b)])))) n
def rrr (c : BitVec 4) : Args := dab (g c 2) (g 0 3) (g 0 4)
/-- R137, R139: wrap and clamp at the type's width. -/
theorem test_add : gives (.add (rrr 3)) 0x7FFFFFFF 1 2 = 0xFFFFFFFF80000000 ∧ gives (.add (guarded false 0 1 (rrr 3))) 0x7FFFFFFF 1 2 = 0x7FFFFFFF := by decide +kernel
theorem test_sub : gives (.sub (rrr 0)) 3 5 2 = 0xFE ∧ gives (.sub (guarded false 0 1 (rrr 0))) 3 5 2 = 0 := by decide +kernel
theorem test_mul : gives (.mul (rrr 2)) 0x100 0x80 2 = 0xFFFFFFFFFFFF8000 ∧ gives (.mulh (rrr 11)) 0xFFFFFFFF 0xFFFFFFFF 2 = 0xFFFFFFFE := by decide +kernel
/-- R140: DIV truncates toward zero; by zero every bit is set. -/
theorem test_div : gives (.div (rrr 3)) (-7) 2 2 = -3 ∧ gives (.div (rrr 11)) 9 0 2 = 0xFFFFFFFF := by decide +kernel
theorem test_rem : gives (.rem (rrr 3)) (-7) 2 2 = -1 ∧ gives (.rem (rrr 3)) 9 0 2 = 9 := by decide +kernel
theorem test_min_max : gives (.min (rrr 1)) 0xFF 1 2 = -1 ∧ gives (.max (rrr 0)) 0xFF 1 2 = 0xFF := by decide +kernel
theorem test_abs_neg : gives (.abs (dab (g 1 2) (g 0 3) .none)) 0x80 0 2 = -128 ∧ gives (.neg (guarded false 0 1 (dab (g 0 2) (g 0 3) .none))) 3 0 2 = 0 := by
  decide +kernel
theorem test_logic : gives (.and (rrr 4)) 0xC 0xA 2 = 8 ∧ gives (.or (rrr 4)) 0xC 0xA 2 = 0xE ∧ gives (.xor (rrr 4)) 0xC 0xA 2 = 6 ∧
    gives (.andn (rrr 4)) 0xC 0xA 2 = 4 := by decide +kernel
/-- R141: a count of the width or more; ROT takes it modulo the width. -/
theorem test_shifts : gives (.shl (rrr 3)) 1 32 2 = 0 ∧ gives (.shr (rrr 0)) 0x80 7 2 = 1 ∧ gives (.sar (rrr 1)) 0x80 9 2 = -1 ∧
    gives (.rot (rrr 0)) 0x81 9 2 = 3 := by decide +kernel
theorem test_shl_sat : gives (.shl (guarded false 0 1 (rrr 3))) (-2) 40 2 = 0xFFFFFFFF80000000 := by decide +kernel
theorem test_counts : gives (.clz (rrr 10)) 1 0 2 = 15 ∧ gives (.ctz (rrr 10)) 0 0 2 = 16 ∧ gives (.popc (rrr 1)) 0xFFF 0 2 = 8 ∧
    gives (.ext (rrr 1)) 0x180 0 2 = -128 := by decide +kernel
/-- R143: position 4, length 4. -/
theorem test_fields : gives (.bfx (dab (g 4 2) (g 0 3) (.imm 260))) 0xF0 0 2 = -1 ∧ gives (.bfx (dab (g 12 2) (g 0 3) (.imm 260))) 0xF0 0 2 = 15 ∧
    gives (.bfi (dab (g 12 4) (g 0 3) (.imm 260))) 0 0xFFFF 4 = 0xFF0F := by decide +kernel
/-- R120, R144, R145: p2 is clear; (0x2ABCDEF − 2^26) · 2^24 + 0x123456. -/
theorem test_moves : gives (.sel (dab (g 2 2) (g 0 3) (g 0 4))) 5 6 2 = 6 ∧ gives (.mov (dab (g 0 2) (.imm 0xFFFFFF) .none)) 0 0 2 = -1 ∧
    gives (.movw (dab (g 0 2) (.wide 0x123456) (.hi 0x2ABCDEF))) 0 0 2 = 0xFFFEABCDEF123456 ∧
    gives (.lea (dab (g 0 2) (g 0 3) (.imm (-8)))) 4 0 2 = -4 := by decide +kernel
theorem test_g0 : gives (.mov (dab (g 0 0) (.imm 5) .none)) 0 0 0 = 0 := by decide +kernel
def pAfter (i : Instr) (s : State) (n : Nat) : BitVec 16 := readP (acting (after i s)) n
/-- R146: −1 < 0 signed and not unsigned; a write to p0 is discarded. -/
theorem test_cmp : pAfter (.cmp .lt (dab (p 3 2) (g 0 3) (.imm 0))) (at1 (withG [(3, 0xFFFFFFFF)])) 2 = 0xFFFF ∧
    pAfter (.cmp .lt (dab (p 11 2) (g 0 3) (.imm 0))) (at1 (withG [(3, 0xFFFFFFFF)])) 2 = 0 ∧
    pAfter (.pnot (dab (p 0 0) (p 0 0) .none)) (at1 strand) 0 = 0xFFFF ∧ pAfter (.pxor (dab (p 0 1) (p 0 0) (p 0 3))) (at1 strand) 1 = 0xFFFF := by decide +kernel
/-- R129: a guard that is off leaves everything but the pc. -/
theorem test_guard : let s := at1 (withG [(2, 7)])
    readG (acting (after (.mov (guarded false 1 0 (dab (g 0 2) (.imm 5) .none))) s)) 2 = 7 ∧
    (acting (after (.mov (guarded false 1 0 (dab (g 0 2) (.imm 5) .none))) s)).pc = 0x110 := by decide +kernel
def none3 : Args := dab .none .none .none
/-- R149: pc 0x100; CALL links to the next line. -/
theorem test_transfers : (acting (after (.br (dab .none (.imm 2) .none)) (at1 strand))).pc = 0x120 ∧
    (acting (after (.call (dab .none (.imm (-1)) .none)) (at1 strand))).pc = 0xF0 ∧
    (acting (after (.call (dab .none (.imm (-1)) .none)) (at1 strand))).lk = 0x110 ∧
    (acting (after (.bri (dab .none (g 0 3) .none)) (at1 (withG [(3, 0x200)])))).pc = 0x200 ∧
    (acting (after (.ret none3) (at1 { strand with lk := 0x340 }))).pc = 0x340 := by decide +kernel
/-- R152 to R154: a loop is armed, comes back at its last instruction, and a zero trip skips the body. -/
theorem test_loop : (acting (after (.loop .l0 (dab .none (.imm 3) (.imm 4))) (at1 strand))).le0 = 0x140 ∧
    (acting (after (.loop .l0 (dab .none (.imm 0) (.imm 4))) (at1 strand))).pc = 0x150 ∧
    (acting (after (.nop none3) (at1 { strand with ls0 := 0x80, le0 := 0x100, lc0 := 2 }))).pc = 0x80 ∧
    (acting (after (.nop none3) (at1 { strand with ls0 := 0x80, le0 := 0x100, lc0 := 2 }))).lc0 = 1 ∧
    (acting (after (.lbrk .l0 none3) (at1 { strand with ls0 := 0x80, le0 := 0x200, lc0 := 2, lc1 := 1 }))).pc = 0x210 := by decide +kernel

/-! ### System forms -/

/-- R162, R169: the record's trapinfo is the immediate, and the strand resumes after the instruction. -/
theorem test_trap : let t := after (.trap (dab .none (.imm 77) .none)) (at1 strand)
    (getSlot t 1).st = .halted ∧ (acting t).trapinfo = 77 ∧ (acting t).pc = 0x110 := by decide +kernel
/-- R134, R163: RLS outside slot 0 takes the privilege trap and resumes at itself. -/
theorem test_privilege : let t := after (.rls (dab .none (g 0 3) .none)) (at1 strand)
    (getSlot t 1).st = .halted ∧ (acting t).pc = 0x100 := by decide +kernel
/-- R155, R156: slot 1 is occupied; ctx is 1; fflags keeps five bits. -/
theorem test_special : gives (.mfs (dab (g 0 2) (sreg 3) .none)) 0 0 2 = 0x20001 ∧ gives (.mfs (dab (g 0 2) (sreg 4) .none)) 0 0 2 = 1 ∧
    (acting (after (.mts (dab (sreg 5) (.imm 0xFFFF) .none)) (at1 strand))).fflags = 0x1F := by decide +kernel
/-- R158: a deadline that is not reached is armed; one that is past traps at once, with the deadline as trapinfo. -/
theorem test_deadline : (acting (after (.dln (dab .none (g 0 3) .none)) (at1 (withG [(3, 6000)])))).dlArmed = true ∧
    (acting (after (.dln (dab .none (g 0 3) .none)) (at1 (withG [(3, 4000)])))).trapinfo = 4000 := by decide +kernel
/-- R157, R161: dtime; one block; every District. -/
theorem test_facts : gives (.time (dab (g 0 2) .none .none)) 0 0 2 = 5000 ∧ readG (acting (after (.part (dab (g 0 2) (.imm 0) .none)) (ready (at1 strand)))) 2 = 1 ∧
    readG (acting (after (.part (dab (g 0 2) (.imm 5) .none)) (ready (at1 strand)))) 2 = 15 := by decide +kernel
/-- R166: slot 1 starts at a with g1 = b. -/
theorem test_strt : let t := after (.strt (dab (g 0 2) (g 0 3) (g 0 4))) (at_ 0 (withG [(3, 0x900), (4, 6)]))
    readG (acting t) 2 = 0x10000 ∧ (getSlot t 1).st = .ready ∧ (strandAt t 1).pc = 0x900 ∧ readG (strandAt t 1) 1 = 6 ∧
    (strandAt t 1).lk = 0xFFFFFFFFFFFFFFF0 := by decide +kernel
theorem test_reap : let t := after (.reap (dab (g 0 2) (.imm 2) .none)) (many strand)
    readG (acting t) 2 = 0x20000 ∧ (getSlot t 2).st = .empty ∧ readG (acting (after (.reap (dab (g 0 4) (.imm 16) .none)) (many strand))) 4 = 0xA06 := by decide +kernel
/-- R165: inbox entry 0, unit 5. -/
theorem test_utake : readG (acting (after (.utake (dab (g 0 2) .none .none)) (many strand))) 2 = 0x8000000000000005 := by decide +kernel

/-! ### Vector forms -/

/-- v n after one instruction of strand 9 whose v2, v3 and v1 hold a, b and d. -/
def vgives (i : Instr) (a b d : Vec) (n : Nat) : Vec := readV (acting (after i (at1 (writeV (writeV (writeV strand 2 a) 3 b) 1 d)))) n
def vvv (c : BitVec 4) : Args := dab (v c 1) (v 0 2) (v 0 3)
/-- R177: 0x7F + 1 in the lowest signed byte. -/
theorem test_vadd : vgives (.vadd (vvv 1)) 0x7F 1 0 1 = 0x80 ∧ vgives (.vadd (guarded false 0 1 (vvv 1))) 0x7F 1 0 1 = 0x7F := by decide +kernel
/-- R180: FP8 240 + 240 under RNE and RTZ; FP32 1.5 · 2 = 3; 1.5 − 1.5 under RDN. -/
theorem test_vfloat : vgives (.vadd (vvv 7)) 0x77 0x77 0 1 = 0x7F ∧ vgives (.vadd (dab (v 7 1) (v 1 2) (v 0 3))) 0x77 0x77 0 1 = 0x7E ∧
    vgives (.vmul (vvv 5)) 0x3FC00000 0x40000000 0 1 = 0x40400000 ∧
    vgives (.vsub (dab (v 5 1) (v 2 2) (v 0 3))) 0x3FC00000 0x3FC00000 0 1 = 0x80000000800000008000000080000000 := by decide +kernel
/-- R180: one rounding: (1 + 2^-12)^2 − 1 = 2^-11 + 2^-24. -/
theorem test_vfma : vgives (.vfma (vvv 5)) 0x3F800800 0x3F800800 0xBF800000 1 = 0x3A000400 := by decide +kernel
/-- R181, R182: −0 is below +0; a NaN gives way; −(−0) = +0. -/
theorem test_vmin : vgives (.vmin (vvv 5)) 0x80000000 0 0 1 = 0x80000000 ∧ vgives (.vmax (vvv 5)) 0x7FC00000 0xBF800000 0 1 = 0xBF800000 ∧
    vgives (.vneg (dab (v 5 1) (v 0 2) .none)) 0x80000000 0 0 1 % 2 ^ 32 = 0 ∧ vgives (.vabs (vvv 2)) 0x8000 0 0 1 = 0x8000 := by decide +kernel
theorem test_vlogic : vgives (.vand (vvv 0)) 0xC 0xA 0 1 = 8 ∧ vgives (.vor (vvv 0)) 0xC 0xA 0 1 = 0xE ∧ vgives (.vxor (vvv 0)) 0xC 0xA 0 1 = 6 := by decide +kernel
/-- R178: the example VSHR.n16 by 20; arithmetic by lane. -/
theorem test_vshift : vgives (.vshr (dab (v 10 1) (v 0 2) (.imm 20))) 0xFFFF 0 7 1 = 0 ∧ vgives (.vshl (vvv 0)) 0x0101 0x0201 0 1 = 0x0402 ∧
    vgives (.vsar (dab (v 1 1) (v 0 2) (.imm 7))) 0x80 0 0 1 = 0xFF := by decide +kernel
/-- R179: four times 127 · −127. -/
theorem test_vdot : vgives (.vdot (vvv 1)) 0x7F7F7F7F 0x81818181 0 1 = 0xFFFF03FC ∧
    vgives (.vdot (guarded false 0 1 (vvv 1))) 0x7F7F7F7F 0x81818181 0x80002710 1 = 0x80000000 := by decide +kernel
/-- R183: bits of a lane's bytes; a NaN is unequal. -/
theorem test_vcmp : let s := at1 (writeV (writeV strand 2 0x7FC00000) 3 0x7FC00000)
    pAfter (.vcmp .ne (dab (p 5 2) (v 0 2) (v 0 3))) s 2 = 0x000F ∧ pAfter (.vcmp .eq (dab (p 5 2) (v 0 2) (v 0 3))) s 2 = 0xFFF0 := by decide +kernel
/-- R185 to R187. -/
theorem test_vbytes : vgives (.vsel (vvv 0)) 0x4321 0x80FF 0 1 = 0x4321 ∧ vgives (.vsel (vvv 0)) 0x4321 0x807F 0 1 = 0x4300 ∧
    vgives (.vperm (vvv 0)) 0x4321 0x00808011 0 1 % 2 ^ 32 = 0x21000043 ∧ vgives (.vsum (dab (v 0 1) (v 0 2) .none)) 0x0203FF 0 0 1 = 4 := by decide +kernel
/-- R188, R189. -/
theorem test_vlanes : vgives (.vsplat (dab (v 6 1) (.imm 0x3F80) .none)) 0 0 0 1 = 0x3F803F803F803F803F803F803F803F80 ∧
    vgives (.vins (dab (v 1 1) (.imm 0x1FF) (.imm 1))) 0 0 0 1 = 0xFF00 ∧
    readG (acting (after (.vext (dab (g 1 2) (v 0 2) (.imm 1))) (at1 (writeV strand 2 0x8000)))) 2 = -128 := by decide +kernel
/-- R191: the example of four FP32 lanes to BF16. -/
theorem test_vcvt : vgives (.vcvt (dab (v 6 1) (v 0 2) (.imm 5))) 0x800000003F8180003F8080003F800000 0 0 1 = 0x80003F823F803F80 := by decide +kernel
/-- R193: exact cases. -/
theorem test_vspecial : vgives (.vlog2 (dab (v 5 1) (v 0 2) .none)) 0x3F8000003F8000003F80000041000000 0 0 1 = 0x40400000 ∧
    vgives (.vrcp (dab (v 5 1) (v 0 2) .none)) 0x3F8000003F8000003F80000040000000 0 0 1 % 2 ^ 32 = 0x3F000000 ∧
    vgives (.vrsq (dab (v 5 1) (v 0 2) .none)) 0x3F8000003F8000003F80000040800000 0 0 1 % 2 ^ 32 = 0x3F000000 ∧
    vgives (.vtanh (dab (v 5 1) (v 0 2) .none)) 0xFF800000 0 0 1 = 0xBF800000 := by decide +kernel
/-- R193: the example 2^0.5. -/
theorem test_vexp2 : vgives (.vexp2 (dab (v 5 1) (v 0 2) .none)) 0x3F000000 0 0 1 % 2 ^ 32 = 0x3FB504F3 := by decide +kernel
/-- R194 to R197: 2.5 = 0.5 + 2; the exponent of 6; 1.5 · 2^2; a running maximum. -/
theorem test_exponents : vgives (.vexpn (dab (v 5 4) (v 0 2) .none)) 0x40200000 0 0 4 = 0x3F000000 ∧
    vgives (.vexpn (dab (v 5 4) (v 0 2) .none)) 0x40200000 0 0 5 = 2 ∧ vgives (.vmaxe (vvv 5)) 0x40C00000 0x3F800000 0 1 % 2 ^ 32 = 2 ∧
    vgives (.vldexp (vvv 5)) 0x3FC00000 2 0 1 = 0x40C00000 ∧ vgives (.vrmax (dab (v 3 4) (v 0 2) .none)) 7 0 0 4 = 7 ∧
    vgives (.vrmax (dab (v 3 4) (v 0 2) .none)) 7 0 0 5 = 0xFFFFFFF9 := by decide +kernel

/-! ### Memory and objects -/

/-- g3 holds the own-scratchpad address 0x40, g4 the value; the memory is m. -/
def own (m : Map Byte) (b : Word) : State := { at1 (withG [(3, 0xF000000000000040), (4, b)]) with mem := m }
/-- R1, R202: little-endian; a signed byte is extended. -/
theorem test_store : (after (.st (dab (g 2 4) (g 0 3) (.imm 2))) (own [] 0x12345)).mem = [(spadKey 0 0x42, 0x45), (spadKey 0 0x43, 0x23)] := by decide +kernel
theorem test_load : readG (acting (after (.ld (dab (g 1 2) (g 0 3) (.imm 1))) (own [(spadKey 0 0x41, 0x80)] 0))) 2 = -128 := by decide +kernel
/-- R63, R200: a misaligned load halts the strand where it is; space 0xF4 is not for loads. -/
theorem test_misaligned : let t := after (.ld (dab (g 4 2) (g 0 3) (.imm 1))) (own [] 0)
    (getSlot t 1).st = .halted ∧ (acting t).pc = 0x100 ∧
    (getSlot (after (.ld (dab (g 4 2) (g 0 3) .none)) (at1 (withG [(3, 0xF400000000000000)]))) 1).st = .halted := by decide +kernel
/-- R203: bytes whose mask bit is clear keep their value. -/
theorem test_vst : (after (.vst (guarded false 1 0 (dab (v 0 2) (g 0 3) (.imm 0))))
    { own [] 0 with cores := [(0, { Core.init with slots := [(1, full .ready { writeV (withG [(3, 0xF000000000000040)]) 2 0x040302 with p := [(1, 5)] })] })] }).mem =
      [(spadKey 0 0x40, 2), (spadKey 0 0x42, 4)] := by decide +kernel
theorem test_ldm : let t := after (.ldm (dab (g 1 5) (g 0 3) (.imm 0))) (own [(spadKey 0 0x40, 1), (spadKey 0 0x48, 2)] 0)
    readG (acting t) 5 = 1 ∧ readG (acting t) 6 = 2 := by decide +kernel
/-- R224: the old value comes back and the sum is stored. -/
theorem test_aadd : let t := after (.aadd (dab (g 3 2) (g 0 3) (g 0 4))) (own [(spadKey 0 0x40, 0xFF)] 2)
    readG (acting t) 2 = 0xFF ∧ t.mem = [(spadKey 0 0x40, 1), (spadKey 0 0x41, 1)] := by decide +kernel
/-- R225, R392: the lowest barrier; the only member's arrival completes the phase. -/
theorem test_barrier : readG (acting (after (.hbAlloc (dab (g 0 2) .none .none)) (withBar HBar.init strand))) 2 = 0 ∧
    (getHb (settleBarrier (after (.hbArrive (dab .none (.imm 3) .none)) (withBar bar strand)) 0 3) 0 3).phase = 1 := by decide +kernel
/-- R228: pending and expected arrivals 3. -/
theorem test_mb_init : (after (.mbInit (dab .none (g 0 3) (.imm 3))) (own [] 0)).mem = [(spadKey 0 0x40, 3), (spadKey 0 0x44, 3)] := by decide +kernel
/-- R255: a set and an add. -/
theorem test_counter : let t := after (.tcset (dab .none (.imm 3) (.imm 5))) (at1 strand)
    (getTc t 0 3).count = 5 ∧ (getTc (after (.tcadd (dab .none (.imm 3) (.imm 2))) t) 0 3).count = 7 := by decide +kernel
/-- R233, R234: the first handles of a queue; R252: a cancelled job has ended. -/
theorem test_mxq : let t := after (.mxq (dab (g 0 2) (v 0 8) .none)) (mapped (at1 strand))
    readG (acting t) 2 = 0 ∧ (queueOf t 0 0).jobs.length = 1 ∧ (queueOf t 0 0).next = 1 := by decide +kernel
theorem test_jcan : (queueOf (after (.jcan (dab (g 0 2) (g 0 3) .none)) (withJob 1 [job 0] strand)) 0 0).jobs = [] := by decide +kernel
/-- R263, R274. -/
theorem test_group_facts : readG (acting (after (.grpInfo (dab (g 0 2) (g 0 3) (.imm 0)))
      (withGroup (group 0 []) [] [] (at1 (withG [(3, 0x8000)]))))) 2 = 2 ∧ gives (.domInfo (dab (g 0 2) (.imm 1) .none)) 0 0 2 = 1 := by decide +kernel

/-! ### A step -/

def nextIs (o : Host.Outcome State Fault Refusal) (f : State → Bool) : Bool := match o with | .next t => f t | _ => false
/-- `MOV g2, 5` placed where the next step fetches is run by that step. -/
theorem test_step : nextIs (step (State.reset.withFetchWord 96 (0x1A * 2 ^ 86 + 2 * 2 ^ 52 + (2 ^ 24 + 5) * 2 ^ 26 + 3 * 2 ^ 24)))
    (fun t => readG (strandAt t 0) 2 == 5 && (strandAt t 0).pc == 16) = true := by decide +kernel
/-- R132, R135: a word of zeros halts the strand with trapinfo 0. -/
theorem test_step_illegal : nextIs (step (State.reset.withFetchWord 96 0))
    (fun t => (getSlot t 0).st == .halted && (strandAt t 0).trapinfo == 0) = true := by decide +kernel
/-- R452: the step after reset is the start; no strand runs yet. -/
theorem test_reset : nextIs (step State.reset) (fun t => (getSlot t 0).st == .empty && t.cycle == 0) = true := by decide +kernel
/-- The acting slot holds no ready strand. -/
theorem test_no_strand : exec (.nop none3) { at1 strand with cores := [] } = .fault .noStrand := rfl

end Sys2Proof.Tests
end

section
/-! SUPPORT. The scalar forms of R137 to R147: what a form that only computes field d writes, the results of arithmetic, logic,
shifts and comparison as the statements write them, and the theorems that settle the statements. -/

namespace Sys2Proof.Machine
open Sys2Proof

/-! ## A form that computes one register -/

/-- A scalar form whose meaning is a computation of gd writes the value computed from its operands, here under any name `v` of it. -/
theorem exec_writesG {op : Nat} {x : Args} {s : State} {n : Nat} {i : Instr} {f : Opnds → Word} {v : Word}
    (hd : gField x.d = some n) (h4 : fourOf op = false) (hi : exec i s = run op x (compute x f) s)
    (hv : f (ops x s) = v) (hc : clear op x s = true) : ∃ z, exec i s = .next z ∧ WritesG x s z n v := by
  rw [hi, ← hv]
  exact run_compute op x f s n hc hd h4

/-- The same for a form that computes pd; it raises no flag. -/
theorem exec_writesP {op : Nat} {x : Args} {s : State} {n : Nat} {i : Instr} {f : Opnds → BitVec 16} {v : BitVec 16}
    (hd : pField x.d = some n) (h4 : fourOf op = false) (hi : exec i s = run op x (computeP x f) s)
    (hv : f (ops x s) = v) (hc : clear op x s = true) : ∃ z, exec i s = .next z ∧ WritesP x s z n v 0 := by
  rw [hi, ← hv]
  exact run_computeP op x f s n hc hd h4

/-! ## Arithmetic (R137, R139, R140) -/

/-- An arithmetic result is that of its exact value. -/
theorem arith_eq_of_exact {t : Nat} {sat : Bool} {f : Int → Int → Int} {a b : Word} {e : Int}
    (he : f (intValue t a.toNat) (intValue t b.toNat) = e) : arith t sat f a b = intExtend t (intNarrow t sat e) := by
  rw [arith, he]

/-- Settles O1: each form computes gd by `arith`, whose exact value is the one of R139's table. -/
theorem integerArithmeticResults : Obligations.IntegerArithmeticResults := by
  intro x s n hd t a b gives
  refine ⟨?add, ?sub, ?mul, ?mulh, ?div, ?rem, ?min, ?max, ?abs, ?neg⟩
  case min => exact exec_writesG hd rfl rfl (arith_eq_of_exact (Int.min_def a b))
  case max => exact exec_writesG hd rfl rfl (arith_eq_of_exact (Int.max_def a b))
  case add | sub | mul | mulh | div | rem | abs | neg => exact exec_writesG hd rfl rfl (arith_eq_of_exact rfl)

/-! ## Logic and shifts (R141) -/

/-- A type's value depends on the w-bit pattern only. -/
theorem intValue_mod (t u : Nat) : intValue t (u % 2 ^ intWidth t) = intValue t u := by
  simp only [intValue, Nat.mod_mod]

theorem intExtend_mod (t u : Nat) : intExtend t (u % 2 ^ intWidth t) = intExtend t u := by
  rw [intExtend, intValue_mod, intExtend]

/-- The model cuts a logic result at w bits again, which extending it does anyway. -/
theorem bits2_eq (t : Nat) (f : Nat → Nat → Nat) (a b : Word) :
    bits2 t f a b = intExtend t (f (a.toNat % 2 ^ intWidth t) (b.toNat % 2 ^ intWidth t)) :=
  intExtend_mod t _

/-- A w-bit pattern shifted right by c: a count above w may as well be w, where nothing of the pattern is left. -/
theorem mod_div_pow_min (u w c : Nat) : u % 2 ^ w / 2 ^ min c w = if w ≤ c then 0 else u % 2 ^ w / 2 ^ c := by
  split
  case isTrue h => rw [Nat.min_eq_right h]; exact Nat.div_eq_of_lt (Nat.mod_lt u (Nat.two_pow_pos w))
  case isFalse h => rw [Nat.min_eq_left (Nat.le_of_not_le h)]

theorem shrVal_eq (t : Nat) (a c : Word) : shrVal t a c = intExtend t
    (if intWidth t ≤ c.toNat then 0 else a.toNat % 2 ^ intWidth t / 2 ^ c.toNat) := by
  rw [← mod_div_pow_min]; rfl

/-- Settles O2: the logic forms through `bits2_eq`, SHR through `shrVal_eq`; SHL, SAR and ROT have R141's value as it stands. -/
theorem logicAndShiftResults : Obligations.LogicAndShiftResults := by
  intro x s n hd t w a b c gives
  refine ⟨?and, ?or, ?xor, ?andn, ?shl, ?shr, ?sar, ?rot⟩
  case and | or | xor | andn => exact exec_writesG hd rfl rfl (bits2_eq t _ _ _)
  case shr => exact exec_writesG hd rfl rfl (shrVal_eq t _ _)
  case shl | sar | rot => exact exec_writesG hd rfl rfl rfl

/-! ## Predicates (R146, R147) -/

/-- CMP's result under a condition that its two values decide. -/
theorem cmpVal_eq {c : Cond} {t : Nat} {a b : Word} {p : Prop} [Decidable p]
    (hp : condHolds c (intValue t a.toNat) (intValue t b.toNat) = true ↔ p) : cmpVal c t a b = if p then 0xFFFF else 0 :=
  if_congr hp rfl rfl

/-- Settles O5: CMP by each condition's meaning on the two values, the other forms by the bits that they combine. -/
theorem predicateResults : Obligations.PredicateResults := by
  intro x s n hd t a b gives holds
  refine ⟨?eq, ?ne, ?lt, ?le, ?gt, ?ge, ?pand, ?por, ?pxor, ?pnot⟩
  case eq => exact exec_writesP hd rfl rfl (cmpVal_eq beq_iff_eq)
  case ne => exact exec_writesP hd rfl rfl (cmpVal_eq bne_iff_ne)
  case lt | le | gt | ge => exact exec_writesP hd rfl rfl (cmpVal_eq decide_eq_true_iff)
  case pand | por | pxor | pnot => exact exec_writesP hd rfl rfl rfl

end Sys2Proof.Machine
end

section
/-! SUPPORT. The vector forms on bytes (R184, R185, R187) and those that reduce or arrange lanes (R179, R186, R188, R189): their
lane results as the statements write them, and the theorems that settle the statements. -/

namespace Sys2Proof.Machine
open Sys2Proof

/-! ## Forms on bytes (R184, R185, R187) -/

/-- A form on bytes writes vd under the byte mask, here with any name `e` of its bytes; it raises no flag. -/
theorem exec_byteForm_writesV {op : Nat} {x : Args} {s : State} {n : Nat} {i : Instr} {f : Vec → Vec → Nat → Nat} {e : Nat → Nat}
    (hd : vField x.d = some n) (h4 : fourOf op = false) (hi : exec i s = run op x (byteForm x f) s)
    (he : ∀ k, f (ops x s).av (ops x s).b k = e k) (hc : clear op x s = true) :
    ∃ z, exec i s = .next z ∧
      let r := lanewise 8 16 (laneMask (acting s) x) (readV (acting s) n) fun k => ⟨e k, 0⟩
      WritesV x s z n r.1 r.2 :=
  vecBody_writes op x 8 16 _ s n i _ hd h4 hi (fun k => congrArg noFlag (he k)) hc

/-- The sign bit of a byte is 1 exactly when the byte is 128 or more. -/
theorem byte_testBit_seven (k : Nat) (v : Vec) : (laneGet 8 k v).testBit 7 = true ↔ 128 ≤ laneGet 8 k v := by
  rw [testBit_seven _ (laneGet_lt 8 k v), decide_eq_true_iff]

/-- R185: VSEL's test of a byte of vb. -/
theorem select_byte_eq (k : Nat) (a b : Vec) : (if 128 ≤ laneGet 8 k b then laneGet 8 k a else 0) =
    if (laneGet 8 k b).testBit 7 then laneGet 8 k a else 0 :=
  if_congr (byte_testBit_seven k b).symm rfl rfl

/-- R187: VPERM's index is the low four bits of the selector byte. -/
theorem permute_byte_eq (k : Nat) (a b : Vec) : (if 128 ≤ laneGet 8 k b then 0 else laneGet 8 (laneGet 8 k b % 16) a) =
    if (laneGet 8 k b).testBit 7 then 0 else laneGet 8 (laneGet 8 k b &&& 15) a := by
  rw [Nat.and_two_pow_sub_one_eq_mod _ 4]
  exact if_congr (byte_testBit_seven k b).symm rfl rfl

/-- Settles O24: each form is a `byteForm`; a byte of a bitwise combination is that of the bytes, and VSEL and VPERM test
the sign bit of vb's byte. -/
theorem vectorByteResults : Obligations.VectorByteResults := by
  intro x s n hd a b sel gives
  refine ⟨?vand, ?vor, ?vxor, ?vsel, ?vperm⟩
  case vand => exact exec_byteForm_writesV hd rfl rfl fun k => byte_and k a b
  case vor => exact exec_byteForm_writesV hd rfl rfl fun k => byte_or k a b
  case vxor => exact exec_byteForm_writesV hd rfl rfl fun k => byte_xor k a b
  case vsel => exact exec_byteForm_writesV hd rfl rfl fun k => select_byte_eq k a b
  case vperm => exact exec_byteForm_writesV hd rfl rfl fun k => permute_byte_eq k a b

/-! ## Reduction and arrangement (R179, R186, R188, R189) -/

/-- R179: a lane of VDOT is the narrowed sum of the old lane and the four byte products, in the 32-bit type beside the byte
type. -/
theorem dotLane_eq (sat : Bool) (t d : Nat) (a b : Vec) (j : Nat) :
    let t32 := if t = 1 then 3 else 11
    let byte := fun (v : Vec) (k : Nat) => intValue t (laneGet 8 k v)
    dotLane sat t d a b j = intNarrow t32 sat (intValue t32 d +
      byte a (4 * j) * byte b (4 * j) + byte a (4 * j + 1) * byte b (4 * j + 1) +
      byte a (4 * j + 2) * byte b (4 * j + 2) + byte a (4 * j + 3) * byte b (4 * j + 3)) := by
  intro t32 byte
  have ht : (if t == 1 then 3 else 11) = t32 := if_congr beq_iff_eq rfl rfl
  rw [dotLane, ht]
  rfl

/-- R186: VSUM's sum, rounded once on floating lanes; the integer lanes, added from the left, are narrowed once. -/
theorem sumLanes_eq (x : Args) (t : Nat) (v : Vec) :
    let lanes := (List.range (lanesOf t)).map fun k => srcLane x.a t v k
    sumLanes x t v = if isFloat t then fpSum (fmtOf t) (rndOf (codeOf x.a)) (lanes.map (fpValue (fmtOf t)))
      else ⟨intNarrow t (satOf x) (lanes.map (intValue t)).sum, 0⟩ := by
  intro lanes
  rw [List.sum_eq_foldl, List.foldl_map]
  rfl

/-- Settles O26: VDOT through `dotLane_eq`, VSUM through `sumLanes_eq`; VSPLAT and VINS have the lanes of R188 and R189 as
they stand. -/
theorem vectorArrangeResults : Obligations.VectorArrangeResults := by
  intro x s n hd t w o gives byte t32 lanes
  refine ⟨?vdot, ?vsum, ?vsplat, ?vins⟩
  case vdot => exact vecBody_writes _ x 32 4 _ s n _ _ hd rfl rfl fun j => congrArg noFlag (dotLane_eq _ t _ o.av o.b j)
  case vsum =>
    refine vecBody_writes _ x w (lanesOf t) _ s n _ _ hd rfl rfl fun j => ?_
    rw [← sumLanes_eq]
    exact if_congr beq_iff_eq rfl rfl
  case vsplat | vins => exact vecBody_writes _ x w (lanesOf t) _ s n _ _ hd rfl rfl fun _ => rfl

end Sys2Proof.Machine
end

section
/-! SUPPORT. Words and instructions (R115 to R135): what the decoder accepts, that a packed word gives its fields back and an
accepted word is the packed one, and the theorems that settle the statements. -/

namespace Sys2Proof.Machine
open Sys2Proof

/-! ## What the decoder accepts -/

/-- Whether the decoder takes field b of a word as the upper half of a wide operand (R120). -/
def wordWide (r : Row) (w : BitVec 96) : Bool := isWide (parseOpd (w.extractLsb' 26 26)) && bitOf r.ak 5

/-- The fields of a word as the decoder reads them for a row. -/
def wordArgs (r : Row) (w : BitVec 96) : Args :=
  { inv := w.getLsbD 85
    pred := w.extractLsb' 82 3
    hint := w.extractLsb' 78 4
    d := parseOpd (w.extractLsb' 52 26)
    a := parseOpd (w.extractLsb' 26 26)
    b := if wordWide r w then .hi (w.extractLsb' 0 26) else parseOpd (w.extractLsb' 0 26) }

/-- No reserved bit of a word is set, the upper half of a wide operand having none. -/
def Unreserved (r : Row) (w : BitVec 96) : Prop :=
  reservedSet (w.extractLsb' 52 26) = false ∧ reservedSet (w.extractLsb' 26 26) = false ∧
    (wordWide r w = false → reservedSet (w.extractLsb' 0 26) = false)

/-- The checks of R133 on the fields of a word. -/
def wordErr (r : Row) (w : BitVec 96) : Option (Nat × Nat) :=
  formErr r (wordArgs r w) (reservedSet (w.extractLsb' 52 26)) (reservedSet (w.extractLsb' 26 26))
    (!wordWide r w && reservedSet (w.extractLsb' 0 26))

theorem decodeWord_of_row {w : BitVec 96} {r : Row} (hr : rowOf (w.extractLsb' 86 10).toNat = some r) :
    decodeWord w = match wordErr r w with | some (p, e) => .illegal p e | none => .ok (r.make (wordArgs r w)) := by
  rw [decodeWord, hr]; rfl

theorem decodeWord_of_no_row {w : BitVec 96} (hr : rowOf (w.extractLsb' 86 10).toNat = none) :
    decodeWord w = .illegal 0 0 := by rw [decodeWord, hr]

theorem decodeWord_ok_iff (w : BitVec 96) (i : Instr) : decodeWord w = .ok i ↔
    ∃ r, rowOf (w.extractLsb' 86 10).toNat = some r ∧ wordErr r w = none ∧ r.make (wordArgs r w) = i := by
  cases hr : rowOf (w.extractLsb' 86 10).toNat with
  | none => simp [decodeWord_of_no_row hr]
  | some r =>
    rw [decodeWord_of_row hr]
    cases he : wordErr r w <;> simp [he]

/-- R120: an upper half is accepted in field b only, and there with a wide field a. -/
theorem fieldErr_hi {r : Row} {p : Part} {t : Nat} {wide rsvd : Bool} {k : BitVec 26}
    (h : fieldErr r p t wide rsvd (.hi k) = none) : p = .b ∧ wide = true := by
  cases p <;> cases wide <;> simp [fieldErr] at h ⊢

/-- R120: beside a wide field a, field b is its upper half. -/
theorem fieldErr_beside_wide {r : Row} {t : Nat} {rsvd : Bool} {o : Opd} (h : fieldErr r .b t true rsvd o = none) :
    ∃ k, o = .hi k := by
  cases o <;> simp [fieldErr] at h ⊢

/-- Where the checks accept a word, none of its reserved bits is set, and they accept its fields as those of an instruction. -/
theorem wordErr_none {r : Row} {w : BitVec 96} (h : wordErr r w = none) :
    Unreserved r w ∧ formErr r (wordArgs r w) false false false = none := by
  rw [wordErr, formErr_none] at h
  obtain ⟨hh, hd, ha, hb, hc⟩ := h
  obtain ⟨rd, hd⟩ := fieldErr_rsvd _ _ _ _ _ hd
  obtain ⟨ra, ha⟩ := fieldErr_rsvd _ _ _ _ _ ha
  cases hw : wordWide r w with
  | true =>
    rw [hw] at hb
    exact ⟨⟨rd, ra, by simp [hw]⟩, (formErr_none ..).2 ⟨hh, hd, ha, hb, hc⟩⟩
  | false =>
    have hxb : (wordArgs r w).b = parseOpd (w.extractLsb' 0 26) := by simp [wordArgs, hw]
    rw [hw, hxb] at hb
    obtain ⟨rb, hb⟩ := fieldErr_rsvd _ _ _ _ _ hb
    exact ⟨⟨rd, ra, fun _ => rb⟩, (formErr_none ..).2 ⟨hh, hd, ha, hxb ▸ hb, hc⟩⟩

/-! ## Packing and parsing -/

/-- The fields of an instruction's word are read as they were packed. -/
theorem wordArgs_packWord {r : Row} {op : Nat} {x : Args} (hop : op < 1024)
    (h : formErr r x false false false = none) :
    wordArgs r (packWord op x) = x ∧ Unreserved r (packWord op x) := by
  obtain ⟨-, hd, ha, hb, -⟩ := (formErr_none ..).1 h
  obtain ⟨-, finv, fpred, fhint, fd, fa, fb⟩ := pack_fields op x hop
  obtain ⟨pd, rd⟩ := parse_pack x.d fun k e => by rw [e] at hd; exact Part.noConfusion (fieldErr_hi hd).1
  obtain ⟨pa, ra⟩ := parse_pack x.a fun k e => by rw [e] at ha; exact Part.noConfusion (fieldErr_hi ha).1
  have hw : wordWide r (packWord op x) = (isWide x.a && bitOf r.ak 5) := by rw [wordWide, fa, pa]
  have hargs (b : Opd) (e : (if wordWide r (packWord op x) then .hi (packOpd x.b) else parseOpd (packOpd x.b)) = b) :
      wordArgs r (packWord op x) = { x with b := b } := by
    rw [wordArgs, finv, fpred, fhint, fd, fa, fb, pd, pa, e]
  rw [Unreserved, fd, fa, fb]
  cases hwide : isWide x.a && bitOf r.ak 5 with
  | true =>
    rw [hwide] at hb hw
    obtain ⟨k, hk⟩ := fieldErr_beside_wide hb
    exact ⟨hargs x.b (by rw [hw, hk]; rfl), rd, ra, by simp [hw]⟩
  | false =>
    rw [hwide] at hb hw
    obtain ⟨pb, rb⟩ := parse_pack x.b fun k e => by rw [e] at hb; exact Bool.noConfusion (fieldErr_hi hb).2
    exact ⟨hargs x.b (by rw [hw, pb]; rfl), rd, ra, fun _ => rb⟩

/-- A word without reserved bits is the one packed from its fields. -/
theorem packWord_wordArgs {r : Row} {w : BitVec 96} (h : Unreserved r w) :
    packWord (w.extractLsb' 86 10).toNat (wordArgs r w) = w := by
  obtain ⟨rd, ra, rb⟩ := h
  have hd : packOpd (wordArgs r w).d = w.extractLsb' 52 26 := pack_parse _ rd (parse_nohi _)
  have ha : packOpd (wordArgs r w).a = w.extractLsb' 26 26 := pack_parse _ ra (parse_nohi _)
  have hb : packOpd (wordArgs r w).b = w.extractLsb' 0 26 := by
    cases hw : wordWide r w with
    | true => simp [wordArgs, hw, packOpd]
    | false =>
      have hxb : (wordArgs r w).b = parseOpd (w.extractLsb' 0 26) := by simp [wordArgs, hw]
      rw [hxb]; exact pack_parse _ (rb hw) (parse_nohi _)
  rw [packWord, hd, ha, hb, BitVec.ofNat_toNat, BitVec.setWidth_eq]
  exact (word_fields w).symm

/-! ## Words of instructions (R115 to R122, R133) -/

theorem encode_eq_some_iff (i : Instr) (w : BitVec 96) :
    encode i = some w ↔ ∃ op x, argsOf i = some (op, x) ∧ packWord op x = w := by
  simp [encode, Option.map_eq_some_iff]

/-- The checks on an instruction are those of its opcode's row. -/
theorem wellFormed_of_row {i : Instr} {op : Nat} {x : Args} {r : Row} (ha : argsOf i = some (op, x))
    (hr : rowOf op = some r) : wellFormed i = true ↔ formErr r x false false false = none := by
  simp [wellFormed, ha, hr]

/-- Where no reserved bit is set, the checks on a word are those on the instruction. -/
theorem wordErr_of_unreserved {r : Row} {w : BitVec 96} (h : Unreserved r w) :
    wordErr r w = formErr r (wordArgs r w) false false false := by
  obtain ⟨rd, ra, rb⟩ := h
  have hb : (!wordWide r w && reservedSet (w.extractLsb' 0 26)) = false := by
    cases hw : wordWide r w with
    | true => rfl
    | false => exact rb hw
  rw [wordErr, rd, ra, hb]

/-- Settles O29: the row of the opcode rebuilds the instruction (`row_of_instr`) from the fields that packing keeps. -/
theorem decodeEncodeAgree : Obligations.DecodeEncodeAgree := by
  intro i w hwf he
  obtain ⟨op, x, hargs, rfl⟩ := (encode_eq_some_iff i w).1 he
  obtain ⟨r, hr, hmake, hop⟩ := row_of_instr i op x hargs
  have hlt : op < 1024 := hop ▸ rows_op_lt r (rowOf_some op r hr).1
  have hform := (wellFormed_of_row hargs hr).1 hwf
  obtain ⟨hx, hunres⟩ := wordArgs_packWord hlt hform
  have hrow : rowOf ((packWord op x).extractLsb' 86 10).toNat = some r := by rw [(pack_fields op x hlt).1, hr]
  have herr : wordErr r (packWord op x) = none := by rw [wordErr_of_unreserved hunres, hx, hform]
  exact (decodeWord_ok_iff ..).2 ⟨r, hrow, herr, by rw [hx, hmake]⟩

/-- A decoded word is its instruction's own word, and the instruction is well formed. -/
theorem encode_of_decodeWord {w : BitVec 96} {i : Instr} (h : decodeWord w = .ok i) :
    encode i = some w ∧ wellFormed i = true := by
  obtain ⟨r, hr, herr, rfl⟩ := (decodeWord_ok_iff w i).1 h
  obtain ⟨hunres, hform⟩ := wordErr_none herr
  obtain ⟨hmem, hop⟩ := rowOf_some _ r hr
  have hargs : argsOf (r.make (wordArgs r w)) = some ((w.extractLsb' 86 10).toNat, wordArgs r w) :=
    hop ▸ rows_make r hmem _
  exact ⟨(encode_eq_some_iff ..).2 ⟨_, _, hargs, packWord_wordArgs hunres⟩, (wellFormed_of_row hargs hr).2 hform⟩

/-! ## Unassigned opcodes (R132) -/

/-- R135: a failed check names a part from 1 on. -/
theorem formErr_part_pos {r : Row} {x : Args} {rd ra rb : Bool} {p e : Nat} (h : formErr r x rd ra rb = some (p, e)) :
    0 < p := by
  unfold formErr at h
  dsimp only at h
  repeat' split at h
  all_goals simp only [Option.some.injEq, Prod.mk.injEq, reduceCtorEq] at h
  all_goals omega

/-- Part 0 is that of an opcode without a row. -/
theorem decodeWord_part_zero_iff (w : BitVec 96) :
    decodeWord w = .illegal 0 0 ↔ rowOf (w.extractLsb' 86 10).toNat = none := by
  cases hr : rowOf (w.extractLsb' 86 10).toNat with
  | none => simp [decodeWord_of_no_row hr]
  | some r =>
    rw [decodeWord_of_row hr]
    cases he : wordErr r w with
    | none => simp
    | some f =>
      obtain ⟨p, e⟩ := f
      have hp : 0 < p := formErr_part_pos he
      simp; omega

/-- The opcodes of the map's rows are, in their order, those of these runs. -/
theorem rows_ops : rows.map (·.op) = List.range' 0x1 0x26 ++ List.range' 0x80 9 ++ List.range' 0xC0 16 ++
    List.range' 0x100 23 ++ List.range' 0x180 9 ++ List.range' 0x1C0 5 ++ List.range' 0x200 26 ++ List.range' 0x280 9 ++
    List.range' 0x2C0 17 ++ List.range' 0x300 15 ++ List.range' 0x380 15 := by decide +kernel

theorem rowOf_eq_none_iff (op : Nat) : rowOf op = none ↔ op ∉ rows.map (·.op) := by
  simp [rowOf, List.find?_eq_none]

/-- Settles O30: an accepted word is packed from its own fields, and a word has part 0 exactly when no row has its opcode. -/
theorem encodeDecodeAgree : Obligations.EncodeDecodeAgree := by
  intro w op
  have hop : op < 1024 := (w.extractLsb' 86 10).isLt
  refine ⟨fun i h => encode_of_decodeWord h, ?_⟩
  rw [decodeWord_part_zero_iff, rowOf_eq_none_iff, rows_ops]
  simp only [List.mem_append, List.mem_range'_1]
  omega

end Sys2Proof.Machine
end

section
/-! SUPPORT. Traps, guards, privilege and transfers of control (R129, R131, R134, R149 to R154, R162, R169): what each leaves of
the acting strand, and the theorems that settle the statements. -/

namespace Sys2Proof.Machine
open Sys2Proof

/-! ## Traps (R310, R324, R330) -/

/-- Settles O13: the strand is halted as it stands at its resume point (`haltStrand_slot`, `haltStrand_record`). -/
theorem trapTaken : Obligations.TrapTaken := by
  intro s sid cls info after word z t u
  let s1 := updStrand s sid fun t => if after then endWait (endCheck t) else abandon t
  have hz : z = haltStrand s1 sid cls info word := rfl
  have hu : strandAt s1 sid = u := strandAt_updStrand_same ..
  have hctx : u.ctx = t.ctx := by
    simp only [u]
    split
    · simp only [endWait, endCheck]; split <;> rfl
    · unfold abandon; split
      · rfl
      · split
        · rw [sameCtl_foldl]
        · rfl
  have hothers : ∀ i, i ≠ sid → getSlot s1 i = getSlot s i := fun i hi => by
    rw [getSlot_updStrand, if_neg hi]
  obtain ⟨hst, hstrand, hrest⟩ := haltStrand_slot s1 sid cls info word
  obtain ⟨r, hrec, hcore, hrctx, hw1, hw2, hw6, hcls⟩ := haltStrand_record s1 sid cls info word
  obtain ⟨heq, -⟩ := haltStrand_eq s1 sid cls info word
  rw [hu] at hstrand hrctx hw2 hcls
  rw [hctx] at hrctx hcls
  refine ⟨hst, hstrand, fun i hi => (hrest i hi).trans (hothers i hi), ?_, ?_, r, hrec, hcore, hrctx, hw1, hw2, hw6, hcls⟩
  · rw [hz, heq]; rfl
  · rw [hz, heq]; rfl

/-- What every halt after an instruction leaves of the acting strand and of the queue of records. -/
structure HaltsAfter (s z : State) (cls : Nat) (info : Word) : Prop where
  st : (getSlot z s.cur).st = .halted
  trapinfo : (strandAt z s.cur).trapinfo = info
  pc : (strandAt z s.cur).pc = (endCheck (acting s)).pc
  lc0 : (strandAt z s.cur).lc0 = (endCheck (acting s)).lc0
  lc1 : (strandAt z s.cur).lc1 = (endCheck (acting s)).lc1
  g : ∀ n, readG (strandAt z s.cur) n = readG (acting s) n
  record : ∃ r, z.records = s.records ++ [r] ∧ r.ctx = (acting s).ctx ∧ r.words.getD 1 0 = info ∧
    r.words.getD 2 0 = (endCheck (acting s)).pc ∧
    ((acting s).ctx < 64 → s.dom.member < 1024 → s.cur < 2 ^ 15 → (r.words.getD 0 0).toNat / 2 ^ 48 = cls)

/-- R162, R169: a halt after an instruction that has changed nothing else. -/
theorem takeTrap_after (x : Args) (s : State) (cls : Nat) (info : Word) (word : BitVec 96) (hcls : cls < 2 ^ 16) :
    HaltsAfter s (takeTrap (entry x s) s.cur cls info true word) cls info := by
  obtain ⟨hst, hstrand, -, -, -, r, hrec, -, hctx, hw1, hw2, -, hclass⟩ :=
    trapTaken (entry x s) s.cur cls info true word
  obtain ⟨hpc, hlc0, hlc1⟩ := endCheck_cleared x (acting s)
  rw [strandAt_entry] at hstrand hctx hw2 hclass
  rw [entry_records] at hrec
  rw [entry_dom] at hclass
  refine ⟨hst, ?_, ?_, ?_, ?_, fun n => ?_, r, hrec, hctx.trans (cleared_ctx ..), hw1, hw2.trans hpc, fun h1 h2 h3 => ?_⟩
  · rw [hstrand]
  · rw [hstrand]; exact hpc
  · rw [hstrand]; exact hlc0
  · rw [hstrand]; exact hlc1
  · rw [hstrand]; exact (endCheck_reads _ n).trans (readG_cleared ..)
  · exact hclass (by rwa [cleared_ctx]) h2 h3 hcls

/-- Settles O12: the three forms halt after themselves (`takeTrap_after`). -/
theorem haltResults : Obligations.HaltResults := by
  intro x s halts
  have key {op : Nat} {i : Instr} {cls : Nat} (h4 : fourOf op = false) (hcls : cls < 2 ^ 16) (f : Opnds → Word)
      (hi : exec i s = run op x (fun s _ _ o => .halt s cls (f o)) s) : halts op i cls (f (ops x s)) := by
    intro hc
    have ht := takeTrap_after x s cls (f (ops x s)) (packWord op x) hcls
    exact ⟨_, hi.trans (run_ops op x _ s hc h4), ht.st, ht.trapinfo, ht.pc, ht.lc0, ht.lc1, ht.g, ht.record⟩
  exact ⟨key rfl (by decide) (fun _ => 0x01000000) rfl, key rfl (by decide) (fun o => o.aw &&& 0xFFFFFF) rfl,
    key rfl (by decide) (fun o => o.aw &&& 0xFFFFFF) rfl⟩

/-! ## Guards and privilege (R129, R131, R134) -/

/-- R131: every row's instruction runs a body under the row's opcode. -/
theorem rows_exec : ∀ r ∈ rows, ∀ x, ∃ body, ∀ s, exec (r.make x) s = run r.op x body s := by
  simp only [rows, scalarRows, systemRows, vectorRows, memoryRows, syncRows, engineRows, List.forall_mem_append,
    List.forall_mem_cons, List.not_mem_nil, false_implies, implies_true, and_true]
  refine ⟨⟨⟨⟨⟨?_, ?_⟩, ?_⟩, ?_⟩, ?_⟩, ?_⟩
  all_goals
    repeat' apply And.intro
    all_goals exact fun x => ⟨_, fun _ => rfl⟩

/-- R131: the meaning of an instruction that has a word is `run` of its opcode, its fields and some body. -/
theorem exec_eq_run {i : Instr} {op : Nat} {x : Args} (h : argsOf i = some (op, x)) :
    ∃ body, ∀ s, exec i s = run op x body s := by
  obtain ⟨r, hr, rfl, rfl⟩ := row_of_instr i op x h
  exact rows_exec r (rowOf_some _ r hr).1 x

/-- Settles O10: the driver's first check completes the instruction (`run_guard_off`). -/
theorem guardOffHasNoEffect : Obligations.GuardOffHasNoEffect := by
  intro i op x s hargs hmask hst hguard
  obtain ⟨body, hi⟩ := exec_eq_run hargs
  exact ⟨_, (hi s).trans (run_guard_off op x body s hst hmask hguard), finish_leaves s⟩

/-- Settles O11: the driver's second check takes the trap before the body (`run_priv_bad`), from the state as it was. -/
theorem privilegeTraps : Obligations.PrivilegeTraps := by
  intro i op x s hargs hst hguard hpriv
  obtain ⟨body, hi⟩ := exec_eq_run hargs
  have hg : (laneMasked op || guardOn (acting s) x) = true := by simpa using hguard
  obtain ⟨hhalt, hstrand, -, -, -, r, hrec, -, -, hw1, -, -, hcls⟩ :=
    trapTaken s s.cur 1 (privInfo op) false (packWord op x)
  obtain ⟨hpc, hreg⟩ := abandon_ctl (acting s)
  refine ⟨_, (hi s).trans (run_priv_bad op x body s hst hg hpriv), hhalt, ?_, ?_, fun n => ?_, r, hrec, hw1, ?_⟩
  · rw [hstrand]; rfl
  · rw [hstrand]; exact hpc
  · rw [hstrand]; exact hreg n
  · exact fun h1 h2 h3 => hcls h1 h2 h3 (by decide)

/-- Settles O37: the driver's last check parks the strand before the body (`parkAt_slot`). -/
theorem emptySyncParks : Obligations.EmptySyncParks := by
  intro i op x s hargs hpass hopnds hsync
  obtain ⟨body, hi⟩ := exec_eq_run hargs
  obtain ⟨hst, hg, hpriv, href, hcopy⟩ := (passes_iff op x s).1 hpass
  have hguard : (!laneMasked op && !guardOn (strandAt s s.cur) x) = false := by
    revert hg; cases laneMasked op <;> simp
  have hrun : run op x body s = .next (parkAt s s.cur op (syncHandle s.cur (acting s) (syncRegs x)) 0 none .sync none
      (syncRegs x) (packWord op x)) := by
    unfold acting at hopnds hsync
    simp [run, runAt, hst, hguard, hpriv, href, (find_append_none _ _ _ hcopy).1, hopnds, hsync, acting]
  obtain ⟨hpark, hmem, hstrand, hrest⟩ := parkAt_slot s s.cur op (syncHandle s.cur (acting s) (syncRegs x)) 0 none .sync
    none (syncRegs x) (packWord op x)
  exact ⟨_, (hi s).trans hrun, hpark, hmem, rfl, hstrand, hrest⟩

/-! ## Answers (R137, R154) -/

/-- R154: the end check leaves vector and predicate registers and flags alone. -/
theorem endCheck_regs (t : Strand) : (endCheck t).v = t.v ∧ (endCheck t).p = t.p ∧ (endCheck t).vF = t.vF ∧
    (endCheck t).vW = t.vW ∧ (endCheck t).fflags = t.fflags := by
  have h := endCheck_sameCtl t t (.refl t)
  exact ⟨congrArg (·.v) h, congrArg (·.p) h, congrArg (·.vF) h, congrArg (·.vW) h, congrArg (·.fflags) h⟩

/-- Settles O14: a write of gd, then the end check, both in the one slot. -/
theorem answerCompletes : Obligations.AnswerCompletes := by
  intro z sid n o v hd t
  have hslot : getSlot t sid =
      { getSlot z sid with st := .ready, s := endWait (endCheck (writeG (strandAt z sid) n v)) } := by
    simp only [t, finishAt, setG_eq z sid o n v hd, getSlot_updSlot_same, getSlot_updStrand, if_true, strandAt]
  have hstrand : strandAt t sid = endWait (endCheck (writeG (strandAt z sid) n v)) := by rw [strandAt, hslot]
  have hsame := sameCtl_writeG (strandAt z sid) n v
  obtain ⟨hg, hv, hp, -⟩ := reads_end _ _ hsame
  have hrest := writeG_rest (strandAt z sid) n v
  refine ⟨?_, by rw [hslot], fun m => ?_, fun m => ?_, fun m => ?_, ?_⟩
  · rw [show t = finishAt (updStrand z sid fun u => writeG u n v) sid by rw [← setG_eq z sid o n v hd]]
    exact (onlySlot_updSlot ..).trans (onlySlot_updSlot ..)
  · rw [hstrand, hg, readG_writeG]
  · rw [hstrand, hv, hrest]; rfl
  · rw [hstrand, hp, hrest]; rfl
  · obtain ⟨ev, ep, evF, evW, efl⟩ := endCheck_regs (strandAt z sid)
    rw [hstrand, endCheck_sameCtl _ _ hsame, hrest]
    simp only [ev, ep, evF, evW, efl]

/-! ## What completing and jumping leave -/

/-- R154: completing after a change of the acting strand. -/
theorem finishAt_leaves (x : Args) (s : State) (f : Strand → Strand) :
    Leaves s (finishAt (updStrand (entry x s) s.cur f) s.cur) (endWait (endCheck (f (cleared x (acting s))))) :=
  leaves_of2 x s f (fun z => { z with st := .ready, s := endWait (endCheck z.s) }) _ rfl

/-- R154: completing with nothing changed. -/
theorem finishAt_entry_leaves (x : Args) (s : State) :
    Leaves s (finishAt (entry x s) s.cur) (endWait (endCheck (cleared x (acting s)))) :=
  leaves_of x s (fun z => { z with st := .ready, s := endWait (endCheck z.s) }) _ rfl

/-- R149: a jump after a change of the acting strand. -/
theorem jumpAt_leaves (x : Args) (s : State) (f : Strand → Strand) (dest : Word) :
    Leaves s (jumpAt (updStrand (entry x s) s.cur f) s.cur dest)
      { endWait (f (cleared x (acting s))) with pc := dest } :=
  leaves_of2 x s f (fun z => { z with st := .ready, s := { endWait z.s with pc := dest } }) _ rfl

/-- R149: a jump with nothing else changed. -/
theorem jumpAt_entry_leaves (x : Args) (s : State) (dest : Word) :
    Leaves s (jumpAt (entry x s) s.cur dest) { endWait (cleared x (acting s)) with pc := dest } :=
  leaves_of x s (fun z => { z with st := .ready, s := { endWait z.s with pc := dest } }) _ rfl

/-! ## Transfers (R149) -/

/-- Where a destination is good the transfer is made. -/
theorem transfer_good (s : State) (sid : Nat) (t : Strand) {dest : Word} (link : Bool) (ha : dest &&& 15 = 0)
    (hs : (dest >>> 56).toNat < 2) : transfer s sid t dest link =
      .jump (if link then updStrand s sid fun u => { u with lk := t.pc + 16 } else s) dest := by
  rw [transfer, if_neg (fun h => bne_iff_ne.1 h ha), if_neg (by omega)]

/-- Settles O6: the body's transfer is made (`transfer_good`), with lk saved first for CALL. -/
theorem transferResults : Obligations.TransferResults := by
  intro x s u goes
  have plain {op : Nat} {i : Instr} {dest : Word} {body : Body1} (h4 : fourOf op = false)
      (hi : exec i s = run op x body s)
      (hb : body (entry x s) s.cur (acting s) (ops x s) = transfer (entry x s) s.cur (acting s) dest false) :
      goes op i dest (acting s).lk := by
    intro hc ha hs
    refine ⟨_, hi.trans (run_ops op x body s hc h4), ?_⟩
    rw [hb, transfer_good _ _ _ _ ha hs, ← cleared_lk x (acting s)]
    exact jumpAt_entry_leaves x s dest
  refine ⟨plain rfl rfl rfl, fun hc ha hs => ?_, fun hx => plain rfl rfl (if_neg hx), fun hx => plain rfl rfl (if_neg hx)⟩
  refine ⟨_, run_ops 0x82 x _ s hc rfl, ?_⟩
  rw [branch, transfer_good _ _ _ _ ha hs]
  exact jumpAt_leaves x s (fun t => { t with lk := (acting s).pc + 16 }) _

/-- From an aligned pc a branch goes to an aligned destination. -/
theorem branch_aligned (pc off : Word) (h : pc &&& 15 = 0) : (pc + 16 * off) &&& 15 = 0 := by
  have low (w : Word) : (w &&& 15).toNat = w.toNat % 16 := by
    rw [BitVec.toNat_and]; exact Nat.and_two_pow_sub_one_eq_mod _ 4
  have hpc : pc.toNat % 16 = 0 := by rw [← low, h]; rfl
  apply BitVec.eq_of_toNat_eq
  rw [low, BitVec.toNat_add, BitVec.toNat_mul, show (16 : Word).toNat = 16 from rfl]
  show _ = 0
  omega

/-- Settles O7: the body's transfer is a trap (`transfer_trap`), which changes nothing else (`trap_obs`). -/
theorem transferTraps : Obligations.TransferTraps := by
  intro x s traps
  have key {op : Nat} {i : Instr} {dest : Word} {body : Body1} {link : Bool} (h4 : fourOf op = false)
      (hi : exec i s = run op x body s)
      (hb : body (entry x s) s.cur (acting s) (ops x s) = transfer (entry x s) s.cur (acting s) dest link) :
      traps op i dest := by
    intro hc hbad
    obtain ⟨hst, hinfo, hpc, hlk, r, hrec, hw1, hw2, hcls⟩ :=
      trap_obs op x s (ops x s) (if dest &&& 15 = 0 then 4 else 2) dest
    refine ⟨_, hi.trans (run_ops op x body s hc h4), ?_⟩
    rw [hb, transfer_trap x s dest link hbad]
    exact ⟨hst, hinfo, hpc, hlk, r, hrec, hw1, hw2, fun h1 h2 h3 => hcls h1 h2 h3 (by split <;> decide)⟩
  exact ⟨branch_aligned _ _, key rfl rfl rfl, key rfl rfl rfl, fun hx => key rfl rfl (if_neg hx),
    fun hx => key rfl rfl (if_neg hx)⟩

/-! ## Loops (R152 to R154) -/

/-- R154: the end check, as a change of the loop counts and the pc. -/
theorem endCheck_eq (t : Strand) :
    let ends1 := t.lc1 ≠ 0 ∧ t.pc = t.le1
    let ends0 := t.lc0 ≠ 0 ∧ t.pc = t.le0
    let back1 := ends1 ∧ t.lc1 - 1 ≠ 0
    let back0 := ends0 ∧ t.lc0 - 1 ≠ 0
    endCheck t = { t with
      lc1 := if ends1 then t.lc1 - 1 else t.lc1
      lc0 := if ends0 ∧ ¬back1 then t.lc0 - 1 else t.lc0
      pc := if back1 then t.ls1 else if back0 then t.ls0 else t.pc + 16 } := by
  intro ends1 ends0 back1 back0
  have loop (le lc ls : Word) : loopEnd t.pc le lc ls =
      (if lc ≠ 0 ∧ t.pc = le then lc - 1 else lc, if (lc ≠ 0 ∧ t.pc = le) ∧ lc - 1 ≠ 0 then some ls else none) := by
    have hb : (lc != 0 && t.pc == le) = true ↔ lc ≠ 0 ∧ t.pc = le := by simp
    unfold loopEnd
    by_cases h : lc ≠ 0 ∧ t.pc = le
    · rw [if_pos (hb.2 h), if_pos h]
      by_cases h1 : lc - 1 ≠ 0
      · rw [if_pos (bne_iff_ne.2 h1), if_pos ⟨h, h1⟩]
      · rw [if_neg (fun h2 => h1 (bne_iff_ne.1 h2)), if_neg (fun h2 => h1 h2.2)]
    · rw [if_neg (fun h2 => h (hb.1 h2)), if_neg h, if_neg (fun h2 => h h2.1)]
  rw [endCheck, loop, loop]
  by_cases h1 : back1
  · rw [if_pos h1, if_pos h1.1, if_neg (fun h : ends0 ∧ ¬back1 => h.2 h1), if_pos h1]
  · rw [if_neg h1, if_neg h1]
    have hn : (ends0 ∧ ¬back1) = ends0 := by simp [h1]
    simp only [hn]
    by_cases h0 : back0
    · rw [if_pos h0, if_pos h0]; rfl
    · rw [if_neg h0, if_neg h0]; rfl

/-- Settles O9: LOOP and an armed LBRK jump once their set is changed; the rest is the end check (`endCheck_eq`). -/
theorem loopResults : Obligations.LoopResults := by
  intro x s u t start last count pc
  have jumps {op : Nat} {i : Instr} {body : Body1} (h4 : fourOf op = false) (hi : exec i s = run op x body s)
      (hc : clear op x s = true) (f : Strand → Strand) {dest : Word}
      (hb : body (entry x s) s.cur t (ops x s) = .jump (updStrand (entry x s) s.cur f) dest) :
      ∃ z, exec i s = .next z ∧ Leaves s z { endWait (f u) with pc := dest } := by
    refine ⟨_, hi.trans (run_ops op x body s hc h4), ?_⟩
    rw [hb]
    exact jumpAt_leaves x s f dest
  have goesOn {op : Nat} {i : Instr} {body : Body1} (h4 : fourOf op = false)
      (hi : exec i s = run op x body s) (hc : clear op x s = true)
      (hb : body (entry x s) s.cur t (ops x s) = .done (entry x s)) :
      ∃ z, exec i s = .next z ∧ Leaves s z (endWait (endCheck u)) := by
    refine ⟨_, hi.trans (run_ops op x body s hc h4), ?_⟩
    rw [hb]
    exact finishAt_entry_leaves x s
  have inside : loopOutside .l1 t start last = true ↔ t.lc0 ≠ 0 ∧ ¬(t.ls0 ≤ start ∧ last ≤ t.le0) := by
    simp [loopOutside, -not_and, not_and_or]
  have armed0 : loopArmed .l0 t = true ↔ t.lc0 ≠ 0 := bne_iff_ne
  have armed1 : loopArmed .l1 t = true ↔ t.lc1 ≠ 0 := bne_iff_ne
  have loop (n : LoopSet) (h : ¬loopOutside n t start last = true) :
      loopBody n (entry x s) s.cur t (ops x s) =
        .jump (updStrand (entry x s) s.cur fun u => setLoop n u start last count) pc := if_neg h
  have brk (n : LoopSet) (h : loopArmed n t = true) : lbrkBody n (entry x s) s.cur t (ops x s) =
      .jump (updStrand (entry x s) s.cur (breakLoop n)) (loopLast n t + 16) := if_pos h
  have idle (n : LoopSet) (h : ¬loopArmed n t = true) : lbrkBody n (entry x s) s.cur t (ops x s) = .done (entry x s) :=
    if_neg h
  refine ⟨fun hc => ?_, fun hc hin => ?_, fun hc harm hout => ?_, fun hc harm => ?_, fun hc harm => ?_, fun hc harm => ?_,
    fun hc harm => ?_, fun hc => ?_⟩
  · exact jumps rfl rfl hc _ (loop .l0 Bool.false_ne_true)
  · refine jumps rfl rfl hc _ (loop .l1 fun h => ?_)
    obtain ⟨harm, hout⟩ := inside.1 h
    exact hin.elim harm hout
  · refine ⟨_, run_ops 0x85 x _ s hc rfl, ?_⟩
    rw [loopBody, if_pos (inside.2 ⟨harm, hout⟩)]
    obtain ⟨hst, hinfo, -⟩ := trap_obs 0x85 x s (ops x s) 0 0x00855800
    exact ⟨hst, hinfo⟩
  · exact jumps rfl rfl hc _ (brk .l0 (armed0.2 harm))
  · exact jumps rfl rfl hc _ (brk .l1 (armed1.2 harm))
  · exact goesOn rfl rfl hc (idle .l0 fun h => armed0.1 h harm)
  · exact goesOn rfl rfl hc (idle .l1 fun h => armed1.1 h harm)
  · obtain ⟨z, hz, hleaves⟩ := goesOn rfl (rfl : exec (.nop x) s = run 0x88 x _ s) hc rfl
    refine ⟨z, hz, ?_⟩
    rw [endCheck_eq] at hleaves
    simpa [u, endWait] using hleaves

/-! ## The exit link (R151) -/

/-- What ending a strand leaves of it: a strand with neither debts nor slot 0 is ended. -/
theorem endStrandNow_ended (x : Args) (s : State) (word : BitVec 96) (h0 : slotOf s.cur ≠ 0) (hd : (acting s).debts = []) :
    getSlot (endStrandNow (entry x s) s.cur word) s.cur = { getSlot (entry x s) s.cur with
      st := .ended, s := { disarm (cleared x (acting s)) with units := [], wait := none }, moved := s.cycle } := by
  have hstrand : (getSlot (entry x s) s.cur).s = cleared x (acting s) := strandAt_entry x s
  simp [endStrandNow, h0, hstrand, hd]

/-- Settles O8: once nothing is outstanding the strand ends (`endStrandNow_ended`) or halts (`takeTrap_after`); before, it
parks. -/
theorem exitEndsStrand : Obligations.ExitEndsStrand := by
  intro x s u ends
  have key {op : Nat} {i : Instr} {dest : Strand → Opnds → Word} (h4 : fourOf op = false)
      (hi : exec i s = run op x (returnTo op x dest) s) (hdest : dest (acting s) (ops x s) = exitLink) : ends op i := by
    intro hc
    have hrun : exec i s = .next (settle op x s.cur (ops x s)
        (leaveWork (entry x s) s.cur (acting s) (packWord op x))) := by
      rw [hi, run_ops op x _ s hc h4, returnTo, if_pos hdest]
    have park (stage : Stage) (z : State) (hz : z = parkAt (entry x s) s.cur op 0 0 none stage (some (ops x s))
        (syncRegs x) (packWord op x)) : (getSlot z s.cur).st = .parked ∧ (strandAt z s.cur).pc = (acting s).pc ∧
          z.records = s.records := by
      obtain ⟨hst, -, hstrand, -⟩ := parkAt_slot (entry x s) s.cur op 0 0 none stage (some (ops x s)) (syncRegs x)
        (packWord op x)
      rw [hz]
      refine ⟨hst, ?_, by simp [parkAt]⟩
      rw [hstrand, strandAt_entry]
      exact cleared_pc ..
    refine ⟨fun hcopies howes hring => ⟨_, hrun, ?_⟩, fun h => ⟨_, hrun, ?_⟩⟩
    · have hleave : leaveWork (entry x s) s.cur (acting s) (packWord op x) =
          .gone (endStrandNow (entry x s) s.cur (packWord op x)) := by
        simp [leaveWork, hcopies, howes, hring]
      have hhalt (info : Word) :
          let z := takeTrap (entry x s) s.cur 9 info true (packWord op x)
          (getSlot z s.cur).st = .halted ∧ (strandAt z s.cur).trapinfo = info ∧
            (strandAt z s.cur).pc = (endCheck (acting s)).pc ∧ ∃ r, z.records = s.records ++ [r] ∧ r.words.getD 1 0 = info ∧
              ((acting s).ctx < 64 → s.dom.member < 1024 → s.cur < 2 ^ 15 → (r.words.getD 0 0).toNat / 2 ^ 48 = 9) := by
        obtain ⟨hst, hinfo, hpc, -, -, -, r, hrec, -, hw1, -, hcls⟩ := takeTrap_after x s 9 info (packWord op x) (by decide)
        exact ⟨hst, hinfo, hpc, r, hrec, hw1, hcls⟩
      have hstrand : (getSlot (entry x s) s.cur).s.debts = (acting s).debts := by
        rw [show (getSlot (entry x s) s.cur).s = cleared x (acting s) from strandAt_entry x s, cleared_debts]
      rw [hleave]
      show if _ then _ else _
      by_cases h0 : slotOf s.cur = 0
      · rw [if_pos h0]
        have hend : endStrandNow (entry x s) s.cur (packWord op x) =
          takeTrap (entry x s) s.cur 9 0x04000000 true (packWord op x) := if_pos (by simpa using h0)
        rw [settle, hend]; exact hhalt _
      rw [if_neg h0]
      by_cases hdebts : (acting s).debts = []
      · rw [if_neg (not_not.2 hdebts)]
        have hend := endStrandNow_ended x s (packWord op x) h0 hdebts
        exact ⟨congrArg (·.st) hend, congrArg (·.s.dlArmed) hend, congrArg (·.s.units) hend, congrArg (·.s.g) hend,
          congrArg (·.s.gF) hend, congrArg (·.s.v) hend, congrArg (·.s.vF) hend⟩
      · rw [if_pos hdebts]
        have hend : endStrandNow (entry x s) s.cur (packWord op x) =
            takeTrap (entry x s) s.cur 9 0x02000000 true (packWord op x) :=
          (if_neg (by simpa using h0)).trans (if_pos (by simpa [hstrand] using hdebts))
        rw [settle, hend]; exact hhalt _
    · by_cases hcopies : (acting s).copies = []
      · have howes := h.resolve_left (not_not.2 hcopies)
        refine park (.drain 4) _ ?_
        simp [leaveWork, hcopies, howes, settle]
      · refine park (.drain 5) _ ?_
        simp [leaveWork, hcopies, settle]
  exact ⟨key (dest := fun _ o => o.aw) rfl rfl, key (dest := fun t _ => t.lk) rfl rfl⟩

end Sys2Proof.Machine
end

section
/-! SUPPORT. Fetch and reset (R5, R6, R13, R74, R133, R452): the word that a ready strand fetches, the first step after reset, and
the theorems that settle the statements. -/

namespace Sys2Proof.Machine
open Sys2Proof

/-! ## Reset (R5, R6, R452) -/

/-- Settles O36. -/
theorem resetMemoryForm : Obligations.ResetMemoryForm := memWf_reset

/-- Settles O34: after reset every map is empty, and the first act due is the reset event. -/
theorem resetFacts : Obligations.ResetFacts :=
  ⟨rfl, rfl, fun _ => rfl, fun _ => rfl, rfl, rfl, rfl, fun _ n => by cases n <;> rfl,
    _, rfl, rfl, rfl, fun _ => rfl, rfl, rfl⟩

/-- Settles O31: the decoder run on each word. -/
theorem decodedWordsStand : Obligations.DecodedWordsStand := by
  refine ⟨?cmp, ?loop, ?vadd, ?ld, ?nop, ?zero⟩ <;> decide +kernel

/-! ## Fetching (R74, R133) -/

/-- R74: a ready strand of a running context, with no trap due and no instruction under way, fetches the word of its line. -/
theorem fetch_word {s : State} {sid : Nat} {w : BitVec 96} (hst : (getSlot s sid).st = .ready)
    (hruns : ctxRuns s (strandAt s sid).ctx = true) (hdue : dueNow (strandAt s sid) = none)
    (hwait : waitWord (strandAt s sid) = none) (hspace : ((strandAt s sid).pc >>> 56).toNat < 2)
    (halign : (strandAt s sid).pc.toNat % 16 = 0) (hword : ibufWord s (coreOf sid) (strandAt s sid).pc = some w) :
    fetch s sid = decoded s sid w := by
  unfold strandAt at *
  rw [BitVec.toNat_ushiftRight] at hspace
  simp [fetch, hst, hruns, hdue, hwait, halign, hword, hspace]

/-- A step whose next act is an issue is that issue. -/
theorem step_of_issue {s s1 : State} {sid : Nat} (h : nextAct s = (.issue sid, s1)) : step s = issue s1 sid := by
  rw [step, h]; rfl

/-- R133: a word that decodes is run with its slot acting; one that does not is the illegal-instruction trap. -/
theorem issue_decoded {s : State} {sid : Nat} {w : BitVec 96} (h : fetch s sid = decoded s sid w) :
    (∀ i, decodeWord w = .ok i → issue s sid = exec i (markIssue s sid)) ∧
    (∀ p r, decodeWord w = .illegal p r → issue s sid = .next (takeTrap s sid 0 (illegalInfo w p r) false w)) := by
  constructor <;> intros <;> simp [issue, decoded, *]

/-- R399: marking an issue changes no slot. -/
theorem getSlot_markIssue (s : State) (sid k : Nat) : getSlot (markIssue s sid) k = getSlot s k :=
  getSlot_updCore { s with cur := sid } _ _ _ fun _ => rfl

/-- Settles O32: the fetch gives the line's word (`fetch_word`), which runs or traps (`issue_decoded`). -/
theorem stepRunsDecoded : Obligations.StepRunsDecoded := by
  intro s s1 sid w hnext hst hruns hdue hwait hspace halign hword s2
  obtain ⟨hok, hillegal⟩ := issue_decoded (fetch_word hst hruns hdue hwait hspace halign hword)
  have hstep := step_of_issue hnext
  refine ⟨rfl, getSlot_markIssue s1 sid, rfl, rfl, fun i hi => hstep.trans (hok i hi), fun p r hp => ?_⟩
  obtain ⟨hhalt, hstrand, -⟩ := trapTaken s1 sid 0 (illegalInfo w p r) false w
  refine ⟨_, hstep.trans (hillegal p r hp), hhalt, ?_, ?_⟩
  · rw [hstrand]; rfl
  · rw [hstrand]; exact (abandon_ctl _).1

/-! ## A first instruction (R74, notes/assumptions/5.md) -/

/-- A line that holds a word in its first bytes gives that word. -/
theorem ibufWord_first {s : State} {core : Nat} {w : BitVec 96}
    (h : mapFind (getCore s core).ibuf 0 = some (w.setWidth 2048)) : ibufWord s core 0 = some w := by
  have hline : ((w.setWidth 2048) >>> (8 * 0)).setWidth 96 = w := by
    simp [BitVec.setWidth_setWidth_of_le]
  show (mapFind (getCore s core).ibuf 0).map _ = _
  rw [h]
  exact congrArg some hline

/-- Settles O33: the placed strand issues first, and its line holds the word (`stepRunsDecoded`). -/
theorem placedWordRuns : Obligations.PlacedWordRuns := by
  intro n i hi
  let s1 : State := { State.reset.withFetchWord 96 n with agenda := State.reset.agenda }
  have hword : ibufWord s1 (coreOf 0) (strandAt s1 0).pc = some (BitVec.ofNat 96 (n % 2 ^ 96)) := ibufWord_first rfl
  obtain ⟨hcur, hslots, hmem, -, hok, -⟩ := stepRunsDecoded (State.reset.withFetchWord 96 n) s1 0 _ rfl rfl rfl rfl rfl
    (show ((0 : Word) >>> 56).toNat < 2 by decide) rfl hword
  refine ⟨_, hok i hi, hcur, by rw [hslots]; rfl, by rw [hmem]; rfl, fun k => ?_, fun k => ?_, ?_⟩
  · rw [strandAt, hslots]; cases k <;> rfl
  · rw [strandAt, hslots]; rfl
  · rw [strandAt, hslots]; rfl

end Sys2Proof.Machine
end

section
/-! SUPPORT. The system forms (R155 to R171): special registers, time and deadlines, slots and the spill run queue, and the
theorems that settle the statements. -/

namespace Sys2Proof.Machine
open Sys2Proof

/-! ## Special registers (R31, R69, R155, R156, R161) -/

theorem getCtx_entry (x : Args) (s : State) (c : Nat) : getCtx (entry x s) c = getCtx s c := by
  rw [getCtx, getCtx, entry_ctxs]

/-- R31: `coord`, with the member that the strand started with. -/
theorem coordOf_entry (x : Args) (s : State) : coordOf (entry x s) s.cur =
    BitVec.ofNat 64 (s.cur % 2 ^ 15 + (if s.dom.state = 0 then 0 else (acting s).member) * 2 ^ 16) := by
  simp [coordOf, strandAt_entry]

/-- Settles O15: both forms compute gd; the special registers are read through `coordOf_entry` and the contexts, which the
synchronised reads leave alone. -/
theorem specialReadResults : Obligations.SpecialReadResults := by
  intro x s n hd t value
  have hvalue : readSpecial (entry x s) s.cur t (idxOf x.a) = value := by
    unfold readSpecial
    rw [coordOf_entry, getCtx_entry, entry_cycle, entry_dtime] <;> rfl
  exact ⟨fun hc => run_setG 0xC4 x _ s n value hc hd (by rw [← hvalue]), fun hc => run_setG 0xC9 x _ s n _ hc hd rfl⟩

/-- R155: MTS completes once its special register is written. -/
theorem exec_mts (x : Args) (s : State) (hc : clear 0xC5 x s = true) : exec (.mts x) s =
    .next (finishAt (writeSpecial (entry x s) s.cur (acting s).ctx (idxOf x.d) (ops x s).aw) s.cur) :=
  run_ops 0xC5 x _ s hc rfl

/-- Completing after a change of a context's registers: the slot of the acting strand. -/
theorem getSlot_finishAt_updCtx (x : Args) (s : State) (c : Nat) (f : Ctx → Ctx) :
    getSlot (finishAt (updCtx (entry x s) c f) s.cur) s.cur =
      { getSlot s s.cur with st := .ready, s := endWait (endCheck (cleared x (acting s))) } := by
  rw [finishAt, getSlot_updSlot_same, getSlot_updCtx, (entry_only x s).2]

theorem getSlot_finishAt_entry (x : Args) (s : State) : getSlot (finishAt (entry x s) s.cur) s.cur =
    { getSlot s s.cur with st := .ready, s := endWait (endCheck (cleared x (acting s))) } :=
  (finishAt_entry_leaves x s).2

/-- R69: without an offence of this cycle to show again, clearing leaves `spflag` cleared. -/
theorem clearSpflag_of_quiet {cycle : Nat} {c : Ctx} (h : ∀ o, c.spNow = some o → o.cycle = cycle → c.spValid = false) :
    clearSpflag cycle c = { c with spValid := false, spaddr := 0, spflag := c.spflag &&& 0x0000FFFFFFFFFEFF#64 } := by
  unfold clearSpflag
  cases ho : c.spNow with
  | none => rfl
  | some o =>
    have hn : ¬(o.cycle == cycle && c.spValid) = true := by
      intro hb
      obtain ⟨h1, h2⟩ := Bool.and_eq_true_iff.1 hb
      rw [h o ho (beq_iff_eq.1 h1)] at h2
      exact Bool.false_ne_true h2
    exact if_neg hn

/-- R69: the offences of the cycle of a clear are shown after it. -/
theorem clearSpflag_of_offence {cycle : Nat} {c : Ctx} {o : Offence} (ho : c.spNow = some o) (hcycle : o.cycle = cycle)
    (hvalid : c.spValid = true) : clearSpflag cycle c =
      showOffence { c with spValid := false, spaddr := 0, spflag := c.spflag &&& 0x0000FFFFFFFFFEFF#64 } o := by
  simp [clearSpflag, ho, hcycle, hvalid]

/-- Settles O16: MTS writes its register (`exec_mts`) before its end check; tdbase elsewhere is a privilege trap. -/
theorem specialWriteResults : Obligations.SpecialWriteResults := by
  intro x s t u v c
  refine ⟨fun hst hguard hidx hctx => ?_, fun hc => ?_⟩
  · have hpriv : privBad 0xC5 s.cur (acting s) x = true := by
      have hb : (idxOf x.d == 10 && t.ctx != 0) = true := by simp [hidx, hctx]
      exact hb
    have hg : (laneMasked 0xC5 || guardOn (acting s) x) = true := by rw [show guardOn (acting s) x = true from hguard]; rfl
    obtain ⟨hhalt, hstrand, -, hctxs, -⟩ := trapTaken s s.cur 1 (privInfo 0xC5) false (packWord 0xC5 x)
    exact ⟨_, run_priv_bad 0xC5 x _ s hst hg hpriv, hhalt, by rw [hstrand]; rfl, hctxs⟩
  have strand {k : Nat} (f : Strand → Strand)
      (hf : writeSpecial (entry x s) s.cur t.ctx k v = updStrand (entry x s) s.cur f) :
      idxOf x.d = k → ∃ z, exec (.mts x) s = .next z ∧ Leaves s z (endWait (endCheck (f u))) := by
    intro hk
    refine ⟨_, exec_mts x s hc, ?_⟩
    rw [hk, show writeSpecial (entry x s) s.cur (acting s).ctx k (ops x s).aw = _ from hf]
    exact finishAt_leaves x s f
  have readOnly : ∀ k ∈ [0, 1, 2, 3, 4, 7, 9, 19, 20, 21],
      idxOf x.d = k → ∃ z, exec (.mts x) s = .next z ∧ Leaves s z (endWait (endCheck u)) := by
    simp only [List.forall_mem_cons, List.not_mem_nil, false_implies, implies_true, and_true]
    refine ⟨?_, ?_, ?_, ?_, ?_, ?_, ?_, ?_, ?_, ?_⟩ <;> exact strand (fun w => w) rfl
  refine ⟨strand (fun w => { w with fflags := v.setWidth 5 }) rfl, strand (fun w => { w with lk := v }) rfl,
    strand (fun w => { w with ls0 := v &&& ~~~ 15 }) rfl, strand (fun w => { w with le0 := v &&& ~~~ 15 }) rfl,
    strand (fun w => { w with lc0 := v }) rfl, strand (fun w => { w with ls1 := v &&& ~~~ 15 }) rfl,
    strand (fun w => { w with le1 := v &&& ~~~ 15 }) rfl, strand (fun w => { w with lc1 := v }) rfl,
    strand (fun w => { w with scmiss := v }) rfl,
    strand (fun w => if v.getLsbD 63 then { w with dlValid := false } else w) rfl, readOnly, fun hk hctx => ?_, fun hk => ?_⟩
  · refine ⟨_, exec_mts x s hc, ?_⟩
    rw [hk, show (acting s).ctx = 0 from hctx]
    refine ⟨?_, getSlot_finishAt_updCtx x s 0 _, entry_mem x s⟩
    show (getCtx (updCtx (entry x s) 0 fun y => { y with tdbase := (ops x s).aw }) 0).tdbase = v
    rw [getCtx_updCtx_same]
  · refine ⟨_, exec_mts x s hc, ?_⟩
    rw [hk]
    by_cases hbit : v.getLsbD 8 = true
    · have hw : writeSpecial (entry x s) s.cur t.ctx 6 v = updCtx (entry x s) t.ctx (clearSpflag s.cycle) := by
        rw [← entry_cycle x s]; exact if_pos hbit
      have hctx : getCtx (finishAt (updCtx (entry x s) t.ctx (clearSpflag s.cycle)) s.cur) t.ctx = clearSpflag s.cycle c := by
        show getCtx (updCtx (entry x s) t.ctx (clearSpflag s.cycle)) t.ctx = _
        rw [getCtx_updCtx_same, getCtx_entry]
      rw [show writeSpecial (entry x s) s.cur (acting s).ctx 6 (ops x s).aw = _ from hw]
      refine ⟨fun h => absurd hbit (by rw [h]; exact Bool.false_ne_true), fun _ hquiet => ?_, fun o _ ho hcycle hvalid => ?_,
        getSlot_finishAt_updCtx .., entry_mem x s⟩
      · rw [hctx, clearSpflag_of_quiet hquiet]; exact ⟨rfl, rfl, rfl⟩
      · rw [hctx, clearSpflag_of_offence ho hcycle hvalid]; exact ⟨rfl, rfl, rfl⟩
    · have hw : writeSpecial (entry x s) s.cur t.ctx 6 v = entry x s := if_neg hbit
      rw [show writeSpecial (entry x s) s.cur (acting s).ctx 6 (ops x s).aw = _ from hw]
      exact ⟨fun _ => getCtx_entry x s t.ctx, fun h => absurd h hbit, fun o h => absurd h hbit,
        getSlot_finishAt_entry x s, entry_mem x s⟩

/-! ## Time and deadlines (R157 to R159) -/

/-- Settles O17: the bodies decide by what is unacknowledged and by the time; a passed deadline is a halt after DLN. -/
theorem timeAndDeadlineResults : Obligations.TimeAndDeadlineResults := by
  intro x s t u
  refine ⟨fun n hd hc howes => ?_, fun hc hlate => ?_, fun hc hpast => ?_, fun hc => ?_⟩
  · refine run_setG 0xC6 x _ s n _ hc hd ?_
    rw [show owesAck (entry x s) (acting s).uid s.cur .dom = false from howes, entry_dtime]
    rfl
  · refine ⟨_, run_ops 0xC7 x _ s hc rfl, ?_⟩
    rw [dlnBody, entry_dtime, if_neg (Nat.not_le.2 hlate)]
    exact finishAt_leaves x s fun w => { w with dline := (ops x s).aw, dlArmed := true }
  · refine ⟨_, run_ops 0xC7 x _ s hc rfl, ?_⟩
    rw [dlnBody, entry_dtime, if_pos hpast]
    let s1 := updStrand (entry x s) s.cur fun w => { w with dline := (ops x s).aw, dlArmed := false }
    have hs1 : strandAt s1 s.cur = { cleared x t with dline := (ops x s).aw, dlArmed := false } :=
      (strandAt_updStrand_same ..).trans (by rw [strandAt_entry])
    obtain ⟨hhalt, hstrand, -⟩ := trapTaken s1 s.cur 7 (ops x s).aw true (packWord 0xC7 x)
    rw [hs1] at hstrand
    have hpc : (endCheck { cleared x t with dline := (ops x s).aw, dlArmed := false }).pc = (endCheck t).pc := by
      rw [← (endCheck_cleared x t).1, endCheck_eq, endCheck_eq]
    have hkept : (endCheck { cleared x t with dline := (ops x s).aw, dlArmed := false }).dline = (ops x s).aw ∧
        (endCheck { cleared x t with dline := (ops x s).aw, dlArmed := false }).dlArmed = false := by
      rw [endCheck_eq]; exact ⟨rfl, rfl⟩
    refine ⟨hhalt, ?_, ?_, ?_, ?_⟩
    · exact congrArg (·.trapinfo) hstrand
    · exact (congrArg (·.dline) hstrand).trans hkept.1
    · exact (congrArg (·.dlArmed) hstrand).trans hkept.2
    · exact (congrArg (·.pc) hstrand).trans hpc
  · refine ⟨_, run_ops 0xC8 x _ s hc rfl, ?_⟩
    have hl := finishAt_leaves x s disarmed
    unfold disarmed at hl
    rwa [cleared_dlArmed, cleared_dline] at hl

/-! ## Slots (R163 to R171) -/

/-- A form whose body answers with a status in gd. -/
theorem exec_answers {op : Nat} {x : Args} {s z : State} {i : Instr} {body : Body1} {v : Word} (hc : clear op x s = true)
    (h4 : fourOf op = false) (hi : exec i s = run op x body s)
    (hb : body (entry x s) s.cur (acting s) (ops x s) = .done (setG z s.cur x.d v)) :
    exec i s = .next (finishAt (setG z s.cur x.d v) s.cur) := by
  rw [hi, run_ops op x body s hc h4, hb]; rfl

/-- Settles O18: the bodies, at the branch that each clause's premises choose. -/
theorem slotFormsComplete : Obligations.SlotFormsComplete := by
  intro x s t e core c answers
  refine ⟨fun hc => ?rls, fun n hc howes hplain hempty => ?strt, fun n u hc howes hunit hheld hempty => ?strtUnit,
    fun hc hlo hhi hended => ?reap, fun p hc hlo hhi hreason hplace => ?evict, fun hc hrange => ?evictRange,
    fun y n hc hy hn => ?admitEntry, fun hc hy => ?admitNone, fun hc h0 => ?yieldZero, fun p hc h0 hcopies hplace => ?yield,
    fun n y hc hy => ?utake⟩
  case rls =>
    intro a hroot howes
    have hmay : ((getSlot e a).st == .halted && t.ctx != 0 && (getSlot e a).s.ctx != t.ctx) = false := by
      rcases hroot with h | h | h <;> simp [h]
    have hb : rlsBody e s.cur t (ops x s) = .done (releaseRoot e a) := by
      simp only [rlsBody]
      rw [if_neg (by rw [hmay]; exact Bool.false_ne_true), if_neg (by rw [howes]; exact Bool.false_ne_true)]
    exact (run_ops 0xC3 x _ s hc rfl).trans (by rw [hb]; rfl)
  case strt =>
    refine exec_answers hc rfl rfl ?_
    simp only [strtBody]
    rw [if_neg (by rw [howes]; exact Bool.false_ne_true), if_neg (by rw [hplain]; exact Bool.false_ne_true), hempty]
  case strtUnit =>
    refine exec_answers hc rfl rfl ?_
    simp only [strtBody]
    rw [if_neg (by rw [howes]; exact Bool.false_ne_true), if_pos hunit, hheld]
    simp only []
    rw [hempty]
  case reap =>
    refine exec_answers hc rfl rfl ?_
    have hslot : reapSlot e core (ops x s).aw.toNat =
        (slotStatus (ops x s).aw.toNat 0 0, setSlot e (core * 16 + (ops x s).aw.toNat) Slot.init) := by
      rw [reapSlot, hended]
    simp only [reapBody]
    rw [if_neg (Nat.not_lt.2 hhi), if_neg (by simpa using Nat.ne_of_gt hlo), hslot]
  case evict =>
    have hb : evictBody x e s.cur t (ops x s) = .park (evictTo e (core * 16 + (ops x s).aw.toNat) p false) 0 0 none
        (.asked (strandAt e (core * 16 + (ops x s).aw.toNat)).uid) := by
      simp only [evictBody]
      rw [if_neg (by simp; omega), show evictReason e (coreOf s.cur * 16 + (ops x s).aw.toNat) = 0 from hreason,
        show spillPlace (getCore e (coreOf s.cur)) = some p from hplace]
      rfl
    exact ⟨_, (run_ops 0xCC x _ s hc rfl).trans (by rw [hb]; rfl), rfl⟩
  case evictRange =>
    exact exec_answers hc rfl rfl (if_pos (by simpa using hrange))
  case admitEntry =>
    have hb : admitBody x e s.cur t (ops x s) = .park (admitTo e core y n) 0 0 none (.asked y.strand.uid) := by
      simp only [admitBody]
      rw [hy]
      simp only []
      rw [hn]
    exact (run_ops 0xCD x _ s hc rfl).trans (by rw [hb]; rfl)
  case admitNone =>
    refine exec_answers hc rfl rfl ?_
    simp only [admitBody]
    rw [hy]
  case yieldZero =>
    have hb : yieldBody e s.cur t (ops x s) = .done e := if_pos (by simpa using h0)
    exact (run_ops 0xCE x _ s hc rfl).trans (by rw [hb]; rfl)
  case yield =>
    have hb : yieldBody e s.cur t (ops x s) = .gone (evictTo (finishAt e s.cur) s.cur p true) := by
      simp only [yieldBody]
      rw [if_neg (by simpa using h0), if_neg (by simp [hcopies]), hplace]
    exact (run_ops 0xCE x _ s hc rfl).trans (by rw [hb]; rfl)
  case utake =>
    refine exec_answers hc rfl rfl ?_
    simp only [utakeBody]
    rw [hy]

end Sys2Proof.Machine
end

section
/-! SUPPORT. The scalar forms of R142 to R145: counts, fields, selection and moves, bit by bit, and the theorems that settle the
statements. -/

namespace Sys2Proof.Machine
open Sys2Proof

/-! ## Bits of a pattern -/

/-- Below w, the w-bit pattern of a word has the word's bits. -/
theorem testBit_pattern (a : Word) {w i : Nat} (h : i < w) : (a.toNat % 2 ^ w).testBit i = a.getLsbD i := by
  rw [Nat.testBit_mod_two_pow, decide_eq_true h, Bool.true_and, BitVec.testBit_toNat]

/-- The first of the numbers below n that satisfies p, or n where none does. -/
theorem find_range_getD (p : Nat → Bool) (n : Nat) :
    let k := ((List.range n).find? p).getD n
    k ≤ n ∧ (∀ i, i < k → p i = false) ∧ (k < n → p k = true) := by
  cases h : (List.range n).find? p with
  | none =>
    have hnone : ∀ i, i < n → p i = false := by simpa [List.find?_eq_none] using h
    exact ⟨le_refl n, hnone, fun hk => absurd hk (lt_irrefl n)⟩
  | some k =>
    obtain ⟨hp, hk, hlt⟩ := List.find?_range_eq_some.1 h
    exact ⟨(List.mem_range.1 hk).le, fun i hi => by simpa using hlt i hi, fun _ => hp⟩

/-! ## Counts (R142) -/

theorem clz_spec (u w : Nat) (h : u < 2 ^ w) :
    let k := w - bitLen u
    k ≤ w ∧ u < 2 ^ (w - k) ∧ (k < w → 2 ^ (w - k - 1) ≤ u) := by
  intro k
  obtain ⟨hle, hlt, hge⟩ := bitLen_spec u w h
  have hk : w - k = bitLen u := by omega
  rw [hk]
  exact ⟨by omega, hlt, fun hkw => hge (by omega)⟩

/-- CTZ looks for a bit of the word below w, where it is the pattern's. -/
theorem ctz_spec (a : Word) (w : Nat) :
    let k := ((List.range w).find? fun i => a.getLsbD i).getD w
    let u := a.toNat % 2 ^ w
    k ≤ w ∧ (∀ i, i < k → u.testBit i = false) ∧ (k < w → u.testBit k = true) := by
  intro k u
  obtain ⟨hle, hzero, hone⟩ := find_range_getD (fun i => a.getLsbD i) w
  exact ⟨hle, fun i hi => (testBit_pattern a (hi.trans_le hle)).trans (hzero i hi),
    fun hk => (testBit_pattern a hk).trans (hone hk)⟩

theorem popcVal_eq (t : Nat) (a : Word) : popcVal t a = BitVec.ofNat 64
    ((List.range (intWidth t)).filter fun i => (a.toNat % 2 ^ intWidth t).testBit i).length := by
  have hbits : ∀ i ∈ List.range (intWidth t), a.getLsbD i = (a.toNat % 2 ^ intWidth t).testBit i :=
    fun i hi => (testBit_pattern a (List.mem_range.1 hi)).symm
  rw [popcVal, List.filter_congr hbits]

/-! ## Fields (R143) -/

/-- A field of no bits is 0, signed or not. -/
theorem bfxVal_eq (t : Nat) (a b : Word) :
    let f := a.toNat % 2 ^ intWidth t / 2 ^ fieldPos b % 2 ^ fieldLen b
    bfxVal t a b = intExtend t (intNarrow t false
      (if fieldLen b = 0 then 0 else if intSigned t then asSigned (fieldLen b) f else f)) := by
  intro f
  rw [bfxVal]
  by_cases h0 : fieldLen b = 0
  · simp [h0, Nat.mod_one]
  · simp [h0, f]

/-- The bits of the mask of a field, within w bits. -/
theorem fieldMask_getLsbD {len pos w i : Nat} (hi : i < w) (hw : w ≤ 64) :
    (BitVec.ofNat 64 ((2 ^ len - 1) * 2 ^ pos % 2 ^ w)).getLsbD i = decide (pos ≤ i ∧ i < pos + len) := by
  rw [BitVec.getLsbD_ofNat, Nat.testBit_mod_two_pow, Nat.testBit_mul_two_pow, Nat.testBit_two_pow_sub_one,
    decide_eq_true hi, decide_eq_true (hi.trans_le hw), Bool.true_and, Bool.true_and, ← Bool.decide_and, decide_eq_decide]
  omega

/-- BFI's result on the w-bit pattern: the field's bits come from a, the others from d. -/
theorem bfi_testBit (d a : Word) {len pos w i : Nat} (hi : i < w) (hw : w ≤ 64) :
    let m : Word := BitVec.ofNat 64 ((2 ^ len - 1) * 2 ^ pos % 2 ^ w)
    (((d &&& ~~~ m) ||| ((a <<< pos) &&& m)).toNat % 2 ^ w).testBit i =
      if pos ≤ i ∧ i < pos + len then a.getLsbD (i - pos) else d.getLsbD i := by
  intro m
  have h64 : i < 64 := hi.trans_le hw
  rw [testBit_pattern _ hi]
  simp only [BitVec.getLsbD_or, BitVec.getLsbD_and, BitVec.getLsbD_not, BitVec.getLsbD_shiftLeft, m,
    fieldMask_getLsbD hi hw, h64, decide_true, Bool.true_and]
  by_cases hf : pos ≤ i ∧ i < pos + len
  · simp [hf]
  · simp [hf]

/-- Settles O3: each form computes gd; the counts by `clz_spec`, `ctz_spec` and `popcVal_eq`, the fields by `bfxVal_eq` and
`bfi_testBit`. -/
theorem countAndFieldResults : Obligations.CountAndFieldResults := by
  intro x s n hd t w a pos len f
  have ha : a < 2 ^ w := Nat.mod_lt _ (Nat.two_pow_pos w)
  refine ⟨fun hc => ?clz, fun hc => ?ctz, exec_writesG hd rfl rfl (popcVal_eq t _), exec_writesG hd rfl rfl rfl,
    exec_writesG hd rfl rfl (bfxVal_eq t _ _), fun hc => ?bfi⟩
  case clz =>
    obtain ⟨z, hz, hw⟩ := exec_writesG (i := .clz x) hd rfl rfl rfl hc
    exact ⟨z, _, hz, hw, clz_spec a w ha⟩
  case ctz =>
    obtain ⟨z, hz, hw⟩ := exec_writesG (i := .ctz x) hd rfl rfl rfl hc
    exact ⟨z, _, hz, hw, ctz_spec (ops x s).aw w⟩
  case bfi =>
    obtain ⟨z, hz, hw⟩ := exec_writesG (i := .bfi x) hd rfl rfl rfl hc
    exact ⟨z, _, hz, hw, Nat.mod_lt _ (Nat.two_pow_pos w), fun i hi => bfi_testBit _ _ hi (intWidth_le t)⟩

/-! ## Selection and moves (R144, R145) -/

/-- Settles O4: MOV, MOVW and LEA compute gd from their operands; SEL chooses by a predicate of the strand. -/
theorem selectAndMoveResults : Obligations.SelectAndMoveResults := by
  intro x s n hd o gives
  refine ⟨fun hc => run_setG 0x19 x _ s n _ hc hd rfl, ?mov, ?movw, ?lea⟩
  case mov | movw | lea => exact exec_writesG hd rfl rfl rfl

end Sys2Proof.Machine
end

section
/-! SUPPORT. Numbers and lanes (R38, R45, R49, R50, R173 to R197): one rounding, NaN operands, masked lanes and the lane results of
the vector forms, and the theorems that settle the statements. -/

namespace Sys2Proof.Machine
open Sys2Proof

/-! ## Rounding (R45) -/

/-- The parts of a magnitude against the quantum 2^(q - e), as `roundTo` takes them. -/
theorem roundTo_eq (r : Rnd) (s : Bool) (m : Nat) {e q : Int} (h : e < q) :
    let u := 2 ^ (q - e).toNat
    let rem := m % u
    let lost := if rem = 0 then 0 else if 2 * rem < u then 1 else if 2 * rem = u then 2 else 3
    roundTo r s m e q = (if roundUp r s (m / u % 2 == 1) lost then m / u + 1 else m / u, lost != 0) :=
  if_neg (Int.not_le.2 h)

/-- Settles O22: the lost part, against half a quantum, decides as R45 has it; what remains is linear in the quotient's multiple. -/
theorem roundingIsCorrect : Obligations.RoundingIsCorrect := by
  intro s m e q
  refine ⟨fun h r => if_pos h, fun h => ?_⟩
  intro u n
  have hu : 0 < u := Nat.two_pow_pos _
  have hrem : m % u < u := Nat.mod_lt _ hu
  have hm : m / u * u + m % u = m := Nat.div_add_mod' m u
  have hsucc : (m / u + 1) * u = m / u * u + u := Nat.succ_mul ..
  simp only [n, roundTo_eq _ s m h]
  change _ ∧ _ ∧ _ ∧ _ ∧ _ ∧ _ ∧ _ ∧ ∀ _, _
  rw [show 2 ^ (q - e).toNat = u from rfl]
  generalize m / u = k at *
  generalize m % u = rem at *
  by_cases h0 : rem = 0
  · subst h0
    simp [roundUp]
    omega
  by_cases hlow : 2 * rem < u
  · simp [roundUp, h0, hlow]
    omega
  by_cases hhalf : 2 * rem = u
  · have hl : ¬2 * rem < u := hlow
    by_cases hodd : k % 2 = 1
    · simp [roundUp, h0, hhalf, hodd, hsucc]
      omega
    · simp [roundUp, h0, hhalf, hodd]
      omega
  · simp [roundUp, h0, hlow, hhalf, hsucc]
    omega

/-! ## NaN operands (R38, R49, R50, R180, R181, R186, R193, R194) -/

theorem isNan_iff (a : FVal) : isNan a = true ↔ ∃ s, a = .nan s := by cases a <;> simp [isNan]

/-- R180: a NaN on either side of a sum. -/
theorem fpAdd_nan {f : Fmt} {r : Rnd} {a b : FVal} (h : isNan a = true ∨ isNan b = true) :
    fpAdd f r a b = nanRes f (sigOf a || sigOf b) := by
  simp only [isNan_iff] at h
  rcases h with ⟨s, rfl⟩ | ⟨s, rfl⟩
  · cases b <;> rfl
  · cases a <;> rfl

theorem fpMul_nan {f : Fmt} {r : Rnd} {a b : FVal} (h : isNan a = true ∨ isNan b = true) :
    fpMul f r a b = nanRes f (sigOf a || sigOf b) := by
  simp only [isNan_iff] at h
  rcases h with ⟨s, rfl⟩ | ⟨s, rfl⟩
  · cases b <;> rfl
  · cases a <;> rfl

/-- The sign of a value does not make it a NaN, nor a NaN signalling. -/
theorem nan_negVal (b : FVal) : isNan (negVal b) = isNan b ∧ sigOf (negVal b) = sigOf b := by cases b <;> exact ⟨rfl, rfl⟩

/-- R180: the product of an infinity and a zero, in either order. -/
def infTimesZero : FVal → FVal → Bool
  | .inf _, .fin _ 0 _ => true
  | .fin _ 0 _, .inf _ => true
  | _, _ => false

theorem infTimesZero_eq (a b : FVal) :
    infTimesZero a b = ((isZero a && b == .inf (signOf b)) || (isZero b && a == .inf (signOf a))) := by
  cases a with
  | nan s => cases b <;> simp [infTimesZero, isZero]
  | inf s => cases b with
    | fin t m e => cases m <;> simp [infTimesZero, isZero, signOf]
    | _ => simp [infTimesZero, isZero]
  | fin s m e => cases b with
    | inf t => cases m <;> simp [infTimesZero, isZero, signOf]
    | _ => cases m <;> simp [infTimesZero, isZero, signOf]

theorem fpFma_nan {f : Fmt} {r : Rnd} {a b d : FVal} (h : isNan a = true ∨ isNan b = true ∨ isNan d = true) :
    fpFma f r a b d = nanRes f (sigOf a || sigOf b || sigOf d || infTimesZero a b) := by
  unfold fpFma
  exact if_pos (by simpa [or_assoc] using h)

/-- R186: the sum of lanes one of which is a NaN. -/
theorem fpSum_nan {f : Fmt} {r : Rnd} {xs : List FVal} (h : xs.any isNan = true) : fpSum f r xs =
    nanRes f (xs.any sigOf || (xs.contains (.inf false) && xs.contains (.inf true))) := by
  have hany (v : FVal) : (xs.any fun x => x == v) = xs.contains v := by
    rw [List.contains_eq_any_beq]
    exact congrArg xs.any (funext fun x => Bool.beq_comm)
  simp only [fpSum, hany, h, if_true]

/-- R193: each function of a NaN. -/
theorem fun_nan {f : Fmt} {a : FVal} (h : isNan a = true) :
    ∀ g ∈ [fpExp2, fpLog2, fpRcp, fpRsq, fpTanh], g f a = nanRes f (sigOf a) := by
  obtain ⟨s, rfl⟩ := (isNan_iff a).1 h
  simp only [List.forall_mem_cons, List.not_mem_nil, false_implies, implies_true, and_true]
  exact ⟨rfl, rfl, rfl, rfl, rfl⟩

/-- R49: a NaN in another format, or in its own. -/
theorem fpToFp_nan {f g : Fmt} {r : Rnd} {sat s : Bool} {u : Nat} (h : fpValue g u = .nan s) :
    fpToFp g f r sat u = nanRes f (s || (g != f && (f == fp8 || f == e2m1))) := by
  rw [fpToFp, h]
  by_cases hf : g = f
  · simp [hf]
  · simp [hf, nanRes, or_assoc]

/-- R181: a NaN among the operands of a minimum or maximum. -/
theorem fpMinMax_nan (f : Fmt) (m : Bool) (u v : Nat) :
    let x := fpValue f u
    let y := fpValue f v
    let fl := if (sigOf x || sigOf y) = true then flInvalid else 0
    (isNan x = true → isNan y = true → fpMinMax f m u v = ⟨qnan f, fl⟩) ∧
      (isNan x = true → isNan y = false → fpMinMax f m u v = ⟨v, fl⟩) ∧
      (isNan x = false → isNan y = true → fpMinMax f m u v = ⟨u, fl⟩) := by
  intro x y fl
  refine ⟨fun hx hy => ?_, fun hx hy => ?_, fun hx hy => ?_⟩ <;>
    simp [fpMinMax, show isNan (fpValue f u) = _ from hx, show isNan (fpValue f v) = _ from hy, x, y, fl]

/-- Settles O23: each operation's answer to a NaN, by the lemmas above. -/
theorem nanResults : Obligations.NanResults := by
  intro f g r a b d xs u v k n sat quiet
  refine ⟨fun h => ⟨fpAdd_nan h, fpMul_nan h, ?sub⟩, fun p => ?_, fun p q e => ?_, fun h => ?fma, fun h => fpSum_nan h,
    fun s hs => ?_, fun h => fun_nan h, fun s hs => ⟨fpToFp_nan hs, by rw [fpToInt, hs]⟩, fun m => fpMinMax_nan f m u v⟩
  case sub =>
    obtain ⟨hn, hs⟩ := nan_negVal b
    rw [fpSub, fpAdd_nan (by rwa [hn]), hs]
    rfl
  case fma =>
    rw [fpFma_nan h, infTimesZero_eq]
    rfl
  · cases p <;> rfl
  · cases p <;> rfl
  · exact ⟨by rw [fpLdexp, hs]; rfl, by rw [fpSplit, hs]⟩

/-! ## Lanes under a mask (R173) -/

/-- A lane read after a lane is written. -/
theorem laneGet_laneSet {w i k : Nat} {v : Vec} {u : Nat} (h : w * i + w ≤ 128) :
    laneGet w i (laneSet w k v u) = if i = k then u % 2 ^ w else laneGet w i v := by
  apply Nat.eq_of_testBit_eq
  intro j
  rw [laneGet_testBit]
  by_cases hj : j < w
  · rw [laneSet_getLsbD w k v u _ (by omega), decide_eq_true hj, Bool.true_and]
    split
    case isTrue hin =>
      obtain rfl : i = k := lane_apart w i k (w * i + j) (by omega) (by omega) hin.1 hin.2
      rw [if_pos rfl, Nat.testBit_mod_two_pow, decide_eq_true hj, Bool.true_and]
      congr 1; omega
    case isFalse hout =>
      have hik : i ≠ k := by rintro rfl; omega
      rw [if_neg hik, laneGet_testBit, decide_eq_true hj, Bool.true_and]
  · rw [decide_eq_false hj, Bool.false_and]
    split
    · rw [Nat.testBit_mod_two_pow, decide_eq_false hj, Bool.false_and]
    · rw [laneGet_testBit, decide_eq_false hj, Bool.false_and]

/-- One more lane of a lane-masked form. -/
theorem lanewise_succ (w n : Nat) (m : BitVec 16) (old : Vec) (f : Nat → FRes) :
    lanewise w (n + 1) m old f = if laneOn m w n
      then (laneSet w n (lanewise w n m old f).1 (f n).bits, (lanewise w n m old f).2 ||| (f n).fl)
      else lanewise w n m old f := by
  simp only [lanewise, List.range_succ, List.foldl_append, List.foldl_cons, List.foldl_nil]

theorem lanewise_zero (w : Nat) (m : BitVec 16) (old : Vec) (f : Nat → FRes) : lanewise w 0 m old f = (old, 0) := rfl

/-- Lanes below n, wherever they lie in the register: those written so far, the others as before. -/
theorem laneGet_lanewise (w n : Nat) (m : BitVec 16) (old : Vec) (f : Nat → FRes) (i : Nat) (hi : w * i + w ≤ 128) :
    laneGet w i (lanewise w n m old f).1 = if i < n ∧ laneOn m w i then (f i).bits % 2 ^ w else laneGet w i old := by
  induction n with
  | zero => rw [lanewise_zero, if_neg (by omega)]
  | succ n ih =>
    rw [lanewise_succ]
    by_cases hin : i = n
    · subst hin
      by_cases hon : laneOn m w i = true
      · rw [if_pos hon, laneGet_laneSet hi, if_pos rfl, if_pos ⟨by omega, hon⟩]
      · rw [if_neg hon, ih, if_neg (by omega), if_neg (fun h => hon h.2)]
    · have hlt : (i < n + 1 ∧ laneOn m w i = true) = (i < n ∧ laneOn m w i = true) := by
        rw [Nat.lt_succ_iff, Nat.le_iff_lt_or_eq, or_iff_left hin]
      rw [if_congr (iff_of_eq hlt) rfl rfl, ← ih]
      split
      · rw [laneGet_laneSet hi, if_neg hin]
      · rfl

/-- Bits above the lanes are unchanged. -/
theorem getLsbD_lanewise_above (w n : Nat) (m : BitVec 16) (old : Vec) (f : Nat → FRes) (j : Nat) (hj : w * n ≤ j) :
    (lanewise w n m old f).1.getLsbD j = old.getLsbD j := by
  induction n with
  | zero => rfl
  | succ n ih =>
    have hn : w * n + w ≤ j := by rw [Nat.mul_succ] at hj; exact hj
    rw [lanewise_succ, ← ih (by omega)]
    split
    · by_cases h : j < 128
      · rw [laneSet_getLsbD _ _ _ _ _ h, if_neg (by omega)]
      · rw [BitVec.getLsbD_of_ge _ _ (by omega), BitVec.getLsbD_of_ge _ _ (by omega)]
    · rfl

/-- A flag is raised where an unmasked lane raises it. -/
theorem getLsbD_lanewise_flags (w n : Nat) (m : BitVec 16) (old : Vec) (f : Nat → FRes) (j : Nat) :
    (lanewise w n m old f).2.getLsbD j = (List.range n).any fun i => laneOn m w i && (f i).fl.getLsbD j := by
  induction n with
  | zero => simp [lanewise_zero]
  | succ n ih =>
    rw [lanewise_succ, List.range_succ, List.any_append, ← ih]
    cases hon : laneOn m w n <;> simp [hon]

/-- Settles O19: lane by lane, by induction on the number of lanes. -/
theorem maskedLanesKept : Obligations.MaskedLanesKept := by
  intro w n m old f hw hn
  refine ⟨fun i hi => ?_, getLsbD_lanewise_above w n m old f, getLsbD_lanewise_flags w n m old f⟩
  have hfit : w * i + w ≤ 128 := (Nat.mul_succ w i ▸ Nat.mul_le_mul_left w hi).trans hn
  rw [laneGet_lanewise w n m old f i hfit]
  simp [hi]

end Sys2Proof.Machine
end

section
/-! SUPPORT. The vector forms of R177 to R183 and R189 to R197, lane by lane, and the theorems that settle the statements. -/

namespace Sys2Proof.Machine
open Sys2Proof

/-! ## Integer and floating lanes (R177, R178, R180 to R182) -/

theorem arithLane_int {x : Args} {t : Nat} (h : isFloat t = false) (fi : Int → Int → Int)
    (ff : Fmt → Rnd → FVal → FVal → FRes) (a b : Nat) :
    arithLane x fi ff t a b = ⟨intNarrow t (satOf x) (fi (intValue t a) (intValue t b)), 0⟩ := by
  rw [arithLane, h]; rfl

theorem arithLane_float {x : Args} {t : Nat} (h : isFloat t = true) (fi : Int → Int → Int)
    (ff : Fmt → Rnd → FVal → FVal → FRes) (a b : Nat) :
    arithLane x fi ff t a b = ff (fmtOf t) (rndOf (codeOf x.a)) (fpValue (fmtOf t) a) (fpValue (fmtOf t) b) := by
  rw [arithLane, h]; rfl

theorem minMaxLane_int {t : Nat} (h : isFloat t = false) (isMax : Bool) (a b : Nat) : minMaxLane isMax t a b =
    ⟨intNarrow t false (if isMax then max (intValue t a) (intValue t b) else min (intValue t a) (intValue t b)), 0⟩ := by
  rw [minMaxLane, h]; rfl

theorem minMaxLane_float {t : Nat} (h : isFloat t = true) (isMax : Bool) (a b : Nat) :
    minMaxLane isMax t a b = fpMinMax (fmtOf t) isMax a b := by
  rw [minMaxLane, h]; rfl

theorem absLane_int {x : Args} {t : Nat} (h : isFloat t = false) (a : Nat) :
    absLane x t a = ⟨intNarrow t (satOf x) (intValue t a).natAbs, 0⟩ := by
  rw [absLane, h]; rfl

theorem absLane_float {x : Args} {t : Nat} (h : isFloat t = true) (a : Nat) :
    absLane x t a = signLane (fmtOf t) false a := by
  rw [absLane, h]; rfl

theorem negLane_int {x : Args} {t : Nat} (h : isFloat t = false) (a : Nat) :
    negLane x t a = ⟨intNarrow t (satOf x) (-intValue t a), 0⟩ := by
  rw [negLane, h]; rfl

theorem negLane_float {x : Args} {t : Nat} (h : isFloat t = true) (a : Nat) :
    negLane x t a = signLane (fmtOf t) true a := by
  rw [negLane, h]; rfl

/-- A form on the lanes of its type code, here with any name `e` of its lane results. -/
theorem exec_laneForm_writesV {op : Nat} {x : Args} {s : State} {n : Nat} {i : Instr} {f : Nat → Nat → Nat → FRes}
    {e : Nat → FRes} (hd : vField x.d = some n) (h4 : fourOf op = false) (hi : exec i s = run op x (laneForm x f) s)
    (he : ∀ k, f (codeOf x.d) (srcLane x.a (codeOf x.d) (ops x s).av k) (srcLane x.b (codeOf x.d) (ops x s).b k) = e k)
    (hc : clear op x s = true) : ∃ z, exec i s = .next z ∧
      let q := lanewise (elemBits (codeOf x.d)) (lanesOf (codeOf x.d)) (laneMask (acting s) x) (readV (acting s) n) e
      WritesV x s z n q.1 q.2 :=
  vecBody_writes op x _ _ _ s n i e hd h4 hi he hc

/-- R178: a logical shift right of a lane by w or more leaves nothing. -/
theorem shrLane_eq {t u : Nat} (c : Nat) (hu : u < 2 ^ intWidth t) :
    shrLane t u c = if intWidth t ≤ c then 0 else u / 2 ^ c := by
  rw [shrLane, ← Nat.mod_eq_of_lt hu]
  exact mod_div_pow_min u (intWidth t) c

/-- Settles O20: on an integer type code the lanes of each form are those of the integer lemmas above. -/
theorem vectorIntegerResults : Obligations.VectorIntegerResults := by
  intro x s n hd hint t w a b c gives
  have hw : elemBits t = w := elemBits_int t hint
  have lanes {op : Nat} {i : Instr} {f : Nat → Nat → Nat → FRes} {sat : Bool} {e : Nat → Int} (h4 : fourOf op = false)
      (hi : exec i s = run op x (laneForm x f) s) (he : ∀ k, f t (a k) (b k) = ⟨intNarrow t sat (e k), 0⟩) :
      gives op i sat e := by
    intro hc
    rw [← hw]
    exact exec_laneForm_writesV hd h4 hi he hc
  have shift {op : Nat} {i : Instr} {f : Nat → Nat → Nat → Nat} {e : Nat → Nat} (h4 : fourOf op = false)
      (hi : exec i s = run op x (shiftForm x f) s) (he : ∀ k, f t (laneGet w k (ops x s).av) (c k) = e k) :
      clear op x s = true → ∃ z, exec i s = .next z ∧
        let r := lanewise w (lanesOf t) (laneMask (acting s) x) (readV (acting s) n) fun k => ⟨e k, 0⟩
        WritesV x s z n r.1 r.2 := by
    intro hc
    rw [← hw] at he ⊢
    refine vecBody_writes op x _ _ _ s n i _ hd h4 hi (fun k => congrArg noFlag ?_) hc
    rw [← he k, laneCount, show elemBits (codeOf x.d) = w from hw]
  refine ⟨?vadd, ?vsub, ?vmul, ?vmin, ?vmax, ?vabs, ?vneg, ?vshl, ?vsar, ?vshr⟩
  case vadd | vsub | vmul => exact lanes rfl rfl fun k => arithLane_int hint ..
  case vmin | vmax => exact lanes rfl rfl fun k => minMaxLane_int hint ..
  case vabs => exact lanes rfl rfl fun k => absLane_int hint _
  case vneg => exact lanes rfl rfl fun k => negLane_int hint _
  case vshl | vsar => exact shift rfl rfl fun k => rfl
  case vshr => exact shift rfl rfl fun k => shrLane_eq (c k) (laneGet_lt w k _)

/-- Settles O21: on a floating type code the lanes of each form are those of the floating lemmas above. -/
theorem vectorFloatResults : Obligations.VectorFloatResults := by
  intro x s n hd hfloat t f r a b gives
  refine ⟨?vadd, ?vsub, ?vmul, ?vfma, ?vmin, ?vmax, ?vabs, ?vneg⟩
  case vadd | vsub | vmul => exact exec_laneForm_writesV hd rfl rfl fun k => arithLane_float hfloat ..
  case vfma => exact vecBody_writes _ x _ _ _ s n _ _ hd rfl rfl fun k => rfl
  case vmin | vmax => exact exec_laneForm_writesV hd rfl rfl fun k => minMaxLane_float hfloat ..
  case vabs => exact exec_laneForm_writesV hd rfl rfl fun k => (absLane_float hfloat _).trans (signLane_eq f false _)
  case vneg => exact exec_laneForm_writesV hd rfl rfl fun k => (negLane_float hfloat _).trans (signLane_eq f true _)

/-! ## Comparison and extraction (R183, R189) -/

/-- R183: the predicate of an integer comparison raises no flag. -/
theorem cmpLane_int_flags {c : Cond} {t a b : Nat} (h : isFloat t = false) : (cmpLane c t a b).2 = 0 := by
  rw [cmpLane, h]; rfl

/-- Every byte of a register lies in one of its lanes. -/
theorem byte_in_lane {w j : Nat} (hw : w ∈ [8, 16, 32, 64]) (hj : j < 16) : 8 * j / w < 128 / w := by
  simp only [List.mem_cons, List.not_mem_nil, or_false] at hw
  rcases hw with rfl | rfl | rfl | rfl <;> omega

/-- R183: the predicate and the flags that a comparison of N lanes leaves, `c` being each lane's answer. -/
def compareLanes (w N : Nat) (m old : BitVec 16) (c : Nat → Bool × BitVec 5) : BitVec 16 × BitVec 5 :=
  (List.range N).foldl (fun (p, fl) i =>
    if laneOn m w i then (if (c i).1 then p ||| cmpBits w i else p &&& ~~~ cmpBits w i, fl ||| (c i).2) else (p, fl))
    (old, (0 : BitVec 5))

/-- VCMP's body writes what its lanes leave. -/
theorem vcmpBody_eq (c : Cond) (x : Args) (s : State) (sid : Nat) (t : Strand) (o : Opnds) :
    let ty := codeOf x.d
    let r := compareLanes (elemBits ty) (lanesOf ty) (laneMask t x) (readP t (idxOf x.d)) fun k =>
      cmpLane c ty (srcLane x.a ty o.av k) (srcLane x.b ty o.b k)
    vcmpBody c x s sid t o = .done (updStrand s sid fun z => raise (writeP z (idxOf x.d) r.1) r.2) := rfl

/-- Settles O25: VCMP's fold sets the bits of each unmasked lane (`vcmp_fold`); VEXT computes gd. -/
theorem compareAndExtractResults : Obligations.CompareAndExtractResults := by
  intro x s n t w m cond
  refine ⟨fun c hd hw hlanes hc => ?vcmp, fun hd hc => run_compute 0x1C4 x _ s n hc hd rfl⟩
  case vcmp =>
    have hbytes : 0 < w / 8 ∧ w % 8 = 0 := by
      simp only [List.mem_cons, List.not_mem_nil, or_false] at hw
      rcases hw with h | h | h | h <;> rw [h] <;> decide
    have h4 : fourOf (0x10E + condNum c) = false := by cases c <;> rfl
    obtain ⟨hbits, hflags⟩ := vcmp_fold w (lanesOf t) m (readP (acting s) n) (cond c) hbytes.1 hbytes.2
    refine ⟨_, (compareLanes w (lanesOf t) m (readP (acting s) n) (cond c)).1,
      (compareLanes w (lanesOf t) m (readP (acting s) n) (cond c)).2, run_ops _ x _ s hc h4, ?_, fun j hj => ?_,
      fun hint => hflags fun i => cmpLane_int_flags hint⟩
    · rw [vcmpBody_eq, idxOf_pField x.d n hd]
      exact writesP_of x s n (entry x s).fresh _ _
    · rw [compareLanes, hbits j hj, hlanes]
      simp [byte_in_lane hw hj]

/-! ## Conversion and functions (R190, R193, R195, R196) -/

theorem maxeLane_eq (t a b : Nat) : maxeLane t a b =
    if isFloat t then ⟨intNarrow (intBeside t) false (max (fpExpLane (fmtOf t) (elemBits t) a)
        (fpExpLane (fmtOf t) (elemBits t) b)), 0⟩
      else ⟨intNarrow t false (max (intValue t a) (intValue t b)), 0⟩ := by
  rw [maxeLane]
  cases h : isFloat t with
  | true => rfl
  | false => exact minMaxLane_int h true a b

/-- Settles O27: VCVT writes its lanes, then the zeros above them; the others have the lanes of their rules. -/
theorem conversionAndFunctionResults : Obligations.ConversionAndFunctionResults := by
  intro x s n hd t w f a b m gives
  refine ⟨fun hc => ?vcvt, ?vexp2, ?vlog2, ?vrcp, ?vrsq, ?vtanh, ?vmaxe, ?vldexp⟩
  case vcvt =>
    refine ⟨_, run_ops 0x1C0 x _ s hc rfl, ?_⟩
    have hw := fun v fl => writesV_of x s n (entry x s).fresh v fl
    simp only [vcvtBody, settle, idxOf_vField x.d n hd]
    exact hw _ _
  case vexp2 | vlog2 | vrcp | vrsq | vtanh => exact exec_laneForm_writesV hd rfl rfl fun k => rfl
  case vmaxe => exact exec_laneForm_writesV hd rfl rfl fun k => maxeLane_eq ..
  case vldexp => exact exec_laneForm_writesV hd rfl rfl fun k => rfl

/-! ## Forms that write two registers (R194, R197) -/

/-- Raising no flag. -/
theorem raise_zero (t : Strand) : raise t 0 = t := by
  have h : t.fflags ||| 0 = t.fflags := BitVec.or_zero
  rw [raise, h]

/-- Settles O28: both forms write vd and vd + 1 (`writesVV_of`); VEXPN's fraction is the split's where it has one. -/
theorem pairedLaneResults : Obligations.PairedLaneResults := by
  intro x s n hd t w m a into
  refine ⟨fun hc => ?vexpn, fun hc => ?vrmax⟩
  case vexpn =>
    refine ⟨_, fun i => ((fpSplit (fmtOf t) w (a i)).1).getD
        ((Config.openValue ((entry x s).fresh + i)).toNat % oneBits (fmtOf t)), run_ops 0x185 x _ s hc rfl,
      fun i => all_eq_getD _ _, ?_⟩
    have hw := fun u v fl => writesVV_of x s n ((entry x s).fresh + 8) u v fl
    simp only [vexpnBody, settle, idxOf_vField x.d n hd]
    exact hw _ _ _
  case vrmax =>
    refine ⟨_, run_ops 0x188 x _ s hc rfl, ?_⟩
    have hw := fun u v => writesVV_of x s n (entry x s).fresh u v 0
    simp only [vrmaxBody, settle, idxOf_vField x.d n hd]
    simp only [raise_zero] at hw
    exact hw _ _

end Sys2Proof.Machine
end

section
/-! SUPPORT. Loads, stores, fences and atomics (R62, R63, R68, R69, R199 to R208, R223, R224), and the theorems that settle the
statements. -/

namespace Sys2Proof.Machine
open Sys2Proof

/-! ## Loads of the own scratchpad (R202, R203) -/

/-- R202: a load that finds nothing to wait for reads the own scratchpad. -/
theorem loadAt_own (x : Args) (s : State) (sp : List Nat) (ea : Word) (n ty : Nat) (mask : BitVec 16) (dst : RegRef)
    (hheld : heldLoad (acting s) dst = none) (hcopy : copying (acting s) dst = false) (hsp : sp.contains 0xF0 = true)
    (h : ownSpace ea n ∧ reserved s (ownKey s ea) n = false ∧ poisoned s (ownKey s ea) n = false) :
    loadAt (entry x s) s.cur (acting s) sp ea n ty mask dst =
      .done (updStrand (entry x s) s.cur (landIn dst mask (loadedVec ty n dst (readLe s.mem (ownKey s ea) n)))) := by
  obtain ⟨hown, hres, hpoison⟩ := h
  unfold ownKey at hres hpoison
  unfold loadAt
  rw [hheld]
  simp only [target_own _ _ _ _ _ _ _ _ hown hsp, reserved_entry, poisoned_entry, hres, hpoison, hcopy, entry_mem,
    Bool.false_eq_true, if_false, ownKey]

/-- R203: an own-scratchpad access with no byte unmasked passes its checks. -/
theorem checkOnly_own (s : State) (sid : Nat) (t : Strand) (sp : List Nat) (ea : Word) (ok : Res) (h : ownSpace ea 16)
    (hsp : sp.contains 0xF0 = true) : checkOnly s sid t sp ea ok = ok := by
  have hsel : (ea >>> 56).toNat = 0xF0 := by rw [h.1]; rfl
  simp [checkOnly, hsel, target_own _ _ _ _ _ _ _ _ h hsp]

/-- R203: what a masked-out load does to its register: it is full and untagged, with its value. -/
def touchV (n : Nat) (t : Strand) : Strand := setTag (setFull t (.v n) true) (.v n) false

theorem writesV_touchV (x : Args) (s : State) (n : Nat) :
    WritesV x s (finishAt (updStrand (entry x s) s.cur (touchV n)) s.cur) n (readV (acting s) n) 0 := by
  refine (result_of x s (touchV n) _ (fun u => rfl) (fun r => r == .v n)
    (fun r hr u => ?_) (fun r hr u => ?_)).congr (fun m => readG_cleared ..) (fun m => ?_) (fun m => readP_cleared ..) ?_
  · rw [← fullOf_writeV u n 0 r hr]; cases r <;> rfl
  · rw [← tagOf_writeV u n 0 r hr]; cases r <;> rfl
  · show readV (cleared x (acting s)) m = _
    rw [readV_cleared]
    split
    · next h => rw [h]
    · rfl
  · show (cleared x (acting s)).fflags = _
    simp

/-- R203: the lanes that a masked load leaves. -/
theorem mergeBytes_loaded (mask : BitVec 16) (old : Vec) (m : Map Byte) (a i : Nat) (hi : i < 16) :
    laneGet 8 i (mergeBytes mask old (BitVec.ofNat 128 (readLe m a 16))) =
      if mask.getLsbD i then (readByte m (a + i)).toNat else laneGet 8 i old := by
  rw [mergeBytes_lane _ _ _ _ hi, laneGet_readLe _ _ _ hi]

/-- R203: VLD of the own scratchpad. -/
theorem vldResult (x : Args) (s : State) (n : Nat) (hd : vField x.d = some n) (hc : clear 0x202 x s = true)
    (h : ownSpace (address x s 16) 16 ∧ reserved s (ownKey s (address x s 16)) 16 = false ∧
      poisoned s (ownKey s (address x s 16)) 16 = false) :
    ∃ z v, exec (.vld x) s = .next z ∧ WritesV x s z n v 0 ∧ ∀ i, i < 16 → laneGet 8 i v =
      if (laneMask (acting s) x).getLsbD i then (readByte s.mem (ownKey s (address x s 16) + i)).toNat
      else laneGet 8 i (readV (acting s) n) := by
  have hidx := idxOf_vField x.d n hd
  obtain ⟨hland, hheld⟩ := clear_land _ x s hc
  have hcopy : copying (acting s) (.v n) = false := hland _ (by simp [landRegs, hidx])
  have hrun : exec (.vld x) s = .next (settle 0x202 x s.cur (ops x s) (vldBody x (entry x s) s.cur (acting s) (ops x s))) :=
    run_ops 0x202 x (vldBody x) s hc rfl
  simp only [vldBody, effAddr_address, hidx, hcopy] at hrun
  by_cases hm : laneMask (acting s) x = 0
  · rw [if_pos hm, checkOnly_own _ _ _ _ _ _ h.1 rfl] at hrun
    refine ⟨_, _, hrun, writesV_touchV x s n, fun i _ => ?_⟩
    simp [hm]
  · rw [if_neg hm, if_neg Bool.false_ne_true, loadAt_own x s _ _ _ _ _ _ (hheld _) hcopy rfl h] at hrun
    have hmerge (u : Strand) : landIn (.v n) (laneMask (acting s) x) (loadedVec 0 16 (.v n) (readLe s.mem (ownKey s (address x s 16)) 16)) u
        = raise (writeV u n (mergeBytes (laneMask (acting s) x) (readV u n) (BitVec.ofNat 128 (readLe s.mem (ownKey s (address x s 16)) 16)))) 0 := by
      simp [landIn, loadedVec, raise, writeV]
    rw [updStrand_congr (g := fun u => raise (writeV u n (mergeBytes (laneMask (acting s) x) (readV (acting s) n)
      (BitVec.ofNat 128 (readLe s.mem (ownKey s (address x s 16)) 16)))) 0)
      (h := by rw [hmerge, strandAt_entry, readV_cleared])] at hrun
    exact ⟨_, _, hrun, writesV_of x s n _ _ 0, fun i hi => mergeBytes_loaded _ _ _ _ i hi⟩

/-- Settles O38: LD and ACQ are one load (`load_own`); VLD merges the lanes of its mask. -/
theorem ownLoadResults : Obligations.OwnLoadResults := by
  intro x s w free
  refine ⟨fun n hd hc hf => load_own 0x200 x s n w _ _ rfl hd hc rfl rfl rfl rfl hf, fun n c hd hc hf => ?_,
    fun n hd hc hf => vldResult x s n hd hc hf⟩
  cases c <;> exact load_own _ x s n w _ _ rfl hd hc rfl rfl rfl rfl hf

/-! ## Stores to the own scratchpad (R203, R204, R207) -/

/-- Settles O39: each form is one store (`storeRes_own`), which REL makes once its scope is acknowledged. -/
theorem ownStoreResults : Obligations.OwnStoreResults := by
  intro x s w free byte
  have hw : w ≤ 16 := (intWidth_div _).trans (by decide)
  have hall (i : Nat) (hi : i < w) :
      some (byte i) = if (0xFFFF : BitVec 16).toNat.testBit i then some (BitVec.ofNat 8 ((ops x s).d.toNat / 256 ^ i)) else none :=
    (if_pos (allOnes_bit i (by omega))).symm
  have hrel (c : Scope) (hc : clear (0x20B + scopeNum c) x s = true) : exec (.rel c x) s =
      .next (settle (0x20B + scopeNum c) x s.cur (ops x s) (relBody c x (entry x s) s.cur (acting s) (ops x s))) :=
    run_ops _ x (relBody c x) s hc (by cases c <;> rfl)
  have hbody (c : Scope) (hown : ownSpace ((ops x s).aw + (ops x s).bw) (intWidth (codeOf x.d) / 8)) :
      relBody c x (entry x s) s.cur (acting s) (ops x s) =
        if owesAck s (acting s).uid s.cur c then .park (entry x s) 0 0 none (.drain (scopeNum c))
        else storeRes (entry x s) s.cur (acting s) ((ops x s).aw + (ops x s).bw) 0 (storeAt (entry x s) s.cur (acting s)
          loadSpaces ((ops x s).aw + (ops x s).bw) (intWidth (codeOf x.d) / 8) 0xFFFF (ops x s).d (some c)) := by
    simp only [relBody, target_own _ _ _ _ loadSpaces _ _ _ hown rfl, owesAck_entry]
  refine ⟨fun hc hf => ?st, fun c hc hf howe => ?rel, fun c hc hf howe => ?relWaits, fun hc hf => ?vst⟩
  case st =>
    refine ⟨_, run_ops 0x201 x (stBody x) s hc rfl, ?_⟩
    simp only [stBody, effAddr_address]
    exact storeRes_own x s _ _ _ _ _ _ _ _ _ _ hf.1 hf.2 rfl hall
  case rel =>
    refine ⟨_, hrel c hc, ?_⟩
    rw [hbody c hf.1, howe, if_neg Bool.false_ne_true]
    exact storeRes_own x s _ _ _ _ _ _ _ _ _ _ hf.1 hf.2 rfl hall
  case relWaits =>
    have hpark : relBody c x (entry x s) s.cur (acting s) (ops x s) = .park (entry x s) 0 0 none (.drain (scopeNum c)) := by
      rw [hbody c hf.1, howe, if_pos rfl]
    obtain ⟨hst, hmem, hstrand, -⟩ := parkAt_slot (entry x s) s.cur (0x20B + scopeNum c) 0 0 none (.drain (scopeNum c))
      (some (ops x s)) (syncRegs x) (packWord (0x20B + scopeNum c) x)
    rw [strandAt_entry] at hstrand
    refine ⟨_, (hrel c hc).trans (by rw [hpark]; rfl), hst, ?_, hmem.trans (entry_mem x s), entry_net x s, fun m => ?_⟩
    · rw [hstrand]; exact cleared_pc x _
    · rw [hstrand]; exact readG_cleared x _ m
  case vst =>
    refine ⟨_, run_ops 0x203 x (vstBody x) s hc rfl, ?_⟩
    simp only [vstBody, effAddr_address]
    by_cases hm : laneMask (acting s) x = 0
    · rw [if_pos hm, checkOnly_own _ _ _ _ _ _ hf.1 rfl]
      exact storesTo_gen x s _ 16 (entry x s).mem (entry x s).poison _ fun k => by simp [hm]
    · rw [if_neg hm]
      exact storeRes_own x s _ _ _ _ _ _ _ _ _ _ hf.1 hf.2 rfl fun i _ => by rw [BitVec.testBit_toNat]

/-- Settles O40: the words stand in the own scratchpad (`loadWords_own`, `storeWords_own`). -/
theorem multipleWordResults : Obligations.MultipleWordResults := by
  intro x s n d ea inside free
  refine ⟨fun hc hin hfree hpoison => ?ldm, fun hc hwait hin hfree => ?stm⟩
  case ldm =>
    have hgot : gotWords (acting s) = [] := by
      simp only [clear, Bool.and_eq_true, Option.isNone_iff_eq_none] at hc
      obtain ⟨⟨-, hnone⟩, -⟩ := hc
      cases hw : (acting s).wait with
      | none => simp [gotWords, hw]
      | some w =>
        have hops : w.opnds = none := by rw [hw] at hnone; simpa using hnone
        rw [gotWords, hw]
        simp [Option.filter, hops]
    have hrun : exec (.ldm x) s = .next (settle 0x204 x s.cur (ops x s) (ldmBody x (entry x s) s.cur (acting s) (ops x s))) :=
      run_ops 0x204 x (ldmBody x) s hc rfl
    have hbody : ldmBody x (entry x s) s.cur (acting s) (ops x s) = .done (updStrand (entry x s) s.cur
        (putRun d (fun j => BitVec.ofNat 64 (readLe s.mem (ownKey s ea + 8 * j) 8)) n)) := by
      have hcheck : multiCheck (entry x s) s.cur (acting s) .read (multiSpaces false) ((ops x s).aw + (ops x s).bw)
          (codeOf x.d + 1) 0 = none :=
        multiCheck_own _ _ _ _ (multiSpaces false) _ _ hin.1 hin.2 rfl _ 0 (Nat.le_of_eq (Nat.zero_add _))
      simp only [ldmBody, hcheck, multiBad, hgot, List.length_nil, Nat.sub_zero]
      rw [loadWords_own s _ _ n hin.1 hin.2 _ _ (entry_mem x s) (reserved_entry x s) (poisoned_entry x s) hfree hpoison n []
        rfl rfl]
      congr 2
      funext u
      exact landWords_run ..
    obtain ⟨hg, hv, hp, hfl, -, -⟩ := putRun_reads d (fun j => BitVec.ofNat 64 (readLe s.mem (ownKey s ea + 8 * j) 8)) n
      (cleared x (acting s))
    refine ⟨_, hrun.trans (by rw [hbody]; rfl), (result_of x s _ _ (putRun_ctl _ _ _)
      (fun r => match r with | .g m => decide (d ≤ m ∧ m < d + n ∧ m ≠ 0) | .v _ => false)
      (fun r hr u => (putRun_reads d _ n u).2.2.2.2.1 r hr) (fun r hr u => (putRun_reads d _ n u).2.2.2.2.2 r hr)).congr
      (fun m => ?_) (fun m => ?_) (fun m => ?_) ?_⟩
    · rw [hg, readG_cleared]
    · rw [hv, readV_cleared]
    · rw [hp, readP_cleared]
    · rw [hfl, fflags_cleared]
  case stm =>
    obtain ⟨mem, poison, hstore, hbytes⟩ := storeWords_own x s d ea n hin.1 hin.2 (acting s) hfree n 0 (entry x s).mem
      (entry x s).poison (Nat.zero_add n) fun k => by rw [if_neg (by omega), entry_mem]
    have hbody : stmBody x (entry x s) s.cur (acting s) (ops x s) = .done { entry x s with mem := mem, poison := poison } := by
      have hcheck : multiCheck (entry x s) s.cur (acting s) .write (multiSpaces true) ((ops x s).aw + (ops x s).bw)
          (codeOf x.d + 1) 0 = none :=
        multiCheck_own _ _ _ _ (multiSpaces true) _ _ hin.1 hin.2 rfl _ 0 (Nat.le_of_eq (Nat.zero_add _))
      simp only [stmBody, postedWords_none _ hwait, hcheck, multiBad, Nat.sub_zero]
      exact hstore
    refine ⟨_, (run_ops 0x205 x (stmBody x) s hc rfl).trans (by rw [hbody]), ?_⟩
    exact storesTo_gen x s _ _ mem poison _ hbytes

/-! ## Accesses that trap or leave the scratchpad (R62, R63, R68, R69, R200) -/

/-- What an access that traps leaves of the acting strand, and the record it queues. -/
def AccessTrapped (s z : State) (cls : Nat) (info : Option Word) : Prop :=
  (getSlot z s.cur).st = .halted ∧ (strandAt z s.cur).pc = (acting s).pc ∧
    (∀ m, readG (strandAt z s.cur) m = readG (acting s) m) ∧ (∀ v, info = some v → (strandAt z s.cur).trapinfo = v) ∧
    ∃ r, z.records = s.records ++ [r] ∧ ((acting s).ctx < 64 → s.dom.member < 1024 → s.cur < 2 ^ 15 →
      (r.words.getD 0 0).toNat / 2 ^ 48 = cls)

theorem trap_accessTrapped (op : Nat) (x : Args) (s : State) (o : Opnds) (cls : Nat) (info : Word) (hcls : cls < 2 ^ 16) :
    AccessTrapped s (settle op x s.cur o (.trap (entry x s) cls info)) cls (some info) := by
  obtain ⟨hst, hpc, hg, hinfo, hrec⟩ := trap_any op x s o (entry x s) cls info rfl hcls
  exact ⟨hst, hpc, hg, fun v hv => hinfo.trans (Option.some.inj hv), hrec⟩

theorem misTrap_accessTrapped (op : Nat) (x : Args) (s : State) (o : Opnds) :
    AccessTrapped s (settle op x s.cur o (misTrap (entry x s))) 2 none := by
  obtain ⟨hst, hpc, hg, -, hrec⟩ := trap_any op x s o { entry x s with fresh := (entry x s).fresh + 1 } 2
    ((Config.openValue (entry x s).fresh).setWidth 64) rfl (by decide)
  exact ⟨hst, hpc, hg, fun v hv => by simp at hv, hrec⟩

/-- R200: a form traps as the target of its access says. -/
def TrapsAs (s : State) (r : Res) (g : Target) : Prop :=
  (∀ c i, g = .bad c i → r = .trap s c i) ∧ (g = .mis → r = misTrap s)

theorem loadAt_trapsAs {s z : State} {op : Nat} {x : Args} (hc : clear op x s = true) (sp : List Nat) (ea : Word) (n ty : Nat)
    (m : BitVec 16) (dst : RegRef) :
    TrapsAs z (loadAt z s.cur (acting s) sp ea n ty m dst) (target z s.cur (acting s).ctx .read sp false ea n) := by
  have hheld := (clear_land op x s hc).2 dst
  exact ⟨fun c i h => by simp only [loadAt, hheld, h], fun h => by simp only [loadAt, hheld, h]⟩

theorem storeAt_trapsAs (z : State) (sid : Nat) (t : Strand) (sp : List Nat) (ea arg : Word) (n : Nat) (m : BitVec 16)
    (v : Vec) (c : Option Scope) :
    TrapsAs z (storeRes z sid t ea arg (storeAt z sid t sp ea n m v c)) (target z sid t.ctx .write sp false ea n) :=
  ⟨fun c i h => by simp only [storeAt, h, storeRes], fun h => by simp only [storeAt, h, storeRes]⟩

/-- Settles O41: the target of a bad access is the permission or the misaligned trap (`target_bad`), which the forms take. -/
theorem accessTraps : Obligations.AccessTraps := by
  intro x s w traps
  have key {op n : Nat} {i : Instr} {spaces : List Nat} (need : Need) (body : Body1) (h4 : fourOf op = false)
      (hi : exec i s = run op x body s)
      (hbody : clear op x s = true → TrapsAs (entry x s) (body (entry x s) s.cur (acting s) (ops x s))
        (target (entry x s) s.cur (acting s).ctx need spaces false (address x s n) n)) : traps op i n spaces := by
    intro hc ea sel hbad
    have hrun := hi.trans (run_ops op x body s hc h4)
    obtain ⟨hperm, hmis⟩ := hbody hc
    obtain ⟨hout, hodd⟩ := target_bad (entry x s) s.cur (acting s).ctx need spaces false ea n
    by_cases hsel : sel ∈ spaces
    · have hal := hbad.resolve_left (not_not.2 hsel)
      obtain ⟨hst, hpc, hg, -, r, hr, hcls⟩ := misTrap_accessTrapped op x s (ops x s)
      rw [hmis (hodd hsel hal)] at hrun
      exact ⟨_, hrun, hst, hpc, hg, fun h => absurd hsel h, r, hr,
        fun h1 h2 h3 => (hcls h1 h2 h3).trans (if_neg (not_not.2 hsel)).symm⟩
    · obtain ⟨hst, hpc, hg, hinfo, r, hr, hcls⟩ := trap_accessTrapped op x s (ops x s) 4 ea (by decide)
      rw [hperm 4 ea (hout hsel)] at hrun
      exact ⟨_, hrun, hst, hpc, hg, fun _ => hinfo _ rfl, r, hr, fun h1 h2 h3 => (hcls h1 h2 h3).trans (if_pos hsel).symm⟩
  refine ⟨key .read (ldBody x) rfl rfl fun hc => ?_, key .write (stBody x) rfl rfl fun hc => ?_,
    fun hm => ⟨key .read (vldBody x) rfl rfl fun hc => ?_, key .write (vstBody x) rfl rfl fun hc => ?_⟩⟩
  · simp only [ldBody, effAddr_address]
    exact loadAt_trapsAs hc ..
  · simp only [stBody, effAddr_address]
    exact storeAt_trapsAs ..
  · have hcopy : copying (acting s) (.v (idxOf x.d)) = false := (clear_land _ x s hc).1 _ (by simp [landRegs])
    simp only [vldBody, effAddr_address, if_neg hm, hcopy, Bool.false_eq_true, if_false]
    exact loadAt_trapsAs hc ..
  · simp only [vstBody, effAddr_address, if_neg hm]
    exact storeAt_trapsAs ..

/-- R69: a capture leaves everything but the registers of its context. -/
theorem strandAt_capture (x : Args) (s : State) (c : Nat) (w : Bool) (ea : Word) :
    strandAt (capture (entry x s) c s.cur strandAgent w ea) s.cur = cleared x (acting s) :=
  (congrArg Slot.s (getSlot_updCtx ..)).trans (strandAt_entry x s)

/-- R154: the strand after completing. -/
theorem strandAt_finishAt (s : State) (sid : Nat) : strandAt (finishAt s sid) sid = endWait (endCheck (strandAt s sid)) :=
  congrArg Slot.s (getSlot_updSlot_same ..)

theorem intExtend_zero (t : Nat) : intExtend t 0 = 0 := by
  have h : intValue t 0 = 0 := by
    simp [intValue]
  simp [intExtend, h]

/-- Settles O42: out of range, a load gives zero and a store is dropped, once the capture is made (`capture_spec`). -/
theorem outOfRangeCaptured : Obligations.OutOfRangeCaptured := by
  intro x s w t ea hsel hout hal captured
  have hgone (need : Need) (sp : List Nat) (hsp : sp.contains 0xF0 = true) :
      target (entry x s) s.cur (acting s).ctx need sp false (address x s (intWidth (codeOf x.d) / 8))
        (intWidth (codeOf x.d) / 8) = .gone := target_gone _ _ _ _ _ _ _ hsel hout hal hsp
  have hcap {z : State} {wr : Bool} (hmem : z.mem = s.mem)
      (hctx : getCtx z t.ctx = getCtx (capture (entry x s) t.ctx s.cur 0 wr ea) t.ctx) : captured z wr := by
    have h := capture_spec (entry x s) t.ctx s.cur wr ea hsel
    rw [getCtx_entry, entry_cycle] at h
    refine ⟨hmem, ?_⟩
    rw [hctx]
    exact h
  refine ⟨fun n hd hc => ?_, fun hc => ?_⟩
  · have hn : idxOf x.d = n := by
      cases hx : x.d <;> simp_all [gField, idxOf]
    obtain ⟨hland, hheld⟩ := clear_land 0x200 x s hc
    have hcopy : copying (acting s) (.g n) = false := hland _ (by simp [landRegs, hn])
    have hbody : ldBody x (entry x s) s.cur (acting s) (ops x s) = .done (updStrand (capture (entry x s) t.ctx s.cur
        strandAgent false ea) s.cur (landIn (.g n) 0xFFFF (loadedVec (codeOf x.d) w (.g n) 0))) := by
      simp only [ldBody, effAddr_address, loadAt, hheld, hn, hgone .read loadSpaces rfl, hcopy, Bool.false_eq_true, if_false]
      rfl
    refine ⟨_, run_done 0x200 x (ldBody x) s _ hc hbody, hcap (entry_mem x s) rfl, fun m => ?_⟩
    rw [strandAt_finishAt, endCheck_reads, strandAt_updStrand_same, strandAt_capture]
    have hzero : BitVec.setWidth 64 (loadedVec (codeOf x.d) w (.g n) 0) = 0 := by
      simp [loadedVec, intExtend_zero]
    simp only [landIn, hzero, readG_writeG, readG_cleared]
    by_cases hm : m = n
    · by_cases h0 : n = 0 <;> simp [hm, h0]
    · simp [hm, t]
  · have hbody : stBody x (entry x s) s.cur (acting s) (ops x s) = .done (capture (entry x s) t.ctx s.cur strandAgent true ea) := by
      simp only [stBody, effAddr_address, storeAt, hgone .write storeSpaces rfl, storeRes]
      rfl
    refine ⟨_, run_done 0x201 x (stBody x) s _ hc hbody, hcap (entry_mem x s) rfl, fun m => ?_⟩
    rw [strandAt_finishAt, endCheck_reads, strandAt_capture, readG_cleared]

/-! ## Fences (R74, R208) -/

/-- Settles O43: with nothing unacknowledged the strand completes; else it parks. -/
theorem fenceResults : Obligations.FenceResults := by
  intro c x s hc
  have hrun : exec (.fnc c x) s =
      .next (settle (0x210 + scopeNum c) x s.cur (ops x s) (fncBody c (entry x s) s.cur (acting s) (ops x s))) :=
    run_ops _ x (fncBody c) s hc (by cases c <;> rfl)
  obtain ⟨honly, hslot⟩ := entry_only x s
  refine ⟨fun howe => ?done, fun howe => ?waits⟩
  case waits =>
    rw [fncBody, owesAck_entry, howe, if_pos rfl] at hrun
    obtain ⟨hst, -, hstrand, -⟩ := parkAt_slot (entry x s) s.cur (0x210 + scopeNum c) 0 0 none (.drain (scopeNum c))
      (some (ops x s)) (syncRegs x) (packWord (0x210 + scopeNum c) x)
    rw [strandAt_entry] at hstrand
    exact ⟨_, hrun, by rw [settle, hst]; decide, by rw [settle, hstrand]; exact cleared_pc x _⟩
  case done =>
    rw [fncBody, owesAck_entry, howe, if_neg Bool.false_ne_true] at hrun
    have hleaves := finishAt_entry_leaves x s
    by_cases h : c = .core
    · subst h
      rw [if_pos (show (Scope.core == Scope.core) = true from rfl)] at hrun
      have hcore (k : Nat) : getSlot (updCore (entry x s) (coreOf s.cur) fun y => { y with ibuf := [] }) k =
          getSlot (entry x s) k := getSlot_updCore _ _ _ _ fun _ => rfl
      refine ⟨_, hrun, entry_mem x s, entry_net x s, ?_, fun k hk => ?_, ?_⟩
      · exact (getSlot_updSlot_same ..).trans (by rw [hcore, hslot])
      · exact (getSlot_updSlot ..).trans (by rw [if_neg hk]; exact (hcore k).trans (honly.slots k hk))
      · show (getCore (setSlot _ _ _) _).ibuf = _
        rw [getCore_setSlot, if_pos rfl]
        exact congrArg Core.ibuf (getCore_setCore_same ..)
    · have hbeq : (c == Scope.core) = false := beq_eq_false_iff_ne.2 h
      rw [hbeq, if_neg Bool.false_ne_true] at hrun
      refine ⟨_, hrun, entry_mem x s, entry_net x s, hleaves.2, hleaves.1.slots, ?_⟩
      rw [if_neg h]
      exact (congrArg Core.ibuf (hleaves.1.core (coreOf s.cur)) :)

/-! ## Atomics (R223, R224, R291) -/

theorem atomBytes_le (t : Nat) : atomBytes t ≤ 8 := by
  unfold atomBytes
  split
  · decide
  · exact intWidth_div t

/-- R291: what an atomic with nothing else under way leaves, its old value and its new one. -/
theorem atomic_own (op : Nat) (x : Args) (s : State) (n : Nat) (hd : gField x.d = some n) (h4 : fourOf op = false)
    (hc : clear op x s = true) (hown : ownSpace (ops x s).aw (atomBytes (codeOf x.d))) (hnet : s.net = []) (hresv : s.resv = [])
    (hserved : s.served = []) (hprompt : s.prompt = true)
    (hpoison : poisoned s (ownKey s (ops x s).aw) (atomBytes (codeOf x.d)) = false) :
    let key := ownKey s (ops x s).aw
    let k := atomBytes (codeOf x.d)
    let old := readLe s.mem key k
    let new := atomicNew ⟨op, codeOf x.d, (ops x s).bw, (ops x s).dw, idxOf x.d⟩ old
    ∃ z, run op x (atomicBody op x) s = .next z ∧
      z.mem = writeLe s.mem key k (BitVec.ofNat 64 new.1).toNat ∧ z.net = [] ∧ z.resv = [] ∧
      (getSlot z s.cur).st = .ready ∧ (strandAt z s.cur).pc = (endCheck (acting s)).pc ∧
      (strandAt z s.cur).fflags = (acting s).fflags ||| new.2 ∧
      (∀ m, readG (strandAt z s.cur) m = if m = n ∧ n ≠ 0 then atomicResult (codeOf x.d) old else readG (acting s) m) ∧
      (∀ i, i ≠ s.cur → getSlot z i = getSlot s i) := by
  intro key k old new
  obtain ⟨p, y, htake, hbad, hans, hmem, hnet', hresv', hslots⟩ := issue_own (entry x s) (coreOf s.cur) (acting s).uid s.cur
    (acting s).ctx key k ⟨op, codeOf x.d, (ops x s).bw, (ops x s).dw, idxOf x.d⟩ (ops x s).aw ((entry_net ..).trans hnet)
    ((entry_resv ..).trans hresv) ((entry_served ..).trans hserved) ((entry_prompt ..).trans hprompt)
    ((poisoned_entry ..).trans hpoison)
  rw [entry_mem] at hans hmem
  have hlt : old < 2 ^ 64 := by
    have h1 := readLe_lt s.mem key k
    have h2 : 256 ^ k ≤ 256 ^ 8 := Nat.pow_le_pow_right (by norm_num) (atomBytes_le _)
    exact lt_of_lt_of_le h1 (h2.trans (by norm_num))
  have hfl : new.2.toNat < 32 := new.2.isLt
  have hansNat : p.ans.toNat = old + new.2.toNat * 2 ^ 64 := by
    rw [hans, BitVec.toNat_ofNat]
    refine Nat.mod_eq_of_lt (lt_of_lt_of_le (show _ < 2 ^ 70 from ?_) (Nat.pow_le_pow_right (by norm_num) (by norm_num)))
    show old + new.2.toNat * 2 ^ 64 < 2 ^ 70
    omega
  have hold : p.ans.toNat % 2 ^ 64 = old := by omega
  have hflag : BitVec.ofNat 5 (p.ans.toNat / 2 ^ 64) = new.2 := by
    rw [show p.ans.toNat / 2 ^ 64 = new.2.toNat by omega]
    exact BitVec.eq_of_toNat_eq (by simp)
  have hbody : atomicBody op x (entry x s) s.cur (acting s) (ops x s) = .done (setG (updStrand y s.cur fun t => raise t new.2)
      s.cur x.d (atomicResult (codeOf x.d) old)) := by
    simp only [atomicBody, target_own _ _ _ _ [0xF0, 0xF1, 0] _ _ _ hown rfl, awaitPkt, awaitOn]
    rw [show spadKey (coreOf s.cur) ((ops x s).aw.toNat % 2 ^ 56) = key from rfl, htake]
    simp only [hbad, atomicDone, hold, hflag]
  obtain ⟨hready, hpc, hff, hg, hrest⟩ := setG_raise x s n (atomicResult (codeOf x.d) old) new.2 hd y hslots
  have hrun := run_ops op x (atomicBody op x) s hc h4
  rw [hbody] at hrun
  have hset := setG_eq (updStrand y s.cur fun t => raise t new.2) s.cur x.d n (atomicResult (codeOf x.d) old) hd
  refine ⟨_, hrun, ?_, ?_, ?_, hready, hpc, hff, hg, hrest⟩
  · rw [settle, hset]; exact hmem
  · rw [settle, hset]; exact hnet'
  · rw [settle, hset]; exact hresv'

/-- R59, R137: narrowing a sum of two values is adding their patterns. -/
theorem intNarrow_add (t a b : Nat) : intNarrow t false (intValue t a + intValue t b) = (a + b) % 2 ^ intWidth t := by
  have hm : (0 : Int) < (2 ^ intWidth t : Nat) := by positivity
  have hv (u : Nat) : intValue t u % (2 ^ intWidth t : Nat) = (u : Int) % (2 ^ intWidth t : Nat) := by
    unfold intValue
    simp only
    split
    · push_cast
      rw [Int.sub_emod_right]
      exact Int.emod_emod ..
    · push_cast
      exact Int.emod_emod ..
  have hsum : (intValue t a + intValue t b) % (2 ^ intWidth t : Nat) = ((a + b : Nat) : Int) % (2 ^ intWidth t : Nat) := by
    rw [Int.add_emod, hv, hv, ← Int.add_emod, Int.natCast_add]
  show ((intValue t a + intValue t b) % ((2 ^ intWidth t : Nat) : Int)).toNat = _
  rw [hsum]
  exact_mod_cast rfl

/-- Settles O44: each operation's new word and flags (`atomicNew`), performed at once (`atomic_own`). -/
theorem atomicResults : Obligations.AtomicResults := by
  intro x s n hd ty w ea key old b v hown hnet hresv hserved hprompt hpoison gives
  have hbytes : atomBytes (codeOf x.d) = w / 8 := by
    simp only [atomBytes, w, ty, beq_iff_eq]
    split <;> rfl
  have hle : w ≤ 64 := by
    simp only [w]
    split
    · decide
    · exact intWidth_le ty
  have hpow : 256 ^ (w / 8) = 2 ^ w := by
    simp only [w]
    split
    · norm_num
    · exact width_pow ty
  have hold : old < 2 ^ w := hpow ▸ readLe_lt s.mem key (w / 8)
  have settles {op new : Nat} {i : Instr} {fl : BitVec 5} (h4 : fourOf op = false)
      (hi : exec i s = run op x (atomicBody op x) s)
      (hnew : (atomicNew ⟨op, codeOf x.d, (ops x s).bw, (ops x s).dw, idxOf x.d⟩ old).1 % 2 ^ w = new % 2 ^ w)
      (hfl : (atomicNew ⟨op, codeOf x.d, (ops x s).bw, (ops x s).dw, idxOf x.d⟩ old).2 = fl) : gives op i new fl := by
    intro hc
    obtain ⟨z, hrun, hmem, hnetz, hresvz, hready, hpc, hff, hg, hrest⟩ := atomic_own op x s n hd h4 hc (hbytes ▸ hown) hnet hresv
      hserved hprompt (hbytes ▸ hpoison)
    rw [hbytes] at hmem hff hg
    change (strandAt z s.cur).fflags = (acting s).fflags ||| (atomicNew _ old).2 at hff
    change z.mem = writeLe s.mem key (w / 8) (BitVec.ofNat 64 (atomicNew _ old).1).toNat at hmem
    rw [hfl] at hff
    refine ⟨z, hi.trans hrun, fun k hk => ?_, ?_, hnetz, hresvz, hready, hpc, hff, fun m => (hg m).trans ?_, hrest⟩
    · rw [hmem, readByte_writeLe _ _ _ _ _ hk]
    · rw [hmem, readLe_writeLe, hpow, BitVec.toNat_ofNat, Nat.mod_mod_of_dvd _ (Nat.pow_dvd_pow 2 hle), hnew]
    · congr 1
      show atomicResult ty old = _
      simp only [atomicResult, beq_iff_eq]
      by_cases h5 : ty = 5
      · rw [if_pos h5, if_pos h5, Nat.mod_eq_of_lt]
        simpa only [w, if_pos h5] using hold
      · rw [if_neg h5, if_neg h5]
  refine ⟨fun hty => ?_, fun hty => ?_⟩
  · have h5 : ty ≠ 5 := by
      intro h
      simp [h] at hty
    have h5' : (codeOf x.d == 5) = false := beq_eq_false_iff_ne.2 h5
    have hw : w = intWidth (codeOf x.d) := if_neg h5
    refine ⟨settles rfl rfl ?add ?_, settles rfl rfl ?_ ?_, settles rfl rfl ?_ ?_, settles rfl rfl ?_ ?_,
      settles rfl rfl ?min ?_, settles rfl rfl ?max ?_, settles rfl rfl ?_ ?_, settles rfl rfl ?_ ?_, settles rfl rfl ?_ ?_⟩
    all_goals simp only [atomicNew, h5', Bool.false_and, Bool.false_eq_true, if_false, b, hw, ty, v]
    case add => rw [intNarrow_add, Nat.mod_mod]
    case min => simp only [decide_eq_true_eq]
    case max => simp only [decide_eq_true_eq]
  · have h5' : (codeOf x.d == 5) = true := beq_iff_eq.2 hty
    have hw : w = 32 := if_pos hty
    refine ⟨settles rfl rfl ?_ ?_, settles rfl rfl ?_ ?_, settles rfl rfl ?_ ?_⟩
    all_goals simp [atomicNew, h5', b, hw]

end Sys2Proof.Machine
end

section
/-! SUPPORT. Messages, channels and register flags (R200, R210 to R222, R231, R232), and the theorems that settle the
statements. -/

namespace Sys2Proof.Machine
open Sys2Proof

/-! ## What the synchronised reads leave of cores and hubs (R126) -/

theorem getCore_entry (x : Args) (s : State) (c : Nat) :
    getCore (entry x s) c = { getCore s c with slots := (getCore (entry x s) c).slots } := (entry_only x s).1.core c

theorem getHub_entry (x : Args) (s : State) (b : Nat) : getHub (entry x s) b = getHub s b := by
  rw [getHub, getHub, entry_hubs]

/-! ## SEND (R213 to R216) -/

/-- R216: what an inbox message passes before it leaves. -/
theorem sendCheck_mesh (s : State) (sid ctx : Nat) (d a b : Word)
    (htarget : target s sid ctx .write [0xF1] true d 1 = .cell (.core (handleCore d)) (spadKey (handleCore d) 0))
    (hspace : a >>> 56 = 0xF0) (hal : a.toNat % 8 = 0) (hlen8 : b.toNat % 256 % 8 = 0) (hlen : b.toNat % 256 ≤ 112)
    (hb : b.toNat = b.toNat / 2 ^ 16 % 2 ^ 16 * 2 ^ 16 + b.toNat % 256) : sendCheck s sid ctx d a b = none := by
  have h8 : b.getLsbD 8 = false := by
    rw [← BitVec.testBit_toNat, Nat.testBit_eq_decide_div_mod_eq]
    exact decide_eq_false (by omega)
  have hkey : spadKey (handleCore d) 0 % 2 ^ 18 = 0 := by unfold spadKey; omega
  have hmask : a &&& 7 = 0 := and_mask_zero a 3 (by decide) 7 rfl hal
  have hbits : b.toNat / 2 ^ 10 % 64 = 0 := by omega
  have hhigh : b.toNat / 2 ^ 32 = 0 := by omega
  have h9 : b.getLsbD 9 = false := by
    rw [← BitVec.testBit_toNat, Nat.testBit_eq_decide_div_mod_eq]
    exact decide_eq_false (by omega)
  simp only [sendCheck, htarget, h8, h9, hkey, hspace, hmask, hlen8, hbits, hhigh, decide_eq_false (Nat.not_lt.2 hlen), bne_self_eq_false,
    Bool.false_eq_true, if_false, Bool.or_false, Bool.false_and]

/-- R68: bytes that lie in the own scratchpad. -/
theorem ownSpan_inside (core : Nat) (a : Word) (n : Nat) (h18 : a.toNat % 2 ^ 56 < 2 ^ 18) (h : a.toNat % 2 ^ 56 + n ≤ 2 ^ 18) :
    ownSpan core a n = (spadKey core (a.toNat % 2 ^ 56), n) := by
  simp only [ownSpan, if_pos h18, min_eq_left (show n ≤ 2 ^ 18 - a.toNat % 2 ^ 56 by omega)]

theorem ownBusy_free (s : State) (k n : Nat) (h : reserved s k n = false) : ownBusy s (k, n) = false := by
  simp [ownBusy, h]

theorem captureOwn_inside (s : State) (sid ctx : Nat) (w : Bool) (a : Word) (n : Nat) (h : a.toNat % 2 ^ 56 + n ≤ 2 ^ 18) :
    captureOwn s sid ctx w a n = s := by
  have : ¬ (2 ^ 18 < a.toNat % 2 ^ 56 + n) := by omega
  rw [captureOwn, decide_eq_false this, Bool.and_false, if_neg Bool.false_ne_true]

theorem ownByte_inside (s : State) (core : Nat) (a : Word) (i : Nat) (h : a.toNat % 2 ^ 56 + i < 2 ^ 18) :
    ownByte s core a i = readByte s.mem (spadKey core (a.toNat % 2 ^ 56) + i) := by
  have hi : (a.toNat + i) % 2 ^ 56 = a.toNat % 2 ^ 56 + i := by omega
  simp only [ownByte, hi, if_pos h, spadKey, Nat.add_assoc]

theorem takeCredit_some (s : State) (core dest : Nat) (hblk : blkOfCore core = blkOfCore dest)
    (h : mapGet 2 (getCore s core).credits (dest % 8) ≠ 0) : takeCredit s core dest = some (updCore s core fun c =>
      { c with credits := mapPut c.credits (dest % 8) (mapGet 2 (getCore s core).credits (dest % 8) - 1) }) := by
  simp [takeCredit, hblk, h]

/-- R18: a packet to another core of the block goes round its ring. -/
theorem ringOf_near (a b flits : Nat) (way : Option Bool) (hne : b ≠ a) (hblk : blkOfCore b = blkOfCore a) :
    (ringOf (.core a) (.core b) flits way).isSome = true := by
  simp [ringOf, Ne.symm hne, hblk]

/-- R213: the parts of a message. -/
theorem messageBytes_parts (s : State) (sid cycle : Nat) (a b : Word) (hb : b.getLsbD 8 = false) (hb9 : b.getLsbD 9 = false) :
    let bytes := messageBytes s sid cycle a b
    bytes.length = 16 + b.toNat % 256 ∧ bytesNat (bytes.take 2) = b.toNat / 2 ^ 16 % 2 ^ 16 ∧ byteAt bytes 2 = b.toNat % 256 ∧
    byteAt bytes 3 = 0 ∧ bytesNat ((bytes.drop 4).take 2) = sid % 2 ^ 15 ∧ bytesNat ((bytes.drop 8).take 8) = cycle % 2 ^ 64 ∧
    ∀ i, i < b.toNat % 256 → bytes.getD (16 + i) 0 = ownByte s (coreOf sid) a i := by
  intro bytes
  let payload := (List.range (b.toNat % 256)).map (ownByte s (coreOf sid) a)
  obtain ⟨htag, hlen, hflags, hsid, hcycle, hpay⟩ := header_parts (natBytes 2 (b.toNat / 2 ^ 16)) (natBytes 1 (b.toNat % 256))
    (natBytes 1 0) (natBytes 2 (sid % 2 ^ 15)) (natBytes 2 0) (natBytes 8 cycle) payload (natBytes_length ..) (natBytes_length ..)
    (natBytes_length ..) (natBytes_length ..) (natBytes_length ..) (natBytes_length ..)
  have hbytes : bytes = natBytes 2 (b.toNat / 2 ^ 16) ++ natBytes 1 (b.toNat % 256) ++ natBytes 1 0 ++ natBytes 2 (sid % 2 ^ 15) ++
      natBytes 2 0 ++ natBytes 8 cycle ++ payload := by
    simp only [bytes, messageBytes, hb, hb9, Bool.false_eq_true, if_false]
    rfl
  rw [← hbytes] at htag hlen hflags hsid hcycle hpay
  refine ⟨?_, ?_, ?_, ?_, ?_, ?_, fun i hi => ?_⟩
  · rw [hbytes]
    simp only [List.length_append, natBytes_length, payload, List.length_map, List.length_range]
  · rw [htag, bytesNat_natBytes]; norm_num
  · rw [byteAt, hlen]; simp [natBytes]
  · rw [byteAt, hflags]; rfl
  · rw [hsid, bytesNat_natBytes]; omega
  · rw [hcycle, bytesNat_natBytes]; norm_num
  · rw [hpay, List.getD_eq_getElem _ _ (by simpa [payload] using hi)]
    simp [payload]

/-- Settles O45: the message passes its checks, takes the credit and leaves on the ring (`postPkt_flying`). -/
theorem sendResults : Obligations.SendResults := by
  intro x s d a b len me dest key hc hwait hnet hsel hoff hne hblk hreach hready hown hlen hlen8 hlen112 hb hres hpoison hcredit
  obtain ⟨hspace, h18, hal⟩ := hown
  have hkey : spadKey me (a.toNat % 2 ^ 56) = key := by
    have : a.toNat % 2 ^ 56 = a.toNat % 2 ^ 18 := by omega
    simp only [key, this]
  have hwait0 : (getCore (entry x s) me).credits = (getCore s me).credits := by rw [getCore_entry]
  have htarget : target (entry x s) s.cur (acting s).ctx .write [0xF1] true d 1 = .cell (.core dest) (spadKey dest 0) :=
    target_mesh _ _ _ _ _ _ (Nat.mod_lt _ (by norm_num)) hsel hoff (by simpa only [reachesBlk, ownsBlk, getHub_entry] using hreach)
      (by simpa only [distReady, entry_mgmt] using hready)
  have hcheck := sendCheck_mesh (entry x s) s.cur (acting s).ctx d a b htarget hspace hal hlen8 hlen112 hb
  have h8 : b.getLsbD 8 = false := by
    rw [← BitVec.testBit_toNat, Nat.testBit_eq_decide_div_mod_eq]
    exact decide_eq_false (by omega)
  have h9 : b.getLsbD 9 = false := by
    rw [← BitVec.testBit_toNat, Nat.testBit_eq_decide_div_mod_eq]
    exact decide_eq_false (by omega)
  let s1 := updCore (entry x s) me fun c => { c with credits := mapPut c.credits (dest % 8) (mapGet 2 (getCore (entry x s) me).credits (dest % 8) - 1) }
  have hbody : sendBody x (entry x s) s.cur (acting s) (ops x s) = deliver s1 s.cur (acting s) x (ops x s) dest fun bs =>
      .message dest (2 * (me % 8)) bs := by
    have hspan : ownSpan me a (b.toNat % 256) = (key, len) := (ownSpan_inside me a len h18 hlen).trans (by rw [hkey])
    have hfull : storesFull (entry x s) (acting s) = false := by simp [storesFull, unacked, hnet]
    have hgrant : grantedOf (acting s) = none := by rw [grantedOf, hwait]
    have htake := takeCredit_some (entry x s) me dest hblk.symm (by rw [hwait0]; exact hcredit)
    simp only [sendBody]
    rw [show sendCheck (entry x s) s.cur (acting s).ctx (ops x s).dw (ops x s).aw (ops x s).bw = none from hcheck,
      show (ops x s).bw.getLsbD 8 = false from h8, hgrant, show ownSpan (coreOf s.cur) (ops x s).aw _ = (key, len) from hspan,
      ownBusy_free _ _ _ ((reserved_entry ..).trans hres), poisoned_entry, hpoison, hfull]
    simp only [Bool.false_and, Bool.false_eq_true, if_false]
    rw [htake]
  have hs1mem : s1.mem = s.mem := entry_mem x s
  have hdeliver : deliver s1 s.cur (acting s) x (ops x s) dest (fun bs => .message dest (2 * (me % 8)) bs) =
      .done (postPkt s1 (.core me) (.core dest) (acting s).uid s.cur (acting s).ctx
        (.message dest (2 * (me % 8)) (messageBytes s1 s.cur s.cycle a b)) none
        ((ringOf (.core me) (.core dest) (((messageBytes s1 s.cur s.cycle a b).length + 31) / 32) (hintWay x)).map fun r =>
          { r with hold := 2 }) d) := by
    have hsince : waitSince s1.cycle 0x215 (acting s) = s.cycle := by
      rw [waitSince, hwait]; exact entry_cycle x s
    have hlen16 : (messageBytes s1 s.cur s.cycle a b).length = 16 + len := (messageBytes_parts s1 s.cur s.cycle a b h8 h9).1
    simp only [deliver, hsince]
    rw [show (ops x s).bw.getLsbD 9 = false from h9, if_neg Bool.false_ne_true,
      show (messageBytes s1 s.cur s.cycle (ops x s).aw (ops x s).bw).length = 16 + len from hlen16,
      captureOwn_inside _ _ _ _ _ _ (by rw [Nat.add_sub_cancel_left]; exact hlen)]
  obtain ⟨z, hpost, htally, hznet⟩ := postPkt_flying s1 (.core me) (.core dest) (acting s).uid s.cur (acting s).ctx
    (.message dest (2 * (me % 8)) (messageBytes s1 s.cur s.cycle a b)) none
    ((ringOf (.core me) (.core dest) (((messageBytes s1 s.cur s.cycle a b).length + 31) / 32) (hintWay x)).map fun r =>
      { r with hold := 2 }) d (by rw [show s1.net = [] from (entry_net x s).trans hnet]; simp)
    (.inl (by rw [Option.isSome_map]; exact ringOf_near _ _ _ _ hne hblk))
  rw [show s1.net = [] from (entry_net x s).trans hnet, List.nil_append] at hznet
  have hrun : exec (.send x) s = .next (finishAt z s.cur) :=
    run_done 0x215 x (sendBody x) s z hc (by rw [← hpost, ← hdeliver]; exact hbody)
  obtain ⟨hlen16, htag, hlenb, hflags, hsid, hcycle, hpay⟩ := messageBytes_parts s1 s.cur s.cycle a b h8 h9
  refine ⟨z, _, messageBytes s1 s.cur s.cycle a b, hrun, ?_, hznet, rfl, rfl, rfl, fun k => ?_, ?_, hlen16, htag, hlenb, hflags,
    hsid, hcycle, fun i hi => ?_⟩
  · rw [htally.rest]; exact hs1mem
  · exact (htally.slots k).trans (getSlot_updCore _ _ _ _ fun _ => rfl)
  · obtain ⟨c1, c2, c3, hcore⟩ := htally.cores me
    have hs1 : (getCore s1 me).credits = mapPut (getCore s me).credits (dest % 8) (mapGet 2 (getCore s me).credits (dest % 8) - 1) := by
      simp only [s1, getCore_updCore, if_true, hwait0]
    rw [hcore]
    show mapGet 2 (getCore s1 me).credits _ = _
    rw [hs1, mapGet_put, if_pos rfl]
  · rw [hpay i hi, ownByte_inside _ _ _ _ (by omega), hs1mem]
    exact congrArg (fun j => readByte s.mem (j + i)) hkey

/-! ## RECV (R212, R217, R445) -/

/-- R210, R217: with no message in the inbox the time-out decides. -/
theorem recvInbox_empty (x : Args) (s : State) (sid : Nat) (t : Strand) (o : Opnds) (hwait : t.wait = none)
    (h : inboxOldest (getCore s (coreOf sid)) = none) : recvInbox x s sid t o =
      if timeOut x o = some 0 then .done (setG s sid x.d 1) else .park s 0 0 (timeOut x o) .test := by
  simp [recvInbox, waitOn, waitLeft, hwait, h]

/-- R217: the oldest message is written and its entry freed. -/
theorem recvInbox_message (x : Args) (s : State) (sid : Nat) (t : Strand) (o : Opnds) (k : Nat) (e : InEntry) (hwait : t.wait = none)
    (h : inboxOldest (getCore s (coreOf sid)) = some (k, e)) (h18 : o.aw.toNat % 2 ^ 56 < 2 ^ 18)
    (hlen : o.aw.toNat % 2 ^ 56 + e.bytes.length ≤ 2 ^ 18)
    (hres : reserved s (spadKey (coreOf sid) (o.aw.toNat % 2 ^ 56)) e.bytes.length = false) : recvInbox x s sid t o =
      .done (setG (freeEntry (writeOwn s (coreOf sid) o.aw 0 e.bytes) (coreOf sid) k) sid x.d
        (recvWord (o.aw.toNat % 2 ^ 18) (msgTag e.bytes) false (msgLen e.bytes) 0)) := by
  simp only [recvInbox, waitOn, h, Option.isSome_some, if_true, ownSpan_inside _ _ _ h18 hlen, ownBusy_free _ _ _ hres,
    captureOwn_inside _ _ _ _ _ _ hlen, Bool.false_eq_true, if_false]
  rw [show readyStatus t = 0 by simp [readyStatus, wasWithheld, hwait]]

theorem freeEntry_mem (s : State) (core n : Nat) : (freeEntry s core n).mem = s.mem := by
  unfold freeEntry
  dsimp only
  split <;> rfl

/-- Settles O46: RECV of the inbox hands out its oldest message (`recvInbox_message`), and else answers as its time-out says. -/
theorem receiveResults : Obligations.ReceiveResults := by
  intro x s n hd a c hc hwait hown hchan
  obtain ⟨hspace, h18, hal⟩ := hown
  have hcore : (getCore (entry x s) c).inbox = (getCore s c).inbox := by rw [getCore_entry]
  have hinbox : inboxOldest (getCore (entry x s) (coreOf s.cur)) = inboxOldest (getCore s c) := by
    rw [getCore_entry]; rfl
  have hbody : recvBody x (entry x s) s.cur (acting s) (ops x s) = recvInbox x (entry x s) s.cur (acting s) (ops x s) := by
    have hchan' : isChannel (entry x s) (coreOf s.cur) ((ops x s).aw.toNat % 2 ^ 18) = false := by
      rw [isChannel, getCore_entry]; exact hchan
    rw [recvBody, show (ops x s).aw >>> 56 = 0xF0 from hspace,
      show (ops x s).aw &&& 15 = 0 from and_mask_zero _ 4 (by decide) 15 rfl hal, hchan']
    simp
  have hrun : exec (.recv x) s = .next (settle 0x216 x s.cur (ops x s) (recvInbox x (entry x s) s.cur (acting s) (ops x s))) := by
    rw [← hbody]; exact run_ops 0x216 x (recvBody x) s hc rfl
  refine ⟨fun k e hold hfind hlen hres => ?_, fun hnone => ⟨fun htime => ?_, fun htime => ?_⟩⟩
  · rw [recvInbox_message x (entry x s) s.cur (acting s) (ops x s) k e hwait (hinbox.trans hold) h18 hlen
      ((reserved_entry ..).trans hres)] at hrun
    obtain ⟨hslots, hcores, hbytes⟩ := writeOwn_eq c a h18 e.bytes 0 (entry x s) hlen
    have hput : (getCore (freeEntry (writeOwn (entry x s) c a 0 e.bytes) c k) c).inbox = mapPut (getCore s c).inbox k (emptied e) := by
      rw [freeEntry_inbox, hcores, hcore, mapGet, hfind]; rfl
    refine ⟨_, hrun, fun i => ?_, ?_, fun m hm => ?_, fun i => ?_⟩
    · rw [freeEntry_mem]
      exact (hbytes i).trans (by simp only [Nat.add_zero, entry_mem]; rfl)
    · rw [hput, mapFind_put_same]; rfl
    · rw [hput, mapFind_put_other _ _ _ _ hm]
    · rw [freeEntry_slot]; exact hslots i
  · rw [recvInbox_empty _ _ _ _ _ hwait (hinbox.trans hnone), htime, if_pos rfl] at hrun
    exact hrun
  · rw [recvInbox_empty _ _ _ _ _ hwait (hinbox.trans hnone), htime, if_neg (by simp)] at hrun
    obtain ⟨hst, hmem, hstrand, -⟩ := parkAt_slot (entry x s) s.cur 0x216 0 0 none .test (some (ops x s)) (syncRegs x)
      (packWord 0x216 x)
    rw [strandAt_entry] at hstrand
    exact ⟨_, hrun, by rw [settle, hst]; decide, hmem.trans (entry_mem x s), by rw [settle, hstrand]; exact cleared_pc x _⟩

/-! ## CH.OPEN (R219) -/

/-- What tallies of packets leave of a core (R245). -/
theorem Tallied.core_objects {s z : State} (h : Tallied s z) (c : Nat) :
    (getCore z c).prods = (getCore s c).prods ∧ (getCore z c).chans = (getCore s c).chans ∧ (getCore z c).rings = (getCore s c).rings := by
  obtain ⟨a, b, t, hc⟩ := h.cores c
  rw [hc]
  exact ⟨rfl, rfl, rfl⟩

theorem Tallied.mem {s z : State} (h : Tallied s z) : z.mem = s.mem := by rw [h.rest]

theorem entry_objects (x : Args) (s : State) (c : Nat) : (getCore (entry x s) c).prods = (getCore s c).prods ∧
    (getCore (entry x s) c).chans = (getCore s c).chans ∧ (getCore (entry x s) c).rings = (getCore s c).rings := by
  rw [getCore_entry]
  exact ⟨rfl, rfl, rfl⟩

/-- The acting strand once a debt is declared where the answer says so. -/
def declared (s : State) (sid : Nat) (h : Word) (v : BitVec 512) : State :=
  if v = 0 then s else updStrand s sid fun y => addDebt y h true

theorem declared_zero (s : State) (sid : Nat) (h : Word) : declared s sid h 0 = s := if_pos rfl

theorem declared_one (s : State) (sid : Nat) (h : Word) : declared s sid h 1 = updStrand s sid fun y => addDebt y h true :=
  if_neg fun h => by simpa using congrArg (·.getLsbD 0) h

theorem updStrand_prods (s : State) (sid : Nat) (f : Strand → Strand) (c : Nat) :
    (getCore (updStrand s sid f) c).prods = (getCore s c).prods := by
  rw [updStrand, updSlot, getCore_setSlot]
  split <;> rfl

/-- R219, R283: CH.OPEN at an own header, with nothing else under way, is performed as it issues; `F` says what it does there. -/
theorem chOpen_own (x : Args) (s : State) (v : BitVec 512) (F : State → State) (hc : clear 0x2CA x s = true) (hnet : s.net = [])
    (hresv : s.resv = []) (hown : ownSpace (ops x s).aw 64) (hrole : (ops x s).bw.toNat ≤ 1)
    (hdebt : (ops x s).bw = 1 → debtFull (acting s) (spadHandle 3 (coreOf s.cur) ((ops x s).aw.toNat % 2 ^ 56)) = false)
    (hF : ∀ z p, Tallied (entry x s) z → z.net = [p] → p.uid = (acting s).uid → p.sid = s.cur →
      chanOpened z p (coreOf s.cur) ((ops x s).aw.toNat % 2 ^ 56) (ops x s).bw.toNat = performed (F z) p v)
    (hFnet : ∀ z, (F z).net = z.net) :
    ∃ z Z, Tallied (entry x s) z ∧ Tallied (F z) Z ∧ Z.net = [] ∧ exec (.chOpen x) s =
      .next (finishAt (declared Z s.cur (spadHandle 3 (coreOf s.cur) ((ops x s).aw.toNat % 2 ^ 56)) v) s.cur) := by
  obtain ⟨p, z, hask, htally, hznet, hk, hhome, huid, hsid, -, hbody, -, hbad⟩ := askObj_own (entry x s) s.cur (acting s)
    (coreOf s.cur) (.chanOpen (coreOf s.cur) ((ops x s).aw.toNat % 2 ^ 56) (ops x s).bw.toNat) none (ops x s).aw
    ((entry_net x s).trans hnet)
  have harrive : arrive true z p = performed (F z) p v := by
    rw [← hF z p htally hznet huid hsid]
    unfold arrive
    simp only [hhome, hbody]
  obtain ⟨q, Z, htake, hqbad, hqans, hZnet, hZ⟩ := performed_done (F z) p v ((hFnet z).trans hznet) hbad
  refine ⟨z, Z, htally, hZ, hZnet, run_done 0x2CA x chOpenBody s _ hc ?_⟩
  have hclear : objClear (entry x s) (.chanOpen (coreOf s.cur) ((ops x s).aw.toNat % 2 ^ 56) (ops x s).bw.toNat) = true :=
    objClear_free _ _ ((entry_resv x s).trans hresv)
  have hfull : (decide ((ops x s).bw = 1) &&
      debtFull (acting s) (spadHandle 3 (coreOf s.cur) ((ops x s).aw.toNat % 2 ^ 56))) = false := by
    by_cases h1 : (ops x s).bw = 1
    · rw [hdebt h1, Bool.and_false]
    · rw [decide_eq_false h1, Bool.false_and]
  show chOpenBody (entry x s) s.cur (acting s) (ops x s) = _
  simp only [chOpenBody, objTarget_own _ _ _ _ _ hown, ownHeld, hclear, Bool.not_true, Bool.and_false, Bool.false_eq_true, if_false,
    if_neg (Nat.not_lt.2 hrole), hfull, hask, harrive, awaitOn, ← hk, htake, hqbad, hqans]
  rfl

/-- R219: the header of a channel that a consumer opens. -/
theorem chOpen_header (s z : State) (c o sid : Nat) (hz : z.mem = (chOpen s c o sid).mem) :
    chOpenBit z c o = true ∧ chConsumer z c o = sid % 2 ^ 15 ∧ chHead z c o = 0 ∧ chTail z c o = 0 ∧ chTaken z c o = 0 ∧
    chRegistered z c o = 0 ∧ chEnded z c o = 0 ∧ chRegMap z c o = 0 ∧ chEndedMap z c o = 0 ∧ chDepth z c o = chDepth s c o ∧
    chProducers z c o = chProducers s c o ∧
    ∀ k, k < spadKey c o ∨ spadKey c o + 40 ≤ k → readByte z.mem k = readByte s.mem k := by
  let s1 := spadWrite s c (o + 4) 4 (sid % 2 ^ 15 * 2 ^ 16 + 2 ^ 31)
  let s2 := spadWrite s1 c (o + 8) 12 0
  have hmem : z.mem = (spadWrite s2 c (o + 24) 16 0).mem := hz.trans (chOpen_mem s c o sid)
  have low (o' k : Nat) (h : o' + k ≤ o + 8) : spadRead z c o' k = spadRead s1 c o' k := by
    rw [spadRead_mem _ _ hmem, spadRead_write_other _ _ _ _ _ _ _ (by omega), spadRead_write_other _ _ _ _ _ _ _ (by omega)]
  have word (o' k : Nat) (h1 : o + 4 ≤ o') (h2 : o' + k ≤ o + 8) :
      spadRead z c o' k = (sid % 2 ^ 15 * 2 ^ 16 + 2 ^ 31) / 256 ^ (o' - (o + 4)) % 256 ^ k :=
    (low o' k h2).trans (spadRead_write_in _ _ _ _ _ _ _ h1 h2)
  have mid (o' k : Nat) (h1 : o + 8 ≤ o') (h2 : o' + k ≤ o + 20) : spadRead z c o' k = 0 := by
    rw [spadRead_mem _ _ hmem, spadRead_write_other _ _ _ _ _ _ _ (by omega), spadRead_write_in _ _ _ _ _ _ _ (by omega) (by omega),
      Nat.zero_div, Nat.zero_mod]
  have high (o' k : Nat) (h1 : o + 24 ≤ o') (h2 : o' + k ≤ o + 40) : spadRead z c o' k = 0 := by
    rw [spadRead_mem _ _ hmem, spadRead_write_in _ _ _ _ _ _ _ (by omega) (by omega), Nat.zero_div, Nat.zero_mod]
  have hkey (j : Nat) : spadKey c (o + j) = spadKey c o + j := by unfold spadKey; omega
  refine ⟨?_, ?_, mid _ _ (by omega) (by omega), mid _ _ (by omega) (by omega), mid _ _ (by omega) (by omega), ?_, ?_, ?_, ?_, ?_, ?_,
    fun k hk => ?_⟩
  · rw [chOpenBit, word _ _ (by omega) (by omega), show o + 7 - (o + 4) = 3 by omega]
    exact decide_eq_true (by omega)
  · rw [chConsumer, word _ _ (by omega) (by omega), show o + 6 - (o + 4) = 2 by omega]
    omega
  · rw [chRegistered, word _ _ (by omega) (by omega), show o + 4 - (o + 4) = 0 by omega]
    omega
  · rw [chEnded, word _ _ (by omega) (by omega), show o + 5 - (o + 4) = 1 by omega]
    omega
  · rw [chRegMap, high _ _ (by omega) (by omega)]; rfl
  · rw [chEndedMap, high _ _ (by omega) (by omega)]; rfl
  · rw [chDepth, low _ _ (by omega)]; exact spadRead_write_other _ _ _ _ _ _ _ (by omega)
  · rw [chProducers, low _ _ (by omega)]; exact spadRead_write_other _ _ _ _ _ _ _ (by omega)
  · rw [hmem, readByte_spadWrite_other _ _ _ _ _ _ (by rw [hkey]; omega), readByte_spadWrite_other _ _ _ _ _ _ (by rw [hkey]; omega),
      readByte_spadWrite_other _ _ _ _ _ _ (by rw [hkey]; omega)]

/-- R219: the header of a channel at which a producer registers. -/
theorem chRegister_header (s z : State) (c o uid i : Nat) (hfree : lowestClear (chRegMap s c o) 64 = some i)
    (hroom : chRegistered s c o < chProducers s c o) (hz : z.mem = (chRegister s c o uid).mem) :
    chRegMap z c o = setBit (chRegMap s c o) i true ∧ chRegistered z c o = chRegistered s c o + 1 ∧
    ∀ k, k < spadKey c o + 4 ∨ (spadKey c o + 5 ≤ k ∧ k < spadKey c o + 32) ∨ spadKey c o + 40 ≤ k →
      readByte z.mem k = readByte s.mem k := by
  let s1 := spadWrite s c (o + 32) 8 (setBit (chRegMap s c o) i true).toNat
  have hmem : z.mem = (spadWrite s1 c (o + 4) 1 (chRegistered s c o + 1)).mem := by
    rw [hz, chRegister, hfree]; rfl
  have hbyte : chProducers s c o < 256 := readLe_lt s.mem (spadKey c (o + 2)) 1
  have hkey (j : Nat) : spadKey c (o + j) = spadKey c o + j := by unfold spadKey; omega
  refine ⟨?_, ?_, fun k hk => ?_⟩
  · rw [chRegMap, spadRead_mem _ _ hmem, spadRead_write_other _ _ _ _ _ _ _ (by omega),
      spadRead_write_in _ _ _ _ _ _ _ (by omega) (by omega), Nat.sub_self, Nat.pow_zero, Nat.div_one,
      Nat.mod_eq_of_lt ((setBit (chRegMap s c o) i true).isLt.trans_eq (by norm_num))]
    exact BitVec.eq_of_toNat_eq (by simp)
  · rw [chRegistered, spadRead_mem _ _ hmem, spadRead_write_in _ _ _ _ _ _ _ (by omega) (by omega)]
    simp only [Nat.sub_self, Nat.pow_zero, Nat.div_one]
    omega
  · rw [hmem, readByte_spadWrite_other _ _ _ _ _ _ (by rw [hkey]; omega), readByte_spadWrite_other _ _ _ _ _ _ (by rw [hkey]; omega)]

theorem performed_net (s : State) (p : Pkt) (v : BitVec 512) (hn : s.net = [p]) :
    (performed s p v).net = [{ toSource p with ans := v }] := by
  rw [performed, countRecv_net, updPkt, hn]
  simp [updFirst]

/-- R219: the producer table after a registration. -/
theorem prodBit_append (c : Core) (l : List (Nat × Nat × Nat)) (o uid i : Nat) (hl : c.prods = l ++ [(o, i, uid)])
    (h : (l.find? fun e => e.1 == o && e.2.2 == uid) = none) : prodBit c o uid = some i := by
  rw [prodBit, hl, List.find?_append, h]
  simp

/-- Settles O47: what CH.OPEN does at the header (`chOpen_header`, `chRegister_header`), performed as it issues (`chOpen_own`). -/
theorem channelOpenResults : Obligations.ChannelOpenResults := by
  intro x s a c o h hc hnet hresv hown
  have hmem {z : State} (hz : Tallied (entry x s) z) : z.mem = s.mem := hz.mem.trans (entry_mem x s)
  have hbit {z : State} (hz : Tallied (entry x s) z) : chOpenBit z c o = chOpenBit s c o := by
    rw [chOpenBit, spadRead_mem _ _ (hmem hz)]; rfl
  have hprods {z : State} (hz : Tallied (entry x s) z) (u : Nat) : prodBit (getCore z c) o u = prodBit (getCore s c) o u := by
    rw [prodBit, (hz.core_objects c).1, (entry_objects x s c).1]; rfl
  refine ⟨fun hrole hopen hreg hdebt => ?again, fun hrole hshut hlen => ?consumer, fun i hrole hopen hnew hroom hdebt hfree => ?producer⟩
  case again =>
    have hrole' : (ops x s).bw.toNat = 1 := by rw [hrole]; rfl
    obtain ⟨z, Z, hz, hZ, hZnet, hrun⟩ := chOpen_own x s 0 (fun z => z) hc hnet hresv hown hrole'.le (fun _ => hdebt)
      (fun z p hz _ huid _ => by
        rw [hrole', chanOpened, if_neg (by decide), if_pos ((hbit hz).trans hopen), chanRegister, huid,
          if_pos (by rw [hprods hz]; exact hreg)]) (fun _ => rfl)
    rw [declared_zero] at hrun
    exact ⟨_, hrun, hZ.mem.trans (hmem hz), hZnet, fun k => (hZ.slots k).trans (hz.slots k)⟩
  case consumer =>
    have hrole' : (ops x s).bw.toNat = 0 := by rw [hrole]; rfl
    obtain ⟨z, Z, hz, hZ, hZnet, hrun⟩ := chOpen_own x s 0 (fun z => chOpen z c o s.cur) hc hnet hresv hown (by omega)
      (fun h1 => by rw [hrole] at h1; exact absurd h1 (by decide))
      (fun z p hz hznet huid hsid => by
        have hcan : chCanOpen z c o = true := by
          rw [chCanOpen, hbit hz, hshut, (hz.core_objects c).2.1, (entry_objects x s c).2.1]
          exact decide_eq_true hlen
        have hwaits : ((performed (chOpen z c o s.cur) p 0).net.filter fun q => q.st == .waiting && q.body == .chanOpen c o 1) = [] := by
          rw [performed_net _ _ _ ((chOpen_net z c o s.cur).trans hznet)]
          rfl
        rw [hrole', chanOpened, if_pos (show ((0 : Nat) == 0) = true from rfl), hsid,
          show chCanOpen z (coreOf s.cur) _ = true from hcan, if_neg (by simp)]
        exact congrArg (List.foldl _ _) hwaits) (fun z => chOpen_net ..)
    rw [declared_zero] at hrun
    obtain ⟨h1, h2, h3, h4, h5, h6, h7, h8, h9, h10, h11, h12⟩ := chOpen_header z Z c o s.cur hZ.mem
    refine ⟨_, hrun, h1, h2, h3, h4, h5, h6, h7, h8, h9, ?_, ?_, fun k hk => (h12 k hk).trans (by rw [hmem hz]), ?_, hZnet,
      fun k => (hZ.slots k).trans ((chOpen_slot ..).trans (hz.slots k))⟩
    · exact h10.trans (spadRead_mem _ _ (hmem hz) ..)
    · exact h11.trans (spadRead_mem _ _ (hmem hz) ..)
    · show (chanReg (getCore Z c) o).isSome = true
      rw [chanReg, (hZ.core_objects c).2.1, chOpen, getCore_updCore, if_pos rfl]
      simp
  case producer =>
    have hrole' : (ops x s).bw.toNat = 1 := by rw [hrole]; rfl
    have hmap {z : State} (hz : Tallied (entry x s) z) : chRegMap z c o = chRegMap s c o := by
      rw [chRegMap, spadRead_mem _ _ (hmem hz)]; rfl
    have hcount {z : State} (hz : Tallied (entry x s) z) : chRegistered z c o = chRegistered s c o := spadRead_mem _ _ (hmem hz) ..
    have hprod {z : State} (hz : Tallied (entry x s) z) : chProducers z c o = chProducers s c o := spadRead_mem _ _ (hmem hz) ..
    obtain ⟨z, Z, hz, hZ, hZnet, hrun⟩ := chOpen_own x s 1 (fun z => chRegister z c o (acting s).uid) hc hnet hresv hown hrole'.le
      (fun _ => hdebt)
      (fun z p hz _ huid _ => by
        rw [hrole', chanOpened, if_neg (by decide), if_pos ((hbit hz).trans hopen), chanRegister, huid,
          if_neg (by rw [hprods hz, hnew]; decide), if_neg (by rw [hprod hz, hcount hz]; omega)]) (fun z => chRegister_net ..)
    rw [declared_one] at hrun
    obtain ⟨h1, h2, h3⟩ := chRegister_header z Z c o (acting s).uid i (by rw [hmap hz]; exact hfree)
      (by rw [hprod hz, hcount hz]; exact hroom) hZ.mem
    refine ⟨_, hrun, h1.trans (by rw [hmap hz]), h2.trans (by rw [hcount hz]), ?_, ?_, hZnet, fun k hk => (h3 k hk).trans (by rw [hmem hz])⟩
    · refine prodBit_append _ (getCore z c).prods o (acting s).uid i ?_ ?_
      · rw [updStrand_prods, (hZ.core_objects c).1, chRegister, hmap hz, hfree]
        exact congrArg Core.prods ((getCore_updCore ..).trans (if_pos rfl))
      · have := hprods hz (acting s).uid
        rw [hnew, prodBit, Option.map_eq_none_iff] at this
        exact this
    · rw [strandAt_updStrand_same]
      exact owes_addDebt _ _

/-! ## PUTR, FEC, FEQ, OWE and UNOWE (R221, R222, R231, R232) -/

theorem ownsBlk_entry (x : Args) (s : State) (ctx b : Nat) : ownsBlk (entry x s) ctx b = ownsBlk s ctx b := by
  rw [ownsBlk, ownsBlk, getHub_entry]

theorem putForeign_entry (x : Args) (s : State) (ctx a : Nat) : putForeign (entry x s) ctx a = putForeign s ctx a := by
  obtain ⟨honly, hslot⟩ := entry_only x s
  by_cases h : a = s.cur
  · have hctx : (cleared x (acting s)).ctx = (getSlot s s.cur).s.ctx := cleared_ctx x _
    simp only [putForeign, h, hslot, ownsBlk_entry, hctx]
  · simp only [putForeign, honly.slots a h, ownsBlk_entry]

/-- R221: PUTR with nothing unacknowledged posts its packet, a release at the scope of the device. -/
theorem putr_done (x : Args) (s : State) (hnet : s.net = []) (hb : 0 < (ops x s).bw.toNat) (hb64 : (ops x s).bw.toNat < 64)
    (hforeign : putForeign s (acting s).ctx ((ops x s).aw.toNat % 2 ^ 15) = false) :
    putrBody (entry x s) s.cur (acting s) (ops x s) = .done (updStrand (postPkt (entry x s) (.core (coreOf s.cur))
      (.core (coreOf ((ops x s).aw.toNat % 2 ^ 15))) (acting s).uid s.cur (acting s).ctx
      (.putr ((ops x s).aw.toNat % 2 ^ 15) (ops x s).bw.toNat (ops x s).dw s.cur) (some .dev) none 0) s.cur
      fun z => dropDebt z (regHandle ((ops x s).aw.toNat % 2 ^ 15) (.g (ops x s).bw.toNat))) := by
  have howe : owesAck s (acting s).uid s.cur .dev = false := by simp [owesAck, unacked, hnet]
  have hforeign' : putForeign (entry x s) (acting s).ctx ((ops x s).aw.toNat % 2 ^ 15) = false :=
    (putForeign_entry ..).trans hforeign
  rw [putrBody, hforeign', owesAck_entry, howe, Nat.mod_eq_of_lt hb64, Nat.div_eq_of_lt hb64]
  have h0 : decide ((ops x s).bw.toNat = 0) = false := decide_eq_false (by omega)
  simp only [h0, bne_self_eq_false, Bool.or_false, Bool.false_eq_true, if_false]

/-- R222: FEC empties one register and clears its tag. -/
theorem emptied_flags (x : Args) (t : Strand) (q r : RegRef) (hr : inFile r = true) :
    let u := endWait (endCheck (setTag (setFull (cleared x t) q false) q false))
    fullOf u r = (r == .g 0 || (fullOf t r && !(syncRegs x).contains r && r != q)) ∧
    tagOf u r = (tagOf t r && (r == .g 0 || r != q)) := by
  intro u
  obtain ⟨hfull, htag, -⟩ := endCheck_flags (setTag (setFull (cleared x t) q false) q false) r
  refine ⟨hfull.trans ?_, htag.trans ?_⟩
  · rw [(setTag_rest _ q false).1, fullOf_setFull _ _ _ _ hr, fullOf_cleared x t r hr]
    by_cases h : r = q
    · simp [h]
    · cases hg : (r == RegRef.g 0) <;> simp [h]
  · rw [tagOf_setTag _ _ _ hr, tagOf_setFull, tagOf_cleared]

/-- Settles O48: PUTR posts one packet (`postPkt_flying`); the other forms change the acting strand only. -/
theorem registerFlagResults : Obligations.RegisterFlagResults := by
  intro x s u a b
  refine ⟨fun hc hnet hprompt hb hb64 hforeign => ?putr, fun hc hcopy hfile => ?fec, fun n hd hc hsync => ?feq,
    fun hbad => ⟨fun hc hdebt => ?owe, fun hc => ?unowe⟩⟩
  case putr =>
    obtain ⟨z, hpost, htally, hznet⟩ := postPkt_flying (entry x s) (.core (coreOf s.cur)) (.core (coreOf (a.toNat % 2 ^ 15)))
      (acting s).uid s.cur (acting s).ctx (.putr (a.toNat % 2 ^ 15) b.toNat (ops x s).dw s.cur) (some .dev) none 0
      (by rw [entry_net, hnet]; simp) (.inr ((entry_prompt x s).trans hprompt))
    rw [entry_net, hnet, List.nil_append] at hznet
    have hbody := putr_done x s hnet hb hb64 hforeign
    rw [show postPkt (entry x s) _ _ _ _ _ _ _ _ _ = z from hpost] at hbody
    refine ⟨_, _, run_done 0x217 x putrBody s _ hc hbody, hznet, rfl, rfl, rfl, rfl, htally.mem.trans (entry_mem x s), ?_, fun i hi => ?_⟩
    · rw [strandAt_updStrand_same, strandAt, htally.slots]
      exact congrArg (dropDebt · _) (strandAt_entry x s)
    · rw [getSlot_updStrand, if_neg hi, htally.slots]
      exact (entry_only x s).1.slots i hi
  case fec =>
    have hbody : fecBody x (entry x s) s.cur (acting s) (ops x s) =
        .done (updStrand (entry x s) s.cur fun z => setTag (setFull z (flagReg x.d) false) (flagReg x.d) false) := by
      rw [fecBody, hcopy, if_neg Bool.false_ne_true]
    obtain ⟨honly, hslot⟩ := finishAt_leaves x s fun z => setTag (setFull z (flagReg x.d) false) (flagReg x.d) false
    have hstrand := congrArg Slot.s hslot
    refine ⟨_, run_done 0x218 x (fecBody x) s _ hc hbody, honly, fun r hr => ?_, fun m => ?_, fun m => ?_⟩
    · rw [strandAt, hstrand]; exact emptied_flags x (acting s) (flagReg x.d) r hr
    · rw [strandAt, hstrand, endCheck_reads, (setTag_rest _ _ _).2.1, readG_setFull, readG_cleared]
    · rw [strandAt, hstrand, (endCheck_flags _ (.g 0)).2.2, (setTag_rest _ _ _).2.2, readV_setFull, readV_cleared]
  case feq =>
    have hentry : entry x s = s := by rw [entry, clearSync, hsync]; rfl
    exact run_setG 0x219 x _ s n _ hc hd (by rw [hentry]; rfl)
  case owe =>
    have hbody : oweBody (entry x s) s.cur (acting s) (ops x s) = .done (updStrand (entry x s) s.cur fun z => addDebt z a false) := by
      rw [oweBody, show handleBad (ops x s).aw = false from hbad, show debtFull (acting s) (ops x s).aw = false from hdebt]
      rfl
    refine ⟨_, run_done 0x2CF x oweBody s _ hc hbody, ?_⟩
    have hleaves := finishAt_leaves x s fun z => addDebt z a false
    have hdebts : addDebt u a false = { u with debts := if owes (acting s) a then u.debts else u.debts ++ [{ handle := a, implicit := false }] } := by
      have howes : owes u a = owes (acting s) a := by rw [owes, owes, cleared_debts]
      rw [← howes, addDebt, owes]
      split <;> rfl
    rw [← hdebts]
    exact hleaves
  case unowe =>
    have hbody : unoweBody (entry x s) s.cur (acting s) (ops x s) = .done (updStrand (entry x s) s.cur fun z =>
        { z with debts := z.debts.filter fun d => d.handle != a || d.implicit }) := by
      rw [unoweBody, show handleBad (ops x s).aw = false from hbad]
      rfl
    exact ⟨_, run_done 0x2D0 x unoweBody s _ hc hbody, finishAt_leaves x s _⟩

end Sys2Proof.Machine
end

section
/-! SUPPORT. Hardware barriers (R225 to R227, R391, R392), and the theorem that settles the statement. -/

namespace Sys2Proof.Machine
open Sys2Proof

theorem getHb_entry (x : Args) (s : State) (b i : Nat) : getHb (entry x s) b i = getHb s b i := by
  rw [getHb, getHb, getHub_entry]

/-- R226: with no packet under way a strand is a member exactly when it has an entry. -/
theorem hbMember_quiet (s : State) (b i uid : Nat) (hnet : s.net = []) : hbMember s b i uid = (hbEntry (getHb s b i) uid).isSome := by
  simp [hbMember, hbInFlight, hnet]

theorem hbForeign_own {h : HBar} {ctx : Nat} (halloc : h.alloc = true) (hctx : h.ctx = ctx) : hbForeign h ctx = false := by
  simp [hbForeign, halloc, hctx]

/-- R392: what a request to a barrier of the own block does, posted after a change of the acting strand, with nothing else under
way (`postHub_now`). -/
theorem postHub_own (x : Args) (s : State) (f : Strand → Strand) (i op : Nat) (v : Option (BitVec 32)) (sc : Option Scope)
    (hnet : s.net = []) (hresv : s.resv = []) (hserved : s.served = []) (hprompt : s.prompt = true)
    (hscope : sc = none ∨ sc = some .dev) :
    let b := blkOf s.cur
    let h := getHb s b i
    let z := postHub (updStrand (entry x s) s.cur f) s.cur (acting s) (.hb b i op v) sc
    z.mem = s.mem ∧ strandAt z s.cur = f (cleared x (acting s)) ∧ (∀ j, j ≠ i → getHb z b j = getHb s b j) ∧
    getHb z b i = (match op with | 0 => hbArrive h (acting s).uid v | 1 => hbLeave h (acting s).uid | _ => hbJoin h (acting s).uid) := by
  intro b h z
  have hin : ∀ c, sc = some c → inScope s.cur c (.hub (blkOf s.cur)) = true := by
    intro c hc
    rcases hscope with h0 | h0
    · rw [h0] at hc; exact absurd hc (by simp)
    · rw [h0] at hc; cases hc; rfl
  obtain ⟨hmem, hhb, hothers, hslots⟩ := postHub_now (updStrand (entry x s) s.cur f) s.cur (acting s) b i op v sc
    ((entry_net x s).trans hnet) ((entry_resv x s).trans hresv) ((entry_served x s).trans hserved)
    ((entry_prompt x s).trans hprompt) hin
  have hget (j : Nat) : getHb (updStrand (entry x s) s.cur f) b j = getHb s b j := getHb_entry x s b j
  refine ⟨hmem.trans (entry_mem x s), ?_, fun j hj => (hothers j hj).trans (hget j), ?_⟩
  · rw [strandAt, hslots, ← strandAt, strandAt_updStrand_same, strandAt_entry]
  · rw [hget i] at hhb; exact hhb

/-- R392: the test of a barrier. -/
theorem hbTest_eq (h : HBar) : hbTest h = if h.moved = true ∧ h.mem &&& ~~~ h.arr = 0 then
    { h with arr := 0, kept := 0, phase := h.phase + 1, acc := combineId h.code, moved := false
             result := if h.code = 0 then 0 else h.acc }
    else { h with moved := false } := by
  simp only [hbTest, Bool.and_eq_true, beq_iff_eq]

theorem hbArrivedIn_setArrived (t : Strand) (b i : Nat) (p : BitVec 16) : hbArrivedIn (setArrived t b i (some p)) b i = some p := by
  have h : ((t.arrived.filter fun e => e.1 != hbKey b i).find? fun e => e.1 == hbKey b i) = none := by
    rw [List.find?_eq_none]
    intro e he
    simpa using (List.mem_filter.1 he).2
  simp [hbArrivedIn, setArrived, List.find?_append, h]

/-- R226: HB.JOIN of a strand that is no member, with an entry and a debt free. -/
theorem hbJoinBody_done (s : State) (sid : Nat) (t : Strand) (o : Opnds)
    (hforeign : hbForeign (getHb s (blkOf sid) (hbIdx o)) t.ctx = false) (hmember : hbMember s (blkOf sid) (hbIdx o) t.uid = false)
    (hroom : bitCount (hbUsed (getHb s (blkOf sid) (hbIdx o))) 128 + (hbInFlight s (blkOf sid) (hbIdx o) 2).length < 128)
    (hdebt : debtFull t (hbHandle (blkOf sid) (hbIdx o)) = false) : hbJoinBody s sid t o =
      .done (postHub (updStrand s sid fun z => addDebt z (hbHandle (blkOf sid) (hbIdx o)) true) sid t
        (.hb (blkOf sid) (hbIdx o) 2 none) none) := by
  simp [hbJoinBody, hforeign, hmember, Nat.not_le.2 hroom, hdebt]

/-- R226: HB.ARRIVE of a member that has not arrived in the phase, with nothing unacknowledged. -/
theorem hbArriveBody_done (x : Args) (s : State) (sid : Nat) (t : Strand) (o : Opnds)
    (hforeign : hbForeign (getHb s (blkOf sid) (hbIdx o)) t.ctx = false) (hmember : hbMember s (blkOf sid) (hbIdx o) t.uid = true)
    (hphase : hbArrivedIn t (blkOf sid) (hbIdx o) ≠ some (getHb s (blkOf sid) (hbIdx o)).phase)
    (howe : owesAck s t.uid sid .dev = false) : hbArriveBody x s sid t o =
      .done (postHub (updStrand s sid fun z => setArrived z (blkOf sid) (hbIdx o) (some (getHb s (blkOf sid) (hbIdx o)).phase)) sid t
        (.hb (blkOf sid) (hbIdx o) 0 (if x.b = .none then none else some (o.bw.setWidth 32))) (some .dev)) := by
  simp [hbArriveBody, hforeign, hmember, hphase, howe]

/-- R227: HB.WAIT of a member whose awaited phase is complete. -/
theorem hbWaitBody_done (x : Args) (s : State) (sid : Nat) (t : Strand) (o : Opnds) (p : BitVec 16) (hwait : t.wait = none)
    (hforeign : hbForeign (getHb s (blkOf sid) (hbIdx o)) t.ctx = false) (hmember : hbMember s (blkOf sid) (hbIdx o) t.uid = true)
    (harr : hbArrivedIn t (blkOf sid) (hbIdx o) = some p) (hp : p ≠ (getHb s (blkOf sid) (hbIdx o)).phase) :
    hbWaitBody x s sid t o =
      .done (setG s sid x.d (BitVec.ofNat 64 ((getHb s (blkOf sid) (hbIdx o)).result.toNat * 2 ^ 32))) := by
  have hready : ((getHb s (blkOf sid) (hbIdx o)).phase != p) = true := bne_iff_ne.2 hp.symm
  simp [hbWaitBody, grantedOf, hwait, hforeign, hbAwaited, hmember, harr, waitOn, hready, readyStatus, wasWithheld]

/-- R226: HB.LEAVE of a member with nothing unacknowledged. -/
theorem hbLeaveBody_done (s : State) (sid : Nat) (t : Strand) (o : Opnds)
    (hforeign : hbForeign (getHb s (blkOf sid) (hbIdx o)) t.ctx = false) (hmember : hbMember s (blkOf sid) (hbIdx o) t.uid = true)
    (howe : owesAck s t.uid sid .dev = false) : hbLeaveBody s sid t o =
      .done (postHub (updStrand s sid fun z => setArrived (dropDebt z (hbHandle (blkOf sid) (hbIdx o))) (blkOf sid) (hbIdx o) none)
        sid t (.hb (blkOf sid) (hbIdx o) 1 none) (some .dev)) := by
  simp [hbLeaveBody, hforeign, hmember, howe]

/-- R226: HB.FREE of a barrier without members and waiters, with nothing under way. -/
theorem hbFreeBody_done (s : State) (sid : Nat) (t : Strand) (o : Opnds) (hnet : s.net = [])
    (hforeign : hbForeign (getHb s (blkOf sid) (hbIdx o)) t.ctx = false) (hmem : (getHb s (blkOf sid) (hbIdx o)).mem = 0)
    (hwaiters : hbWaiters s (blkOf sid) (hbIdx o) = 0) :
    hbFreeBody s sid t o = .done (setHb s (blkOf sid) (hbIdx o) HBar.init) := by
  simp [hbFreeBody, drained, unacked, hnet, hforeign, hmem, hwaiters, hbInFlight]

/-- Settles O49: each form is one event at the barrier (`postHub_own`), or a change of it or of gd. -/
theorem hardwareBarrierResults : Obligations.HardwareBarrierResults := by
  intro x s b t i h ends others
  refine ⟨fun n k hd hc hk hfree hbelow => ?alloc, fun n hd hc hall => ?allocNone, ?settle,
    fun hnet hresv hserved hprompt halloc hctx => ?forms⟩
  case alloc =>
    have hfind : ((List.range 32).find? fun j => !(getHb (entry x s) b j).alloc) = some k :=
      find_range_first _ 32 k hk (by simp [getHb_entry, hfree]) fun j hj => by simp [getHb_entry, hbelow j hj]
    let code := if x.a = .none then 0 else (ops x s).aw.toNat
    refine ⟨setHb (entry x s) b k { HBar.init with alloc := true, ctx := t.ctx, code := code, acc := combineId code }, code,
      run_done 0x2C0 x (hbAllocBody x) s _ hc ?_, rfl, fun j hj => ?_, ?_⟩
    · show hbAllocBody x (entry x s) s.cur (acting s) (ops x s) = _
      simp only [hbAllocBody]
      rw [hfind]
      simp only [beq_iff_eq]
      rfl
    · rw [getHb_setHb, if_neg hj, getHb_entry]
    · rw [getHb_setHb, if_pos rfl]
  case allocNone =>
    have hfind : ((List.range 32).find? fun j => !(getHb (entry x s) b j).alloc) = none := by
      rw [List.find?_eq_none]
      intro j hj
      simp [getHb_entry, hall j (List.mem_range.1 hj)]
    refine run_setG 0x2C0 x (hbAllocBody x) s n 6 hc hd ?_
    simp only [hbAllocBody]
    rw [hfind]
  case settle =>
    obtain ⟨hmem, -, hnew, hothers, -⟩ := settleBarrier_rest s b i
    exact ⟨hmem, hothers, hnew.trans (hbTest_eq h)⟩
  case forms =>
    have hforeign : hbForeign (getHb (entry x s) b i) t.ctx = false := by
      rw [getHb_entry]; exact hbForeign_own halloc hctx
    have hmember : hbMember (entry x s) b i t.uid = (hbEntry h t.uid).isSome := by
      rw [hbMember_quiet _ _ _ _ ((entry_net x s).trans hnet), getHb_entry]
    have howe : owesAck (entry x s) t.uid s.cur .dev = false := by
      rw [owesAck_entry]; simp [owesAck, unacked, hnet]
    have hflight (op : Nat) : hbInFlight (entry x s) b i op = [] := by simp [hbInFlight, hnet]
    have post (f : Strand → Strand) (op : Nat) (v : Option (BitVec 32)) (sc : Option Scope) (hsc : sc = none ∨ sc = some .dev) :=
      postHub_own x s f i op v sc hnet hresv hserved hprompt hsc
    refine ⟨fun e hc hnew hfree hroom hdebt => ?join, fun e hc hent hphase => ?arrive, fun n p hd hc hwait hent harr hp => ?wait,
      fun e hc hent => ?leave, fun hc hmem hwaiters => ?free⟩
    case join =>
      obtain ⟨hmem, hstrand, hothers, hhb⟩ := post (fun z => addDebt z (hbHandle b i) true) 2 none none (.inl rfl)
      rw [hnew] at hmember
      have hroom' : bitCount (hbUsed (getHb (entry x s) b i)) 128 + (hbInFlight (entry x s) b i 2).length < 128 := by
        rw [hflight, getHb_entry]; exact hroom
      refine ⟨_, run_done 0x2C1 x hbJoinBody s _ hc (hbJoinBody_done _ _ _ _ hforeign hmember hroom' hdebt), hmem, ?_, hothers,
        hhb.trans ?_⟩
      · exact (congrArg (owes · (hbHandle b i)) hstrand).trans (owes_addDebt _ _)
      · show hbJoin h t.uid = _
        rw [hbJoin, hfree]
    case arrive =>
      obtain ⟨hmem, hstrand, hothers, hhb⟩ := post (fun z => setArrived z b i (some (getHb (entry x s) b i).phase)) 0
        (if x.b = .none then none else some ((ops x s).bw.setWidth 32)) (some .dev) (.inr rfl)
      rw [hent] at hmember
      refine ⟨_, run_done 0x2C2 x (hbArriveBody x) s _ hc (hbArriveBody_done x _ _ _ _ hforeign hmember
        (by rw [getHb_entry]; exact hphase) howe), hmem, ?_, hothers, hhb.trans ?_⟩
      · exact (congrArg (hbArrivedIn · b i) hstrand).trans ((hbArrivedIn_setArrived ..).trans (by rw [getHb_entry]))
      · show hbArrive h t.uid _ = _
        rw [hbArrive, hent]
        by_cases hb : x.b = .none
        · simp only [hb, if_true]; rfl
        · simp only [hb, if_false]; rfl
    case wait =>
      have hsome : (hbEntry h t.uid).isSome = true := Option.isSome_iff_ne_none.2 hent
      refine run_setG 0x2C3 x (hbWaitBody x) s n _ hc hd ?_
      exact (hbWaitBody_done x (entry x s) s.cur t (ops x s) p hwait hforeign (hmember.trans hsome) harr
        (by rw [getHb_entry]; exact hp)).trans (by rw [getHb_entry]; rfl)
    case leave =>
      obtain ⟨hmem, hstrand, hothers, hhb⟩ := post (fun z => setArrived (dropDebt z (hbHandle b i)) b i none) 1 none (some .dev)
        (.inr rfl)
      rw [hent] at hmember
      refine ⟨_, run_done 0x2C4 x hbLeaveBody s _ hc (hbLeaveBody_done _ _ _ _ hforeign hmember howe), hmem, ?_, hothers,
        hhb.trans ?_⟩
      · exact (congrArg (owes · (hbHandle b i)) hstrand).trans (owes_dropDebt _ _)
      · show hbLeave h t.uid = _
        rw [hbLeave, hent]
    case free =>
      refine ⟨setHb (entry x s) b i HBar.init, run_done 0x2C5 x hbFreeBody s _ hc (hbFreeBody_done _ _ _ _ ((entry_net x s).trans hnet)
        hforeign (by rw [getHb_entry]; exact hmem) hwaiters), entry_mem x s, ?_, fun j hj => ?_, fun k => rfl⟩
      · rw [getHb_setHb, if_pos rfl]
      · rw [getHb_setHb, if_neg hj, getHb_entry]

end Sys2Proof.Machine
end

section
/-! SUPPORT. Submissions to the engine queues (R233, R234, R253), and the theorem that settles the statement. -/

namespace Sys2Proof.Machine
open Sys2Proof

theorem grantedOf_none {t : Strand} (hwait : t.wait = none) : grantedOf t = none := by simp [grantedOf, hwait]

theorem owesAck_quiet {s : State} (uid sid : Nat) (sc : Scope) (hnet : s.net = []) : owesAck s uid sid sc = false := by
  simp [owesAck, unacked, hnet]

theorem takePorts_net (cls : Nat) : ∀ (xs : List Served) (s : State), (takePorts s cls xs).net = s.net
  | [], _ => rfl
  | x :: xs, s => by
    have hone : (takePorts s cls [x]).net = s.net := by
      cases x
      case bank c b => exact useBanks_net s c cls [b]
      all_goals rfl
    exact (takePorts_net cls xs (takePorts s cls [x])).trans hone

theorem readBlock_cell_kept (z : State) (sid : Nat) (t : Strand) (ea : Word) (k d q : Nat)
    (hresv : reserved z k 64 = false) (hgot : gotIn (strandAt z sid) = [])
    (htarget : target z sid t.ctx .read tableSpaces false ea 16 = .cell (.quay d q) k)
    (hclear : portClear z (coreOf sid) t.uid (.quay d q) = true) (hfree : portsFree z 0 (keyPorts z k 64) = true)
    (hpoison : poisoned z k 64 = false) :
    ∃ y, readBlock z sid t tableSpaces ea 64 = .ok y (readBytes z.mem k 64) ∧ y.resv = z.resv ∧ y.mem = z.mem ∧ y.net = z.net ∧ y.hubs = z.hubs ∧
      (∀ i, i ≠ sid → getSlot y i = getSlot z i) ∧ { strandAt y sid with wait := none } = { strandAt z sid with wait := none } := by
  have hports := tallied_takePorts 0 (keyPorts z k 64) z
  have hstrand : strandAt (takePorts z 0 (keyPorts z k 64)) sid = strandAt z sid := by rw [strandAt, strandAt, hports.slots]
  refine ⟨_, readBlock_cell z sid t tableSpaces ea 64 k d q htarget hgot hclear hfree hresv hpoison,
    (congrArg State.resv hports.rest : _), hports.mem, takePorts_net 0 _ z, (congrArg State.hubs hports.rest : _), fun i hi => ?_, ?_⟩
  · rw [setGot, getSlot_updStrand, if_neg hi, hports.slots]
  · rw [setGot, strandAt_updStrand_same, hstrand]

/-- R351: the promise of a submission: a copy that waits on no trigger has one. -/
def promiseOf (s : State) (b q : Nat) (w : Submit) : Option Nat :=
  if w.kind == .copy && w.trig.isNone then promiseFor s b w.ctx (queueOf s b q).jobs w.cmd (w.descs.getD 0 0) (w.descs.getD 1 0) else none

/-- R233, R257: the entry that a submission makes. -/
def entryOf (s : State) (b q : Nat) (w : Submit) : Job :=
  { seq := (queueOf s b q).next % 2 ^ 28, kind := w.kind, cmd := w.cmd, descs := w.descs, state := if w.trig.isSome then 1 else 0
    status := 0, detail := 0, trig := w.trig, promise := promiseOf s b q w, missed := false, sid := w.sid, ctx := w.ctx, halted := false
    progress := 0, stopping := false, mask := 0, parts := [], goal := 0, redo := [], lapsed := false }

/-- R348: a queue with an entry more at its tail. -/
def pushJob (old : Queue) (j : Job) : Queue := { old with next := old.next + 1, jobs := old.jobs ++ [j] }

/-- What a submission of block b leaves, but for queue q and the counter of its trigger. -/
structure Entered (s z : State) (b q : Nat) (new : Queue) : Prop where
  mem : z.mem = s.mem
  net : z.net = s.net
  slots : ∀ k, getSlot z k = getSlot s k
  queue : queueOf z b q = new
  others : ∀ r, r < 3 → r ≠ q → queueOf z b r = queueOf s b r

theorem getTc_updQ (s : State) (b q i : Nat) (f : Queue → Queue) : getTc (updQ s b q f) b i = getTc s b i := by
  simp only [getTc, updQ, updHub, getHub, setHub, mapGet_put, if_true]
  rw [setQ]
  split
  · rfl
  · split <;> rfl

theorem queueOf_updTc (s : State) (b i r : Nat) (f : TCtr → TCtr) : queueOf (updTc s b i f) b r = queueOf s b r := by
  simp only [queueOf, updTc, updHub, getHub, setHub, mapGet_put, if_true]
  rfl

/-- R233, R257, R356: a submission with no reserved field enters its queue; it is registered with its command's counter at once, or
moves the counter of its trigger. -/
theorem enterSubmit_eq (s : State) (b q : Nat) (w : Submit) (hgood : w.bad = false) : enterSubmit s b q w =
    (packSeq ((queueOf s b q).next % 2 ^ 28) (promiseOf s b q w), match w.trig with
      | none => tcRegister (updQ s b q fun x => pushJob x (entryOf s b q w)) b w.cmd
      | some (i, _) => tcMoved (updQ s b q fun x => pushJob x (entryOf s b q w)) b i) := by
  cases htrig : w.trig <;> simp [enterSubmit, enterJob, hgood, htrig, promiseOf, entryOf, pushJob]

theorem enterSubmit_entered (s : State) (b q : Nat) (w : Submit) (hq : q < 3) (hgood : w.bad = false) :
    Entered s (enterSubmit s b q w).2 b q (pushJob (queueOf s b q) (entryOf s b q w)) := by
  have hsame : queueOf (updQ s b q fun x => pushJob x (entryOf s b q w)) b q = pushJob (queueOf s b q) (entryOf s b q w) := by
    rw [queueOf_updQ _ _ _ _ _ hq hq, if_pos rfl]
  have hother (r : Nat) (hr : r < 3) (hne : r ≠ q) : queueOf (updQ s b q fun x => pushJob x (entryOf s b q w)) b r = queueOf s b r := by
    rw [queueOf_updQ _ _ _ _ _ hq hr, if_neg hne]
  rw [enterSubmit_eq s b q w hgood]
  cases w.trig with
  | none =>
    obtain ⟨hmem, hnet, hslots⟩ := tcRegister_rest (updQ s b q fun x => pushJob x (entryOf s b q w)) b w.cmd
    exact ⟨hmem, hnet, hslots, (queueOf_tcRegister ..).trans hsame, fun r hr hne => (queueOf_tcRegister ..).trans (hother r hr hne)⟩
  | some c =>
    exact ⟨rfl, rfl, fun _ => rfl, (queueOf_updTc ..).trans hsame, fun r hr hne => (queueOf_updTc ..).trans (hother r hr hne)⟩

/-- R356: the counter of a triggered entry is moved. -/
theorem enterSubmit_trig (s : State) (b q : Nat) (w : Submit) (hgood : w.bad = false) (i : Nat) (n : BitVec 48)
    (htrig : w.trig = some (i, n)) : getTc (enterSubmit s b q w).2 b i = { getTc s b i with moved := true } := by
  rw [enterSubmit_eq s b q w hgood, htrig]
  refine (getTc_updTc _ b i i _).trans ?_
  rw [if_pos rfl, getTc_updQ]

/-- R234, R247: the answer of a submission holds its sequence and its promise. -/
theorem giveHandle_packSeq (s : State) (sid : Nat) (x : Args) (b q seq : Nat) (p : Option Nat) (promise : Bool) (hseq : seq < 2 ^ 28) :
    giveHandle s sid x b q (packSeq seq p) promise = .done (if promise
      then updStrand (setG s sid x.d (jobHandle b q seq 0)) sid fun t => writeG t (idxOf x.d + 1) (BitVec.ofNat 64 (p.getD 0))
      else setG s sid x.d (jobHandle b q seq 0)) := by
  have hmod : packSeq seq p % 2 ^ 28 = seq := by rw [packSeq]; omega
  have hdiv : packSeq seq p / 2 ^ 28 = p.getD 0 := by rw [packSeq]; omega
  rw [giveHandle, hmod, hdiv]

/-- The submission of a form. -/
def submitOf (s : State) (sid : Nat) (t : Strand) (o : Opnds) (kind : JobKind) (trig : Option (Nat × BitVec 48))
    (ds : List (BitVec 512)) : Submit :=
  { uid := t.uid, k := s.nextId, kind := kind, cmd := o.a, descs := ds, bad := false, trig := trig, sid := sid, ctx := t.ctx, mask := 0 }

/-- R233, R257: a submission whose descriptors are read and whose queue has room enters it, and is answered with the handle. -/
theorem submit_entered (s E1 E2 : State) (sid : Nat) (t : Strand) (x : Args) (o : Opnds) (q : Nat) (kind : JobKind)
    (trig : Option (Nat × BitVec 48)) (promise : Bool) (d1 d2 : List Byte) (hwait : t.wait = none) (hnet : s.net = [])
    (hd1 : readBlock s sid t tableSpaces (tdAddr s t.ctx (fld o.a 0 48 8)) 64 = .ok E1 d1)
    (hd2 : readBlock E1 sid t tableSpaces (tdAddr E1 t.ctx (fld o.a 0 40 8)) 64 = .ok E2 d2)
    (hgood : (if kind == .matrix then mxReserved o.a else cpReserved o.a) = false) (hroom : queueRoom E2 (blkOf sid) q = true) :
    let ds := [BitVec.ofNat 512 (bytesNat d1), BitVec.ofNat 512 (bytesNat d2)]
    let w := submitOf E2 sid t o kind trig ds
    submit s sid t x o q kind trig promise =
      giveHandle (enterSubmit E2 (blkOf sid) q w).2 sid x (blkOf sid) q (enterSubmit E2 (blkOf sid) q w).1 promise := by
  intro ds w
  have hdescs (f : State → List (BitVec 512) → Res) : takeDescs s sid t (namedDescs o.a) [] f = f E2 ds := by
    simp only [namedDescs, takeDescs, hd1, withBlock, hd2]
    rfl
  rw [submit, grantedOf_none hwait]
  simp only [owesAck_quiet t.uid sid .dev hnet, hdescs, hgood, hroom]
  rfl

/-- R253: QFENCE with room in every named queue. -/
theorem qfenceBody_done (x : Args) (s : State) (sid : Nat) (t : Strand) (o : Opnds) (hwait : t.wait = none)
    (hroom : (namedQueues (o.aw.toNat % 8)).all (queueRoom s (blkOf sid)) = true) : qfenceBody x s sid t o =
      .done (setG (enterFence s (blkOf sid) (o.aw.toNat % 8) sid t.ctx).2 sid x.d
        (jobHandle (blkOf sid) 4 ((enterFence s (blkOf sid) (o.aw.toNat % 8) sid t.ctx).1 % 2 ^ 28) (o.aw.toNat % 8))) := by
  simp [qfenceBody, grantedOf_none hwait, hroom]

/-- R253: the sequence of a fence is that of the lowest-numbered queue it names. -/
theorem enterFence_seq (s : State) (b mask sid ctx : Nat) (h1 : 1 ≤ mask) (h7 : mask ≤ 7) :
    (enterFence s b mask sid ctx).1 = (queueOf s b (lowQueue mask)).next % 2 ^ 28 := by
  have hhead := namedQueues_head mask h1 h7
  rw [namedQueues] at hhead
  simp [enterFence, List.head?_map, hhead]

/-- Settles O51: the entry of a submission by `enterSubmit_entered`, and the entries of a fence by `fence_fold`. -/
theorem submissionResults : Obligations.SubmissionResults := by
  intro x s t b E c old seq entered keeps kept
  refine ⟨fun z ea k d q hresv hgot htarget hclear hfree hpoison => ?read,
    fun d1 d2 E1 E2 hwait hnet hd1 hd2 => ⟨fun hc hgood hroom => ?mxq, fun hc hgood hroom => ?cpq⟩,
    fun mask hc hwait hmask h1 h7 hroom => ?qfence⟩
  case read =>
    obtain ⟨y, hread, -, hkept⟩ := readBlock_cell_kept z s.cur t ea k d q (by simp [reserved, hresv]) hgot htarget hclear hfree hpoison
    exact ⟨y, hread, hkept⟩
  case mxq =>
    have hent := enterSubmit_entered E2 b 0 (submitOf E2 s.cur t (ops4 x s) .matrix none
      [BitVec.ofNat 512 (bytesNat d1), BitVec.ofNat 512 (bytesNat d2)]) (by decide) rfl
    refine ⟨_, run_done 0x302 x (fun s sid t o => submit s sid t x o 0 .matrix none false) s _ hc ?_,
      ⟨hent.mem, hent.net, hent.slots⟩, hent.queue, hent.others 1 (by decide) (by decide), hent.others 2 (by decide) (by decide)⟩
    refine (submit_entered E E1 E2 s.cur t x (ops4 x s) 0 .matrix none false d1 d2 hwait ((entry_net x s).trans hnet) hd1 hd2 hgood
      hroom).trans ?_
    rw [enterSubmit_eq _ _ _ _ rfl, giveHandle_packSeq _ _ _ _ _ _ _ _ (Nat.mod_lt _ (by decide))]
    rfl
  case cpq =>
    intro q p
    have hq := copyQueue_or c
    have hent := enterSubmit_entered E2 b q (submitOf E2 s.cur t (ops4 x s) .copy none
      [BitVec.ofNat 512 (bytesNat d1), BitVec.ofNat 512 (bytesNat d2)]) (by omega) rfl
    refine ⟨_, run_done 0x304 x (fun s sid t o => submit s sid t x o (copyQueue o.a) .copy none true) s _ hc ?_,
      ⟨hent.mem, hent.net, hent.slots⟩, hent.queue, hent.others 0 (by omega) (by omega), hent.others (3 - q) (by omega) (by omega)⟩
    refine (submit_entered E E1 E2 s.cur t x (ops4 x s) q .copy none true d1 d2 hwait ((entry_net x s).trans hnet) hd1 hd2 hgood
      hroom).trans ?_
    rw [enterSubmit_eq _ _ _ _ rfl, giveHandle_packSeq _ _ _ _ _ _ _ _ (Nat.mod_lt _ (by decide))]
    rfl
  case qfence =>
    have hmod : (ops x s).aw.toNat % 8 = mask := by omega
    have hold (q : Nat) : queueOf E b q = old q := queueOf_hubs s E (entry_hubs x s) b q
    obtain ⟨hmem, hnet, hslots, hqueues⟩ := fence_fold b mask s.cur t.ctx ((namedQueues mask).map fun r => (r, (queueOf E b r).next % 2 ^ 28))
      (namedQueues mask) E (List.nodup_range.filter _) fun q hq => ((namedQueues_mem mask q).1 hq).1
    refine ⟨(enterFence E b mask s.cur t.ctx).2, run_done 0x30A x (qfenceBody x) s _ hc ?_, ⟨hmem, hnet, hslots⟩, fun q hq => ?_⟩
    · have hall : (namedQueues mask).all (queueRoom E b) = true := by
        refine List.all_eq_true.2 fun q hq => ?_
        obtain ⟨hlt, hbit⟩ := (namedQueues_mem mask q).1 hq
        exact (queueRoom_hubs s E (entry_hubs x s) b q).trans (hroom q hlt hbit)
      refine (qfenceBody_done x E s.cur t (ops x s) hwait (by rw [hmod]; exact hall)).trans ?_
      rw [hmod, enterFence_seq _ _ _ _ _ h1 h7, Nat.mod_mod, hold]
    · refine (hqueues q hq).trans ?_
      simp only [namedQueues_mem, hq, true_and, hold]
      rfl

end Sys2Proof.Machine
end

section
/-! SUPPORT. The descriptor table (R238), the C buffer (R243) and register copies (R248), and the theorem that settles the statement. -/

namespace Sys2Proof.Machine
open Sys2Proof

/-! ## Descriptors (R238) -/

theorem readByte_copy (m : Map Byte) (src dst n i : Nat) : readByte (writeBytes m dst (readBytes m src n)) i =
    if dst ≤ i ∧ i < dst + n then readByte m (src + (i - dst)) else readByte m i := by
  by_cases hin : dst ≤ i ∧ i < dst + n
  · rw [if_pos hin, readByte_writeBytes_in _ _ _ _ hin.1 (by rw [readBytes_length]; exact hin.2), readBytes_get _ _ _ _ (by omega)]
  · rw [if_neg hin, readByte_writeBytes _ _ _ _ (by rw [readBytes_length]; omega)]

/-- R238: a copy of a descriptor whose two blocks answer at once. -/
theorem tdBody_done (src dst : State → Strand → Opnds → Word) (ssp dsp : List Nat) (s s1 s2 : State) (sid : Nat) (t : Strand) (o : Opnds)
    (bs : List Byte) (hnum : o.aw.toNat < 256) (halign : (o.bw &&& 63 != 0) = false) (hsent : blockSent t = false)
    (hread : readBlock s sid t ssp (src s t o) 64 = .ok s1 bs) (hwrite : writeBlock s1 sid t dsp (dst s t o) bs = .ok s2 []) :
    tdBody src dst ssp dsp s sid t o = .done s2 := by
  have hgood : tdBad o = none := by simp [tdBad, Nat.not_le.2 hnum]
  simp only [tdBody, hgood, halign, hsent, hread, withBlock, hwrite, Bool.false_eq_true, if_false]

theorem blockSent_gotIn {t : Strand} (hgot : gotIn t = []) : blockSent t = false := by
  cases hw : t.wait with
  | none => simp [blockSent, gotWords, hw]
  | some w =>
    have hempty : w.got = [] := by simpa [gotIn, hw] using hgot
    by_cases ho : w.opnds.isSome = true <;> simp [blockSent, gotWords, hw, Option.filter, ho, hempty]

theorem and_low_zero (a : Word) (k : Nat) (hk : k < 64) (h : a.toNat % 2 ^ k = 0) : a &&& BitVec.ofNat 64 (2 ^ k - 1) = 0 := by
  apply BitVec.eq_of_toNat_eq
  have hlt : 2 ^ k - 1 < 2 ^ 64 := (Nat.sub_le _ _).trans_lt (Nat.pow_lt_pow_right (by decide) hk)
  rw [BitVec.toNat_and, BitVec.toNat_ofNat, Nat.mod_eq_of_lt hlt, Nat.and_two_pow_sub_one_eq_mod, h]
  rfl

theorem aligned64 {a : Word} (h : ownSpace a 64) : (a &&& 63 != 0) = false := by
  simpa using and_low_zero a 6 (by decide) h.2.2

theorem reserved_resv {s z : State} (h : z.resv = s.resv) (a n : Nat) : reserved z a n = reserved s a n := by
  rw [reserved, reserved, h]

theorem gotIn_entry (x : Args) (s : State) : gotIn (strandAt (entry x s) s.cur) = gotIn (acting s) := by
  have hctl := sameCtl_cleared x (acting s)
  rw [strandAt_entry, gotIn, hctl]
  rfl

/-- What a copied descriptor leaves: the bytes at `dst` are those at `src`. -/
def Copied (x : Args) (s z : State) (src dst : Nat) : Prop :=
  z.net = s.net ∧ (∀ i, i ≠ s.cur → getSlot z i = getSlot (entry x s) i) ∧
    { strandAt z s.cur with wait := none } = { strandAt (entry x s) s.cur with wait := none } ∧
    ∀ i, readByte z.mem i = if dst ≤ i ∧ i < dst + 64 then readByte s.mem (src + (i - dst)) else readByte s.mem i

/-- R238: TDSET from the own scratchpad to a table whose port is free. -/
theorem tdset_copied (x : Args) (s : State) (d q c : Nat) (hc : clear 0x300 x s = true) (hgot : gotIn (acting s) = [])
    (hnum : (ops x s).aw.toNat < 256) (hown : ownSpace (ops x s).bw 64)
    (htable : target (entry x s) s.cur (acting s).ctx .write tableSpaces false (tdAddr (entry x s) (acting s).ctx (ops x s).aw.toNat) 16 =
      .cell (.quay d q) c)
    (hclear : portClear (entry x s) (coreOf s.cur) (acting s).uid (.quay d q) = true)
    (hfree : portsFree (entry x s) 0 (keyPorts (entry x s) c 64) = true) (hown_resv : reserved s (ownKey s (ops x s).bw) 64 = false)
    (hresv : reserved s c 64 = false) (hpoison : poisoned s (ownKey s (ops x s).bw) 64 = false) :
    ∃ z, exec (.tdset x) s = .next (finishAt z s.cur) ∧ Copied x s z (ownKey s (ops x s).bw) c := by
  have hports := tallied_takePorts 0 (keyPorts (entry x s) c 64) (entry x s)
  have hread := readBlock_own (entry x s) s.cur (acting s) blockSpaces (ops x s).bw 64 hown (by decide) (by decide) rfl
    ((reserved_entry ..).trans hown_resv) ((poisoned_entry ..).trans hpoison)
  have hlen := readBytes_length (entry x s).mem 64 (ownKey s (ops x s).bw)
  have hwrite := writeBlock_cell (entry x s) s.cur (acting s) tableSpaces (tdAddr (entry x s) (acting s).ctx (ops x s).aw.toNat)
    (readBytes (entry x s).mem (ownKey s (ops x s).bw) 64) c d q (by rw [hlen]; exact htable) hclear (by rw [hlen]; exact hfree)
    (by rw [hlen]; exact (reserved_entry ..).trans hresv)
  rw [hlen] at hwrite
  refine ⟨_, run_done 0x300 x (tdBody (fun _ _ o => o.bw) (fun s t o => tdAddr s t.ctx o.aw.toNat) blockSpaces tableSpaces) s _ hc
    (tdBody_done _ _ _ _ _ _ _ _ _ _ _ hnum (aligned64 hown) (blockSent_gotIn hgot) hread hwrite),
    ?_, fun i _ => hports.slots i, ?_, fun i => ?_⟩
  · exact (takePorts_net 0 _ _).trans (entry_net x s)
  · exact congrArg (fun k : Slot => { k.s with wait := none }) (hports.slots s.cur)
  · refine (readByte_copy ..).trans ?_
    rw [entry_mem]

/-- R238: TDGET from a table whose port is free to the own scratchpad. -/
theorem tdget_copied (x : Args) (s : State) (d q c : Nat) (hc : clear 0x301 x s = true) (hgot : gotIn (acting s) = [])
    (hnum : (ops x s).aw.toNat < 256) (hown : ownSpace (ops x s).bw 64)
    (htable : target (entry x s) s.cur (acting s).ctx .read tableSpaces false (tdAddr (entry x s) (acting s).ctx (ops x s).aw.toNat) 16 =
      .cell (.quay d q) c)
    (hclear : portClear (entry x s) (coreOf s.cur) (acting s).uid (.quay d q) = true)
    (hfree : portsFree (entry x s) 0 (keyPorts (entry x s) c 64) = true) (hown_resv : reserved s (ownKey s (ops x s).bw) 64 = false)
    (hresv : reserved s c 64 = false) (hpoison : poisoned s c 64 = false) :
    ∃ z, exec (.tdget x) s = .next (finishAt z s.cur) ∧ Copied x s z c (ownKey s (ops x s).bw) := by
  obtain ⟨y, hread, hy_resv, hy_mem, hy_net, -, hy_slots, hy_strand⟩ := readBlock_cell_kept (entry x s) s.cur (acting s)
    (tdAddr (entry x s) (acting s).ctx (ops x s).aw.toNat) c d q ((reserved_entry ..).trans hresv) ((gotIn_entry x s).trans hgot) htable
    hclear hfree ((poisoned_entry ..).trans hpoison)
  have hlen := readBytes_length (entry x s).mem 64 c
  have hwrite := writeBlock_own y s.cur (acting s) blockSpaces (ops x s).bw (readBytes (entry x s).mem c 64) (by rw [hlen]; exact hown)
    (by rw [hlen]) (by rw [hlen]; decide) rfl
    (by rw [hlen]; exact (reserved_resv (hy_resv.trans (entry_resv x s)) _ _).trans hown_resv)
  rw [hlen] at hwrite
  refine ⟨_, run_done 0x301 x (tdBody (fun s t o => tdAddr s t.ctx o.aw.toNat) (fun _ _ o => o.bw) tableSpaces blockSpaces) s _ hc
    (tdBody_done _ _ _ _ _ _ _ _ _ _ _ hnum (aligned64 hown) (blockSent_gotIn hgot) hread hwrite),
    hy_net.trans (entry_net x s), hy_slots, hy_strand, fun i => ?_⟩
  refine Eq.trans (congrArg (readByte · i) (congrArg (fun m => writeBytes m _ _) hy_mem)) ?_
  refine (readByte_copy ..).trans ?_
  rw [entry_mem]
  rfl

/-! ## Reads of the C buffer (R243) -/

/-- R243: CLD of 16 bytes as they stand. -/
theorem cldBody_bytes (x : Args) (s : State) (sid : Nat) (t : Strand) (o : Opnds) (n : Nat) (hd : vField x.d = some n)
    (hb : o.bw.toNat / 8 = 0) (hty : codeOf x.d = 0) (halign : o.aw.toNat % 16 = 0) (hin : o.aw.toNat < 0x140000)
    (hpoison : poisoned s (bufKey 0xF6 (blkOf sid) o.aw.toNat) 16 = false) : cldBody x s sid t o = .done (updStrand s sid fun y =>
      raise (writeV y n (BitVec.ofNat 128 (readLe s.mem (bufKey 0xF6 (blkOf sid) o.aw.toNat) 16))) 0) := by
  simp [cldBody, hb, hty, halign, Nat.not_le.2 hin, hpoison, idxOf_vField x.d n hd]

/-- R243: CLD of one accumulator as it stands. -/
theorem cldBody_accumulator (x : Args) (s : State) (sid : Nat) (t : Strand) (o : Opnds) (n : Nat) (hd : vField x.d = some n)
    (hb : o.bw.toNat / 8 = 0) (hty : codeOf x.d = 9) (hin : o.aw.toNat ≤ 131071)
    (hpoison : poisoned s (accKey (blkOf sid) o.aw.toNat) 10 = false) : cldBody x s sid t o = .done (updStrand s sid fun y =>
      raise (writeV y n (BitVec.ofNat 128 (readLe s.mem (accKey (blkOf sid) o.aw.toNat) 10))) 0) := by
  simp [cldBody, hb, hty, Nat.not_lt.2 hin, accValue, hin, hpoison, idxOf_vField x.d n hd]

/-- R243: CLD of accumulators converted into the lanes of a floating type. -/
theorem cldBody_lanes (x : Args) (s : State) (sid : Nat) (t : Strand) (o : Opnds) (n ty : Nat) (hd : vField x.d = some n)
    (hb : o.bw.toNat / 8 = 0) (hty : codeOf x.d = ty) (hmem : ty ∈ [5, 6, 7]) (hin : o.aw.toNat + lanesOfFmt ty ≤ 131072)
    (hpoison : poisoned s (accKey (blkOf sid) o.aw.toNat) (10 * lanesOfFmt ty) = false) :
    let lane := fun i => fpToFp a80 (fmtOf ty) (rndOf (o.bw.toNat % 4)) (o.bw.getLsbD 2) (accValue s (blkOf sid) (o.aw.toNat + i))
    cldBody x s sid t o = .done (updStrand s sid fun y => raise
      (writeV y n (BitVec.ofNat 128 (((List.range (lanesOfFmt ty)).map fun i => (lane i).bits * 2 ^ (elemBits ty * i)).sum)))
      ((List.range (lanesOfFmt ty)).foldl (fun f i => f ||| (lane i).fl) 0)) := by
  intro lane
  have hpos := lanes_pos ty hmem
  have hty0 : (ty == 0) = false := by simp at hmem; rcases hmem with rfl | rfl | rfl <;> rfl
  have hty9 : (ty == 9) = false := by simp at hmem; rcases hmem with rfl | rfl | rfl <;> rfl
  have hcap : ¬ 131071 < o.aw.toNat + lanesOfFmt ty - 1 := by omega
  have hb0 : (o.bw.toNat / 8 != 0) = false := by simp [hb]
  have hlanes := lanes_fold_sum (elemBits ty) lane (lanesOfFmt ty)
  have hflags := flags_fold_map lane (lanesOfFmt ty)
  simp only [cldBody, hb0, hty, hty0, hty9, hcap, hpoison, Bool.and_false, Bool.false_eq_true, if_false, idxOf_vField x.d n hd]
  rw [← hlanes, ← hflags]

/-! ## Register copies (R248) -/

/-- R248: the registers that a copy to `n` on names. -/
theorem cprRegs_g {x : Args} {n : Nat} (hd : gField x.d = some n) :
    cprRegs x = (List.range' 0 (codeOf x.d + 1)).map fun i => .g (n + i) := by
  cases hx : x.d <;> simp_all [cprRegs, gField, List.range_eq_range']

theorem cprRegs_v {x : Args} {n : Nat} (hd : vField x.d = some n) :
    cprRegs x = (List.range' 0 (codeOf x.d + 1)).map fun i => .v (n + i) := by
  cases hx : x.d <;> simp_all [cprRegs, vField, List.range_eq_range']

theorem cprSize_or (x : Args) : cprSize x = 8 ∨ cprSize x = 16 := by
  rw [cprSize]
  split
  · split <;> simp
  · simp

theorem cprRegs_length (x : Args) : (cprRegs x).length = codeOf x.d + 1 := by simp [cprRegs]

/-- The word i of a register copy, as it stands in memory. -/
def cprWordOf (m : Map Byte) (key sz i : Nat) : Nat := readLe m (key + sz * i) sz

/-- R248: a register copy from the own scratchpad lands at once, and its debt goes again. -/
theorem cprBody_done (x : Args) (s : State) (sid : Nat) (t : Strand) (o : Opnds)
    (hown : ownSpace (o.aw + o.bw) (cprSize x)) (hin : (o.aw + o.bw).toNat % 2 ^ 56 + cprSize x * (codeOf x.d + 1) ≤ 2 ^ 18)
    (hresv : reserved s (spadKey (coreOf sid) ((o.aw + o.bw).toNat % 2 ^ 56)) (cprSize x * (codeOf x.d + 1)) = false)
    (hpoison : poisoned s (spadKey (coreOf sid) ((o.aw + o.bw).toNat % 2 ^ 56)) (cprSize x * (codeOf x.d + 1)) = false)
    (hcopy : (cprRegs x).find? (copying t) = none) (hdebt : debtFull t (regHandle sid ((cprRegs x).headD (.g 0))) = false) :
    cprBody x s sid t o = .done (updStrand s sid fun y =>
      (fun y => if (y.copies.any fun c => c.handle == regHandle sid ((cprRegs x).headD (.g 0))) ||
        owes t (regHandle sid ((cprRegs x).headD (.g 0))) then y else dropDebt y (regHandle sid ((cprRegs x).headD (.g 0))))
      (landAll (cprWordOf s.mem (spadKey (coreOf sid) ((o.aw + o.bw).toNat % 2 ^ 56)) (cprSize x)) (cprRegs x) 0
        (addDebt y (regHandle sid ((cprRegs x).headD (.g 0))) true))) := by
  have hlen := cprRegs_length x
  have hcheck : cprCheck s sid t (o.aw + o.bw) (cprSize x) (cprRegs x).length 0 = none :=
    cprCheck_own s sid t _ _ _ hown (cprSize_or x) hin hresv hpoison _ 0 (by omega)
  have hsend := cprSend_own sid t (o.aw + o.bw) (cprSize x) (codeOf x.d + 1) hown (cprSize_or x) hin
    (regHandle sid ((cprRegs x).headD (.g 0))) s.mem (cprRegs x) 0
    (updStrand s sid fun y => addDebt y (regHandle sid ((cprRegs x).headD (.g 0))) true) rfl (by omega) id fun _ => rfl
  rw [updStrand_updStrand, updStrand_updStrand] at hsend
  simp only [id] at hsend
  simp only [cprBody, hcheck, hcopy, hdebt, Bool.false_eq_true, if_false, hsend]
  rw [updStrand_updStrand]
  rfl

/-- What a register copy leaves of the acting strand, whose registers `W` has written. -/
theorem cpr_leaves (x : Args) (s : State) (W : Strand → Strand) (hctl : ∀ u, SameCtl (W u) u) (hc : clear 0x305 x s = true)
    (hown : ownSpace ((ops x s).aw + (ops x s).bw) (cprSize x))
    (hin : ((ops x s).aw + (ops x s).bw).toNat % 2 ^ 56 + cprSize x * (codeOf x.d + 1) ≤ 2 ^ 18)
    (hresv : reserved s (ownKey s ((ops x s).aw + (ops x s).bw)) (cprSize x * (codeOf x.d + 1)) = false)
    (hpoison : poisoned s (ownKey s ((ops x s).aw + (ops x s).bw)) (cprSize x * (codeOf x.d + 1)) = false)
    (hcopy : (cprRegs x).find? (copying (acting s)) = none) (hcopies : (acting s).copies = [])
    (howes : owes (acting s) (regHandle s.cur ((cprRegs x).headD (.g 0))) = false)
    (hdebt : debtFull (acting s) (regHandle s.cur ((cprRegs x).headD (.g 0))) = false)
    (hW : landAll (cprWordOf s.mem (ownKey s ((ops x s).aw + (ops x s).bw)) (cprSize x)) (cprRegs x) 0 = W) :
    ∃ z u, exec (.cpr x) s = .next z ∧ z.mem = s.mem ∧ z.net = s.net ∧ (∀ i, i ≠ s.cur → getSlot z i = getSlot s i) ∧
      (getSlot z s.cur).st = .ready ∧ (strandAt z s.cur).debts = (acting s).debts ∧
      (∀ m, readG (strandAt z s.cur) m = readG (W u) m) ∧ (∀ m, readV (strandAt z s.cur) m = readV (W u) m) ∧
      (∀ r, fullOf (strandAt z s.cur) r = fullOf (W u) r) ∧ (∀ r, tagOf (strandAt z s.cur) r = tagOf (W u) r) ∧
      (∀ m, readG u m = readG (acting s) m) ∧ (∀ m, readV u m = readV (acting s) m) ∧
      (∀ r, inFile r = true → fullOf u r = (r == .g 0 || (fullOf (acting s) r && !(syncRegs x).contains r))) ∧
      ∀ r, tagOf u r = tagOf (acting s) r := by
  let h := regHandle s.cur ((cprRegs x).headD (.g 0))
  let u := addDebt (cleared x (acting s)) h true
  obtain ⟨hmem, hnet, hslots, hst, hstrand, hdebts⟩ := cpr_strand x s h W hctl hcopies howes
  obtain ⟨hg, hv, hf, ht⟩ := addDebt_reads (cleared x (acting s)) h
  obtain ⟨dg, dv, df, dt⟩ := dropDebt_reads (W u) h
  obtain ⟨eg, ev, -, -, ef, et⟩ := reads_end (dropDebt (W u) h) _ (.refl _)
  have hbody := cprBody_done x (entry x s) s.cur (acting s) (ops x s) hown hin ((reserved_entry ..).trans hresv)
    ((poisoned_entry ..).trans hpoison) hcopy hdebt
  rw [entry_mem] at hbody
  refine ⟨_, u, (run_done 0x305 x (cprBody x) s _ hc hbody).trans ?_, hmem, hnet, hslots, hst, hdebts, fun m => ?_, fun m => ?_, fun r => ?_,
    fun r => ?_, fun m => ?_, fun m => ?_, fun r hr => ?_, fun r => ?_⟩
  · rw [← hW]; rfl
  · rw [hstrand, eg, dg]
  · rw [hstrand, ev, dv]
  · rw [hstrand, ef, df]
  · rw [hstrand, et, dt]
  · rw [hg, readG_cleared]
  · rw [hv, readV_cleared]
  · rw [hf, fullOf_cleared _ _ _ hr]
  · rw [ht, tagOf_cleared]

theorem contains_range_g (n cnt : Nat) (r : RegRef) : ((List.range' 0 cnt).map fun i => RegRef.g (n + i)).contains r =
    (match r with | .g m => decide (n ≤ m ∧ m < n + cnt) | .v _ => false) := by
  cases r with
  | g m =>
    rw [Bool.eq_iff_iff]
    simp only [List.contains_iff_mem, List.mem_map, List.mem_range'_1, RegRef.g.injEq, decide_eq_true_eq]
    exact ⟨fun ⟨i, hi, he⟩ => by omega, fun hm => ⟨m - n, by omega⟩⟩
  | v m => simp

theorem contains_range_v (n cnt : Nat) (r : RegRef) : ((List.range' 0 cnt).map fun i => RegRef.v (n + i)).contains r =
    (match r with | .v m => decide (n ≤ m ∧ m < n + cnt) | .g _ => false) := by
  cases r with
  | v m =>
    rw [Bool.eq_iff_iff]
    simp only [List.contains_iff_mem, List.mem_map, List.mem_range'_1, RegRef.v.injEq, decide_eq_true_eq]
    exact ⟨fun ⟨i, hi, he⟩ => by omega, fun hm => ⟨m - n, by omega⟩⟩
  | g m => simp

theorem g_beq_zero (m : Nat) : (RegRef.g m == RegRef.g 0) = decide (m = 0) := by simp [beq_eq_decide]

theorem v_beq_zero (m : Nat) : (RegRef.v m == RegRef.g 0) = false := by simp [beq_eq_decide]

/-- Settles O52: descriptors by `tdset_copied` and `tdget_copied`, CLD by the equations of its body, CPR by `cpr_leaves`. -/
theorem tableAndBufferResults : Obligations.TableAndBufferResults := by
  intro x s a b E o k ty table copies
  refine ⟨fun d q c hgot hnum hown hclear hfree hown_resv hresv => ⟨fun hc htable hpoison => ?set, fun hc htable hpoison => ?get⟩,
    fun n hd hc hb => ⟨fun hty halign hin hpoison => ?bytes, fun hty hin hpoison => ?accumulator, fun hty hin hpoison => ?lanes⟩,
    fun n hd hc => ?copy⟩
  case set => exact tdset_copied x s d q c hc hgot hnum hown htable hclear hfree hown_resv hresv hpoison
  case get => exact tdget_copied x s d q c hc hgot hnum hown htable hclear hfree hown_resv hresv hpoison
  case bytes =>
    refine cld_done x s n hd hc hb _ 0 ((cldBody_bytes x E s.cur (acting s) (ops x s) n hd hb hty halign hin
      ((poisoned_entry ..).trans hpoison)).trans ?_)
    rw [entry_mem]
  case accumulator =>
    refine cld_done x s n hd hc hb _ 0 ((cldBody_accumulator x E s.cur (acting s) (ops x s) n hd hb hty hin
      ((poisoned_entry ..).trans hpoison)).trans ?_)
    rw [entry_mem]
  case lanes =>
    refine cld_done x s n hd hc hb _ _ ((cldBody_lanes x E s.cur (acting s) (ops x s) n ty hd hb rfl hty hin
      ((poisoned_entry ..).trans hpoison)).trans ?_)
    simp only [accValue_mem s E (entry_mem x s)]
    rfl
  case copy =>
    intro sz ea cnt key hown hin hcnt hfits_g hfits_v hresv hpoison hcopy hcopies howes hdebt
    rcases hd with hd | hd
    · have hsz : sz = 8 := by cases hx : x.d <;> simp_all [sz, cprSize, gField]
      have hv : vField x.d = none := by cases hx : x.d <;> simp_all [gField, vField]
      let val := cprWordOf s.mem key sz
      have hland : landAll val (cprRegs x) 0 = putRun n (fun j => BitVec.ofNat 64 (val j)) cnt := by
        funext u
        rw [cprRegs_g hd, landAll_g, putRun, List.range_eq_range']
      obtain ⟨z, u, hexec, hmem, hnet, hslots, hst, hdebts, hg, hvr, hfull, htag, ug, uv, uf, ut⟩ := cpr_leaves x s _
        (putRun_ctl n _ cnt) hc hown hin hresv hpoison hcopy hcopies howes hdebt hland
      obtain ⟨wg, wv, -, -, wf, wt⟩ := putRun_reads n (fun j => BitVec.ofNat 64 (val j)) cnt u
      refine ⟨z, hexec, hmem, hnet, hslots, hst, hdebts, fun m => ?_, fun m => ?_, fun r hr => ⟨?_, ?_⟩⟩
      · rw [hg, wg, ug]
        simp only [hd, true_and]
        simp only [val, cprWordOf, hsz]
      · rw [hvr, wv, uv, hv]
        simp
      · rw [hfull, wf r hr, uf r hr, cprRegs_g hd, contains_range_g]
        cases r with
        | g m => by_cases hm : m = 0 <;> simp [g_beq_zero, hm, cnt]
        | v m => simp
      · rw [htag, wt r hr, ut, cprRegs_g hd, contains_range_g]
        cases r with
        | g m => by_cases hm : m = 0 <;> simp [bne, g_beq_zero, hm, cnt]
        | v m => simp
    · have hsz : sz = 16 := by cases hx : x.d <;> simp_all [sz, cprSize, vField]
      have hg_none : gField x.d = none := by cases hx : x.d <;> simp_all [gField, vField]
      let val := cprWordOf s.mem key sz
      have hland : landAll val (cprRegs x) 0 = putRunV n (fun j => BitVec.ofNat 128 (val j)) cnt := by
        funext u
        rw [cprRegs_v hd, landAll_v, putRunV, List.range_eq_range']
      obtain ⟨z, u, hexec, hmem, hnet, hslots, hst, hdebts, hg, hvr, hfull, htag, ug, uv, uf, ut⟩ := cpr_leaves x s _
        (putRunV_ctl n _ cnt) hc hown hin hresv hpoison hcopy hcopies howes hdebt hland
      obtain ⟨wv, wg, wf, wt⟩ := putRunV_reads n (fun j => BitVec.ofNat 128 (val j)) cnt u
      refine ⟨z, hexec, hmem, hnet, hslots, hst, hdebts, fun m => ?_, fun m => ?_, fun r hr => ⟨?_, ?_⟩⟩
      · rw [hg, wg, ug, hg_none]
        simp
      · rw [hvr, wv, uv]
        simp only [hd, true_and, val, cprWordOf, hsz]
      · rw [hfull, wf r hr, uf r hr, cprRegs_v hd, contains_range_v]
        cases r <;> simp [v_beq_zero, cnt]
      · rw [htag, wt r hr, ut, cprRegs_v hd, contains_range_v]
        cases r <;> simp [bne, v_beq_zero, cnt]

end Sys2Proof.Machine
end

section
/-! SUPPORT. Job handles and waits (R249 to R252), and the theorem that settles the statement. -/

namespace Sys2Proof.Machine
open Sys2Proof

/-- R234: a handle that a form accepts names a queue. -/
theorem jhQueue_lt {s : State} {ctx : Nat} {h : Word} (hok : jhOk s ctx h = true) : jhQueue h < 3 := by
  have hcode : jhCode h ≤ 2 ∨ jhCode h = 4 := by
    simp only [jhOk, Bool.and_eq_true, Bool.or_eq_true, decide_eq_true_eq, beq_iff_eq] at hok
    tauto
  have hlow : lowQueue (jhMask h) < 3 := by
    rw [lowQueue]
    split
    · decide
    · split <;> decide
  rw [jhQueue]
  split
  · exact hlow
  · rename_i h4
    have hne : jhCode h ≠ 4 := by simpa using h4
    omega

/-- R346: the queue that a job leaves with a status that applies no completion action. -/
theorem queueOf_endJob (s : State) (b q : Nat) (j : Job) (status detail : Nat) (hq : q < 3) (hstatus : (status == 0 || status == 2) = false) :
    queueOf (endJob s b q j status detail) b q = { queueOf s b q with
      jobs := (queueOf s b q).jobs.filter fun y => y.seq != j.seq
      ended := ((j.seq, statusWord detail (codeOfJob j q) 4 j.missed false status) :: (queueOf s b q).ended).take 1024 } := by
  simp only [endJob, hstatus, Bool.false_eq_true, if_false]
  split
  · rw [queueOf_updTc, queueOf_updQ _ _ _ _ _ hq hq, if_pos rfl]
  · rw [queueOf_updQ _ _ _ _ _ hq hq, if_pos rfl]

/-- R252: a job that is not running and is no fence is cancelled at once. -/
theorem cancelJob_waiting (s : State) (h : Word) (j : Job) (hfind : findJob s h = some j) (hkind : j.kind ≠ .fence) (hstate : j.state ≤ 1) :
    cancelJob s h = endJob s (jhBlk h) (jhQueue h) j 4 7 := by
  have hfence : (j.kind == .fence) = false := by simpa using hkind
  have h2 : (j.state == 2) = false := by simp; omega
  have h3 : (j.state == 3) = false := by simp; omega
  simp [cancelJob, hfind, hfence, h2, h3]

/-- What a cancelled job leaves behind its handle. -/
theorem cancelJob_ended (s : State) (h : Word) (j : Job) (hq : jhQueue h < 3) (hfind : findJob s h = some j) (hkind : j.kind ≠ .fence)
    (hstate : j.state ≤ 1) : findJob (cancelJob s h) h = none ∧ jobState (cancelJob s h) h = 4 ∧
      jobStatus (cancelJob s h) h = statusWord 7 (jhQueue h) 4 j.missed false 4 := by
  have hseq : j.seq = jhSeq h := by simpa using List.find?_some hfind
  have hqueue := queueOf_endJob s (jhBlk h) (jhQueue h) j 4 7 hq rfl
  have hnone : findJob (cancelJob s h) h = none := by
    rw [findJob, cancelJob_waiting s h j hfind hkind hstate, hqueue, List.find?_eq_none]
    intro y hy
    have hne := (List.mem_filter.1 hy).2
    rw [hseq] at hne
    simpa using hne
  have hcode : codeOfJob j (jhQueue h) = jhQueue h := by simp [codeOfJob, hkind]
  refine ⟨hnone, by rw [jobState, hnone]; rfl, ?_⟩
  rw [jobStatus, hnone, cancelJob_waiting s h j hfind hkind hstate, hqueue, hcode, hseq]
  simp

/-- R249: a wait on a job that has ended answers its status word. -/
theorem jobWait_ended (x : Args) (s : State) (sid : Nat) (t : Strand) (o : Opnds) (hend : jobState s o.aw = 4) :
    jobWait x s sid t o = .done (setG s sid x.d (jobStatus s o.aw)) := by
  simp [jobWait, waitOn, hend]

/-- R249: a wait on a job that has not ended parks. -/
theorem jobWait_parks (x : Args) (s : State) (sid : Nat) (t : Strand) (o : Opnds) (hwait : t.wait = none) (hend : jobState s o.aw ≠ 4) :
    jobWait x s sid t o = .park s o.aw 0 none .test := by
  simp [jobWait, waitOn, hend, waitLeft, hwait]

theorem promisePast_ended {s : State} {h : Word} (t : Strand) (hend : jobState s h = 4) : promisePast s t h = false := by
  rw [promisePast, Bool.and_eq_false_iff]
  right
  cases hj : findJob s h with
  | none => rfl
  | some j =>
    have h4 : j.state = 4 := by simpa [jobState, hj] using hend
    simp [h4]

/-- R252: JCAN that asks to resume, from context 0 or from slot 0 of a core of the job's block. -/
theorem jcanBody_resume (x : Args) (s : State) (sid : Nat) (t : Strand) (o : Opnds) (hbit : o.aw.getLsbD 63 = true)
    (hpriv : (slotOf sid = 0 ∧ ownsBlk s t.ctx (jhBlk (jcanHandle o.aw)) = true) ∨ t.ctx = 0)
    (hok : jhOk s t.ctx (jcanHandle o.aw) = true) : jcanBody x s sid t o =
      .done (setG (resumeJob s (jcanHandle o.aw)) sid x.d (jobStatus (resumeJob s (jcanHandle o.aw)) (jcanHandle o.aw))) := by
  have hallowed : (o.aw.getLsbD 63 && t.ctx != 0 && !(slotOf sid == 0 && ownsBlk s t.ctx (jhBlk (jcanHandle o.aw)))) = false := by
    rcases hpriv with ⟨hslot, howns⟩ | hctx
    · simp [hslot, howns]
    · simp [hctx]
  rw [hbit] at hallowed
  simp only [jcanBody, hbit, hallowed, hok, Bool.not_true, Bool.false_eq_true, if_false, if_true]

/-- R252: JCAN that asks to resume, elsewhere. -/
theorem jcanBody_refused (x : Args) (s : State) (sid : Nat) (t : Strand) (o : Opnds) (hbit : o.aw.getLsbD 63 = true) (hctx : t.ctx ≠ 0)
    (hpriv : slotOf sid ≠ 0 ∨ ownsBlk s t.ctx (jhBlk (jcanHandle o.aw)) = false) :
    jcanBody x s sid t o = .trap s 1 (privInfo 0x309) := by
  have hrefused : (o.aw.getLsbD 63 && t.ctx != 0 && !(slotOf sid == 0 && ownsBlk s t.ctx (jhBlk (jcanHandle o.aw)))) = true := by
    rcases hpriv with hslot | howns
    · simp [hbit, hctx, hslot]
    · simp [hbit, hctx, howns]
  simp only [jcanBody, hrefused, if_true]

/-- R252: JCAN that cancels a job which ends at once. -/
theorem jcanBody_cancel (x : Args) (s : State) (sid : Nat) (t : Strand) (o : Opnds) (hbit : o.aw.getLsbD 63 = false)
    (hok : jhOk s t.ctx (jcanHandle o.aw) = true) (hend : jobState (cancelJob s (jcanHandle o.aw)) (jcanHandle o.aw) = 4) :
    jcanBody x s sid t o =
      .done (setG (cancelJob s (jcanHandle o.aw)) sid x.d (jobStatus (cancelJob s (jcanHandle o.aw)) (jcanHandle o.aw))) := by
  have hdone : (jobState (cancelJob s (jcanHandle o.aw)) (jcanHandle o.aw) != 4) = false := by simp [hend]
  simp only [jcanBody, hbit, hok, hdone, Bool.false_and, Bool.not_true, Bool.false_eq_true, if_false]

theorem findJob_entry (x : Args) (s : State) (h : Word) : findJob (entry x s) h = findJob s h := by
  rw [findJob, findJob, queueOf_hubs s _ (entry_hubs x s)]

/-- What a form that parks leaves of the acting strand, whose registers and memory `y` holds as the form found them. -/
theorem park_leaves (op : Nat) (x : Args) (s y : State) (o : Opnds) (obj arg : Word) (left : Option Nat) (stage : Stage)
    (hstrand : strandAt y s.cur = strandAt (entry x s) s.cur) (hmem : y.mem = (entry x s).mem) :
    let z := settle op x s.cur o (.park y obj arg left stage)
    (getSlot z s.cur).st ≠ .ready ∧ (strandAt z s.cur).pc = (acting s).pc ∧ z.mem = s.mem := by
  intro z
  obtain ⟨hst, hmem', hpark, -⟩ := parkAt_slot y s.cur op obj arg left stage (some o) (syncRegs x) (packWord op x)
  refine ⟨by rw [show (getSlot z s.cur).st = .parked from hst]; decide, ?_, hmem'.trans (hmem.trans (entry_mem x s))⟩
  have hctl := sameCtl_cleared x (acting s)
  refine (congrArg Strand.pc hpark).trans ?_
  rw [hstrand, strandAt_entry, hctl]

/-- Settles O53: the answers by the equations of the waits, a cancel by `cancelJob_ended`. -/
theorem jobResults : Obligations.JobResults := by
  intro x s n hd a t h
  have hhubs := entry_hubs x s
  have hstate : jobState (entry x s) a = jobState s a := jobState_hubs s _ hhubs a
  have hstatus : jobStatus (entry x s) a = jobStatus s a := jobStatus_hubs s _ hhubs a
  refine ⟨fun hok => ⟨fun hc => ?stat, fun hend => ⟨fun hc hwait => ?wait, fun hc hwait => ?waitp⟩, fun hend hc hwait => ?parks⟩,
    fun hc hok => ⟨fun hbit hend => ?cancel, fun j hbit hfind hkind hj => ?cancelled, fun hbit hpriv => ?resume⟩,
    fun hc hbit hctx hpriv => ?privilege⟩
  case stat =>
    refine run_setG 0x308 x (jstatBody x) s n _ hc hd ((if_pos ((jhOk_eq s _ hhubs t.ctx a).trans hok)).trans ?_)
    exact congrArg (fun v => Res.done (setG (entry x s) s.cur x.d v)) hstatus
  case wait =>
    refine run_setG 0x306 x (jwaitBody x) s n _ hc hd ((if_pos ((jhOk_eq s _ hhubs t.ctx a).trans hok)).trans ?_)
    refine (jobWait_ended x _ _ _ _ (hstate.trans hend)).trans ?_
    exact congrArg (fun v => Res.done (setG (entry x s) s.cur x.d v)) hstatus
  case waitp =>
    have hok_now : jhOk (entry x s) t.ctx a = true := (jhOk_eq s _ hhubs t.ctx a).trans hok
    have hpast : promisePast (entry x s) t a = false := promisePast_ended t (hstate.trans hend)
    have hbody : jwaitpBody x (entry x s) s.cur t (ops x s) = jobWait x (entry x s) s.cur t (ops x s) := by
      show (if (!jhOk (entry x s) t.ctx a) = true then _ else if promisePast (entry x s) t a = true then _ else _) = _
      rw [hok_now, hpast]
      rfl
    refine run_setG 0x307 x (jwaitpBody x) s n _ hc hd (hbody.trans ((jobWait_ended x _ _ _ _ (hstate.trans hend)).trans ?_))
    exact congrArg (fun v => Res.done (setG (entry x s) s.cur x.d v)) hstatus
  case parks =>
    have hrun : exec (.jwait x) s = .next (settle 0x306 x s.cur (ops x s) (jwaitBody x (entry x s) s.cur t (ops x s))) :=
      run_ops 0x306 x (jwaitBody x) s hc rfl
    have hbody : jwaitBody x (entry x s) s.cur t (ops x s) = .park (entry x s) a 0 none .test :=
      (if_pos ((jhOk_eq s _ hhubs t.ctx a).trans hok)).trans (jobWait_parks x _ _ _ _ hwait fun h4 => hend (hstate.symm.trans h4))
    rw [hbody] at hrun
    obtain ⟨hst, hpc, -⟩ := park_leaves 0x306 x s (entry x s) (ops x s) a 0 none .test rfl rfl
    exact ⟨_, hrun, hst, hpc⟩
  case cancel =>
    exact run_done 0x309 x (jcanBody x) s _ hc (jcanBody_cancel x _ _ _ _ hbit ((jhOk_eq s _ hhubs t.ctx h).trans hok) hend)
  case cancelled => exact cancelJob_ended (entry x s) h j (jhQueue_lt hok) ((findJob_entry x s h).trans hfind) hkind hj
  case resume =>
    exact run_done 0x309 x (jcanBody x) s _ hc (jcanBody_resume x _ _ _ _ hbit hpriv ((jhOk_eq s _ hhubs t.ctx h).trans hok))
  case privilege =>
    have hrun : exec (.jcan x) s = .next (settle 0x309 x s.cur (ops x s) (jcanBody x (entry x s) s.cur t (ops x s))) :=
      run_ops 0x309 x (jcanBody x) s hc rfl
    rw [jcanBody_refused x _ _ _ _ hbit hctx hpriv] at hrun
    obtain ⟨hst, hpc, -, hinfo, -⟩ := trap_any 0x309 x s (ops x s) (entry x s) 1 (privInfo 0x309) rfl (by decide)
    exact ⟨_, hrun, hst, hinfo, hpc⟩

end Sys2Proof.Machine
end

section
/-! SUPPORT. Trigger counters (R255 to R257), and the theorem that settles the statement. -/

namespace Sys2Proof.Machine
open Sys2Proof

theorem getTc_entry (x : Args) (s : State) (b i : Nat) : getTc (entry x s) b i = getTc s b i := by
  rw [getTc, getTc, getHub_entry]

/-- R353: with no packet under way the strands about to be registered are those that are. -/
theorem tcRegistered_quiet {s z : State} (hs : s.net = []) (hz : z.net = []) (hhubs : z.hubs = s.hubs) (b i me : Nat) :
    tcRegistered z b i me = tcRegistered s b i me := by
  simp only [tcRegistered, hs, hz, List.filterMap_nil, getTc, getHub, hhubs]

theorem tcBad_none (o : Opnds) (hi : Nat) (hidx : o.aw.toNat < 64) (hres : o.bw.toNat / 2 ^ 48 % 2 ^ hi = 0) : tcBad o hi = none := by
  rw [tcBad, if_neg (Nat.not_le.2 hidx), hres]
  rfl

/-- R255: TCSET with a good operand, room for its registration and its debt, and nothing unacknowledged. -/
theorem tcsetBody_done (s : State) (sid : Nat) (t : Strand) (o : Opnds) (hgood : tcBad o 15 = none)
    (hroom : o.bw.getLsbD 63 = true → tcRegistered s (blkOf sid) o.aw.toNat t.startId < 32 ∧ debtFull t (tcHandle (blkOf sid) o.aw.toNat) = false)
    (howe : owesAck s t.uid sid .dev = false) : tcsetBody s sid t o = .done (postHub
      (if o.bw.getLsbD 63 then updStrand s sid fun y => addDebt y (tcHandle (blkOf sid) o.aw.toNat) true else s) sid t
      (.tc (blkOf sid) o.aw.toNat false (o.bw.getLsbD 63) (o.bw.setWidth 48)) (some .dev)) := by
  simp only [tcsetBody, hgood, howe]
  cases hreg : o.bw.getLsbD 63 with
  | false => rfl
  | true =>
    obtain ⟨hcount, hdebt⟩ := hroom hreg
    simp [Nat.not_le.2 hcount, hdebt]

/-- R255: TCADD with a good operand and nothing unacknowledged. -/
theorem tcaddBody_done (s : State) (sid : Nat) (t : Strand) (o : Opnds) (hgood : tcBad o 15 = none)
    (howe : owesAck s t.uid sid .dev = false) : tcaddBody s sid t o = .done (postHub
      (if o.bw.getLsbD 63 then updStrand s sid fun y => dropDebt y (tcHandle (blkOf sid) o.aw.toNat) else s) sid t
      (.tc (blkOf sid) o.aw.toNat true (o.bw.getLsbD 63) (o.bw.setWidth 48)) (some .dev)) := by
  simp [tcaddBody, hgood, howe]

/-- R256: TCWAIT of a counter that has reached the threshold, behind the strand's posts and the events of the cycle. -/
theorem tcwaitBody_done (x : Args) (s : State) (sid : Nat) (t : Strand) (o : Opnds) (hwait : t.wait = none) (hgood : tcBad o 16 = none)
    (hclear : portClear s (coreOf sid) t.uid (.hub (blkOf sid)) = true) (hmoved : (getTc s (blkOf sid) o.aw.toNat).moved = false)
    (hreached : tcReached (getTc s (blkOf sid) o.aw.toNat).count (o.bw.setWidth 48) = true) : tcwaitBody x s sid t o =
      .done (setG s sid x.d (BitVec.ofNat 64 ((getTc s (blkOf sid) o.aw.toNat).count.toNat * 2 ^ 16))) := by
  simp [tcwaitBody, grantedOf_none hwait, hgood, hclear, waitOn, hmoved, hreached, readyStatus, wasWithheld, hwait]

/-- R256: TCWAIT of any other counter parks. -/
theorem tcwaitBody_parks (x : Args) (s : State) (sid : Nat) (t : Strand) (o : Opnds) (hwait : t.wait = none) (hgood : tcBad o 16 = none)
    (hnot : ¬ (portClear s (coreOf sid) t.uid (.hub (blkOf sid)) = true ∧ (getTc s (blkOf sid) o.aw.toNat).moved = false ∧
      tcReached (getTc s (blkOf sid) o.aw.toNat).count (o.bw.setWidth 48) = true)) :
    ∃ stage, tcwaitBody x s sid t o = .park s (tcHandle (blkOf sid) o.aw.toNat) o.bw none stage := by
  by_cases hclear : portClear s (coreOf sid) t.uid (.hub (blkOf sid)) = true
  · have hready : (!(getTc s (blkOf sid) o.aw.toNat).moved && tcReached (getTc s (blkOf sid) o.aw.toNat).count (o.bw.setWidth 48)) = false := by
      by_contra hyes
      simp only [Bool.not_eq_false, Bool.and_eq_true, Bool.not_eq_true'] at hyes
      exact hnot ⟨hclear, hyes⟩
    exact ⟨.test, by simp [tcwaitBody, grantedOf_none hwait, hgood, hclear, waitOn, hready, waitLeft, hwait]⟩
  · exact ⟨.drain 7, by simp [tcwaitBody, grantedOf_none hwait, hgood, hclear]⟩

/-- R354: what a counter event of the own hub does, posted after a change of the acting strand, with nothing else under way
(`postTc_now`). -/
theorem postTc_own (x : Args) (s : State) (f : Strand → Strand) (changes add : Bool) (i : Nat) (v : BitVec 48) (last : Bool)
    (hnet : s.net = []) (hresv : s.resv = []) (hserved : s.served = []) (hprompt : s.prompt = true) :
    let b := blkOf s.cur
    let z := postHub (if changes then updStrand (entry x s) s.cur f else entry x s) s.cur (acting s) (.tc b i add last v) (some .dev)
    z.mem = s.mem ∧ (getTc z b i).count = (if add then (getTc s b i).count + v else v) ∧
      (strandAt z s.cur).debts = ((if changes then f else id) (cleared x (acting s))).debts := by
  intro b z
  have hkeep (y : State) (hy : y = (if changes then updStrand (entry x s) s.cur f else entry x s)) : y.net = [] ∧ y.resv = [] ∧
      y.served = [] ∧ y.prompt = true ∧ y.mem = s.mem ∧ getTc y b i = getTc s b i ∧
      strandAt y s.cur = (if changes then f else id) (cleared x (acting s)) := by
    subst hy
    cases changes
    · exact ⟨(entry_net ..).trans hnet, (entry_resv ..).trans hresv, (entry_served ..).trans hserved, (entry_prompt ..).trans hprompt,
        entry_mem .., getTc_entry .., strandAt_entry ..⟩
    · exact ⟨(entry_net ..).trans hnet, (entry_resv ..).trans hresv, (entry_served ..).trans hserved, (entry_prompt ..).trans hprompt,
        entry_mem .., getTc_entry .., (strandAt_updStrand_same ..).trans (congrArg f (strandAt_entry ..))⟩
  obtain ⟨hn, hr, hv, hp, hm, htc, hst⟩ := hkeep _ rfl
  obtain ⟨hmem, hcount, hslots⟩ := postTc_now _ s.cur (acting s) b i add last v (some .dev) hn hr hv hp fun c hc => by cases hc; rfl
  rw [htc] at hcount
  refine ⟨hmem.trans hm, hcount, ?_⟩
  rw [← hst]
  exact congrArg (fun k : Slot => k.s.debts) (hslots s.cur)

theorem owes_debts {u w : Strand} (h : Word) (hdebts : u.debts = w.debts) : owes u h = owes w h := by rw [owes, owes, hdebts]

theorem debts_cleared (x : Args) (t : Strand) : (cleared x t).debts = t.debts := by
  rw [sameCtl_cleared x t]

/-- R257: TRIG of a command for the matrix engine or a copy engine is its submission with the trigger. -/
theorem trigBody_submit (x : Args) (s : State) (sid : Nat) (t : Strand) (o : Opnds) (hres : o.bw.toNat / 2 ^ 54 % 256 = 0)
    (hkind : o.bw.toNat / 2 ^ 62 < 2) : trigBody x s sid t o =
      submit s sid t x o (if o.bw.toNat / 2 ^ 62 = 0 then 0 else copyQueue o.a) (if o.bw.toNat / 2 ^ 62 = 0 then .matrix else .copy)
        (some (o.bw.toNat / 2 ^ 48 % 64, BitVec.ofNat 48 o.bw.toNat)) false := by
  have hres' : (o.bw.toNat / 2 ^ 54 % 256 != 0) = false := by simpa using hres
  simp only [trigBody, hres', Bool.false_eq_true, if_false]
  rcases (by omega : o.bw.toNat / 2 ^ 62 = 0 ∨ o.bw.toNat / 2 ^ 62 = 1) with h | h
  · simp only [h, if_true]
  · simp only [h, Nat.one_ne_zero, if_false]

/-- Settles O54: counter events by `postTc_own`, a triggered command by `enterSubmit_entered`. -/
theorem counterResults : Obligations.CounterResults := by
  intro x s i v b t h E ends
  refine ⟨fun hnet hresv hserved hprompt hi hres => ⟨fun hc hroom => ?set, fun hc => ?add⟩,
    fun n hd hc hwait hi hres => ⟨fun hnow => ?now, fun hnot => ?parks⟩, fun d1 d2 E1 E2 hc hwait hnet => ?trig⟩
  case set =>
    have howe : owesAck E t.uid s.cur .dev = false := owesAck_quiet _ _ _ ((entry_net ..).trans hnet)
    have hbody := tcsetBody_done E s.cur t (ops x s) (tcBad_none _ 15 hi hres)
      (fun hreg => by rw [tcRegistered_quiet hnet ((entry_net ..).trans hnet) (entry_hubs ..)]; exact hroom hreg) howe
    obtain ⟨hmem, hcount, hdebts⟩ := postTc_own x s (fun y => addDebt y h true) (v.getLsbD 63) false i (v.setWidth 48) (v.getLsbD 63)
      hnet hresv hserved hprompt
    refine ⟨_, run_done 0x30B x tcsetBody s _ hc hbody, hmem, hcount, (owes_debts h hdebts).trans ?_⟩
    cases v.getLsbD 63
    · exact owes_debts h (debts_cleared x t)
    · exact owes_addDebt _ h
  case add =>
    have howe : owesAck E t.uid s.cur .dev = false := owesAck_quiet _ _ _ ((entry_net ..).trans hnet)
    obtain ⟨hmem, hcount, hdebts⟩ := postTc_own x s (fun y => dropDebt y h) (v.getLsbD 63) true i (v.setWidth 48) (v.getLsbD 63)
      hnet hresv hserved hprompt
    refine ⟨_, run_done 0x30C x tcaddBody s _ hc (tcaddBody_done E s.cur t (ops x s) (tcBad_none _ 15 hi hres) howe), hmem, hcount,
      (owes_debts h hdebts).trans ?_⟩
    cases v.getLsbD 63
    · exact (owes_debts h (debts_cleared x t)).trans (by simp)
    · exact (owes_dropDebt _ h).trans (by simp)
  case now =>
    obtain ⟨hclear, hmoved, hreached⟩ := hnow
    have htc := getTc_entry x s b i
    refine run_setG 0x30D x (tcwaitBody x) s n _ hc hd ((tcwaitBody_done x E s.cur t (ops x s) hwait
      (tcBad_none _ 16 hi (by rw [hres]; rfl)) hclear ((congrArg TCtr.moved htc).trans hmoved) ?_).trans ?_)
    · exact (congrArg (fun c : TCtr => tcReached c.count (v.setWidth 48)) htc).trans hreached
    · exact congrArg (fun c : TCtr => Res.done (setG E s.cur x.d (BitVec.ofNat 64 (c.count.toNat * 2 ^ 16)))) htc
  case parks =>
    obtain ⟨stage, hbody⟩ := tcwaitBody_parks x E s.cur t (ops x s) hwait (tcBad_none _ 16 hi (by rw [hres]; rfl))
      (by rw [getTc_entry]; exact hnot)
    have hrun : exec (.tcwait x) s = .next (settle 0x30D x s.cur (ops x s) (tcwaitBody x E s.cur t (ops x s))) :=
      run_ops 0x30D x (tcwaitBody x) s hc rfl
    rw [hbody] at hrun
    exact ⟨_, hrun, park_leaves 0x30D x s E (ops x s) _ _ none stage rfl rfl⟩
  case trig =>
    intro w c m q old hd1 hd2 hres hkind hgood hroom
    let kind : JobKind := if w / 2 ^ 62 = 0 then .matrix else .copy
    let sub := submitOf E2 s.cur t (ops4 x s) kind (some (m, BitVec.ofNat 48 w))
      [BitVec.ofNat 512 (bytesNat d1), BitVec.ofNat 512 (bytesNat d2)]
    have hq : q < 3 := by
      have hcopy := copyQueue_or c
      simp only [q]
      split <;> omega
    have hgood_kind : (if kind == .matrix then mxReserved c else cpReserved c) = false := by
      rw [← hgood]
      simp only [kind]
      split <;> rfl
    have hent := enterSubmit_entered E2 b q sub hq rfl
    have hpromise : promiseOf E2 b q sub = none := by simp [promiseOf, sub, submitOf]
    refine ⟨(enterSubmit E2 b q sub).2, run_done 0x30E x (trigBody x) s _ hc ?_, hent.mem, hent.slots,
      enterSubmit_trig E2 b q sub rfl m _ rfl, ?_⟩
    · refine (trigBody_submit x E s.cur t (ops4 x s) hres hkind).trans ((submit_entered E E1 E2 s.cur t x (ops4 x s) q kind
        (some (m, BitVec.ofNat 48 w)) false d1 d2 hwait ((entry_net ..).trans hnet) hd1 hd2 hgood_kind hroom).trans ?_)
      rw [enterSubmit_eq _ _ _ _ rfl, giveHandle_packSeq _ _ _ _ _ _ _ _ (Nat.mod_lt _ (by decide))]
      rfl
    · rw [hent.queue, pushJob, entryOf, hpromise]
      rfl

end Sys2Proof.Machine
end

section
/-! SUPPORT. Groups and posts (R261 to R268, R274), and the theorem that settles the statement. -/

namespace Sys2Proof.Machine
open Sys2Proof

/-! ## What a synchronised read leaves -/

theorem findGroup_entry (x : Args) (s : State) (ctx gid : Nat) : findGroup (entry x s) ctx gid = findGroup s ctx gid := by
  rw [findGroup, findGroup, entry_plaza]

theorem memberOf_entry (x : Args) (s : State) (g : Group) (sid uid : Nat) : memberOf (entry x s) g sid uid = memberOf s g sid uid := by
  rw [memberOf, memberOf, blockEntry, blockEntry, deviceEntry, deviceEntry, entry_dom]

theorem joinMember_entry (x : Args) (s : State) (sid : Nat) (g : Group) (a : Nat) : joinMember (entry x s) sid g a = joinMember s sid g a := by
  rw [joinMember, joinMember, blockEntry, blockEntry, deviceEntry, deviceEntry, entry_dom]

theorem findColl_entry (x : Args) (s : State) (sid : Nat) (t : Strand) (h : Word) : findColl (entry x s) sid t h = findColl s sid t h := by
  simp only [findColl, findGroup_entry, memberOf_entry, findPost, entry_plaza]

theorem endedStatus_entry (x : Args) (s : State) (gid k m : Nat) : endedStatus (entry x s) gid k m = endedStatus s gid k m := by
  simp only [endedStatus, findEnded, entry_plaza]

/-! ## GRP.MAKE (R261) -/

/-- R261: the space of an own-scratchpad list is one that a list may lie in. -/
theorem recordSpace_own {a : Word} {n : Nat} (h : ownSpace a n) :
    recordSpaces.contains (let k := (a >>> 56).toNat; if k == 1 then 0 else k) = true := by
  rw [h.1]
  decide

/-- R261: GRP.MAKE of no entry or of more than 1,024. -/
theorem grpMakeBody_count (x : Args) (s : State) (sid : Nat) (t : Strand) (o : Opnds) (hown : ownSpace o.aw 4)
    (hcount : o.bw.toNat < 1 ∨ 1024 < o.bw.toNat) : grpMakeBody x s sid t o = .done (setG s sid x.d (statusOver 4 0)) := by
  have halign : (o.aw.toNat % 4 != 0) = false := by simp [hown.2.2]
  have hbad : (decide (o.bw.toNat < 1) || decide (1024 < o.bw.toNat)) = true := by simpa using hcount
  simp only [grpMakeBody, halign, recordSpace_own hown, hbad, Bool.not_true, Bool.false_eq_true, if_false, if_true]

/-- R261: GRP.MAKE of a list in the own scratchpad, bad or local, is answered by this device's Plaza. -/
theorem grpMakeBody_done (x : Args) (s : State) (sid : Nat) (t : Strand) (o : Opnds) (es : List Nat) (hown : ownSpace o.aw 4)
    (h1 : 1 ≤ o.bw.toNat) (h1024 : o.bw.toNat ≤ 1024) (hin : o.aw.toNat % 2 ^ 56 + 4 * o.bw.toNat ≤ 2 ^ 18)
    (hresv : reserved s (spadKey (coreOf sid) (o.aw.toNat % 2 ^ 56)) (4 * o.bw.toNat) = false)
    (hpoison : poisoned s (spadKey (coreOf sid) (o.aw.toNat % 2 ^ 56)) (4 * o.bw.toNat) = false)
    (hes : es = (List.range o.bw.toNat).map fun i => readLe s.mem (spadKey (coreOf sid) (o.aw.toNat % 2 ^ 56) + 4 * i) 4)
    (hlocal : listOk s es = false ∨ localList s es = true) : grpMakeBody x s sid t o =
      .done (setG (createGroup s t.ctx es).2.2 sid x.d (statusOver (createGroup s t.ctx es).1 (createGroup s t.ctx es).2.1)) := by
  have halign : (o.aw.toNat % 4 != 0) = false := by simp [hown.2.2]
  have hgood : (decide (o.bw.toNat < 1) || decide (1024 < o.bw.toNat)) = false := by
    simp only [Bool.or_eq_false_iff, decide_eq_false_iff_not]
    omega
  have hhere : (!listOk s es || localList s es) = true := by rcases hlocal with h | h <;> simp [h]
  have hlist (f : State → List Nat → Res) : readList s sid t o.aw o.bw.toNat [] f = f s es := by
    have hread := readList_own s sid t o.aw o.bw.toNat hown hin hresv hpoison f o.bw.toNat 0 [] (Nat.zero_add _)
    rw [hes, List.range_eq_range']
    simpa using hread
  simp only [grpMakeBody, halign, recordSpace_own hown, hgood, Bool.not_true, Bool.false_eq_true, if_false, hlist, hhere, if_true]

/-- R379: a bad list makes no group. -/
theorem createGroup_bad (s : State) (ctx : Nat) (es : List Nat) (hok : listOk s es = false) : createGroup s ctx es = (4, 0, s) := by
  simp [createGroup, hok]

/-- R379: no group is made while a District of the list is not ready, or with no id free. -/
theorem createGroup_busy (s : State) (ctx : Nat) (es : List Nat) (hok : listOk s es = true) (hlocal : localList s es = true)
    (hbusy : listReady s es = false ∨ freeIds s 0x8000 1024 = []) : createGroup s ctx es = (6, 0, s) := by
  rcases hbusy with hready | hids
  · simp [createGroup, hok, hready]
  · cases hready : listReady s es <;> simp [createGroup, hok, hlocal, hids, hready]

/-- R379: a good local list makes a group under a free id. -/
theorem createGroup_made (s : State) (ctx : Nat) (es : List Nat) (hok : listOk s es = true) (hlocal : localList s es = true)
    (hready : listReady s es = true) (hids : freeIds s 0x8000 1024 ≠ []) : ∃ gid, gid ∈ freeIds s 0x8000 1024 ∧
      createGroup s ctx es = (0, gid, addGroup { s with fresh := s.fresh + 1 } gid ctx es s.dom.member) := by
  have hlt : Config.choice s.fresh % (freeIds s 0x8000 1024).length < (freeIds s 0x8000 1024).length :=
    Nat.mod_lt _ (List.length_pos_of_ne_nil hids)
  refine ⟨_, List.getElem_mem hlt, ?_⟩
  simp [createGroup, hok, hlocal, hready, List.getElem?_eq_getElem hlt]

theorem addGroup_known (s : State) (gid ctx : Nat) (es : List Nat) (home : Nat) (hfree : gid ∈ freeIds s 0x8000 1024) :
    ((addGroup s gid ctx es home).plaza.groups.find? fun g => g.gid == gid) = some
      { gid := gid, ctx := ctx, entries := es, state := 0, lost := 4, owners := [], marked := [], posts := [], tickets := 0
        plaza := home, clear := [], trapped := false } := by
  have hnone : (s.plaza.groups.find? fun g => g.gid == gid) = none := by
    have hfree' := (List.mem_filter.1 hfree).2
    simpa using hfree'
  simp [addGroup, updPlaza, List.find?_append, hnone]

/-! ## GRP.JOIN (R262) -/

/-- R262: GRP.JOIN answers as `groupJoin` says. -/
theorem grpJoinBody_done (x : Args) (s : State) (sid : Nat) (t : Strand) (o : Opnds) (hwait : t.wait = none) (hrange : o.aw.toNat < 2 ^ 18)
    {status m : Nat} {z : State} (hjoin : groupJoin s sid t o.aw.toNat = .ok status m z) :
    grpJoinBody x s sid t o = .done (setG z sid x.d (statusOver status m)) := by
  have hres : (o.aw.toNat / 2 ^ 18 != 0) = false := by rw [Nat.div_eq_of_lt hrange]; rfl
  have hgrant : (grantedOf t == some 6) = false := by simp [grantedOf_none hwait]
  simp only [grpJoinBody, hres, hgrant, hjoin, Bool.false_eq_true, if_false]

/-- R262, R390: a leave that finds a post of its member waits for the end of the cycle. -/
theorem grpJoinBody_waits (x : Args) (s : State) (sid : Nat) (t : Strand) (o : Opnds) (hwait : t.wait = none) (hrange : o.aw.toNat < 2 ^ 18)
    (hjoin : groupJoin s sid t o.aw.toNat = .waits) : grpJoinBody x s sid t o = .park s 0 o.aw none .test := by
  have hres : (o.aw.toNat / 2 ^ 18 != 0) = false := by rw [Nat.div_eq_of_lt hrange]; rfl
  have hgrant : (grantedOf t == some 6) = false := by simp [grantedOf_none hwait]
  simp only [grpJoinBody, hres, hgrant, hjoin, Bool.false_eq_true, if_false]

theorem groupJoin_unknown (s : State) (sid : Nat) (t : Strand) (a : Nat) (hfind : findGroup s t.ctx (a % 2 ^ 16) = none) :
    groupJoin s sid t a = .ok 4 0 s := by
  simp only [groupJoin, hfind]

theorem groupJoin_stranger (s : State) (sid : Nat) (t : Strand) (a : Nat) (g : Group) (hfind : findGroup s t.ctx (a % 2 ^ 16) = some g)
    (hmember : joinMember s sid g a = none) : groupJoin s sid t a = .ok 4 0 s := by
  simp only [groupJoin, hfind, hmember]

/-- R262: the owner of an entry. -/
def ownerOf (g : Group) (m : Nat) : Option Nat := (g.owners.find? fun p => p.1 == m).map (·.2)

section joins
variable (s : State) (sid : Nat) (t : Strand) (a : Nat) (g : Group) (m : Nat)
  (hfind : findGroup s t.ctx (a % 2 ^ 16) = some g) (hmember : joinMember s sid g a = some m)
include hfind hmember

/-- R262: a free entry is joined. -/
theorem groupJoin_free (hbit : a.testBit 16 = false) (hstate : g.state ≠ 2) (howner : ownerOf g m = none)
    (hdebt : debtFull t (groupHandle (a % 2 ^ 16)) = false) : groupJoin s sid t a =
      .ok 0 m (updStrand (updGroup s (a % 2 ^ 16) fun z => { z with owners := z.owners.filter (fun p => p.1 != m) ++ [(m, t.uid)] }) sid
        fun z => addDebt z (groupHandle (a % 2 ^ 16)) true) := by
  rw [ownerOf] at howner
  have hgone : (g.state == 2) = false := by simpa using hstate
  simp only [groupJoin, hfind, hmember, hbit, hgone, howner, hdebt, Bool.false_eq_true, if_false]
  rfl

/-- R262: an entry that a strand owns which lives is not. -/
theorem groupJoin_owned (hbit : a.testBit 16 = false) (hstate : g.state ≠ 2) (u : Nat) (howner : ownerOf g m = some u) (hother : u ≠ t.uid)
    (hlives : lives s u = true) : groupJoin s sid t a = .ok 6 m s := by
  rw [ownerOf] at howner
  have hgone : (g.state == 2) = false := by simpa using hstate
  have hmine : (some u == some t.uid) = false := by simpa using hother
  simp only [groupJoin, hfind, hmember, hbit, hgone, howner, hmine, Option.map_some, Option.getD_some, hlives, Bool.false_eq_true,
    if_false, if_true]

/-- R262: an entry that the issuer does not own is not left. -/
theorem groupJoin_leaveOther (hbit : a.testBit 16 = true) (howner : ownerOf g m ≠ some t.uid) : groupJoin s sid t a = .ok 4 m s := by
  rw [ownerOf] at howner
  have hmine : ((g.owners.find? fun p => p.1 == m).map (·.2) == some t.uid) = false := by simpa using howner
  simp only [groupJoin, hfind, hmember, hbit, hmine, Bool.not_false, if_true]

/-- R262, R390: an entry whose member still has posts is not left yet. -/
theorem groupJoin_leaveHeld (hbit : a.testBit 16 = true) (howner : ownerOf g m = some t.uid) (hwait : t.wait = none)
    (hheld : leaveHeld s sid t a = true) : groupJoin s sid t a = .waits := by
  rw [ownerOf] at howner
  simp only [groupJoin, hfind, hmember, hbit, howner, grantedOf_none hwait, hheld]
  simp

/-- R262: an entry without posts is left. -/
theorem groupJoin_leave (hbit : a.testBit 16 = true) (howner : ownerOf g m = some t.uid) (hheld : leaveHeld s sid t a = false)
    (hsole : ∀ p ∈ g.owners, p.1 ≠ m → p.2 ≠ t.uid) : groupJoin s sid t a =
      .ok 0 m (freeGroup (updStrand (updGroup s (a % 2 ^ 16) fun z => { z with owners := g.owners.filter fun p => p.1 != m }) sid
        fun z => dropDebt z (groupHandle (a % 2 ^ 16))) (a % 2 ^ 16)) := by
  rw [ownerOf] at howner
  have hnone : ((g.owners.filter fun p => p.1 != m).any fun p => p.2 == t.uid) = false := by
    rw [List.any_eq_false]
    intro p hp
    obtain ⟨hmem, hne⟩ := List.mem_filter.1 hp
    simpa using hsole p hmem (by simpa using hne)
  simp only [groupJoin, hfind, hmember, hbit, howner, hheld, hnone, beq_self_eq_true, Bool.not_true, Bool.and_false, Bool.false_eq_true,
    if_false, if_true]

theorem leaveHeld_eq (hstate : g.state ≠ 2) :
    leaveHeld s sid t a = s.plaza.posts.any fun p => p.gid == g.gid && p.member == m := by
  have hthere : (g.state != 2) = true := by simpa using hstate
  simp only [leaveHeld, hfind, Option.any_some, hmember, hthere, Bool.true_and]

end joins

/-- R380: a group that is not gone is not freed. -/
theorem freeGroup_kept (s : State) (gid : Nat) (g : Group) (hknown : (s.plaza.groups.find? fun g => g.gid == gid) = some g)
    (hstate : g.state ≠ 2) : freeGroup s gid = s := by
  simp [freeGroup, hknown, hstate]

theorem settleLeave_stage (z : State) (sid : Nat) (w : Wait) (hst : (getSlot z sid).st = .parked) (hwait : (strandAt z sid).wait = some w)
    (hform : w.form = 0x383) (hstage : w.stage = .test) : (strandAt (settleLeave z sid) sid).wait.map (·.stage) =
      some (.granted (if leaveHeld z sid (strandAt z sid) w.arg.toNat = true then 6 else 0)) := by
  rw [strandAt] at hwait
  have htest : ((getSlot z sid).st == .parked && w.form == 0x383 && w.stage == .test) = true := by simp [hst, hform, hstage]
  simp only [settleLeave, hwait, htest, if_true, strandAt_updStrand_same]
  rfl

/-! ## GRP.INFO and DOM.INFO (R263, R274) -/

theorem groupFact_eq (s : State) (sid : Nat) (t : Strand) (gid sel : Nat) : groupFact s sid t gid sel =
    (if 6 ≤ sel then 0
      else match findGroup s t.ctx gid with
        | none => BitVec.allOnes 64
        | some g =>
          let m := memberOf s g sid t.uid
          if sel = 0 then BitVec.ofNat 64 g.entries.length
          else if sel = 1 then (m.map fun i => BitVec.ofNat 64 i).getD (BitVec.allOnes 64)
          else if sel = 2 then BitVec.ofNat 64 ((m.map fun i => mapGet 0 g.posts i).getD 0)
          else BitVec.ofNat 64 (if sel = 3 then g.tickets else if sel = 4 then g.state else g.plaza)) := by
  rw [groupFact]
  by_cases h6 : 6 ≤ sel
  · rw [if_pos h6, if_pos h6]
  · rw [if_neg h6, if_neg h6]
    cases findGroup s t.ctx gid with
    | none => rfl
    | some g =>
      rcases (by omega : sel = 0 ∨ sel = 1 ∨ sel = 2 ∨ sel = 3 ∨ sel = 4 ∨ sel = 5) with rfl | rfl | rfl | rfl | rfl | rfl
      case inr.inl => dsimp only; cases memberOf s g sid t.uid <;> rfl
      all_goals rfl

theorem domFact_eq (s : State) (n : Nat) : domFact s n =
    (if n = 0 then s.dom.member else if n = 1 then s.dom.members.length else if n = 2 then s.dom.gen
      else if n = 3 then (if s.dom.state = 0 then s.dom.member else s.dom.plaza) else if n = 4 then s.dom.state
      else if n = 5 then s.dom.replays else if n = 6 then s.dom.retrans else 0) := by
  by_cases h7 : 7 ≤ n
  · obtain ⟨k, rfl⟩ := Nat.exists_eq_add_of_le' h7
    simp [domFact]
  · rcases (by omega : n = 0 ∨ n = 1 ∨ n = 2 ∨ n = 3 ∨ n = 4 ∨ n = 5 ∨ n = 6) with rfl | rfl | rfl | rfl | rfl | rfl | rfl
    all_goals simp [domFact]

/-! ## CPOST, CWAIT and CSTAT (R265 to R267) -/

theorem takeDescs_two {s E1 E2 : State} {sid : Nat} {t : Strand} {c : BitVec 512} {d1 d2 : List Byte}
    (hd1 : readBlock s sid t tableSpaces (tdAddr s t.ctx (fld c 0 48 8)) 64 = .ok E1 d1)
    (hd2 : readBlock E1 sid t tableSpaces (tdAddr E1 t.ctx (fld c 0 40 8)) 64 = .ok E2 d2) (f : State → List (BitVec 512) → Res) :
    takeDescs s sid t (namedDescs c) [] f = f E2 [BitVec.ofNat 512 (bytesNat d1), BitVec.ofNat 512 (bytesNat d2)] := by
  simp only [namedDescs, takeDescs, hd1, withBlock, hd2]
  rfl

/-- R265: a post of a member that the issuer owns, with its descriptors read and a place in the table. -/
theorem postBody_done (x : Args) (s E1 E2 : State) (sid : Nat) (t : Strand) (o : Opnds) (g : Group) (m : Nat) (d1 d2 : List Byte)
    (hnet : s.net = []) (hfind : findGroup s t.ctx (fld o.a 1 0 16) = some g) (hown : ownedBy g t.uid = some m)
    (hd1 : readBlock s sid t tableSpaces (tdAddr s t.ctx (fld o.a 0 48 8)) 64 = .ok E1 d1)
    (hd2 : readBlock E1 sid t tableSpaces (tdAddr E1 t.ctx (fld o.a 0 40 8)) 64 = .ok E2 d2) : postBody x none s sid t o =
      (if 512 ≤ E2.plaza.posts.length then .done (setG E2 sid x.d (statusOver 6 0))
      else .done (setG (enterPost E2 sid t o.a [BitVec.ofNat 512 (bytesNat d1), BitVec.ofNat 512 (bytesNat d2)] g m none).2 sid x.d
        (BitVec.ofNat 64 (g.gid * 2 ^ 32 + mapGet 0 g.posts m % 2 ^ 32)))) := by
  have hmember : postMember s t o.a = some (g, m) := by simp [postMember, hfind, hown]
  simp only [postBody, hmember, owesAck_quiet t.uid sid .dev hnet, takeDescs_two hd1 hd2]
  rfl

theorem tcRegister_plaza (s : State) (b : Nat) (c : BitVec 512) : (tcRegister s b c).plaza = s.plaza ∧ (tcRegister s b c).agenda = s.agenda := by
  rw [tcRegister]
  split <;> exact ⟨rfl, rfl⟩

/-- R265, R381: what a post without a trigger leaves. -/
theorem enterPost_kept (s : State) (sid : Nat) (t : Strand) (c : BitVec 512) (ds : List (BitVec 512)) (g : Group) (m : Nat)
    (hstate : g.state ≠ 2) :
    let z := (enterPost s sid t c ds g m none).2
    let k := mapGet 0 g.posts m
    z.mem = s.mem ∧ (∀ i, getSlot z i = getSlot s i) ∧
      z.plaza.posts = s.plaza.posts ++ [{ key := s.nextId, gid := g.gid, k := k, member := m, ctx := t.ctx, uid := t.uid, sid := sid
                                          blk := blkOf sid, cmd := c, descs := ds, trig := none, offered := true, state := 0, status := 0
                                          rank := none, withheld := false, startId := t.startId, written := false, sent := []
                                          failed := false, paid := 0 }] ∧
      z.agenda = s.agenda ++ [.event (.plazaPostArrival g.gid k m (collSig c))] := by
  intro z k
  let s1 := updGroup { s with nextId := s.nextId + 1 } g.gid fun x => { x with posts := mapPut x.posts m (k + 1) }
  obtain ⟨hmem, -, hslots⟩ := tcRegister_rest s1 (blkOf sid) c
  obtain ⟨hplaza, hagenda⟩ := tcRegister_plaza s1 (blkOf sid) c
  have hposts : (tcRegister s1 (blkOf sid) c).plaza.posts = s.plaza.posts := by rw [hplaza]; rfl
  have hgone : (g.state == 2) = false := by simpa using hstate
  have hz : z = { updPlaza (tcRegister s1 (blkOf sid) c) (fun z => { z with posts := z.posts ++
      [{ key := s.nextId, gid := g.gid, k := k, member := m, ctx := t.ctx, uid := t.uid, sid := sid, blk := blkOf sid, cmd := c, descs := ds
         trig := none, offered := true, state := 0, status := 0, rank := none, withheld := false, startId := t.startId, written := false
         sent := [], failed := false, paid := 0 }] }) with
      agenda := (tcRegister s1 (blkOf sid) c).agenda ++ [.event (.plazaPostArrival g.gid k m (collSig c))] } := by
    simp only [z, enterPost, hgone]
    rfl
  rw [hz]
  refine ⟨hmem, hslots, ?_, ?_⟩
  · exact congrArg (· ++ _) hposts
  · exact congrArg (· ++ _) hagenda

/-- R266: CWAIT on an ended collective. -/
theorem cwaitBody_over (x : Args) (s : State) (sid : Nat) (t : Strand) (o : Opnds) (hwait : t.wait = none) (gid k m : Nat)
    (hcoll : findColl s sid t o.aw = .over gid k m) :
    cwaitBody x s sid t o = .done (setG s sid x.d (BitVec.ofNat 64 (endedStatus s gid k m))) := by
  by_cases h0 : endedStatus s gid k m = 0 <;> simp [cwaitBody, hcoll, h0, readyStatus, wasWithheld, hwait]

/-- R266: CWAIT on a collective at work, with the time-out 0. -/
theorem cwaitBody_timeout (x : Args) (s : State) (sid : Nat) (t : Strand) (o : Opnds) (hwait : t.wait = none) (p : Post)
    (hcoll : findColl s sid t o.aw = .live p) (htime : timeOut x o = some 0) :
    cwaitBody x s sid t o = .done (setG s sid x.d 1) := by
  simp [cwaitBody, hcoll, waitOn, waitLeft, hwait, htime]

/-- R266: CWAIT on a collective at work, without a time-out. -/
theorem cwaitBody_parks (x : Args) (s : State) (sid : Nat) (t : Strand) (o : Opnds) (hwait : t.wait = none) (p : Post)
    (hcoll : findColl s sid t o.aw = .live p) (htime : timeOut x o = none) :
    cwaitBody x s sid t o = .park s (collHandle o.aw) 0 none .test := by
  simp [cwaitBody, hcoll, waitOn, waitLeft, hwait, htime]

/-! ## TREE (R268) -/

/-- R268: the open round of a channel with a contribution more. -/
def treeWith (s : State) (key : Nat) (r : TreeRound) : State := { s with trees := mapPut s.trees key r, nextId := s.nextId + 1 }

/-- R268: TREE of a block that is not in the open round adds its contribution, and waits. -/
theorem treeBody_parks (s : State) (sid : Nat) (t : Strand) (o : Opnds) (hnet : s.net = [])
    (hnew : ∀ p ∈ (mapGet TreeRound.init s.trees (treeKey t.ctx (distOf sid) (treeChan o))).parts, p.1 ≠ blkOf sid) :
    ∃ r, r.parts = (mapGet TreeRound.init s.trees (treeKey t.ctx (distOf sid) (treeChan o))).parts ++ [(blkOf sid, t.uid, o.aw)] ∧
      treeBody s sid t o = .park (treeWith s (treeKey t.ctx (distOf sid) (treeChan o)) r) 0 0 none (.asked s.nextId) := by
  have hfirst : ((mapGet TreeRound.init s.trees (treeKey t.ctx (distOf sid) (treeChan o))).parts.any fun p => p.1 == blkOf sid) = false := by
    rw [List.any_eq_false]
    exact fun p hp => by simpa using hnew p hp
  simp only [treeBody, owesAck_quiet t.uid sid .dst hnet, hfirst, Bool.false_eq_true, if_false]
  exact ⟨_, by split <;> rfl, rfl⟩

theorem parkAt_stage (s : State) (sid op : Nat) (obj arg : Word) (left : Option Nat) (stage : Stage) (o : Option Opnds) (rs : List RegRef)
    (word : BitVec 96) : (strandAt (parkAt s sid op obj arg left stage o rs word) sid).wait.map (·.stage) = some stage := by
  simp [strandAt, parkAt]

/-- Settles O55: each form by the equations of its body; the groups and posts that change by `addGroup_known`, `known_updGroup` and
`enterPost_kept`. -/
theorem groupResults : Obligations.GroupResults := by
  intro x s n hd a t ends answers parks known
  let E := entry x s
  have hplaza : E.plaza = s.plaza := entry_plaza x s
  refine ⟨fun hc hown => ?make, fun o hres hrange hgrant => ?denied, fun z sid w hst hwait hform hstage =>
    settleLeave_stage z sid w hst hwait hform hstage, fun hc hrange hwait => ?join, fun hc => ?info,
    fun g m d1 d2 E1 E2 hc hnet hwait => ?post, fun hc hwait => ?cwait, fun hc => ?cstat, fun hc hnet => ?tree, fun hc => ?dom⟩
  case make =>
    intro k es
    refine ⟨fun hcount => run_setG 0x382 x (grpMakeBody x) s n _ hc hd (grpMakeBody_count x E s.cur t (ops x s) hown hcount),
      fun h1 h1024 hin hresv hpoison => ?_⟩
    have hes : es = (List.range k).map fun i => readLe E.mem (ownKey s a + 4 * i) 4 := by simp only [E, entry_mem]; rfl
    have hmake (hlocal : listOk E es = false ∨ localList E es = true) := grpMakeBody_done x E s.cur t (ops x s) es hown h1 h1024 hin
      ((reserved_entry ..).trans hresv) ((poisoned_entry ..).trans hpoison) hes hlocal
    have hok_E : listOk E es = listOk s es := by simp only [listOk, E, entry_dom]
    have hlocal_E : localList E es = localList s es := by simp only [localList, E, entry_dom]
    have hready_E : listReady E es = listReady s es := by
      obtain ⟨cs, hcs⟩ := entry_cores x s
      simp only [E, hcs]
      rfl
    have hids_E : freeIds E 0x8000 1024 = freeIds s 0x8000 1024 := by simp only [freeIds, hplaza]
    refine ⟨fun hok => ?_, fun hok hlocal hready => ?_, fun hok hlocal hids => ?_, fun hok hlocal hready hids => ?_⟩
    · have hbody := hmake (.inl (hok_E.trans hok))
      rw [createGroup_bad E t.ctx es (hok_E.trans hok)] at hbody
      exact run_setG 0x382 x (grpMakeBody x) s n _ hc hd hbody
    · have hbody := hmake (.inr (hlocal_E.trans hlocal))
      rw [createGroup_busy E t.ctx es (hok_E.trans hok) (hlocal_E.trans hlocal) (.inl (hready_E.trans hready))] at hbody
      exact run_setG 0x382 x (grpMakeBody x) s n _ hc hd hbody
    · have hbody := hmake (.inr (hlocal_E.trans hlocal))
      rw [createGroup_busy E t.ctx es (hok_E.trans hok) (hlocal_E.trans hlocal) (.inr (hids_E.trans hids))] at hbody
      exact run_setG 0x382 x (grpMakeBody x) s n _ hc hd hbody
    · have hbody := hmake (.inr (hlocal_E.trans hlocal))
      obtain ⟨gid, hfree, hcreate⟩ := createGroup_made E t.ctx es (hok_E.trans hok) (hlocal_E.trans hlocal) (hready_E.trans hready)
        (by rw [hids_E]; exact hids)
      rw [hcreate] at hbody
      refine ⟨gid, hids_E ▸ hfree, _, run_done 0x382 x (grpMakeBody x) s _ hc hbody, entry_mem x s, ?_⟩
      refine (addGroup_known _ gid t.ctx es E.dom.member hfree).trans ?_
      simp only [E, entry_dom]
  case denied =>
    have hbody : grpJoinBody x s s.cur t o = .done (setG s s.cur x.d (statusOver 6
        (((findGroup s t.ctx (o.aw.toNat % 2 ^ 16)).bind fun g => joinMember s s.cur g o.aw.toNat).getD 0))) := by
      have hsmall : (o.aw.toNat / 2 ^ 18 != 0) = false := by rw [Nat.div_eq_of_lt hrange]; rfl
      simp only [grpJoinBody, hsmall, hgrant, beq_self_eq_true, Bool.false_eq_true, if_false, if_true]
    have hrun := run_resumed 0x383 x (grpJoinBody x) s o hres
    rw [hbody] at hrun
    exact ⟨_, hrun⟩
  case join =>
    intro gid e
    have hanswer (status m : Nat) (hjoin : groupJoin E s.cur t a.toNat = .ok status m E) : answers (.grpJoin x) (statusOver status m) :=
      run_setG 0x383 x (grpJoinBody x) s n _ hc hd (grpJoinBody_done x E s.cur t (ops x s) hwait hrange hjoin)
    have hmember_E (g : Group) : joinMember E s.cur g a.toNat = indexOf g e := joinMember_entry x s s.cur g a.toNat
    have hfind_E : findGroup E t.ctx gid = findGroup s t.ctx gid := findGroup_entry ..
    have hknown_E (g : Group) (hknown : known s gid = some g) (hctx : g.ctx = t.ctx) : findGroup E t.ctx gid = some g :=
      hfind_E.trans (findGroup_known s t.ctx gid g hknown hctx)
    refine ⟨fun hnone => hanswer 4 0 (groupJoin_unknown E s.cur t _ (hfind_E.trans hnone)),
      fun g hknown hctx hidx => hanswer 4 0 (groupJoin_stranger E s.cur t _ g (hknown_E g hknown hctx) ((hmember_E g).trans hidx)),
      fun g m hknown hctx hidx hstate => ?_⟩
    intro owner
    have hfind := hknown_E g hknown hctx
    have hmember := (hmember_E g).trans hidx
    have hgid : g.gid = gid := by simpa using List.find?_some hknown
    have hknown' : (E.plaza.groups.find? fun g => g.gid == gid) = some g := by rw [hplaza]; exact hknown
    have hheld := leaveHeld_eq E s.cur t a.toNat g m hfind hmember hstate
    rw [hplaza, hgid] at hheld
    refine ⟨fun hbit howner hdebt => ?_, fun hbit ⟨u, howner, hother, hlives⟩ =>
      hanswer 6 m (groupJoin_owned E s.cur t _ g m hfind hmember hbit hstate u howner hother hlives), fun hbit howner hposts hsole => ?_,
      fun hbit howner ⟨p, hp, hpost⟩ => ?_, fun hbit howner => hanswer 4 m (groupJoin_leaveOther E s.cur t _ g m hfind hmember hbit howner)⟩
    · refine ⟨_, run_done 0x383 x (grpJoinBody x) s _ hc (grpJoinBody_done x E s.cur t (ops x s) hwait hrange
        (groupJoin_free E s.cur t _ g m hfind hmember hbit hstate howner hdebt)), entry_mem x s, ?_, ?_⟩
      · rw [strandAt_updStrand_same]
        exact owes_addDebt _ _
      · exact known_updGroup E gid _ g hknown' rfl
    · have hnone : leaveHeld E s.cur t a.toNat = false := by
        rw [hheld, List.any_eq_false]
        intro p hp
        simpa using fun h1 h2 => hposts p hp ⟨h1, h2⟩
      have hleft := known_updGroup E gid (fun z => { z with owners := g.owners.filter fun p => p.1 != m }) g hknown' rfl
      have hkept := freeGroup_kept (updStrand (updGroup E gid fun z => { z with owners := g.owners.filter fun p => p.1 != m }) s.cur
        fun z => dropDebt z (groupHandle gid)) gid _ hleft hstate
      have hjoin := (groupJoin_leave E s.cur t _ g m hfind hmember hbit howner hnone hsole).trans (congrArg (Joined.ok 0 m) hkept)
      refine ⟨_, run_done 0x383 x (grpJoinBody x) s _ hc (grpJoinBody_done x E s.cur t (ops x s) hwait hrange hjoin), entry_mem x s, ?_,
        hleft⟩
      rw [strandAt_updStrand_same]
      exact owes_dropDebt _ _
    · have hyes : leaveHeld E s.cur t a.toNat = true := by
        rw [hheld, List.any_eq_true]
        exact ⟨p, hp, by simp [hpost.1, hpost.2]⟩
      have hrun : exec (.grpJoin x) s = .next (settle 0x383 x s.cur (ops x s) (grpJoinBody x E s.cur t (ops x s))) :=
        run_ops 0x383 x (grpJoinBody x) s hc rfl
      rw [grpJoinBody_waits x E s.cur t (ops x s) hwait hrange (groupJoin_leaveHeld E s.cur t _ g m hfind hmember hbit howner hwait hyes)]
        at hrun
      obtain ⟨hst, hpc, hmem⟩ := park_leaves 0x383 x s E (ops x s) 0 a none .test rfl rfl
      exact ⟨_, hrun, hst, hpc, hmem, parkAt_stage ..⟩
  case info =>
    refine run_setG 0x384 x (fun s sid t o => .done (setG s sid x.d (groupFact s sid t (o.aw.toNat % 2 ^ 16) o.bw.toNat))) s n _ hc hd ?_
    refine congrArg (fun v => Res.done (setG E s.cur x.d v)) ((groupFact_eq ..).trans ?_)
    simp only [findGroup_entry, memberOf_entry]
    rfl
  case post =>
    intro E' c k hfind hown hd1 hd2
    have hbody := postBody_done x E' E1 E2 s.cur t (ops4 x s) g m d1 d2 ((entry_net ..).trans hnet) ((findGroup_entry ..).trans hfind) hown
      hd1 hd2
    refine ⟨fun hfull => ?_, fun hroom hstate => ?_⟩
    · exact run_done 0x385 x (postBody x none) s _ hc (hbody.trans (if_pos hfull))
    · obtain ⟨hmem, hslots, hposts, hagenda⟩ := enterPost_kept E2 s.cur t c [BitVec.ofNat 512 (bytesNat d1), BitVec.ofNat 512 (bytesNat d2)]
        g m hstate
      exact ⟨_, run_done 0x385 x (postBody x none) s _ hc (hbody.trans (if_neg (Nat.not_le.2 hroom))), hmem, hslots, hposts, hagenda⟩
  case cwait =>
    have hcoll_E : findColl E s.cur t a = findColl s s.cur t a := findColl_entry ..
    refine ⟨fun gid k m hcoll => ?_, fun p hcoll htime => ?_, fun p hcoll htime => ?_⟩
    · refine run_setG 0x386 x (cwaitBody x) s n _ hc hd ((cwaitBody_over x E s.cur t (ops x s) hwait gid k m (hcoll_E.trans hcoll)).trans ?_)
      rw [endedStatus_entry]
    · exact run_setG 0x386 x (cwaitBody x) s n _ hc hd (cwaitBody_timeout x E s.cur t (ops x s) hwait p (hcoll_E.trans hcoll) htime)
    · have hrun : exec (.cwait x) s = .next (settle 0x386 x s.cur (ops x s) (cwaitBody x E s.cur t (ops x s))) :=
        run_ops 0x386 x (cwaitBody x) s hc rfl
      rw [cwaitBody_parks x E s.cur t (ops x s) hwait p (hcoll_E.trans hcoll) htime] at hrun
      obtain ⟨hst, hpc, hmem⟩ := park_leaves 0x386 x s E (ops x s) (collHandle a) 0 none .test rfl rfl
      exact ⟨_, hrun, hst, hpc, hmem, trivial⟩
  case cstat =>
    have hcoll_E : findColl E s.cur t a = findColl s s.cur t a := findColl_entry ..
    refine ⟨fun p hcoll => ?_, fun gid k m e hcoll hended => ?_⟩
    · refine run_setG 0x387 x (cstatBody x) s n _ hc hd ?_
      have hlive : findColl E s.cur t (readOpnds (acting s) x (fourOf 0x387)).aw = .live p := hcoll_E.trans hcoll
      simp only [cstatBody, E, t] at hlive ⊢
      rw [hlive]
    · refine run_setG 0x387 x (cstatBody x) s n _ hc hd ?_
      have hover : findColl E s.cur t (readOpnds (acting s) x (fourOf 0x387)).aw = .over gid k m := hcoll_E.trans hcoll
      have hended_E : findEnded E gid k m = some e := by rw [findEnded, hplaza]; exact hended
      simp only [cstatBody, E, t] at hover hended_E ⊢
      rw [hover]
      simp only [hended_E]
  case tree =>
    intro key r hnew
    obtain ⟨r1, hparts, hbody⟩ := treeBody_parks E s.cur t (ops x s) ((entry_net ..).trans hnet) (by rw [entry_trees]; exact hnew)
    have hrun : exec (.tree x) s = .next (settle 0x388 x s.cur (ops x s) (treeBody E s.cur t (ops x s))) := run_ops 0x388 x treeBody s hc rfl
    rw [hbody] at hrun
    obtain ⟨hst, hpc, hmem⟩ := park_leaves 0x388 x s (treeWith E key r1) (ops x s) 0 0 none (.asked E.nextId) rfl rfl
    have htrees (j : Nat) : mapGet TreeRound.init (mapPut E.trees key r1) j = if j = key then r1 else mapGet TreeRound.init s.trees j := by
      rw [mapGet_put, entry_trees]
    refine ⟨_, hrun, hst, hpc, hmem, ?_, fun j hj => ?_⟩
    · refine (congrArg TreeRound.parts ((htrees key).trans (if_pos rfl))).trans (hparts.trans ?_)
      rw [entry_trees]
    · exact (htrees j).trans (if_neg hj)
  case dom =>
    refine run_setG 0x38E x (fun s sid _ o => .done (setG s sid x.d (BitVec.ofNat 64 (domFact s o.aw.toNat)))) s n _ hc hd ?_
    refine congrArg (fun v => Res.done (setG E s.cur x.d (BitVec.ofNat 64 v))) ((domFact_eq ..).trans ?_)
    simp only [entry_dom]
    rfl

end Sys2Proof.Machine
end

section
/-! SUPPORT. LAUNCH and SPAWN (R259, R260, R364), and the theorem that settles the statement. -/

namespace Sys2Proof.Machine
open Sys2Proof

theorem getLaunch_entry (x : Args) (s : State) (e : Nat) : getLaunch (entry x s) e = getLaunch s e := by
  rw [getLaunch, getLaunch, entry_launches]

theorem getLaunch_put {s z : State} {e : Nat} {l : Launch} (h : z.launches = mapPut s.launches e l) (i : Nat) :
    getLaunch z i = if i = e then l else getLaunch s i := by
  rw [getLaunch, h, mapGet_put]
  rfl

/-- R259: LAUNCH of a record that it can read answers as the Interchange accepts it. -/
theorem launchBody_done (x : Args) (s E1 : State) (sid : Nat) (t : Strand) (o : Opnds) (bs : List Byte) (hnet : s.net = [])
    (halign : o.aw.toNat % 256 = 0) (hread : readBlock s sid t recordSpaces o.aw 256 = .ok E1 bs) {status id : Nat} {z : State}
    (haccept : acceptLaunch E1 t.ctx (bytesWords bs) false = (status, id, z)) :
    launchBody x s sid t o = .done (setG z sid x.d (statusOver status id)) := by
  have hmis : (o.aw.toNat % 256 != 0) = false := by simp [halign]
  simp only [launchBody, hmis, owesAck_quiet t.uid sid .dev hnet, hread, withBlock, haccept, Bool.false_eq_true, if_false]

/-- R364: the checks of a record. -/
def recordBad (s : State) (ctx : Nat) (ws : List Word) : Bool :=
  lrMalformed ws false || (lrDeps ws).any (depBad s ctx) || levelBad (getCtx s ctx) ws

theorem acceptLaunch_bad (s : State) (ctx : Nat) (ws : List Word) (hbad : recordBad s ctx ws = true) :
    acceptLaunch s ctx ws false = (4, 0, s) := by
  rw [recordBad] at hbad
  simp only [acceptLaunch, hbad, if_true]

theorem acceptLaunch_busy (s : State) (ctx : Nat) (ws : List Word) (hgood : recordBad s ctx ws = false) (hfull : launchEntry s = none) :
    acceptLaunch s ctx ws false = (6, 0, s) := by
  rw [recordBad] at hgood
  simp only [acceptLaunch, hgood, hfull, Bool.false_eq_true, if_false]

/-- R361, R364: a launch with no dependence that ended ABORTED is held in its entry. -/
theorem acceptLaunch_held (s : State) (ctx : Nat) (ws : List Word) (e : Nat) (hgood : recordBad s ctx ws = false)
    (hentry : launchEntry s = some e) (hdead : (lrDeps ws).any (depAborted s) = false) : acceptLaunch s ctx ws false =
      (0, ((getLaunch s e).gen + 1) % 2 ^ 37 * 2048 + e, updCtx { updLaunch s e (fun _ =>
        { gen := ((getLaunch s e).gen + 1) % 2 ^ 37, live := true, ctx := ctx, words := ws, state := 0, status := 0, expected := lrCount ws
          retired := 0, sentUnits := 0, order := s.nextId, dropped := [], ending := none }) with nextId := s.nextId + 1 } ctx
        fun x => enterLevels x ws) := by
  rw [recordBad] at hgood
  simp only [acceptLaunch, hgood, hentry, hdead, Bool.false_eq_true, if_false]

/-- R260: SPAWN with its record in the own scratchpad and nothing unacknowledged, of a launch that can count a unit more. -/
theorem spawnBody_done (x : Args) (s : State) (sid : Nat) (t : Strand) (o : Opnds) (blk : Nat) (core : Option Nat) (hnet : s.net = [])
    (hid : t.launchid.toNat ≠ 0) (hhome : spawnHome s sid t o.aw = .home blk core) (hown : ownSpace (recordAddr x o) 64)
    (hroom : (getLaunch s (t.launchid.toNat % 2048)).state = 4 ∨ (getLaunch s (t.launchid.toNat % 2048)).expected < 0xFFFFFF)
    (hresv : reserved s (spadKey (coreOf sid) ((recordAddr x o).toNat % 2 ^ 56)) 64 = false)
    (hpoison : poisoned s (spadKey (coreOf sid) ((recordAddr x o).toNat % 2 ^ 56)) 64 = false) {status uid : Nat} {z : State}
    (hspawn : spawnUnit s sid t x (bytesWords (readBytes s.mem (spadKey (coreOf sid) ((recordAddr x o).toNat % 2 ^ 56)) 64)) blk core =
      (status, uid, z)) :
    spawnBody x s sid t o = .done (setG z sid x.d (statusOver status uid)) := by
  have hid0 : (t.launchid.toNat == 0) = false := by simpa using hid
  have hspace : (recordAddr x o >>> 56 != 0xF0) = false := by simp [hown.1]
  have halign : ((recordAddr x o).toNat % 64 != 0) = false := by simp [hown.2.2]
  have hcount : ((getLaunch s (t.launchid.toNat % 2048)).state != 4 &&
      decide (0xFFFFFF < (getLaunch s (t.launchid.toNat % 2048)).expected + 1)) = false := by
    rcases hroom with h4 | hlt
    · simp [h4]
    · simp only [Bool.and_eq_false_iff, decide_eq_false_iff_not]
      right; omega
  have hread := readBlock_own s sid t [0xF0] (recordAddr x o) 64 hown (by decide) (by decide) rfl hresv hpoison
  simp only [spawnBody, hid0, hhome, hspace, halign, hcount, owesAck_quiet t.uid sid .dev hnet, hread, withBlock, hspawn,
    Bool.false_eq_true, if_false]

/-- R260, R372: the launch counts the unit and it leaves. -/
def unitSent (s : State) (sid : Nat) (t : Strand) (x : Args) (ws : List Word) (blk : Nat) (core : Option Nat) : State :=
  let id := t.launchid.toNat
  let s1 := updLaunch s (id % 2048) fun k => { k with expected := k.expected + 1, state := if k.state == 2 then 1 else k.state }
  sendUnit (updStrand s1 sid fun z => { z with spawns := z.spawns + 1 })
    { id := sid % 2 ^ 15 * 2 ^ 33 + t.spawns % 2 ^ 33, launch := id, words := ws } (blkOf sid :: pathTo (blkOf sid) blk) blk
    (spawnRadius x (getLaunch s (id % 2048))) core

theorem unitSent_spawns (s : State) (sid : Nat) (t : Strand) (x : Args) (ws : List Word) (blk : Nat) (core : Option Nat) :
    (strandAt (unitSent s sid t x ws blk core) sid).spawns = (strandAt s sid).spawns + 1 := by
  have hslot (y : State) (f : Strand → Strand) (l : List UnitFlight) (n : Nat) :
      strandAt { updStrand y sid f with corners := l, nextId := n } sid = f (strandAt y sid) := strandAt_updStrand_same y sid f
  rw [unitSent, sendUnit, hslot]
  rfl

theorem spawnUnit_sent (s : State) (sid : Nat) (t : Strand) (x : Args) (ws : List Word) (blk : Nat) (core : Option Nat)
    (hstate : (getLaunch s (t.launchid.toNat % 2048)).state ≠ 4)
    (hgen : launchId (getLaunch s (t.launchid.toNat % 2048)) (t.launchid.toNat % 2048) = t.launchid.toNat) :
    spawnUnit s sid t x ws blk core = (0, sid % 2 ^ 15 * 2 ^ 33 + t.spawns % 2 ^ 33, unitSent s sid t x ws blk core) := by
  have hlive : ((getLaunch s (t.launchid.toNat % 2048)).state == 4 ||
      launchId (getLaunch s (t.launchid.toNat % 2048)) (t.launchid.toNat % 2048) != t.launchid.toNat) = false := by
    simp [hstate, hgen]
  simp only [spawnUnit, hlive, Bool.false_eq_true, if_false]
  rfl

theorem spawnUnit_cancelled (s : State) (sid : Nat) (t : Strand) (x : Args) (ws : List Word) (blk : Nat) (core : Option Nat)
    (hstate : (getLaunch s (t.launchid.toNat % 2048)).state = 4) : spawnUnit s sid t x ws blk core = (4, 0, s) := by
  have hdead : ((getLaunch s (t.launchid.toNat % 2048)).state == 4 ||
      launchId (getLaunch s (t.launchid.toNat % 2048)) (t.launchid.toNat % 2048) != t.launchid.toNat) = true := by
    simp [hstate]
  simp only [spawnUnit, hdead, if_true]

/-- Settles O56: what the Interchange accepts by `acceptLaunch`'s three cases, what a unit leaves by `unitSent`. -/
theorem launchResults : Obligations.LaunchResults := by
  intro x s a t E ends
  refine ⟨fun bs E1 hc hnet halign hread => ?launch, fun blk core hc hnet => ?spawn⟩
  case launch =>
    intro ends1 ws bad
    have hnet_E : E.net = [] := (entry_net x s).trans hnet
    have hdone {status id : Nat} {z : State} (haccept : acceptLaunch E1 t.ctx ws false = (status, id, z)) :
        exec (.launch x) s = .next (finishAt (setG z s.cur x.d (statusOver status id)) s.cur) :=
      run_done 0x380 x (launchBody x) s _ hc (launchBody_done x E E1 s.cur t (ops x s) bs hnet_E halign hread haccept)
    refine ⟨fun hbad => ⟨E1, hdone (acceptLaunch_bad E1 t.ctx ws hbad), rfl, rfl, rfl⟩,
      fun hgood hfull => ⟨E1, hdone (acceptLaunch_busy E1 t.ctx ws hgood hfull), rfl, rfl, rfl⟩, fun e hgood hentry hdead => ?_⟩
    intro gen
    refine ⟨_, hdone (acceptLaunch_held E1 t.ctx ws e hgood hentry hdead), rfl, rfl, ?_, fun i hi => ?_, fun k => rfl⟩
    · exact (getLaunch_put (s := E1) (e := e) rfl e).trans (if_pos rfl)
    · exact (getLaunch_put (s := E1) (e := e) rfl i).trans (if_neg hi)
  case spawn =>
    intro id l b unit hid hhome hown hresv hpoison
    have hl : getLaunch E (id % 2048) = l := getLaunch_entry ..
    have hdone (hroom : l.state = 4 ∨ l.expected < 0xFFFFFF) {status uid : Nat} {z : State}
        (hspawn : spawnUnit E s.cur t x (bytesWords (readBytes s.mem (ownKey s b) 64)) blk core = (status, uid, z)) :
        exec (.spawn x) s = .next (finishAt (setG z s.cur x.d (statusOver status uid)) s.cur) := by
      refine run_done 0x381 x (spawnBody x) s _ hc (spawnBody_done x E s.cur t (ops x s) blk core ((entry_net x s).trans hnet) hid hhome hown
        (by rw [hl]; exact hroom) ((reserved_entry ..).trans hresv) ((poisoned_entry ..).trans hpoison) ?_)
      rw [entry_mem]
      exact hspawn
    refine ⟨fun hstate hgen hlt => ?_, fun hstate => ?_⟩
    · refine ⟨_, hdone (.inr hlt) (spawnUnit_sent E s.cur t x _ blk core (by rw [hl]; exact hstate) (by rw [hl]; exact hgen)),
        entry_mem x s, entry_net x s, ?_, ?_, ?_⟩
      · have hcorners : E.corners = s.corners := entry_corners x s
        have hnext : E.nextId = s.nextId := entry_nextId x s
        refine Eq.trans (b := E.corners ++ [{ k := E.nextId, unit := { id := unit, launch := id, words := bytesWords (readBytes s.mem (ownKey s b) 64) }
                                              route := blkOf s.cur :: pathTo (blkOf s.cur) blk, hint := blk
                                              radius := spawnRadius x (getLaunch E (id % 2048)), core := core, queued := false
                                              offered := false }]) rfl ?_
        rw [hcorners, hnext, hl]
      · refine (getLaunch_put (s := E) (e := id % 2048) rfl (id % 2048)).trans ((if_pos rfl).trans ?_)
        rw [show getLaunch E (t.launchid.toNat % 2048) = l from hl]
        simp
      · have hspawns : (strandAt E s.cur).spawns = t.spawns := by
          have hctl := sameCtl_cleared x t
          rw [strandAt_entry, hctl]
        rw [unitSent_spawns, hspawns]
    · exact ⟨E, hdone (.inl hstate) (spawnUnit_cancelled E s.cur t x _ blk core (by rw [hl]; exact hstate)), entry_mem x s, entry_net x s,
        rfl⟩

end Sys2Proof.Machine
end

section
/-! SUPPORT. The KV forms (R269 to R273, R413, R414), and the theorem that settles the statement. -/

namespace Sys2Proof.Machine
open Sys2Proof

/-! ## What the block table is read from -/

/-- Two states have the same block tables: the same memory, and the same registers of contexts. -/
structure SameTable (y z : State) : Prop where
  mem : y.mem = z.mem
  regs : ∀ c, (getCtx y c).regs = (getCtx z c).regs

section tables
variable {y z : State} (h : SameTable y z)
include h

theorem SameTable.reg (c off : Nat) : ctxReg y c off = ctxReg z c off := by rw [ctxReg, ctxReg, h.regs]

theorem SameTable.mapped (c k : Nat) : kvMapped y c k = kvMapped z c k := by
  simp only [kvMapped, kvEntryAddr, h.reg, h.mem]

theorem SameTable.desc (c i : Nat) : kvDesc y c i = kvDesc z c i := by
  simp only [kvDesc, kvDescAddr, h.reg, h.mem]

theorem SameTable.status (c k st : Nat) : kvStatus y c k st = kvStatus z c k st := by
  rw [kvStatus, kvStatus, h.mapped]
  cases kvMapped z c k with
  | none => rfl
  | some i => simp only [h.desc]

theorem SameTable.held (hcopies : y.kvCopies = z.kvCopies) (c k : Nat) : kvHeld y c k = kvHeld z c k := by
  simp only [kvHeld, h.mapped, hcopies]

end tables

/-- States that differ in tallies of packets have the same block tables. -/
theorem Tallied.sameTable {s z : State} (h : Tallied s z) : SameTable z s :=
  ⟨h.mem, fun c => by obtain ⟨m, r, v, hctx⟩ := h.ctxs c; rw [hctx]⟩

theorem kvKeyBad_entry (x : Args) (s : State) (c : Nat) (a : Word) : kvKeyBad (entry x s) c a = kvKeyBad s c a := by
  obtain ⟨cs, hcs⟩ := entry_cores x s
  rw [hcs]
  rfl

/-! ## A KV form is one event (R413) -/

/-- Of a context only the tallies of its packets may differ. -/
def SameCtxs (y z : State) : Prop := ∀ c, ∃ m r v, getCtx y c = { getCtx z c with sent := m, recv := r, saved := v }

theorem SameCtxs.regs {y z : State} (h : SameCtxs y z) (c : Nat) : (getCtx y c).regs = (getCtx z c).regs := by
  obtain ⟨m, r, v, hctx⟩ := h c
  rw [hctx]

/-- What a KV form leaves whose event answers `w` and leaves `z`. -/
structure KvLeaves (s : State) (n : Nat) (w : Word) (z y : State) : Prop where
  mem : y.mem = z.mem
  ctxs : SameCtxs y z
  copies : y.kvCopies = z.kvCopies
  retires : y.retires = z.retires
  ready : (getSlot y s.cur).st = .ready
  answer : readG (strandAt y s.cur) n = (if n = 0 then 0 else w)
  pc : (strandAt y s.cur).pc = (endCheck (acting s)).pc

/-- R413: the state in which a KV form's event comes about. -/
structure KvStart (s W : State) : Prop where
  mem : W.mem = s.mem
  ctxs : SameCtxs W s
  copies : W.kvCopies = s.kvCopies
  poison : W.poison = s.poison

theorem KvStart.table {s W : State} (h : KvStart s W) : SameTable W s := ⟨h.mem, h.ctxs.regs⟩

theorem destOf_g {o : Opd} {n : Nat} (hd : gField o = some n) : destOf o = some (.g n) := by
  cases o with
  | reg r =>
    simp only [gField] at hd
    split at hd
    · rename_i hcls
      have hg : r.cls = .g := by simpa using hcls
      simp only [destOf, hg]
      rw [← Option.some.inj hd]
    · simp at hd
  | _ => simp [gField] at hd

/-- A packet that has been performed lands at once. -/
theorem awaitPkt_landed {s z : State} {k sid : Nat} {p : Pkt} {r : RegRef} {m : BitVec 16} {v : Vec} (htake : takeDone s k = (some p, z))
    (hbad : p.bad = none) (hland : landing p = some (r, m, v)) : awaitPkt k s (landDone sid) = .done (updStrand z sid (landIn r m v)) := by
  simp only [awaitPkt, awaitOn, htake, hbad, landDone, hland]

/-- R413: with nothing else under way a KV form with good operands and keys is its event, performed at once, and its answer. -/
theorem kvForm_event (opc op : Nat) (x : Args) (bad : Opnds → Option Word) (s : State) (n : Nat) (hd : gField x.d = some n)
    (hnet : s.net = []) (hresv : s.resv = []) (hserved : s.served = []) (hprompt : s.prompt = true) (hc : clear opc x s = true)
    (hfour : fourOf opc = false) (hgood : bad (ops x s) = none)
    (hkey : kvKeyBad s (kvCtx op (acting s).ctx (ops x s).aw) (ops x s).aw = none)
    (hkey2 : op = 2 → kvKeyBad s (acting s).ctx (ops x s).bw = none) :
    ∃ W, KvStart s W ∧ ∀ w z, kvEvent W (acting s).ctx op (ops x s).aw (ops x s).bw s.nextId = .status w z →
      ∃ y, run opc x (kvForm x op bad) s = .next y ∧ KvLeaves s n w z y := by
  let E := entry x s
  let t := acting s
  let o := ops x s
  obtain ⟨p, W, htally, hWnet, hp, -, hissue⟩ := issuePkt_now E (.core (coreOf s.cur)) .kvUnit t.uid s.cur t.ctx (.kv op o.aw o.bw (.g n)) none 0
    ((entry_net ..).trans hnet) ((entry_resv ..).trans hresv) ((entry_served ..).trans hserved) ((entry_prompt ..).trans hprompt)
    (by simp [rateLimited]) (fun c hc => by simp at hc) trivial
  have hbody : p.body = .kv op o.aw o.bw (.g n) := by rw [hp]; rfl
  have hctx : p.ctx = t.ctx := by rw [hp]; rfl
  have hk : p.k = s.nextId := by rw [hp]; exact entry_nextId x s
  have hpbad : p.bad = none := by rw [hp]; rfl
  have hentry_ctxs (c : Nat) : getCtx E c = getCtx s c := by rw [getCtx, getCtx, entry_ctxs]
  refine ⟨W, ⟨htally.mem.trans (entry_mem x s), fun c => ?_, ?_, ?_⟩, fun w z hevent => ?_⟩
  · obtain ⟨m, r, v, h⟩ := htally.ctxs c
    exact ⟨m, r, v, by rw [h, hentry_ctxs]⟩
  · rw [htally.rest]; exact entry_kvCopies x s
  · rw [htally.rest]; exact entry_poison x s
  · obtain ⟨hznet, hzcores⟩ := kvKeep_event W _ _ _ _ _ _ _ hevent
    have hbehind : kvBehind W p = false := by simp [kvBehind, hWnet]
    have harrive : arrive true W p = performed z p (w.setWidth 512) := by
      have hhome : p.home = .kvUnit := by rw [hp]; rfl
      rw [arrive]
      simp only [hhome, hbody, hbehind, hctx, hk]
      simp only [o, t] at hevent ⊢
      rw [hevent]
      rfl
    obtain ⟨Y, htake, hY, -⟩ := performed_now z p (w.setWidth 512) (hznet.trans hWnet)
    have hsend : sendFrom E s.cur t .kvUnit (.kv op o.aw o.bw (.g n)) none 0 = (p.k, arrive true W p) := hissue
    have hform : kvForm x op bad E s.cur t o = .done (updStrand Y s.cur (landIn (.g n) 0xFFFF (w.setWidth 128))) := by
      have hkey_E := (kvKeyBad_entry x s _ _).trans hkey
      have hkey2_E : (if op == 2 then kvKeyBad E t.ctx o.bw else none) = none := by
        by_cases h2 : op = 2
        · rw [if_pos (by simp [h2]), kvKeyBad_entry]; exact hkey2 h2
        · rw [if_neg (by simpa using h2)]
      have hkey1 : kvKeyBad E (kvCtx op t.ctx o.aw) o.aw = none := hkey_E
      have hland : awaitPkt p.k (performed z p (w.setWidth 512)) (landDone s.cur) =
          .done (updStrand Y s.cur (landIn (.g n) 0xFFFF (w.setWidth 128))) := by
        have hans : landing { toSource p with ans := w.setWidth 512 } = some (.g n, 0xFFFF, w.setWidth 128) := by
          simp [landing, toSource, hbody]
        have hgood_p : (toSource p).bad = none := hpbad
        exact awaitPkt_landed htake hgood_p hans
      simp only [kvForm, hgood, hkey1, hkey2_E, destOf_g hd, Option.getD_some, hsend, harrive, hland, o]
    have hslots (i : Nat) : getSlot Y i = getSlot E i := by
      rw [hY.slots, getSlot, getCore, hzcores, ← getCore, ← getSlot, htally.slots]
    obtain ⟨hread, hpc⟩ := landDone_reads s x Y hslots n w
    have hrun : run opc x (kvForm x op bad) s = .next (finishAt (updStrand Y s.cur (landIn (.g n) 0xFFFF (w.setWidth 128))) s.cur) := by
      rw [run_ops opc x _ s hc hfour, hform]
      rfl
    refine ⟨_, hrun, ⟨hY.mem, hY.ctxs, ?_, ?_, ?_, hread, hpc⟩⟩
    · exact (congrArg State.kvCopies hY.rest : _)
    · exact (congrArg State.retires hY.rest : _)
    · exact congrArg Slot.st (getSlot_updSlot_same ..)

/-! ## The events (R270 to R273) -/

theorem kvEvent_map {s : State} {c k : Nat} {a b : Word} (hfree : kvHeld s c (kvKey a) = false) :
    kvEvent s c 0 a b k = kvMapEvent s c (kvKey a) b.toNat := by
  simp [kvEvent, kvCtx, hfree]

theorem kvEvent_ref {s : State} {c k : Nat} {a b : Word} (hfree : kvHeld s c (kvKey a) = false) :
    kvEvent s c 1 a b k = kvRefEvent s c (kvKey a) b.toInt := by
  simp [kvEvent, kvCtx, hfree]

theorem kvEvent_fork {s : State} {c k : Nat} {a b : Word} (hfree : kvHeld s c (kvKey a) = false) (hfree2 : kvHeld s c (kvKey b) = false) :
    kvEvent s c 2 a b k = kvForkEvent s c (kvKey a) (kvKey b) := by
  simp [kvEvent, kvCtx, hfree, hfree2]

theorem kvEvent_write {s : State} {c k : Nat} {a b : Word} (hfree : kvHeld s c (kvKey a) = false) :
    kvEvent s c 3 a b k = kvwEvent s c (kvKey a) k (b.getLsbD 0) := by
  simp [kvEvent, kvCtx, hfree]

theorem kvEvent_demote {s : State} {c k : Nat} {a b : Word} (hfree : kvHeld s (kvCtx 4 c a) (kvKey a) = false) :
    kvEvent s c 4 a b k = kvdemEvent s (kvCtx 4 c a) (kvKey a) (a.getLsbD 46) := by
  simp [kvEvent, hfree]

/-- An event answers the status word of a key as the event leaves it, with a status that fits. -/
def AnswersKey (r : KvRes) (c k : Nat) (fits : Nat → Prop) : Prop :=
  ∃ st z, r = .status (kvStatus z c k st) z ∧ st ∈ [0, 4, 6] ∧ fits st

theorem answersKey_of {r : KvRes} {c k st : Nat} {z : State} {fits : Nat → Prop} (hr : r = .status (kvStatus z c k st) z)
    (hst : st ∈ [0, 4, 6]) (hfits : fits st) : AnswersKey r c k fits := ⟨st, z, hr, hst, hfits⟩

theorem kvMapEvent_absent {s : State} {c key : Nat} (hmap : kvMapped s c key = none) :
    kvMapEvent s c key 1 = .status (kvStatus s c key 4) s := by
  simp only [kvMapEvent, hmap]

theorem kvMapEvent_taken {s : State} {c key : Nat} (hmap : (kvMapped s c key).isSome = true) :
    kvMapEvent s c key 0 = .status (kvStatus s c key 6) s := by
  simp only [kvMapEvent, hmap, if_true]

/-- R270: a key is mapped to a cleared frame of the list. -/
theorem kvMapEvent_maps {s rest : State} {c key f d : Nat} (hmap : kvMapped s c key = none) (hpair : takePair s c = (some (f, d), rest)) :
    let cleared := heal { rest with mem := clearRange rest.mem (frameAddr 0 f) (frameAddr 0 f + 0x10000) } (frameAddr 0 f) 0x10000
    let z := setKey (setTarget (setDesc cleared c d (packDesc 1 0 0 0 f)) c d 0) c key (some d)
    kvMapEvent s c key 0 = .status (kvStatus z c key 0) z := by
  simp only [kvMapEvent, hmap, hpair, Option.isSome_none, Bool.false_eq_true, if_false]

/-- R270: what KVMAP answers. -/
theorem kvMapEvent_answers (s : State) (c key b : Nat) : AnswersKey (kvMapEvent s c key b) c key fun st =>
    (b = 2 → st = 0) ∧ (b = 1 → st = if (kvMapped s c key).isSome then 0 else 4) ∧ (b = 0 → (kvMapped s c key).isSome = true → st = 6) := by
  match b with
  | 0 =>
    cases hmap : kvMapped s c key with
    | some i => exact answersKey_of (kvMapEvent_taken (by simp [hmap])) (by decide) (by simp)
    | none =>
      rcases hpair : takePair s c with ⟨_ | ⟨f, n⟩, rest⟩
      · exact answersKey_of (st := 6) (z := rest) (by simp [kvMapEvent, hmap, hpair]) (by decide) (by simp)
      · exact answersKey_of (kvMapEvent_maps hmap hpair) (by decide) (by simp)
  | 1 =>
    cases hmap : kvMapped s c key with
    | none => exact answersKey_of (kvMapEvent_absent hmap) (by decide) (by simp)
    | some i =>
      exact answersKey_of (st := 0) (z := dropCount (dropKey (setKey s c key none) c key) c i) (by simp only [kvMapEvent, hmap]) (by decide)
        (by simp)
  | n + 2 => exact answersKey_of (st := 0) (z := s) (by simp [kvMapEvent]) (by decide) (by simp)

/-- R271: the count that KVREF asks for is in range. -/
def countFits (s : State) (c i : Nat) (d : Int) : Prop :=
  1 ≤ (descCount (kvDesc s c i) : Int) + d ∧ (descCount (kvDesc s c i) : Int) + d ≤ 65535

theorem kvRefEvent_unmapped {s : State} {c key : Nat} (d : Int) (hmap : kvMapped s c key = none) :
    kvRefEvent s c key d = .status (kvStatus s c key 4) s := by
  simp [kvRefEvent, hmap]

theorem kvRefEvent_counts {s : State} {c key i : Nat} {d : Int} (hmap : kvMapped s c key = some i) (hfits : countFits s c i d) :
    kvRefEvent s c key d = .status
      (kvStatus (updDesc s c i (fun _ => ((descCount (kvDesc s c i) : Int) + d).toNat) id id id id) c key 0)
      (updDesc s c i (fun _ => ((descCount (kvDesc s c i) : Int) + d).toNat) id id id id) := by
  have hin : (decide ((descCount (kvDesc s c i) : Int) + d < 1) || decide (65535 < (descCount (kvDesc s c i) : Int) + d)) = false := by
    simp only [Bool.or_eq_false_iff, decide_eq_false_iff_not, not_lt]
    exact hfits
  simp only [kvRefEvent, hmap, hin, Bool.false_eq_true, if_false]

theorem kvRefEvent_busy {s : State} {c key i : Nat} {d : Int} (hmap : kvMapped s c key = some i) (hfits : ¬ countFits s c i d) :
    kvRefEvent s c key d = .status (kvStatus s c key 6) s := by
  have hout : (decide ((descCount (kvDesc s c i) : Int) + d < 1) || decide (65535 < (descCount (kvDesc s c i) : Int) + d)) = true := by
    simp only [Bool.or_eq_true, decide_eq_true_eq]
    rw [countFits] at hfits
    omega
  simp only [kvRefEvent, hmap, hout, if_true]

/-- R271: what KVREF answers. -/
theorem kvRefEvent_answers (s : State) (c key : Nat) (d : Int) : AnswersKey (kvRefEvent s c key d) c key fun st =>
    (kvMapped s c key = none → st = 4) ∧
      ∀ i, kvMapped s c key = some i → (countFits s c i d → st = 0) ∧ (¬ countFits s c i d → st = 6) := by
  cases hmap : kvMapped s c key with
  | none => exact answersKey_of (kvRefEvent_unmapped d hmap) (by decide) (by simp)
  | some i =>
    by_cases hfits : countFits s c i d
    · exact answersKey_of (kvRefEvent_counts hmap hfits) (by decide) (by simp [hfits])
    · exact answersKey_of (kvRefEvent_busy hmap hfits) (by decide) (by simp [hfits])

theorem kvForkEvent_mapped {s : State} {c a b i : Nat} (hmap : kvMapped s c a = some i) (hnew : (kvMapped s c b).isSome = false)
    (hcount : descCount (kvDesc s c i) ≠ 65535) : kvForkEvent s c a b =
      .status (kvStatus (setKey (updDesc s c i (· + 1) id id id id) c b (some i)) c b 0) (setKey (updDesc s c i (· + 1) id id id id) c b (some i)) := by
  have hfree : ((kvMapped s c b).isSome || descCount (kvDesc s c i) == 65535) = false := by simp [hnew, hcount]
  simp only [kvForkEvent, hmap, hfree, Bool.false_eq_true, if_false]

/-- R271: what KVFORK answers. -/
theorem kvForkEvent_answers (s : State) (c a b : Nat) : AnswersKey (kvForkEvent s c a b) c b fun st =>
    (kvMapped s c a = none → st = 4) ∧
      ∀ i, kvMapped s c a = some i → st = if (kvMapped s c b).isSome ∨ descCount (kvDesc s c i) = 65535 then 6 else 0 := by
  cases hmap : kvMapped s c a with
  | none => exact answersKey_of (st := 4) (z := s) (by simp [kvForkEvent, hmap]) (by decide) (by simp)
  | some i =>
    by_cases hbusy : (kvMapped s c b).isSome = true ∨ descCount (kvDesc s c i) = 65535
    · have hfull : ((kvMapped s c b).isSome || descCount (kvDesc s c i) == 65535) = true := by simpa using hbusy
      exact answersKey_of (st := 6) (z := s) (by simp only [kvForkEvent, hmap, hfull, if_true]) (by decide)
        ⟨by simp, fun j hj => by cases hj; rw [if_pos hbusy]⟩
    · have hnew : (kvMapped s c b).isSome = false := by simpa using fun h => hbusy (.inl h)
      exact answersKey_of (kvForkEvent_mapped hmap hnew fun h => hbusy (.inr h)) (by decide)
        ⟨by simp, fun j hj => by cases hj; rw [if_neg hbusy]⟩

theorem kvwEvent_unmapped {s : State} {c key : Nat} (k : Nat) (zero : Bool) (hmap : kvMapped s c key = none) :
    kvwEvent s c key k zero = .status (kvStatus s c key 4) s := by
  simp [kvwEvent, hmap]

/-- R272: KVW of a frame that it may write. -/
theorem kvwEvent_writable {s : State} {c key i : Nat} (k : Nat) (zero : Bool) (hmap : kvMapped s c key = some i)
    (hstate : descState (kvDesc s c i) = 0) (hcount : descCount (kvDesc s c i) ≤ 1) :
    kvwEvent s c key k zero = .status (kvStatus s c key 0) s := by
  simp [kvwEvent, hmap, hstate, hcount]

/-- R272, R420: KVW of a frame that is being demoted abandons the move. -/
theorem kvwEvent_moving {s : State} {c key i : Nat} (k : Nat) (zero : Bool) (hmap : kvMapped s c key = some i)
    (hstate : descState (kvDesc s c i) = 1) (hcount : descCount (kvDesc s c i) ≤ 1) :
    kvwEvent s c key k zero = .status (kvStatus (abandonMove s c i) c key 0) (abandonMove s c i) := by
  simp [kvwEvent, hmap, hstate, hcount]

theorem kvdemEvent_unmapped {s : State} {c key : Nat} (promote : Bool) (hmap : kvMapped s c key = none) :
    kvdemEvent s c key promote = .status (kvStatus s c key 6) s := by
  simp [kvdemEvent, hmap]

/-- R273: what KVDEM answers. -/
theorem kvdemEvent_answers (s : State) (c key : Nat) (promote : Bool) : AnswersKey (kvdemEvent s c key promote) c key fun st =>
    (kvMapped s c key = none → st = 6) ∧
      ∀ i, kvMapped s c key = some i → descState (kvDesc s c i) ≠ (if promote then 2 else 0) → st = 6 := by
  cases hmap : kvMapped s c key with
  | none => exact answersKey_of (kvdemEvent_unmapped promote hmap) (by decide) (by simp)
  | some i =>
    by_cases hstate : descState (kvDesc s c i) = (if promote then 2 else 0)
    · have hmoves : (descState (kvDesc s c i) != (if promote then 2 else 0)) = false := by simpa using hstate
      rcases hlist : listTake s c (if promote then 0 else 1) with ⟨_ | f, rest⟩
      · exact answersKey_of (st := 6) (z := rest) (by simp only [kvdemEvent, hmap, hmoves, hlist]; rfl) (by decide) (by simp)
      · exact answersKey_of (st := 0) (by simp only [kvdemEvent, hmap, hmoves, hlist]; rfl) (by decide)
          ⟨by simp, fun j hj hne => by cases hj; exact absurd hstate hne⟩
    · have hstays : (descState (kvDesc s c i) != (if promote then 2 else 0)) = true := by simpa using hstate
      exact answersKey_of (st := 6) (z := s) (by simp only [kvdemEvent, hmap, hstays, if_true]) (by decide) (by simp)

/-- R269: a KV form answers its key's status word as the event leaves it. -/
theorem kvForm_answers (opc op : Nat) (x : Args) (bad : Opnds → Option Word) (s : State) (n c k : Nat) (fits : Nat → Prop)
    (hd : gField x.d = some n) (hnet : s.net = []) (hresv : s.resv = []) (hserved : s.served = []) (hprompt : s.prompt = true)
    (hc : clear opc x s = true) (hfour : fourOf opc = false) (hgood : bad (ops x s) = none)
    (hkey : kvKeyBad s (kvCtx op (acting s).ctx (ops x s).aw) (ops x s).aw = none)
    (hkey2 : op = 2 → kvKeyBad s (acting s).ctx (ops x s).bw = none)
    (hevent : ∀ W, KvStart s W → AnswersKey (kvEvent W (acting s).ctx op (ops x s).aw (ops x s).bw s.nextId) c k fits) :
    ∃ y st, run opc x (kvForm x op bad) s = .next y ∧ fits st ∧ st ∈ [0, 4, 6] ∧ (getSlot y s.cur).st = .ready ∧
      (strandAt y s.cur).pc = (endCheck (acting s)).pc ∧ readG (strandAt y s.cur) n = (if n = 0 then 0 else kvStatus y c k st) := by
  obtain ⟨W, hstart, hperforms⟩ := kvForm_event opc op x bad s n hd hnet hresv hserved hprompt hc hfour hgood hkey hkey2
  obtain ⟨st, z, hstatus, hst, hfits⟩ := hevent W hstart
  obtain ⟨y, hrun, hleaves⟩ := hperforms _ z hstatus
  refine ⟨y, st, hrun, hfits, hst, hleaves.ready, hleaves.pc, hleaves.answer.trans ?_⟩
  rw [SameTable.status ⟨hleaves.mem, hleaves.ctxs.regs⟩]

/-! ## The operands (R269) -/

theorem highBad_none {w : Word} (h : w.toNat < 2 ^ 32) : highBad w = none := by
  have hz : w >>> 32 = 0 := by
    apply BitVec.eq_of_toNat_eq
    rw [BitVec.toNat_ushiftRight, Nat.shiftRight_eq_div_pow, Nat.div_eq_of_lt h]
    rfl
  simp [highBad, hz]

theorem kvmap_good {o : Opnds} (ha : o.aw.toNat < 2 ^ 32) (hb : o.bw.toNat ≤ 2) :
    (highBad o.aw).or (if 2 < o.bw.toNat then some o.bw else none) = none := by
  rw [highBad_none ha, if_neg (Nat.not_lt.2 hb)]
  rfl

theorem kvref_good {o : Opnds} (ha : o.aw.toNat < 2 ^ 32) (hlo : -65535 ≤ o.bw.toInt) (hhi : o.bw.toInt ≤ 65535) :
    (highBad o.aw).or (if o.bw.toInt < -65535 || 65535 < o.bw.toInt then some o.bw else none) = none := by
  have hin : (decide (o.bw.toInt < -65535) || decide (65535 < o.bw.toInt)) = false := by
    simp only [Bool.or_eq_false_iff, decide_eq_false_iff_not, not_lt]
    exact ⟨hlo, hhi⟩
  rw [highBad_none ha, hin]
  rfl

theorem kvfork_good {o : Opnds} (ha : o.aw.toNat < 2 ^ 32) (hb : o.bw.toNat < 2 ^ 32) : (highBad o.aw).or (highBad o.bw) = none := by
  rw [highBad_none ha, highBad_none hb]
  rfl

theorem kvw_good {o : Opnds} (ha : o.aw.toNat < 2 ^ 32) (hb : o.bw.toNat < 2) :
    (highBad o.aw).or (if o.bw >>> 1 != 0 then some o.bw else none) = none := by
  have hz : o.bw >>> 1 = 0 := by
    apply BitVec.eq_of_toNat_eq
    rw [BitVec.toNat_ushiftRight, Nat.shiftRight_eq_div_pow, Nat.div_eq_of_lt hb]
    rfl
  rw [highBad_none ha, hz]
  rfl

theorem kvdem_good {o : Opnds} (ha : o.aw.toNat < 2 ^ 47) (hres : o.aw.toNat / 2 ^ 32 % 256 = 0) (hctx : o.aw.toNat / 2 ^ 40 % 64 ≠ 0) :
    (if o.aw.toNat / 2 ^ 47 != 0 || o.aw.toNat / 2 ^ 32 % 256 != 0 || o.aw.toNat / 2 ^ 40 % 64 == 0 then some o.aw else none) = none := by
  have hzero : (o.aw.toNat / 2 ^ 40 % 64 == 0) = false := by simpa only [beq_eq_false_iff_ne] using hctx
  rw [Nat.div_eq_of_lt ha, hres, hzero]
  rfl

/-- Settles O57: the answers by `kvForm_answers` and each event's, the effects by `kvForm_event`. -/
theorem blockTableResults : Obligations.BlockTableResults := by
  refine ⟨fun x s n hd hnet hresv hserved hprompt => ?answers, fun x s n hd hnet hresv hserved hprompt => ?performs⟩
  case answers =>
    intro a b t key home answers counts
    refine ⟨fun hc ha hb hkey hfree => ?_, fun hc ha hlo hhi hkey hfree => ?_, fun hc ha hb hkey hkey2 hfree hfree2 => ?_,
      fun hc ha hb hkey hfree => ⟨fun hmap => ?_, fun i hmap hstate hcount => ?_⟩, fun hc ha hres hctx hkey hfree => ?_⟩
    · refine kvForm_answers 0x389 0 x _ s n t.ctx key _ hd hnet hresv hserved hprompt hc rfl (kvmap_good ha hb) hkey (by simp)
        fun W hW => ?_
      rw [kvEvent_map ((hW.table.held hW.copies ..).trans hfree), ← hW.table.mapped]
      exact kvMapEvent_answers W t.ctx key b.toNat
    · refine kvForm_answers 0x38A 1 x _ s n t.ctx key _ hd hnet hresv hserved hprompt hc rfl (kvref_good ha hlo hhi) hkey (by simp)
        fun W hW => ?_
      rw [kvEvent_ref ((hW.table.held hW.copies ..).trans hfree), ← hW.table.mapped]
      simp only [counts, ← hW.table.desc]
      exact kvRefEvent_answers W t.ctx key b.toInt
    · refine kvForm_answers 0x38B 2 x _ s n t.ctx (kvKey b) _ hd hnet hresv hserved hprompt hc rfl (kvfork_good ha hb) hkey (fun _ => hkey2)
        fun W hW => ?_
      rw [kvEvent_fork ((hW.table.held hW.copies ..).trans hfree) ((hW.table.held hW.copies ..).trans hfree2)]
      simp only [← hW.table.mapped, ← hW.table.desc]
      exact kvForkEvent_answers W t.ctx key (kvKey b)
    · refine kvForm_answers 0x38C 3 x _ s n t.ctx key _ hd hnet hresv hserved hprompt hc rfl (kvw_good ha hb) hkey (by simp) fun W hW => ?_
      rw [kvEvent_write ((hW.table.held hW.copies ..).trans hfree)]
      exact answersKey_of (kvwEvent_unmapped _ _ ((hW.table.mapped ..).trans hmap)) (by decide) rfl
    · refine kvForm_answers 0x38C 3 x _ s n t.ctx key _ hd hnet hresv hserved hprompt hc rfl (kvw_good ha hb) hkey (by simp) fun W hW => ?_
      rw [kvEvent_write ((hW.table.held hW.copies ..).trans hfree)]
      have hmap_W := (hW.table.mapped t.ctx key).trans hmap
      rw [← hW.table.desc] at hstate hcount
      rcases (by omega : descState (kvDesc W t.ctx i) = 0 ∨ descState (kvDesc W t.ctx i) = 1) with h0 | h1
      · exact answersKey_of (kvwEvent_writable _ _ hmap_W h0 hcount) (by decide) rfl
      · exact answersKey_of (kvwEvent_moving _ _ hmap_W h1 hcount) (by decide) rfl
    · refine kvForm_answers 0x38D 4 x _ s n home key _ hd hnet hresv hserved hprompt hc rfl (kvdem_good ha hres hctx) hkey (by simp)
        fun W hW => ?_
      rw [kvEvent_demote ((hW.table.held hW.copies ..).trans hfree)]
      simp only [← hW.table.mapped, ← hW.table.desc]
      exact kvdemEvent_answers W home key (a.getLsbD 46)
  case performs =>
    intro a b t key same performs
    have hperforms (opc op : Nat) (j : Instr) (bad : Opnds → Option Word) (hj : exec j s = run opc x (kvForm x op bad) s)
        (hc : clear opc x s = true) (hfour : fourOf opc = false) (hgood : bad (ops x s) = none)
        (hkey2 : op = 2 → kvKeyBad s t.ctx b = none) : performs j op := by
      intro hkey
      obtain ⟨W, hW, hevent⟩ := kvForm_event opc op x bad s n hd hnet hresv hserved hprompt hc hfour hgood hkey hkey2
      refine ⟨W, hW.mem, hW.ctxs, hW.copies, hW.poison, fun w z hstatus => ?_⟩
      obtain ⟨y, hrun, hy⟩ := hevent w z hstatus
      exact ⟨y, hj.trans hrun, hy.mem, hy.ctxs, hy.copies, hy.retires, hy.ready, hy.answer, hy.pc⟩
    refine ⟨fun hc ha hb => hperforms 0x389 0 (.kvmap x) _ rfl hc rfl (kvmap_good ha hb) (by simp),
      fun hc ha hlo hhi => hperforms 0x38A 1 (.kvref x) _ rfl hc rfl (kvref_good ha hlo hhi) (by simp),
      fun hc ha hb hkey2 => hperforms 0x38B 2 (.kvfork x) _ rfl hc rfl (kvfork_good ha hb) (fun _ => hkey2),
      fun hc ha hb => hperforms 0x38C 3 (.kvw x) _ rfl hc rfl (kvw_good ha hb) (by simp),
      fun hc ha hres hctx => hperforms 0x38D 4 (.kvdem x) _ rfl hc rfl (kvdem_good ha hres hctx) (by simp),
      fun W c k => ⟨fun hfree => ⟨fun hb => ?_, fun hb hmap => ?_, fun hb hmap => ?_, fun f rest d hb hmap hpair => ?_, fun i hmap => ?_⟩,
        fun hfree hmap => (kvEvent_demote hfree).trans (kvdemEvent_unmapped _ hmap)⟩⟩
    · rw [kvEvent_map hfree, hb]
      rfl
    · rw [kvEvent_map hfree, hb]
      exact kvMapEvent_absent hmap
    · rw [kvEvent_map hfree, hb]
      exact kvMapEvent_taken hmap
    · rw [kvEvent_map hfree, hb]
      exact kvMapEvent_maps hmap hpair
    · intro cnt
      refine ⟨fun h1 h2 => ?_, fun hout => ?_, fun hfree2 hnew hcount => ?_, fun hstate hcount => ?_⟩
      · exact (kvEvent_ref hfree).trans (kvRefEvent_counts hmap ⟨h1, h2⟩)
      · refine (kvEvent_ref hfree).trans (kvRefEvent_busy hmap fun hfits => ?_)
        have h1 : 1 ≤ cnt := hfits.1
        have h2 : cnt ≤ 65535 := hfits.2
        omega
      · exact (kvEvent_fork hfree hfree2).trans (kvForkEvent_mapped hmap hnew hcount)
      · exact (kvEvent_write hfree).trans (kvwEvent_writable _ _ hmap hstate hcount)

end Sys2Proof.Machine
end

section
/-! SUPPORT. The events of strands and of the network, each where its guard holds, and the theorem that settles their statement. -/

namespace Sys2Proof.Machine
open Sys2Proof

theorem exec_goes {j : Instr} {s x y : State} (hexec : exec j s = .next x) (hxy : x = y) : exec j s = .next y := hxy ▸ hexec

/-! ## Packets at their homes (R275, R276) -/

theorem arrival_performed {kind : Kind} {k : Nat} {s : State} {p : Pkt} (hfind : findPkt s k = some p) (hkind : kindOf p.body = kind)
    (hmay : mayPerform s p = true) : arrival kind k s = .next (arrive false (takePort s p) p) := by
  simp [arrival, hfind, hkind, hmay]

theorem arrival_hindered {kind : Kind} {k : Nat} {s : State} {p : Pkt} (hfind : findPkt s k = some p) (hkind : kindOf p.body = kind)
    (hmay : mayPerform s p = false) : arrival kind k s = .next (gainBanks s p) := by
  simp [arrival, hfind, hkind, hmay]

theorem arrival_goes {kind : Kind} {j : Instr} {k : Nat} {s y : State} {p : Pkt} (hfind : findPkt s k = some p)
    (hmay : mayPerform s p = true) (hkind : kindOf p.body = kind) (hj : exec j s = arrival kind k s)
    (hy : arrive false (takePort s p) p = y) : exec j s = .next y := by
  rw [hj, arrival_performed hfind hkind hmay, hy]

theorem arrive_member {s : State} {p : Pkt} {m : Nat} (now : Bool) (hhome : p.home = .member m) : arrive now s p = goFabric s p m := by
  simp [arrive, hhome]

section homes
variable {s : State} {p : Pkt} (now : Bool) (hhome : ∀ m, p.home ≠ .member m)
include hhome

theorem arrive_load {a n ty : Nat} {mask : BitVec 16} {dst : RegRef} (hbody : p.body = .load a n ty mask dst)
    (hclear : dataClear s p a n = true) : arrive now s p = readData s p a n := by
  rw [arrive]
  split
  · exact absurd ‹_› (hhome _)
  · simp only [hbody, hclear, if_true]

theorem arrive_store {a n : Nat} {mask : BitVec 16} {v : Vec} (hbody : p.body = .store a n mask v)
    (hclear : dataClear s p a n = true) : arrive now s p = writeData s p a n mask v := by
  rw [arrive]
  split
  · exact absurd ‹_› (hhome _)
  · simp only [hbody, hclear, if_true]

theorem arrive_message {c e : Nat} {bs : List Byte} (hbody : p.body = .message c e bs) :
    arrive now s p = performed (inboxLand s c e bs) p 0 := by
  rw [arrive]
  split
  · exact absurd ‹_› (hhome _)
  · simp only [hbody]

theorem arrive_chanMsg {c off slot : Nat} {bs : List Byte} {last : Bool} (hbody : p.body = .chanMsg c off slot bs last) :
    arrive now s p = performed (chLand s c off slot bs last p.uid) p 0 := by
  rw [arrive]
  split
  · exact absurd ‹_› (hhome _)
  · simp only [hbody]

/-- R359: a producer that still asks gets a slot where the ring has room and nothing waits before it. -/
theorem arrive_ringAsk {c off : Nat} (hbody : p.body = .ringAsk c off) (hproduces : rgProduces s c off p.uid = true)
    (hroom : rgRoom s c off = true) (hasks : stillAsks s p = true) (hfirst : (oldestWaiting s fun q => q.body == .ringAsk c off) = none) :
    arrive false s p = grant (rgReserve s c off).2 p false (rgReserve s c off).1 := by
  rw [arrive]
  split
  · exact absurd ‹_› (hhome _)
  · simp only [hbody, ringAsked, hproduces, hroom, hasks, hfirst]
    rfl

theorem arrive_ringData {c off i n : Nat} {bs : List Byte} {last : Bool} (hbody : p.body = .ringData c off i n bs last) :
    arrive now s p = performed (rgLand s c off i n bs last) p 0 := by
  rw [arrive]
  split
  · exact absurd ‹_› (hhome _)
  · simp only [hbody]

theorem arrive_ringToken {c off : Nat} (hbody : p.body = .ringToken c off) : arrive now s p = performed (rgToken s c off p.uid) p 0 := by
  rw [arrive]
  split
  · exact absurd ‹_› (hhome _)
  · simp only [hbody]

theorem arrive_hb {b i op : Nat} {v : Option (BitVec 32)} (hbody : p.body = .hb b i op v) :
    arrive now s p = performed (barrierEvent s b i op p.uid v) p 0 := by
  rw [arrive]
  split
  · exact absurd ‹_› (hhome _)
  · simp only [hbody]

theorem arrive_mb {c off op : Nat} {n : Word} (hbody : p.body = .mb c off op n) : arrive now s p = performed (wordEvent s c off op n) p 0 := by
  rw [arrive]
  split
  · exact absurd ‹_› (hhome _)
  · simp only [hbody]

theorem arrive_tc {b i : Nat} {add last : Bool} {v : BitVec 48} (hbody : p.body = .tc b i add last v) : arrive now s p =
    performed (counterEvent s b i add last v (((strandOf s p.uid).map (·.startId)).getD p.sid)) p 0 := by
  rw [arrive]
  split
  · exact absurd ‹_› (hhome _)
  · simp only [hbody]

theorem arrive_putr {sid r u h : Nat} {v : Word} (hbody : p.body = .putr sid r v h) (htarget : putTarget s sid = some u)
    (hfree : ((strandOf s u).map fun t => copying t (.g r)).getD false = false) :
    arrive now s p = performed (landReg s u (.g r) 0xFFFF (v.setWidth 128)) p 0 := by
  rw [arrive]
  split
  · exact absurd ‹_› (hhome _)
  · simp only [hbody, htarget, hfree, Bool.false_eq_true, if_false]

theorem arrive_kv {op : Nat} {a b w : Word} {dst : RegRef} {y : State} (hbody : p.body = .kv op a b dst) (hfirst : kvBehind s p = false)
    (hevent : kvEvent s p.ctx op a b p.k = .status w y) : arrive now s p = performed y p (w.setWidth 512) := by
  rw [arrive]
  split
  · exact absurd ‹_› (hhome _)
  · simp only [hbody, hfirst, hevent, Bool.false_eq_true, if_false]

theorem arrive_notice {h : Word} {un : Bool} (hbody : p.body = .notice h un) : arrive now s p =
    performed (if objCtx s h = some p.ctx then groupNotice s h p.uid un else s) p 0 := by
  rw [arrive]
  split
  · exact absurd ‹_› (hhome _)
  · simp only [hbody, beq_iff_eq]

end homes

/-! ## Answers and acknowledgements (R201, R275) -/

section back
variable {s : State} {k : Nat} {p : Pkt} {f : Pkt → Bool} {g : State → Pkt → State} (hfind : findPkt s k = some p)
  (hst : p.st = .performed) (hback : isBack p = true) (hf : f p = true)
include hfind hst hback hf

theorem comesHome_here (hreply : p.reply = none) : comesHome s k f g = .next (g s p) := by
  simp [comesHome, hfind, hst, hback, hf, hreply]

theorem comesHome_reply {m n : Nat} (hreply : p.reply = some (m, n)) : comesHome s k f g = .next (sendReply s p m n) := by
  simp [comesHome, hfind, hst, hback, hf, hreply]

end back

section landings
variable {s : State} {k : Nat} {p : Pkt} (hfind : findPkt s k = some p) (hst : p.st = .performed) (hback : isBack p = true)
include hfind hst hback

theorem execLoadDataLands_lands (hreply : p.reply = none) (hland : (landing p).isSome = true) (hengine : fromEngine p = false)
    (hcopy : copyFirst s p = false) : exec (.loadDataLands k) s = .next (landAnswer s p) := by
  unfold exec
  simp only [execLoadDataLands]
  exact comesHome_here hfind hst hback (by rw [hland, hengine, hcopy, Bool.not_false, Bool.and_self, Bool.or_true, Bool.and_self]) hreply

theorem execLoadDataLands_replies {m n : Nat} (hreply : p.reply = some (m, n)) (hland : (landing p).isSome = true) :
    exec (.loadDataLands k) s = .next (sendReply s p m n) := by
  unfold exec
  simp only [execLoadDataLands]
  exact comesHome_reply hfind hst hback (by rw [hland, hreply, Option.isSome_some, Bool.true_or, Bool.and_self]) hreply

theorem execCprWordLands_lands (hreply : p.reply = none) (hword : isCopyWord p.body = true) :
    exec (.cprWordLands k) s = .next (landCopy s p) := by
  unfold exec
  simp only [execCprWordLands]
  exact comesHome_here hfind hst hback hword hreply

theorem execAccessAcknowledged_acknowledges (hreply : p.reply = none) (hland : (landing p).isNone = true)
    (hword : isCopyWord p.body = false) (hclear : ackClear s p = true) : exec (.accessAcknowledged k) s = .next (acknowledge s p) := by
  unfold exec
  simp only [execAccessAcknowledged]
  exact comesHome_here hfind hst hback (by rw [hland, hword, hclear, Bool.not_false, Bool.and_self, Bool.and_self]) hreply

end landings

/-! ## Lines, hops and waits -/

theorem execEndStrand_ends {s : State} {uid sid : Nat} {w : Wait} (hslot : slotOfStrand s uid = some sid)
    (hst : (getSlot s sid).st = .parked) (hwait : (getSlot s sid).s.wait = some w) (hform : w.form = 0x81 ∨ w.form = 0x83)
    (hstage : w.stage = .drain 5 ∨ w.stage = .drain 4) (hcopies : (getSlot s sid).s.copies = []) (howe : owesAck s uid sid .dom = false)
    (hring : ringHeldBy s (coreOf sid) uid = none) : execEndStrand uid s = .next (endStrandNow s sid w.word) := by
  have hends : ((getSlot s sid).st == .parked && (w.form == 0x81 || w.form == 0x83) && (w.stage == .drain 5 || w.stage == .drain 4) &&
      (getSlot s sid).s.copies.isEmpty && !owesAck s uid sid .dom && (ringHeldBy s (coreOf sid) uid).isNone) = true := by
    simp [hst, hform, hstage, hcopies, howe, hring]
  simp only [execEndStrand, inSlot, hslot, hwait, hends, if_true]

/-- R74: what reading a line of the instruction buffer makes of its waiters. -/
theorem landLine_eq {s : State} {core line pa : Nat} {t : Strand} {rest : List Strand} (hwaiters : lineWaiters s core line = t :: rest)
    (htranslate : translate s (core * 16) t.ctx .fetch (line * 256 % 2 ^ 57) = .ok pa) : landLine s core line =
      (match deviceRead s (lineReader core t.ctx) pa 4 with
      | .ok bs => (t :: rest).foldl (fun z u => fetched z u.uid none)
        (keepLine (dropReads s (lineReader core t.ctx)) core line (BitVec.ofNat 2048 (bytesNat bs)))
      | .error (.trap c _) => (t :: rest).foldl (fun z u => fetched z u.uid (some (c, u.pc))) (dropReads s (lineReader core t.ctx))
      | .error x => awaitRead s (lineReader core t.ctx) x) := by
  simp only [landLine, hwaiters, htranslate] <;> rfl

theorem reissue_due {s : State} {p : Pkt} (hfirst : ∀ q ∈ s.net, q.uid = p.uid → q.k < p.k → isNotice q.body = false →
      inScope p.sid (widerScope p.sid p.home) q.home = false) :
    (s.net.any fun q => q.uid == p.uid && q.k < p.k && !isNotice q.body && inScope p.sid (widerScope p.sid p.home) q.home) = false := by
  rw [List.any_eq_false]
  intro q hq
  simp only [Bool.and_eq_true, beq_iff_eq, decide_eq_true_eq, Bool.not_eq_true', not_and, Bool.not_eq_true]
  exact fun ⟨⟨huid, hk⟩, hnotice⟩ => hfirst q hq huid hk hnotice

theorem meshHop_turns {s : State} {p : Pkt} (hst : p.st = .flying) (hturn : turnsBack p p.route.head? = true) : meshHop s p =
    updPkt s p.k fun q => { q with st := .turned, route := pathNodes q.node (srcNode q.src), via := localIn } := by
  simp [meshHop, hst, hturn]

section mesh
variable {s : State} {p : Pkt} (hgoes : p.st = .flying → turnsBack p p.route.head? = false)
include hgoes

theorem meshHop_onward : (p.st == .flying && turnsBack p p.route.head?) = false := by
  by_cases hst : p.st = .flying
  · rw [hgoes hst, Bool.and_false]
  · have hne : (p.st == .flying) = false := by simpa using hst
    rw [hne, Bool.false_and]

theorem meshHop_arrives (hroute : p.route = []) (hfree : p.limited = false) (hfirst : behind s p = false) (hexit : exitPort p = none) :
    meshHop s p = updPkt { s with nextId := s.nextId + 1 } p.k fun q => { q with since := some (s.cycle + 1), seat := s.nextId } := by
  have honward := meshHop_onward hgoes
  rw [hroute] at honward
  simp only [meshHop, honward, hroute, hfree, hfirst, hexit, Bool.or_false, Bool.false_eq_true, if_false]

theorem meshHop_leaves {n : Nat} (hroute : p.route = []) (hfree : p.limited = false) (hfirst : behind s p = false)
    (hexit : exitPort p = some n) (hopen : linkOpen s p n = true) : meshHop s p =
      updPkt (takeLink s p n) p.k fun q => { q with since := some (s.cycle + meshFlits p), seat := s.nextId } := by
  have honward := meshHop_onward hgoes
  rw [hroute] at honward
  simp only [meshHop, honward, hroute, hfree, hfirst, hexit, hopen, Bool.or_false, Bool.false_eq_true, if_false, if_true]

theorem meshHop_moves {n : Nat} {rest : List Nat} (hroute : p.route = n :: rest) (hopen : linkOpen s p n = true) : meshHop s p =
    updPkt (takeLink s p n) p.k fun q => { q with node := n, via := p.node, route := rest, seat := s.nextId } := by
  have honward := meshHop_onward hgoes
  rw [hroute] at honward
  simp only [meshHop, honward, hroute, hopen, Bool.false_eq_true, if_false, if_true]

end mesh

/-! ## Reservations, hops and queues -/

theorem execAtomicGrant_granted {s : State} {k a n : Nat} {p : Pkt} {o : AtomOp} (hfind : findPkt s k = some p) (hbody : p.body = .atomic a n o)
    (hst : p.st = .waiting) (hgrant : grantable s k = true) (hclean : poisoned s a n = false) :
    exec (.atomicGrant k) s = .next (grantAtomic s p a n o) := by
  unfold exec
  simp [execAtomicGrant, hfind, hbody, hst, hgrant, hclean]

theorem execAtomicGrant_poisoned {s : State} {k a n : Nat} {p : Pkt} {o : AtomOp} (hfind : findPkt s k = some p) (hbody : p.body = .atomic a n o)
    (hst : p.st = .waiting) (hgrant : grantable s k = true) (hpoison : poisoned s a n = true) :
    exec (.atomicGrant k) s = .next (badPkt { s with resv := s.resv.filter fun r => r.k != k } p 5 p.ea) := by
  unfold exec
  simp [execAtomicGrant, hfind, hbody, hst, hgrant, hpoison]

theorem releaseAtomic_answers {s : State} {k a n : Nat} {p : Pkt} {o : AtomOp} {r : Resv} (hfind : findPkt s k = some p)
    (hbody : p.body = .atomic a n o) (hst : p.st = .waiting) (hresv : (s.resv.find? fun r => r.k == k) = some r) (hgranted : r.granted = true)
    (hreply : p.reply = none) : releaseAtomic s k =
      answerAtomic (countRecv (delPkt (writeAtomic s p a n) k) p) p o r.old.toNat (atomicNew o r.old.toNat).2 := by
  simp [releaseAtomic, hfind, hresv, hbody, hst, hgranted, hreply]

theorem execScopeMissReissue_due {s : State} {k : Nat} {p : Pkt} (hfind : findPkt s k = some p) (hst : p.st = .turned) (hback : isBack p = true)
    (hfirst : ∀ q ∈ s.net, q.uid = p.uid → q.k < p.k → isNotice q.body = false →
      inScope p.sid (widerScope p.sid p.home) q.home = false) : exec (.scopeMissReissue k) s = .next (reissue s p) := by
  have hdue := reissue_due hfirst
  unfold exec
  simp only [execScopeMissReissue, hfind, hst, hback, hdue, Bool.not_false, Bool.and_self, beq_self_eq_true, if_true]

theorem execRingPacketHop_hops {s : State} {k : Nat} {r : RingPos} {p : Pkt} (hfind : findPkt s k = some p) (hring : p.ring = some r)
    (hst : p.st = .flying) (hheld : heldPkt s p = false) (hleave : canLeave s p r = true) (hfree : linkFree s p r = true) :
    exec (.ringPacketHop k) s = .next (ringHop s p r) := by
  unfold exec
  simp [execRingPacketHop, hfind, hring, hst, hheld, hleave, hfree]

theorem execMeshFlitHop_hops {s : State} {k : Nat} {p : Pkt} (hfind : findPkt s k = some p) (hmesh : onMesh p = true)
    (hheld : heldPkt s p = false) (hfree : noticeFree s p = true) : exec (.meshFlitHop k) s = .next (meshHop s p) := by
  unfold exec
  simp [execMeshFlitHop, hfind, hmesh, hheld, hfree]

theorem poolGrant_grants {s : State} {core u n : Nat} {rest : List Nat} {p : Pkt} (hwait : (getCore s core).poolWait = u :: rest)
    (hpkt : poolPkt s core = some p) (hentry : poolEntry (getCore s core) = some n) (hasks : stillAsks s p = true) :
    poolGrant s core none = grant (reserveEntry (updCore s core fun c => { c with poolWait := rest }) core n) p false n := by
  simp only [poolGrant, hwait, hpkt, hentry, hasks, Bool.or_true, if_true]
  rfl

theorem chanGrant_grants {s : State} {p : Pkt} {c off : Nat} (hasks : stillAsks s p = true) :
    chanGrant s p c off false = grant (chReserve s c off).2 p false (chReserve s c off).1 := by
  simp [chanGrant, hasks]

theorem execChannelSlotGrant_grants {s : State} {k c off : Nat} {p : Pkt} (hfind : findPkt s k = some p) (hbody : p.body = .chanAsk c off)
    (hst : p.st = .waiting) (hchan : off ≠ 2 ^ 18) (hclear : objClear s p.body = true) (hroom : chRoom s c off = true)
    (hturn : (chanWaiter s c off).map (·.k) = some k) (hasks : stillAsks s p = true) :
    exec (.channelSlotGrant k) s = .next (grant (chReserve s c off).2 p false (chReserve s c off).1) := by
  rw [hbody] at hclear
  have hgrants : (p.st == .waiting && off != 2 ^ 18 && objClear s (.chanAsk c off) && chRoom s c off &&
      (chanWaiter s c off).map (·.k) == some k) = true := by
    rw [hclear, hroom, hturn, hst, bne_iff_ne.mpr hchan]
    simp
  unfold exec
  simp only [execChannelSlotGrant, hfind, hbody, hgrants, if_true, chanGrant_grants hasks]

/-! ## Waits, deadlines and promises (R159, R352, R396) -/

theorem wakeIf_wakes {s : State} {sid : Nat} {w : Wait} (hwait : (getSlot s sid).s.wait = some w) (hst : (getSlot s sid).st = .parked)
    (hready : waitReady s sid (getSlot s sid).s w = true) (hspill : (getCore s (coreOf sid)).spill = []) :
    wakeIf s sid = wake s (getSlot s sid).s.uid := by
  simp [wakeIf, hwait, hst, hready, hspill]

theorem expire_stops {s : State} {uid sid : Nat} {t : Strand} (hstrand : strandOf s uid = some t) (hplace : locate s uid = .slot sid)
    (harmed : t.dlArmed = true) (hlate : t.dline.toNat ≤ s.dtime) (hst : (getSlot s sid).st = .ready ∨ (getSlot s sid).st = .parked) :
    expire s uid = stopSoon (updStrand s sid fun t => { t with dlArmed := false }) sid 7 t.dline := by
  have hdue : (decide (s.dtime < t.dline.toNat)) = false := decide_eq_false (by omega)
  rcases hst with hst | hst
  · simp [expire, hstrand, hplace, harmed, hdue, hst]
  · simp [expire, hstrand, hplace, harmed, hdue, hst]

theorem missOf_stops {s : State} {h : Word} {j : Job} {p : Nat} (hfind : findJob s h = some j) (hlapsed : j.lapsed = false)
    (hstate : j.state ≠ 3) (hmissed : j.missed = false) (hpromise : j.promise = some p) (hlate : p < s.cycle) (hwaits : promiseWaiters s h ≠ []) :
    missOf s h = (promiseWaiters s h).foldl (fun z sid => stopStrand z sid 6 h) (markMissed s h) := by
  simp [missOf, hfind, hlapsed, hstate, hmissed, hpromise, hlate, hwaits]

/-! ## Halted strands and their records (R330, R333–R336, R345) -/

theorem rootReady_readies {s : State} {uid sid : Nat} (hslot : slotOfStrand s uid = some sid) (hst : (getSlot s sid).st = .halted)
    (hreleasing : (getSlot s sid).s.releasing = true)
    (hnotices : ∀ q ∈ s.net, q.uid = (getSlot s sid).s.uid → ∀ h, q.body ≠ .notice h true) :
    let y := setSlot s sid { getSlot s sid with
      st := .ready, s := { (getSlot s sid).s with releasing := false }, moved := s.cycle }
    exec (.rootReady uid) s = .next (if expired s (getSlot s sid).s = true then deadlineReport y sid else y) := by
  intro y
  have hgoes : ¬((getSlot s sid).st != .halted || !(getSlot s sid).s.releasing ||
      s.net.any fun p => p.uid == (getSlot s sid).s.uid && (match p.body with | .notice _ un => un | _ => false)) = true := by
    simp only [hst, hreleasing, bne_self_eq_false, Bool.not_true, Bool.or_self, Bool.false_or, List.any_eq_true, Bool.and_eq_true, beq_iff_eq]
    rintro ⟨q, hq, huid, hun⟩
    split at hun
    · next h un hbody => exact hnotices q hq huid h (hun ▸ hbody)
    · exact Bool.noConfusion hun
  have hready : rootReady s sid (getSlot s sid) = if expired s (getSlot s sid).s = true then deadlineReport y sid else y := if_neg hgoes
  show execRootReady uid s = _
  simp only [execRootReady, inSlot, hslot, hready]

theorem execTrapRecordDelivery_delivers {s : State} {k : Nat} {r : Record} (hfind : (s.records.find? fun r => r.k == k) = some r)
    (hfirst : recordBehind s r = false) (hring : ringHolds s r = false) : exec (.trapRecordDelivery k) s = .next (deliverRecord s r) := by
  unfold exec
  simp [execTrapRecordDelivery, hfind, hfirst, hring]

theorem execTrapqRecordTimeout_faults {s : State} {k : Nat} {r : Record} (hfind : (s.records.find? fun r => r.k == k) = some r)
    (hlate : 10000000 < s.dtime - r.since) : exec (.trapqRecordTimeout k) s = .next (soon s (.unrecoverableFault r.ctx)) := by
  unfold exec
  simp [execTrapqRecordTimeout, hfind, hlate]

section spilled
variable {s : State} {uid core place : Nat} {e : Spill} (hspill : spillOfUid s.cores uid = some (core, place))
  (hentry : ((getCore s core).spill.find? fun e => e.place == place) = some e)
include hspill hentry

theorem execEvictComplete_ends (hwritten : e.written = false) (hmoving : evictedNow s core e = false) :
    exec (.evictComplete uid) s = .next (evicted s core e) := by
  unfold exec
  simp [execEvictComplete, hspill, hentry, hwritten, hmoving]

theorem execSpillReturn_ends {n : Nat} (htarget : e.target = some n) (hwritten : e.written = true)
    (hfree : nameHeld s core (core * 16 + e.slot % 16) = false) : exec (.admitComplete uid) s = .next (admitted s core e n) := by
  unfold exec
  simp [execAdmitComplete, hspill, hentry, htarget, hwritten, hfree]

end spilled

theorem execAutoEvict_evicts {s : State} {core sid p : Nat} (hready : (getCore s core).spill.any (·.ready) = true)
    (hstalled : stalled s core = true) (hchoice : evictChoice s core = some sid) (hplace : spillPlace (getCore s core) = some p) :
    exec (.autoEvict core) s = .next (evictTo s sid p false) := by
  unfold exec
  simp only [execAutoEvict, hready, hstalled, hchoice, hplace, Bool.or_true, Bool.and_self, if_true]

theorem execAutoReturn_moves {s : State} {core n : Nat} {e : Spill} (holdest : oldestSpill (getCore s core) = some e)
    (hlong : 4096 ≤ s.cycle - e.since) (hslot : spillSlot s core e = some n) : exec (.autoAdmit core) s = .next (admitTo s core e n) := by
  unfold exec
  simp [execAutoAdmit, holdest, hlong, hslot]

theorem execRegisterFileError_stops {s : State} {sid cls idx : Nat}
    (hst : (getSlot s sid).st = .ready ∨ (getSlot s sid).st = .parked ∨ (getSlot s sid).st = .member) (hcls : cls < 4) (hidx : idx < 64) :
    exec (.registerFileError sid cls idx) s = .next (stopSoon s sid 5 (BitVec.ofNat 64 (2 ^ 63 + cls * 2 ^ 6 + idx))) := by
  have hlive : ((getSlot s sid).st == .ready || (getSlot s sid).st == .parked || (getSlot s sid).st == .member) = true := by
    simpa [or_assoc] using hst
  unfold exec
  simp only [execRegisterFileError, hlive, if_true, Nat.mod_eq_of_lt hcls, Nat.mod_eq_of_lt hidx]

/-- Settles O58: each event by the lemma of the function that acts it out, its guard being the hypotheses. -/
theorem strandAndNetworkEvents : Obligations.StrandAndNetworkEvents := by
  unfold Obligations.StrandAndNetworkEvents
  intro s
  refine ⟨fun uid sid w => execEndStrand_ends, ?_, ?_, ?_, ?_, fun k p => execScopeMissReissue_due, ?_,
    fun k p r => execRingPacketHop_hops, ?_, ?_, fun k p c off => execChannelSlotGrant_grants, ?_, ?_, ?_, ?_, ?_,
    fun uid sid => rootReady_readies, ?_, ?_, ?_, ?_, fun sid cls idx => execRegisterFileError_stops⟩
  · intro core line t rest pa hwaiters htranslate e lands
    have hland : lands (landLine s core line) := rfl
    rw [landLine_eq hwaiters htranslate] at hland
    refine ⟨fun bs hread => ?_, fun c i hread => ?_, fun x hread hx => ?_⟩
    · rwa [hread] at hland
    · rwa [hread] at hland
    · rw [hread] at hland
      cases x with
      | trap c i => exact absurd rfl (hx c i)
      | _ => exact hland
  · intro k p hfind hmay z goes
    refine ⟨fun m hm hkind => arrival_goes hfind hmay hkind rfl (arrive_member false hm), fun hhome => ?_⟩
    refine ⟨?_, ?_, ?_, ?_, ?_, ?_, ?_, ?_, ?_, ?_, ?_, ?_, ?_, ?_⟩
    · exact fun a n ty mask dst hb hclear => arrival_goes hfind hmay (hb ▸ rfl) rfl (arrive_load false hhome hb hclear)
    · exact fun a n mask v hb hclear => arrival_goes hfind hmay (hb ▸ rfl) rfl (arrive_store false hhome hb hclear)
    · exact fun c e bs hb => arrival_goes hfind hmay (hb ▸ rfl) rfl (arrive_message false hhome hb)
    · exact fun c off slot bs last hb => arrival_goes hfind hmay (hb ▸ rfl) rfl (arrive_chanMsg false hhome hb)
    · exact fun c off hb hproduces hroom hasks hfirst =>
        arrival_goes hfind hmay (hb ▸ rfl) rfl (arrive_ringAsk hhome hb hproduces hroom hasks hfirst)
    · exact fun c off i n bs last hb => arrival_goes hfind hmay (hb ▸ rfl) rfl (arrive_ringData false hhome hb)
    · exact fun c off hb => arrival_goes hfind hmay (hb ▸ rfl) rfl (arrive_ringToken false hhome hb)
    · exact fun b i op v hb => arrival_goes hfind hmay (hb ▸ rfl) rfl (arrive_hb false hhome hb)
    · exact fun c off op n hb => arrival_goes hfind hmay (hb ▸ rfl) rfl (arrive_mb false hhome hb)
    · exact fun b i add last v hb => arrival_goes hfind hmay (hb ▸ rfl) rfl (arrive_tc false hhome hb)
    · exact fun sid r v h u hb htarget hfree => arrival_goes hfind hmay (hb ▸ rfl) rfl (arrive_putr false hhome hb htarget hfree)
    · exact fun op a b dst w y hb hfirst hevent => arrival_goes hfind hmay (hb ▸ rfl) rfl (arrive_kv false hhome hb hfirst hevent)
    · exact fun h hb => arrival_goes hfind hmay (hb ▸ rfl) rfl (arrive_notice false hhome hb)
    · exact fun h hb => arrival_goes hfind hmay (hb ▸ rfl) rfl (arrive_notice false hhome hb)
  · exact fun k p hfind hkind hmay => arrival_hindered hfind hkind hmay
  · intro k p hfind hst hback
    exact ⟨fun hreply => ⟨execLoadDataLands_lands hfind hst hback hreply, execCprWordLands_lands hfind hst hback hreply,
      execAccessAcknowledged_acknowledges hfind hst hback hreply⟩, fun m n => execLoadDataLands_replies hfind hst hback⟩
  · intro k p a n o hfind hbody hst
    refine ⟨execAtomicGrant_granted hfind hbody hst, execAtomicGrant_poisoned hfind hbody hst, fun r hresv hgranted hreply => ?_⟩
    exact exec_goes rfl (releaseAtomic_answers hfind hbody hst hresv hgranted hreply)
  · intro k p hfind hmesh hheld hfree hops
    have hhop : ∀ {y : State}, meshHop s p = y → hops y := fun hy => hy ▸ execMeshFlitHop_hops hfind hmesh hheld hfree
    refine ⟨fun hst hturn => hhop (meshHop_turns hst hturn), fun hgoes => ⟨fun hroute hlim hfirst => ⟨fun hexit => ?_, fun n hexit hopen => ?_⟩,
      fun n rest hroute hopen => hhop (meshHop_moves hgoes hroute hopen)⟩⟩
    · exact hhop (meshHop_arrives hgoes hroute hlim hfirst hexit)
    · exact hhop (meshHop_leaves hgoes hroute hlim hfirst hexit hopen)
  · exact fun core u rest p n hwait hpkt hentry hasks => exec_goes rfl (poolGrant_grants hwait hpkt hentry hasks)
  · exact fun sid w hwait hst hready hspill => exec_goes rfl (wakeIf_wakes hwait hst hready hspill)
  · exact fun uid hlate => exec_goes rfl (if_pos (List.contains_iff_mem.mpr hlate))
  · exact fun uid sid t hstrand hplace harmed hlate hst => exec_goes rfl (expire_stops hstrand hplace harmed hlate hst)
  · exact fun b q n j p hfind hlapsed hstate hmissed hpromise hlate hwaits =>
      exec_goes rfl (missOf_stops hfind hlapsed hstate hmissed hpromise hlate hwaits)
  · intro uid sid hslot
    show execCordonLeave uid s = _
    simp only [execCordonLeave, inSlot, hslot]
  · exact fun k r hfind => ⟨execTrapRecordDelivery_delivers hfind, execTrapqRecordTimeout_faults hfind⟩
  · exact fun uid core place e hspill hentry =>
      ⟨execEvictComplete_ends hspill hentry, fun n => execSpillReturn_ends hspill hentry⟩
  · exact fun core => ⟨fun sid p => execAutoEvict_evicts, fun e n => execAutoReturn_moves⟩
  · intro htick
    exact exec_goes rfl (if_pos (beq_iff_eq.mpr htick))

end Sys2Proof.Machine
end

section
/-! SUPPORT. The events of engines, the Interchange, the Plaza, page walks and contexts, each where its guard holds, and the theorem
that settles their statement. -/

namespace Sys2Proof.Machine
open Sys2Proof

/-! ## Engine queues (R242, R252, R346–R348) -/

theorem grantEntry_enters {s : State} {b q : Nat} {w : Submit} (hhead : (queueOf s b q).waiting.head? = some w) (hkind : w.kind ≠ .fence)
    (hasks : ((strandOf s w.uid).map fun t => asksFor t w.k).getD false = true) (hroom : (queueOf s b q).jobs.length < depthOf q) :
    grantEntry s b q = answerGrant (enterSubmit (dropSubmit s b w.k) b q w).2 w.uid w.k (enterSubmit (dropSubmit s b w.k) b q w).1 := by
  have hfence : (w.kind == .fence) = false := beq_eq_false_iff_ne.mpr hkind
  have hopen : (decide ((queueOf s b q).jobs.length < depthOf q) && (some w).map (·.k) == some w.k) = true := by simp [hroom]
  simp only [grantEntry, hhead, hasks, hfence, hopen, Bool.not_true, Bool.false_eq_true, if_false, if_true]

section head
variable {s : State} {b q : Nat} {j : Job} (hhead : headJob s b q = some j) (hruns : ctxRuns s j.ctx = true)
include hhead hruns

theorem runningHead_head (f : Job → State) : runningHead s b q f = .next (f j) := by
  simp only [runningHead, hhead, hruns, if_true]

theorem execJobStart_starts (hstate : j.state = 0) (hkind : j.kind ≠ .fence) (hgood : startReason j = 0) :
    exec (.jobStart b q) s = .next (updJob s b q j.seq fun x => { x with state := 2 }) := by
  refine exec_goes (runningHead_head hhead hruns _) ?_
  simp [startJob, hhead, hstate, hkind, hgood]

theorem execJobStart_refuses (hstate : j.state = 0) (hkind : j.kind ≠ .fence) (hbad : startReason j ≠ 0) :
    exec (.jobStart b q) s = .next (endJob s b q j 4 (startReason j)) := by
  refine exec_goes (runningHead_head hhead hruns _) ?_
  simp [startJob, hhead, hstate, hkind, hbad]

theorem execJobEnd_ends (hstate : j.state = 2) (hstopping : j.stopping = false) (hover : workOver s b q j = true)
    (hquiet : hubQuiet s b = true) (hfree : wordFree s j = true) : exec (.jobEnd b q) s =
      .next (endJob (if j.kind == .matrix then mxFinish s b j else s) b q j (if j.halted then 2 else 0) 0) := by
  refine exec_goes (runningHead_head hhead hruns _) ?_
  simp [finishJob, hhead, hstate, hstopping, hover, hquiet, hfree]

theorem execJobCancelStop_ends (hstopping : j.stopping = true) (hstate : j.state = 3 ∨ pieceDone j = true) (hidle : engIdle s b q = true) :
    exec (.jobCancelStop b q) s = .next (endJob (dropReads s (engOf b q j)) b q j 4 7) := by
  refine exec_goes (runningHead_head hhead hruns _) ?_
  have hstops : (j.state == 3 || pieceDone j) = true := by simpa using hstate
  simp only [hstopping, hstops, hidle, Bool.and_self, if_true]

theorem execJobFault_halts {cls step : Nat} {info : Word} (hstate : j.state = 2) :
    exec (.jobFault b q cls step info) s = .next (haltJob s b q j cls step info) :=
  exec_goes (runningHead_head hhead hruns _) (if_pos (beq_iff_eq.mpr hstate))

end head

theorem execFenceEnd_ends {s : State} {b n : Nat} {j : Job} (hready : readyFence s b n = some j) (hruns : ctxRuns s j.ctx = true) :
    exec (.fenceEnd b n) s =
      .next (j.parts.foldl (fun z p => match headJob z b p.1 with | some h => endJob z b p.1 h 0 0 | none => z) s) := by
  show execFenceEnd b n s = _
  simp only [execFenceEnd, hready, hruns, if_true] <;> rfl

theorem treeComplete_answers {s : State} {ctx d c : Nat} (hparts : (mapGet TreeRound.init s.trees (treeKey ctx d c)).parts ≠ [])
    (hall : ∀ b ∈ treeBlocks s ctx d, ∃ p ∈ (mapGet TreeRound.init s.trees (treeKey ctx d c)).parts, p.1 = b) :
    treeComplete s ctx d c = (mapGet TreeRound.init s.trees (treeKey ctx d c)).parts.foldl
      (fun z p => answer z p.2.1 z.nextId (waitDest z p.2.1) 0xFFFF
        ((treeResult s (mapGet TreeRound.init s.trees (treeKey ctx d c))).setWidth 128))
      { s with trees := mapPut s.trees (treeKey ctx d c) TreeRound.init, fresh := s.fresh + 1 } := by
  refine if_neg ?_
  simp only [Bool.or_eq_true, Bool.not_eq_true', List.isEmpty_iff, hparts, false_or, Bool.not_eq_false, List.all_eq_true, List.any_eq_true,
    beq_iff_eq]
  exact hall

/-! ## Launches and units (R365–R376) -/

theorem ichgWrite_zero (s : State) (ctx : Nat) (bs : List Byte) : ichgWrite s ctx (0 : Word).toNat bs = (none, s) := rfl

theorem submitHost_accepts {s : State} {ctx slot : Nat} (hfull : ((slotWords s ctx slot).getD 31 0).getLsbD 63 = true)
    (hanswer : (slotWords s ctx slot).getD 7 0 = 0) (hruns : (getCtx s ctx).st = .running) :
    submitHost s ctx slot = clearSlotWord (acceptLaunch s ctx (slotWords s ctx slot) true).2.2 ctx slot := by
  simp only [submitHost, hfull, hanswer, hruns, Bool.not_true, Bool.false_eq_true, if_false, beq_self_eq_true, Bool.or_true, Bool.true_or, if_true]
  rfl

theorem releaseUnit_sends {s : State} {e : Nat} {ws : List Word} (hnext : nextRelease s = some e)
    (hread : unitWords s (getLaunch s e) (getLaunch s e).sentUnits = .ok ws)
    (hkept : (getLaunch s e).dropped.contains (getLaunch s e).sentUnits = false) :
    let l := getLaunch s e
    let u := nextUnit l e ws
    let h := hintBlk s l u l.sentUnits
    releaseUnit s e = sendUnit (dropReads (updLaunch { s with relTurn := e } e fun k =>
        { k with sentUnits := l.sentUnits + 1, state := if l.sentUnits + 1 == lrCount k.words then 2 else 1 }) (unitReader l))
      u (corner (h / 64) :: meshPath (corner (h / 64)) h) h (lrRadius l.words) none := by
  simp only [releaseUnit, hnext, hread, hkept, bne_self_eq_false, Bool.false_eq_true, if_false]

theorem reofferUnit_gives {s : State} {b c : Nat} {f : UnitFlight} (hfirst : ((cornerQueue s b).find? fun f => !behindProducer s b f) = some f)
    (htaker : ((sortBy (fun x y => hops x b < hops y b || (hops x b == hops y b && x ≤ y))
      ((blocksOf s (unitCtx s f.unit)).filter fun x => x / 64 == b / 64 && hops x b ≤ f.radius)).findSome? fun x => takerOf s x f) = some c) :
    reofferUnit s b = giveUnit (delFlight s f.k) c f.unit := by
  simp only [reofferUnit, hfirst, htaker]

/-- R372: a launch whose units have all retired, with no address to write and no barrier word to arrive at, ends at once. -/
theorem endLaunch_ends {s : State} {e : Nat} (hlive : (getLaunch s e).live = true)
    (hstate : (getLaunch s e).state = 1 ∨ (getLaunch s e).state = 2) (hretired : (getLaunch s e).retired = (getLaunch s e).expected)
    (hsent : (getLaunch s e).sentUnits = lrCount (getLaunch s e).words) (hanswer : (getLaunch s e).words.getD 6 0 = 0)
    (hword : lw (getLaunch s e).words 5 30 1 = 0) :
    endLaunch s e = countEnd { updLaunch s e (fun k => { k with live := false, state := 3, status := 0, order := s.nextId, ending := none }) with
      nextId := s.nextId + 1 } (getLaunch s e).ctx (getLaunch s e).words false := by
  have hgoes : (!(getLaunch s e).live || (getLaunch s e).state == 3 || !allRetired (getLaunch s e)) = false := by
    rcases hstate with h | h <;> simp [allRetired, h, hlive, hretired, hsent]
  have hdead : ((getLaunch s e).state == 4) = false := by rcases hstate with h | h <;> simp [h]
  have hget (l : Launch) : getLaunch { s with launches := mapPut s.launches e l } e = l := (getLaunch_put rfl e).trans (if_pos rfl)
  simp only [endLaunch, hgoes, hdead, hanswer, Bool.false_eq_true, if_false]
  simp only [ichgWrite_zero, endRest, updLaunch, hget, endWaits, endWord, hword, mapPut_put, hlive]
  rfl

theorem wcancel_unit {s : State} {ctx : Nat} {v : Word} (hzero : v.toNat / 2 ^ 48 % 2 ^ 13 = 0) (hlevel : v.toNat / 2 ^ 61 = 0) :
    wcancel s ctx v = cancelUnit s ctx (v.toNat % 2 ^ 48) := by
  simp only [wcancel, hzero, hlevel]
  rfl

theorem wcancel_level {s : State} {ctx : Nat} {v : Word} (hzero : v.toNat / 2 ^ 48 % 2 ^ 13 = 0) (hlow : 1 ≤ v.toNat / 2 ^ 61)
    (hhigh : v.toNat / 2 ^ 61 < 5) : wcancel s ctx v =
      settleLevels ((launchesOf s ctx (v.toNat / 2 ^ 61) (v.toNat % 2 ^ 48)).foldl
        (fun z l => cancelLaunch z l (v.toNat / 2 ^ 61) (v.toNat % 2 ^ 48))
        (updCtx s ctx fun x => markLevels x (v.toNat / 2 ^ 61) (v.toNat % 2 ^ 48))) ctx := by
  have hgood : (decide (5 ≤ v.toNat / 2 ^ 61) || v.toNat / 2 ^ 48 % 2 ^ 13 != 0) = false := by
    rw [hzero, decide_eq_false (by omega)]
    rfl
  have hsome : (v.toNat / 2 ^ 61 == 0) = false := beq_eq_false_iff_ne.mpr (by omega)
  simp only [wcancel, hgood, hsome, Bool.false_eq_true, if_false]

/-! ## Groups, tickets and collectives (R382–R387) -/

theorem postArrives_forwards {s : State} {gid k m : Nat} {x : PostSig} {g : Group} (hfind : (s.plaza.groups.find? fun g => g.gid == gid) = some g)
    (hopen : g.state ≠ 2) (helsewhere : g.plaza ≠ s.dom.member) : postArrives s gid k m x = sendPlaza s g.plaza (postMessage gid k m x) := by
  simp [postArrives, hfind, hopen, helsewhere]

theorem postArrives_pends {s : State} {gid k m : Nat} {x : PostSig} {g : Group} (hfind : (s.plaza.groups.find? fun g => g.gid == gid) = some g)
    (hopen : g.state ≠ 2) (hhere : g.plaza = s.dom.member) (hmany : g.entries.length ≠ 1)
    (hnew : (s.plaza.pending.find? fun p => p.gid == gid && p.k == k) = none) (hroom : storeFull s g = false) :
    postArrives s gid k m x = updPlaza s fun z => { z with pending := z.pending ++ [{ gid := gid, k := k, seen := [(m, x)] }] } := by
  have hstate : (g.state == 2) = false := beq_eq_false_iff_ne.mpr hopen
  have hlen : (g.entries.length == 1) = false := beq_eq_false_iff_ne.mpr hmany
  simp only [postArrives, hfind, hstate, hhere, hnew, hroom, hlen, bne_self_eq_false, Bool.false_eq_true, if_false]

theorem placeTicket_queues {s : State} {gid k : Nat} {rank : Rank} {g : Group} (hfind : (s.plaza.groups.find? fun g => g.gid == gid) = some g)
    (hrank : rank.dom ≤ s.plaza.topDom) (hruns : (getCtx s g.ctx).st = .running) :
    placeTicket s gid k rank = updPlaza (updGroup (updPlaza s fun z => { z with posts := z.posts.map fun p =>
        if p.gid == gid && p.k == k && p.state == 0 then { p with state := 1, rank := some rank } else p }) gid
        fun x => { x with tickets := x.tickets + 1 }) fun z => { z with kq := z.kq ++ [(gid, k, rank)] } := by
  have hold : ¬ s.plaza.topDom < rank.dom := by omega
  simp only [placeTicket, updPlaza, hold, if_false, hfind, hruns, beq_self_eq_true, if_true]

theorem startHead_starts {s s1 : State} {gid k : Nat} {rank : Rank} {g : Group} {p : Post} {mine : List Post} (hresume : toResume s = none)
    (hhead : (s.plaza.kq.find? fun e => !started s e.1 e.2.1) = some (gid, k, rank))
    (hfind : (s.plaza.groups.find? fun g => g.gid == gid) = some g)
    (hmine : (s.plaza.posts.filter fun p => p.gid == gid && p.k == k) = p :: mine) (hgood : (p :: mine).all (postDescOk g) = true)
    (hreserve : reserveAll s gid k (collNeed s g (collSig p.cmd) (p :: mine)) = some s1) :
    startHead s = updPlaza s1 fun z => { z with posts := z.posts.map fun q =>
      if q.gid == gid && q.k == k then { q with state := 2 } else q } := by
  have hposts : postsOf s gid k = p :: mine := hmine
  simp only [startHead, hresume, hhead, hposts, hfind, List.head?_cons, hgood, hreserve, Bool.not_true, Bool.false_eq_true, if_false]

section merged
variable {s : State} {gid k m : Nat} {data : List Nat} {g : Group} {q : Post} (hfind : (s.plaza.groups.find? fun g => g.gid == gid) = some g)
  (hpost : (s.plaza.posts.find? fun p => p.gid == gid && p.k == k) = some q)
include hfind hpost

theorem execContributionMerged_merges (haway : entMember (g.entries.getD m 0) ≠ s.dom.member) (hm : m < g.entries.length)
    (hgives : contributes q.cmd m = true) : exec (.contributionMerged gid k m data) s = .next (mergePart s gid k m (collSig q.cmd) data) := by
  have hhere : (entMember (g.entries.getD m 0) == s.dom.member) = false := beq_eq_false_iff_ne.mpr haway
  show execContributionMerged gid k m data s = _
  simp only [execContributionMerged, hfind, hpost, hhere, hm, hgives, decide_true, Bool.and_self, Bool.false_eq_true, if_false, if_true]

theorem execContributionMerged_own {p : Post} (hhere : entMember (g.entries.getD m 0) = s.dom.member) (hown : findPost s gid k m = some p) :
    exec (.contributionMerged gid k m data) s = .next (mergeOwn s g p) := by
  show execContributionMerged gid k m data s = _
  simp only [execContributionMerged, hfind, hpost, hhere, hown, beq_self_eq_true, if_true]

end merged

theorem finishable_whole {s : State} {p : Post} {g : Group} {q : Partial} (hpart : findPartial s p.gid p.k = some q) (hstate : p.state = 2)
    (hheld : q.held ≠ none) (hruns : (getCtx s p.ctx).st = .running) (hquiet : hubQuiet s p.blk = true) (hfree : mbFree s p.cmd = true)
    (hall : ∀ m < g.entries.length, contributes p.cmd m = true → ∃ e ∈ q.parts, e.1 = m) : finishable s g p = some q := by
  have hparts : ((List.range g.entries.length).all fun m => !contributes p.cmd m || q.parts.any fun e => e.1 == m) = true := by
    simp only [List.all_eq_true, List.mem_range, Bool.or_eq_true, Bool.not_eq_true', List.any_eq_true, beq_iff_eq]
    intro m hm
    cases hgives : contributes p.cmd m
    · exact .inl rfl
    · exact .inr (hall m hm hgives)
  have hsome : q.held.isSome = true := Option.isSome_iff_ne_none.mpr hheld
  rw [finishable, hpart]
  refine Option.filter_eq_some_iff.mpr ⟨rfl, ?_⟩
  simp only [hstate, hsome, hruns, hquiet, hfree, hparts, beq_self_eq_true, Bool.and_self]

theorem endColl_finishes {s : State} {p : Post} {g : Group} {q : Partial} (hfind : (s.plaza.groups.find? fun g => g.gid == p.gid) = some g)
    (hwhole : finishable s g p = some q) : endColl s p = finishPost s g p q := by
  simp only [endColl, hfind, hwhole]

/-! ## Page walks, translations and frames (R408–R420) -/

theorem execPageWalkComplete_ends {s : State} {k : Nat} {m : Miss} (hfind : (s.misses.find? fun m => m.k == k) = some m)
    (hwait : m.waiting = false) (hwalked : beingWalked s m = true) : exec (.pageWalkComplete k) s = .next (endWalk s m) := by
  show execPageWalkComplete k s = _
  simp only [execPageWalkComplete, hfind, hwait, hwalked, Bool.not_false, Bool.and_self, if_true]

theorem dropTlb_some {s : State} {v : Word} {f : TlbEntry → Bool} (hctx : tlbCtx v ≠ 0) :
    dropTlb s v f = { s with tlb := s.tlb.filter fun e => !(e.ctx == tlbCtx v && f e) } :=
  if_neg (by simpa using hctx)

/-! ## Contexts (R323, R337–R343, R400) -/

theorem command_accepted {s : State} {j : Instr} {ctx : Nat} {ok : Bool} (f : State → State) (hexec : exec j s = command s ctx ok f)
    (hok : ok = true) : exec j s = .next (f (ctxStatus s ctx 0)) := by
  rw [hexec, command, hok, if_pos rfl]

theorem closeCut_closes {s : State} {ctx : Nat} (hall : ∀ m ∈ cutMembers s, ∃ e ∈ (getCtx s ctx).cut, e.1 = m) :
    closeCut s ctx = if (domSums s ctx).1 = (domSums s ctx).2 then teardown s ctx else askCuts s ctx := by
  have hcut : ((cutMembers s).all fun m => (getCtx s ctx).cut.any fun e => e.1 == m) = true := by
    simpa only [List.all_eq_true, List.any_eq_true, beq_iff_eq] using hall
  simp only [closeCut, hcut, if_true, beq_iff_eq]

/-- Settles O59: each event by the lemma of the function that acts it out, its guard being the hypotheses. -/
theorem engineAndContextEvents : Obligations.EngineAndContextEvents := by
  unfold Obligations.EngineAndContextEvents
  intro s
  refine ⟨fun b q w hhead hkind hasks hroom => exec_goes rfl (grantEntry_enters hhead hkind hasks hroom), ?_, fun b n j => execFenceEnd_ends,
    fun ctx d c => ?_, fun ctx slot hslot hctx hfull hanswer hruns => ?_,
    fun e ws hnext hread hkept => exec_goes rfl (releaseUnit_sends hnext hread hkept), fun k f hfind hqueued => ?_,
    fun b f c hfirst htaker => exec_goes rfl (reofferUnit_gives hfirst htaker),
    fun e hlive hstate hretired hsent hanswer hword => exec_goes rfl (endLaunch_ends hlive hstate hretired hsent hanswer hword),
    fun ctx v hzero => ⟨fun hlevel => exec_goes rfl (wcancel_unit hzero hlevel),
      fun hlow hhigh => exec_goes rfl (wcancel_level hzero hlow hhigh)⟩, ?_, fun m ctx es _ => rfl, ?_, ?_, ?_, ?_, ?_, ?_, fun gid k => rfl,
    ?_, ?_, ?_, ?_, ?_, ?_, ?_, ?_, ?_⟩
  · intro b q j hhead hruns
    refine ⟨execJobStart_starts hhead hruns, execJobStart_refuses hhead hruns, fun hstate hstop hover hquiet hfree hkind => ?_,
      fun hstate hstop hover hquiet hfree hkind => ?_, execJobCancelStop_ends hhead hruns, fun cls step info => execJobFault_halts hhead hruns⟩
    · rw [execJobEnd_ends hhead hruns hstate hstop hover hquiet hfree, hkind]
      rfl
    · rw [execJobEnd_ends hhead hruns hstate hstop hover hquiet hfree, hkind]
      rfl
  · exact fun hparts hall => exec_goes rfl (treeComplete_answers hparts hall)
  · exact exec_goes rfl ((if_pos (by simp [hslot, hctx])).trans (submitHost_accepts hfull hanswer hruns))
  · show execUnitOffer k s = _
    simp only [execUnitOffer, hfind, hqueued, Bool.false_eq_true, if_false]
  · exact fun gid k m x g hfind hopen => ⟨fun haway => exec_goes rfl (postArrives_forwards hfind hopen haway),
      fun hhere hmany hnew hroom => exec_goes rfl (postArrives_pends hfind hopen hhere hmany hnew hroom)⟩
  · intro m hactive haway
    refine exec_goes rfl ?_
    simp only [bareRequested, hactive, beq_eq_false_iff_ne.mpr haway, Bool.not_true, Bool.false_eq_true, if_false]
  · intro d hbare hlocal
    refine exec_goes rfl ?_
    simp only [hbare, bareArrives, hlocal, if_true, List.foldl_nil]
  · exact fun gid k rank g hfind hrank hruns => exec_goes rfl (placeTicket_queues hfind hrank hruns)
  · exact fun gid k rank g p mine s1 hresume hhead hfind hmine hgood hreserve =>
      exec_goes rfl (startHead_starts hresume hhead hfind hmine hgood hreserve)
  · exact fun gid k m data g q hfind hpost => ⟨execContributionMerged_merges hfind hpost, fun p => execContributionMerged_own hfind hpost⟩
  · intro key p g q hfind hgroup hpart hstate hheld hruns hquiet hfree hall
    show execCollectiveEnd key s = _
    simp only [execCollectiveEnd, hfind, endColl_finishes hgroup (finishable_whole hpart hstate hheld hruns hquiet hfree hall)]
  · intro k m hfind hwait hwalked
    have hends := execPageWalkComplete_ends hfind hwait hwalked
    unfold endWalk at hends
    refine ⟨fun p hwalk => ?_, fun l r hwalk => ?_, fun hwalk => ?_⟩
    · rwa [hwalk] at hends
    · rwa [hwalk] at hends
    · rwa [hwalk] at hends
  · exact fun d hroom => exec_goes rfl (if_pos hroom)
  · intro v hctx
    refine ⟨exec_goes rfl (dropTlb_some hctx), exec_goes rfl (dropTlb_some hctx), exec_goes rfl ((dropTlb_some hctx).trans ?_)⟩
    simp only [Bool.and_true]
    rfl
  · intro k c hfind
    show execKvCopyEnd k s = _
    simp only [execKvCopyEnd, hfind]
  · intro k c hfind hheld
    show execKvFlip k s = _
    simp only [execKvFlip, hfind, hheld, Bool.false_eq_true, if_false]
  · intro k r hfind hbusy
    show execFrameRetire k s = _
    simp only [execFrameRetire, hfind, hbusy, Bool.false_eq_true, if_false]
  · exact fun b hscrub => exec_goes rfl (if_pos hscrub)
  · intro ctx
    refine ⟨fun hst hroom => command_accepted (fun z => setSt z ctx .created) rfl ?_,
      fun hmay => command_accepted (fun z => setSt ((partBlocks z ctx).foldl (fun y b => scrubBlock y b (some ctx)) z) ctx .admitted) rfl hmay,
      fun x hst hread => ?_, fun succ hst hlate => command_accepted
        (fun z => updCtx z ctx fun x => { x with switchTo := some ((ctxReg s ctx 0x4A0).toNat, succ) }) rfl ?_,
      fun hst => command_accepted (fun z => setSt (flip z ctx) ctx .stopping) rfl ?_, fun h => rfl, fun t n hst hswitch hdue => ?_,
      fun v hsaved hst => ?_,
      fun t n hsaving hlate hswitch hdue => ?_, fun hst hall => exec_goes rfl ((if_pos (by simp [hst])).trans (closeCut_closes hall)),
      fun hst => exec_goes rfl (if_pos (by simpa [or_assoc] using hst)), fun hst hscrub => ?_,
      fun hst hcycle => exec_goes rfl (if_pos (by simp [ctxRuns, hst, hcycle]))⟩
    · simpa [hst] using hroom
    · refine command_accepted (fun z => setSt ((blocksOf z ctx).foldl (fun y b => writeContents y b x) z) ctx .running)
        (ok := (getCtx s ctx).st == .admitted) ?_ (beq_iff_eq.mpr hst)
      show execCtxStart ctx s = _
      simp only [execCtxStart, hread]
    · simp [ctxRuns, hst, hlate]
    · simpa using hst
    · exact exec_goes rfl (if_pos (by simp [hst, hswitch, hdue]))
    · refine ⟨fun hsaving => ?_, fun f hsaving hpred hmay => ?_⟩
      · show execContextSaveComplete ctx s = _
        simp only [execContextSaveComplete, hsaved, hst, hsaving, beq_self_eq_true, Bool.and_self, if_true]
      · show execContextRestore ctx s = _
        simp only [execContextRestore, hsaved, hpred, hst, hsaving, hmay, beq_self_eq_true, Bool.not_false, Bool.and_self, if_true]
    · exact exec_goes rfl (if_pos (by simp [hsaving, hlate, hswitch, hdue]))
    · exact exec_goes rfl (if_pos (by simpa [hst] using hscrub))
  · intro core ctx howner hst hinit hscrub hslot
    show execSlotZeroStart core s = _
    simp only [execSlotZeroStart, howner, ctxRuns, hst, hinit, hscrub, hslot, beq_self_eq_true, Bool.not_false, Bool.and_self, if_true]

end Sys2Proof.Machine
end

section
/-! SUPPORT. The events of the management agent, the host port, the responder, the trust domain, the links and the functions, each
where its guard holds, and the theorem that settles their statement. -/

namespace Sys2Proof.Machine
open Sys2Proof

/-! ## Debugger, power limit and error log (R457, R460, R461) -/

section debugger
variable {s : State} {j : Instr} {ctx sid : Nat} {f : Slot → State} (hexec : exec j s = debugged s ctx sid f)
include hexec

theorem debugged_slot (hst : (getSlot s sid).st ≠ .empty) (hctx : (getSlot s sid).s.ctx = ctx)
    (hstays : getSlot s sid ≠ movingSlot ctx (getSlot s sid).moved) : exec j s = .next (f (getSlot s sid)) := by
  have hslot : ((getSlot s sid).st != .empty && (getSlot s sid).s.ctx == ctx &&
      getSlot s sid != movingSlot ctx (getSlot s sid).moved) = true := by
    rw [bne_iff_ne.mpr hst, beq_iff_eq.mpr hctx, bne_iff_ne.mpr hstays]
    rfl
  simp only [hexec, debugged, hslot, if_true]

theorem debugged_none
    (hnone : (getSlot s sid).st = .empty ∨ (getSlot s sid).s.ctx ≠ ctx ∨ getSlot s sid = movingSlot ctx (getSlot s sid).moved) :
    exec j s = .next s := by
  have hslot : ((getSlot s sid).st != .empty && (getSlot s sid).s.ctx == ctx &&
      getSlot s sid != movingSlot ctx (getSlot s sid).moved) = false := by
    rw [Bool.and_eq_false_iff, Bool.and_eq_false_iff, bne_eq_false_iff_eq, beq_eq_false_iff_ne, bne_eq_false_iff_eq, or_assoc]
    exact hnone
  simp only [hexec, debugged, hslot, Bool.false_eq_true, if_false]

end debugger

theorem execDbgStop_debugged (s : State) (ctx sid : Nat) : exec (.dbgStop ctx sid) s = debugged s ctx sid fun sl =>
    if sl.st == .ready || sl.st == .parked || sl.st == .member then stopSoon { s with fresh := s.fresh + 1 } sid 13 (stopInfo s) else s := rfl

theorem execDbgRelease_debugged (s : State) (ctx sid : Nat) :
    exec (.dbgRelease ctx sid) s = debugged s ctx sid fun sl => if sl.st == .halted then releaseRoot s sid else s := rfl

theorem execDbgHold_debugged (s : State) (ctx sid : Nat) : exec (.dbgHold ctx sid) s =
    debugged s ctx sid fun sl => if sl.st == .halted then updStrand s sid fun t => { t with held := true } else s := rfl

theorem execErrlogCapture_captures {src : Nat} (s : State) (pa : Nat) (hlow : 1 ≤ src) (hhigh : src ≤ 3) :
    exec (.errlogCapture src pa) s = .next (captureError s src pa) :=
  exec_goes rfl (if_pos (by simp [hlow, hhigh]))

theorem logWord_first {old : Word} (src pa : Nat) (hold : old.getLsbD 63 = false) :
    logWord old src pa = BitVec.ofNat 64 (2 ^ 63 + src % 64 * 2 ^ 56 + pa % 2 ^ 56) := by
  rw [logWord, hold]
  rfl

theorem logWord_more {old : Word} (src pa : Nat) (hold : old.getLsbD 63 = true) : logWord old src pa = old ||| 0x4000000000000000#64 := by
  rw [logWord, hold, if_pos rfl]

theorem errNow_old {s : State} (hnow : ∀ e, s.mgmt.errNow = some e → e.1 ≠ s.cycle) :
    (s.mgmt.errNow.filter fun e => e.1 == s.cycle) = none := by
  rw [Option.filter_eq_none_iff]
  intro e he
  simpa using hnow e he

/-- R461: what a capture leaves, and what a clear in the same cycle makes of it. -/
theorem captureError_effect (s : State) (src pa : Nat) :
    let t := captureError s src pa
    t = updMgmt s (fun m => { m with errlog := t.mgmt.errlog, errNow := t.mgmt.errNow }) ∧
    t.mgmt.errlog = logWord s.mgmt.errlog src pa ∧
    ∃ w, t.mgmt.errNow = some (s.cycle, w) ∧ exec .errlogClear t = .next (updMgmt t fun m => { m with errlog := w }) ∧
      ((∀ e, s.mgmt.errNow = some e → e.1 ≠ s.cycle) → w = BitVec.ofNat 64 (2 ^ 63 + src % 64 * 2 ^ 56 + pa % 2 ^ 56)) := by
  intro t
  refine ⟨rfl, rfl, _, rfl, exec_goes rfl ?_, fun hnow => ?_⟩
  · have hkeep : (t.mgmt.errNow.filter fun e => e.1 == t.cycle) = t.mgmt.errNow := Option.filter_eq_some_iff.mpr ⟨rfl, beq_self_eq_true _⟩
    rw [clearErrlog]
    simp only [updMgmt, hkeep]
    rfl
  · rw [errNow_old hnow]
    exact logWord_first src pa (by decide)

theorem execRateLimitRelease_releases {s : State} {k : Nat} {p : Pkt} (hfind : findPkt s k = some p) (hlimited : p.limited = true)
    (hst : p.st = .flying) (hbucket : payloadBytes p.body ≤ (getCtx s p.ctx).bucket)
    (hfirst : ∀ q ∈ s.net, q.ord < p.ord → q.ctx = p.ctx → q.limited = true → q.st ≠ .flying) :
    exec (.rateLimitRelease k) s = .next (updPkt (updCtx s p.ctx fun x => { x with bucket := x.bucket - payloadBytes p.body }) k
      fun q => { q with limited := false }) := by
  have hnone : (s.net.any fun q => q.ord < p.ord && q.ctx == p.ctx && q.limited && q.st == .flying) = false := by
    rw [List.any_eq_false]
    intro q hq
    simp only [Bool.and_eq_true, decide_eq_true_eq, beq_iff_eq, not_and]
    exact fun ⟨⟨hord, hctx⟩, hlim⟩ => hfirst q hq hord hctx hlim
  show execRateLimitRelease k s = _
  simp only [execRateLimitRelease, hfind, hlimited, hst, hbucket, hnone, beq_self_eq_true, decide_true, Bool.not_false, Bool.and_self, if_true]

/-! ## The host port (R365, R422) -/

section host
variable {s : State} {t : Tlp}

theorem execHostTlpReceive_write {bs : List Byte} (hkind : t.kind = 0) (hdata : t.data = some bs) :
    exec (.hostTlpReceive t) s = .next (hostWrite s t bs) := by
  show execHostTlpReceive t s = _
  simp only [execHostTlpReceive, hkind, hdata]

theorem execHostTlpReceive_read (hkind : t.kind = 0) (hdata : t.data = none) : exec (.hostTlpReceive t) s = .next (hostRead s t) := by
  show execHostTlpReceive t s = _
  simp only [execHostTlpReceive, hkind, hdata]

theorem execHostTlpReceive_config (hkind : t.kind = 1) : exec (.hostTlpReceive t) s = .next (hostConfig s t) := by
  show execHostTlpReceive t s = _
  simp only [execHostTlpReceive, hkind]

theorem hostWrite_window {bs : List Byte} (haccepted : tlpAccepted s t = true) (hshape : tlpShape t = true) (hbar : t.bar = 0)
    (hoff : t.offset < 0x80000) : hostWrite s t bs = writeWindow s t.offset bs := by
  simp [hostWrite, haccepted, hshape, hbar, hoff]

theorem hostWrite_register {bs : List Byte} (haccepted : tlpAccepted s t = true) (hshape : tlpShape t = true) (hbar : t.bar = 2)
    (hreg : tlpRegister t = true) : hostWrite s t bs = writeRegister s 0 0 t.offset (BitVec.ofNat 64 (bytesNat bs)) := by
  simp [hostWrite, haccepted, hshape, hbar, hreg]

theorem hostRead_refused (hbad : tlpAccepted s t = false ∨ tlpShape t = false) : hostRead s t = complete s t.tag none := by
  rcases hbad with h | h <;> simp [hostRead, h]

theorem hostRead_window (haccepted : tlpAccepted s t = true) (hshape : tlpShape t = true) (hbar : t.bar = 0) (hoff : t.offset < 0x80000) :
    hostRead s t = complete s t.tag (some ((List.range t.len).map fun i => windowByte s (t.offset + i))) := by
  simp [hostRead, haccepted, hshape, hbar, hoff]

theorem hostRead_register (haccepted : tlpAccepted s t = true) (hshape : tlpShape t = true) (hbar : t.bar = 2)
    (hreg : tlpRegister t = true) : hostRead s t = complete s t.tag (some (natBytes 8 (readRegister s 0 0 t.offset).toNat)) := by
  simp [hostRead, haccepted, hshape, hbar, hreg]

section config
variable (hlen : t.len = 4) (halign : t.offset % 4 = 0) (hoff : t.offset < 4096)
include hlen halign hoff

theorem hostConfig_good : (t.len != 4 || t.offset % 4 != 0 || decide (4096 ≤ t.offset)) = false := by
  rw [hlen, halign, decide_eq_false (by omega)]
  rfl

theorem hostConfig_read (hdata : t.data = none) : hostConfig s t = complete s t.tag (some (cfgRead s t.offset)) := by
  have hgood := hostConfig_good hlen halign hoff
  simp only [hostConfig, hgood, hdata, Bool.false_eq_true, if_false]

theorem hostConfig_write {bs : List Byte} (hdata : t.data = some bs) :
    hostConfig s t = complete (cfgWrite s t.offset bs) t.tag (some []) := by
  have hgood := hostConfig_good hlen halign hoff
  simp only [hostConfig, hgood, hdata, Bool.false_eq_true, if_false]

end config

end host

/-! ## The responder (R421, R423, R436) -/

theorem spdm_answers {s : State} {r : SpdmReq} {j : Instr} {need : Nat} {f : Session → List Byte → State} {seed : List Byte}
    (hseed : s.mgmt.seed = some seed) (hlive : (sessionOf s r.session).phase < 10) (hexec : exec j s = spdm r need f s)
    (hphase : need ≤ (sessionOf s r.session).phase) : exec j s = .next (f (sessionOf s r.session) seed) := by
  rw [hexec]
  simp only [spdm, hseed, hphase, hlive, decide_true, Bool.and_self, if_true]

section requests
variable (s : State) (r : SpdmReq)

theorem execGetVersion_spdm : exec (.getVersion r) s = spdm r 0 (fun _ _ =>
    answerSpdm (dropSession s r.session) (sessionOf (dropSession s r.session) r.session) 1 0x04 [0x13]) s := rfl

theorem execGetCapabilities_spdm : exec (.getCapabilities r) s = spdm r 1 (fun x _ => answerSpdm s x 2 0x61 []) s := rfl

theorem execNegotiateAlgorithms_spdm : exec (.negotiateAlgorithms r) s = spdm r 2 (fun x _ =>
    if offersAll r then answerSpdm s x 3 0x63 [1, 1, 1, 1, 1] else dropSession (spdmError s r.session 7) r.session) s := rfl

theorem execGetDigests_spdm : exec (.getDigests r) s = spdm r 3 (fun x seed =>
    answerSpdm s x x.phase 0x01 (Config.sha512 (Config.chain (Config.publicKey seed)))) s := rfl

theorem execGetCertificate_spdm : exec (.getCertificate r) s = spdm r 3 (fun x seed =>
    if (r.body.getD 0 0).toNat % 16 == 0 then answerSpdm s x x.phase 0x02 (Config.chain (Config.publicKey seed))
    else spdmError s r.session 1) s := rfl

theorem execGetMeasurements_spdm : exec (.getMeasurements r) s = spdm r 3 (fun x seed =>
    answerSpdm s x x.phase 0x60 (ownBlocks s ++ signed seed (ownBlocks s ++ r.body))) s := rfl

theorem execKeyExchange_spdm : exec (.keyExchange r) s = spdm r 3 (fun x seed =>
    let theirs := fixLen 96 r.body
    let mine := fixLen 96 (Config.share (Config.drawn s.fresh))
    answerSpdm { s with fresh := s.fresh + 1 } { x with secret := Config.agreed (Config.drawn s.fresh) theirs, drawn := theirs ++ mine } 4 0x64
      (mine ++ signed seed (theirs ++ mine))) s := rfl

theorem execFinish_spdm : exec (.finish r) s = spdm r 4 (fun x _ =>
    if r.body.take 64 != fixLen 64 (Config.finishMac x.secret) || (r.session != 0 && !finishPasses s x r.body) then
      dropSession (spdmError s r.session 6) r.session
    else answerSpdm s x 5 0x65 []) s := rfl

end requests

theorem finish_passes {s : State} {r : SpdmReq} {x : Session} {a b : State} :
    (if r.body.take 64 != fixLen 64 (Config.finishMac x.secret) || (r.session != 0 && !finishPasses s x r.body) then b else a) =
    if r.body.take 64 = fixLen 64 (Config.finishMac x.secret) ∧ (r.session = 0 ∨ finishPasses s x r.body = true) then a else b := by
  by_cases hmac : r.body.take 64 = fixLen 64 (Config.finishMac x.secret)
  · by_cases hsession : r.session = 0
    · simp [hmac, hsession]
    · cases hpass : finishPasses s x r.body <;> simp [hmac, hsession]
  · simp [hmac]

section keys
variable {s : State} {r : SpdmReq} (hsession : r.session = 0) (hphase : (sessionOf s 0).phase = 5)
include hsession hphase

theorem ideKm_session : (r.session != 0 || (sessionOf s 0).phase != 5) = false := by
  rw [hsession, hphase]
  rfl

theorem execIdeKm_key (hcode : (r.body.getD 0 0).toNat = 2) : exec (.ideKm r) s = .next
    (deliverReply (updMgmt s fun m => { m with ideKey := (r.body.drop 1).take 32, ideSecure := false }) (sessionOf s 0) [0xFE, 3]) := by
  have hlive := ideKm_session hsession hphase
  show execIdeKm r s = _
  simp only [execIdeKm, hlive, hcode, Bool.false_eq_true, if_false]

theorem execIdeKm_secure (hcode : (r.body.getD 0 0).toNat = 4) : exec (.ideKm r) s = .next
    (deliverReply (updMgmt s fun m => { m with ideSecure := m.ideKey.length == 32 }) (sessionOf s 0) [0xFE, 6]) := by
  have hlive := ideKm_session hsession hphase
  show execIdeKm r s = _
  simp only [execIdeKm, hlive, hcode, Bool.false_eq_true, if_false]

theorem execIdeKm_plain (hcode : (r.body.getD 0 0).toNat = 5) : exec (.ideKm r) s = .next
    (deliverReply (updMgmt s fun m => { m with ideSecure := false }) (sessionOf s 0) [0xFE, 6]) := by
  have hlive := ideKm_session hsession hphase
  show execIdeKm r s = _
  simp only [execIdeKm, hlive, hcode, Bool.false_eq_true, if_false]

end keys

/-! ## Domain commands and the joiner (R435, R436, R438) -/

theorem domCmd_taken {s f : State} {j : Instr} {ok : Bool} (hexec : exec j s = domCmd s ok f) (hseed : s.mgmt.seed ≠ none) (hok : ok = true) :
    exec j s = .next f := by
  rw [hexec, domCmd, hok, Option.isSome_iff_ne_none.mpr hseed]
  rfl

theorem domCmd_refused {s f : State} {j : Instr} {ok : Bool} (hexec : exec j s = domCmd s ok f) (hok : ok = false) :
    exec j s = .next (refuse s) := by
  rw [hexec, domCmd, hok]
  rfl

theorem execJoinRequest_changes {s : State} {m : Nat} (hplaza : isPlaza s = true) (hmember : m ∉ s.dom.members) (hnext : m ∉ s.dom.next)
    (hbarrier : m ∉ s.dom.barrier) (hphase : (sessionOf s (m + 1)).phase = 5) : exec (.joinRequest m) s =
      .next (changeTo (updDom (sendRekey s m 10 [1]) fun d => { d with heard := mapPut d.heard m s.dtime }) (s.dom.next ++ [m])) :=
  exec_goes rfl (if_pos (by simp [hplaza, hmember, hnext, hbarrier, hphase]))

theorem execSpdmResponseArrives_joins {s : State} {p m : Nat} (code : Nat) (body : List Byte) (hjoin : s.dom.joining = some (p, m)) :
    exec (.spdmResponseArrives code body) s = .next ((joinStep s p m (sessionOf s (p + 1)) code body).getD (endJoin s p)) := by
  show execSpdmResponseArrives code body s = _
  simp only [execSpdmResponseArrives, hjoin]

theorem joinStep_versions {s : State} {p m : Nat} {x : Session} (body : List Byte) (hphase : x.phase = 10) :
    joinStep s p m x 0x04 body = some (askSpdm s p x 11 0xE1 []) := by
  simp only [joinStep, hphase]

theorem joinStep_finished {s : State} {p m : Nat} {x : Session} (body : List Byte) (hphase : x.phase = 4) :
    joinStep s p m x 0x65 body = some (sendRekey (setSession s { x with phase := 5 }) p 7 (natBytes 2 m)) := by
  simp only [joinStep, hphase]

/-! ## The re-key barrier (R440) -/

theorem rekeying_idle {d : Dom} (hgen : newGen d ≤ d.gen) : rekeying d = false := decide_eq_false (by omega)

theorem startRekey_opens {s : State} (hplaza : isPlaza s = true) (hgen : newGen s.dom ≤ s.dom.gen) :
    let leaving := s.dom.leaving.filter fun m => !s.dom.next.contains m
    startRekey s = (others s (s.dom.next ++ leaving)).foldl sendList (installKeys { s with fresh := s.fresh + 1 }
      (s.dom.gen + 1) s.dom.next leaving (Config.secret (s.fresh + (s.dom.gen + 1)))) := by
  simp only [startRekey, hplaza, rekeying_idle hgen, Bool.not_true, Bool.or_self, Bool.false_eq_true, if_false]

theorem rekeyMessage_installs {s : State} {g : Nat} {ms : List Nat} {secret : List Byte} (hstate : s.dom.state ≠ 0) (hnew : newGen s.dom < g)
    (hme : me s ∈ ms) : rekeyMessage s g ms [] secret = installKeys s g ms [] secret :=
  if_pos (by simp [hstate, hnew, hme])

theorem rekeyArrival_counts {s : State} {m : Nat} (hplaza : isPlaza s = true) (hother : m ≠ me s) (hbarrier : m ∈ s.dom.barrier) :
    rekeyArrival s m 0 = tryClose (arrivalAt s m 0) := by
  simp [rekeyArrival, hother, hplaza, hbarrier]

theorem execRekeyClose_plaza {s : State} (hplaza : isPlaza s = true) (hfull : barrierFull s = true) :
    exec .rekeyClose s = .next (plazaClose s) :=
  exec_goes rfl ((if_pos hplaza).trans (if_pos hfull))

theorem execRekeyClose_member {s : State} (hplaza : isPlaza s = false) (hstate : s.dom.state ≠ 0) (hgen : s.dom.gen < newGen s.dom)
    (hme : me s ∈ s.dom.arrived) : exec .rekeyClose s = .next (closeBarrier s) := by
  have hcloses : (s.dom.state != 0 && rekeying s.dom && s.dom.arrived.contains (me s)) = true := by
    rw [bne_iff_ne.mpr hstate, show rekeying s.dom = true from decide_eq_true hgen, List.contains_iff_mem.mpr hme]
    rfl
  exact exec_goes rfl ((if_neg (by rw [hplaza]; decide)).trans (if_pos hcloses))

/-! ## Heartbeats, losses, elections and time (R389, R439, R442, R443) -/

theorem sendBeat_rekeying (s : State) (m : Nat) : rekeying (sendBeat s m).dom = rekeying s.dom := rfl

theorem heartbeatOf_answers {s : State} {m : Nat} (hother : m ≠ me s) (hplaza : isPlaza s = true) (hstate : s.dom.state ≠ 0)
    (hgen : newGen s.dom ≤ s.dom.gen) :
    heartbeatOf s m = sendBeat (updDom s fun d => { d with heard := mapPut d.heard m s.dtime }) m := by
  have hidle : rekeying (sendBeat (updDom s fun d => { d with heard := mapPut d.heard m s.dtime }) m).dom = false :=
    (sendBeat_rekeying _ m).trans (rekeying_idle hgen)
  simp only [heartbeatOf, beq_eq_false_iff_ne.mpr hstate, beq_eq_false_iff_ne.mpr hother, hplaza, Bool.false_eq_true, if_false, if_true,
    retellTo, hidle, Bool.false_and]

theorem heartbeatOf_notes {s : State} {m : Nat} (hother : m ≠ me s) (hplaza : isPlaza s = false) (hstate : s.dom.state ≠ 0) :
    heartbeatOf s m = updDom s fun d => { d with heard := mapPut d.heard m s.dtime } := by
  simp only [heartbeatOf, beq_eq_false_iff_ne.mpr hstate, beq_eq_false_iff_ne.mpr hother, hplaza, Bool.false_eq_true, if_false]

theorem memberGone_removes {s : State} {m : Nat} (hplaza : isPlaza s = true) (hother : m ≠ me s) (hmember : m ∈ s.dom.members)
    (hnext : m ∈ s.dom.next) (hlate : heardAt s m + 20000 ≤ s.dtime) (hgen : newGen s.dom ≤ s.dom.gen) :
    memberGone s m = tryClose (changeTo (updDom (lostInBarrier (loseMember s m) m) fun d => { d with
      leaving := d.leaving.filter (· != m) }) (s.dom.next.filter (· != m))) := by
  have hgone : (isPlaza s && m != me s && (s.dom.members ++ s.dom.barrier).contains m && (s.dom.next ++ s.dom.leaving).contains m &&
      decide (heardAt s m + 20000 ≤ s.dtime)) = true := by
    simp [hplaza, hother, hmember, hnext, hlate]
  simp only [memberGone, hgone, if_true, rekeying_idle hgen, Bool.false_eq_true, if_false, List.foldl_nil]

section plaza
variable {s : State} (hstate : 2 ≤ s.dom.state) (hplaza : isPlaza s = false) (hlate : heardAt s s.dom.plaza + 20000 ≤ s.dtime)
include hstate hplaza hlate

theorem plazaGone_lost : (decide (s.dom.state < 2) || isPlaza s || decide (s.dtime < heardAt s s.dom.plaza + 20000)) = false := by
  rw [hplaza, decide_eq_false (by omega), decide_eq_false (by omega)]
  rfl

theorem plazaGone_alone (hgen : s.dom.gen = 0) : plazaGone s = standAlone s := by
  have hlost := plazaGone_lost hstate hplaza hlate
  simp only [plazaGone, hlost, hgen, beq_self_eq_true, Bool.false_eq_true, if_false, if_true]

theorem plazaGone_follows (hgen : s.dom.gen ≠ 0) (hheir : heir s.dom ≠ s.dom.member) : plazaGone s = elect s := by
  have hlost := plazaGone_lost hstate hplaza hlate
  simp only [plazaGone, hlost, beq_eq_false_iff_ne.mpr hgen, beq_eq_false_iff_ne.mpr hheir, Bool.false_eq_true, if_false]

theorem plazaGone_takes (hgen : s.dom.gen ≠ 0) (hheir : heir s.dom = s.dom.member) :
    plazaGone s = soon (updPlaza (elect s) fun z => { z with domSeq := max z.domSeq z.topDom }) .rekeyStart := by
  have hlost := plazaGone_lost hstate hplaza hlate
  simp only [plazaGone, hlost, beq_eq_false_iff_ne.mpr hgen, hheir, beq_self_eq_true, Bool.false_eq_true, if_false, if_true]

end plaza

theorem execTimeExchange_member {s : State} (ref : Nat) (hstate : s.dom.state ≠ 0) (hplaza : isPlaza s = false) :
    exec (.timeExchange ref) s = .next (exchangeTime s ref) :=
  exec_goes rfl (if_neg (by simp [hstate, hplaza]))

theorem exchangeTime_aligned {s : State} (ref : Nat) (haligned : s.dom.aligned = true) :
    let diff := (ref : Int) - (s.dtime : Int)
    let move := max (-(rateLimit s)) (min (rateLimit s) diff)
    exchangeTime s ref = updDom { s with skew := s.skew + move } fun d => { d with
      near := decide (-2 ≤ diff - move ∧ diff - move ≤ 2), ahead := 0, timed := max 1 s.dtime } := by
  simp only [exchangeTime, haligned, Bool.true_or, if_true]

theorem exchangeTime_first {s : State} {ref : Nat} (haligned : s.dom.aligned = false) (htimed : s.dom.timed = 0) (hlater : s.dtime < ref) :
    exchangeTime s ref = updDom { s with skew := s.skew + ((ref - s.dtime : Nat) : Int), dtime := ref } fun d => { d with
      near := true, ahead := 0, timed := max 1 ref } := by
  simp only [exchangeTime, haligned, htimed, hlater, bne_self_eq_false, Bool.false_and, Bool.or_self, Bool.false_eq_true, if_false,
    beq_self_eq_true, decide_true, Bool.and_self, if_true]

/-! ## Links and the streams of the fabric (R294, R428, R429) -/

section flit
variable {s : State} {p : Nat} {f : Flit} (hp : p < 16) (hup : (getPort s p).up = true)
include hp hup

theorem execChiplinkFlitReceive_damaged (hcrc : flitCrc f ≠ f.crc) : exec (.chiplinkFlitReceive p f) s = .next (updPort s p sendNak) := by
  refine exec_goes rfl ((if_pos hp).trans ?_)
  simp [flitArrives, hup, hcrc]

theorem execChiplinkFlitReceive_data (hcrc : flitCrc f = f.crc) (hkind : f.kind = 0) (hcls : f.cls < 6) :
    exec (.chiplinkFlitReceive p f) s = .next (if f.lseq != (getPort s p).expect then
      (if (getPort s p).naked then s else updPort s p sendNak) else acceptFlit s p f) := by
  have hfew : ¬ 6 ≤ f.cls := by omega
  refine exec_goes rfl ((if_pos hp).trans ?_)
  simp [flitArrives, hup, hcrc, hkind, hfew]

end flit

theorem acceptFlit_idle {s : State} {p : Nat} {f : Flit} (hempty : mapGet [] (getPort s p).inb f.cls = []) (hstart : f.start = 0x1FF) :
    acceptFlit s p f = updPort s p fun y => { y with
      expect := (y.expect + 1) % 1024, naked := false, inb := mapSet [] y.inb f.cls []
      unacked := if y.unacked + 1 < 32 then y.unacked + 1 else 0
      wire := if y.unacked + 1 < 32 then y.wire else y.wire ++ [controlFlit 1 y.expect] } := by
  have hdata : joinData (getPort s p) f = [] := by
    simp only [joinData, hempty, hstart, List.isEmpty_nil, Bool.true_or, beq_self_eq_true, if_true]
  simp only [acceptFlit, hdata, List.length_nil, takePkts, List.foldl_nil, beq_self_eq_true, if_true]

theorem replay_holds {s : State} {p n : Nat} (hheld : ∃ f ∈ (getPort s p).replay, f.lseq = n) :
    ((getPort s p).replay.any fun f => f.lseq == n) = true := by
  simpa only [List.any_eq_true, beq_iff_eq] using hheld

section replayed
variable {s : State} {p n : Nat} (hup : (getPort s p).up = true) (hheld : ∃ f ∈ (getPort s p).replay, f.lseq = n)
include hup hheld

theorem execLinkAck_frees : exec (.linkAck p n) s = .next (updPort s p fun y =>
    { freeFlits y (y.replay.take ((y.replay.takeWhile fun f => f.lseq != n).length + 1)) with tries := 0 }) :=
  exec_goes rfl ((if_pos hup).trans (if_pos (replay_holds hheld)))

theorem execLinkNak_resends {f : Flit} (hfirst : (getPort s p).replay.head? = some f) (hother : f.lseq ≠ n) :
    exec (.linkNak p n) s = .next (updPort s p fun y =>
      let z := freeFlits y (y.replay.takeWhile fun g => g.lseq != n)
      { z with tries := 1, wire := z.wire ++ z.replay }) := by
  refine exec_goes rfl ((if_pos hup).trans ?_)
  simp only [nakPort, hfirst, replay_holds hheld, beq_eq_false_iff_ne.mpr hother, Bool.not_true, Bool.false_eq_true, if_false]
  rfl

end replayed

theorem fabricArrives_foreign {s : State} {p : FabPkt} (hdst : p.dst ≠ ownId s) : fabricArrives s p = forward s p := by
  simp [fabricArrives, hdst]

theorem fabricArrives_reserved {s : State} {p : FabPkt} (hdst : p.dst = ownId s) (hrsvd : p.rsvd ≠ 0) : fabricArrives s p = countReplay s := by
  simp [fabricArrives, hdst, hrsvd]

theorem fabricArrives_opens {s : State} {p : FabPkt} (hdst : p.dst = ownId s) (hrsvd : p.rsvd = 0) (hstart : openStart s p = none) :
    fabricArrives s p = ((openPkt s p).map (openedArrives s)).getD (countReplay s) := by
  simp [fabricArrives, hdst, hrsvd, hstart]

theorem updStream_congr {s : State} {m : Nat} {f g : Stream → Stream} (h : f (getStream s m) = g (getStream s m)) :
    updStream s m f = updStream s m g := by
  unfold getStream at h
  simp only [updStream, updDom, h]

section sequenced
variable {s : State} {q : FabPkt} (hcls : q.cls ≠ 5)
include hcls

theorem openedArrives_unkeyed (hkeyed : keyed s q = false) : openedArrives s q = countReplay s := by
  simp [openedArrives, inSession, hcls, hkeyed]

variable (hkeyed : keyed s q = true)
include hkeyed

theorem openedArrives_sequenced : openedArrives s q = sequencedArrives s q := by
  simp [openedArrives, inSession, hcls, hkeyed]

variable (hgen : q.gen = (getStream s q.src).rgen)
include hgen

theorem openedArrives_replayed (hseq : q.seq < (getStream s q.src).expect) : openedArrives s q = countReplay s := by
  rw [openedArrives_sequenced hcls hkeyed]
  simp [sequencedArrives, hgen, hseq]

/-- R429: the packet that its stream expects is taken, and acknowledged with the 256th since the last acknowledgement. -/
theorem openedArrives_expected (hseq : q.seq = (getStream s q.src).expect) :
    let got := updStream s q.src fun y => { y with
      expect := y.expect + 1, asked := none, unacked := y.unacked + 1
      oldest := if y.unacked == 0 then s.dtime else y.oldest
      lent := mapPut y.lent q.cls (mapGet 560 y.lent q.cls - fabSize q) }
    openedArrives s q = deliverFabric (if (getStream s q.src).unacked + 1 < 256 then got else sendAck got q.src) q := by
  intro got
  have hgot : (updStream s q.src fun y => { y with
      rgen := q.gen, expect := (getStream s q.src).expect + 1, asked := none
      unacked := y.unacked + 1, oldest := if y.unacked == 0 then s.dtime else y.oldest
      lent := mapPut y.lent q.cls (mapGet 560 y.lent q.cls - fabSize q) }) = got := updStream_congr (by rw [hgen])
  have hcount : (getStream got q.src).unacked = (getStream s q.src).unacked + 1 := by
    simp only [got, getStream, updStream, updDom, mapGet_put, if_true]
  rw [openedArrives_sequenced hcls hkeyed]
  simp only [sequencedArrives, hseq, hgen, beq_self_eq_true, if_true, lt_irrefl, decide_false, Bool.or_self, Bool.false_eq_true, if_false]
  rw [← hgen, hgot, hcount]

theorem openedArrives_asked (hseq : (getStream s q.src).expect < q.seq) (hasked : (getStream s q.src).asked = some (getStream s q.src).expect) :
    openedArrives s q = s := by
  have hlate : ¬ q.seq < (getStream s q.src).expect := by omega
  rw [openedArrives_sequenced hcls hkeyed]
  simp [sequencedArrives, hgen, hseq, hlate, hasked]

theorem openedArrives_asks (hseq : (getStream s q.src).expect < q.seq) (hasked : (getStream s q.src).asked ≠ some (getStream s q.src).expect) :
    openedArrives s q = sendEscape (updDom (updStream s q.src fun y => { y with asked := some (getStream s q.src).expect })
      fun d => { d with retrans := d.retrans + 1 }) q.src 3 (natBytes 8 (getStream s q.src).expect) := by
  have hlate : (decide (q.gen < (getStream s q.src).rgen) || decide (q.seq < (getStream s q.src).expect)) = false := by
    rw [decide_eq_false (by omega), decide_eq_false (by omega)]
    rfl
  have hask : ((getStream s q.src).asked == some (getStream s q.src).expect && q.gen == (getStream s q.src).rgen) = false := by
    rw [beq_eq_false_iff_ne.mpr hasked, Bool.false_and]
  have hsame : (updStream s q.src fun y => { y with
      rgen := q.gen, expect := (getStream s q.src).expect, asked := some (getStream s q.src).expect }) =
      updStream s q.src fun y => { y with asked := some (getStream s q.src).expect } := updStream_congr (by rw [hgen])
  rw [openedArrives_sequenced hcls hkeyed]
  simp only [sequencedArrives, beq_iff_eq.mpr hgen, if_true, hlate, hseq, Bool.false_eq_true, if_false]
  rw [beq_iff_eq.mpr hgen] at hask
  simp only [hask, Bool.false_eq_true, if_false, hsame]

end sequenced

theorem ackDue_acks {s : State} {m : Nat} (hcount : 0 < (getStream s m).unacked) (hlate : (getStream s m).oldest + 1000 ≤ s.dtime) :
    ackDue s m = sendAck s m :=
  if_pos (by simp [hcount, hlate])

theorem resendDue_resends {s : State} {m : Nat} (hshadow : (getStream s m).shadow ≠ []) (hlate : (getStream s m).since + 20000 ≤ s.dtime) :
    resendDue s m = updStream (resend s m 0) m fun y => { y with since := s.dtime } :=
  if_pos (by simp [hshadow, hlate])

/-! ## Functions (R452, R456) -/

theorem execFunctionReady_readies {s : State} {n : Nat} (hmay : mayBeReady s n = true) (hnot : readyBit s n = false) :
    exec (.functionReady n) s = .next (if 26 ≤ n ∧ n ≤ 41 then updPort (setReady s n true) (n - 26) (fun _ => { Port.init with up := true })
      else if 42 ≤ n ∧ n ≤ 45 then startClock (setReady s n true) (n - 42) else setReady s n true) := by
  show execFunctionReady n s = _
  simp only [execFunctionReady, hmay, hnot, Bool.not_false, Bool.and_self, if_true, Bool.and_eq_true, decide_eq_true_eq]

theorem execFunctionFailure_fails {s : State} {n : Nat} (hlow : 24 ≤ n) (hhigh : n ≤ 57) (hdistrict : n < 42 ∨ 45 < n) :
    exec (.functionFailure n) s = .next (if 26 ≤ n ∧ n ≤ 41 then
      updPort (setReady s n false) (n - 26) (fun p => { p with up := false }) else setReady s n false) := by
  have hfails : (decide (24 ≤ n) && decide (n ≤ 57) && !(decide (42 ≤ n) && decide (n ≤ 45))) = true := by
    simp only [Bool.and_eq_true, decide_eq_true_eq, Bool.not_eq_true', Bool.and_eq_false_iff, decide_eq_false_iff_not]
    omega
  show execFunctionFailure n s = _
  simp only [execFunctionFailure, hfails, if_true, Bool.and_eq_true, decide_eq_true_eq]

theorem execDistrictFailure_fails {s : State} {d : Nat} (hd : d < 4) (hready : readyBit s (42 + d) = true) :
    exec (.districtFailure d) s =
      .next (((holdersOf s d).filter fun c => (getCtx s c).st != .tornDown).foldl teardown (setClock (setReady s (42 + d) false) d 0)) :=
  exec_goes rfl (if_pos (by rw [hready, decide_eq_true hd]; rfl))

/-- Settles O60: each event by the lemma of the function that acts it out, its guard being the hypotheses. -/
theorem deviceAndDomainEvents : Obligations.DeviceAndDomainEvents := by
  unfold Obligations.DeviceAndDomainEvents
  intro s
  refine ⟨?_, ?_, fun v => ?_,
    fun hdue => exec_goes rfl (if_pos hdue), ?_, fun src pa => execErrlogCapture_captures s pa, fun hnow => exec_goes rfl ?_,
    fun k p => execRateLimitRelease_releases, fun core ctx off v hmapped hpriv => exec_goes rfl (if_pos ?_), ?_, ?_, ?_, fun r hseed => ?_,
    ?_, ?_, ?_, fun hplaza hgen => exec_goes rfl (startRekey_opens hplaza hgen),
    fun g ms secret hstate hnew hme => exec_goes rfl (rekeyMessage_installs hstate hnew hme),
    fun m hplaza hother hbarrier => exec_goes rfl (rekeyArrival_counts hplaza hother hbarrier), execRekeyClose_plaza, execRekeyClose_member,
    fun m hother hstate => ⟨fun hplaza hgen => exec_goes rfl (heartbeatOf_answers hother hplaza hstate hgen),
      fun hplaza => exec_goes rfl (heartbeatOf_notes hother hplaza hstate)⟩,
    fun m hplaza hother hmember hnext hlate hgen => exec_goes rfl (memberGone_removes hplaza hother hmember hnext hlate hgen),
    fun hstate hplaza hlate => ⟨fun hgen => exec_goes rfl (plazaGone_alone hstate hplaza hlate hgen),
      fun hgen hheir => exec_goes rfl (plazaGone_follows hstate hplaza hlate hgen hheir),
      fun hgen hheir => exec_goes rfl (plazaGone_takes hstate hplaza hlate hgen hheir)⟩, ?_, ?_,
    fun p n hup hheld => ⟨execLinkAck_frees hup hheld, fun f => execLinkNak_resends hup hheld⟩, ?_, fun m n => rfl,
    fun m n g hstate => exec_goes rfl (if_pos (bne_iff_ne.mpr hstate)), fun m hcount hlate => exec_goes rfl (ackDue_acks hcount hlate),
    fun m hshadow hlate => exec_goes rfl (resendDue_resends hshadow hlate), rfl, fun n => execFunctionReady_readies,
    fun n => execFunctionFailure_fails, fun d => execDistrictFailure_fails⟩
  · intro ctx sid hst hctx hstays
    exact ⟨fun hlive => exec_goes (debugged_slot (execDbgStop_debugged s ctx sid) hst hctx hstays) (if_pos (by simpa [or_assoc] using hlive)),
      fun hhalted => exec_goes (debugged_slot (execDbgRelease_debugged s ctx sid) hst hctx hstays) (if_pos (beq_iff_eq.mpr hhalted)),
      fun hhalted => exec_goes (debugged_slot (execDbgHold_debugged s ctx sid) hst hctx hstays) (if_pos (beq_iff_eq.mpr hhalted))⟩
  · exact fun ctx sid hnone => ⟨debugged_none (execDbgStop_debugged s ctx sid) hnone, debugged_none (execDbgRelease_debugged s ctx sid) hnone,
      debugged_none (execDbgHold_debugged s ctx sid) hnone⟩
  · show execPwrlimWrite v s = _
    simp only [execPwrlimWrite, Bool.and_eq_true, decide_eq_true_eq]
  · intro src pa t hlow hhigh ht
    rw [execErrlogCapture_captures s pa hlow hhigh] at ht
    obtain rfl : captureError s src pa = t := by injection ht
    obtain ⟨hrest, hlog, hnow⟩ := captureError_effect s src pa
    exact ⟨hrest, fun hclear => hlog.trans (logWord_first src pa hclear), fun hset => hlog.trans (logWord_more src pa hset), hnow⟩
  · rw [clearErrlog]
    simp only [updMgmt, errNow_old hnow]
    rfl
  · rw [hmapped]
    simpa using hpriv
  · intro t hkind
    refine ⟨fun bs hdata haccepted hshape => ⟨fun hbar hoff => ?_, fun hbar hreg => ?_⟩, fun hdata => ?_⟩
    · exact exec_goes (execHostTlpReceive_write hkind hdata) (hostWrite_window haccepted hshape hbar hoff)
    · exact exec_goes (execHostTlpReceive_write hkind hdata) (hostWrite_register haccepted hshape hbar hreg)
    intro answers
    refine ⟨fun hbad => ?_, fun haccepted hshape => ⟨fun hbar hoff => ?_, fun hbar hreg => ?_⟩⟩
    · exact exec_goes (execHostTlpReceive_read hkind hdata) (hostRead_refused hbad)
    · exact exec_goes (execHostTlpReceive_read hkind hdata) (hostRead_window haccepted hshape hbar hoff)
    · exact exec_goes (execHostTlpReceive_read hkind hdata) (hostRead_register haccepted hshape hbar hreg)
  · intro t hkind hlen halign hoff
    exact ⟨fun hdata => exec_goes (execHostTlpReceive_config hkind) (hostConfig_read hlen halign hoff hdata),
      fun bs hdata => exec_goes (execHostTlpReceive_config hkind) (hostConfig_write hlen halign hoff hdata)⟩
  · intro r seed hseed x hlive
    have hgoes {j : Instr} {need : Nat} {f : Session → List Byte → State} (hexec : exec j s = spdm r need f s) (hphase : need ≤ x.phase) :
        exec j s = .next (f x seed) := spdm_answers hseed hlive hexec hphase
    refine ⟨hgoes (execGetVersion_spdm s r) (Nat.zero_le _), hgoes (execGetCapabilities_spdm s r),
      fun hphase hoffers => exec_goes (hgoes (execNegotiateAlgorithms_spdm s r) hphase) (if_pos hoffers),
      fun hphase => ⟨hgoes (execGetDigests_spdm s r) hphase,
        fun hslot => exec_goes (hgoes (execGetCertificate_spdm s r) hphase) (if_pos (beq_iff_eq.mpr hslot)),
        hgoes (execGetMeasurements_spdm s r) hphase, hgoes (execKeyExchange_spdm s r) hphase⟩,
      fun hphase => exec_goes (hgoes (execFinish_spdm s r) hphase) finish_passes⟩
  · rw [execGetVersion_spdm]
    simp only [spdm, hseed]
  · exact fun r hsession hphase =>
      ⟨execIdeKm_key hsession hphase, execIdeKm_secure hsession hphase, execIdeKm_plain hsession hphase⟩
  · intro m
    refine ⟨fun hstate hseed => ⟨domCmd_taken rfl hseed (beq_iff_eq.mpr hstate), fun p hport => domCmd_taken rfl hseed ?_⟩,
      fun hstate => ⟨domCmd_refused rfl (beq_eq_false_iff_ne.mpr hstate), fun p => domCmd_refused rfl ?_⟩,
      fun hstate hseed => ⟨domCmd_taken rfl hseed ?_, fun hmember hother => domCmd_taken rfl hseed ?_⟩, execJoinRequest_changes⟩
    · simp [alone, hstate, hport]
    · simp [alone, hstate]
    · simp [alone, hstate]
    · simp [alone, hstate, hmember, hother]
  · intro p m code body hjoin x goes
    have hgoes := execSpdmResponseArrives_joins code body hjoin
    exact ⟨fun hnone => exec_goes hgoes (by rw [hnone, Option.getD_none]), fun y hsome => exec_goes hgoes (by rw [hsome, Option.getD_some]),
      fun hphase hcode => exec_goes hgoes (by rw [hcode, joinStep_versions body hphase, Option.getD_some]),
      fun hphase hcode => exec_goes hgoes (by rw [hcode, joinStep_finished body hphase, Option.getD_some])⟩
  · intro ref hstate hplaza move
    exact ⟨fun haligned => ⟨_, exec_goes (execTimeExchange_member ref hstate hplaza) (exchangeTime_aligned ref haligned)⟩,
      fun haligned htimed hlater => exec_goes (execTimeExchange_member ref hstate hplaza) (exchangeTime_first haligned htimed hlater)⟩
  · intro p f hp hup
    refine ⟨execChiplinkFlitReceive_damaged hp hup, fun hcrc hkind hcls => ?_⟩
    have hdata := execChiplinkFlitReceive_data hp hup hcrc hkind hcls
    refine ⟨fun hseq => ⟨exec_goes hdata (by simp [hseq]), acceptFlit_idle⟩, fun hseq hnak => exec_goes hdata (by simp [hseq, hnak]),
      fun hseq hnak => exec_goes hdata (by simp [hseq, hnak])⟩
  · intro p goes
    refine ⟨fun hdst hhops => exec_goes rfl ((fabricArrives_foreign hdst).trans (if_neg (by omega))),
      fun hdst hhops => exec_goes rfl ((fabricArrives_foreign hdst).trans (if_pos hhops)),
      fun hdst hrsvd => exec_goes rfl (fabricArrives_reserved hdst hrsvd), fun hdst hrsvd hstart => ?_⟩
    have hopens : goes (((openPkt s p).map (openedArrives s)).getD (countReplay s)) := exec_goes rfl (fabricArrives_opens hdst hrsvd hstart)
    refine ⟨fun hbad => ?_, fun q hq hcls => ?_⟩
    · rwa [hbad] at hopens
    · rw [hq] at hopens
      have hgoes {y : State} (hy : openedArrives s q = y) : goes y := hy ▸ hopens
      refine ⟨fun hkeyed => hgoes (openedArrives_unkeyed hcls hkeyed),
        fun hkeyed hgen hseq => hgoes (openedArrives_replayed hcls hkeyed hgen hseq), fun hkeyed hgen => ?_⟩
      exact ⟨fun hseq => hgoes (openedArrives_expected hcls hkeyed hgen hseq),
        fun hseq hasked => hgoes (openedArrives_asked hcls hkeyed hgen hseq hasked),
        fun hseq hasked => hgoes (openedArrives_asks hcls hkeyed hgen hseq hasked)⟩

end Sys2Proof.Machine
end

section
/-! SUPPORT. The canonical form of the memory list: folds and choices of states, and the state that a result carries. -/

namespace Sys2Proof.Machine
open Sys2Proof

/-! ## Folds and choices -/

@[simp] theorem mem_ite (c : Prop) [Decidable c] (a b : State) :
    (if c then a else b).mem = if c then a.mem else b.mem := apply_ite State.mem c a b

@[simp] theorem memWf_ite (c : Prop) [Decidable c] (a b : Map Byte) : memWf (if c then a else b) = if c then memWf a else memWf b :=
  apply_ite memWf c a b

@[simp] theorem foldl_mem {α : Type} {f : State → α → State} (hf : ∀ z a, (f z a).mem = z.mem) (l : List α) (s : State) :
    (l.foldl f s).mem = s.mem := by
  induction l generalizing s with
  | nil => rfl
  | cons a l ih => exact (ih (f s a)).trans (hf s a)

@[simp] theorem foldl_memWf {α : Type} {f : State → α → State} (hf : ∀ z a, memWf z.mem = true → memWf (f z a).mem = true)
    (l : List α)
    {s : State} (h : memWf s.mem = true) : memWf (l.foldl f s).mem = true := by
  induction l generalizing s with
  | nil => exact h
  | cons a l ih => exact ih (hf s a h)

theorem foldl_fst_mem {α β : Type} {f : State × β → α → State × β} (hf : ∀ z a, (f z a).1.mem = z.1.mem) (l : List α)
    (s : State × β) :
    (l.foldl f s).1.mem = s.1.mem := by
  induction l generalizing s with
  | nil => rfl
  | cons a l ih => exact (ih (f s a)).trans (hf s a)

theorem memWf_foldl {α : Type} {g : Map Byte → α → Map Byte} (hg : ∀ m a, memWf m = true → memWf (g m a) = true) (l : List α)
    {m : Map Byte} (h : memWf m = true) : memWf (l.foldl g m) = true := by
  induction l generalizing m with
  | nil => exact h
  | cons a l ih => exact ih (hg m a h)

/-- A fold of steps that may fail keeps what each of its steps keeps. -/
theorem foldl_bind_keeps {α β : Type} {P : β → Prop} {f : α → β → Option β} (hf : ∀ a y z, f a y = some z → P y → P z) :
    ∀ (l : List α) {o : Option β} {z : β}, (∀ y, o = some y → P y) → l.foldl (fun o a => o.bind (f a)) o = some z → P z
  | [], _, _, ho, hz => ho _ hz
  | a :: l, o, _, ho, hz => foldl_bind_keeps hf l (fun y hy => by
      obtain ⟨x, hx, hxy⟩ := Option.bind_eq_some_iff.mp hy
      exact hf a x y hxy (ho x hx)) hz

/-! ## Results -/

/-- The state that the result of an instruction's body carries. -/
def Res.state : Res → State
  | .done s => s
  | .jump s _ => s
  | .park s _ _ _ _ => s
  | .trap s _ _ => s
  | .halt s _ _ => s
  | .gone s => s

@[simp] theorem Res.state_done (s : State) : (Res.done s).state = s := by simp only [Res.state]
@[simp] theorem Res.state_jump (s : State) (dest : Word) : (Res.jump s dest).state = s := by simp only [Res.state]
@[simp] theorem Res.state_park (s : State) (obj arg : Word) (left : Option Nat) (stage : Stage) :
    (Res.park s obj arg left stage).state = s := by simp only [Res.state]
@[simp] theorem Res.state_trap (s : State) (cls : Nat) (info : Word) : (Res.trap s cls info).state = s := by simp only [Res.state]
@[simp] theorem Res.state_halt (s : State) (cls : Nat) (info : Word) : (Res.halt s cls info).state = s := by simp only [Res.state]
@[simp] theorem Res.state_gone (s : State) : (Res.gone s).state = s := by simp only [Res.state]

@[simp] theorem Res.state_ite (c : Prop) [Decidable c] (a b : Res) : (if c then a else b).state = if c then a.state else b.state :=
  apply_ite Res.state c a b

theorem memWf_ite_state {c : Prop} [Decidable c] {a b : Res} (ha : memWf a.state.mem = true) (hb : memWf b.state.mem = true) :
    memWf (if c then a else b).state.mem = true := by
  split <;> assumption

/-- The state that an outcome leaves; `s` where it leaves none. -/
def outState (s : State) : Host.Outcome State Fault Refusal → State
  | .next t => t
  | _ => s

@[simp] theorem outState_next (s t : State) : outState s (.next t) = t := by simp only [outState]

end Sys2Proof.Machine
end

section
/-! SUPPORT. The canonical form of the memory list (MemoryFormKept) is kept by the operations of the state, the objects in memory
and the homes of accesses. -/

namespace Sys2Proof.Machine
open Sys2Proof

/-! ## The operations of the state -/

@[simp] theorem updSavedCore_mem (s : State) (ctx core : Nat) (f : Core → Core) : (updSavedCore s ctx core f).mem = s.mem := rfl

@[simp] theorem updUid_mem (s : State) (uid : Nat) (f : Strand → Strand) : (updUid s uid f).mem = s.mem := by
  unfold updUid
  split <;> simp

@[simp] theorem wake_mem (s : State) (uid : Nat) : (wake s uid).mem = s.mem := by
  unfold wake
  split <;> simp

theorem spadWrite_memWf (s : State) (core off n v : Nat) (hwf : memWf s.mem = true) : memWf (spadWrite s core off n v).mem = true :=
  memWf_writeLe _ _ _ _ hwf

@[simp] theorem tlbFill_mem (s : State) (tlb ctx : Nat) (p : Page) : (tlbFill s tlb ctx p).mem = s.mem := by simp [tlbFill]

@[simp] theorem sendMiss_mem (s : State) (t ctx va : Nat) : (sendMiss s t ctx va).2.mem = s.mem := by
  simp only [sendMiss]
  repeat' split
  all_goals simp

@[simp] theorem physWrite_keepsWf (s : State) (pa : Nat) (bs : List Byte) (h : memWf s.mem = true) :
    memWf (physWrite s pa bs).mem = true := physWrite_memWf s pa bs h

theorem virtWrite_memWf {s z : State} {t ctx va k : Nat} {bs : List Byte} (hz : virtWrite s t ctx va k bs = some z)
    (h : memWf s.mem = true) : memWf z.mem = true := (virtWrite_eq t ctx k s va bs z hz).2 h

theorem virtWrite1_memWf {s z : State} {t ctx va : Nat} {bs : List Byte} (hz : virtWrite1 s t ctx va bs = some z)
    (h : memWf s.mem = true) : memWf z.mem = true := (virtWrite1_eq s t ctx va bs z hz).2 h

@[simp] theorem captureMany_mem (s : State) (ctx sid agent : Nat) (write : Bool) (ea : Word) (n : Nat) :
    (captureMany s ctx sid agent write ea n).mem = s.mem := rfl

@[simp] theorem capture_mem (s : State) (ctx sid agent : Nat) (write : Bool) (ea : Word) :
    (capture s ctx sid agent write ea).mem = s.mem := rfl

@[simp] theorem countSent_mem (s : State) (src : Src) (ctx : Nat) (body : Body) (colour : Bool) :
    (countSent s src ctx body colour).mem = s.mem := by
  unfold countSent
  repeat' split
  all_goals simp

@[simp] theorem sendPkt_mem (s : State) (src : Src) (h : Home) (uid sid ctx : Nat) (body : Body) (scope : Option Scope)
    (ring : Option RingPos) (ea : Word) :
    (sendPkt s src h uid sid ctx body scope ring ea).2.mem = s.mem := by simp [sendPkt]

@[simp] theorem updPkt_mem (s : State) (k : Nat) (f : Pkt → Pkt) : (updPkt s k f).mem = s.mem := rfl

@[simp] theorem delPkt_mem (s : State) (k : Nat) : (delPkt s k).mem = s.mem := rfl

@[simp] theorem letGo_mem (s : State) (p : Pkt) : (letGo s p).mem = s.mem := rfl

@[simp] theorem sendNotices_mem (core uid sid ctx : Nat) (un : Bool) (hs : List Word) (s : State) :
    (sendNotices s core uid sid ctx un hs).mem = s.mem := by rw [sendNotices_eq]

theorem writeImage_memWf {s z : State} {ctx blk im tl : Nat} {t : Strand} (hz : writeImage s ctx blk im tl t = some z)
    (h : memWf s.mem = true) : memWf z.mem = true := (writeImage_eq s ctx blk im tl t z hz).2 h

@[simp] theorem areaFault_mem (s : State) (ctx : Nat) : (areaFault s ctx).mem = s.mem := rfl

@[simp] theorem putArea_memWf (s : State) (ctx blk va : Nat) (bs : List Byte) (hwf : memWf s.mem = true) :
    memWf (putArea s ctx blk va bs).mem = true := by
  unfold putArea
  split
  · exact virtWrite1_memWf ‹_› hwf
  · exact hwf

@[simp] theorem mapArea_memWf (s : State) (ctx blk va : Nat) (f : Word → Word) (hwf : memWf s.mem = true) :
    memWf (mapArea s ctx blk va f).mem = true := by
  unfold mapArea
  split <;> simp [hwf]

@[simp] theorem patchAt_memWf (s : State) (ctx blk im : Nat) (r : RegRef) (mask : BitVec 16) (v : Vec) (hwf : memWf s.mem = true) :
    memWf (patchAt s ctx blk im r mask v).mem = true := by
  unfold patchAt
  split
  · split
    · exact hwf
    · exact mapArea_memWf _ _ _ _ _ (mapArea_memWf _ _ _ _ _ (putArea_memWf _ _ _ _ _ hwf))
  · split
    · exact hwf
    · exact mapArea_memWf _ _ _ _ _ (putArea_memWf _ _ _ _ _ hwf)

@[simp] theorem stepImages_memWf (s : State) (uid : Nat) (f : Strand → Strand) (hwf : memWf s.mem = true) :
    memWf (stepImages s uid f).mem = true := by
  unfold stepImages
  split
  · exact hwf
  · refine foldl_memWf (fun z i hz => ?_) _ hwf
    split
    · cases hw : writeImage z i.ctx i.tlb i.im i.tail _ with
      | none => exact hz
      | some y => exact writeImage_memWf hw hz
    · exact hz

@[simp] theorem mapImages_memWf (s : State) (uid off : Nat) (f : Word → Word) (hwf : memWf s.mem = true) :
    memWf (mapImages s uid off f).mem = true := by simp +contextual [mapImages, hwf]

@[simp] theorem dropSavedDebt_memWf (s : State) (uid : Nat) (h : Word) (hwf : memWf s.mem = true) :
    memWf (dropSavedDebt s uid h).mem = true := by
  refine foldl_memWf (fun z i hz => ?_) _ hwf
  split
  · exact hz
  · exact foldl_memWf (fun y d hy => putArea_memWf _ _ _ _ _ hy) _ hz

@[simp] theorem addSavedDebt_memWf (s : State) (uid : Nat) (h : Word) (hwf : memWf s.mem = true) :
    memWf (addSavedDebt s uid h).mem = true := by
  refine foldl_memWf (fun z i hz => ?_) _ hwf
  dsimp only
  split
  · exact hz
  · split
    · exact hz
    · split
      · exact mapArea_memWf _ _ _ _ _ (putArea_memWf _ _ _ _ _ hz)
      · exact hz

@[simp] theorem landReg_memWf (s : State) (uid : Nat) (r : RegRef) (mask : BitVec 16) (v : Vec) (hwf : memWf s.mem = true) :
    memWf (landReg s uid r mask v).mem = true := by simp +contextual [landReg, hwf]

@[simp] theorem queueRecord_mem (s : State) (core : Option Nat) (ctx : Nat) (ws : List Word) :
    (queueRecord s core ctx ws).mem = s.mem := rfl

@[simp] theorem haltStrand_memWf (s : State) (sid cls : Nat) (info : Word) (word : BitVec 96) (h : memWf s.mem = true) :
    memWf (haltStrand s sid cls info word).mem = true := (haltStrand_eq s sid cls info word).2 h

@[simp] theorem takeTrap_memWf (s : State) (sid cls : Nat) (info : Word) (after : Bool) (word : BitVec 96)
    (hwf : memWf s.mem = true) :
    memWf (takeTrap s sid cls info after word).mem = true := by simp [takeTrap, hwf]

@[simp] theorem stopStrand_memWf (s : State) (sid cls : Nat) (info : Word) (hwf : memWf s.mem = true) :
    memWf (stopStrand s sid cls info).mem = true := by simp [stopStrand, hwf]

@[simp] theorem stopSoon_memWf (s : State) (sid cls : Nat) (info : Word) (hwf : memWf s.mem = true) :
    memWf (stopSoon s sid cls info).mem = true := by simp [stopSoon, hwf]

@[simp] theorem takeDue_memWf (s : State) (sid : Nat) (hwf : memWf s.mem = true) : memWf (takeDue s sid).mem = true := by
  unfold takeDue
  split <;> simp [hwf]

@[simp] theorem trapUid_memWf (s : State) (uid cls : Nat) (info : Word) (hwf : memWf s.mem = true) :
    memWf (trapUid s uid cls info).mem = true := by
  unfold trapUid
  split <;> simp [hwf]

@[simp] theorem mapCores_mem (s : State) (f : Core → Core) : (mapCores s f).mem = s.mem := rfl

@[simp] theorem captureError_mem (s : State) (src pa : Nat) : (captureError s src pa).mem = s.mem := rfl

@[simp] theorem clearErrlog_mem (s : State) : (clearErrlog s).mem = s.mem := rfl

@[simp] theorem memoryError_mem (s : State) (pa : Nat) : (memoryError s pa).mem = s.mem := rfl

@[simp] theorem recopyOne_mem (s : State) (sid : Nat) (c : Copy) : (recopyOne s sid c).mem = s.mem := by
  simp only [recopyOne]
  repeat' split
  all_goals simp

@[simp] theorem recopy_mem (s : State) (sid : Nat) : (recopy s sid).mem = s.mem := by simp [recopy]

@[simp] theorem releaseRoot_mem (s : State) (sid : Nat) : (releaseRoot s sid).mem = s.mem := by
  simp only [releaseRoot]
  repeat' split
  all_goals simp

/-! ## Objects: channels, rings, barriers and inboxes -/

@[simp] theorem setHb_mem (s : State) (b i : Nat) (h : HBar) : (setHb s b i h).mem = s.mem := rfl

@[simp] theorem updHb_mem (s : State) (b i : Nat) (f : HBar → HBar) : (updHb s b i f).mem = s.mem := rfl

@[simp] theorem mbCheck_memWf (s : State) (c o : Nat) (hwf : memWf s.mem = true) : memWf (mbCheck s c o).mem = true := by
  unfold mbCheck
  split
  · exact spadWrite_memWf _ _ _ _ _ (spadWrite_memWf _ _ _ _ _ hwf)
  · exact hwf

@[simp] theorem mbArrive_memWf (s : State) (c o n : Nat) (hwf : memWf s.mem = true) : memWf (mbArrive s c o n).mem = true :=
  mbCheck_memWf _ _ _ (spadWrite_memWf _ _ _ _ _ hwf)

@[simp] theorem mbExpect_memWf (s : State) (c o n : Nat) (hwf : memWf s.mem = true) : memWf (mbExpect s c o n).mem = true :=
  mbCheck_memWf _ _ _ (spadWrite_memWf _ _ _ _ _ hwf)

@[simp] theorem mbLand_memWf (s : State) (c o n : Nat) (hwf : memWf s.mem = true) : memWf (mbLand s c o n).mem = true :=
  mbCheck_memWf _ _ _ (spadWrite_memWf _ _ _ _ _ hwf)

@[simp] theorem wakeWhere_mem (s : State) (p : Strand → Bool) (f : Wait → Wait) :
    (wakeWhere s p f).mem = s.mem := by simp [wakeWhere]

@[simp] theorem mbInit_memWf (s : State) (c o n : Nat) (hwf : memWf s.mem = true) : memWf (mbInit s c o n).mem = true :=
  spadWrite_memWf _ _ _ _ _ (spadWrite_memWf _ _ _ _ _ (by rwa [wakeWhere_mem]))

@[simp] theorem updChan_mem (s : State) (c o : Nat) (f : ChanReg → ChanReg) : (updChan s c o f).mem = s.mem := rfl

@[simp] theorem chOpen_memWf (s : State) (c o sid : Nat) (hwf : memWf s.mem = true) : memWf (chOpen s c o sid).mem = true := by
  rw [chOpen_mem]
  exact spadWrite_memWf _ _ _ _ _ (spadWrite_memWf _ _ _ _ _ (spadWrite_memWf _ _ _ _ _ hwf))

@[simp] theorem chRegister_memWf (s : State) (c o uid : Nat) (hwf : memWf s.mem = true) :
    memWf (chRegister s c o uid).mem = true := by
  unfold chRegister
  split
  · exact hwf
  · rw [updCore_mem]
    exact spadWrite_memWf _ _ _ _ _ (spadWrite_memWf _ _ _ _ _ hwf)

@[simp] theorem chReserve_memWf (s : State) (c o : Nat) (hwf : memWf s.mem = true) : memWf (chReserve s c o).2.mem = true :=
  spadWrite_memWf _ _ _ _ _ hwf

@[simp] theorem chLand_memWf (s : State) (c o pos : Nat) (bytes : List Byte) (last : Bool) (uid : Nat) (hwf : memWf s.mem = true) :
    memWf (chLand s c o pos bytes last uid).mem = true := by
  unfold chLand
  dsimp only
  split
  · split
    · rw [updChan_mem]
      exact memWf_writeBytes _ _ _ hwf
    · exact spadWrite_memWf _ _ _ _ _ (spadWrite_memWf _ _ _ _ _ (by rw [updChan_mem]; exact memWf_writeBytes _ _ _ hwf))
  · rw [updChan_mem]
    exact memWf_writeBytes _ _ _ hwf

@[simp] theorem chFree_memWf (s : State) (c o : Nat) (hwf : memWf s.mem = true) : memWf (chFree s c o).mem = true := by
  unfold chFree
  split
  · rw [updChan_mem]
    exact spadWrite_memWf _ _ _ _ _ hwf
  · exact hwf

@[simp] theorem chHand_memWf (s : State) (c o : Nat) (hwf : memWf s.mem = true) : memWf (chHand s c o).2.mem = true := by
  simp only [chHand, updChan_mem]
  exact spadWrite_memWf _ _ _ _ _ hwf

@[simp] theorem chClose_memWf (s : State) (c o : Nat) (hwf : memWf s.mem = true) : memWf (chClose s c o).mem = true := by
  simp only [chClose, updCore_mem]
  exact spadWrite_memWf _ _ _ _ _ hwf

@[simp] theorem rgSetFull_memWf (s : State) (c o i : Nat) (v : Bool) (hwf : memWf s.mem = true) :
    memWf (rgSetFull s c o i v).mem = true :=
  spadWrite_memWf _ _ _ _ _ hwf

@[simp] theorem updRing_mem (s : State) (c o : Nat) (f : RingReg → RingReg) : (updRing s c o f).mem = s.mem := rfl

@[simp] theorem rgRegister_memWf (s : State) (c o uid : Nat) (hwf : memWf s.mem = true) :
    memWf (rgRegister s c o uid).mem = true := by
  unfold rgRegister
  split
  · exact hwf
  · rw [updCore_mem]
    exact spadWrite_memWf _ _ _ _ _ (spadWrite_memWf _ _ _ _ _ hwf)

@[simp] theorem rgReserve_memWf (s : State) (c o : Nat) (hwf : memWf s.mem = true) : memWf (rgReserve s c o).2.mem = true :=
  spadWrite_memWf _ _ _ _ _ hwf

@[simp] theorem rgLand_memWf (s : State) (c o i at_ : Nat) (bytes : List Byte) (last : Bool) (hwf : memWf s.mem = true) :
    memWf (rgLand s c o i at_ bytes last).mem = true := by
  have hland : memWf (writeBytes s.mem (spadKey c (rgSlotOff s c o i + at_)) bytes) = true := memWf_writeBytes _ _ _ hwf
  unfold rgLand
  split
  · exact rgSetFull_memWf _ _ _ _ _ hland
  · exact hland

@[simp] theorem rgAdvance_memWf (c o k : Nat) (s : State) (hwf : memWf s.mem = true) : memWf (rgAdvance s c o k).mem = true := by
  induction k generalizing s with
  | zero => exact hwf
  | succ k ih =>
    unfold rgAdvance
    split
    · exact ih _ (spadWrite_memWf _ _ _ _ _ hwf)
    · exact hwf

@[simp] theorem rgFree_memWf (s : State) (c o uid : Nat) (hwf : memWf s.mem = true) : memWf (rgFree s c o uid).mem = true := by
  unfold rgFree
  split <;> simp [hwf]

@[simp] theorem rgHand_memWf (s : State) (c o uid : Nat) (hwf : memWf s.mem = true) : memWf (rgHand s c o uid).2.mem = true := by
  simp only [rgHand, updRing_mem]
  exact spadWrite_memWf _ _ _ _ _ hwf

@[simp] theorem rgDrop_mem (s : State) (c o : Nat) : (rgDrop s c o).mem = s.mem := by simp [rgDrop]

@[simp] theorem rgToken_memWf (s : State) (c o uid : Nat) (hwf : memWf s.mem = true) : memWf (rgToken s c o uid).mem = true := by
  unfold rgToken
  split
  · exact hwf
  · split
    · exact hwf
    · rw [rgDrop_mem]
      exact spadWrite_memWf _ _ _ _ _ (spadWrite_memWf _ _ _ _ _ hwf)

@[simp] theorem updTc_mem (s : State) (b i : Nat) (f : TCtr → TCtr) : (updTc s b i f).mem = s.mem := rfl

@[simp] theorem countNotice_memWf (s : State) (h : Word) (uid : Nat) (un : Bool) (hwf : memWf s.mem = true) :
    memWf (countNotice s h uid un).mem = true := by
  simp only [countNotice]
  repeat' split
  all_goals simp [hwf]

/-! ## Homes of accesses -/

@[simp] theorem useBanks_mem (s : State) (c cls : Nat) (bs : List Nat) : (useBanks s c cls bs).mem = s.mem := by simp [useBanks]

@[simp] theorem takePort_mem (s : State) (p : Pkt) : (takePort s p).mem = s.mem := by
  unfold takePort
  split <;> simp

@[simp] theorem gainBanks_mem (s : State) (p : Pkt) : (gainBanks s p).mem = s.mem := by
  unfold gainBanks
  split <;> simp

@[simp] theorem takePorts_mem (s : State) (cls : Nat) (xs : List Served) : (takePorts s cls xs).mem = s.mem := by
  refine foldl_mem (fun z x => ?_) xs s
  split <;> simp

end Sys2Proof.Machine
end

section
/-! SUPPORT. The canonical form of the memory list (MemoryFormKept) is kept by the work of the engines and the tests of waits. -/

namespace Sys2Proof.Machine
open Sys2Proof

/-! ## Jobs and their elements -/

@[simp] theorem sendAsk_mem (s : State) (e : Eng) (h : Home) (a n : Nat) (ea : Word) :
    (sendAsk s e h a n ea).mem = s.mem := by simp [sendAsk]

@[simp] theorem engMiss_mem (s : State) (e : Eng) (va : Nat) : (engMiss s e va).mem = s.mem := by simp [engMiss]

@[simp] theorem dropReads_mem (s : State) (e : Eng) : (dropReads s e).mem = s.mem := rfl

@[simp] theorem awaitRead_mem (s : State) (e : Eng) (y : EngStop) : (awaitRead s e y).mem = s.mem := by
  unfold awaitRead
  split <;> simp

@[simp] theorem noteGone_mem (s : State) (e : Eng) (n : Nat) (at0 : Option (Nat × Nat)) : (noteGone s e n at0).mem = s.mem := by
  unfold noteGone
  split <;> simp

@[simp] theorem noteList_mem (s : State) (e : Eng) (d : BitVec 512) (i0 i1 i2 i3 : Nat) :
    (noteList s e d i0 i1 i2 i3).mem = s.mem := by simp [noteList]

theorem takeTokens_mem {s z : State} {ctx n : Nat} (hz : takeTokens s ctx n = some z) : z.mem = s.mem := by
  unfold takeTokens at hz
  split at hz
  · cases hz
    rfl
  · split at hz
    · cases hz
    · cases hz
      exact updCtx_mem ..

@[simp] theorem putPart_memWf (s : State) (e : Eng) (w : EngWrite) (hwf : memWf s.mem = true) :
    memWf (putPart s e w).mem = true := by
  unfold putPart
  split
  · rwa [capture_mem]
  · split
    · rw [heal_mem]
      exact memWf_writeByte _ _ _ hwf
    · rw [heal_mem]
      exact memWf_writeLe _ _ _ _ hwf
  · exact hwf

@[simp] theorem putElem_memWf (s : State) (e : Eng) (w : EngWrite) (hwf : memWf s.mem = true) :
    memWf (putElem s e w).mem = true := by simp +contextual [putElem, hwf]

@[simp] theorem sendLines_mem (s : State) (e : Eng) (bs : List (Home × Nat × Nat × Nat)) : (sendLines s e bs).1.mem = s.mem :=
  foldl_fst_mem (fun z l => sendPkt_mem ..) _ _

@[simp] theorem putElems_memWf (s : State) (e : Eng) (ws : List EngWrite) (hwf : memWf s.mem = true) :
    memWf (putElems s e ws).1.mem = true := by
  have hput : memWf (ws.foldl (fun z w => putElem z e w) s).mem = true := foldl_memWf (fun z w hz => putElem_memWf z e w hz) ws hwf
  unfold putElems
  dsimp only
  split
  · exact hput
  · rwa [sendLines_mem]

theorem inHub_mem {f : State → State} (hf : ∀ z, (f z).mem = z.mem) (s : State) (ctx b : Nat) : (inHub s ctx b f).mem = s.mem := by
  unfold inHub
  split <;> simp [hf]

theorem inHub_memWf {f : State → State} (hf : ∀ z, memWf z.mem = true → memWf (f z).mem = true) (s : State) (ctx b : Nat)
    (hwf : memWf s.mem = true) : memWf (inHub s ctx b f).mem = true := by
  unfold inHub
  split
  · exact hf s hwf
  · rw [updCtx_mem, setHub_mem]
    exact hf _ (by rwa [setHub_mem])

@[simp] theorem putSavedWord_memWf (s : State) (ctx c o : Nat) (bs : List Byte) (hwf : memWf s.mem = true) :
    memWf (putSavedWord s ctx c o bs).mem = true := by simp [putSavedWord, hwf]

theorem atWord_memWf {f : State → State} (hf : ∀ z, memWf z.mem = true → memWf (f z).mem = true) (s : State) (ctx c o : Nat)
    (hwf : memWf s.mem = true) : memWf (atWord s ctx c o f).mem = true := by
  unfold atWord
  split
  · exact hf s hwf
  · exact hwf
  · exact putSavedWord_memWf _ _ _ _ _ (memWf_writeBytes _ _ _ (hf _ (memWf_writeBytes _ _ _ hwf)))

@[simp] theorem updQ_mem (s : State) (b q : Nat) (f : Queue → Queue) : (updQ s b q f).mem = s.mem := rfl

@[simp] theorem updJob_mem (s : State) (b q seq : Nat) (f : Job → Job) : (updJob s b q seq f).mem = s.mem := rfl

@[simp] theorem arriveFor_memWf (s : State) (ctx : Nat) (c : BitVec 512) (hwf : memWf s.mem = true) :
    memWf (arriveFor s ctx c).mem = true := by
  unfold arriveFor
  split
  · exact atWord_memWf (fun z hz => mbArrive_memWf _ _ _ _ hz) _ _ _ _ hwf
  · exact hwf

@[simp] theorem landFor_memWf (s : State) (ctx : Nat) (c : BitVec 512) (n : Nat) (hwf : memWf s.mem = true) :
    memWf (landFor s ctx c n).mem = true := by
  unfold landFor
  split
  · exact atWord_memWf (fun z hz => mbLand_memWf _ _ _ _ hz) _ _ _ _ hwf
  · exact hwf

@[simp] theorem tcRegister_mem (s : State) (b : Nat) (c : BitVec 512) : (tcRegister s b c).mem = s.mem := by simp [tcRegister]

@[simp] theorem enterJob_mem (s : State) (b q : Nat) (kind : JobKind) (c : BitVec 512) (descs : List (BitVec 512)) (bad : Bool)
    (trig : Option (Nat × BitVec 48)) (sid ctx : Nat) :
    (enterJob s b q kind c descs bad trig sid ctx).2.2.mem = s.mem := by
  unfold enterJob
  split <;> simp

@[simp] theorem enterFence_mem (s : State) (b mask sid ctx : Nat) : (enterFence s b mask sid ctx).2.mem = s.mem :=
  foldl_mem (fun z q => updQ_mem ..) _ s

@[simp] theorem fireJob_mem (s : State) (b q : Nat) (j : Job) : (fireJob s b q j).mem = s.mem := by simp [fireJob]

@[simp] theorem fireQueue_mem (s : State) (b i q : Nat) : (fireQueue s b i q).mem = s.mem := by simp [fireQueue]

@[simp] theorem tcEval_mem (s : State) (b i : Nat) : (tcEval s b i).mem = s.mem := by simp [tcEval]

@[simp] theorem tcAdd_mem (s : State) (b i : Nat) (v : BitVec 48) : (tcAdd s b i v).mem = s.mem := rfl

@[simp] theorem tcMoved_mem (s : State) (b i : Nat) : (tcMoved s b i).mem = s.mem := rfl

@[simp] theorem evalCounters_mem (s : State) : (evalCounters s).mem = s.mem := by simp [evalCounters]

@[simp] theorem offerFired_mem (s z : State) : (offerFired s z).mem = z.mem := rfl

@[simp] theorem settleCounters_mem (s : State) : (settleCounters s).mem = s.mem := by simp [settleCounters]

@[simp] theorem endJob_memWf (s : State) (b q : Nat) (j : Job) (status detail : Nat) (hwf : memWf s.mem = true) :
    memWf (endJob s b q j status detail).mem = true := by simp [endJob, hwf]

@[simp] theorem haltJob_memWf (s : State) (b q : Nat) (j : Job) (cls step : Nat) (info : Word) (hwf : memWf s.mem = true) :
    memWf (haltJob s b q j cls step info).mem = true := by simp [haltJob, hwf]

@[simp] theorem noteMx_mem (s : State) (e : Eng) (j : Job) (g : Nat) : (noteMx s e j g).mem = s.mem := by simp [noteMx]

theorem mxGroup_memWf {s z : State} {e : Eng} {j : Job} {g : Nat} (hz : mxGroup s e j g = .ok z) (hwf : memWf s.mem = true) :
    memWf z.mem = true := by
  unfold mxGroup at hz
  simp only [bind, Except.bind, pure, Except.pure] at hz
  split at hz
  · cases hz
  · split at hz
    · cases hz
    · cases hz
      exact memWf_foldl (fun m a hm => memWf_writeLe _ _ _ _ hm) _ hwf

@[simp] theorem mxFinish_memWf (s : State) (blk : Nat) (j : Job) (hwf : memWf s.mem = true) :
    memWf (mxFinish s blk j).mem = true := by
  have hclear (c : Prop) [Decidable c] (lo hi : Nat) : memWf (if c then { s with mem := clearRange s.mem lo hi } else s).mem = true := by
    split
    · exact memWf_clearRange _ _ _ hwf
    · exact hwf
  unfold mxFinish
  generalize List.range 32768 = cells
  dsimp only
  split
  · exact hclear _ _ _
  · exact memWf_foldl (fun m a hm => memWf_writeLe _ _ _ _ hm) _ (hclear _ _ _)

@[simp] theorem noteCopy_mem (s : State) (e : Eng) (j : Job) (idx : Nat) : (noteCopy s e j idx).mem = s.mem := by
  simp only [noteCopy]
  repeat' split
  all_goals simp

@[simp] theorem copyCounted_memWf (s : State) (j : Job) (i : Nat) (hwf : memWf s.mem = true) :
    memWf (copyCounted s j i).mem = true := by simp [copyCounted, hwf]

theorem copyBeat_memWf {s z : State} {b q : Nat} {j : Job} (hz : copyBeat s b q j = .ok z) (hwf : memWf s.mem = true) :
    memWf z.mem = true := by
  unfold copyBeat at hz
  simp only [bind, Except.bind, pure, Except.pure] at hz
  split at hz
  · cases hz
  · split at hz
    · cases hz
    · split at hz
      · cases hz
        have htokens := takeTokens_mem ‹_›
        rw [updQ_mem, updJob_mem]
        refine foldl_memWf (fun y i hy => copyCounted_memWf y _ i hy) _ (putElems_memWf _ _ _ ?_)
        rw [foldl_mem (fun y i => noteCopy_mem ..), takePorts_mem, dropReads_mem, htokens]
        exact hwf
      · cases hz

@[simp] theorem startJob_memWf (s : State) (b q : Nat) (hwf : memWf s.mem = true) : memWf (startJob s b q).mem = true := by
  unfold startJob
  split <;> simp [hwf]

@[simp] theorem mxStep_memWf (e : Eng) (j : Job) (gs : List Nat) (s : State) (hwf : memWf s.mem = true) :
    memWf (mxStep s e j gs).1.mem = true := by
  induction gs generalizing s with
  | nil => exact hwf
  | cons g gs ih =>
    unfold mxStep
    split
    · exact ih _ (mxGroup_memWf ‹_› hwf)
    · exact hwf

@[simp] theorem stopWork_memWf (s : State) (b q : Nat) (j : Job) (x : EngStop) (hwf : memWf s.mem = true) :
    memWf (stopWork s b q j x).mem = true := by
  unfold stopWork
  split <;> simp [hwf]

@[simp] theorem mxPiece_memWf (s : State) (b q : Nat) (j : Job) (hwf : memWf s.mem = true) :
    memWf (mxPiece s b q j).mem = true := by
  have hnote : memWf ((stepGroups j j.progress).foldl (fun z g => noteMx z (engOf b q j) j g) s).mem = true := by
    rwa [foldl_mem (fun z g => noteMx_mem ..)]
  have hstep := mxStep_memWf (engOf b q j) j (stepGroups j j.progress) _ hnote
  unfold mxPiece
  dsimp only
  split
  · next heq =>
    rw [heq] at hstep
    simpa using hstep
  · next heq =>
    rw [heq] at hstep
    exact stopWork_memWf _ _ _ _ _ hstep
  · exact stopWork_memWf _ _ _ _ _ hnote
  · exact stopWork_memWf _ _ _ _ _ hwf

@[simp] theorem copyPiece_memWf (b q n : Nat) (s : State) (hwf : memWf s.mem = true) : memWf (copyPiece s b q n).mem = true := by
  induction n generalizing s with
  | zero => exact hwf
  | succ n ih =>
    unfold copyPiece
    split
    · split
      · exact hwf
      · split
        · exact ih _ (copyBeat_memWf ‹_› hwf)
        · exact stopWork_memWf _ _ _ _ _ hwf
    · exact hwf

@[simp] theorem workJob_memWf (s : State) (b q : Nat) (hwf : memWf s.mem = true) : memWf (workJob s b q).mem = true := by
  unfold workJob
  split <;> simp [hwf]

@[simp] theorem finishJob_memWf (s : State) (b q : Nat) (hwf : memWf s.mem = true) : memWf (finishJob s b q).mem = true := by
  unfold finishJob
  split <;> simp [hwf]

@[simp] theorem postAck_mem (s : State) (k : Nat) (bad : Option (Nat × Word)) : (postAck s k bad).mem = s.mem := rfl

@[simp] theorem queueAck_memWf (s : State) (b q k : Nat) (bad : Option (Nat × Word)) (hwf : memWf s.mem = true) :
    memWf (queueAck s b q k bad).mem = true := by
  unfold queueAck
  dsimp only
  split
  · exact foldl_memWf (fun z i hz => copyCounted_memWf z _ i hz) _ (by rwa [updQ_mem])
  · split <;> simp [hwf]
  · rwa [updQ_mem]

@[simp] theorem engineAck_memWf (s : State) (b q k : Nat) (bad : Option (Nat × Word)) (hwf : memWf s.mem = true) :
    memWf (engineAck s b q k bad).mem = true := by simp [engineAck, hwf]

@[simp] theorem cancelJob_memWf (s : State) (h : Word) (hwf : memWf s.mem = true) : memWf (cancelJob s h).mem = true := by
  unfold cancelJob
  dsimp only
  split
  · exact hwf
  · split
    · refine foldl_memWf (fun z p hz => ?_) _ hwf
      split <;> simp [hz]
    · repeat' split
      all_goals simp [hwf]

@[simp] theorem resumeJob_mem (s : State) (h : Word) : (resumeJob s h).mem = s.mem := by
  unfold resumeJob
  split <;> simp

/-! ## Waits and the cordon -/

@[simp] theorem restate_mem (s : State) (gid : Nat) : (restate s gid).mem = s.mem := rfl

@[simp] theorem joinCordon_mem (s : State) (sid : Nat) : (joinCordon s sid).mem = s.mem := by simp [joinCordon]

@[simp] theorem settleCordon_mem (s : State) : (settleCordon s).mem = s.mem := by
  refine foldl_mem (fun z e => ?_) _ s
  repeat' split
  all_goals simp

@[simp] theorem deadlineReport_mem (s : State) (sid : Nat) : (deadlineReport s sid).mem = s.mem := rfl

@[simp] theorem leaveCordon_mem (s : State) (sid : Nat) : (leaveCordon s sid).mem = s.mem := by
  simp only [leaveCordon]
  repeat' split
  all_goals simp

@[simp] theorem retireUnit_mem (s : State) (core : Nat) (u : UnitRec) : (retireUnit s core u).mem = s.mem := by simp [retireUnit]

@[simp] theorem endStrandNow_memWf (s : State) (sid : Nat) (word : BitVec 96) (hwf : memWf s.mem = true) :
    memWf (endStrandNow s sid word).mem = true := by simp +contextual [endStrandNow, hwf]

end Sys2Proof.Machine
end

section
/-! SUPPORT. The canonical form of the memory list (MemoryFormKept) is kept by answers, launches, the frame that every
instruction runs in, scrubs and device registers. -/

namespace Sys2Proof.Machine
open Sys2Proof

/-! ## Answers -/

@[simp] theorem resume_mem (s : State) (uid : Nat) (f : Strand → Strand) : (resume s uid f).mem = s.mem := by simp [resume]

@[simp] theorem answer_memWf (s : State) (uid k : Nat) (r : Option RegRef) (mask : BitVec 16) (v : Vec) (hwf : memWf s.mem = true) :
    memWf (answer s uid k r mask v).mem = true := by
  unfold answer
  repeat' split
  all_goals simp [hwf]

@[simp] theorem answerTrap_mem (s : State) (uid k cls : Nat) (info : Word) : (answerTrap s uid k cls info).mem = s.mem := by
  unfold answerTrap
  split <;> simp

@[simp] theorem answerGrant_mem (s : State) (uid k n : Nat) : (answerGrant s uid k n).mem = s.mem := by
  unfold answerGrant
  split <;> simp

@[simp] theorem countRecv_mem (s : State) (p : Pkt) : (countRecv s p).mem = s.mem := by
  unfold countRecv
  repeat' split
  all_goals simp

@[simp] theorem performed_mem (s : State) (p : Pkt) (ans : BitVec 512) : (performed s p ans).mem = s.mem := by simp [performed]

@[simp] theorem queuePkt_mem (s : State) (p : Pkt) : (queuePkt s p).mem = s.mem := by
  unfold queuePkt
  split <;> simp

/-! ## Launches and units -/

@[simp] theorem updLaunch_mem (s : State) (e : Nat) (f : Launch → Launch) : (updLaunch s e f).mem = s.mem := rfl

@[simp] theorem acceptLaunch_mem (s : State) (ctx : Nat) (ws : List Word) (host : Bool) :
    (acceptLaunch s ctx ws host).2.2.mem = s.mem := by
  unfold acceptLaunch
  repeat' split
  all_goals simp

@[simp] theorem giveUnit_mem (s : State) (core : Nat) (u : UnitRec) : (giveUnit s core u).mem = s.mem := rfl

@[simp] theorem setFlight_mem (s : State) (k : Nat) (f : UnitFlight → UnitFlight) : (setFlight s k f).mem = s.mem := rfl

@[simp] theorem delFlight_mem (s : State) (k : Nat) : (delFlight s k).mem = s.mem := rfl

@[simp] theorem joinQueue_mem (s : State) (f : UnitFlight) : (joinQueue s f).mem = s.mem := by simp [joinQueue]

@[simp] theorem offerUnit_mem (s : State) (f : UnitFlight) : (offerUnit s f).mem = s.mem := by
  simp only [offerUnit]
  repeat' split
  all_goals simp

@[simp] theorem reofferUnit_mem (s : State) (b : Nat) : (reofferUnit s b).mem = s.mem := by
  simp only [reofferUnit]
  repeat' split
  all_goals simp

@[simp] theorem sendUnit_mem (s : State) (u : UnitRec) (path : List Nat) (hint radius : Nat) (core : Option Nat) :
    (sendUnit s u path hint radius core).mem = s.mem := rfl

@[simp] theorem dropInboxes_mem (s : State) (p : UnitRec → Bool) : (dropInboxes s p).mem = s.mem := rfl

@[simp] theorem dropUnits_mem (s : State) (id : Nat) : (dropUnits s id).mem = s.mem := rfl

@[simp] theorem stopHolders_memWf (s : State) (p : UnitRec → Bool) (level id : Nat) (hwf : memWf s.mem = true) :
    memWf (stopHolders s p level id).mem = true := by simp +contextual [stopHolders, hwf]

@[simp] theorem cancelLaunch_memWf (s : State) (id level lid : Nat) (hwf : memWf s.mem = true) :
    memWf (cancelLaunch s id level lid).mem = true := by simp [cancelLaunch, hwf]

@[simp] theorem cancelUnreleased_mem (s : State) (ctx id : Nat) :
    (cancelUnreleased s ctx id).mem = s.mem := by simp [cancelUnreleased]

@[simp] theorem cancelUnit_memWf (s : State) (ctx id : Nat) (hwf : memWf s.mem = true) :
    memWf (cancelUnit s ctx id).mem = true := by
  refine stopHolders_memWf _ _ _ _ ?_
  rw [cancelUnreleased_mem, foldl_mem (fun z l => updLaunch_mem ..), dropInboxes_mem]
  exact hwf

@[simp] theorem nextPhase_mem (s : State) (ctx t : Nat) : (nextPhase s ctx t).mem = s.mem := by
  unfold nextPhase
  split <;> simp

@[simp] theorem settleTjob_mem (s : State) (ctx n : Nat) : (settleTjob s ctx n).mem = s.mem := rfl

@[simp] theorem settlePhase_mem (s : State) (ctx n : Nat) : (settlePhase s ctx n).mem = s.mem := by simp [settlePhase]

@[simp] theorem settleGraph_mem (s : State) (ctx n : Nat) : (settleGraph s ctx n).mem = s.mem := by simp [settleGraph]

@[simp] theorem countEnd_mem (s : State) (ctx : Nat) (ws : List Word) (bad : Bool) :
    (countEnd s ctx ws bad).mem = s.mem := by simp [countEnd]

@[simp] theorem settleLevels_mem (s : State) (ctx : Nat) : (settleLevels s ctx).mem = s.mem := by
  unfold settleLevels
  dsimp only
  rw [foldl_mem (fun z n => settleTjob_mem ..), foldl_mem (fun z n => settlePhase_mem ..), foldl_mem (fun z n => settleGraph_mem ..)]

@[simp] theorem wcancel_memWf (s : State) (ctx : Nat) (v : Word) (hwf : memWf s.mem = true) :
    memWf (wcancel s ctx v).mem = true := by simp +contextual [wcancel, hwf]

@[simp] theorem soonCancel_mem (s : State) (ctx : Nat) (v : Word) : (soonCancel s ctx v).mem = s.mem := rfl

@[simp] theorem settleCancels_memWf (s : State) (hwf : memWf s.mem = true) : memWf (settleCancels s).mem = true := hwf

@[simp] theorem releaseUnit_memWf (s : State) (e : Nat) (hwf : memWf s.mem = true) : memWf (releaseUnit s e).mem = true := by
  simp only [releaseUnit]
  repeat' split
  all_goals simp [hwf]

@[simp] theorem settleLaunch_mem (s : State) (e : Nat) : (settleLaunch s e).mem = s.mem := by simp [settleLaunch]

@[simp] theorem settleLaunches_mem (s : State) : (settleLaunches s).mem = s.mem := by simp [settleLaunches]

@[simp] theorem abortDependants_memWf (s : State) (id : Nat) (hwf : memWf s.mem = true) :
    memWf (abortDependants s id).mem = true := by simp +contextual [abortDependants, hwf]

@[simp] theorem ichgWrite_memWf (s : State) (ctx va : Nat) (bs : List Byte) (hwf : memWf s.mem = true) :
    memWf (ichgWrite s ctx va bs).2.mem = true := by
  unfold ichgWrite
  repeat' split
  all_goals simp [hwf]

@[simp] theorem endRest_memWf (s : State) (e : Nat) (hwf : memWf s.mem = true) : memWf (endRest s e).mem = true := by
  have hcount (z : State) (w : Option (Nat × Nat)) (ctx : Nat) (ws : List Word) (bad : Bool) (hz : memWf z.mem = true) :
      memWf (countEnd (match w with | some w => atWord z ctx w.1 w.2 (fun y => mbArrive y w.1 w.2 1) | none => z) ctx ws bad).mem = true := by
    rw [countEnd_mem]
    split
    · exact atWord_memWf (fun y hy => mbArrive_memWf _ _ _ _ hy) _ _ _ _ hz
    · exact hz
  unfold endRest
  dsimp only
  split
  · exact hwf
  · split
    · exact abortDependants_memWf _ _ (hcount _ _ _ _ _ hwf)
    · exact hcount _ _ _ _ _ hwf

@[simp] theorem endLaunch_memWf (s : State) (e : Nat) (hwf : memWf s.mem = true) :
    memWf (endLaunch s e).mem = true := by simp [endLaunch, hwf]

/-! ## The frame of an instruction -/

@[simp] theorem finishAt_mem (s : State) (sid : Nat) : (finishAt s sid).mem = s.mem := rfl

@[simp] theorem jumpAt_mem (s : State) (sid : Nat) (dest : Word) : (jumpAt s sid dest).mem = s.mem := rfl

@[simp] theorem setGot_mem (s : State) (sid : Nat) (got : List (Nat × Nat)) : (setGot s sid got).mem = s.mem := rfl

@[simp] theorem parkAt_mem (s : State) (sid op : Nat) (obj arg : Word) (left : Option Nat) (stage : Stage) (o : Option Opnds)
    (rs : List RegRef) (word : BitVec 96) :
    (parkAt s sid op obj arg left stage o rs word).mem = s.mem := rfl

@[simp] theorem clearSync_mem (s : State) (sid : Nat) (rs : List RegRef) : (clearSync s sid rs).mem = s.mem := by simp [clearSync]

@[simp] theorem restoreSync_mem (s : State) (sid : Nat) (rs : List RegRef) : (restoreSync s sid rs).mem = s.mem := rfl

theorem settle_memWf {op : Nat} {x : Args} {sid : Nat} {o : Opnds} {r : Res} (hwf : memWf r.state.mem = true) :
    memWf (settle op x sid o r).mem = true := by
  cases r with
  | done s => simpa [settle] using hwf
  | jump s dest => simpa [settle] using hwf
  | park s obj arg left stage => simpa [settle] using hwf
  | trap s cls info => exact haltStrand_memWf _ _ _ _ _ (by simpa using hwf)
  | halt s cls info => exact takeTrap_memWf _ _ _ _ _ _ hwf
  | gone s => exact hwf

/-- A body whose result carries a canonical memory where its state does. -/
def KeepsForm (body : Body1) : Prop := ∀ s sid t o, memWf s.mem = true → memWf (body s sid t o).state.mem = true

theorem runAt_memWf {body : Body1} (hbody : KeepsForm body) (op : Nat) (x : Args) (s : State) (sid : Nat)
    (hwf : memWf s.mem = true) :
    memWf (runAt op x body s sid).mem = true := by
  have hclear : memWf (clearSync s sid (syncRegs x)).mem = true := by rwa [clearSync_mem]
  unfold runAt
  dsimp only
  split
  · rwa [finishAt_mem]
  · split
    · exact takeTrap_memWf _ _ _ _ _ _ hwf
    · split
      · exact takeTrap_memWf _ _ _ _ _ _ hwf
      · split
        · exact hwf
        · split
          · exact settle_memWf (hbody _ _ _ _ hwf)
          · split
            · exact settle_memWf (hbody _ _ _ _ hclear)
            · exact hwf

@[simp] theorem setReg_mem (s : State) (sid : Nat) (o : Opd) (v : Vec) : (setReg s sid o v).mem = s.mem := by
  unfold setReg
  split <;> simp

@[simp] theorem setG_keepsMem (s : State) (sid : Nat) (o : Opd) (v : Word) : (setG s sid o v).mem = s.mem := by simp [setG]

@[simp] theorem compute_mem (x : Args) (f : Opnds → Word) (s : State) (sid : Nat) (t : Strand) (o : Opnds) :
    (compute x f s sid t o).state.mem = s.mem := by simp [compute]

@[simp] theorem fetchMiss_memWf (s : State) (sid : Nat) (t : Strand) (hwf : memWf s.mem = true) :
    memWf (fetchMiss s sid t).mem = true := by
  simp only [fetchMiss]
  repeat' split
  all_goals simp [hwf]

/-! ## Scrubbing a block -/

@[simp] theorem scrubErrors_mem (s : State) (b : Nat) : (scrubErrors s b).mem = s.mem := by
  refine foldl_mem (fun z _ => ?_) _ s
  rw [captureError_mem]

theorem clearBlock_memWf (s : State) (b : Nat) (hwf : memWf s.mem = true) : memWf (clearBlock s b).mem = true := by
  refine foldl_memWf (fun z r hz => ?_) _ (by rwa [scrubErrors_mem])
  rw [heal_mem]
  exact memWf_clearRange _ _ _ hz

@[simp] theorem scrubBlock_memWf (s : State) (b : Nat) (owner : Option Nat) (hwf : memWf s.mem = true) :
    memWf (scrubBlock s b owner).mem = true := by
  have hclear := clearBlock_memWf s b hwf
  unfold scrubBlock
  dsimp only
  rwa [setHub_mem]

@[simp] theorem writeContents_memWf (s : State) (b : Nat) (x : Contents) (hwf : memWf s.mem = true) :
    memWf (writeContents s b x).mem = true := by
  have hput (z : State) (k : Nat) (bs : List Byte) (hz : memWf z.mem = true) :
      memWf (heal { z with mem := writeBytes z.mem k bs } k bs.length).mem = true := by
    rw [heal_mem]
    exact memWf_writeBytes _ _ _ hz
  unfold writeContents
  dsimp only
  rw [updHub_mem]
  exact hput _ _ _ (hput _ _ _ (foldl_memWf (fun z c hz => hput z _ _ hz) _ hwf))

@[simp] theorem addBlocks_memWf (s : State) (ctx : Nat) (hwf : memWf s.mem = true) : memWf (addBlocks s ctx).mem = true := by
  have hscrub (bs : List Nat) : memWf (bs.foldl (fun z b => scrubBlock z b (some ctx)) s).mem = true :=
    foldl_memWf (fun z b hz => scrubBlock_memWf z b _ hz) bs hwf
  unfold addBlocks
  dsimp only
  split
  · exact hwf
  · split
    · exact foldl_memWf (fun z b hz => writeContents_memWf z b _ hz) _ (hscrub _)
    · rw [soon_mem]
      exact hscrub _

/-! ## Device registers -/

@[simp] theorem writeCtxReg_memWf (s : State) (c off : Nat) (v : Word) (hwf : memWf s.mem = true) :
    memWf (writeCtxReg s c off v).mem = true := by
  unfold writeCtxReg
  dsimp only
  split
  · exact addBlocks_memWf _ _ (by rwa [updCtx_mem])
  · rwa [updCtx_mem]

@[simp] theorem ctxCommand_mem (s : State) (c : Nat) (v : Word) : (ctxCommand s c v).mem = s.mem := by
  simp only [ctxCommand]
  repeat' split
  all_goals simp

@[simp] theorem domCommand_mem (s : State) (v : Word) : (domCommand s v).mem = s.mem := by
  unfold domCommand
  repeat' split
  all_goals simp

@[simp] theorem tlbinv_mem (s : State) (v : Word) : (tlbinv s v).mem = s.mem := by
  unfold tlbinv
  repeat' split
  all_goals simp

@[simp] theorem dbgctl_mem (s : State) (v : Word) : (dbgctl s v).mem = s.mem := by
  unfold dbgctl
  split <;> simp

@[simp] theorem writeErrlog_mem (s : State) (v : Word) : (writeErrlog s v).mem = s.mem := by simp [writeErrlog]

@[simp] theorem writeRegister_memWf (s : State) (core ctx off : Nat) (v : Word) (hwf : memWf s.mem = true) :
    memWf (writeRegister s core ctx off v).mem = true := by simp [writeRegister, hwf]

end Sys2Proof.Machine
end

section
/-! SUPPORT. The canonical form of the memory list (MemoryFormKept) is kept by block tables and the network. -/

namespace Sys2Proof.Machine
open Sys2Proof

/-! ## Block tables -/

@[simp] theorem setDesc_memWf (s : State) (ctx i v : Nat) (hwf : memWf s.mem = true) : memWf (setDesc s ctx i v).mem = true :=
  memWf_writeLe _ _ _ _ hwf

@[simp] theorem setTarget_memWf (s : State) (ctx i f : Nat) (hwf : memWf s.mem = true) : memWf (setTarget s ctx i f).mem = true :=
  memWf_writeLe _ _ _ _ hwf

@[simp] theorem updDesc_memWf (s : State) (ctx i : Nat) (count gen state tier frame : Nat → Nat) (hwf : memWf s.mem = true) :
    memWf (updDesc s ctx i count gen state tier frame).mem = true := by simp [updDesc, hwf]

@[simp] theorem setKey_memWf (s : State) (ctx key : Nat) (d : Option Nat) (hwf : memWf s.mem = true) :
    memWf (setKey s ctx key d).mem = true := by
  unfold setKey
  split
  · exact memWf_writeLe _ _ _ _ hwf
  · exact hwf

@[simp] theorem setPointers_mem (s : State) (ctx j head tail : Nat) : (setPointers s ctx j head tail).mem = s.mem := rfl

@[simp] theorem listTake_mem (s : State) (ctx j : Nat) : (listTake s ctx j).2.mem = s.mem := by
  unfold listTake
  split <;> simp

@[simp] theorem listReturn_memWf (s : State) (ctx j v : Nat) (hwf : memWf s.mem = true) :
    memWf (listReturn s ctx j v).mem = true := by
  unfold listReturn
  dsimp only
  split
  · rwa [soon_mem]
  · rw [setPointers_mem]
    exact memWf_writeLe _ _ _ _ hwf

@[simp] theorem dropKey_mem (s : State) (ctx key : Nat) : (dropKey s ctx key).mem = s.mem := rfl

@[simp] theorem dropFrame_mem (s : State) (ctx tier f : Nat) : (dropFrame s ctx tier f).mem = s.mem := rfl

@[simp] theorem retireFrame_mem (s : State) (ctx d tier f : Nat) (drops : Bool) :
    (retireFrame s ctx d tier f drops).mem = s.mem := rfl

@[simp] theorem abandonMove_memWf (s : State) (ctx i : Nat) (hwf : memWf s.mem = true) :
    memWf (abandonMove s ctx i).mem = true := by simp [abandonMove, hwf]

@[simp] theorem dropCount_memWf (s : State) (ctx i : Nat) (hwf : memWf s.mem = true) : memWf (dropCount s ctx i).mem = true := by
  have hdesc := updDesc_memWf s ctx i (fun n => n - 1) id id id id hwf
  simp only [dropCount]
  split
  · rw [retireFrame_mem]
    exact abandonMove_memWf _ _ _ hdesc
  · exact hdesc

@[simp] theorem takePair_memWf (s : State) (ctx : Nat) (hwf : memWf s.mem = true) : memWf (takePair s ctx).2.mem = true := by
  have hfirst : memWf (listTake s ctx 0).2.mem = true := by rwa [listTake_mem]
  unfold takePair
  split
  · exact hwf
  · split
    · next heq => rwa [heq] at hfirst
    · next f s1 heq =>
      rw [heq] at hfirst
      have hsecond : memWf (listTake s1 ctx 2).2.mem = true := by rwa [listTake_mem]
      split
      · next heq => rwa [heq] at hsecond
      · next heq =>
        rw [heq] at hsecond
        exact listReturn_memWf _ _ _ _ hsecond

/-- The state that a block-table form leaves; `s` where it waits. -/
def KvRes.state (s : State) : KvRes → State
  | .status _ z => z
  | .copying z => z
  | .waits => s

@[simp] theorem KvRes.state_status (s z : State) (w : Word) : (KvRes.status w z).state s = z := by simp only [KvRes.state]
@[simp] theorem KvRes.state_copying (s z : State) : (KvRes.copying z).state s = z := by simp only [KvRes.state]
@[simp] theorem KvRes.state_waits (s : State) : KvRes.waits.state s = s := by simp only [KvRes.state]

theorem kvMapEvent_memWf (s : State) (ctx key b : Nat) (hwf : memWf s.mem = true) :
    memWf ((kvMapEvent s ctx key b).state s).mem = true := by
  have hpair := takePair_memWf s ctx hwf
  simp only [kvMapEvent]
  split
  · split
    · exact hwf
    · split
      · next heq =>
        rw [heq] at hpair
        exact hpair
      · next f n s1 heq =>
        rw [heq] at hpair
        simp only [KvRes.state_status]
        refine setKey_memWf _ _ _ _ (setTarget_memWf _ _ _ _ (setDesc_memWf _ _ _ _ ?_))
        rw [heal_mem]
        exact memWf_clearRange _ _ _ hpair
  · split
    · exact hwf
    · simp only [KvRes.state_status]
      refine dropCount_memWf _ _ _ ?_
      rw [dropKey_mem]
      exact setKey_memWf _ _ _ _ hwf
  · exact hwf

theorem kvRefEvent_memWf (s : State) (ctx key : Nat) (b : Int) (hwf : memWf s.mem = true) :
    memWf ((kvRefEvent s ctx key b).state s).mem = true := by
  unfold kvRefEvent
  split
  · exact hwf
  · dsimp only
    split
    · exact hwf
    · simp only [KvRes.state_status]
      exact updDesc_memWf _ _ _ _ _ _ _ _ hwf

theorem kvForkEvent_memWf (s : State) (ctx a b : Nat) (hwf : memWf s.mem = true) :
    memWf ((kvForkEvent s ctx a b).state s).mem = true := by
  unfold kvForkEvent
  split
  · exact hwf
  · split
    · exact hwf
    · simp only [KvRes.state_status]
      exact setKey_memWf _ _ _ _ (updDesc_memWf _ _ _ _ _ _ _ _ hwf)

theorem startCow_memWf (s : State) (ctx key i pkt : Nat) (zero : Bool) (hwf : memWf s.mem = true) :
    memWf ((startCow s ctx key i pkt zero).state s).mem = true := by
  have hpair := takePair_memWf s ctx hwf
  unfold startCow
  split
  · next heq => rwa [heq] at hpair
  · next heq => rwa [heq] at hpair

theorem kvwEvent_memWf (s : State) (ctx key pkt : Nat) (zero : Bool) (hwf : memWf s.mem = true) :
    memWf ((kvwEvent s ctx key pkt zero).state s).mem = true := by
  unfold kvwEvent
  split
  · exact hwf
  · dsimp only
    split
    · split
      · exact hwf
      · exact startCow_memWf _ _ _ _ _ _ hwf
    · split
      · exact abandonMove_memWf _ _ _ hwf
      · exact startCow_memWf _ _ _ _ _ _ hwf
    · exact startCow_memWf _ _ _ _ _ _ hwf
    · split
      · exact hwf
      · exact startCow_memWf _ _ _ _ _ _ hwf

theorem kvdemEvent_memWf (s : State) (ctx key : Nat) (promote : Bool) (hwf : memWf s.mem = true) :
    memWf ((kvdemEvent s ctx key promote).state s).mem = true := by
  have hlist (j : Nat) : memWf (listTake s ctx j).2.mem = true := by rwa [listTake_mem]
  unfold kvdemEvent
  split
  · exact hwf
  · generalize (if promote then 0 else 1) = j
    generalize (if promote then 2 else 0) = before
    have htake := hlist j
    dsimp only
    split
    · exact hwf
    · split
      · next heq =>
        rw [heq] at htake
        exact htake
      · next heq =>
        rw [heq] at htake
        simp only [KvRes.state_status]
        exact setTarget_memWf _ _ _ _ (updDesc_memWf _ _ _ _ _ _ _ _ htake)

theorem kvEvent_memWf (s : State) (ctx op : Nat) (a b : Word) (pkt : Nat) (hwf : memWf s.mem = true) :
    memWf ((kvEvent s ctx op a b pkt).state s).mem = true := by
  unfold kvEvent
  dsimp only
  split
  · exact hwf
  · split
    · exact kvMapEvent_memWf _ _ _ _ hwf
    · exact kvRefEvent_memWf _ _ _ _ hwf
    · exact kvForkEvent_memWf _ _ _ _ hwf
    · exact kvwEvent_memWf _ _ _ _ _ hwf
    · exact kvdemEvent_memWf _ _ _ _ hwf

@[simp] theorem copyFrame_memWf (s : State) (src dst : Nat) (hwf : memWf s.mem = true) :
    memWf (copyFrame s src dst).mem = true := by
  simp only [copyFrame, heal_mem]
  exact memWf_writeBytes _ _ _ (memWf_clearRange _ _ _ hwf)

@[simp] theorem kvCopyDone_memWf (s : State) (c : KvCopy) (hwf : memWf s.mem = true) : memWf (kvCopyDone s c).mem = true := by
  have hframe (z : State) (src lo hi : Nat) (hz : memWf z.mem = true) :
      memWf (if c.zero then heal { z with mem := clearRange z.mem lo hi } lo 0x10000 else copyFrame z src lo).mem = true := by
    split
    · rw [heal_mem]
      exact memWf_clearRange _ _ _ hz
    · exact copyFrame_memWf _ _ _ hz
  unfold kvCopyDone
  dsimp only
  split
  · rw [updPkt_mem]
    exact listReturn_memWf _ _ _ _ (listReturn_memWf _ _ _ _ hwf)
  · rw [updPkt_mem]
    refine dropCount_memWf _ _ _ ?_
    rw [dropKey_mem]
    exact setKey_memWf _ _ _ _ (setTarget_memWf _ _ _ _ (setDesc_memWf _ _ _ _ (hframe _ _ _ _ hwf)))

@[simp] theorem kvFlipDone_memWf (s : State) (c : KvCopy) (hwf : memWf s.mem = true) : memWf (kvFlipDone s c).mem = true := by
  unfold kvFlipDone
  dsimp only
  split
  · rw [memoryError_mem]
    exact abandonMove_memWf _ _ _ hwf
  · rw [retireFrame_mem]
    exact setDesc_memWf _ _ _ _ (copyFrame_memWf _ _ _ hwf)

@[simp] theorem frameRetired_memWf (s : State) (r : Retire) (hwf : memWf s.mem = true) : memWf (frameRetired s r).mem = true := by
  have hfirst := listReturn_memWf { s with retires := s.retires.filter fun x => x.k != r.k } r.ctx r.tier r.frame hwf
  unfold frameRetired
  dsimp only
  split
  · exact listReturn_memWf _ _ _ _ hfirst
  · exact hfirst

@[simp] theorem execKvCopyEnd_memWf (k : Nat) (s : State) (hwf : memWf s.mem = true) :
    memWf (outState s (execKvCopyEnd k s)).mem = true := by
  unfold execKvCopyEnd
  split <;> simp [hwf]

@[simp] theorem execKvFlip_memWf (k : Nat) (s : State) (hwf : memWf s.mem = true) :
    memWf (outState s (execKvFlip k s)).mem = true := by
  unfold execKvFlip
  split <;> simp [hwf]

@[simp] theorem execFrameRetire_memWf (k : Nat) (s : State) (hwf : memWf s.mem = true) :
    memWf (outState s (execFrameRetire k s)).mem = true := by
  unfold execFrameRetire
  split <;> simp [hwf]

/-! ## The network -/

@[simp] theorem updStream_mem (s : State) (m : Nat) (f : Stream → Stream) : (updStream s m f).mem = s.mem := rfl

@[simp] theorem moveStream_mem (s : State) (m : Nat) : (moveStream s m).mem = s.mem := by simp [moveStream]

@[simp] theorem sequencePkt_mem (s : State) (m : Nat) (p : FabPkt) : (sequencePkt s m p).mem = s.mem := rfl

@[simp] theorem enterStream_mem (s0 : State) (m : Nat) (p : FabPkt) : (enterStream s0 m p).mem = s0.mem := by simp [enterStream]

@[simp] theorem pumpStream_mem (s : State) (m : Nat) : (pumpStream s m).mem = s.mem := by simp [pumpStream]

@[simp] theorem pumpAll_mem (s : State) : (pumpAll s).mem = s.mem := by simp [pumpAll]

@[simp] theorem sendEscape_mem (s0 : State) (m kind : Nat) (payload : List Byte) :
    (sendEscape s0 m kind payload).mem = s0.mem := rfl

@[simp] theorem sendParts_mem (s : State) (m cls ctx : Nat) (bs : List Byte) :
    (sendParts s m cls ctx bs).mem = s.mem := by simp [sendParts]

@[simp] theorem sendPlaza_mem (s : State) (m : Nat) (bs : List Byte) : (sendPlaza s m bs).mem = s.mem := by simp [sendPlaza]

@[simp] theorem tellGroup_mem (s : State) (g : Group) (bs : List Byte) : (tellGroup s g bs).mem = s.mem := by simp [tellGroup]

@[simp] theorem tellDomain_mem (s : State) (bs : List Byte) : (tellDomain s bs).mem = s.mem := by simp [tellDomain]

@[simp] theorem groupNotice_memWf (s : State) (h : Word) (uid : Nat) (un : Bool) (hwf : memWf s.mem = true) :
    memWf (groupNotice s h uid un).mem = true := by
  simp only [groupNotice]
  repeat' split
  all_goals simp [hwf]

@[simp] theorem answerAtomic_memWf (s : State) (p : Pkt) (o : AtomOp) (old : Nat) (fl : BitVec 5) (hwf : memWf s.mem = true) :
    memWf (answerAtomic s p o old fl).mem = true := by simp [answerAtomic, hwf]

@[simp] theorem grantAtomic_mem (s : State) (p : Pkt) (a n : Nat) (o : AtomOp) : (grantAtomic s p a n o).mem = s.mem := rfl

@[simp] theorem writeAtomic_memWf (s : State) (p : Pkt) (a n : Nat) (hwf : memWf s.mem = true) :
    memWf (writeAtomic s p a n).mem = true := by
  unfold writeAtomic
  split
  · rw [heal_mem]
    exact memWf_writeLe _ _ _ _ hwf
  · exact hwf

@[simp] theorem badPkt_mem (s : State) (p : Pkt) (cls : Nat) (info : Word) : (badPkt s p cls info).mem = s.mem := by simp [badPkt]

@[simp] theorem sendTlp_mem (s : State) (a tag n : Nat) (data : Option (List Byte)) : (sendTlp s a tag n data).mem = s.mem := rfl

@[simp] theorem hostLoad_mem (s : State) (p : Pkt) (a n : Nat) : (hostLoad s p a n).mem = s.mem := by
  unfold hostLoad
  split <;> simp

@[simp] theorem hostCompletion_mem (s : State) (t : Nat) (data : Option (List Byte)) : (hostCompletion s t data).mem = s.mem := by
  simp only [hostCompletion]
  repeat' split
  all_goals simp

@[simp] theorem readData_mem (s : State) (p : Pkt) (a n : Nat) : (readData s p a n).mem = s.mem := by simp [readData]

@[simp] theorem writeData_memWf (s : State) (p : Pkt) (a n : Nat) (mask : BitVec 16) (v : Vec) (hwf : memWf s.mem = true) :
    memWf (writeData s p a n mask v).mem = true := by
  unfold writeData
  split
  · rwa [performed_mem, sendTlp_mem]
  · rw [performed_mem]
    exact memWf_writeMasked _ _ _ _ _ hwf

@[simp] theorem grant_mem (s : State) (p : Pkt) (now : Bool) (n : Nat) : (grant s p now n).mem = s.mem := by simp [grant]

@[simp] theorem reserveEntry_mem (s : State) (core n : Nat) : (reserveEntry s core n).mem = s.mem := rfl

@[simp] theorem poolGrant_mem (s : State) (core : Nat) (now : Option Nat) : (poolGrant s core now).mem = s.mem := by
  unfold poolGrant
  repeat' split
  all_goals simp

@[simp] theorem chanGrant_memWf (s : State) (p : Pkt) (core off : Nat) (now : Bool) (hwf : memWf s.mem = true) :
    memWf (chanGrant s p core off now).mem = true := by simp [chanGrant, hwf]

@[simp] theorem chanAsked_memWf (s : State) (p : Pkt) (core off : Nat) (now : Bool) (hwf : memWf s.mem = true) :
    memWf (chanAsked s p core off now).mem = true := by simp [chanAsked, hwf]

@[simp] theorem ringAsked_memWf (s : State) (p : Pkt) (core off : Nat) (now : Bool) (hwf : memWf s.mem = true) :
    memWf (ringAsked s p core off now).mem = true := by simp [ringAsked, hwf]

@[simp] theorem chanRegister_memWf (s : State) (p : Pkt) (core off : Nat) (hwf : memWf s.mem = true) :
    memWf (chanRegister s p core off).mem = true := by simp [chanRegister, hwf]

@[simp] theorem chanOpened_memWf (s : State) (p : Pkt) (core off role : Nat) (hwf : memWf s.mem = true) :
    memWf (chanOpened s p core off role).mem = true := by simp +contextual [chanOpened, hwf]

@[simp] theorem ringRegister_memWf (s : State) (p : Pkt) (core off : Nat) (hwf : memWf s.mem = true) :
    memWf (ringRegister s p core off).mem = true := by simp [ringRegister, hwf]

@[simp] theorem inboxLand_mem (s : State) (core entry : Nat) (bytes : List Byte) : (inboxLand s core entry bytes).mem = s.mem := rfl

@[simp] theorem counterEvent_mem (s : State) (b i : Nat) (add last : Bool) (v : BitVec 48) (startId : Nat) :
    (counterEvent s b i add last v startId).mem = s.mem := rfl

@[simp] theorem barrierEvent_mem (s : State) (b i op uid : Nat) (v : Option (BitVec 32)) :
    (barrierEvent s b i op uid v).mem = s.mem := rfl

@[simp] theorem settleBarrier_mem (s : State) (b i : Nat) : (settleBarrier s b i).mem = s.mem := by simp [settleBarrier]

@[simp] theorem settleBarriers_mem (s : State) : (settleBarriers s).mem = s.mem := by simp [settleBarriers]

@[simp] theorem wordEvent_memWf (s : State) (core off op : Nat) (n : Word) (hwf : memWf s.mem = true) :
    memWf (wordEvent s core off op n).mem = true := by
  unfold wordEvent
  split <;> simp [hwf]

@[simp] theorem goFabric_mem (s : State) (p : Pkt) (m : Nat) : (goFabric s p m).mem = s.mem := by simp [goFabric]

@[simp] theorem arrive_memWf (now : Bool) (s : State) (p : Pkt) (hwf : memWf s.mem = true) : memWf (arrive now s p).mem = true := by
  unfold arrive
  split
  · simp [hwf]
  · split
    · split <;> simp [hwf]
    · split <;> simp [hwf]
    · simp [hwf]
    · simp [hwf]
    · simp [hwf]
    · simp [hwf]
    · repeat' split
      all_goals simp [hwf]
    · simp [hwf]
    · simp [hwf]
    · simp [hwf]
    · simp [hwf]
    · simp [hwf]
    · simp [hwf]
    · simp [hwf]
    · simp [hwf]
    · simp [hwf]
    · simp [hwf]
    · simp [hwf]
    · next op a b dst hbody =>
      have hkv := kvEvent_memWf s p.ctx op a b p.k hwf
      split
      · simp [hwf]
      · split
        · next heq =>
          rw [heq] at hkv
          simpa using hkv
        · next heq =>
          rw [heq] at hkv
          simpa using hkv
        · simp [hwf]
    · simp [hwf]

@[simp] theorem arrival_memWf (kind : Kind) (k : Nat) (s : State) (hwf : memWf s.mem = true) :
    memWf (outState s (arrival kind k s)).mem = true := by
  unfold arrival
  split <;> simp [hwf]

@[simp] theorem sendReply_mem (s : State) (p : Pkt) (m num : Nat) : (sendReply s p m num).mem = s.mem := by simp [sendReply]

@[simp] theorem landAnswer_memWf (s : State) (p : Pkt) (hwf : memWf s.mem = true) : memWf (landAnswer s p).mem = true := by
  unfold landAnswer
  repeat' split
  all_goals simp [hwf]

@[simp] theorem takeDebt_memWf (s : State) (p : Pkt) (h : Word) (hwf : memWf s.mem = true) :
    memWf (takeDebt s p h).mem = true := by simp [takeDebt, hwf]

@[simp] theorem undeclare_memWf (s : State) (uid : Nat) (h : Word) (hwf : memWf s.mem = true) :
    memWf (undeclare s uid h).mem = true := by simp [undeclare, hwf]

@[simp] theorem haltLater_memWf (s : State) (uid cls : Nat) (info : Word) (hwf : memWf s.mem = true) :
    memWf (haltLater s uid cls info).mem = true := by
  unfold haltLater
  split <;> simp [hwf]

@[simp] theorem acknowledge_memWf (s : State) (p : Pkt) (hwf : memWf s.mem = true) : memWf (acknowledge s p).mem = true := by
  have hgone : memWf (if holds p then letGo (delPkt s p.k) p else delPkt s p.k).mem = true := by simp [hwf]
  unfold acknowledge
  generalize (if holds p then letGo (delPkt s p.k) p else delPkt s p.k) = z at hgone ⊢
  dsimp only
  split
  · exact inHub_memWf (fun z hz => engineAck_memWf z _ _ _ _ hz) _ _ _ hgone
  · exact hgone
  · split
    · exact haltLater_memWf _ _ _ _ (undeclare_memWf _ _ _ hgone)
    · split
      · exact undeclare_memWf _ _ _ hgone
      · exact hgone
    · rwa [answerTrap_mem]
    · exact answer_memWf _ _ _ _ _ _ (takeDebt_memWf _ _ _ hgone)
    · split
      · exact hgone
      · rwa [answerGrant_mem]
    · exact hgone

theorem comesHome_memWf {g : State → Pkt → State} (hg : ∀ z p, memWf z.mem = true → memWf (g z p).mem = true) (s : State) (k : Nat)
    (f : Pkt → Bool) (hwf : memWf s.mem = true) : memWf (outState s (comesHome s k f g)).mem = true := by
  rw [comesHome, outState_next]
  repeat' split
  all_goals simp [hwf, hg]

@[simp] theorem haltCopy_mem (s : State) (p : Pkt) : (haltCopy s p).mem = s.mem := by
  unfold haltCopy
  split <;> simp

@[simp] theorem landCopy_memWf (s : State) (p : Pkt) (hwf : memWf s.mem = true) : memWf (landCopy s p).mem = true := by
  unfold landCopy
  repeat' split
  all_goals simp [hwf]

@[simp] theorem issuePkt_memWf (s : State) (src : Src) (h : Home) (uid sid ctx : Nat) (body : Body) (scope : Option Scope)
    (ring : Option RingPos) (ea : Word) (hwf : memWf s.mem = true) :
    memWf (issuePkt s src h uid sid ctx body scope ring ea).2.mem = true := by
  simp only [issuePkt]
  repeat' split
  all_goals simp [hwf]

@[simp] theorem takeDone_mem (s : State) (k : Nat) : (takeDone s k).2.mem = s.mem := by
  unfold takeDone
  repeat' split
  all_goals simp

@[simp] theorem postPkt_memWf (s : State) (src : Src) (h : Home) (uid sid ctx : Nat) (body : Body) (scope : Option Scope)
    (ring : Option RingPos) (ea : Word) (hwf : memWf s.mem = true) :
    memWf (postPkt s src h uid sid ctx body scope ring ea).mem = true := by simp [postPkt, hwf]

@[simp] theorem ringCount_mem (s : State) (r : RingPos) (chan : Nat) (crossed : Bool) :
    (ringCount s r chan crossed).mem = s.mem := rfl

@[simp] theorem ringMarks_mem (s : State) : (ringMarks s).mem = s.mem := by
  refine foldl_mem (fun z e => ?_) _ s
  rw [updCore_mem]

@[simp] theorem ringHop_mem (s : State) (p : Pkt) (r : RingPos) : (ringHop s p r).mem = s.mem := by
  unfold ringHop
  split <;> simp

@[simp] theorem execRingPacketHop_mem (k : Nat) (s : State) : (outState s (execRingPacketHop k s)).mem = s.mem := by
  unfold execRingPacketHop
  repeat' split
  all_goals simp

@[simp] theorem takeLink_mem (s : State) (p : Pkt) (next : Nat) : (takeLink s p next).mem = s.mem := rfl

@[simp] theorem meshHop_mem (s : State) (p : Pkt) : (meshHop s p).mem = s.mem := by
  unfold meshHop
  repeat' split
  all_goals simp

@[simp] theorem execMeshFlitHop_mem (k : Nat) (s : State) : (outState s (execMeshFlitHop k s)).mem = s.mem := by
  unfold execMeshFlitHop
  split <;> simp

@[simp] theorem execRateLimitRelease_mem (k : Nat) (s : State) : (outState s (execRateLimitRelease k s)).mem = s.mem := by
  unfold execRateLimitRelease
  split <;> simp

@[simp] theorem reissue_memWf (s : State) (p : Pkt) (hwf : memWf s.mem = true) :
    memWf (reissue s p).mem = true := by simp [reissue, hwf]

@[simp] theorem execScopeMissReissue_memWf (k : Nat) (s : State) (hwf : memWf s.mem = true) :
    memWf (outState s (execScopeMissReissue k s)).mem = true := by
  unfold execScopeMissReissue
  split <;> simp [hwf]

@[simp] theorem execRequestPerformed_memWf (k : Nat) (s : State) (hwf : memWf s.mem = true) :
    memWf (outState s (execRequestPerformed k s)).mem = true := by simp [execRequestPerformed, hwf]

@[simp] theorem execInboxMessageArrives_memWf (k : Nat) (s : State) (hwf : memWf s.mem = true) :
    memWf (outState s (execInboxMessageArrives k s)).mem = true := by simp [execInboxMessageArrives, hwf]

@[simp] theorem execChannelMessageLands_memWf (k : Nat) (s : State) (hwf : memWf s.mem = true) :
    memWf (outState s (execChannelMessageLands k s)).mem = true := by simp [execChannelMessageLands, hwf]

@[simp] theorem execRingSlotReserve_memWf (k : Nat) (s : State) (hwf : memWf s.mem = true) :
    memWf (outState s (execRingSlotReserve k s)).mem = true := by simp [execRingSlotReserve, hwf]

@[simp] theorem execRingDataLands_memWf (k : Nat) (s : State) (hwf : memWf s.mem = true) :
    memWf (outState s (execRingDataLands k s)).mem = true := by simp [execRingDataLands, hwf]

@[simp] theorem execRingTokenArrives_memWf (k : Nat) (s : State) (hwf : memWf s.mem = true) :
    memWf (outState s (execRingTokenArrives k s)).mem = true := by simp [execRingTokenArrives, hwf]

@[simp] theorem execHbEventPerformed_memWf (k : Nat) (s : State) (hwf : memWf s.mem = true) :
    memWf (outState s (execHbEventPerformed k s)).mem = true := by simp [execHbEventPerformed, hwf]

@[simp] theorem execMbEventPerformed_memWf (k : Nat) (s : State) (hwf : memWf s.mem = true) :
    memWf (outState s (execMbEventPerformed k s)).mem = true := by simp [execMbEventPerformed, hwf]

@[simp] theorem execTcEventPerformed_memWf (k : Nat) (s : State) (hwf : memWf s.mem = true) :
    memWf (outState s (execTcEventPerformed k s)).mem = true := by simp [execTcEventPerformed, hwf]

@[simp] theorem execPutrArrives_memWf (k : Nat) (s : State) (hwf : memWf s.mem = true) :
    memWf (outState s (execPutrArrives k s)).mem = true := by simp [execPutrArrives, hwf]

@[simp] theorem execKvEventPerformed_memWf (k : Nat) (s : State) (hwf : memWf s.mem = true) :
    memWf (outState s (execKvEventPerformed k s)).mem = true := by simp [execKvEventPerformed, hwf]

@[simp] theorem execWithholdNoticeArrives_memWf (k : Nat) (s : State) (hwf : memWf s.mem = true) :
    memWf (outState s (execWithholdNoticeArrives k s)).mem = true := by simp [execWithholdNoticeArrives, hwf]

@[simp] theorem execUnwithholdNoticeArrives_memWf (k : Nat) (s : State) (hwf : memWf s.mem = true) :
    memWf (outState s (execUnwithholdNoticeArrives k s)).mem = true := by simp [execUnwithholdNoticeArrives, hwf]

@[simp] theorem execInboxPoolGrant_mem (core : Nat) (s : State) :
    (outState s (execInboxPoolGrant core s)).mem = s.mem := by simp [execInboxPoolGrant]

@[simp] theorem execChannelSlotGrant_memWf (k : Nat) (s : State) (hwf : memWf s.mem = true) :
    memWf (outState s (execChannelSlotGrant k s)).mem = true := by
  unfold execChannelSlotGrant
  repeat' split
  all_goals simp [hwf]

@[simp] theorem execAtomicGrant_mem (k : Nat) (s : State) : (outState s (execAtomicGrant k s)).mem = s.mem := by
  unfold execAtomicGrant
  repeat' split
  all_goals simp

@[simp] theorem releaseAtomic_memWf (s : State) (k : Nat) (hwf : memWf s.mem = true) : memWf (releaseAtomic s k).mem = true := by
  unfold releaseAtomic
  repeat' split
  all_goals simp [hwf]

@[simp] theorem execAtomicRelease_memWf (k : Nat) (s : State) (hwf : memWf s.mem = true) :
    memWf (outState s (execAtomicRelease k s)).mem = true := by simp [execAtomicRelease, hwf]

@[simp] theorem execLoadDataLands_memWf (k : Nat) (s : State) (hwf : memWf s.mem = true) :
    memWf (outState s (execLoadDataLands k s)).mem = true := comesHome_memWf (fun z p hz => landAnswer_memWf z p hz) s k _ hwf

@[simp] theorem execCprWordLands_memWf (k : Nat) (s : State) (hwf : memWf s.mem = true) :
    memWf (outState s (execCprWordLands k s)).mem = true := comesHome_memWf (fun z p hz => landCopy_memWf z p hz) s k _ hwf

@[simp] theorem execAccessAcknowledged_memWf (k : Nat) (s : State) (hwf : memWf s.mem = true) :
    memWf (outState s (execAccessAcknowledged k s)).mem = true := comesHome_memWf (fun z p hz => acknowledge_memWf z p hz) s k _ hwf

end Sys2Proof.Machine
end

section
/-! SUPPORT. The canonical form of the memory list (MemoryFormKept) is kept by the memory forms, messages, atomics and barriers. -/

namespace Sys2Proof.Machine
open Sys2Proof

/-! ## Loads, stores and fences -/

@[simp] theorem misTrap_mem (s : State) : (misTrap s).state.mem = s.mem := rfl

@[simp] theorem missPark_mem (s : State) (sid ctx : Nat) (need : Need) (ea arg : Word) :
    (missPark s sid ctx need ea arg).state.mem = s.mem := by simp [missPark]

@[simp] theorem sendFrom_memWf (s : State) (sid : Nat) (t : Strand) (h : Home) (body : Body) (scope : Option Scope) (ea : Word)
    (hwf : memWf s.mem = true) :
    memWf (sendFrom s sid t h body scope ea).2.mem = true := by simp [sendFrom, hwf]

@[simp] theorem postFrom_memWf (s : State) (sid : Nat) (t : Strand) (h : Home) (body : Body) (scope : Option Scope) (ea : Word)
    (hwf : memWf s.mem = true) :
    memWf (postFrom s sid t h body scope ea).mem = true := by simp [postFrom, hwf]

theorem awaitOn_memWf {f : State → Pkt → Res} (hf : ∀ z p, memWf z.mem = true → memWf (f z p).state.mem = true) (obj : Word)
    (k : Nat)
    (s : State) (hwf : memWf s.mem = true) : memWf (awaitOn obj k s f).state.mem = true := by
  have htake : memWf (takeDone s k).2.mem = true := by rwa [takeDone_mem]
  unfold awaitOn
  split
  · next heq =>
    rw [heq] at htake
    split
    · simpa using htake
    · exact hf _ _ htake
  · next heq =>
    rw [heq] at htake
    simpa using htake

theorem awaitPkt_memWf {f : State → Pkt → Res} (hf : ∀ z p, memWf z.mem = true → memWf (f z p).state.mem = true) (k : Nat)
    (s : State)
    (hwf : memWf s.mem = true) : memWf (awaitPkt k s f).state.mem = true := awaitOn_memWf hf 0 k s hwf

@[simp] theorem landDone_mem (sid : Nat) (s : State) (p : Pkt) : (landDone sid s p).state.mem = s.mem := by
  unfold landDone
  split <;> simp

@[simp] theorem loadAt_memWf (s : State) (sid : Nat) (t : Strand) (sp : List Nat) (ea : Word) (n ty : Nat) (mask : BitVec 16)
    (dst : RegRef)
    (hwf : memWf s.mem = true) : memWf (loadAt s sid t sp ea n ty mask dst).state.mem = true := by
  have hsent (h : Home) (body : Body) : memWf (sendFrom s sid t h body none ea).2.mem = true := sendFrom_memWf _ _ _ _ _ _ _ hwf
  have hland (k : Nat) (z : State) (hz : memWf z.mem = true) : memWf (awaitPkt k z (landDone sid)).state.mem = true :=
    awaitPkt_memWf (fun y p hy => by rwa [landDone_mem]) k z hz
  simp only [loadAt]
  split
  · simp [hwf]
  · split
    · simp [hwf]
    · simp [hwf]
    · simp [hwf]
    · simp [hwf]
    · simp [hwf]
    · split
      · simp [hsent]
      · exact hland _ _ (hsent _ _)
    · split
      · simp [hsent]
      · exact hland _ _ (hsent _ _)
    · split
      · simp [hsent]
      · exact hland _ _ (hsent _ _)

/-- The state that a store leaves; `s` where its effect is not done. -/
def Stored.state (s : State) : Stored → State
  | .done z => z
  | _ => s

@[simp] theorem Stored.state_done (s z : State) : (Stored.done z).state s = z := by simp only [Stored.state]

@[simp] theorem storeAt_memWf (s : State) (sid : Nat) (t : Strand) (sp : List Nat) (ea : Word) (n : Nat) (mask : BitVec 16)
    (v : Vec)
    (scope : Option Scope) (hwf : memWf s.mem = true) : memWf ((storeAt s sid t sp ea n mask v scope).state s).mem = true := by
  unfold storeAt
  split
  · exact hwf
  · exact hwf
  · exact hwf
  · rwa [Stored.state_done, capture_mem]
  · dsimp only
    split
    · exact hwf
    · exact memWf_writeMasked _ _ _ _ _ hwf
  · split
    · exact hwf
    · exact postFrom_memWf _ _ _ _ _ _ _ hwf
  · split
    · exact hwf
    · exact postFrom_memWf _ _ _ _ _ _ _ hwf
  · split
    · exact hwf
    · exact postFrom_memWf _ _ _ _ _ _ _ hwf

@[simp] theorem storeRes_memWf (s : State) (sid : Nat) (t : Strand) (ea arg : Word) (r : Stored) (hwf : memWf s.mem = true)
    (hstored : memWf (r.state s).mem = true) : memWf (storeRes s sid t ea arg r).state.mem = true := by
  cases r with
  | done z => simpa [storeRes] using hstored
  | full => simpa [storeRes] using hwf
  | busy a n => simpa [storeRes] using hwf
  | miss => simpa [storeRes] using hwf
  | bad c i => simpa [storeRes] using hwf
  | mis => simpa [storeRes] using hwf

@[simp] theorem ldBody_memWf (x : Args) (s : State) (sid : Nat) (t : Strand) (o : Opnds) (hwf : memWf s.mem = true) :
    memWf (ldBody x s sid t o).state.mem = true := by simp [ldBody, hwf]

@[simp] theorem stBody_memWf (x : Args) (s : State) (sid : Nat) (t : Strand) (o : Opnds) (hwf : memWf s.mem = true) :
    memWf (stBody x s sid t o).state.mem = true := by simp [stBody, hwf]

@[simp] theorem checkOnly_memWf (s : State) (sid : Nat) (t : Strand) (sp : List Nat) (ea : Word) (ok : Res)
    (hwf : memWf s.mem = true)
    (hok : memWf ok.state.mem = true) : memWf (checkOnly s sid t sp ea ok).state.mem = true := by
  unfold checkOnly
  repeat' split
  all_goals simp [hwf, hok]

@[simp] theorem vldBody_memWf (x : Args) (s : State) (sid : Nat) (t : Strand) (o : Opnds) (hwf : memWf s.mem = true) :
    memWf (vldBody x s sid t o).state.mem = true := by simp [vldBody, hwf]

@[simp] theorem vstBody_memWf (x : Args) (s : State) (sid : Nat) (t : Strand) (o : Opnds) (hwf : memWf s.mem = true) :
    memWf (vstBody x s sid t o).state.mem = true := by simp [vstBody, hwf]

theorem multiBad_memWf {s : State} {sid : Nat} {t : Strand} {need : Need} {arg : Word} {b : Option (Word × Target)} {r : Res}
    (hr : multiBad s sid t need arg b = some r) (hwf : memWf s.mem = true) : memWf r.state.mem = true := by
  unfold multiBad at hr
  split at hr
  · cases hr
  · cases hr
    simpa using hwf
  · cases hr
    split <;> simp [hwf]
  · cases hr
    simpa using hwf

@[simp] theorem loadWord_memWf (s : State) (sid : Nat) (t : Strand) (ea : Word) (d i : Nat) (hwf : memWf s.mem = true) :
    memWf (loadWord s sid t ea d i).1.mem = true := by
  have hsent (h : Home) (body : Body) : memWf (sendFrom s sid t h body none (wordAddr ea i)).2.mem = true :=
    sendFrom_memWf _ _ _ _ _ _ _ hwf
  have htake (k : Nat) (z : State) (hz : memWf z.mem = true) : memWf (takeDone z k).2.mem = true := by rwa [takeDone_mem]
  have hask (h : Home) (body : Body) := htake (sendFrom s sid t h body none (wordAddr ea i)).1 _ (hsent h body)
  simp only [loadWord]
  split
  · repeat' split
    all_goals simp [hwf]
  · next h a _ =>
    have hdone := hask h (.load a 8 0 0xFFFF (.g (d + i)))
    split
    · next heq =>
      rw [heq] at hdone
      split <;> exact hdone
    · next heq => rwa [heq] at hdone
  · next h a _ =>
    have hdone := hask h (.load a 8 0 0xFFFF (.g (d + i)))
    split
    · next heq =>
      rw [heq] at hdone
      split <;> exact hdone
    · next heq => rwa [heq] at hdone
  · simp [hwf]

@[simp] theorem loadWords_memWf (sid : Nat) (t : Strand) (ea : Word) (d m : Nat) (s : State) (got : List (Nat × Nat))
    (hwf : memWf s.mem = true) : memWf (loadWords s sid t ea d m got).state.mem = true := by
  induction m generalizing s got with
  | zero => simp [loadWords, hwf]
  | succ m ih =>
    have hword := loadWord_memWf s sid t ea d got.length hwf
    unfold loadWords
    split
    · next heq =>
      rw [heq] at hword
      exact ih _ _ hword
    · next heq =>
      rw [heq] at hword
      simpa using hword
    · next heq =>
      rw [heq] at hword
      simpa using hword

@[simp] theorem ldmBody_memWf (x : Args) (s : State) (sid : Nat) (t : Strand) (o : Opnds) (hwf : memWf s.mem = true) :
    memWf (ldmBody x s sid t o).state.mem = true := by
  simp only [ldmBody]
  split
  · exact multiBad_memWf ‹_› hwf
  · exact loadWords_memWf _ _ _ _ _ _ _ hwf

@[simp] theorem storeWords_memWf (sid : Nat) (t : Strand) (ea : Word) (d m : Nat) (s : State) (i : Nat) (hwf : memWf s.mem = true) :
    memWf (storeWords s sid t ea d m i).state.mem = true := by
  induction m generalizing s i with
  | zero => simp [storeWords, hwf]
  | succ m ih =>
    have hword := storeAt_memWf s sid t (multiSpaces true) (wordAddr ea i) 8 0xFFFF ((readG t (d + i)).setWidth 128) none hwf
    unfold storeWords
    split
    · next heq =>
      rw [heq] at hword
      exact ih _ _ hword
    · exact storeRes_memWf _ _ _ _ _ _ hwf hword

@[simp] theorem stmBody_memWf (x : Args) (s : State) (sid : Nat) (t : Strand) (o : Opnds) (hwf : memWf s.mem = true) :
    memWf (stmBody x s sid t o).state.mem = true := by
  simp only [stmBody]
  split
  · exact multiBad_memWf ‹_› hwf
  · exact storeWords_memWf _ _ _ _ _ _ _ hwf

@[simp] theorem relBody_memWf (c : Scope) (x : Args) (s : State) (sid : Nat) (t : Strand) (o : Opnds) (hwf : memWf s.mem = true) :
    memWf (relBody c x s sid t o).state.mem = true := by
  simp only [relBody]
  repeat' split
  all_goals simp [hwf]

@[simp] theorem fncBody_mem (c : Scope) (s : State) (sid : Nat) (t : Strand) (o : Opnds) :
    (fncBody c s sid t o).state.mem = s.mem := by simp [fncBody]

/-! ## Messages and channels -/

theorem waitOn_memWf {s : State} {take : Nat → Res} {late : Res} (hwf : memWf s.mem = true)
    (htake : ∀ n, memWf (take n).state.mem = true) (hlate : memWf late.state.mem = true) (t : Strand) (obj arg : Word) (tmo : Option Nat)
    (ready : Bool) : memWf (waitOn s t obj arg tmo ready take late).state.mem = true := by
  unfold waitOn
  repeat' split
  all_goals simp [hwf, htake, hlate]

@[simp] theorem askObj_memWf (s : State) (sid : Nat) (t : Strand) (core : Nat) (own : Bool) (body : Body) (scope : Option Scope)
    (ea : Word) (hwf : memWf s.mem = true) :
    memWf (askObj s sid t core own body scope ea).2.mem = true := by
  simp only [askObj]
  repeat' split
  all_goals simp [hwf]

@[simp] theorem postObj_memWf (s : State) (sid : Nat) (t : Strand) (core : Nat) (own : Bool) (body : Body) (scope : Option Scope)
    (ea : Word) (hwf : memWf s.mem = true) :
    memWf (postObj s sid t core own body scope ea).mem = true := by simp [postObj, hwf]

@[simp] theorem captureOwn_mem (s : State) (sid ctx : Nat) (write : Bool) (a : Word) (n : Nat) :
    (captureOwn s sid ctx write a n).mem = s.mem := by simp [captureOwn]

@[simp] theorem deliver_memWf (s : State) (sid : Nat) (t : Strand) (x : Args) (o : Opnds) (dest : Nat) (body : List Byte → Body)
    (hwf : memWf s.mem = true) : memWf (deliver s sid t x o dest body).state.mem = true := by
  simp only [deliver, Res.state_done]
  split <;> simp [hwf]

theorem takeCredit_mem {s z : State} {core dest : Nat} (hz : takeCredit s core dest = some z) : z.mem = s.mem := by
  simp only [takeCredit] at hz
  split at hz
  · cases hz
    exact updCore_mem ..
  · cases hz

@[simp] theorem sendBody_memWf (x : Args) (s : State) (sid : Nat) (t : Strand) (o : Opnds) (hwf : memWf s.mem = true) :
    memWf (sendBody x s sid t o).state.mem = true := by
  have hgo (z : State) (n : Nat) (hz : memWf z.mem = true) : memWf (if o.bw.getLsbD 8 then
      deliver z sid t x o (handleCore o.dw) fun bs => .chanMsg (handleCore o.dw) (handleOff o.dw) n bs (o.bw.getLsbD 9)
      else deliver z sid t x o (handleCore o.dw) fun bs => .message (handleCore o.dw) n bs).state.mem = true := by
    split <;> simp [hz]
  simp only [sendBody]
  split
  · simp [hwf]
  · split
    · simp [hwf]
    · split
      · exact hgo _ _ hwf
      · split
        · simp [hwf]
        · split
          · simp [hwf]
          · split
            · simp [hwf]
            · split
              · next heq =>
                refine hgo _ _ ?_
                split at heq
                · cases heq
                · rwa [takeCredit_mem heq]
              · exact awaitOn_memWf (fun z p hz => hgo z _ hz) _ _ _ (sendFrom_memWf _ _ _ _ _ _ _ hwf)

@[simp] theorem writeOwn_memWf (core : Nat) (a : Word) (bs : List Byte) (i : Nat) (s : State) (hwf : memWf s.mem = true) :
    memWf (writeOwn s core a i bs).mem = true := by
  induction bs generalizing i s with
  | nil => exact hwf
  | cons b bs ih =>
    unfold writeOwn
    refine ih _ _ ?_
    split
    · rw [heal_mem]
      exact memWf_writeByte _ _ _ hwf
    · exact hwf

@[simp] theorem freeEntry_keepsMem (s : State) (core n : Nat) : (freeEntry s core n).mem = s.mem := by simp [freeEntry]

@[simp] theorem recvInbox_memWf (x : Args) (s : State) (sid : Nat) (t : Strand) (o : Opnds) (hwf : memWf s.mem = true) :
    memWf (recvInbox x s sid t o).state.mem = true := by
  simp only [recvInbox]
  refine waitOn_memWf hwf (fun n => ?_) (by simp [hwf]) _ _ _ _ _
  split
  · simp [hwf]
  · split
    · simp [hwf]
    · simp only [Res.state_done, setG_keepsMem, freeEntry_keepsMem]
      exact writeOwn_memWf _ _ _ _ _ (by simp [hwf])

@[simp] theorem recvChannel_memWf (x : Args) (s : State) (sid : Nat) (t : Strand) (o : Opnds) (off : Nat)
    (hwf : memWf s.mem = true) :
    memWf (recvChannel x s sid t o off).state.mem = true := by
  have hfree := chFree_memWf s (coreOf sid) off hwf
  simp only [recvChannel]
  split
  · simp [hwf]
  · split
    · simp [hwf]
    · refine waitOn_memWf hfree (fun n => ?_) (by simp [hfree]) _ _ _ _ _
      split <;> simp [hfree]

@[simp] theorem recvBody_memWf (x : Args) (s : State) (sid : Nat) (t : Strand) (o : Opnds) (hwf : memWf s.mem = true) :
    memWf (recvBody x s sid t o).state.mem = true := by simp [recvBody, hwf]

@[simp] theorem chOpenBody_memWf (s : State) (sid : Nat) (t : Strand) (o : Opnds) (hwf : memWf s.mem = true) :
    memWf (chOpenBody s sid t o).state.mem = true := by
  simp only [chOpenBody]
  split
  · simp [hwf]
  · simp [hwf]
  · split
    · simp [hwf]
    · split
      · simp [hwf]
      · split
        · simp [hwf]
        · refine awaitOn_memWf (fun z p hz => ?_) _ _ _ (askObj_memWf _ _ _ _ _ _ _ _ hwf)
          rw [Res.state_done]
          split <;> simp [hz]

@[simp] theorem putrBody_memWf (s : State) (sid : Nat) (t : Strand) (o : Opnds) (hwf : memWf s.mem = true) :
    memWf (putrBody s sid t o).state.mem = true := by simp [putrBody, hwf]

@[simp] theorem fecBody_mem (x : Args) (s : State) (sid : Nat) (t : Strand) (o : Opnds) :
    (fecBody x s sid t o).state.mem = s.mem := by simp [fecBody]

/-! ## Atomics -/

@[simp] theorem atomicDone_mem (x : Args) (ty sid : Nat) (s : State) (old : Nat) (fl : BitVec 5) :
    (atomicDone x ty sid s old fl).state.mem = s.mem := by simp [atomicDone]

@[simp] theorem atomicBody_memWf (op : Nat) (x : Args) (s : State) (sid : Nat) (t : Strand) (o : Opnds) (hwf : memWf s.mem = true) :
    memWf (atomicBody op x s sid t o).state.mem = true := by
  simp only [atomicBody]
  split
  · simp [hwf]
  · simp [hwf]
  · simp [hwf]
  · simp [hwf]
  · exact awaitPkt_memWf (fun z p hz => by rwa [atomicDone_mem]) _ _ (issuePkt_memWf _ _ _ _ _ _ _ _ _ _ hwf)
  · exact awaitPkt_memWf (fun z p hz => by rwa [atomicDone_mem]) _ _ (sendFrom_memWf _ _ _ _ _ _ _ hwf)
  · exact awaitPkt_memWf (fun z p hz => by rwa [atomicDone_mem]) _ _ (sendFrom_memWf _ _ _ _ _ _ _ hwf)
  · simp [hwf]

/-! ## Barriers, stage rings and debts -/

@[simp] theorem postHub_memWf (s : State) (sid : Nat) (t : Strand) (body : Body) (scope : Option Scope) (hwf : memWf s.mem = true) :
    memWf (postHub s sid t body scope).mem = true := by simp [postHub, hwf]

@[simp] theorem hbAllocBody_mem (x : Args) (s : State) (sid : Nat) (t : Strand) (o : Opnds) :
    (hbAllocBody x s sid t o).state.mem = s.mem := by
  simp only [hbAllocBody]
  repeat' split
  all_goals simp

@[simp] theorem hbJoinBody_memWf (s : State) (sid : Nat) (t : Strand) (o : Opnds) (hwf : memWf s.mem = true) :
    memWf (hbJoinBody s sid t o).state.mem = true := by simp [hbJoinBody, hwf]

@[simp] theorem hbArriveBody_memWf (x : Args) (s : State) (sid : Nat) (t : Strand) (o : Opnds) (hwf : memWf s.mem = true) :
    memWf (hbArriveBody x s sid t o).state.mem = true := by simp [hbArriveBody, hwf]

@[simp] theorem hbWaitBody_memWf (x : Args) (s : State) (sid : Nat) (t : Strand) (o : Opnds) (hwf : memWf s.mem = true) :
    memWf (hbWaitBody x s sid t o).state.mem = true := by
  simp only [hbWaitBody]
  split
  · simp [hwf]
  · split
    · simp [hwf]
    · exact waitOn_memWf hwf (fun n => by simp [hwf]) (by simp [hwf]) _ _ _ _ _

@[simp] theorem hbLeaveBody_memWf (s : State) (sid : Nat) (t : Strand) (o : Opnds) (hwf : memWf s.mem = true) :
    memWf (hbLeaveBody s sid t o).state.mem = true := by simp [hbLeaveBody, hwf]

@[simp] theorem hbFreeBody_mem (s : State) (sid : Nat) (t : Strand) (o : Opnds) :
    (hbFreeBody s sid t o).state.mem = s.mem := by simp [hbFreeBody]

@[simp] theorem mbBody_memWf (op : Nat) (s : State) (sid : Nat) (t : Strand) (o : Opnds) (hwf : memWf s.mem = true) :
    memWf (mbBody op s sid t o).state.mem = true := by
  unfold mbBody
  repeat' split
  all_goals simp [hwf]

@[simp] theorem mbWaitBody_memWf (x : Args) (s : State) (sid : Nat) (t : Strand) (o : Opnds) (hwf : memWf s.mem = true) :
    memWf (mbWaitBody x s sid t o).state.mem = true := by
  simp only [mbWaitBody]
  split
  · simp [hwf]
  · split
    · simp [hwf]
    · split
      · simp [hwf]
      · simp [hwf]
      · split
        · simp [hwf]
        · split
          · simp [hwf]
          · exact waitOn_memWf hwf (fun n => by simp [hwf]) (by simp [hwf]) _ _ _ _ _

@[simp] theorem rgProdBody_memWf (s : State) (sid : Nat) (t : Strand) (o : Opnds) (hwf : memWf s.mem = true) :
    memWf (rgProdBody s sid t o).state.mem = true := by
  simp only [rgProdBody]
  split
  · simp [hwf]
  · simp [hwf]
  · next core off own _ =>
    split
    · simp [hwf]
    · split
      · simp [hwf]
      · split
        · simp [hwf]
        · have hask := askObj_memWf s sid t core own (.ringProd core off) none o.aw hwf
          have htake := takeDone_mem (askObj s sid t core own (.ringProd core off) none o.aw).2
            (askObj s sid t core own (.ringProd core off) none o.aw).1
          rw [← htake] at hask
          split
          · next heq =>
            rw [heq] at hask
            split
            · simpa using hask
            · rw [Res.state_done]
              split <;> simpa using hask
          · next heq =>
            rw [heq] at hask
            simpa using hask

@[simp] theorem putData_memWf (s : State) (sid : Nat) (t : Strand) (core off : Nat) (own : Bool) (o : Opnds) (i : Nat)
    (hwf : memWf s.mem = true) :
    memWf (putData s sid t core off own o i).state.mem = true := by
  simp only [putData]
  split
  · split <;> simp [hwf]
  · split
    · rw [Res.state_done]
      exact foldl_memWf (fun z e hz => postPkt_memWf _ _ _ _ _ _ _ _ _ _ hz) _ (by simp [hwf])
    · simp [hwf]

@[simp] theorem rgPutBody_memWf (s : State) (sid : Nat) (t : Strand) (o : Opnds) (hwf : memWf s.mem = true) :
    memWf (rgPutBody s sid t o).state.mem = true := by
  simp only [rgPutBody]
  split
  · simp [hwf]
  · simp [hwf]
  · split
    · simp [hwf]
    · split
      · simp [hwf]
      · split
        · simp [hwf]
        · split
          · simp [hwf]
          · split
            · simp [hwf]
            · split
              · simp [hwf]
              · split
                · simp [hwf]
                · split
                  · simp [hwf]
                  · exact awaitOn_memWf (fun z p hz => putData_memWf _ _ _ _ _ _ _ _ hz) _ _ _ (askObj_memWf _ _ _ _ _ _ _ _ hwf)

theorem takeRing_mem {s z : State} {core off : Nat} (hz : takeRing s core off = some z) : z.mem = s.mem := by
  simp only [takeRing] at hz
  split at hz
  · cases hz
    rfl
  · split at hz
    · cases hz
    · cases hz
      rw [updCore_mem]

@[simp] theorem rgGetBody_memWf (x : Args) (s : State) (sid : Nat) (t : Strand) (o : Opnds) (hwf : memWf s.mem = true) :
    memWf (rgGetBody x s sid t o).state.mem = true := by
  simp only [rgGetBody]
  split
  · simp [hwf]
  · simp [hwf]
  · next core off _ _ =>
    split
    · simp [hwf]
    · split
      · simp [hwf]
      · split
        · simp [hwf]
        · next s0 hs0 =>
          have hfree : memWf (rgFree s0 core off t.uid).mem = true := rgFree_memWf _ _ _ _ (by rwa [takeRing_mem hs0])
          refine waitOn_memWf hfree (fun st => ?_) (by simp [hfree]) _ _ _ _ _
          split <;> simp [hfree]

@[simp] theorem rgEosBody_memWf (s : State) (sid : Nat) (t : Strand) (o : Opnds) (hwf : memWf s.mem = true) :
    memWf (rgEosBody s sid t o).state.mem = true := by
  unfold rgEosBody
  repeat' split
  all_goals simp [hwf]

@[simp] theorem oweBody_mem (s : State) (sid : Nat) (t : Strand) (o : Opnds) :
    (oweBody s sid t o).state.mem = s.mem := by simp [oweBody]

@[simp] theorem unoweBody_mem (s : State) (sid : Nat) (t : Strand) (o : Opnds) :
    (unoweBody s sid t o).state.mem = s.mem := by simp [unoweBody]

end Sys2Proof.Machine
end

section
/-! SUPPORT. The canonical form of the memory list (MemoryFormKept) is kept by the engine forms, launches and collectives. -/

namespace Sys2Proof.Machine
open Sys2Proof

/-! ## The engine forms -/

/-- The state that a block answer carries, where it carries one, has its memory in canonical form. -/
def Block.KeepsForm : Block → Prop
  | .ok s _ => memWf s.mem = true
  | .wait s _ => memWf s.mem = true
  | .bad s _ _ => memWf s.mem = true
  | .miss _ => True

theorem fetchFar_keepsForm (n : Nat) : ∀ (m i : Nat) (s : State) (sid : Nat) (t : Strand) (h : Home) (a : Nat) (ea : Word)
    (got : List (Nat × Nat)) (bs : List Byte), memWf s.mem = true → (fetchFar s sid t h a ea n m i got bs).KeepsForm := by
  intro m
  induction m with
  | zero => intro i s sid t h a ea got bs hwf; exact hwf
  | succ m ih =>
    intro i s sid t h a ea got bs hwf
    unfold fetchFar
    simp only
    split
    · exact ih _ _ _ _ _ _ _ _ _ hwf
    · have hsend := sendFrom_memWf s sid t h (.load (a + n * i) n 0 0 (.g 0)) none (ea + BitVec.ofNat 64 (n * i)) hwf
      have htake := takeDone_mem (sendFrom s sid t h (.load (a + n * i) n 0 0 (.g 0)) none (ea + BitVec.ofNat 64 (n * i))).2
        (sendFrom s sid t h (.load (a + n * i) n 0 0 (.g 0)) none (ea + BitVec.ofNat 64 (n * i))).1
      rw [← htake] at hsend
      split
      · next heq =>
        rw [heq] at hsend
        split
        · exact hsend
        · exact ih _ _ _ _ _ _ _ _ _ hsend
      · next heq =>
        rw [heq] at hsend
        simpa [Block.KeepsForm] using hsend

theorem atQuay_keepsForm {s : State} {f : State → Block} (hwf : memWf s.mem = true) (hf : ∀ z, memWf z.mem = true → (f z).KeepsForm)
    (sid : Nat) (t : Strand) (h : Home) (k n : Nat) : (atQuay s sid t h k n f).KeepsForm := by
  simp only [atQuay]
  split
  · exact hwf
  · split
    · exact hwf
    · exact hf _ (by rwa [takePorts_mem])

theorem readNow_keepsForm {s z : State} {f : State → List Byte → State} (hwf : memWf s.mem = true)
    (hz : memWf z.mem = true) (hf : ∀ y bs, memWf y.mem = true → memWf (f y bs).mem = true) (ea : Word) (k n : Nat) :
    (readNow s z ea k n f).KeepsForm := by
  unfold readNow
  split
  · exact hwf
  · split
    · exact hz
    · exact hf _ _ hz

theorem readQuay_keepsForm {s : State} (hwf : memWf s.mem = true) (sid : Nat) (t : Strand) (h : Home) (k n : Nat) (ea : Word) :
    (readQuay s sid t h k n ea).KeepsForm := by
  unfold readQuay
  split
  · exact hwf
  · exact atQuay_keepsForm hwf (fun z hz => readNow_keepsForm hwf hz (fun y bs hy => by simp [hy]) _ _ _) _ _ _ _ _

theorem readBlock_keepsForm {s : State} (hwf : memWf s.mem = true) (sid : Nat) (t : Strand) (sp : List Nat) (ea : Word) (n : Nat) :
    (readBlock s sid t sp ea n).KeepsForm := by
  unfold readBlock
  split
  · exact hwf
  · exact hwf
  · trivial
  · simpa [Block.KeepsForm] using hwf
  · exact readNow_keepsForm hwf hwf (fun y bs hy => hy) _ _ _
  · exact fetchFar_keepsForm _ _ _ _ _ _ _ _ _ _ _ hwf
  · exact readQuay_keepsForm hwf _ _ _ _ _ _
  · exact fetchFar_keepsForm _ _ _ _ _ _ _ _ _ _ _ hwf
  · exact hwf

theorem sendFar_keepsForm {s : State} (hwf : memWf s.mem = true) (sid : Nat) (t : Strand) (h : Home) (a : Nat) (ea : Word)
    (bytes : List Byte) : (sendFar s sid t h a ea bytes).KeepsForm := by
  have hsent : memWf ((List.range (bytes.length / 16)).foldl (fun z i =>
      postFrom z sid t h (.store (a + 16 * i) 16 0xFFFF (BitVec.ofNat 128 (bytesNat ((bytes.drop (16 * i)).take 16)))) none
        (ea + BitVec.ofNat 64 (16 * i))) s).mem = true := foldl_memWf (fun z i hz => postFrom_memWf _ _ _ _ _ _ _ hz) _ hwf
  simp only [sendFar]
  split
  · simpa [Block.KeepsForm] using hsent
  · exact hsent

theorem writeBlock_keepsForm {s : State} (hwf : memWf s.mem = true) (sid : Nat) (t : Strand) (sp : List Nat) (ea : Word)
    (bytes : List Byte) : (writeBlock s sid t sp ea bytes).KeepsForm := by
  have hcell (k : Nat) (z : State) : (if reserved s k bytes.length then Block.wait s (.busy k bytes.length)
      else .ok (heal { z with mem := writeBytes s.mem k bytes } k bytes.length) []).KeepsForm := by
    split
    · exact hwf
    · simpa [Block.KeepsForm] using memWf_writeBytes _ _ _ hwf
  simp only [writeBlock]
  split
  · exact hwf
  · exact hwf
  · trivial
  · simpa [Block.KeepsForm] using hwf
  · exact hcell _ _
  · exact sendFar_keepsForm hwf _ _ _ _ _ _
  · exact atQuay_keepsForm hwf (fun z _ => hcell _ z) _ _ _ _ _
  · exact sendFar_keepsForm hwf _ _ _ _ _ _
  · exact hwf

theorem withBlock_memWf {s : State} {b : Block} {f : State → List Byte → Res} (hwf : memWf s.mem = true) (hb : b.KeepsForm)
    (hf : ∀ z bs, memWf z.mem = true → memWf (f z bs).state.mem = true) (sid : Nat) (t : Strand) (ea : Word) :
    memWf (withBlock s sid t ea b f).state.mem = true := by
  cases b with
  | ok s1 bs => exact hf _ _ hb
  | wait s1 st => simpa [withBlock, Block.KeepsForm] using hb
  | bad s1 c i => simpa [withBlock, Block.KeepsForm] using hb
  | miss n => simpa [withBlock] using hwf

theorem tdBody_memWf (src dst : State → Strand → Opnds → Word) (ssp dsp : List Nat) (s : State) (sid : Nat) (t : Strand) (o : Opnds)
    (hwf : memWf s.mem = true) : memWf (tdBody src dst ssp dsp s sid t o).state.mem = true := by
  unfold tdBody
  split
  · simp [hwf]
  · split
    · simp [hwf]
    · split
      · simp [hwf]
      · refine withBlock_memWf hwf (readBlock_keepsForm hwf _ _ _ _ _) (fun z bs hz => ?_) _ _ _
        exact withBlock_memWf hz (writeBlock_keepsForm hz _ _ _ _ _) (fun y _ hy => by simp [hy]) _ _ _

theorem takeDescs_memWf {f : State → List (BitVec 512) → Res} (hf : ∀ z ds, memWf z.mem = true → memWf (f z ds).state.mem = true)
    (sid : Nat)
    (t : Strand) (ns : List Nat) (acc : List (BitVec 512)) (s : State) (hwf : memWf s.mem = true) :
    memWf (takeDescs s sid t ns acc f).state.mem = true := by
  induction ns generalizing acc s with
  | nil => exact hf _ _ hwf
  | cons n ns ih => exact withBlock_memWf hwf (readBlock_keepsForm hwf _ _ _ _ _) (fun z bs hz => ih _ z hz) _ _ _

@[simp] theorem enterSubmit_mem (s : State) (b q : Nat) (w : Submit) : (enterSubmit s b q w).2.mem = s.mem := by
  simp only [enterSubmit]
  repeat' split
  all_goals simp

@[simp] theorem giveHandle_mem (s : State) (sid : Nat) (x : Args) (b q n : Nat) (promise : Bool) :
    (giveHandle s sid x b q n promise).state.mem = s.mem := by simp [giveHandle]

@[simp] theorem submit_memWf (s : State) (sid : Nat) (t : Strand) (x : Args) (o : Opnds) (q : Nat) (kind : JobKind)
    (trig : Option (Nat × BitVec 48))
    (promise : Bool) (hwf : memWf s.mem = true) : memWf (submit s sid t x o q kind trig promise).state.mem = true := by
  simp only [submit]
  split
  · simp [hwf]
  · split
    · simp [hwf]
    · refine takeDescs_memWf (fun z ds hz => ?_) _ _ _ _ _ hwf
      split <;> simp [hz]

@[simp] theorem qfenceBody_mem (x : Args) (s : State) (sid : Nat) (t : Strand) (o : Opnds) :
    (qfenceBody x s sid t o).state.mem = s.mem := by
  simp only [qfenceBody]
  split
  · simp
  · split
    · simp
    · rw [Res.state_park, foldl_mem (fun z q => updQ_mem ..)]

@[simp] theorem dropSubmit_mem (s : State) (b k : Nat) : (dropSubmit s b k).mem = s.mem := rfl

@[simp] theorem grantEntry_mem (s : State) (b q : Nat) : (grantEntry s b q).mem = s.mem := by
  unfold grantEntry
  split <;> simp

@[simp] theorem execQueueEntryGrant_mem (blk q : Nat) (s : State) :
    (outState s (execQueueEntryGrant blk q s)).mem = s.mem := by simp [execQueueEntryGrant]

@[simp] theorem cldBody_mem (x : Args) (s : State) (sid : Nat) (t : Strand) (o : Opnds) :
    (cldBody x s sid t o).state.mem = s.mem := by simp [cldBody]

theorem cprCheck_mem {s : State} {sid : Nat} {t : Strand} {ea : Word} {n : Nat} {r : Res} :
    ∀ {k i : Nat}, cprCheck s sid t ea n k i = some r → r.state.mem = s.mem
  | 0, _, hr => by cases hr
  | k + 1, i, hr => by
    have hnext : cprCheck s sid t ea n k (i + 1) = some r → r.state.mem = s.mem := cprCheck_mem
    unfold cprCheck at hr
    simp only at hr
    split at hr
    · cases hr; simp
    · cases hr; simp
    · cases hr; simp
    · split at hr
      · cases hr; simp
      · split at hr
        · cases hr; simp
        · exact hnext hr
    · exact hnext hr

@[simp] theorem cprWord_memWf (s : State) (sid : Nat) (t : Strand) (w : Word) (n : Nat) (r : RegRef) (h : Word)
    (hwf : memWf s.mem = true) :
    memWf (cprWord s sid t w n r h).mem = true := by
  have hask (hm : Home) (y : State) (a : Nat) (hy : memWf y.mem = true) : memWf (match takeDone (sendFrom y sid t hm (.copyWord a n r h) none w).2
        (sendFrom y sid t hm (.copyWord a n r h) none w).1 with
      | (some p, _) => (match p.bad with
        | some (c, i) => updStrand (haltCopy (sendFrom y sid t hm (.copyWord a n r h) none w).2 p) sid
            fun y => if c == 12 then y else { y with due := y.due <|> some (c, i) }
        | none => landCopy (sendFrom y sid t hm (.copyWord a n r h) none w).2 p)
      | (none, z3) => z3).mem = true := by
    have hsend := sendFrom_memWf y sid t hm (.copyWord a n r h) none w hy
    split
    · split <;> simp [hsend]
    · next heq =>
      have htake := takeDone_mem (sendFrom y sid t hm (.copyWord a n r h) none w).2 (sendFrom y sid t hm (.copyWord a n r h) none w).1
      rw [heq] at htake
      rwa [htake]
  simp only [cprWord]
  split
  · simp [hwf]
  · exact hask _ _ _ (by simp [hwf])
  · exact hask _ _ _ (by simp [hwf])
  · exact hask _ _ _ (by simp [hwf])
  · simp [hwf]

@[simp] theorem cprSend_memWf (s : State) (sid : Nat) (t : Strand) (ea : Word) (n : Nat) (h : Word) (rs : List RegRef) (i : Nat)
    (hwf : memWf s.mem = true) :
    memWf (cprSend s sid t ea n h rs i).mem = true := by
  induction rs generalizing s i with
  | nil => exact hwf
  | cons r rs ih => exact ih _ _ (cprWord_memWf _ _ _ _ _ _ _ hwf)

@[simp] theorem cprBody_memWf (x : Args) (s : State) (sid : Nat) (t : Strand) (o : Opnds) (hwf : memWf s.mem = true) :
    memWf (cprBody x s sid t o).state.mem = true := by
  simp only [cprBody]
  split
  · next hr => rwa [cprCheck_mem hr]
  · split
    · simp [hwf]
    · split
      · simp [hwf]
      · rw [Res.state_done, updStrand_mem]
        exact cprSend_memWf _ _ _ _ _ _ _ _ (by simp [hwf])

@[simp] theorem jobWait_memWf (x : Args) (s : State) (sid : Nat) (t : Strand) (o : Opnds) (hwf : memWf s.mem = true) :
    memWf (jobWait x s sid t o).state.mem = true := waitOn_memWf hwf (fun _ => by simp [hwf]) (by simp [hwf]) _ _ _ _ _

@[simp] theorem jwaitBody_memWf (x : Args) (s : State) (sid : Nat) (t : Strand) (o : Opnds) (hwf : memWf s.mem = true) :
    memWf (jwaitBody x s sid t o).state.mem = true := by
  unfold jwaitBody
  split <;> simp [hwf]

@[simp] theorem markMissed_mem (s : State) (h : Word) : (markMissed s h).mem = s.mem := rfl

@[simp] theorem jwaitpBody_memWf (x : Args) (s : State) (sid : Nat) (t : Strand) (o : Opnds) (hwf : memWf s.mem = true) :
    memWf (jwaitpBody x s sid t o).state.mem = true := by
  unfold jwaitpBody
  split
  · simp [hwf]
  · split <;> simp [hwf]

@[simp] theorem jstatBody_mem (x : Args) (s : State) (sid : Nat) (t : Strand) (o : Opnds) :
    (jstatBody x s sid t o).state.mem = s.mem := by simp [jstatBody]

@[simp] theorem jcanBody_memWf (x : Args) (s : State) (sid : Nat) (t : Strand) (o : Opnds) (hwf : memWf s.mem = true) :
    memWf (jcanBody x s sid t o).state.mem = true := by simp [jcanBody, hwf]

@[simp] theorem tcsetBody_memWf (s : State) (sid : Nat) (t : Strand) (o : Opnds) (hwf : memWf s.mem = true) :
    memWf (tcsetBody s sid t o).state.mem = true := by
  unfold tcsetBody
  split <;> simp [hwf]

@[simp] theorem tcaddBody_memWf (s : State) (sid : Nat) (t : Strand) (o : Opnds) (hwf : memWf s.mem = true) :
    memWf (tcaddBody s sid t o).state.mem = true := by
  unfold tcaddBody
  split <;> simp [hwf]

@[simp] theorem tcwaitBody_memWf (x : Args) (s : State) (sid : Nat) (t : Strand) (o : Opnds) (hwf : memWf s.mem = true) :
    memWf (tcwaitBody x s sid t o).state.mem = true := by
  simp only [tcwaitBody]
  split
  · simp [hwf]
  · split
    · simp [hwf]
    · split
      · simp [hwf]
      · exact waitOn_memWf hwf (fun n => by simp [hwf]) (by simp [hwf]) _ _ _ _ _

/-! ## Launch and spawn -/

@[simp] theorem launchBody_memWf (x : Args) (s : State) (sid : Nat) (t : Strand) (o : Opnds) (hwf : memWf s.mem = true) :
    memWf (launchBody x s sid t o).state.mem = true := by
  simp only [launchBody]
  split
  · simp [hwf]
  · split
    · simp [hwf]
    · exact withBlock_memWf hwf (readBlock_keepsForm hwf _ _ _ _ _) (fun z bs hz => by simp [hz]) _ _ _

@[simp] theorem spawnUnit_mem (s : State) (sid : Nat) (t : Strand) (x : Args) (ws : List Word) (blk : Nat) (core : Option Nat) :
    (spawnUnit s sid t x ws blk core).2.2.mem = s.mem := by
  simp only [spawnUnit]
  repeat' split
  all_goals simp

@[simp] theorem spawnBody_memWf (x : Args) (s : State) (sid : Nat) (t : Strand) (o : Opnds) (hwf : memWf s.mem = true) :
    memWf (spawnBody x s sid t o).state.mem = true := by
  simp only [spawnBody]
  split
  · simp [hwf]
  · split
    · simp [hwf]
    · simp [hwf]
    · split
      · simp [hwf]
      · split
        · simp [hwf]
        · split
          · simp [hwf]
          · split
            · simp [hwf]
            · exact withBlock_memWf hwf (readBlock_keepsForm hwf _ _ _ _ _) (fun z bs hz => by simp [hz]) _ _ _

@[simp] theorem clearSlotWord_mem (s : State) (ctx slot : Nat) : (clearSlotWord s ctx slot).mem = s.mem := rfl

@[simp] theorem submitHost_memWf (s : State) (ctx slot : Nat) (hwf : memWf s.mem = true) :
    memWf (submitHost s ctx slot).mem = true := by
  simp only [submitHost]
  repeat' split
  all_goals simp [hwf]

@[simp] theorem execHostSubmission_memWf (ctx slot : Nat) (s : State) (hwf : memWf s.mem = true) :
    memWf (outState s (execHostSubmission ctx slot s)).mem = true := by simp [execHostSubmission, hwf]

@[simp] theorem execUnitRelease_memWf (entry : Nat) (s : State) (hwf : memWf s.mem = true) :
    memWf (outState s (execUnitRelease entry s)).mem = true := by simp [execUnitRelease, hwf]

@[simp] theorem execUnitOffer_mem (k : Nat) (s : State) : (outState s (execUnitOffer k s)).mem = s.mem := by
  unfold execUnitOffer
  split <;> simp

@[simp] theorem execCornerQueueReoffer_mem (blk : Nat) (s : State) :
    (outState s (execCornerQueueReoffer blk s)).mem = s.mem := by simp [execCornerQueueReoffer]

@[simp] theorem execLaunchEnd_memWf (entry : Nat) (s : State) (hwf : memWf s.mem = true) :
    memWf (outState s (execLaunchEnd entry s)).mem = true := by simp [execLaunchEnd, hwf]

@[simp] theorem execWcancel_memWf (ctx : Nat) (v : Word) (s : State) (hwf : memWf s.mem = true) :
    memWf (outState s (execWcancel ctx v s)).mem = true := by simp [execWcancel, hwf]

/-! ## Groups and collectives -/

@[simp] theorem addGroup_mem (s : State) (gid ctx : Nat) (es : List Nat) (home : Nat) :
    (addGroup s gid ctx es home).mem = s.mem := rfl

@[simp] theorem createGroup_mem (s : State) (ctx : Nat) (es : List Nat) : (createGroup s ctx es).2.2.mem = s.mem := by
  simp only [createGroup]
  repeat' split
  all_goals simp

@[simp] theorem tellNew_mem (s : State) (gid ctx : Nat) (es : List Nat) (asker : Nat) :
    (tellNew s gid ctx es asker).mem = s.mem := by simp [tellNew]

@[simp] theorem groupRequested_mem (s : State) (m ctx : Nat) (es : List Nat) :
    (groupRequested s m ctx es).mem = s.mem := by simp [groupRequested]

@[simp] theorem execPlazaGroupRequest_mem (m ctx : Nat) (entries : List Nat) (s : State) :
    (outState s (execPlazaGroupRequest m ctx entries s)).mem = s.mem := by simp [execPlazaGroupRequest]

@[simp] theorem groupArrives_memWf (s : State) (home status gid ctx : Nat) (ans : Bool) (es : List Nat) (hwf : memWf s.mem = true) :
    memWf (groupArrives s home status gid ctx ans es).mem = true := by
  simp only [groupArrives]
  repeat' split
  all_goals simp [hwf]

theorem readList_memWf {f : State → List Nat → Res} (hf : ∀ z es, memWf z.mem = true → memWf (f z es).state.mem = true)
    (sid : Nat) (t : Strand)
    (ea : Word) (n : Nat) (acc : List Nat) (s : State) (hwf : memWf s.mem = true) : memWf (readList s sid t ea n acc f).state.mem = true := by
  induction n generalizing acc s ea with
  | zero => exact hf _ _ hwf
  | succ n ih => exact withBlock_memWf hwf (readBlock_keepsForm hwf _ _ _ _ _) (fun z bs hz => ih _ _ z hz) _ _ _

@[simp] theorem grpMakeBody_memWf (x : Args) (s : State) (sid : Nat) (t : Strand) (o : Opnds) (hwf : memWf s.mem = true) :
    memWf (grpMakeBody x s sid t o).state.mem = true := by
  unfold grpMakeBody
  dsimp only
  refine memWf_ite_state (by simp [hwf]) (memWf_ite_state (by simp [hwf]) (memWf_ite_state (by simp [hwf]) ?_))
  refine readList_memWf (fun z es hz => memWf_ite_state (by simp [hz]) (memWf_ite_state ?_ (memWf_ite_state ?_ ?_))) _ _ _ _ _ _ hwf
  · simp only [Res.state_done, setG_keepsMem]
    split <;> simp [hz]
  · simp [hz]
  · simp [hz]

@[simp] theorem updGroup_mem (s : State) (gid : Nat) (f : Group → Group) : (updGroup s gid f).mem = s.mem := rfl

@[simp] theorem dropGroup_mem (s : State) (gid : Nat) : (dropGroup s gid).mem = s.mem := rfl

@[simp] theorem settleGone_mem (s : State) (gid : Nat) : (settleGone s gid).mem = s.mem := by
  unfold settleGone
  split <;> simp

@[simp] theorem freeGroup_mem (s : State) (gid : Nat) : (freeGroup s gid).mem = s.mem := by
  unfold freeGroup
  split <;> simp

@[simp] theorem groupCleared_mem (s : State) (gid m : Nat) : (groupCleared s gid m).mem = s.mem := by simp [groupCleared]

@[simp] theorem endPost_memWf (s : State) (p : Post) (status : Nat) (hwf : memWf s.mem = true) :
    memWf (endPost s p status).mem = true := by
  simp only [endPost]
  rw [freeGroup_mem]
  have hjobs (z : State) (hz : memWf z.mem = true) : memWf (if (tcEn p.cmd && p.trig.isNone) = true then
      inHub z p.ctx p.blk fun z => updTc z p.blk (tcIdx p.cmd) fun t => { t with jobs := t.jobs - 1 } else z).mem = true := by
    split
    · rwa [inHub_mem (fun y => updTc_mem ..)]
    · exact hz
  have hadd (z : State) (hz : memWf z.mem = true) : memWf (if tcEn p.cmd = true then
      inHub z p.ctx p.blk (fun z => tcAdd z p.blk (tcIdx p.cmd) (tcInc p.cmd)) else z).mem = true := by
    split
    · rwa [inHub_mem (fun y => tcAdd_mem ..)]
    · exact hz
  split
  · exact arriveFor_memWf _ _ _ (hadd _ (hjobs _ (by simp [hwf])))
  · exact hjobs _ (by simp [hwf])

@[simp] theorem freeHeld_mem (s : State) (p : Partial) : (freeHeld s p).mem = s.mem := by
  unfold freeHeld
  split
  · rfl
  · rw [foldl_mem (fun z b => updHub_mem ..), updPlaza_mem]

@[simp] theorem dropPartial_mem (s : State) (gid k : Nat) : (dropPartial s gid k).mem = s.mem := by
  unfold dropPartial
  split <;> simp

@[simp] theorem endHere_memWf (s : State) (gid k status : Nat) (hwf : memWf s.mem = true) :
    memWf (endHere s gid k status).mem = true := by simp +contextual [endHere, hwf]

@[simp] theorem abortAll_memWf (s : State) (gid k : Nat) (hwf : memWf s.mem = true) : memWf (abortAll s gid k).mem = true := by
  unfold abortAll
  split <;> simp [hwf]

@[simp] theorem execCollectiveFaultAbort_memWf (gid k : Nat) (s : State) (hwf : memWf s.mem = true) :
    memWf (outState s (execCollectiveFaultAbort gid k s)).mem = true := by simp [execCollectiveFaultAbort, hwf]

@[simp] theorem trapOwners_memWf (s : State) (g : Group) (cls : Nat) (told : Option Nat) (hwf : memWf s.mem = true) :
    memWf (trapOwners s g cls told).mem = true := by
  unfold trapOwners
  split <;> simp +contextual [hwf]

@[simp] theorem relayTrap_mem (s : State) (g : Group) (cls : Nat) : (relayTrap s g cls).mem = s.mem := by
  unfold relayTrap
  split <;> simp

@[simp] theorem groupGone_memWf (s : State) (gid status : Nat) (spare : Nat → Bool) (hwf : memWf s.mem = true) :
    memWf (groupGone s gid status spare).mem = true := by simp +contextual [groupGone, hwf]

@[simp] theorem placeTicket_mem (s : State) (gid k : Nat) (rank : Rank) : (placeTicket s gid k rank).mem = s.mem := by
  simp only [placeTicket]
  repeat' split
  all_goals simp

@[simp] theorem execTicketArrives_mem (gid k : Nat) (rank : Rank) (s : State) :
    (outState s (execTicketArrives gid k rank s)).mem = s.mem := by simp [execTicketArrives]

@[simp] theorem countTicket_mem (s : State) (gid : Nat) : (countTicket s gid).mem = s.mem := rfl

@[simp] theorem sendTicket_mem (s : State) (g : Group) (k : Nat) (rank : Rank) :
    (sendTicket s g k rank).mem = s.mem := by simp [sendTicket]

@[simp] theorem localTicket_mem (s : State) (g : Group) (k : Nat) : (localTicket s g k).mem = s.mem := by simp [localTicket]

@[simp] theorem bareArrives_mem (s : State) (dom : Nat) : (bareArrives s dom).mem = s.mem := by
  simp only [bareArrives]
  rw [foldl_mem (fun z w => ?_), updPlaza_mem]
  split <;> simp

@[simp] theorem execBareTicketArrives_mem (dom : Nat) (s : State) :
    (outState s (execBareTicketArrives dom s)).mem = s.mem := by simp [execBareTicketArrives]

@[simp] theorem bareRequested_mem (s : State) (m : Nat) : (bareRequested s m).mem = s.mem := by simp [bareRequested]

@[simp] theorem execBareTicketRequest_mem (m : Nat) (s : State) :
    (outState s (execBareTicketRequest m s)).mem = s.mem := by simp [execBareTicketRequest]

@[simp] theorem issueTicket_mem (s : State) (g : Group) (k : Nat) : (issueTicket s g k).mem = s.mem := by simp [issueTicket]

@[simp] theorem takeBare_mem (s : State) : (takeBare s).mem = s.mem := by simp [takeBare]

@[simp] theorem reoffer_mem (s : State) : (reoffer s).mem = s.mem := rfl

@[simp] theorem completePosts_memWf (s : State) (g : Group) (p : Pending) (hwf : memWf s.mem = true) :
    memWf (completePosts s g p).mem = true := by simp [completePosts, hwf]

@[simp] theorem settleTickets_memWf (s : State) (hwf : memWf s.mem = true) : memWf (settleTickets s).mem = true := by
  unfold settleTickets
  refine foldl_memWf (fun z p hz => ?_) _ (by simp [hwf])
  split
  · split <;> simp [hz]
  · exact hz

@[simp] theorem settleGroups_memWf (s : State) (hwf : memWf s.mem = true) :
    memWf (settleGroups s).mem = true := by simp +contextual [settleGroups, hwf]

@[simp] theorem postArrives_memWf (s : State) (gid k m : Nat) (x : PostSig) (hwf : memWf s.mem = true) :
    memWf (postArrives s gid k m x).mem = true := by
  unfold postArrives
  repeat' split
  all_goals simp [hwf]

@[simp] theorem execPlazaPostArrival_memWf (gid k member : Nat) (sig : PostSig) (s : State) (hwf : memWf s.mem = true) :
    memWf (outState s (execPlazaPostArrival gid k member sig s)).mem = true := by simp [execPlazaPostArrival, hwf]

@[simp] theorem enterPost_memWf (s : State) (sid : Nat) (t : Strand) (c : BitVec 512) (ds : List (BitVec 512)) (g : Group)
    (m : Nat) (trig : Option (Nat × Nat × BitVec 48)) (hwf : memWf s.mem = true) :
    memWf (enterPost s sid t c ds g m trig).2.mem = true := by
  unfold enterPost
  repeat' split
  all_goals simp [hwf]

@[simp] theorem postBody_memWf (x : Args) (trig : Option (Nat × Nat × BitVec 48)) (s : State) (sid : Nat) (t : Strand) (o : Opnds)
    (hwf : memWf s.mem = true) : memWf (postBody x trig s sid t o).state.mem = true := by
  unfold postBody
  split
  · simp [hwf]
  · refine memWf_ite_state (by simp [hwf]) ?_
    exact takeDescs_memWf (fun z ds hz => memWf_ite_state (by simp [hz]) (by simp [hz])) _ _ _ _ _ hwf

@[simp] theorem trigBody_memWf (x : Args) (s : State) (sid : Nat) (t : Strand) (o : Opnds) (hwf : memWf s.mem = true) :
    memWf (trigBody x s sid t o).state.mem = true := by
  simp only [trigBody]
  repeat' split
  all_goals simp [hwf]

@[simp] theorem cwaitBody_memWf (x : Args) (s : State) (sid : Nat) (t : Strand) (o : Opnds) (hwf : memWf s.mem = true) :
    memWf (cwaitBody x s sid t o).state.mem = true := by
  simp only [cwaitBody]
  split
  · simp [hwf]
  · exact waitOn_memWf hwf (fun n => by simp [hwf]) (by simp [hwf]) _ _ _ _ _
  · simp [hwf]

@[simp] theorem cstatBody_mem (x : Args) (s : State) (sid : Nat) (t : Strand) (o : Opnds) :
    (cstatBody x s sid t o).state.mem = s.mem := by
  unfold cstatBody
  repeat' split
  all_goals simp

@[simp] theorem updPartial_mem (s : State) (gid k : Nat) (f : Partial → Partial) : (updPartial s gid k f).mem = s.mem := rfl

theorem reserveAll_mem {s z : State} {gid k : Nat} {need : Held} (hz : reserveAll s gid k need = some z) : z.mem = s.mem := by
  unfold reserveAll at hz
  split at hz
  · cases hz
    rw [updPartial_mem, foldl_mem (fun z b => updHub_mem ..), updPlaza_mem]
  · cases hz

@[simp] theorem startHead_memWf (s : State) (hwf : memWf s.mem = true) : memWf (startHead s).mem = true := by
  have hreserve (gid k : Nat) (need : Held) : memWf ((reserveAll s gid k need).getD s).mem = true := by
    cases hr : reserveAll s gid k need with
    | none => exact hwf
    | some z => exact (congrArg memWf (reserveAll_mem hr)).trans hwf
  unfold startHead
  split
  · split
    · exact hreserve _ _ _
    · exact hwf
  · split
    · exact hwf
    · dsimp only
      split
      · split
        · exact abortAll_memWf _ _ _ hwf
        · split
          · exact hwf
          · next hr => rwa [updPlaza_mem, reserveAll_mem hr]
      · rwa [updPlaza_mem]

@[simp] theorem execCollectiveStart_memWf (s : State) (hwf : memWf s.mem = true) :
    memWf (outState s (execCollectiveStart s)).mem = true := by simp [execCollectiveStart, hwf]

@[simp] theorem noteContribution_mem (s : State) (e : Eng) (d : BitVec 512) (n : Nat) : (noteContribution s e d n).mem = s.mem := by
  unfold noteContribution
  rw [foldl_mem (fun z j => ?_)]
  dsimp only
  split <;> simp

@[simp] theorem askContribution_mem (s : State) (e : Eng) (d : BitVec 512) (n : Nat) : (askContribution s e d n).mem = s.mem := by
  unfold askContribution
  rw [foldl_mem (fun z j => ?_)]
  dsimp only
  split <;> simp

@[simp] theorem mergePart_mem (s : State) (gid k m : Nat) (x : PostSig) (data : List Nat) :
    (mergePart s gid k m x data).mem = s.mem := rfl

@[simp] theorem mergeOwn_memWf (s : State) (g : Group) (p : Post) (hwf : memWf s.mem = true) :
    memWf (mergeOwn s g p).mem = true := by
  simp only [mergeOwn]
  repeat' split
  all_goals simp [hwf]

@[simp] theorem execContributionMerged_memWf (gid k member : Nat) (data : List Nat) (s : State) (hwf : memWf s.mem = true) :
    memWf (outState s (execContributionMerged gid k member data s)).mem = true := by
  unfold execContributionMerged
  repeat' split
  all_goals simp [hwf]

@[simp] theorem closePost_memWf (s0 : State) (p : Post) (hwf : memWf s0.mem = true) : memWf (closePost s0 p).mem = true := by
  unfold closePost
  split <;> simp [hwf]

@[simp] theorem payTokens_mem (s : State) (p : Post) (n : Nat) : (payTokens s p n).1.mem = s.mem := by
  simp only [payTokens]
  split
  · rfl
  · next hz => rw [updPlaza_mem, takeTokens_mem hz]

@[simp] theorem finishPost_memWf (s : State) (g : Group) (p : Post) (q : Partial) (hwf : memWf s.mem = true) :
    memWf (finishPost s g p q).mem = true := by
  unfold finishPost
  dsimp only
  split
  · exact abortAll_memWf _ _ _ hwf
  · split
    · split
      · exact closePost_memWf _ _ hwf
      · exact hwf
    · split
      · exact hwf
      · rwa [sendAsk_mem]
      · rwa [engMiss_mem]
      · exact abortAll_memWf _ _ _ (by rwa [dropReads_mem])
      · next ws _ =>
        have hpay := payTokens_mem s p (limitedBytes s (collEng g p) ws)
        rw [← hpay] at hwf
        split
        · next heq => simpa [heq] using hwf
        · next heq =>
          rw [heq] at hwf
          have hput := putElems_memWf (dropReads _ (collEng g p)) (collEng g p) ws (by simpa using hwf)
          split
          · exact closePost_memWf _ _ hput
          · rwa [updPlaza_mem]

@[simp] theorem endColl_memWf (s : State) (p : Post) (hwf : memWf s.mem = true) : memWf (endColl s p).mem = true := by
  unfold endColl
  repeat' split
  all_goals simp [hwf]

@[simp] theorem execCollectiveEnd_memWf (post : Nat) (s : State) (hwf : memWf s.mem = true) :
    memWf (outState s (execCollectiveEnd post s)).mem = true := by
  unfold execCollectiveEnd
  split <;> simp [hwf]

theorem groupJoin_mem {s z : State} {sid : Nat} {t : Strand} {a status idx : Nat} (hz : groupJoin s sid t a = .ok status idx z) :
    z.mem = s.mem := by
  simp only [groupJoin] at hz
  split at hz
  · cases hz; rfl
  · split at hz
    · cases hz; rfl
    · split at hz
      · split at hz
        · cases hz; rfl
        · split at hz
          · cases hz
          · cases hz
            rw [freeGroup_mem]
            split <;> simp
      · split at hz
        · cases hz; rfl
        · split at hz
          · cases hz; rfl
          · split at hz
            · cases hz; rfl
            · split at hz
              · cases hz
              · cases hz
                rw [updStrand_mem, updGroup_mem]

@[simp] theorem grpJoinBody_mem (x : Args) (s : State) (sid : Nat) (t : Strand) (o : Opnds) :
    (grpJoinBody x s sid t o).state.mem = s.mem := by
  unfold grpJoinBody
  split
  · simp
  · split
    · simp
    · split
      · simp
      · simp
      · next hz => rw [Res.state_done, setG_keepsMem, groupJoin_mem hz]

@[simp] theorem settleLeave_mem (s : State) (sid : Nat) : (settleLeave s sid).mem = s.mem := by
  simp only [settleLeave]
  repeat' split
  all_goals simp

@[simp] theorem settleLeaves_mem (s : State) : (settleLeaves s).mem = s.mem := by simp [settleLeaves]

@[simp] theorem treeBody_mem (s : State) (sid : Nat) (t : Strand) (o : Opnds) :
    (treeBody s sid t o).state.mem = s.mem := by simp [treeBody]

@[simp] theorem treeComplete_memWf (s : State) (ctx d c : Nat) (hwf : memWf s.mem = true) :
    memWf (treeComplete s ctx d c).mem = true := by simp +contextual [treeComplete, hwf]

@[simp] theorem execTreeRoundComplete_memWf (ctx dist chan : Nat) (s : State) (hwf : memWf s.mem = true) :
    memWf (outState s (execTreeRoundComplete ctx dist chan s)).mem = true := by simp [execTreeRoundComplete, hwf]

@[simp] theorem kvForm_memWf (x : Args) (op : Nat) (bad : Opnds → Option Word) (s : State) (sid : Nat) (t : Strand) (o : Opnds)
    (hwf : memWf s.mem = true) : memWf (kvForm x op bad s sid t o).state.mem = true := by
  unfold kvForm
  split
  · simp [hwf]
  · split
    · simp [hwf]
    · simp [hwf]
    · exact awaitPkt_memWf (fun z p hz => by rwa [landDone_mem]) _ _ (sendFrom_memWf _ _ _ _ _ _ _ hwf)

end Sys2Proof.Machine
end

section
/-! SUPPORT. The canonical form of the memory list (MemoryFormKept) is kept by the system forms and the events of strands,
engines and contexts. -/

namespace Sys2Proof.Machine
open Sys2Proof

/-! ## The system forms -/

@[simp] theorem writeSpecial_mem (s : State) (sid ctx n : Nat) (v : Word) : (writeSpecial s sid ctx n v).mem = s.mem := by
  unfold writeSpecial
  split <;> simp

@[simp] theorem rlsBody_mem (s : State) (sid : Nat) (t : Strand) (o : Opnds) :
    (rlsBody s sid t o).state.mem = s.mem := by simp [rlsBody]

@[simp] theorem dlnBody_mem (s : State) (sid : Nat) (t : Strand) (o : Opnds) :
    (dlnBody s sid t o).state.mem = s.mem := by simp [dlnBody]

@[simp] theorem startIn_mem (s : State) (sid ctx : Nat) (pc g1 : Word) (u : Option UnitRec) :
    (startIn s sid ctx pc g1 u).mem = s.mem := rfl

@[simp] theorem strtBody_memWf (x : Args) (s : State) (sid : Nat) (t : Strand) (o : Opnds) (hwf : memWf s.mem = true) :
    memWf (strtBody x s sid t o).state.mem = true := by
  simp only [strtBody]
  repeat' split
  all_goals simp [hwf]

@[simp] theorem reapSlot_mem (s : State) (core n : Nat) : (reapSlot s core n).2.mem = s.mem := by
  unfold reapSlot
  split <;> simp

@[simp] theorem reapBody_mem (x : Args) (s : State) (sid : Nat) (t : Strand) (o : Opnds) :
    (reapBody x s sid t o).state.mem = s.mem := by
  simp only [reapBody]
  repeat' split
  all_goals simp

@[simp] theorem evictTo_mem (s : State) (sid place : Nat) (ready : Bool) : (evictTo s sid place ready).mem = s.mem := rfl

@[simp] theorem evictBody_mem (x : Args) (s : State) (sid : Nat) (t : Strand) (o : Opnds) :
    (evictBody x s sid t o).state.mem = s.mem := by
  simp only [evictBody]
  repeat' split
  all_goals simp

@[simp] theorem admitTo_mem (s : State) (core : Nat) (e : Spill) (n : Nat) : (admitTo s core e n).mem = s.mem := rfl

@[simp] theorem admitBody_mem (x : Args) (s : State) (sid : Nat) (t : Strand) (o : Opnds) :
    (admitBody x s sid t o).state.mem = s.mem := by
  simp only [admitBody]
  repeat' split
  all_goals simp

@[simp] theorem yieldBody_mem (s : State) (sid : Nat) (t : Strand) (o : Opnds) : (yieldBody s sid t o).state.mem = s.mem := by
  unfold yieldBody
  repeat' split
  all_goals simp

@[simp] theorem utakeBody_mem (x : Args) (s : State) (sid : Nat) (t : Strand) (o : Opnds) :
    (utakeBody x s sid t o).state.mem = s.mem := by
  simp only [utakeBody]
  repeat' split
  all_goals simp

/-! ## The events of strands -/

theorem inSlot_memWf {s : State} {f : Nat → Slot → State} (hwf : memWf s.mem = true) (hf : ∀ sid sl, memWf (f sid sl).mem = true)
    (uid : Nat) :
    memWf (outState s (inSlot s uid f)).mem = true := by
  rw [inSlot, outState_next]
  split
  · exact hf _ _
  · exact hwf

@[simp] theorem execEndStrand_memWf (uid : Nat) (s : State) (hwf : memWf s.mem = true) :
    memWf (outState s (execEndStrand uid s)).mem = true := by
  refine inSlot_memWf hwf (fun sid sl => ?_) uid
  split
  · split <;> simp [hwf]
  · exact hwf

@[simp] theorem keepLine_mem (s : State) (core line : Nat) (v : BitVec 2048) : (keepLine s core line v).mem = s.mem := rfl

@[simp] theorem fetched_mem (s : State) (uid : Nat) (bad : Option (Nat × Word)) :
    (fetched s uid bad).mem = s.mem := by simp [fetched]

@[simp] theorem landLine_mem (s : State) (core line : Nat) : (landLine s core line).mem = s.mem := by
  simp only [landLine]
  repeat' split
  all_goals simp

@[simp] theorem execIbufLineLands_mem (core line : Nat) (s : State) :
    (outState s (execIbufLineLands core line s)).mem = s.mem := by simp [execIbufLineLands]

@[simp] theorem wakeIf_mem (s : State) (sid : Nat) : (wakeIf s sid).mem = s.mem := by
  simp only [wakeIf]
  repeat' split
  all_goals simp

@[simp] theorem execWaitWake_mem (sid : Nat) (s : State) : (outState s (execWaitWake sid s)).mem = s.mem := by simp [execWaitWake]

@[simp] theorem tickAll_mem (s : State) : (tickAll s).mem = s.mem := rfl

@[simp] theorem execTickBoundary_mem (s : State) : (outState s (execTickBoundary s)).mem = s.mem := by simp [execTickBoundary]

@[simp] theorem execWaitTimeout_mem (uid : Nat) (s : State) :
    (outState s (execWaitTimeout uid s)).mem = s.mem := by simp [execWaitTimeout]

@[simp] theorem disarmImage_memWf (s : State) (uid : Nat) (hwf : memWf s.mem = true) :
    memWf (disarmImage s uid).mem = true := by simp [disarmImage, hwf]

@[simp] theorem expire_memWf (s : State) (uid : Nat) (hwf : memWf s.mem = true) : memWf (expire s uid).mem = true := by
  unfold expire
  split <;> simp [hwf]

@[simp] theorem execDeadlineExpiry_memWf (uid : Nat) (s : State) (hwf : memWf s.mem = true) :
    memWf (outState s (execDeadlineExpiry uid s)).mem = true := by simp [execDeadlineExpiry, hwf]

@[simp] theorem missOf_memWf (s : State) (h : Word) (hwf : memWf s.mem = true) : memWf (missOf s h).mem = true := by
  unfold missOf
  split <;> simp +contextual [hwf]

@[simp] theorem missPromise_memWf (s : State) (b q seq : Nat) (hwf : memWf s.mem = true) :
    memWf (missPromise s b q seq).mem = true := by simp [missPromise, hwf]

@[simp] theorem execPromiseMissed_memWf (blk q seq : Nat) (s : State) (hwf : memWf s.mem = true) :
    memWf (outState s (execPromiseMissed blk q seq s)).mem = true := by simp [execPromiseMissed, hwf]

@[simp] theorem execCordonLeave_memWf (uid : Nat) (s : State) (hwf : memWf s.mem = true) :
    memWf (outState s (execCordonLeave uid s)).mem = true :=
  inSlot_memWf hwf (fun sid _ => (congrArg memWf (leaveCordon_mem s sid)).trans hwf) uid

@[simp] theorem rootReady_mem (s : State) (sid : Nat) (sl : Slot) : (rootReady s sid sl).mem = s.mem := by simp [rootReady]

@[simp] theorem execRootReady_memWf (uid : Nat) (s : State) (hwf : memWf s.mem = true) :
    memWf (outState s (execRootReady uid s)).mem = true :=
  inSlot_memWf hwf (fun sid sl => (congrArg memWf (rootReady_mem s sid sl)).trans hwf) uid

theorem writeQueue_memWf {s z : State} {r : Record} (hz : writeQueue s r = .ok z) (hwf : memWf s.mem = true) :
    memWf z.mem = true := by
  unfold writeQueue at hz
  dsimp only at hz
  split at hz
  · split at hz
    · cases hz
    · split at hz
      · cases hz
      · split at hz
        · next h1 =>
          split at hz
          · next h2 =>
            cases hz
            exact virtWrite1_memWf h2 (virtWrite1_memWf h1 hwf)
          · cases hz
        · cases hz
  · cases hz

@[simp] theorem dropRecord_mem (s : State) (k : Nat) : (dropRecord s k).mem = s.mem := rfl

@[simp] theorem deliverRecord_memWf (s : State) (r : Record) (hwf : memWf s.mem = true) : memWf (deliverRecord s r).mem = true := by
  unfold deliverRecord
  split
  · exact rgLand_memWf _ _ _ _ _ _ _ (rgReserve_memWf _ _ _ (by rwa [dropRecord_mem]))
  · split
    · next hz => rw [dropRecord_mem]; exact writeQueue_memWf hz hwf
    · exact hwf
    · rwa [soon_mem, dropRecord_mem]

@[simp] theorem execTrapRecordDelivery_memWf (k : Nat) (s : State) (hwf : memWf s.mem = true) :
    memWf (outState s (execTrapRecordDelivery k s)).mem = true := by
  unfold execTrapRecordDelivery
  split <;> simp [hwf]

@[simp] theorem execTrapqRecordTimeout_mem (k : Nat) (s : State) : (outState s (execTrapqRecordTimeout k s)).mem = s.mem := by
  unfold execTrapqRecordTimeout
  split <;> simp

@[simp] theorem answerSlot_memWf (s : State) (core form k slot : Nat) (hwf : memWf s.mem = true) :
    memWf (answerSlot s core form k slot).mem = true := by
  unfold answerSlot
  split <;> simp [hwf]

@[simp] theorem unevict_memWf (s : State) (core : Nat) (e : Spill) (hwf : memWf s.mem = true) :
    memWf (unevict s core e).mem = true := by
  simp only [unevict]
  repeat' split
  all_goals simp [hwf]

@[simp] theorem settleEvicts_memWf (s : State) (hwf : memWf s.mem = true) : memWf (settleEvicts s).mem = true :=
  foldl_memWf (fun _ _ hz => foldl_memWf (fun _ _ hy => unevict_memWf _ _ _ hy) _ hz) _ hwf

@[simp] theorem evicted_memWf (s : State) (core : Nat) (e : Spill) (hwf : memWf s.mem = true) :
    memWf (evicted s core e).mem = true := by
  unfold evicted
  split
  · rwa [soon_mem]
  · next hz => exact answerSlot_memWf _ _ _ _ _ (by simpa using writeImage_memWf hz hwf)

@[simp] theorem execEvictComplete_memWf (uid : Nat) (s : State) (hwf : memWf s.mem = true) :
    memWf (outState s (execEvictComplete uid s)).mem = true := by
  unfold execEvictComplete
  repeat' split
  all_goals simp [hwf]

@[simp] theorem rename_memWf (s : State) (core old new : Nat) (hwf : memWf s.mem = true) :
    memWf (rename s core old new).mem = true := by
  simp only [rename, updCore_mem]
  refine foldl_memWf (fun z r hz => ?_) _ hwf
  split
  · exact spadWrite_memWf _ _ _ _ _ hz
  · exact hz

@[simp] theorem admitted_memWf (s : State) (core : Nat) (e : Spill) (n : Nat) (hwf : memWf s.mem = true) :
    memWf (admitted s core e n).mem = true := by
  unfold admitted
  dsimp only
  split
  · split
    · exact stopSoon_memWf _ _ _ _ (answerSlot_memWf _ _ _ _ _ (by simp [hwf]))
    · exact takeDue_memWf _ _ (answerSlot_memWf _ _ _ _ _ (by simp [hwf]))
  · rwa [areaFault_mem]

@[simp] theorem execAdmitComplete_memWf (uid : Nat) (s : State) (hwf : memWf s.mem = true) :
    memWf (outState s (execAdmitComplete uid s)).mem = true := by
  unfold execAdmitComplete
  repeat' split
  all_goals simp [hwf]

@[simp] theorem execAutoEvict_mem (core : Nat) (s : State) : (outState s (execAutoEvict core s)).mem = s.mem := by
  simp only [execAutoEvict]
  repeat' split
  all_goals simp

@[simp] theorem execAutoAdmit_mem (core : Nat) (s : State) : (outState s (execAutoAdmit core s)).mem = s.mem := by
  unfold execAutoAdmit
  repeat' split
  all_goals simp

@[simp] theorem execRegisterFileError_memWf (sid cls idx : Nat) (s : State) (hwf : memWf s.mem = true) :
    memWf (outState s (execRegisterFileError sid cls idx s)).mem = true := by simp [execRegisterFileError, hwf]

/-! ## Jobs, walks and removal -/

@[simp] theorem runningHead_memWf {s : State} {f : Job → State} (hwf : memWf s.mem = true) (hf : ∀ j, memWf (f j).mem = true)
    (b q : Nat) :
    memWf (outState s (runningHead s b q f)).mem = true := by
  rw [runningHead, outState_next]
  split
  · split
    · exact hf _
    · exact hwf
  · exact hwf

@[simp] theorem execJobStart_memWf (blk q : Nat) (s : State) (hwf : memWf s.mem = true) :
    memWf (outState s (execJobStart blk q s)).mem = true := by simp [execJobStart, hwf]

@[simp] theorem execJobEnd_memWf (blk q : Nat) (s : State) (hwf : memWf s.mem = true) :
    memWf (outState s (execJobEnd blk q s)).mem = true := by simp [execJobEnd, hwf]

@[simp] theorem execJobCancelStop_memWf (blk q : Nat) (s : State) (hwf : memWf s.mem = true) :
    memWf (outState s (execJobCancelStop blk q s)).mem = true := by simp [execJobCancelStop, hwf]

@[simp] theorem execJobFault_memWf (blk q cls step : Nat) (info : Word) (s : State) (hwf : memWf s.mem = true) :
    memWf (outState s (execJobFault blk q cls step info s)).mem = true := by simp [execJobFault, hwf]

@[simp] theorem execFenceEnd_memWf (blk seq : Nat) (s : State) (hwf : memWf s.mem = true) :
    memWf (outState s (execFenceEnd blk seq s)).mem = true := by
  rw [execFenceEnd, outState_next]
  split
  · split
    · refine foldl_memWf (fun z p hz => ?_) _ hwf
      split
      · exact endJob_memWf _ _ _ _ _ _ hz
      · exact hz
    · exact hwf
  · exact hwf

@[simp] theorem fillPage_mem (s : State) (m : Miss) (p : Page) : (fillPage s m p).mem = s.mem := by simp [fillPage]

@[simp] theorem failMiss_mem (s : State) (m : Miss) (f : Nat → Nat → Nat × Word) :
    (failMiss s m f).mem = s.mem := by simp [failMiss]

@[simp] theorem endWalk_mem (s : State) (m : Miss) : (endWalk s m).mem = s.mem := by
  unfold endWalk
  split <;> simp

@[simp] theorem execPageWalkComplete_mem (k : Nat) (s : State) : (outState s (execPageWalkComplete k s)).mem = s.mem := by
  unfold execPageWalkComplete
  split <;> simp

@[simp] theorem execMissMergeEntryGrant_mem (dist : Nat) (s : State) :
    (outState s (execMissMergeEntryGrant dist s)).mem = s.mem := by simp [execMissMergeEntryGrant]

@[simp] theorem dropTlb_mem (s : State) (v : Word) (f : TlbEntry → Bool) : (dropTlb s v f).mem = s.mem := by simp [dropTlb]

@[simp] theorem execTlbinvPage_mem (v : Word) (s : State) :
    (outState s (execTlbinvPage v s)).mem = s.mem := by simp [execTlbinvPage]

@[simp] theorem execTlbinvKey_mem (v : Word) (s : State) : (outState s (execTlbinvKey v s)).mem = s.mem := by simp [execTlbinvKey]

@[simp] theorem execTlbinvContext_mem (v : Word) (s : State) :
    (outState s (execTlbinvContext v s)).mem = s.mem := by simp [execTlbinvContext]

/-! ## Contexts -/

@[simp] theorem ctxStatus_mem (s : State) (ctx status : Nat) : (ctxStatus s ctx status).mem = s.mem := rfl

@[simp] theorem command_memWf {s : State} {f : State → State} (hwf : memWf s.mem = true)
    (hf : ∀ z, memWf z.mem = true → memWf (f z).mem = true)
    (ctx : Nat) (ok : Bool) : memWf (outState s (command s ctx ok f)).mem = true := by
  rw [command, outState_next]
  split
  · exact hf _ (by rwa [ctxStatus_mem])
  · rwa [ctxStatus_mem]

@[simp] theorem setSt_mem (s : State) (ctx : Nat) (st : CtxState) : (setSt s ctx st).mem = s.mem := rfl

@[simp] theorem execCtxCreate_memWf (ctx : Nat) (s : State) (hwf : memWf s.mem = true) :
    memWf (outState s (execCtxCreate ctx s)).mem = true :=
  command_memWf hwf (fun _ hz => (congrArg memWf (setSt_mem ..)).trans hz) _ _

@[simp] theorem execCtxAdmit_memWf (ctx : Nat) (s : State) (hwf : memWf s.mem = true) :
    memWf (outState s (execCtxAdmit ctx s)).mem = true :=
  command_memWf hwf (fun _ hz => (congrArg memWf (setSt_mem ..)).trans (foldl_memWf (fun _ _ hy => scrubBlock_memWf _ _ _ hy) _ hz)) _ _

@[simp] theorem execScrubEnd_mem (blk : Nat) (s : State) : (outState s (execScrubEnd blk s)).mem = s.mem := by simp [execScrubEnd]

@[simp] theorem execCtxStart_memWf (ctx : Nat) (s : State) (hwf : memWf s.mem = true) :
    memWf (outState s (execCtxStart ctx s)).mem = true := by
  unfold execCtxStart
  split
  · refine command_memWf hwf (fun z hz => ?_) _ _
    rw [setSt_mem]
    exact foldl_memWf (fun _ _ hy => writeContents_memWf _ _ _ hy) _ hz
  · exact command_memWf hwf (fun z hz => hz) _ _

@[simp] theorem execSlotZeroStart_mem (core : Nat) (s : State) : (outState s (execSlotZeroStart core s)).mem = s.mem := by
  simp only [execSlotZeroStart]
  repeat' split
  all_goals simp

@[simp] theorem execCtxSwitch_memWf (ctx succ : Nat) (s : State) (hwf : memWf s.mem = true) :
    memWf (outState s (execCtxSwitch ctx succ s)).mem = true :=
  command_memWf hwf (fun _ hz => (congrArg memWf (updCtx_mem ..)).trans hz) _ _

@[simp] theorem flip_mem (s : State) (ctx : Nat) : (flip s ctx).mem = s.mem := by
  simp only [flip]
  rw [updCtx_mem, foldl_mem (fun z c => updCore_mem ..)]

@[simp] theorem execCtxStop_memWf (ctx : Nat) (s : State) (hwf : memWf s.mem = true) :
    memWf (outState s (execCtxStop ctx s)).mem = true := by
  unfold execCtxStop
  refine command_memWf hwf (fun z hz => ?_) _ _
  rwa [setSt_mem, flip_mem]

@[simp] theorem execCtxcmdHold_mem (ctx : Nat) (hold : Bool) (s : State) :
    (outState s (execCtxcmdHold ctx hold s)).mem = s.mem := rfl

@[simp] theorem schedulerEvent_mem (s : State) (ctx event : Nat) : (schedulerEvent s ctx event).mem = s.mem := rfl

@[simp] theorem finishAtomics_memWf (s : State) (ctx : Nat) (hwf : memWf s.mem = true) :
    memWf (finishAtomics s ctx).mem = true := by simp +contextual [finishAtomics, hwf]

@[simp] theorem parkCollectives_mem (s : State) (ctx : Nat) : (parkCollectives s ctx).mem = s.mem := by simp [parkCollectives]

@[simp] theorem finishPieces_memWf (s : State) (ctx : Nat) (hwf : memWf s.mem = true) : memWf (finishPieces s ctx).mem = true := by
  have hgo (z : State) (b q : Nat) (hz : memWf z.mem = true) :
      memWf (if (headJob z b q).any fun j => j.kind == .copy && j.state == 2 && !pieceDone j then
        { copyPiece { z with served := [] } b q 384 with served := z.served } else z).mem = true := by
    split
    · exact copyPiece_memWf _ _ _ _ hz
    · exact hz
  exact foldl_memWf (fun z b hz => hgo _ _ _ (hgo _ _ _ hz)) _ hwf

@[simp] theorem emptyBlock_memWf (s : State) (ctx b : Nat) (hwf : memWf s.mem = true) : memWf (emptyBlock s ctx b).mem = true := by
  have hclear := clearBlock_memWf s b hwf
  unfold emptyBlock
  generalize clearBlock s b = z at hclear ⊢
  rwa [setHub_mem]

@[simp] theorem switchOut_memWf (s : State) (ctx : Nat) (hwf : memWf s.mem = true) : memWf (switchOut s ctx).mem = true := by
  have hstop : memWf (parkCollectives (finishPieces (finishAtomics s ctx) ctx) ctx).mem = true := by simp [hwf]
  simp only [switchOut]
  have hempty (bs : List Nat) (z : State) (hz : memWf z.mem = true) : memWf (bs.foldl (fun y b => emptyBlock y ctx b) z).mem = true :=
    foldl_memWf (fun _ _ hy => emptyBlock_memWf _ _ _ hy) _ hz
  split
  · rw [soon_mem, updCtx_mem]
    exact hempty _ _ hstop
  · rw [updCtx_mem]
    exact hempty _ _ hstop

@[simp] theorem execGangSwitch_memWf (ctx : Nat) (s : State) (hwf : memWf s.mem = true) :
    memWf (outState s (execGangSwitch ctx s)).mem = true := by simp [execGangSwitch, hwf]

theorem writePieces_memWf {s z : State} {ctx : Nat} {ps : List (Nat × List Byte)} (hz : writePieces s ctx ps = some z)
    (hwf : memWf s.mem = true) : memWf z.mem = true :=
  foldl_bind_keeps (P := fun y => memWf y.mem = true) (fun _ _ _ h hy => virtWrite_memWf h hy) ps
    (fun _ hy => by cases hy; exact hwf) hz

@[simp] theorem saveDone_memWf (s : State) (ctx : Nat) (v : Saved) (hwf : memWf s.mem = true) :
    memWf (saveDone s ctx v).mem = true := by
  unfold saveDone
  dsimp only
  split
  · next s0 hs0 =>
    have h0 : memWf s0.mem = true := foldl_bind_keeps (P := fun y => memWf y.mem = true) (fun _ _ _ h hy => writePieces_memWf h hy) _
      (fun _ hy => writePieces_memWf hy hwf) hs0
    rw [schedulerEvent_mem]
    exact foldl_memWf (fun _ _ hy => scrubBlock_memWf _ _ _ hy) _ (by rwa [updCtx_mem])
  · rwa [soon_mem]

@[simp] theorem execContextSaveComplete_memWf (ctx : Nat) (s : State) (hwf : memWf s.mem = true) :
    memWf (outState s (execContextSaveComplete ctx s)).mem = true := by
  simp only [execContextSaveComplete]
  repeat' split
  all_goals simp [hwf]

@[simp] theorem execLateDeviceEvent_mem (ctx : Nat) (s : State) :
    (outState s (execLateDeviceEvent ctx s)).mem = s.mem := by simp [execLateDeviceEvent]

theorem loadCells_memWf {s z : State} {ctx blk : Nat} (hz : loadCells s ctx blk = some z) (hwf : memWf s.mem = true) :
    memWf z.mem = true := by
  unfold loadCells at hz
  obtain ⟨y, hy, rfl⟩ := Option.map_eq_some_iff.mp hz
  refine foldl_bind_keeps (P := fun y : State × Nat => memWf y.1.mem = true) (fun r x y h hx => ?_) _ (fun _ h => ?_) hy
  · obtain ⟨bs, -, rfl⟩ := Option.map_eq_some_iff.mp h
    exact memWf_writeBytes _ _ _ hx
  · cases h
    exact hwf

@[simp] theorem restoreStrands_memWf (s : State) (ctx : Nat) (hwf : memWf s.mem = true) : memWf (restoreStrands s ctx).mem = true :=
  foldl_memWf (fun _ _ hz => expire_memWf _ _ hz) _ (foldl_memWf (fun _ _ hz => takeDue_memWf _ _ (expire_memWf _ _ hz)) _ hwf)

@[simp] theorem restored_memWf (s : State) (ctx from_ : Nat) (v : Saved) (hwf : memWf s.mem = true) :
    memWf (restored s ctx from_ v).mem = true := by
  unfold restored
  dsimp only
  split
  · rwa [soon_mem]
  · rwa [soon_mem]
  · next s1 cores hs1 _ =>
    have h1 : memWf s1.mem = true := foldl_bind_keeps (P := fun y => memWf y.mem = true) (fun _ _ _ h hy => loadCells_memWf h hy) _
      (fun y hy => by
        split at hy
        · cases hy; exact hwf
        · cases hy) hs1
    refine restoreStrands_memWf _ _ ?_
    rw [updCtx_mem, updCtx_mem]
    dsimp only
    rwa [updPlaza_mem, foldl_mem (fun z h => setHub_mem ..), foldl_mem (fun z c => setCore_mem ..)]

@[simp] theorem execContextRestore_memWf (ctx : Nat) (s : State) (hwf : memWf s.mem = true) :
    memWf (outState s (execContextRestore ctx s)).mem = true := by
  simp only [execContextRestore]
  repeat' split
  all_goals simp [hwf]

@[simp] theorem dropGroups_memWf (s : State) (ctx : Nat) (hwf : memWf s.mem = true) :
    memWf (dropGroups s ctx).mem = true := by simp +contextual [dropGroups, hwf]

@[simp] theorem dropTraces_mem (s : State) (ctx : Nat) : (dropTraces s ctx).mem = s.mem := rfl

@[simp] theorem abortJobs_memWf (s : State) (b : Nat) (hwf : memWf s.mem = true) : memWf (abortJobs s b).mem = true :=
  foldl_memWf (fun _ _ hz => foldl_memWf (fun _ _ hy => endJob_memWf _ _ _ _ _ _ hy) _ hz) _ hwf

@[simp] theorem teardown_memWf (s : State) (ctx : Nat) (hwf : memWf s.mem = true) : memWf (teardown s ctx).mem = true := by
  simp only [teardown, updCtx_mem]
  refine foldl_memWf (fun _ _ hz => scrubBlock_memWf _ _ _ hz) _ ?_
  rw [dropTraces_mem]
  exact dropGroups_memWf _ _ (foldl_memWf (fun _ _ hz => abortJobs_memWf _ _ hz) _ hwf)

@[simp] theorem execUnrecoverableFault_memWf (ctx : Nat) (s : State) (hwf : memWf s.mem = true) :
    memWf (outState s (execUnrecoverableFault ctx s)).mem = true := by simp [execUnrecoverableFault, hwf]

@[simp] theorem askCuts_mem (s : State) (ctx : Nat) : (askCuts s ctx).mem = s.mem := by simp [askCuts]

@[simp] theorem closeCut_memWf (s : State) (ctx : Nat) (hwf : memWf s.mem = true) :
    memWf (closeCut s ctx).mem = true := by simp [closeCut, hwf]

@[simp] theorem execCutClosed_memWf (ctx : Nat) (s : State) (hwf : memWf s.mem = true) :
    memWf (outState s (execCutClosed ctx s)).mem = true := by simp [execCutClosed, hwf]

@[simp] theorem tellCut_mem (s : State) (m ctx k : Nat) : (tellCut s m ctx k).mem = s.mem := by simp [tellCut]

@[simp] theorem cutTold_mem (s : State) (m ctx a b : Nat) : (cutTold s m ctx a b).mem = s.mem := rfl

@[simp] theorem execTeardownComplete_mem (ctx : Nat) (s : State) : (outState s (execTeardownComplete ctx s)).mem = s.mem := by
  rw [execTeardownComplete, outState_next]
  split
  · rw [schedulerEvent_mem, setCtx_mem, foldl_mem (fun z b => updHub_mem ..)]
  · rfl

@[simp] theorem toTrapQueue_mem (s : State) (n : Nat) : (toTrapQueue s n).mem = s.mem := rfl

@[simp] theorem deadlocked_memWf (s : State) (ctx : Nat) (hwf : memWf s.mem = true) : memWf (deadlocked s ctx).mem = true := by
  unfold deadlocked
  repeat' split
  all_goals simp [hwf]

@[simp] theorem sampleDeadlock_memWf (s : State) (ctx : Nat) (hwf : memWf s.mem = true) :
    memWf (sampleDeadlock s ctx).mem = true := by simp +contextual [sampleDeadlock, hwf]

@[simp] theorem execDeadlockSample_memWf (ctx : Nat) (s : State) (hwf : memWf s.mem = true) :
    memWf (outState s (execDeadlockSample ctx s)).mem = true := by simp [execDeadlockSample, hwf]

/-! ## Control transfer -/

@[simp] theorem transfer_mem (s : State) (sid : Nat) (t : Strand) (dest : Word) (link : Bool) :
    (transfer s sid t dest link).state.mem = s.mem := by simp [transfer]

@[simp] theorem leaveWork_memWf (s : State) (sid : Nat) (t : Strand) (word : BitVec 96) (hwf : memWf s.mem = true) :
    memWf (leaveWork s sid t word).state.mem = true := by
  unfold leaveWork
  repeat' split
  all_goals simp [hwf]

@[simp] theorem returnTo_memWf (op : Nat) (x : Args) (dest : Strand → Opnds → Word) (s : State) (sid : Nat) (t : Strand)
    (o : Opnds) (hwf : memWf s.mem = true) :
    memWf (returnTo op x dest s sid t o).state.mem = true := by simp [returnTo, hwf]

@[simp] theorem branch_mem (link : Bool) (s : State) (sid : Nat) (t : Strand) (o : Opnds) :
    (branch link s sid t o).state.mem = s.mem := by simp [branch]

@[simp] theorem loopBody_mem (n : LoopSet) (s : State) (sid : Nat) (t : Strand) (o : Opnds) :
    (loopBody n s sid t o).state.mem = s.mem := by simp [loopBody]

@[simp] theorem lbrkBody_mem (n : LoopSet) (s : State) (sid : Nat) (t : Strand) (o : Opnds) :
    (lbrkBody n s sid t o).state.mem = s.mem := by simp [lbrkBody]

end Sys2Proof.Machine
end

section
/-! SUPPORT. The canonical form of the memory list (MemoryFormKept) is kept by the device, its links and the trust domain. -/

namespace Sys2Proof.Machine
open Sys2Proof

/-! ## The device as a whole -/

theorem execReset_memWf (s : State) : memWf (outState s (execReset s)).mem = true := rfl

@[simp] theorem setReady_mem (s : State) (n : Nat) (v : Bool) : (setReady s n v).mem = s.mem := rfl

@[simp] theorem updPort_mem (s : State) (p : Nat) (f : Port → Port) : (updPort s p f).mem = s.mem := rfl

@[simp] theorem setClock_mem (s : State) (d n : Nat) : (setClock s d n).mem = s.mem := rfl

@[simp] theorem startClock_mem (s : State) (d : Nat) : (startClock s d).mem = s.mem := rfl

@[simp] theorem execFunctionReady_mem (bit : Nat) (s : State) :
    (outState s (execFunctionReady bit s)).mem = s.mem := by simp [execFunctionReady]

@[simp] theorem execFunctionFailure_mem (bit : Nat) (s : State) :
    (outState s (execFunctionFailure bit s)).mem = s.mem := by simp [execFunctionFailure]

@[simp] theorem execDistrictFailure_memWf (d : Nat) (s : State) (hwf : memWf s.mem = true) :
    memWf (outState s (execDistrictFailure d s)).mem = true := by
  rw [execDistrictFailure, outState_next]
  split
  · exact foldl_memWf (fun _ _ hz => teardown_memWf _ _ hz) _ (by rwa [setClock_mem, setReady_mem])
  · exact hwf

@[simp] theorem execPwrlimWrite_mem (v : Word) (s : State) :
    (outState s (execPwrlimWrite v s)).mem = s.mem := by simp [execPwrlimWrite]

@[simp] theorem powerWindow_mem (s : State) : (powerWindow s).mem = s.mem := by
  simp only [powerWindow]
  rw [updMgmt_mem]

@[simp] theorem execPowerWindow_memWf (s : State) (hwf : memWf s.mem = true) :
    memWf (outState s (execPowerWindow s)).mem = true := by simp [execPowerWindow, hwf]

@[simp] theorem debugged_memWf {s : State} {f : Slot → State} (hwf : memWf s.mem = true) (hf : ∀ sl, memWf (f sl).mem = true)
    (ctx sid : Nat) :
    memWf (outState s (debugged s ctx sid f)).mem = true := by
  rw [debugged, outState_next]
  split
  · exact hf _
  · exact hwf

@[simp] theorem execDbgStop_memWf (ctx sid : Nat) (s : State) (hwf : memWf s.mem = true) :
    memWf (outState s (execDbgStop ctx sid s)).mem = true := by
  refine debugged_memWf hwf (fun sl => ?_) _ _
  split <;> simp [hwf]

@[simp] theorem execDbgRelease_memWf (ctx sid : Nat) (s : State) (hwf : memWf s.mem = true) :
    memWf (outState s (execDbgRelease ctx sid s)).mem = true := by
  refine debugged_memWf hwf (fun sl => ?_) _ _
  split <;> simp [hwf]

@[simp] theorem execDbgHold_memWf (ctx sid : Nat) (s : State) (hwf : memWf s.mem = true) :
    memWf (outState s (execDbgHold ctx sid s)).mem = true := by
  refine debugged_memWf hwf (fun sl => ?_) _ _
  split <;> simp [hwf]

@[simp] theorem execErrlogCapture_mem (src pa : Nat) (s : State) :
    (outState s (execErrlogCapture src pa s)).mem = s.mem := by simp [execErrlogCapture]

@[simp] theorem execErrlogClear_mem (s : State) : (outState s (execErrlogClear s)).mem = s.mem := rfl

@[simp] theorem execRegisterWrite_memWf (core ctx off : Nat) (v : Word) (s : State) (hwf : memWf s.mem = true) :
    memWf (outState s (execRegisterWrite core ctx off v s)).mem = true := by simp [execRegisterWrite, hwf]

/-! ## The links -/

@[simp] theorem complete_mem (s : State) (tag : Nat) (v : Option (List Byte)) : (complete s tag v).mem = s.mem := rfl

@[simp] theorem putWindow_mem (s : State) (a : Nat) (b : Byte) : (putWindow s a b).mem = s.mem := by simp [putWindow]

@[simp] theorem writeWindow_mem (s : State) (off : Nat) (bs : List Byte) : (writeWindow s off bs).mem = s.mem := by
  have hput : ((List.range bs.length).foldl (fun z i => putWindow z (off + i) (bs.getD i 0)) s).mem = s.mem :=
    foldl_mem (fun z i => putWindow_mem ..) _ _
  have hsoon (l : List (Nat × Nat)) (z : State) : (l.foldl (fun z e => soon z (.hostSubmission e.1 e.2)) z).mem = z.mem :=
    foldl_mem (fun z e => soon_mem ..) _ _
  simp only [writeWindow]
  split
  · rw [soonCancel_mem, hsoon, hput]
  · rw [hsoon, hput]

@[simp] theorem hostRead_mem (s : State) (t : Tlp) : (hostRead s t).mem = s.mem := by
  unfold hostRead
  repeat' split
  all_goals simp

@[simp] theorem hostWrite_memWf (s : State) (t : Tlp) (bs : List Byte) (hwf : memWf s.mem = true) :
    memWf (hostWrite s t bs).mem = true := by simp [hostWrite, hwf]

@[simp] theorem setSession_mem (s : State) (x : Session) : (setSession s x).mem = s.mem := rfl

@[simp] theorem dropSession_mem (s : State) (n : Nat) : (dropSession s n).mem = s.mem := rfl

@[simp] theorem sendSpdm_mem (s : State) (m code : Nat) (bs : List Byte) : (sendSpdm s m code bs).mem = s.mem :=
  foldl_mem (fun z p => sendEscape_mem ..) _ _

@[simp] theorem deliverReply_mem (s : State) (x : Session) (bs : List Byte) :
    (deliverReply s x bs).mem = s.mem := by simp [deliverReply]

@[simp] theorem spdmError_mem (s : State) (n code : Nat) : (spdmError s n code).mem = s.mem := by simp [spdmError]

theorem spdm_mem {s : State} {f : Session → List Byte → State} (hf : ∀ x seed, (f x seed).mem = s.mem) (r : SpdmReq) (need : Nat) :
    (outState s (spdm r need f s)).mem = s.mem := by
  rw [spdm, outState_next]
  split
  · rw [spdmError_mem]
  · dsimp only
    split
    · exact hf _ _
    · rw [spdmError_mem]

@[simp] theorem answerSpdm_mem (s : State) (x : Session) (phase : Nat) (code : Byte) (body : List Byte) :
    (answerSpdm s x phase code body).mem = s.mem := by simp [answerSpdm]

@[simp] theorem execGetVersion_mem (r : SpdmReq) (s : State) : (outState s (execGetVersion r s)).mem = s.mem :=
  spdm_mem (fun _ _ => by rw [answerSpdm_mem, dropSession_mem]) _ _

@[simp] theorem execGetCapabilities_mem (r : SpdmReq) (s : State) : (outState s (execGetCapabilities r s)).mem = s.mem :=
  spdm_mem (fun _ _ => by rw [answerSpdm_mem]) _ _

@[simp] theorem execNegotiateAlgorithms_mem (r : SpdmReq) (s : State) : (outState s (execNegotiateAlgorithms r s)).mem = s.mem :=
  spdm_mem (fun _ _ => by split <;> simp) _ _

@[simp] theorem execGetDigests_mem (r : SpdmReq) (s : State) : (outState s (execGetDigests r s)).mem = s.mem :=
  spdm_mem (fun _ _ => by rw [answerSpdm_mem]) _ _

@[simp] theorem execGetCertificate_mem (r : SpdmReq) (s : State) : (outState s (execGetCertificate r s)).mem = s.mem :=
  spdm_mem (fun _ _ => by split <;> simp) _ _

@[simp] theorem execGetMeasurements_mem (r : SpdmReq) (s : State) : (outState s (execGetMeasurements r s)).mem = s.mem :=
  spdm_mem (fun _ _ => by rw [answerSpdm_mem]) _ _

@[simp] theorem execKeyExchange_mem (r : SpdmReq) (s : State) : (outState s (execKeyExchange r s)).mem = s.mem :=
  spdm_mem (fun _ _ => by rw [answerSpdm_mem]) _ _

@[simp] theorem execFinish_mem (r : SpdmReq) (s : State) : (outState s (execFinish r s)).mem = s.mem :=
  spdm_mem (fun _ _ => by split <;> simp) _ _

@[simp] theorem execIdeKm_mem (r : SpdmReq) (s : State) : (outState s (execIdeKm r s)).mem = s.mem := by
  unfold execIdeKm
  split <;> simp

@[simp] theorem spdmRequest_mem (s : State) (n : Nat) (bs : List Byte) : (spdmRequest s n bs).mem = s.mem := by
  unfold spdmRequest
  split <;> simp

@[simp] theorem doeSecured_mem (s : State) (body : List Byte) : (doeSecured s body).mem = s.mem := by
  simp only [doeSecured]
  repeat' split
  all_goals simp

@[simp] theorem doeGo_mem (s0 : State) : (doeGo s0).mem = s0.mem := by
  simp only [doeGo]
  repeat' split
  all_goals simp

@[simp] theorem cfgWrite_mem (s : State) (a : Nat) (bs : List Byte) : (cfgWrite s a bs).mem = s.mem := by
  unfold cfgWrite
  split <;> simp

@[simp] theorem hostConfig_mem (s : State) (t : Tlp) : (hostConfig s t).mem = s.mem := by
  unfold hostConfig
  repeat' split
  all_goals simp

@[simp] theorem execHostTlpReceive_memWf (t : Tlp) (s : State) (hwf : memWf s.mem = true) :
    memWf (outState s (execHostTlpReceive t s)).mem = true := by
  unfold execHostTlpReceive
  split <;> simp [hwf]

@[simp] theorem ackPort_mem (s : State) (p lseq : Nat) : (ackPort s p lseq).mem = s.mem := by simp [ackPort]

@[simp] theorem moveRoutes_mem (s : State) (p : Nat) : (moveRoutes s p).mem = s.mem := rfl

@[simp] theorem portDown_mem (s : State) (p : Nat) : (portDown s p).mem = s.mem := rfl

@[simp] theorem nakPort_mem (s : State) (p lseq : Nat) : (nakPort s p lseq).mem = s.mem := by
  simp only [nakPort]
  repeat' split
  all_goals simp

@[simp] theorem countReplay_mem (s : State) : (countReplay s).mem = s.mem := rfl

@[simp] theorem takePacket_mem (s : State) (port : Nat) (p : FabPkt) : (takePacket s port p).mem = s.mem := by simp [takePacket]

@[simp] theorem acceptFlit_mem (s : State) (port : Nat) (f : Flit) : (acceptFlit s port f).mem = s.mem := by simp [acceptFlit]

@[simp] theorem flitArrives_mem (s : State) (p : Nat) (f : Flit) : (flitArrives s p f).mem = s.mem := by simp [flitArrives]

@[simp] theorem execChiplinkFlitReceive_mem (port : Nat) (f : Flit) (s : State) :
    (outState s (execChiplinkFlitReceive port f s)).mem = s.mem := by simp [execChiplinkFlitReceive]

@[simp] theorem execLinkAck_mem (port lseq : Nat) (s : State) :
    (outState s (execLinkAck port lseq s)).mem = s.mem := by simp [execLinkAck]

@[simp] theorem execLinkNak_mem (port lseq : Nat) (s : State) :
    (outState s (execLinkNak port lseq s)).mem = s.mem := by simp [execLinkNak]

@[simp] theorem leaveOutbox_mem (s : State) : (leaveOutbox s).mem = s.mem := by
  simp only [leaveOutbox]
  rw [foldl_mem (fun z p => ?_), updDom_mem]
  split
  · rw [updPort_mem]
  · rfl

@[simp] theorem drainOnward_mem (s : State) (port : Nat) : (drainOnward s port).mem = s.mem := by
  unfold drainOnward
  refine foldl_mem (fun z c => ?_) _ _
  split
  · split
    · split
      · rw [updDom_mem, updPort_mem]
      · rfl
    · rfl
  · rfl

@[simp] theorem sendFlit_mem (s : State) (port c : Nat) : (sendFlit s port c).mem = s.mem := rfl

@[simp] theorem drainFar_mem (s : State) (port : Nat) : (drainFar s port).mem = s.mem := rfl

@[simp] theorem tickPort_mem (s : State) (port : Nat) : (tickPort s port).mem = s.mem := by
  have hdrain : (drainOnward (drainFar s port) port).mem = s.mem := by rw [drainOnward_mem, drainFar_mem]
  unfold tickPort
  dsimp only
  generalize drainOnward (drainFar s port) port = z at hdrain ⊢
  split
  · exact (sendFlit_mem ..).trans hdrain
  · exact hdrain

@[simp] theorem packOut_mem (s : State) : (packOut s).mem = s.mem := by simp [packOut]

/-! ## The trust domain -/

@[simp] theorem refuse_mem (s : State) : (refuse s).mem = s.mem := rfl

@[simp] theorem loseMember_mem (s : State) (m : Nat) : (loseMember s m).mem = s.mem := rfl

@[simp] theorem takeMember_mem (s : State) (m : Nat) : (takeMember s m).mem = s.mem := rfl

@[simp] theorem tellRecords_mem (s : State) (m : Nat) : (tellRecords s m).mem = s.mem := by simp [tellRecords]

@[simp] theorem newHome_mem (s : State) (p : Nat) : (newHome s p).mem = s.mem := by simp [newHome]

@[simp] theorem sendRekey_mem (s : State) (m code : Nat) (bs : List Byte) : (sendRekey s m code bs).mem = s.mem := rfl

@[simp] theorem arrivalAt_mem (s : State) (m top : Nat) : (arrivalAt s m top).mem = s.mem := rfl

@[simp] theorem tryClose_mem (s : State) : (tryClose s).mem = s.mem := by simp [tryClose]

@[simp] theorem sendArrival_mem (s : State) : (sendArrival s).mem = s.mem := rfl

@[simp] theorem arriveSelf_mem (s : State) : (arriveSelf s).mem = s.mem := by simp [arriveSelf]

@[simp] theorem installKeys_mem (s : State) (gen : Nat) (members leaving : List Nat) (secret : List Byte) :
    (installKeys s gen members leaving secret).mem = s.mem := by
  simp only [installKeys, arriveSelf_mem]
  rw [foldl_mem (fun z m => pumpStream_mem ..), foldl_mem (fun z m => loseMember_mem ..), updDom_mem]

@[simp] theorem sendList_mem (s : State) (m : Nat) : (sendList s m).mem = s.mem := rfl

@[simp] theorem startRekey_mem (s : State) : (startRekey s).mem = s.mem := by
  simp only [startRekey]
  split
  · rfl
  · rw [foldl_mem (fun z m => sendList_mem ..), installKeys_mem]

@[simp] theorem execRekeyStart_mem (s : State) : (outState s (execRekeyStart s)).mem = s.mem := by simp [execRekeyStart]

@[simp] theorem changeTo_mem (s : State) (next : List Nat) : (changeTo s next).mem = s.mem := rfl

@[simp] theorem rekeyMessage_mem (s : State) (gen : Nat) (members leaving : List Nat) (secret : List Byte) :
    (rekeyMessage s gen members leaving secret).mem = s.mem := by simp [rekeyMessage]

@[simp] theorem execRekeyMessageArrives_mem (gen : Nat) (members : List Nat) (secret : List Byte) (s : State) :
    (outState s (execRekeyMessageArrives gen members secret s)).mem = s.mem := by simp [execRekeyMessageArrives]

@[simp] theorem rekeyArrival_mem (s : State) (m top : Nat) : (rekeyArrival s m top).mem = s.mem := by simp [rekeyArrival]

@[simp] theorem execRekeyArrive_mem (m : Nat) (s : State) :
    (outState s (execRekeyArrive m s)).mem = s.mem := by simp [execRekeyArrive]

@[simp] theorem settlePkt_memWf (s : State) (m : Nat) (p : Pkt) (hwf : memWf s.mem = true) :
    memWf (settlePkt s m p).mem = true := by
  unfold settlePkt
  split <;> simp [hwf]

@[simp] theorem settleLost_memWf (s : State) (m : Nat) (hwf : memWf s.mem = true) :
    memWf (settleLost s m).mem = true := by simp +contextual [settleLost, hwf]

@[simp] theorem loseGroups_memWf (s : State) (gone failed : List Nat) (hwf : memWf s.mem = true) :
    memWf (loseGroups s gone failed).mem = true := by
  unfold loseGroups
  refine foldl_memWf (fun z g hz => ?_) _ hwf
  dsimp only
  refine groupGone_memWf _ _ _ _ ?_
  split
  · rw [relayTrap_mem]
    exact trapOwners_memWf _ _ _ _ hz
  · exact hz

@[simp] theorem standAlone_memWf (s : State) (hwf : memWf s.mem = true) : memWf (standAlone s).mem = true := by
  have hlost : memWf ((others s (s.dom.members ++ s.dom.barrier).eraseDups).foldl settleLost s).mem = true :=
    foldl_memWf (fun _ _ hz => settleLost_memWf _ _ hz) _ hwf
  have hgone := loseGroups_memWf _ s.dom.members [] hlost
  unfold standAlone
  extract_lets s1 s2 s3 s4
  have h4 : memWf s4.mem = true := hgone
  rwa [foldl_mem (fun z g => settleGone_mem ..)]

@[simp] theorem stayIn_memWf (s : State) (hwf : memWf s.mem = true) : memWf (stayIn s).mem = true := by
  unfold stayIn
  extract_lets d gone joined s1 s2 plaza s3 s4 s5
  have h2 : memWf s2.mem = true := loseGroups_memWf _ _ _ (foldl_memWf (fun _ _ hz => settleLost_memWf _ _ hz) _ hwf)
  have h4 : s4.mem = s2.mem := foldl_mem (fun z m => pumpStream_mem ..) _ s3
  have h5 : s5.mem = s2.mem := by
    unfold s5
    split
    · rw [reoffer_mem, updPlaza_mem, newHome_mem, h4]
    · exact h4
  split
  · rwa [h5]
  · have h6 : ((others s5 joined).foldl tellRecords s5).mem = s2.mem := (foldl_mem (fun z m => tellRecords_mem ..) _ s5).trans h5
    split
    · rwa [soon_mem, h6]
    · rwa [h6]

@[simp] theorem closeBarrier_memWf (s : State) (hwf : memWf s.mem = true) :
    memWf (closeBarrier s).mem = true := by simp [closeBarrier, hwf]

@[simp] theorem closeArrives_memWf (s : State) (gen top : Nat) (keep : List Nat) (hwf : memWf s.mem = true) :
    memWf (closeArrives s gen top keep).mem = true := by simp [closeArrives, hwf]

@[simp] theorem sendClose_mem (s : State) (gen : Nat) (keep : List Nat) (m : Nat) : (sendClose s gen keep m).mem = s.mem := rfl

@[simp] theorem plazaClose_memWf (s : State) (hwf : memWf s.mem = true) :
    memWf (plazaClose s).mem = true := by simp +contextual [plazaClose, hwf]

@[simp] theorem execRekeyClose_memWf (s : State) (hwf : memWf s.mem = true) :
    memWf (outState s (execRekeyClose s)).mem = true := by simp [execRekeyClose, hwf]

@[simp] theorem domCmd_mem {s z : State} (hz : z.mem = s.mem) (ok : Bool) : (outState s (domCmd s ok z)).mem = s.mem := by
  rw [domCmd, outState_next]
  split
  · exact hz
  · rw [refuse_mem]

@[simp] theorem execDomForm_mem (m : Nat) (s : State) : (outState s (execDomForm m s)).mem = s.mem :=
  domCmd_mem (by rw [soon_mem, updDom_mem, takeMember_mem]) _

@[simp] theorem askSpdm_mem (s : State) (plaza : Nat) (x : Session) (phase : Nat) (code : Byte) (body : List Byte) :
    (askSpdm s plaza x phase code body).mem = s.mem := by simp [askSpdm]

@[simp] theorem startJoin_mem (s : State) (m plaza : Nat) : (startJoin s m plaza).mem = s.mem := by simp [startJoin]

@[simp] theorem execDomJoin_mem (m plaza : Nat) (s : State) :
    (outState s (execDomJoin m plaza s)).mem = s.mem := by simp [execDomJoin]

@[simp] theorem endJoin_mem (s : State) (plaza : Nat) : (endJoin s plaza).mem = s.mem := rfl

theorem joinStep_mem {s z : State} {plaza m : Nat} {x : Session} {code : Nat} {body : List Byte}
    (hz : joinStep s plaza m x code body = some z) : z.mem = s.mem := by
  simp only [joinStep] at hz
  split at hz
  · cases hz; rw [askSpdm_mem]
  · cases hz; rw [askSpdm_mem]
  · split at hz
    · cases hz; rw [askSpdm_mem]
    · cases hz
  · cases hz; rw [askSpdm_mem]
  · split at hz
    · cases hz; rw [askSpdm_mem]
    · cases hz
  · split at hz
    · cases hz; rw [askSpdm_mem]
    · cases hz
  · split at hz
    · obtain ⟨seed, -, rfl⟩ := Option.map_eq_some_iff.mp hz
      rw [askSpdm_mem]
    · cases hz
  · cases hz; rw [sendRekey_mem, setSession_mem]
  · cases hz

@[simp] theorem execSpdmResponseArrives_mem (code : Nat) (body : List Byte) (s : State) :
    (outState s (execSpdmResponseArrives code body s)).mem = s.mem := by
  rw [execSpdmResponseArrives, outState_next]
  split
  · rfl
  · next plaza m _ =>
    cases hj : joinStep s plaza m (sessionOf s (plaza + 1)) code body with
    | none => exact endJoin_mem s plaza
    | some z => exact joinStep_mem hj

@[simp] theorem joinAccepted_mem (s : State) (plaza m : Nat) : (joinAccepted s plaza m).mem = s.mem := rfl

@[simp] theorem joinAnswered_mem (s : State) (src : Nat) (ok : Bool) : (joinAnswered s src ok).mem = s.mem := by
  unfold joinAnswered
  split <;> simp

@[simp] theorem execJoinRequest_mem (m : Nat) (s : State) :
    (outState s (execJoinRequest m s)).mem = s.mem := by simp [execJoinRequest]

@[simp] theorem leaveMember_mem (s : State) (m : Nat) : (leaveMember s m).mem = s.mem := by simp [leaveMember]

@[simp] theorem execDomLeave_mem (s : State) : (outState s (execDomLeave s)).mem = s.mem := by simp [execDomLeave]

@[simp] theorem evictMember_mem (s : State) (m : Nat) : (evictMember s m).mem = s.mem := by simp [evictMember]

@[simp] theorem execDomEvict_mem (m : Nat) (s : State) : (outState s (execDomEvict m s)).mem = s.mem := by simp [execDomEvict]

@[simp] theorem sendBeat_mem (s : State) (m : Nat) : (sendBeat s m).mem = s.mem := rfl

@[simp] theorem retell_mem (s : State) : (retell s).mem = s.mem := by simp [retell]

@[simp] theorem retellTo_mem (s : State) (m : Nat) : (retellTo s m).mem = s.mem := by simp [retellTo]

@[simp] theorem heartbeatOf_mem (s : State) (m : Nat) : (heartbeatOf s m).mem = s.mem := by simp [heartbeatOf]

@[simp] theorem execHeartbeat_mem (m : Nat) (s : State) : (outState s (execHeartbeat m s)).mem = s.mem := by simp [execHeartbeat]

@[simp] theorem lostInBarrier_mem (s : State) (m : Nat) : (lostInBarrier s m).mem = s.mem := by simp [lostInBarrier]

@[simp] theorem memberGone_mem (s : State) (m : Nat) : (memberGone s m).mem = s.mem := by
  simp only [memberGone]
  split
  · rw [tryClose_mem, changeTo_mem, foldl_mem (fun z x => sendRekey_mem ..), updDom_mem, lostInBarrier_mem, loseMember_mem]
  · rfl

@[simp] theorem execMemberLost_mem (m : Nat) (s : State) : (outState s (execMemberLost m s)).mem = s.mem := by simp [execMemberLost]

@[simp] theorem elect_mem (s : State) : (elect s).mem = s.mem := rfl

@[simp] theorem plazaGone_memWf (s : State) (hwf : memWf s.mem = true) : memWf (plazaGone s).mem = true := by simp [plazaGone, hwf]

@[simp] theorem execPlazaLost_memWf (s : State) (hwf : memWf s.mem = true) :
    memWf (outState s (execPlazaLost s)).mem = true := by simp [execPlazaLost, hwf]

@[simp] theorem exchangeTime_mem (s : State) (ref : Nat) : (exchangeTime s ref).mem = s.mem := by simp [exchangeTime]

@[simp] theorem execTimeExchange_mem (ref : Nat) (s : State) :
    (outState s (execTimeExchange ref s)).mem = s.mem := by simp [execTimeExchange]

/-! ## Fabric packets -/

@[simp] theorem sendAck_mem (s : State) (m : Nat) : (sendAck s m).mem = s.mem := by simp [sendAck]

@[simp] theorem takeGrant_mem (s : State) (m grant : Nat) : (takeGrant s m grant).mem = s.mem := rfl

@[simp] theorem ackStream_mem (s : State) (m seq grant : Nat) : (ackStream s m seq grant).mem = s.mem := by simp [ackStream]

@[simp] theorem ackComes_mem (s : State) (m : Nat) (bs : List Byte) : (ackComes s m bs).mem = s.mem := by simp [ackComes]

@[simp] theorem execE2eAck_mem (peer seq grant : Nat) (s : State) :
    (outState s (execE2eAck peer seq grant s)).mem = s.mem := by simp [execE2eAck]

@[simp] theorem ackDue_mem (s : State) (m : Nat) : (ackDue s m).mem = s.mem := by simp [ackDue]

@[simp] theorem execE2eAckTimer_mem (peer : Nat) (s : State) :
    (outState s (execE2eAckTimer peer s)).mem = s.mem := by simp [execE2eAckTimer]

@[simp] theorem resend_mem (s : State) (m seq : Nat) : (resend s m seq).mem = s.mem := rfl

@[simp] theorem execRetransmissionRequest_mem (peer seq : Nat) (s : State) :
    (outState s (execRetransmissionRequest peer seq s)).mem = s.mem := rfl

@[simp] theorem resendDue_mem (s : State) (m : Nat) : (resendDue s m).mem = s.mem := by simp [resendDue]

@[simp] theorem execStreamResendTimeout_mem (peer : Nat) (s : State) :
    (outState s (execStreamResendTimeout peer s)).mem = s.mem := by simp [execStreamResendTimeout]

@[simp] theorem serve_mem (s : State) (p : FabPkt) : (serve s p).mem = s.mem := by
  simp only [serve]
  repeat' split
  all_goals simp

@[simp] theorem replied_memWf (s : State) (p : FabPkt) (hwf : memWf s.mem = true) : memWf (replied s p).mem = true := by
  unfold replied
  repeat' split
  all_goals simp [hwf]

@[simp] theorem markMember_mem (s : State) (gid m : Nat) (un : Bool) : (markMember s gid m un).mem = s.mem := by
  simp only [markMember]
  repeat' split
  all_goals simp

@[simp] theorem partArrives_mem (s : State) (gid k m : Nat) (bs : List Byte) : (partArrives s gid k m bs).mem = s.mem := by
  unfold partArrives
  split <;> simp

@[simp] theorem groupTornDown_memWf (s : State) (gid k : Nat) (hwf : memWf s.mem = true) :
    memWf (groupTornDown s gid k).mem = true := by
  unfold groupTornDown
  split <;> simp [hwf]

@[simp] theorem trapTold_memWf (s : State) (gid cls k : Nat) (hwf : memWf s.mem = true) :
    memWf (trapTold s gid cls k).mem = true := by
  unfold trapTold
  split <;> simp [hwf]

@[simp] theorem recordArrives_mem (s : State) (g : Group) : (recordArrives s g).mem = s.mem := by simp [recordArrives]

@[simp] theorem turnPost_mem (s : State) (gid k m : Nat) : (turnPost s gid k m).mem = s.mem := rfl

@[simp] theorem resultTold_mem (s : State) (gid k m : Nat) : (resultTold s gid k m).mem = s.mem := by simp [resultTold]

@[simp] theorem ticketTold_mem (s : State) (gid k : Nat) (rank : Rank) :
    (ticketTold s gid k rank).mem = s.mem := by simp [ticketTold]

@[simp] theorem plazaMessage_memWf (s : State) (src : Nat) (bs : List Byte) (hwf : memWf s.mem = true) :
    memWf (plazaMessage s src bs).mem = true := by
  unfold plazaMessage
  split <;> simp [hwf]

@[simp] theorem plazaPart_memWf (s : State) (src cls : Nat) (bs : List Byte) (hwf : memWf s.mem = true) :
    memWf (plazaPart s src cls bs).mem = true := by simp [plazaPart, hwf]

@[simp] theorem spdmPart_mem (s : State) (src code : Nat) (bs : List Byte) :
    (spdmPart s src code bs).mem = s.mem := by simp [spdmPart]

@[simp] theorem listArrives_mem (s : State) (src gen : Nat) (members leaving : List Nat) (secret : List Byte) :
    (listArrives s src gen members leaving secret).mem = s.mem := by
  unfold listArrives
  split <;> simp

@[simp] theorem arrivalTold_mem (s : State) (src gen top : Nat) : (arrivalTold s src gen top).mem = s.mem := by simp [arrivalTold]

@[simp] theorem rekeyPart_memWf (s : State) (src : Nat) (bs : List Byte) (hwf : memWf s.mem = true) :
    memWf (rekeyPart s src bs).mem = true := by
  unfold rekeyPart
  split <;> simp [hwf]

@[simp] theorem timeMessage_mem (s : State) (src : Nat) (bs : List Byte) :
    (timeMessage s src bs).mem = s.mem := by simp [timeMessage]

@[simp] theorem beatArrives_mem (s : State) (src : Nat) (bs : List Byte) :
    (beatArrives s src bs).mem = s.mem := by simp [beatArrives]

@[simp] theorem escapeArrives_memWf (s : State) (p : FabPkt) (hwf : memWf s.mem = true) : memWf (escapeArrives s p).mem = true := by
  unfold escapeArrives
  split <;> simp [hwf]

@[simp] theorem deliverFabric_memWf (s : State) (p : FabPkt) (hwf : memWf s.mem = true) : memWf (deliverFabric s p).mem = true := by
  unfold deliverFabric
  split <;> simp [hwf]

@[simp] theorem sequencedArrives_memWf (s : State) (p : FabPkt) (hwf : memWf s.mem = true) :
    memWf (sequencedArrives s p).mem = true := by simp [sequencedArrives, hwf]

@[simp] theorem forward_mem (s : State) (p : FabPkt) : (forward s p).mem = s.mem := by simp [forward]

@[simp] theorem startArrives_mem (s : State) (p : FabPkt) : (startArrives s p).mem = s.mem := by simp [startArrives]

@[simp] theorem openedArrives_memWf (s : State) (p : FabPkt) (hwf : memWf s.mem = true) :
    memWf (openedArrives s p).mem = true := by simp [openedArrives, hwf]

@[simp] theorem fabricArrives_memWf (s : State) (p : FabPkt) (hwf : memWf s.mem = true) : memWf (fabricArrives s p).mem = true := by
  unfold fabricArrives
  split
  · simp [hwf]
  · split
    · simp [hwf]
    · split
      · rwa [startArrives_mem]
      · cases openPkt s p with
        | none => simpa using hwf
        | some q => exact openedArrives_memWf _ _ hwf

@[simp] theorem execFabricPacketArrival_memWf (p : FabPkt) (s : State) (hwf : memWf s.mem = true) :
    memWf (outState s (execFabricPacketArrival p s)).mem = true := by simp [execFabricPacketArrival, hwf]

end Sys2Proof.Machine
end

section
/-! SUPPORT. The canonical form of the memory list (MemoryFormKept) is kept by the scalar and vector forms, every instruction and
event, and a step, with the theorem that settles the statement. -/

namespace Sys2Proof.Machine
open Sys2Proof

/-! ## The scalar forms -/

@[simp] theorem computeP_mem (x : Args) (f : Opnds → BitVec 16) (s : State) (sid : Nat) (t : Strand) (o : Opnds) :
    (computeP x f s sid t o).state.mem = s.mem := rfl

/-! ## The vector forms -/

@[simp] theorem vecBody_mem (x : Args) (w n : Nat) (f : Strand → Opnds → Nat → FRes) (s : State) (sid : Nat) (t : Strand)
    (o : Opnds) :
    (vecBody x w n f s sid t o).state.mem = s.mem := rfl

@[simp] theorem laneForm_mem (x : Args) (f : Nat → Nat → Nat → FRes) (s : State) (sid : Nat) (t : Strand) (o : Opnds) :
    (laneForm x f s sid t o).state.mem = s.mem := rfl

@[simp] theorem byteForm_mem (x : Args) (f : Vec → Vec → Nat → Nat) (s : State) (sid : Nat) (t : Strand) (o : Opnds) :
    (byteForm x f s sid t o).state.mem = s.mem := rfl

@[simp] theorem shiftForm_mem (x : Args) (f : Nat → Nat → Nat → Nat) (s : State) (sid : Nat) (t : Strand) (o : Opnds) :
    (shiftForm x f s sid t o).state.mem = s.mem := rfl

@[simp] theorem vcmpBody_mem (c : Cond) (x : Args) (s : State) (sid : Nat) (t : Strand) (o : Opnds) :
    (vcmpBody c x s sid t o).state.mem = s.mem := rfl

@[simp] theorem funForm_mem (x : Args) (f : Fmt → FVal → FRes) (s : State) (sid : Nat) (t : Strand) (o : Opnds) :
    (funForm x f s sid t o).state.mem = s.mem := rfl

@[simp] theorem vexpnBody_mem (x : Args) (s : State) (sid : Nat) (t : Strand) (o : Opnds) :
    (vexpnBody x s sid t o).state.mem = s.mem := rfl

@[simp] theorem vrmaxBody_mem (x : Args) (s : State) (sid : Nat) (t : Strand) (o : Opnds) :
    (vrmaxBody x s sid t o).state.mem = s.mem := rfl

@[simp] theorem vcvtBody_mem (x : Args) (s : State) (sid : Nat) (t : Strand) (o : Opnds) :
    (vcvtBody x s sid t o).state.mem = s.mem := rfl

/-! ## What acts next -/

@[simp] theorem markIssue_mem (s : State) (sid : Nat) : (markIssue s sid).mem = s.mem := rfl

@[simp] theorem tickTime_mem (s : State) : (tickTime s).mem = s.mem := by simp [tickTime]

@[simp] theorem tickClocks_mem (s : State) : (tickClocks s).mem = s.mem := rfl

@[simp] theorem tickLinks_mem (s0 : State) : (tickLinks s0).mem = s0.mem := by simp [tickLinks]

@[simp] theorem fillBuckets_mem (s : State) : (fillBuckets s).mem = s.mem := rfl

@[simp] theorem tickDomain_memWf (s : State) (hwf : memWf s.mem = true) :
    memWf (tickDomain s).mem = true := by simp [tickDomain, hwf]

@[simp] theorem sendOn_mem (s : State) (port m kind : Nat) (payload : List Byte) : (sendOn s port m kind payload).mem = s.mem := by
  simp only [sendOn]
  repeat' split
  all_goals simp

@[simp] theorem timeDue_mem (s : State) (before : Nat) : (timeDue s before).mem = s.mem := by simp [timeDue]

@[simp] theorem tick_memWf (s0 : State) (hwf : memWf s0.mem = true) : memWf (tick s0).mem = true := by simp [tick, hwf]

@[simp] theorem settleCycle_memWf (s : State) (hwf : memWf s.mem = true) :
    memWf (settleCycle s).mem = true := by simp [settleCycle, hwf]

@[simp] theorem endCycle_memWf (s : State) (hwf : memWf s.mem = true) : memWf (endCycle s).mem = true := by simp [endCycle, hwf]

@[simp] theorem freeAct_memWf (s : State) (hwf : memWf s.mem = true) : memWf (freeAct s).2.mem = true := by
  simp only [freeAct]
  repeat' split
  all_goals simp [hwf]

@[simp] theorem nextAct_memWf (s : State) (hwf : memWf s.mem = true) : memWf (nextAct s).2.mem = true := by
  unfold nextAct
  repeat' split
  all_goals simp [hwf]

@[simp] theorem workAct_memWf (s : State) (b q : Nat) (hwf : memWf s.mem = true) : memWf (workAct s b q).mem = true := by
  unfold workAct
  split <;> simp [hwf]

@[simp] theorem poisonAct_mem (s : State) (a : Nat) : (poisonAct s a).mem = s.mem := rfl

/-! ## Every instruction and event -/

theorem KeepsForm.of_mem {body : Body1} (h : ∀ s sid t o, (body s sid t o).state.mem = s.mem) : KeepsForm body :=
  fun s sid t o hwf => (congrArg memWf (h s sid t o)).trans hwf

theorem run_memWf {op : Nat} {x : Args} {body : Body1} {s : State} (hbody : KeepsForm body) (hwf : memWf s.mem = true) :
    memWf (outState s (run op x body s)).mem = true := by
  unfold run
  split
  · rw [outState_next]
    exact runAt_memWf hbody _ _ _ _ hwf
  · exact hwf

/-- Every instruction and every event of the device keeps the canonical form. -/
theorem exec_memWf (i : Instr) (s : State) (hwf : memWf s.mem = true) : memWf (outState s (exec i s)).mem = true := by
  cases i with
  | add x => exact run_memWf (.of_mem fun _ _ _ _ => compute_mem ..) hwf
  | sub x => exact run_memWf (.of_mem fun _ _ _ _ => compute_mem ..) hwf
  | mul x => exact run_memWf (.of_mem fun _ _ _ _ => compute_mem ..) hwf
  | mulh x => exact run_memWf (.of_mem fun _ _ _ _ => compute_mem ..) hwf
  | div x => exact run_memWf (.of_mem fun _ _ _ _ => compute_mem ..) hwf
  | rem x => exact run_memWf (.of_mem fun _ _ _ _ => compute_mem ..) hwf
  | min x => exact run_memWf (.of_mem fun _ _ _ _ => compute_mem ..) hwf
  | max x => exact run_memWf (.of_mem fun _ _ _ _ => compute_mem ..) hwf
  | abs x => exact run_memWf (.of_mem fun _ _ _ _ => compute_mem ..) hwf
  | neg x => exact run_memWf (.of_mem fun _ _ _ _ => compute_mem ..) hwf
  | and x => exact run_memWf (.of_mem fun _ _ _ _ => compute_mem ..) hwf
  | or x => exact run_memWf (.of_mem fun _ _ _ _ => compute_mem ..) hwf
  | xor x => exact run_memWf (.of_mem fun _ _ _ _ => compute_mem ..) hwf
  | andn x => exact run_memWf (.of_mem fun _ _ _ _ => compute_mem ..) hwf
  | shl x => exact run_memWf (.of_mem fun _ _ _ _ => compute_mem ..) hwf
  | shr x => exact run_memWf (.of_mem fun _ _ _ _ => compute_mem ..) hwf
  | sar x => exact run_memWf (.of_mem fun _ _ _ _ => compute_mem ..) hwf
  | rot x => exact run_memWf (.of_mem fun _ _ _ _ => compute_mem ..) hwf
  | clz x => exact run_memWf (.of_mem fun _ _ _ _ => compute_mem ..) hwf
  | ctz x => exact run_memWf (.of_mem fun _ _ _ _ => compute_mem ..) hwf
  | popc x => exact run_memWf (.of_mem fun _ _ _ _ => compute_mem ..) hwf
  | ext x => exact run_memWf (.of_mem fun _ _ _ _ => compute_mem ..) hwf
  | bfx x => exact run_memWf (.of_mem fun _ _ _ _ => compute_mem ..) hwf
  | bfi x => exact run_memWf (.of_mem fun _ _ _ _ => compute_mem ..) hwf
  | sel x => exact run_memWf (fun _ _ _ _ h => by simp [h]) hwf
  | mov x => exact run_memWf (.of_mem fun _ _ _ _ => compute_mem ..) hwf
  | movw x => exact run_memWf (.of_mem fun _ _ _ _ => compute_mem ..) hwf
  | lea x => exact run_memWf (.of_mem fun _ _ _ _ => compute_mem ..) hwf
  | cmp c x => exact run_memWf (.of_mem fun _ _ _ _ => computeP_mem ..) hwf
  | pand x => exact run_memWf (.of_mem fun _ _ _ _ => computeP_mem ..) hwf
  | por x => exact run_memWf (.of_mem fun _ _ _ _ => computeP_mem ..) hwf
  | pxor x => exact run_memWf (.of_mem fun _ _ _ _ => computeP_mem ..) hwf
  | pnot x => exact run_memWf (.of_mem fun _ _ _ _ => computeP_mem ..) hwf
  | br x => exact run_memWf (.of_mem fun _ _ _ _ => branch_mem ..) hwf
  | bri x => exact run_memWf (fun _ _ _ _ h => returnTo_memWf (hwf := h) ..) hwf
  | call x => exact run_memWf (.of_mem fun _ _ _ _ => branch_mem ..) hwf
  | ret x => exact run_memWf (fun _ _ _ _ h => returnTo_memWf (hwf := h) ..) hwf
  | loop n x => exact run_memWf (.of_mem fun _ _ _ _ => loopBody_mem ..) hwf
  | lbrk n x => exact run_memWf (.of_mem fun _ _ _ _ => lbrkBody_mem ..) hwf
  | nop x => exact run_memWf (fun _ _ _ _ h => by simp [h]) hwf
  | halt x => exact run_memWf (fun _ _ _ _ h => by simp [h]) hwf
  | trap x => exact run_memWf (fun _ _ _ _ h => by simp [h]) hwf
  | bkpt x => exact run_memWf (fun _ _ _ _ h => by simp [h]) hwf
  | rls x => exact run_memWf (.of_mem fun _ _ _ _ => rlsBody_mem ..) hwf
  | mfs x => exact run_memWf (fun _ _ _ _ h => by simp [h]) hwf
  | mts x => exact run_memWf (fun _ _ _ _ h => by simp [h]) hwf
  | time x => exact run_memWf (fun _ _ _ _ h => by simp [h]) hwf
  | dln x => exact run_memWf (.of_mem fun _ _ _ _ => dlnBody_mem ..) hwf
  | dlx x => exact run_memWf (fun _ _ _ _ h => by simp [h]) hwf
  | part x => exact run_memWf (fun _ _ _ _ h => by simp [h]) hwf
  | strt x => exact run_memWf (fun _ _ _ _ h => strtBody_memWf (hwf := h) ..) hwf
  | reap x => exact run_memWf (.of_mem fun _ _ _ _ => reapBody_mem ..) hwf
  | evict x => exact run_memWf (.of_mem fun _ _ _ _ => evictBody_mem ..) hwf
  | admitStrand x => exact run_memWf (.of_mem fun _ _ _ _ => admitBody_mem ..) hwf
  | yield x => exact run_memWf (.of_mem fun _ _ _ _ => yieldBody_mem ..) hwf
  | utake x => exact run_memWf (.of_mem fun _ _ _ _ => utakeBody_mem ..) hwf
  | vadd x => exact run_memWf (.of_mem fun _ _ _ _ => laneForm_mem ..) hwf
  | vsub x => exact run_memWf (.of_mem fun _ _ _ _ => laneForm_mem ..) hwf
  | vmul x => exact run_memWf (.of_mem fun _ _ _ _ => laneForm_mem ..) hwf
  | vfma x => exact run_memWf (.of_mem fun _ _ _ _ => vecBody_mem ..) hwf
  | vmin x => exact run_memWf (.of_mem fun _ _ _ _ => laneForm_mem ..) hwf
  | vmax x => exact run_memWf (.of_mem fun _ _ _ _ => laneForm_mem ..) hwf
  | vabs x => exact run_memWf (.of_mem fun _ _ _ _ => laneForm_mem ..) hwf
  | vneg x => exact run_memWf (.of_mem fun _ _ _ _ => laneForm_mem ..) hwf
  | vand x => exact run_memWf (.of_mem fun _ _ _ _ => byteForm_mem ..) hwf
  | vor x => exact run_memWf (.of_mem fun _ _ _ _ => byteForm_mem ..) hwf
  | vxor x => exact run_memWf (.of_mem fun _ _ _ _ => byteForm_mem ..) hwf
  | vshl x => exact run_memWf (.of_mem fun _ _ _ _ => shiftForm_mem ..) hwf
  | vshr x => exact run_memWf (.of_mem fun _ _ _ _ => shiftForm_mem ..) hwf
  | vsar x => exact run_memWf (.of_mem fun _ _ _ _ => shiftForm_mem ..) hwf
  | vcmp c x => exact run_memWf (.of_mem fun _ _ _ _ => vcmpBody_mem ..) hwf
  | vsel x => exact run_memWf (.of_mem fun _ _ _ _ => byteForm_mem ..) hwf
  | vdot x => exact run_memWf (.of_mem fun _ _ _ _ => vecBody_mem ..) hwf
  | vsum x => exact run_memWf (.of_mem fun _ _ _ _ => vecBody_mem ..) hwf
  | vexp2 x => exact run_memWf (fun _ _ _ _ h => by simp [h]) hwf
  | vlog2 x => exact run_memWf (fun _ _ _ _ h => by simp [h]) hwf
  | vrcp x => exact run_memWf (fun _ _ _ _ h => by simp [h]) hwf
  | vrsq x => exact run_memWf (fun _ _ _ _ h => by simp [h]) hwf
  | vtanh x => exact run_memWf (fun _ _ _ _ h => by simp [h]) hwf
  | vexpn x => exact run_memWf (.of_mem fun _ _ _ _ => vexpnBody_mem ..) hwf
  | vmaxe x => exact run_memWf (.of_mem fun _ _ _ _ => laneForm_mem ..) hwf
  | vldexp x => exact run_memWf (.of_mem fun _ _ _ _ => laneForm_mem ..) hwf
  | vrmax x => exact run_memWf (.of_mem fun _ _ _ _ => vrmaxBody_mem ..) hwf
  | vcvt x => exact run_memWf (.of_mem fun _ _ _ _ => vcvtBody_mem ..) hwf
  | vperm x => exact run_memWf (.of_mem fun _ _ _ _ => byteForm_mem ..) hwf
  | vsplat x => exact run_memWf (.of_mem fun _ _ _ _ => vecBody_mem ..) hwf
  | vins x => exact run_memWf (.of_mem fun _ _ _ _ => vecBody_mem ..) hwf
  | vext x => exact run_memWf (.of_mem fun _ _ _ _ => compute_mem ..) hwf
  | ld x => exact run_memWf (fun _ _ _ _ h => ldBody_memWf (hwf := h) ..) hwf
  | st x => exact run_memWf (fun _ _ _ _ h => stBody_memWf (hwf := h) ..) hwf
  | vld x => exact run_memWf (fun _ _ _ _ h => vldBody_memWf (hwf := h) ..) hwf
  | vst x => exact run_memWf (fun _ _ _ _ h => vstBody_memWf (hwf := h) ..) hwf
  | ldm x => exact run_memWf (fun _ _ _ _ h => ldmBody_memWf (hwf := h) ..) hwf
  | stm x => exact run_memWf (fun _ _ _ _ h => stmBody_memWf (hwf := h) ..) hwf
  | acq c x => exact run_memWf (fun _ _ _ _ h => ldBody_memWf (hwf := h) ..) hwf
  | rel c x => exact run_memWf (fun _ _ _ _ h => relBody_memWf (hwf := h) ..) hwf
  | fnc c x => exact run_memWf (.of_mem fun _ _ _ _ => fncBody_mem ..) hwf
  | send x => exact run_memWf (fun _ _ _ _ h => sendBody_memWf (hwf := h) ..) hwf
  | recv x => exact run_memWf (fun _ _ _ _ h => recvBody_memWf (hwf := h) ..) hwf
  | putr x => exact run_memWf (fun _ _ _ _ h => putrBody_memWf (hwf := h) ..) hwf
  | fec x => exact run_memWf (.of_mem fun _ _ _ _ => fecBody_mem ..) hwf
  | feq x => exact run_memWf (fun _ _ _ _ h => by simp [h]) hwf
  | aadd x => exact run_memWf (fun _ _ _ _ h => atomicBody_memWf (hwf := h) ..) hwf
  | aand x => exact run_memWf (fun _ _ _ _ h => atomicBody_memWf (hwf := h) ..) hwf
  | aor x => exact run_memWf (fun _ _ _ _ h => atomicBody_memWf (hwf := h) ..) hwf
  | axor x => exact run_memWf (fun _ _ _ _ h => atomicBody_memWf (hwf := h) ..) hwf
  | amin x => exact run_memWf (fun _ _ _ _ h => atomicBody_memWf (hwf := h) ..) hwf
  | amax x => exact run_memWf (fun _ _ _ _ h => atomicBody_memWf (hwf := h) ..) hwf
  | axch x => exact run_memWf (fun _ _ _ _ h => atomicBody_memWf (hwf := h) ..) hwf
  | acas x => exact run_memWf (fun _ _ _ _ h => atomicBody_memWf (hwf := h) ..) hwf
  | ainc x => exact run_memWf (fun _ _ _ _ h => atomicBody_memWf (hwf := h) ..) hwf
  | hbAlloc x => exact run_memWf (.of_mem fun _ _ _ _ => hbAllocBody_mem ..) hwf
  | hbJoin x => exact run_memWf (fun _ _ _ _ h => hbJoinBody_memWf (hwf := h) ..) hwf
  | hbArrive x => exact run_memWf (fun _ _ _ _ h => hbArriveBody_memWf (hwf := h) ..) hwf
  | hbWait x => exact run_memWf (fun _ _ _ _ h => hbWaitBody_memWf (hwf := h) ..) hwf
  | hbLeave x => exact run_memWf (fun _ _ _ _ h => hbLeaveBody_memWf (hwf := h) ..) hwf
  | hbFree x => exact run_memWf (.of_mem fun _ _ _ _ => hbFreeBody_mem ..) hwf
  | mbInit x => exact run_memWf (fun _ _ _ _ h => mbBody_memWf (hwf := h) ..) hwf
  | mbArrive x => exact run_memWf (fun _ _ _ _ h => mbBody_memWf (hwf := h) ..) hwf
  | mbExpect x => exact run_memWf (fun _ _ _ _ h => mbBody_memWf (hwf := h) ..) hwf
  | mbWait x => exact run_memWf (fun _ _ _ _ h => mbWaitBody_memWf (hwf := h) ..) hwf
  | chOpen x => exact run_memWf (fun _ _ _ _ h => chOpenBody_memWf (hwf := h) ..) hwf
  | rgProd x => exact run_memWf (fun _ _ _ _ h => rgProdBody_memWf (hwf := h) ..) hwf
  | rgPut x => exact run_memWf (fun _ _ _ _ h => rgPutBody_memWf (hwf := h) ..) hwf
  | rgGet x => exact run_memWf (fun _ _ _ _ h => rgGetBody_memWf (hwf := h) ..) hwf
  | rgEos x => exact run_memWf (fun _ _ _ _ h => rgEosBody_memWf (hwf := h) ..) hwf
  | owe x => exact run_memWf (.of_mem fun _ _ _ _ => oweBody_mem ..) hwf
  | unowe x => exact run_memWf (.of_mem fun _ _ _ _ => unoweBody_mem ..) hwf
  | tdset x => exact run_memWf (fun _ _ _ _ h => tdBody_memWf (hwf := h) ..) hwf
  | tdget x => exact run_memWf (fun _ _ _ _ h => tdBody_memWf (hwf := h) ..) hwf
  | mxq x => exact run_memWf (fun _ _ _ _ h => by simp [h]) hwf
  | cld x => exact run_memWf (.of_mem fun _ _ _ _ => cldBody_mem ..) hwf
  | cpq x => exact run_memWf (fun _ _ _ _ h => by simp [h]) hwf
  | cpr x => exact run_memWf (fun _ _ _ _ h => cprBody_memWf (hwf := h) ..) hwf
  | jwait x => exact run_memWf (fun _ _ _ _ h => jwaitBody_memWf (hwf := h) ..) hwf
  | jwaitp x => exact run_memWf (fun _ _ _ _ h => jwaitpBody_memWf (hwf := h) ..) hwf
  | jstat x => exact run_memWf (.of_mem fun _ _ _ _ => jstatBody_mem ..) hwf
  | jcan x => exact run_memWf (fun _ _ _ _ h => jcanBody_memWf (hwf := h) ..) hwf
  | qfence x => exact run_memWf (.of_mem fun _ _ _ _ => qfenceBody_mem ..) hwf
  | tcset x => exact run_memWf (fun _ _ _ _ h => tcsetBody_memWf (hwf := h) ..) hwf
  | tcadd x => exact run_memWf (fun _ _ _ _ h => tcaddBody_memWf (hwf := h) ..) hwf
  | tcwait x => exact run_memWf (fun _ _ _ _ h => tcwaitBody_memWf (hwf := h) ..) hwf
  | trig x => exact run_memWf (fun _ _ _ _ h => trigBody_memWf (hwf := h) ..) hwf
  | launch x => exact run_memWf (fun _ _ _ _ h => launchBody_memWf (hwf := h) ..) hwf
  | spawn x => exact run_memWf (fun _ _ _ _ h => spawnBody_memWf (hwf := h) ..) hwf
  | grpMake x => exact run_memWf (fun _ _ _ _ h => grpMakeBody_memWf (hwf := h) ..) hwf
  | grpJoin x => exact run_memWf (.of_mem fun _ _ _ _ => grpJoinBody_mem ..) hwf
  | grpInfo x => exact run_memWf (fun _ _ _ _ h => by simp [h]) hwf
  | cpost x => exact run_memWf (fun _ _ _ _ h => postBody_memWf (hwf := h) ..) hwf
  | cwait x => exact run_memWf (fun _ _ _ _ h => cwaitBody_memWf (hwf := h) ..) hwf
  | cstat x => exact run_memWf (.of_mem fun _ _ _ _ => cstatBody_mem ..) hwf
  | tree x => exact run_memWf (.of_mem fun _ _ _ _ => treeBody_mem ..) hwf
  | kvmap x => exact run_memWf (fun _ _ _ _ h => kvForm_memWf (hwf := h) ..) hwf
  | kvref x => exact run_memWf (fun _ _ _ _ h => kvForm_memWf (hwf := h) ..) hwf
  | kvfork x => exact run_memWf (fun _ _ _ _ h => kvForm_memWf (hwf := h) ..) hwf
  | kvw x => exact run_memWf (fun _ _ _ _ h => kvForm_memWf (hwf := h) ..) hwf
  | kvdem x => exact run_memWf (fun _ _ _ _ h => kvForm_memWf (hwf := h) ..) hwf
  | domInfo x => exact run_memWf (fun _ _ _ _ h => by simp [h]) hwf
  | endStrand uid => exact execEndStrand_memWf (hwf := hwf) ..
  | ibufLineLands core line => exact (congrArg memWf (execIbufLineLands_mem ..)).trans hwf
  | requestPerformed k => exact execRequestPerformed_memWf (hwf := hwf) ..
  | loadDataLands k => exact execLoadDataLands_memWf (hwf := hwf) ..
  | accessAcknowledged k => exact execAccessAcknowledged_memWf (hwf := hwf) ..
  | scopeMissReissue k => exact execScopeMissReissue_memWf (hwf := hwf) ..
  | atomicGrant k => exact (congrArg memWf (execAtomicGrant_mem ..)).trans hwf
  | atomicRelease k => exact execAtomicRelease_memWf (hwf := hwf) ..
  | ringPacketHop k => exact (congrArg memWf (execRingPacketHop_mem ..)).trans hwf
  | meshFlitHop k => exact (congrArg memWf (execMeshFlitHop_mem ..)).trans hwf
  | inboxPoolGrant core => exact (congrArg memWf (execInboxPoolGrant_mem ..)).trans hwf
  | inboxMessageArrives k => exact execInboxMessageArrives_memWf (hwf := hwf) ..
  | channelSlotGrant k => exact execChannelSlotGrant_memWf (hwf := hwf) ..
  | channelMessageLands k => exact execChannelMessageLands_memWf (hwf := hwf) ..
  | ringSlotReserve k => exact execRingSlotReserve_memWf (hwf := hwf) ..
  | ringDataLands k => exact execRingDataLands_memWf (hwf := hwf) ..
  | ringTokenArrives k => exact execRingTokenArrives_memWf (hwf := hwf) ..
  | hbEventPerformed k => exact execHbEventPerformed_memWf (hwf := hwf) ..
  | mbEventPerformed k => exact execMbEventPerformed_memWf (hwf := hwf) ..
  | tcEventPerformed k => exact execTcEventPerformed_memWf (hwf := hwf) ..
  | putrArrives k => exact execPutrArrives_memWf (hwf := hwf) ..
  | cprWordLands k => exact execCprWordLands_memWf (hwf := hwf) ..
  | waitWake sid => exact (congrArg memWf (execWaitWake_mem ..)).trans hwf
  | waitTimeout uid => exact (congrArg memWf (execWaitTimeout_mem ..)).trans hwf
  | deadlineExpiry uid => exact execDeadlineExpiry_memWf (hwf := hwf) ..
  | promiseMissed blk q seq => exact execPromiseMissed_memWf (hwf := hwf) ..
  | withholdNoticeArrives k => exact execWithholdNoticeArrives_memWf (hwf := hwf) ..
  | unwithholdNoticeArrives k => exact execUnwithholdNoticeArrives_memWf (hwf := hwf) ..
  | cordonLeave uid => exact execCordonLeave_memWf (hwf := hwf) ..
  | rootReady uid => exact execRootReady_memWf (hwf := hwf) ..
  | trapRecordDelivery k => exact execTrapRecordDelivery_memWf (hwf := hwf) ..
  | trapqRecordTimeout k => exact (congrArg memWf (execTrapqRecordTimeout_mem ..)).trans hwf
  | evictComplete uid => exact execEvictComplete_memWf (hwf := hwf) ..
  | admitComplete uid => exact execAdmitComplete_memWf (hwf := hwf) ..
  | autoEvict core => exact (congrArg memWf (execAutoEvict_mem ..)).trans hwf
  | autoAdmit core => exact (congrArg memWf (execAutoAdmit_mem ..)).trans hwf
  | queueEntryGrant blk q => exact (congrArg memWf (execQueueEntryGrant_mem ..)).trans hwf
  | jobStart blk q => exact execJobStart_memWf (hwf := hwf) ..
  | jobEnd blk q => exact execJobEnd_memWf (hwf := hwf) ..
  | jobCancelStop blk q => exact execJobCancelStop_memWf (hwf := hwf) ..
  | fenceEnd blk seq => exact execFenceEnd_memWf (hwf := hwf) ..
  | treeRoundComplete ctx dist chan => exact execTreeRoundComplete_memWf (hwf := hwf) ..
  | hostSubmission ctx slot => exact execHostSubmission_memWf (hwf := hwf) ..
  | unitRelease entry => exact execUnitRelease_memWf (hwf := hwf) ..
  | unitOffer k => exact (congrArg memWf (execUnitOffer_mem ..)).trans hwf
  | cornerQueueReoffer blk => exact (congrArg memWf (execCornerQueueReoffer_mem ..)).trans hwf
  | launchEnd entry => exact execLaunchEnd_memWf (hwf := hwf) ..
  | wcancel ctx v => exact execWcancel_memWf (hwf := hwf) ..
  | plazaPostArrival gid k member sig => exact execPlazaPostArrival_memWf (hwf := hwf) ..
  | ticketArrives gid k rank => exact (congrArg memWf (execTicketArrives_mem ..)).trans hwf
  | collectiveEnd post => exact execCollectiveEnd_memWf (hwf := hwf) ..
  | pageWalkComplete k => exact (congrArg memWf (execPageWalkComplete_mem ..)).trans hwf
  | missMergeEntryGrant dist => exact (congrArg memWf (execMissMergeEntryGrant_mem ..)).trans hwf
  | tlbinvPage v => exact (congrArg memWf (execTlbinvPage_mem ..)).trans hwf
  | tlbinvKey v => exact (congrArg memWf (execTlbinvKey_mem ..)).trans hwf
  | tlbinvContext v => exact (congrArg memWf (execTlbinvContext_mem ..)).trans hwf
  | kvEventPerformed k => exact execKvEventPerformed_memWf (hwf := hwf) ..
  | kvCopyEnd k => exact execKvCopyEnd_memWf (hwf := hwf) ..
  | kvFlip k => exact execKvFlip_memWf (hwf := hwf) ..
  | frameRetire k => exact execFrameRetire_memWf (hwf := hwf) ..
  | scrubEnd blk => exact (congrArg memWf (execScrubEnd_mem ..)).trans hwf
  | ctxCreate ctx => exact execCtxCreate_memWf (hwf := hwf) ..
  | ctxAdmit ctx => exact execCtxAdmit_memWf (hwf := hwf) ..
  | ctxStart ctx => exact execCtxStart_memWf (hwf := hwf) ..
  | ctxSwitch ctx succ => exact execCtxSwitch_memWf (hwf := hwf) ..
  | ctxStop ctx => exact execCtxStop_memWf (hwf := hwf) ..
  | ctxcmdHold ctx hold => exact (congrArg memWf (execCtxcmdHold_mem ..)).trans hwf
  | slotZeroStart core => exact (congrArg memWf (execSlotZeroStart_mem ..)).trans hwf
  | gangSwitch ctx => exact execGangSwitch_memWf (hwf := hwf) ..
  | contextSaveComplete ctx => exact execContextSaveComplete_memWf (hwf := hwf) ..
  | lateDeviceEvent ctx => exact (congrArg memWf (execLateDeviceEvent_mem ..)).trans hwf
  | contextRestore ctx => exact execContextRestore_memWf (hwf := hwf) ..
  | cutClosed ctx => exact execCutClosed_memWf (hwf := hwf) ..
  | unrecoverableFault ctx => exact execUnrecoverableFault_memWf (hwf := hwf) ..
  | teardownComplete ctx => exact (congrArg memWf (execTeardownComplete_mem ..)).trans hwf
  | deadlockSample ctx => exact execDeadlockSample_memWf (hwf := hwf) ..
  | dbgStop ctx sid => exact execDbgStop_memWf (hwf := hwf) ..
  | dbgRelease ctx sid => exact execDbgRelease_memWf (hwf := hwf) ..
  | dbgHold ctx sid => exact execDbgHold_memWf (hwf := hwf) ..
  | pwrlimWrite v => exact (congrArg memWf (execPwrlimWrite_mem ..)).trans hwf
  | rateLimitRelease k => exact (congrArg memWf (execRateLimitRelease_mem ..)).trans hwf
  | registerWrite core ctx off v => exact execRegisterWrite_memWf (hwf := hwf) ..
  | domForm m => exact (congrArg memWf (execDomForm_mem ..)).trans hwf
  | domJoin m plaza => exact (congrArg memWf (execDomJoin_mem ..)).trans hwf
  | domEvict m => exact (congrArg memWf (execDomEvict_mem ..)).trans hwf
  | tickBoundary => exact (congrArg memWf (execTickBoundary_mem ..)).trans hwf
  | jobFault blk q cls step info => exact execJobFault_memWf (hwf := hwf) ..
  | bareTicketArrives dom => exact (congrArg memWf (execBareTicketArrives_mem ..)).trans hwf
  | collectiveStart => exact execCollectiveStart_memWf (hwf := hwf) ..
  | contributionMerged gid k member data => exact execContributionMerged_memWf (hwf := hwf) ..
  | collectiveFaultAbort gid k => exact execCollectiveFaultAbort_memWf (hwf := hwf) ..
  | errlogCapture src pa => exact (congrArg memWf (execErrlogCapture_mem ..)).trans hwf
  | errlogClear => exact (congrArg memWf (execErrlogClear_mem ..)).trans hwf
  | powerWindow => exact execPowerWindow_memWf (hwf := hwf) ..
  | domLeave => exact (congrArg memWf (execDomLeave_mem ..)).trans hwf
  | joinRequest m => exact (congrArg memWf (execJoinRequest_mem ..)).trans hwf
  | getVersion r => exact (congrArg memWf (execGetVersion_mem ..)).trans hwf
  | getCapabilities r => exact (congrArg memWf (execGetCapabilities_mem ..)).trans hwf
  | negotiateAlgorithms r => exact (congrArg memWf (execNegotiateAlgorithms_mem ..)).trans hwf
  | getDigests r => exact (congrArg memWf (execGetDigests_mem ..)).trans hwf
  | getCertificate r => exact (congrArg memWf (execGetCertificate_mem ..)).trans hwf
  | getMeasurements r => exact (congrArg memWf (execGetMeasurements_mem ..)).trans hwf
  | keyExchange r => exact (congrArg memWf (execKeyExchange_mem ..)).trans hwf
  | finish r => exact (congrArg memWf (execFinish_mem ..)).trans hwf
  | ideKm r => exact (congrArg memWf (execIdeKm_mem ..)).trans hwf
  | hostTlpReceive t => exact execHostTlpReceive_memWf (hwf := hwf) ..
  | rekeyStart => exact (congrArg memWf (execRekeyStart_mem ..)).trans hwf
  | rekeyArrive m => exact (congrArg memWf (execRekeyArrive_mem ..)).trans hwf
  | rekeyClose => exact execRekeyClose_memWf (hwf := hwf) ..
  | heartbeat m => exact (congrArg memWf (execHeartbeat_mem ..)).trans hwf
  | memberLost m => exact (congrArg memWf (execMemberLost_mem ..)).trans hwf
  | plazaLost => exact execPlazaLost_memWf (hwf := hwf) ..
  | timeExchange ref => exact (congrArg memWf (execTimeExchange_mem ..)).trans hwf
  | chiplinkFlitReceive port f => exact (congrArg memWf (execChiplinkFlitReceive_mem ..)).trans hwf
  | linkAck port lseq => exact (congrArg memWf (execLinkAck_mem ..)).trans hwf
  | linkNak port lseq => exact (congrArg memWf (execLinkNak_mem ..)).trans hwf
  | fabricPacketArrival p => exact execFabricPacketArrival_memWf (hwf := hwf) ..
  | retransmissionRequest peer seq => exact (congrArg memWf (execRetransmissionRequest_mem ..)).trans hwf
  | e2eAck peer seq grant => exact (congrArg memWf (execE2eAck_mem ..)).trans hwf
  | e2eAckTimer peer => exact (congrArg memWf (execE2eAckTimer_mem ..)).trans hwf
  | streamResendTimeout peer => exact (congrArg memWf (execStreamResendTimeout_mem ..)).trans hwf
  | reset => exact execReset_memWf s
  | functionReady bit => exact (congrArg memWf (execFunctionReady_mem ..)).trans hwf
  | districtFailure d => exact execDistrictFailure_memWf (hwf := hwf) ..
  | plazaGroupRequest m ctx entries => exact (congrArg memWf (execPlazaGroupRequest_mem ..)).trans hwf
  | bareTicketRequest m => exact (congrArg memWf (execBareTicketRequest_mem ..)).trans hwf
  | spdmResponseArrives code body => exact (congrArg memWf (execSpdmResponseArrives_mem ..)).trans hwf
  | rekeyMessageArrives gen members secret => exact (congrArg memWf (execRekeyMessageArrives_mem ..)).trans hwf
  | registerFileError sid cls idx => exact execRegisterFileError_memWf (hwf := hwf) ..
  | functionFailure bit => exact (congrArg memWf (execFunctionFailure_mem ..)).trans hwf

/-! ## A step -/

theorem fetch_memWf {s z : State} {sid : Nat} (hz : fetch s sid = .other z) (hwf : memWf s.mem = true) : memWf z.mem = true := by
  have hdecoded {w : BitVec 96} (hw : decoded s sid w = .other z) : memWf z.mem = true := by
    unfold decoded at hw
    split at hw
    · cases hw
    · cases hw
      exact takeTrap_memWf _ _ _ _ _ _ hwf
  unfold fetch at hz
  dsimp only at hz
  split at hz
  · cases hz
    exact hwf
  · split at hz
    · cases hz
      exact takeDue_memWf _ _ hwf
    · split at hz
      · exact hdecoded hz
      · split at hz
        · cases hz
          exact takeTrap_memWf _ _ _ _ _ _ hwf
        · split at hz
          · cases hz
            exact takeTrap_memWf _ _ _ _ _ _ hwf
          · split at hz
            · exact hdecoded hz
            · split at hz
              · cases hz
                exact takeTrap_memWf _ _ _ _ _ _ hwf
              · cases hz
                exact fetchMiss_memWf _ _ _ hwf

theorem issue_memWf (s : State) (sid : Nat) (hwf : memWf s.mem = true) : memWf (outState s (issue s sid)).mem = true := by
  unfold issue
  split
  · next i _ =>
    have hexec := exec_memWf i (markIssue s sid) (by rwa [markIssue_mem])
    cases hi : exec i (markIssue s sid) with
    | next z => rwa [hi] at hexec
    | _ => exact hwf
  · next hz => exact fetch_memWf hz hwf

theorem act_memWf (a : Act) (s : State) (hwf : memWf s.mem = true) : memWf (outState s (act a s)).mem = true := by
  cases a with
  | issue sid => exact issue_memWf s sid hwf
  | event i =>
    simp only [act]
    split
    · exact exec_memWf i s hwf
    · exact hwf
  | work b q => exact workAct_memWf s b q hwf
  | poison k => exact hwf

/-- Settles O35: every act keeps the canonical form, and so does the choice of the next one. -/
theorem memoryFormKept : Obligations.MemoryFormKept := by
  unfold Obligations.MemoryFormKept
  intro s t hwf hstep
  have hact := act_memWf (nextAct s).1 (nextAct s).2 (nextAct_memWf s hwf)
  have hout : act (nextAct s).1 (nextAct s).2 = .next t := hstep
  rwa [hout, outState_next] at hact

end Sys2Proof.Machine
end
